-- ==== Sys2Proof/Word.lean ====
section
/-! DEFINITION. The word types of the Edilon X9 (spec/02 R27, R30; spec/05 R103; spec/10 R195). -/

namespace Sys2Proof

/-- A sequencer register or address word (R30). -/
abbrev Word := BitVec 64

/-- One byte of memory. -/
abbrev Byte := BitVec 8

/-- One 256-byte row, read as a little-endian 2,048-bit number (R103). -/
abbrev Row := BitVec 2048

/-- One 384-bit bundle (R58). -/
abbrev BundleBits := BitVec 384

/-- A sparse array: index and value pairs, indices strictly rising, no entry equal to the default. -/
abbrev Assoc (β : Type) := List (Nat × β)

end Sys2Proof
end

