-- ==== Sys2Proof/Syntax.lean ====
section
/-! DEFINITION. The operations and events of the Edilon X9: one constructor for each row of the table of
operations and events (spec/opcode_table.json). Instruction words carry their fields as spec/02 gives them;
an event carries the agent it happens at. A core is named die * 128 + core, a context bank 2 * core name + bank,
a cluster die * 16 + cluster, a sequence by its 24-bit handle (R279). -/

namespace Sys2Proof

/-- The token and barrier fields of an SX extension word (R29, R46, R47). -/
structure Ext where
  push : BitVec 3
  popa : BitVec 3
  popb : BitVec 3
  popc : BitVec 3
  sig : Bool
  scb : BitVec 6
  wt : Bool
  wcb : BitVec 6
  deriving DecidableEq, Repr

/-- The register fields of an SX head (DST, SA, SB, SC) with its extension word (R29, R44). -/
structure SXWord where
  d : BitVec 5
  a : BitVec 5
  b : BitVec 5
  c : BitVec 5
  ext : Ext
  deriving DecidableEq, Repr

/-- The fields of a V-word below OPC (R49). -/
structure VWord where
  ty : BitVec 4
  d : BitVec 22
  a : BitVec 22
  b : BitVec 22
  ps : Bool
  fi : Bool
  li : Bool
  flv : BitVec 3
  msk : BitVec 3
  rm : BitVec 3
  sat : Bool
  fx : BitVec 5
  deriving DecidableEq, Repr

/-- The fields of an M-word below MOP (R55), its reserved bits apart. -/
structure MWord where
  fmta : BitVec 4
  fmtb : BitVec 4
  aspec : BitVec 48
  bspec : BitVec 48
  acc : Bool
  kst : BitVec 8
  ee : Bool
  sspec : BitVec 24
  fi : Bool
  li : Bool
  flv : BitVec 3
  deriving DecidableEq, Repr

/-- The configuration registers that a plain configuration write reaches (R4, R5; spec/95 lists the rules). -/
inductive CfgReg where
  | ptroot (p : Nat)            -- R381
  | sqcls (c : Nat)             -- R289
  | tcfg                        -- R413
  | wdctl                       -- R439
  | rascfg                      -- R449
  | chkey (cluster : Nat)       -- R395
  | qbase (q : Nat)             -- R345
  | qctl (q : Nat)              -- R345
  | relabel (n : Nat)           -- R312
  | extents                     -- R314
  | cxl (module port : Nat)     -- R195
  | hostbase                    -- R468
  | lognonce (i : Nat)          -- R409
  | kslot (k : Nat)             -- R397, read-only
  | mstat                       -- R473, read-only
  | bankReg (b n : Nat)         -- R417, a system register of a bank
  deriving DecidableEq, Repr

/-- What a debugger writes, or reads, through the debug window (R404, R441, R443). -/
inductive DebugItem where
  | pc (v : BitVec 64)
  | handle (h : Nat) (v : BitVec 256)
  | ad (n : Nat) (v : BitVec 256)
  | layoutSlot (n : Nat) (v : BitVec 512)
  | queueRow (q i : Nat) (v : Row)
  | sreg (n : Nat) (v : BitVec 64)
  | sysreg (n : Nat) (v : BitVec 64)
  | vreg (n : Nat) (v : Row)
  | oreg (n : Nat) (v : Row)
  | latch (n : Nat) (v : Row)
  | mask (n : Nat) (v : BitVec 64)
  | spadRow (r : Nat) (v : Row)
  | tokens (ch n : Nat)
  | qhead (q n : Nat)
  | qtail (q n : Nat)
  | barrier (n : Nat) (v : BitVec 64)
  | mbox (n : Nat) (v : BitVec 64)
  | bound (n : Nat) (queue : Bool) (v : Nat)
  | hmode (v : Bool)
  | event (v : Bool)
  | qrsv (q n : Nat)
  | qcheck (q n : Nat)
  | bindRec (v : Nat)
  | tile (a1 : Bool) (i j : Nat) (v : BitVec 32)
  | edge (a1 : Bool) (rows cols : Nat)
  | vtags (n : Nat) (v : BitVec 64)
  | otags (n : Nat) (v : BitVec 64)
  | taint (n : Nat) (v : Bool)
  | spadRead (r : Nat)         -- a read, which leaves by the debug port
  deriving DecidableEq, Repr

/-- The operations and events: first those that the machine itself may bring about, then those that only the
outside world brings about, then those that carry no field. -/
inductive Instr where
  /-- ADD (R125). Writes the sum of sa and sb, modulo 2^64, to dst. -/
  | add (d a b : BitVec 5)
  /-- SUB (R125). Writes sa minus sb, modulo 2^64, to dst. -/
  | sub (d a b : BitVec 5)
  /-- MUL (R125). Writes the low 64 bits of the product of sa and sb to dst. -/
  | mul (d a b : BitVec 5)
  /-- MULH (R125). Writes bits [127:64] of the signed product of sa and sb to dst. -/
  | mulh (d a b : BitVec 5)
  /-- MULHZ (R125). Writes bits [127:64] of the unsigned product of sa and sb to dst. -/
  | mulhz (d a b : BitVec 5)
  /-- DIV (R126). Writes the signed quotient truncated toward zero, with defined results for zero and overflow. -/
  | div (d a b : BitVec 5)
  /-- DIVZ (R126). Writes the unsigned quotient, all ones on division by zero. -/
  | divz (d a b : BitVec 5)
  /-- REM (R126). Writes the signed remainder, which takes the sign of the dividend. -/
  | rem (d a b : BitVec 5)
  /-- REMZ (R126). Writes the unsigned remainder, the dividend on division by zero. -/
  | remz (d a b : BitVec 5)
  /-- AND (R125). Writes the bitwise AND of sa and sb to dst. -/
  | and (d a b : BitVec 5)
  /-- OR (R125). Writes the bitwise OR of sa and sb to dst. -/
  | or (d a b : BitVec 5)
  /-- XOR (R125). Writes the bitwise XOR of sa and sb to dst. -/
  | xor (d a b : BitVec 5)
  /-- ANDN (R125). Writes sa AND NOT sb to dst. -/
  | andn (d a b : BitVec 5)
  /-- SHL (R127). Shifts sa left by sb modulo 64 with zeros entering. -/
  | shl (d a b : BitVec 5)
  /-- SHR (R127). Shifts sa right by sb modulo 64 with zeros entering. -/
  | shr (d a b : BitVec 5)
  /-- SRA (R127). Shifts sa right by sb modulo 64 with copies of bit 63 entering. -/
  | sra (d a b : BitVec 5)
  /-- ROT (R127). Rotates sa left by sb modulo 64. -/
  | rot (d a b : BitVec 5)
  /-- FSH (R127). Writes the low 64 bits of the 128-bit value sa:sb shifted right by sc modulo 64. -/
  | fsh (d a b c : BitVec 5)
  /-- CLZ (R125). Writes the number of leading zero bits of sa, 64 for zero. -/
  | clz (d a : BitVec 5)
  /-- CTZ (R125). Writes the number of trailing zero bits of sa, 64 for zero. -/
  | ctz (d a : BitVec 5)
  /-- POPC (R125). Writes the number of one bits of sa. -/
  | popc (d a : BitVec 5)
  /-- MIN (R125). Writes the signed smaller of sa and sb. -/
  | min (d a b : BitVec 5)
  /-- MAX (R125). Writes the signed larger of sa and sb. -/
  | max (d a b : BitVec 5)
  /-- MINZ (R125). Writes the unsigned smaller of sa and sb. -/
  | minz (d a b : BitVec 5)
  /-- MAXZ (R125). Writes the unsigned larger of sa and sb. -/
  | maxz (d a b : BitVec 5)
  /-- CMP (R125). Writes 1 when the condition of R34 holds for sa and sb, otherwise 0. -/
  | cmp (d a b : BitVec 5) (cc : BitVec 3)
  /-- SEL (R125). Writes sa when sc is nonzero, otherwise sb. -/
  | sel (d a b c : BitVec 5)
  /-- ADDI (R124). Adds the sign-extended 12-bit immediate to sa. -/
  | addi (d a : BitVec 5) (imm : BitVec 12)
  /-- ANDI (R124). ANDs sa with the zero-extended 12-bit immediate. -/
  | andi (d a : BitVec 5) (imm : BitVec 12)
  /-- ORI (R124). ORs sa with the zero-extended 12-bit immediate. -/
  | ori (d a : BitVec 5) (imm : BitVec 12)
  /-- XORI (R124). XORs sa with the zero-extended 12-bit immediate. -/
  | xori (d a : BitVec 5) (imm : BitVec 12)
  /-- LUI (R124). Writes the sign-extended IMM20 times 2^12 to dst. -/
  | lui (d : BitVec 5) (imm : BitVec 20)
  /-- ADDPC (R124). Writes pc plus the sign-extended IMM20 times 2^12 to dst. -/
  | addpc (d : BitVec 5) (imm : BitVec 20)
  /-- B (R79). Branches by a signed word offset when the condition holds, after executing its delay slot. -/
  | b (a b : BitVec 5) (cc : BitVec 3) (off : BitVec 13)
  /-- J (R79). Jumps by a signed 21-bit word offset after its delay slot. -/
  | j (off : BitVec 21)
  /-- JAL (R79). Jumps by a signed word offset and writes pc + 8 to dst. -/
  | jal (d : BitVec 5) (off : BitVec 21)
  /-- JR (R79). Jumps to the address in sa and writes pc + 8 to dst, trapping on a misaligned target. -/
  | jr (d a : BitVec 5)
  /-- LD (R220). Loads a 1 to 8 byte value through a handle and extends it into dst. -/
  | ld (d : BitVec 5) (h t : BitVec 4) (off : BitVec 12)
  /-- LDA (R205). Loads as LD with acquire order at the page's scope. -/
  | lda (d : BitVec 5) (h t : BitVec 4) (off : BitVec 12)
  /-- ST (R220). Posts a store of the low bytes of sa through a handle. -/
  | st (a : BitVec 5) (h t : BitVec 4) (off : BitVec 12)
  /-- STL (R206). Posts a store with release order at the page's scope. -/
  | stl (a : BitVec 5) (h t : BitVec 4) (off : BitVec 12)
  /-- LDM (R222). Loads n consecutive 8-byte words into n consecutive registers, possibly in part on poison. -/
  | ldm (d : BitVec 5) (h : BitVec 4) (n : BitVec 3) (off : BitVec 12)
  /-- STM (R222). Stores n consecutive registers to n consecutive 8-byte words after checking all of them. -/
  | stm (a : BitVec 5) (h : BitVec 4) (n : BitVec 3) (off : BitVec 12)
  /-- ATOM (R223). Sends a read-modify-write of 32 or 64 bits to the home and returns the old value. -/
  | atom (d : BitVec 5) (h : BitVec 4) (b : BitVec 5) (op : BitVec 4) (sz : Bool) (off : BitVec 7)
  /-- CAS (R224). Compares memory with dst at the home, writes sb on a match, and returns the old value. -/
  | cas (d : BitVec 5) (h : BitVec 4) (b : BitVec 5) (sz : Bool) (off : BitVec 7)
  /-- FENCE (R226). Orders earlier accesses and observed writes before later accesses and engine commands at the page's scope. -/
  | fence (h : BitVec 4)
  /-- FENCE_IFETCH (R226). Invalidates the instruction-cache lines of the handle's page fetched before it. -/
  | fenceIfetch (h : BitVec 4)
  /-- LDQ (R230). Reserves n data-queue slots and posts reads of n rows into them. -/
  | ldq (q : BitVec 5) (h n : BitVec 4) (off : BitVec 12)
  /-- XLATE (R386). Sets a handle's base, intent and generation, and starts a walk unless the translation is cached. -/
  | xlate (a : BitVec 5) (h : BitVec 4) (intent : BitVec 3)
  /-- HDROP (R389). Invalidates a handle, discards its walk and increments its generation. -/
  | hdrop (h : BitVec 4)
  /-- HINFO (R390). Returns one of a handle's base, page, attributes, generation or state words. -/
  | hinfo (d : BitVec 5) (h : BitVec 4) (k : BitVec 5)
  /-- KEYLD (R400). Reads a key blob and asks the die's key unit to unwrap and install it in a key slot. -/
  | keyld (a : BitVec 5) (h : BitVec 4) (off : BitVec 12)
  /-- QPUSH (R231). Reserves one slot of dq0-dq3 and fills it with a row holding sa. -/
  | qpush (a : BitVec 5) (q : BitVec 4)
  /-- QPOP (R232). Waits for an entry of dq4-dq5 or oq0-oq1, returns its low 64 bits and advances the head. -/
  | qpop (d : BitVec 5) (q : BitVec 4)
  /-- QADV_HEAD (R233). Waits for n entries of an outgoing queue and discards them. -/
  | qadvHead (q n : BitVec 4)
  /-- QADV_TAIL (R233). Reserves n data-queue slots and marks them filled with their present contents. -/
  | qadvTail (q n : BitVec 4)
  /-- QLVL (R234). Returns the free, pending and fill counts of a queue, sampled at issue. -/
  | qlvl (d : BitVec 5) (q : BitVec 4)
  /-- LNSET (R88). Queues a setting of a loop bound's source to a register, mailbox or data queue. -/
  | lnset (lv : BitVec 3) (bsrc : BitVec 2) (sel : BitVec 5)
  /-- ADSET (R93). Reads a 32-byte descriptor record and queues it into a loop-engine descriptor. -/
  | adset (n : BitVec 5) (h : BitVec 4) (off : BitVec 12)
  /-- LAYOUT (R246). Reads a 64-byte layout record and queues it into a copy-sequencer layout slot. -/
  | layout (k : BitVec 5) (h : BitVec 4) (off : BitVec 12)
  /-- MBLK (R434). Reads a restart record and registers the next RUN in the loop-engine queue as a restartable block. -/
  | mblk (h : BitVec 4) (off : BitVec 12)
  /-- WAIT_ANY (R365). Waits until any of up to four conditions holds or the time-out passes. -/
  | waitAny (d a b : BitVec 5) (n : BitVec 2)
  /-- WAIT_ALL (R365). Waits until all of up to four conditions hold in one sample or the time-out passes. -/
  | waitAll (d a b : BitVec 5) (n : BitVec 2)
  /-- SEV (R371). Posts an event to a core and bank named by the target register, after earlier accesses are performed. -/
  | sev (a : BitVec 5)
  /-- TIME (R378). Returns the common cycle counter or reference time. -/
  | time (d k : BitVec 5)
  /-- CBARR (R374). Waits for earlier accesses to be performed and then increments a counting barrier. -/
  | cbarr (n : BitVec 6)
  /-- CBSET (R374). Sets the count and target of a counting barrier. -/
  | cbset (a b : BitVec 5) (n : BitVec 6)
  /-- CBADD (R374). Adds a signed amount to a barrier's target, clamped. -/
  | cbadd (a : BitVec 5) (n : BitVec 6)
  /-- LAUNCH (R351). Reads a launch record and enqueues it into the die's device-launch queue as a release. -/
  | launch (h : BitVec 4) (off : BitVec 12)
  /-- PHASE (R359). Marks a phase boundary at which all cores of the task meet and may switch variant. -/
  | phase (k : BitVec 12)
  /-- TRAP (R424). Raises class 15 with sub-code k. -/
  | trap (k : BitVec 5)
  /-- SHOOT (R392). Revokes translations of a page range on every die and waits for all dies to acknowledge. -/
  | shoot (a : BitVec 5)
  /-- KEYDROP (R401). Revokes and zeroes a key slot and logs the drop. -/
  | keydrop (a : BitVec 5)
  /-- SRD (R428). Reads a system register into dst. -/
  | srd (d : BitVec 5) (n : BitVec 12)
  /-- SWR (R428). Writes the writable fields of a system register from sa. -/
  | swr (a : BitVec 5) (n : BitVec 12)
  /-- RUN (R84). Captures a block's start, depth and registers and queues it to the loop engine. -/
  | run (x : SXWord)
  /-- CPY (R243). Checks and queues a six-level row copy, gather, scatter or multicast to the copy sequencer. -/
  | cpy (x : SXWord)
  /-- XFORM (R261). Checks and queues a quantise, dequantise, compress, expand, transpose or copy to a transform engine. -/
  | xform (x : SXWord)
  /-- ATTNS (R309). Queues a stream of sheaves into scratchpad or cluster SRAM. -/
  | attns (x : SXWord)
  /-- SQOPEN (R296). Queues the opening of a new sequence on the issuing die. -/
  | sqopen (x : SXWord)
  /-- SQAPP (R298). Queues an append of n tokens to one layer of a sequence. -/
  | sqapp (x : SXWord)
  /-- SQFORK (R299). Queues the creation of a child sequence sharing a prefix of its parent. -/
  | sqfork (x : SXWord)
  /-- SQTRUNC (R300). Queues a cut of every layer of a sequence to a length. -/
  | sqtrunc (x : SXWord)
  /-- SQPARK (R302). Queues the parking of a sequence as fallow with a continuation and wake key. -/
  | sqpark (x : SXWord)
  /-- SQWAKE (R303). Queues a wake of a sequence with a key, as a wake write. -/
  | sqwake (x : SXWord)
  /-- SQCLOSE (R301). Queues the release of all sheaves of a sequence and the closing of its handle. -/
  | sqclose (x : SXWord)
  /-- SQINFO (R296). Queues a snapshot of a sequence's info record into memory. -/
  | sqinfo (x : SXWord)
  /-- ATTND (R305). Queues decode attention over a sequence layer on the gleaners. -/
  | attnd (x : SXWord)
  /-- RDX (R310). Queues an indexed bag sum or maximum of embedding rows on the gleaners. -/
  | rdx (x : SXWord)
  /-- COLL (R331). Queues an all-reduce, all-gather, reduce-scatter, all-to-all or broadcast over a sub-torus. -/
  | coll (x : SXWord)
  /-- RING (R335). Queues ring attention over the members' shards. -/
  | ring (x : SXWord)
  /-- PLOUGH (R339). Queues the repartition of records by space-filling-curve key over a sub-torus. -/
  | plough (x : SXWord)
  /-- TOKP (R237). Pops tokens, and optionally waits for earlier accesses and pushes one token or signals a barrier, on the sequencer. -/
  | tokp (x : SXWord)
  /-- VBRK (R92). Ends the run of a loop level early when lane 0 of a is nonzero. -/
  | vbrk (w : VWord)
  /-- VEND (R91). Ends the current point of the block, after which the loop-nest unit advances. -/
  | vend (w : VWord)
  /-- VTRIP_MRG (R188). Merges two triple headers as R184 gives. -/
  | vtripMrg (w : VWord)
  /-- VTRIP_ACC (R188). Rescales and adds two accumulator rows with the factors of a merged header. -/
  | vtripAcc (w : VWord)
  /-- VTRIP_PROB (R188). Computes the probability function of R183 lane by lane. -/
  | vtripProb (w : VWord)
  /-- VMASK (R147). Sets a lane mask from the nonzero lanes or lane halves of a. -/
  | vmask (w : VWord)
  /-- VADD (R141). Adds floating-point elements with one rounding. -/
  | vadd (w : VWord)
  /-- VSUB (R141). Subtracts floating-point elements with one rounding. -/
  | vsub (w : VWord)
  /-- VMUL (R141). Multiplies floating-point elements with one rounding. -/
  | vmul (w : VWord)
  /-- VFMA (R141). Computes a times b plus d with one rounding. -/
  | vfma (w : VWord)
  /-- VFMS (R141). Computes a times b minus d with one rounding. -/
  | vfms (w : VWord)
  /-- VMIN (R142). Selects the smaller floating-point element. -/
  | vmin (w : VWord)
  /-- VMAX (R142). Selects the larger floating-point element. -/
  | vmax (w : VWord)
  /-- VABS (R141). Clears the sign bit of each element. -/
  | vabs (w : VWord)
  /-- VNEG (R141). Inverts the sign bit of each element. -/
  | vneg (w : VWord)
  /-- VRCP (R141). Computes the correctly rounded reciprocal. -/
  | vrcp (w : VWord)
  /-- VRSQ (R141). Computes the correctly rounded reciprocal square root. -/
  | vrsq (w : VWord)
  /-- VEXP (R141). Computes the correctly rounded power of two of a. -/
  | vexp (w : VWord)
  /-- VEXP_SUB (R141). Computes the correctly rounded power of two of a minus b. -/
  | vexpSub (w : VWord)
  /-- VTAB (R155). Evaluates a built-in or loadable quadratic table for each element. -/
  | vtab (w : VWord)
  /-- VTLOAD (R158). Checks a table header row and binds a loadable table slot to it. -/
  | vtload (w : VWord)
  /-- VCVT (R144). Converts elements between floating-point and integer types. -/
  | vcvt (w : VWord)
  /-- VQNT (R144). Quantises elements to FP8, 8-bit integer or MXFP4. -/
  | vqnt (w : VWord)
  /-- VDQNT (R144). Dequantises FP8, 8-bit integer or MXFP4 elements to floating point. -/
  | vdqnt (w : VWord)
  /-- VAND (R130). Computes the bitwise AND of two rows. -/
  | vand (w : VWord)
  /-- VOR (R130). Computes the bitwise OR of two rows. -/
  | vor (w : VWord)
  /-- VXOR (R130). Computes the bitwise XOR of two rows. -/
  | vxor (w : VWord)
  /-- VNOT (R130). Computes the bitwise NOT of a row. -/
  | vnot (w : VWord)
  /-- VSHL (R131). Shifts each integer element left by the matching element of b. -/
  | vshl (w : VWord)
  /-- VSHR (R131). Shifts each integer element right logically. -/
  | vshr (w : VWord)
  /-- VSRA (R131). Shifts each integer element right arithmetically. -/
  | vsra (w : VWord)
  /-- VFSH (R132). Funnel-shifts each element pair by the count held in d. -/
  | vfsh (w : VWord)
  /-- VCLZ (R133). Counts leading zero bits of each element. -/
  | vclz (w : VWord)
  /-- VPOPC (R133). Counts one bits of each element. -/
  | vpopc (w : VWord)
  /-- VPACK_WRAP (R134). Narrows two rows into one by keeping low bits. -/
  | vpackWrap (w : VWord)
  /-- VPACK_CLAMP (R134). Narrows two rows into one with saturation. -/
  | vpackClamp (w : VWord)
  /-- VPACK_BITS (R134). Packs the low n bits of every lane into a dense bit string. -/
  | vpackBits (w : VWord)
  /-- VUNPACK_LO (R135). Widens the lower half of a row. -/
  | vunpackLo (w : VWord)
  /-- VUNPACK_HI (R135). Widens the upper half of a row. -/
  | vunpackHi (w : VWord)
  /-- VUNPACK_BITS (R135). Unpacks n-bit fields of a dense bit string into lanes. -/
  | vunpackBits (w : VWord)
  /-- VCMP (R146). Writes all ones or zero per element by a comparison condition. -/
  | vcmp (w : VWord)
  /-- VSEL (R148). Chooses lanes of a or b by a mask, carrying tags. -/
  | vsel (w : VWord)
  /-- VCOMMIT (R100). Chooses lanes of a or b by a mask and fires deferred faults of chosen tagged lanes. -/
  | vcommit (w : VWord)
  /-- VRED (R150). Reduces each lane group in a fixed order and writes the result to every element. -/
  | vred (w : VWord)
  /-- VSCAN (R151). Writes the inclusive prefix of each lane group. -/
  | vscan (w : VWord)
  /-- VGMAX (R152). Writes each lane group's largest magnitude to every element. -/
  | vgmax (w : VWord)
  /-- VPERM (R153). Permutes lanes of a by indices in b. -/
  | vperm (w : VWord)
  /-- VBCAST (R153). Broadcasts one element of a to every element. -/
  | vbcast (w : VWord)
  /-- VIOTA (R153). Writes an arithmetic sequence of integer elements. -/
  | viota (w : VWord)
  /-- VROTM (R241). Rotate-merges two rows by a byte count. -/
  | vrotm (w : VWord)
  /-- VLD (R239). Reads one descriptor row into a register or queue. -/
  | vld (w : VWord)
  /-- VLD_IDX (R239). Reads one descriptor row offset by lane 0 of b. -/
  | vldIdx (w : VWord)
  /-- VST (R239). Writes a row to one descriptor row. -/
  | vst (w : VWord)
  /-- VST_IDX (R239). Writes a row to a descriptor row offset by lane 0 of b. -/
  | vstIdx (w : VWord)
  /-- VSTM_BITS (R240). Writes the bytes of a enabled by a bit mask into a row. -/
  | vstmBits (w : VWord)
  /-- VSTM_RNG (R240). Writes a byte range of a into a row. -/
  | vstmRng (w : VWord)
  /-- VXQ (R242). Moves n rows between a data queue and consecutive rows. -/
  | vxq (w : VWord)
  /-- VMOV (R148). Copies a to d under the mask, with tags. -/
  | vmov (w : VWord)
  /-- MMA (R165). Accumulates the blocked product of two FP8, BF16 or FP16 operand tiles into a tile. -/
  | mma (w : MWord)
  /-- MMAX (R167). Accumulates a scaled MXFP4 or FP8 product into a tile using per-step scale rows. -/
  | mmax (w : MWord)
  /-- MZERO (R170). Sets a tile to +0 and clears its taint. -/
  | mzero (w : MWord)
  /-- MLOAD (R170). Loads a whole tile from rows. -/
  | mload (w : MWord)
  /-- MSTORE (R171). Writes a tile to rows, rounding when narrowing. -/
  | mstore (w : MWord)
  /-- MROW (R172). Copies one tile row into two vector registers. -/
  | mrow (w : MWord)
  /-- MEDGE (R169). Sets a tile's edge limits. -/
  | medge (w : MWord)
  /-- MTRANS (R173). Transposes a 128 x 128 block of elements. -/
  | mtrans (w : MWord)
  /-- BUNDLE_ISSUE (R61). The loop engine decodes, checks and issues one bundle of a running block. -/
  | bundleIssue (b : Nat)
  /-- BLOCK_START (R85). A RUN issues in the loop engine with its pops, takes bounds and descriptors and enters the nest. -/
  | blockStart (b : Nat)
  /-- LOOP_BOUND_POP (R88). Entering a level whose bound comes from a data queue takes the head row once it is present. -/
  | loopBoundPop (b : Nat)
  /-- BLOCK_RETIRE (R87). A block whose last results are written pushes its token and signals its barrier. -/
  | blockRetire (b : Nat)
  /-- BLOCK_MIGRATE (R179). In migrate mode a ready block that has waited MDELAY moves with its state to an idle core. -/
  | blockMigrate (b : Nat)
  /-- BLOCK_MIGRATE_RETURN (R180). A migrated block's state returns to its own core at retirement or before a forbidden bundle. -/
  | blockMigrateReturn (b : Nat)
  /-- MWORD_COMPLETE (R174). The array finishes an M-word's cycles and writes its tile, rows or registers. -/
  | mwordComplete (b : Nat)
  /-- COPY_START (R251). A copy issues in the copy sequencer, checks its records and pins its pages. -/
  | copyStart (b : Nat)
  /-- COPY_RETIRE (R254). A copy whose writes are performed writes its record, pushes its token and signals its barrier. -/
  | copyRetire (b : Nat)
  /-- MULTICAST_ROW_LAND (R257). A multicast point lands in every named cluster at its counter time or later. -/
  | multicastRowLand (b : Nat)
  /-- TRANSFORM_START (R266). A transform at the head of its lane starts once its barrier holds. -/
  | transformStart (cl eng part : Nat)
  /-- TRANSFORM_RETIRE (R267). A transform that has written its rows signals its barrier. -/
  | transformRetire (cl eng : Nat)
  /-- COMPLETION_RECORD_APPEND (R259). The ring header's home appends a record once the ring has room. -/
  | completionRecordAppend (i : Nat)
  /-- SHEAF_COMMAND_ACCEPT (R281). The sequence's home accepts a sheaf-store command, taking a snapshot or applying a change as one step. -/
  | sheafCommandAccept (b : Nat) (walker : Bool)
  /-- SLAB_RELOCATION_STEP (R286). The store controller copies the next 16 sheaf-table entries of a doubling slab. -/
  | slabRelocationStep (seq layer : Nat)
  /-- WALKER_RETIRE (R282). A walker command retires after its step or stream and pushes its token. -/
  | walkerRetire (b : Nat)
  /-- GLEANER_BLOCK (R186). A gleaner updates a range's triple with one block of up to 64 tokens. -/
  | gleanerBlock (b : Nat)
  /-- ATTND_RETIRE (R307). Decode attention writes its status row after its triples and retires. -/
  | attndRetire (b : Nat)
  /-- RDX_RETIRE (R311). An indexed reduce writes its bags and status row and retires. -/
  | rdxRetire (b : Nat)
  /-- COLLECTIVE_INSTANCE_START (R329). A collective instance starts once all members have issued, after comparing their fields. -/
  | collectiveInstanceStart (gid nth : Nat)
  /-- COLLECTIVE_RETIRE (R334). A collective whose destination rows are visible pushes its token. -/
  | collectiveRetire (b : Nat)
  /-- RING_TRIPLE_ARRIVAL (R336). A shard's triple reaches the owner's slot, and the owner merges once all are present. -/
  | ringTripleArrival (gid nth owner shard : Nat)
  /-- PLOUGH_COUNT_EXCHANGE (R342). The members exchange counts and capacities, fixing every placement before records move. -/
  | ploughCountExchange (gid nth : Nat)
  /-- PLOUGH_RETIRE (R343). Each member writes the count table and its kind-2 completion record and retires. -/
  | ploughRetire (b : Nat)
  /-- LAUNCH_PROCESS (R349). Dispatch checks a launch record and creates its tasks or refuses it. -/
  | launchProcess (die : Nat)
  /-- NOTIFY_REGISTER_WRITE (R346). A write sets a queue's TAIL, or sets ERR and disables it when out of range. -/
  | notifyRegisterWrite (q : Nat) (v : Word)
  /-- MAPPER_QUEUE_MAP (R347). A free mapper slot takes the longest-waiting ready queue. -/
  | mapperQueueMap (slot : Nat)
  /-- MAPPER_RECORD_TAKE (R347). A mapper slot reads the next launch record of its queue and hands it to launch processing. -/
  | mapperRecordTake (slot : Nat)
  /-- TASK_START (R350). A waiting bind record starts once its banks are free and sets each core's start state. -/
  | taskStart (die rec : Nat)
  /-- PHASE_RENDEZVOUS (R359). Once all cores have arrived and drained, PHASE completes and may switch variant. -/
  | phaseRendezvous (die rec : Nat)
  /-- RETIRE_COMPLETE (R361). RETIRE completes once commands and accesses are done, and the last core completes task and launch. -/
  | retireComplete (b : Nat)
  /-- WAIT_CONDITION_MET (R367). A waiting WAIT's end-of-cycle sample finds its conditions hold and it returns. -/
  | waitConditionMet (b : Nat)
  /-- EVENT_ARRIVAL (R371). An event reaches the target die and sets the bank's event latch or is dropped. -/
  | eventArrival (i : Nat)
  /-- BARRIER_WINDOW_ACCESS (R373). The dispatch home serves a load or saturating atomic add to a barrier word. -/
  | barrierWindowAccess (i : Nat)
  /-- HOME_ATOMIC (R379). A home serves a queued atomic, or refuses it with a retry hint when the queue is full. -/
  | homeAtomic (i : Nat)
  /-- STORE_ACK (R221). An acknowledgement frees a store-queue entry of a posted store, atomic or event. -/
  | storeAck (b i : Nat)
  /-- LOAD_DATA_RETURN (R221). Load data returns, is checked for poison and written to its register. -/
  | loadDataReturn (b : Nat)
  /-- LDQ_ROW_ARRIVAL (R229). A row for a reserved data-queue slot arrives, and the tail advances over filled slots. -/
  | ldqRowArrival (b i : Nat)
  /-- PAGE_WALK_COMPLETE (R384). A page walk ends with a translation or a fault cause and updates its handle. -/
  | pageWalkComplete (b h : Nat)
  /-- SHOOT_DIE_ARRIVAL (R392). A shootdown reaches a die, removes translations, stales handles and drains accesses and pins. -/
  | shootDieArrival (b die : Nat)
  /-- SHOOT_COMPLETE (R392). SHOOT completes when every die has acknowledged. -/
  | shootComplete (b : Nat)
  /-- KEY_REQUEST_SERVE (R400). The die's key unit serves a KEYLD or KEYDROP request in arrival order and logs it. -/
  | keyRequestServe (die : Nat)
  /-- WAKE_WRITE (R303). An 8-byte write to a wake address starts a wake on a matching key or is counted as ignored. -/
  | wakeWrite (seq : Nat) (v : Word)
  /-- WAKE_STAGE1_END (R303). Stage 1 promotions complete, the class returns, and the continuation task is launched. -/
  | wakeStage1End (seq : Nat)
  /-- WAKE_STAGE2_END (R304). The last sheaf of a waking sequence reaches T0 and the sequence becomes open. -/
  | wakeStage2End (seq : Nat)
  /-- SHEAF_MOVE_COMPLETE (R292). A demotion or promotion completes and switches the entry's location, tier and format in one step. -/
  | sheafMoveComplete (id : Nat)
  /-- GETS (R274). The home serves a read request for a line by directory state. -/
  | cohGetS (core line : Nat)
  /-- GETX (R274). The home serves a read-for-ownership by invalidating or forwarding. -/
  | cohGetX (core line : Nat)
  /-- UPG (R274). The home serves an upgrade, converting it to GetX when the requester holds no copy. -/
  | cohUpg (core line : Nat)
  /-- PUT (R276). The home takes a write-back and sends PutAck, holding it back while a forward is outstanding. -/
  | cohPut (core line : Nat)
  /-- ACK (R274). The home counts an invalidation acknowledgement towards leaving the busy state. -/
  | cohAck (core line : Nat)
  /-- DO (R274). The home receives data from an owner that stays owner and completes the forward. -/
  | cohDO (core line : Nat)
  /-- DS (R274). The home receives data from an owner that keeps S and writes memory. -/
  | cohDS (core line : Nat)
  /-- DW (R276). The home receives data from a writing-back owner and completes the forward. -/
  | cohDW (core line : Nat)
  /-- DX (R274). The home receives data from an owner that is now invalid and grants the requester. -/
  | cohDX (core line : Nat)
  /-- WRITE_THROUGH (R277). The home writes a store's bytes on an engine-visible page if the sender still owns the line. -/
  | writeThrough (core line : Nat)
  /-- BULK_WRITE (R278). A bulk-engine write of a line invalidates or recalls copies and then writes memory. -/
  | bulkWrite (i : Nat)
  /-- BULK_READ (R274). A bulk, host or CXL read is served from memory or by a peek at the owner. -/
  | bulkRead (i : Nat)
  /-- DATAS (R273). A cache receives shared data and the line enters S. -/
  | cohDataS (core line : Nat)
  /-- DATAE (R273). A cache receives exclusive data and the line enters E. -/
  | cohDataE (core line : Nat)
  /-- DATAX (R273). A cache receives data for ownership, enters M and performs its waiting store. -/
  | cohDataX (core line : Nat)
  /-- GRANT (R273). A cache receives an upgrade grant, enters M and performs its waiting store. -/
  | cohGrant (core line : Nat)
  /-- FWDS (R273). An owner cache answers a shared forward with data. -/
  | cohFwdS (core line : Nat)
  /-- FWDX (R273). An owner cache answers an exclusive forward with DX and gives up the line. -/
  | cohFwdX (core line : Nat)
  /-- INV (R273). A cache answers an invalidation with Ack and drops its copy. -/
  | cohInv (core line : Nat)
  /-- PEEK (R273). An owner cache returns its data without changing state. -/
  | cohPeek (core line : Nat)
  /-- PUTACK (R273). A cache in XI_A receives PutAck and its line becomes invalid. -/
  | cohPutAck (core line : Nat)
  /-- CACHE_FILL (R462). An arrived line takes a way of its set, evicting the least recently accessed line, once a way is free. -/
  | cacheFill (core line : Nat)
  /-- REISSUE (R326). After the retry hint a source reissues its refused packets in their first order. -/
  | reissue (src : Nat)
  /-- COPY_PASS_END (R325). The copy pass ends and, once no pin remains, the page enters recall. -/
  | copyPassEnd (page : Nat)
  /-- RECALL_COMPLETE (R325). The last recall reply arrives and the page enters recopy. -/
  | recallComplete (page : Nat)
  /-- RECOPY_END (R325). The dirty rows are copied and the page enters forwarding. -/
  | recopyEnd (page : Nat)
  /-- ASYNC_TRAP_TAKEN (R415). An engine's pending fault is taken at the bank's next instruction boundary. -/
  | asyncTrapTaken (b : Nat)
  /-- HANDLER_ENTRY (R416). After earlier instructions finish, the fault record is written and the bank enters its handler. -/
  | handlerEntry (b : Nat)
  /-- BANK_STOP_DRAIN_END (R419). A stopped bank finishes draining, writes its record and appends a kind-3 trap record. -/
  | bankStopDrainEnd (b : Nat)
  /-- TASK_END_COMPLETE (R422). An ended task's in-flight accesses are acknowledged and its bind record empties. -/
  | taskEndComplete (die rec : Nat)
  /-- SAVE_COMPLETE (R430). The bank has drained and its context is written to the save area with a kind-4 record. -/
  | saveComplete (b : Nat)
  /-- RESTORE_COMPLETE (R432). The saved context is written back and the bank becomes ready with stale handles. -/
  | restoreComplete (b : Nat)
  /-- SAVED_CONTEXT_ARRIVAL (R376). A push, increment or event for a saved task is applied to its saved context. -/
  | savedContextArrival (b : Nat)
  /-- BRING_UP_STAGE_END (R472). A bring-up stage completes and the next begins, or FAIL ends bring-up. -/
  | bringUpStageEnd (ok : Bool)
  /-- BUNDLE_COPY_COMPLETE (R65). Dispatch finishes copying the image's bundle section into the task's context bank, releasing the first RUN waiting in each core's loop-engine queue. -/
  | bundleCopyComplete (b : Nat)
  /-- GLOBAL_SRAM_HOME_ACCESS (R209). The home cluster performs an arriving uncached sequencer load or store to global SRAM as one row access and returns data or an acknowledgement. -/
  | globalSramHomeAccess (i : Nat)
  /-- PAIRED_WINDOW_START (R178). In paired mode, a unit of array work that waited for its core's window starts when the common counter reaches that window. -/
  | pairedWindowStart (b : Nat)
  /-- BCTL_RESUME (R421). Firmware resumes a stopped bank as ERET does. -/
  | bctlResume (b : Nat)
  /-- BCTL_ENTER_HANDLER (R421). Firmware sends a stopped bank's trap to its handler. -/
  | bctlEnterHandler (b : Nat)
  /-- BLOCK_WATCHDOG (R439). An unregistered block that has not retired within WDCTL stops with class 18. -/
  | blockWatchdog (b : Nat)
  /-- WAIT_TIMEOUT (R365). A WAIT's deadline passes and it returns with TOUT set. -/
  | waitTimeout (b : Nat)
  /-- BIND_RECORD_WRITE (R354). A firmware write to a slot-table record checks and installs it or changes NVAR and SHARE. -/
  | bindRecordWrite (die rec : Nat) (v : BitVec 256)
  /-- PSLOT_WRITE (R356). A write to a partition slot mask is ignored if it overlaps or fills the frame. -/
  | pslotWrite (die part : Nat) (v : Word)
  /-- SERVICE_UNIT_START (R357). A shared resource starts a unit of service in a slot its partition owns. -/
  | serviceUnitStart (die res part len : Nat)
  /-- ACMODE_WRITE (R177). The firmware writes a cluster's array-sharing mode register. -/
  | acmodeWrite (cl : Nat) (v : Word)
  /-- LOGREQ_WRITE (R409). A host write of 1 to LOGREQ appends a type-9 entry and a signed checkpoint with the nonce. -/
  | logreqWrite (v : Word)
  /-- ATTESTATION_REQUEST (R410). A host request with a nonce returns a signed attestation report. -/
  | attestationRequest (nonce : BitVec 256)
  /-- EGRESS_CREDIT_REQUEST (R405). A port draws a 4,096-byte credit unit from a region's meter, waiting or faulting at the cap. -/
  | egressCreditRequest (port die key : Nat)
  /-- REFUSAL (R326). A home refuses a packet with a retry hint and refuses the source's later packets in that class. -/
  | refusal (src : Nat)
  /-- LEND_GRANT (R291). A lender's firmware grants HBM frames to a neighbour. -/
  | lendGrant (lender borrower frames : Nat)
  /-- LEND_RECALL (R291). Recall of a grant moves the borrower's sheaves in those frames to T2. -/
  | lendRecall (lender borrower : Nat)
  /-- LINK_TAG_FAIL (R322). A failed link tag poisons the packet's written rows and asks for a replay. -/
  | linkTagFail (pkt : Nat)
  /-- PACKET_FINAL (R322). A packet's tag passes at the last hop and its tentative rows become final. -/
  | packetFinal (pkt : Nat)
  /-- MIGRATION_REGISTER_WRITE (R325). The firmware starts a page migration, entering the copying state. -/
  | migrationRegisterWrite (old new size : Nat)
  /-- REFTIME_BEACON (R327). The management-class beacon keeps each die's reference time. -/
  | reftimeBeacon (ticks : Nat)
  /-- ACMODE_TAKE_EFFECT (R177). A written array mode takes effect at the first cycle when all loop engines of the cluster are idle. -/
  | acmodeTakeEffect (cl : Nat)
  /-- BCTL_END_TASK (R422). Firmware ends the task of the bank's bind record on every core of its plot. -/
  | bctlEndTask (b : Nat)
  /-- MIGRATION_GRACE_END (R327). The grace period of 65,536 ticks ends and the old frame is released. -/
  | migrationGraceEnd (page : Nat)
  /-- PCTL_SAVE (R429). Firmware starts pre-emption of a bank at its next instruction boundary. -/
  | pctlSave (b : Nat) (v : Word)
  /-- PCTL_RESTORE (R432). Firmware starts restoring a saved bank. -/
  | pctlRestore (b : Nat) (v : Word)
  /-- DEBUG_ATTACH (R441). The debug port attaches to a core and a type-6 log entry is appended. -/
  | debugAttach (core : Nat)
  /-- DEBUG_HALT_REQUEST (R442). A halt request in the debug window halts a bank and makes latches architectural. -/
  | debugHaltRequest (b : Nat)
  /-- DEBUG_WINDOW_WRITE (R443). The debugger writes a register, image or row of a halted bank with a clean check value. -/
  | debugWindowWrite (b : Nat) (item : DebugItem)
  /-- CORRECTED_ERROR (R449). A resource counts a corrected error and is remapped at THRESH within a window. -/
  | correctedError (die kind idx : Nat)
  /-- RAS_WINDOW_END (R449). A window of 2^20 reference ticks ends and the corrected-error counts start afresh. -/
  | rasWindowEnd (die : Nat)
  /-- HOST_MEMORY_ACCESS (R467). A host TLP through BAR4 reads or writes device memory or the wake window. -/
  | hostMemoryAccess (off : Nat) (data : List Byte) (len : Nat)
  /-- CXL_DEVICE_ACCESS (R469). A CXL device reads or writes device memory or the wake window through its port. -/
  | cxlDeviceAccess (port addr : Nat) (data : List Byte) (len : Nat)
  /-- PWRLIM_WRITE (R471). A write sets the power limit or is ignored outside 2,400 to 9,600 watts. -/
  | pwrlimWrite (v : Word)
  /-- CONFIG_REGISTER_WRITE (R4). A write to a configuration register that has no row of its own updates its writable fields. -/
  | configRegisterWrite (die : Nat) (reg : CfgReg) (v : Word)
  /-- METER_CREDIT_AGE_OUT (R405). Earlier grants of a region's meter pass out of the WIN interval, freeing credit so that a port waiting for credit is granted its unit. -/
  | meterCreditAgeOut (die key : Nat)
  /-- SHEAF_AGE_THRESHOLD (R290). At a slow tick a sheaf whose age reaches its class threshold starts to demote. -/
  | sheafAgeThreshold (id : Nat)
  /-- RING_FINAL_TIMEOUT (R338). At TSTART + FINALT the owner merges the present slots and marks the result incomplete. -/
  | ringFinalTimeout (gid nth owner : Nat)
  /-- FRAME_BOUNDARY (R356). At a counter multiple of 4,096 pending PSLOT and SHARE changes take effect. -/
  | frameBoundary (die : Nat)
  /-- RETIRE (R361). Stops fetching and ends the task's work on this core once its commands and accesses are done. -/
  | retire
  /-- YIELD (R377). Lets the other bank issue before this bank issues again. -/
  | yield
  /-- ERET (R427). Leaves handler mode and resumes from the fault record. -/
  | eret
  /-- HALT (R426). Raises class 17, which always stops the bank. -/
  | halt
  /-- BKPT (R425). Raises class 16, the breakpoint. -/
  | bkpt
  /-- VNOP (R54). Does nothing in a V slot. -/
  | vnop
  /-- ACCESS_LOG_APPEND (R407). The security processor appends a hash-chained entry and signs periodic checkpoints. -/
  | accessLogAppend
  /-- POWER_ON (R472). Power-on starts bring-up from STAGE 1. -/
  | powerOn
  /-- PERST_DEASSERT (R472). Deassertion of PERST# starts bring-up from STAGE 1. -/
  | perstDeassert
  /-- HOT_RESET (R474). A hot reset or PERST# during operation ends every task, discards SRAM and reruns bring-up. -/
  | hotReset
  /-- READY_SET (R474). The last stage sets READY, from which host work is accepted. -/
  | readySet
  deriving DecidableEq, Repr

end Sys2Proof
end

