-- ==== Sys2Proof/Machine/Fields.lean ====
section
/-! DEFINITION. Bit fields, and what the encoding tables of spec/02 allow in the fields of V-words, M-words and
engine commands. -/

namespace Sys2Proof.Machine

/-! ### Bit fields -/

/-- Bits [hi:lo] of a word as a number. -/
def bits {n : Nat} (x : BitVec n) (hi lo : Nat) : Nat := (x.toNat / 2 ^ lo) % 2 ^ (hi + 1 - lo)

/-- Bit i. -/
def bit {n : Nat} (x : BitVec n) (i : Nat) : Bool := Nat.testBit x.toNat i

/-- A field of width w read as signed. -/
def sgn (w x : Nat) : Int := if Nat.testBit x (w - 1) then (x : Int) - (2 ^ w : Nat) else x

/-- x with bits [hi:lo] replaced by v. -/
def setBits {n : Nat} (x : BitVec n) (hi lo v : Nat) : BitVec n :=
  BitVec.ofNat n (x.toNat - bits x hi lo * 2 ^ lo + v % 2 ^ (hi + 1 - lo) * 2 ^ lo)

/-- A number placed at bit lo. -/
def at' (v lo : Nat) : Nat := v * 2 ^ lo

def b2n (x : Bool) : Nat := if x then 1 else 0

/-! ### Engine commands (R29, R44, R46, R47) -/

/-- An engine code of R46: 0b110 is not one. -/
def engineCode (x : BitVec 3) : Bool := x != 6

/-- An extension word's fields: codes assigned, and the reserved barrier fields zero. -/
def Ext.fieldsOk (x : Ext) : Bool :=
  engineCode x.push && engineCode x.popa && engineCode x.popb && engineCode x.popc &&
  (x.sig || x.scb == 0) && (x.wt || x.wcb == 0)

/-- A head that uses the first n of DST, SA, SB, SC; the others are reserved. -/
def sxOk (n : Nat) (x : SXWord) : Bool :=
  (decide (0 < n) || x.d == 0) && (decide (1 < n) || x.a == 0) && (decide (2 < n) || x.b == 0) &&
  (decide (3 < n) || x.c == 0) && Ext.fieldsOk x.ext

/-! ### Type classes of R52 -/

def isFloat (t : Nat) : Bool := t == 1 || t == 2 || t == 3
def isInt (t : Nat) : Bool := 7 ≤ t && t ≤ 14
def isFP8 (t : Nat) : Bool := t == 4 || t == 5
def isEight (t : Nat) : Bool := t == 7 || t == 11

/-! ### V-words (R49 to R54) -/

/-- What a V-word of one opcode and form may hold: its type, the operands it uses, whether it rounds, converts to FP8
or MXFP4, takes MSK or PS, and whether its FX is assigned. -/
structure VForm where
  ty : Bool
  d : Bool
  a : Bool
  b : Bool
  rounds : Bool
  sat : Bool
  msk : Bool
  ps : Bool
  fx : Bool
  deriving DecidableEq, Repr

/-- An operand of R51: LEVEL and INDEX in the table, reserved bits zero. -/
def operandOk (x : BitVec 22) : Bool :=
  let idx := bits x 19 14
  match bits x 21 20 with
  | 0 => decide (idx ≤ 5) && bits x 13 0 == 0
  | 1 => decide (idx ≤ 15) && (if idx < 8 then bits x 13 0 == 0 else bits x 7 0 == 0)
  | 2 => bits x 13 0 == 0
  | _ => decide (idx ≤ 15)

/-- The common shape: no rounding, no saturation, MSK and PS allowed, FX zero. -/
def plainForm (ty d a b : Bool) (fx : Nat) : VForm :=
  { ty := ty, d := d, a := a, b := b, rounds := false, sat := false, msk := true, ps := true, fx := fx == 0 }

/-- The form of opcode `opc` with the type t and extension fx (R53, and the chapter of each word). -/
def vForm (opc t fx : Nat) : Option VForm :=
  match opc with
  | 0x01 => some { plainForm (t == 0) false true false 0 with msk := false, ps := false, fx := fx < 6 }
  | 0x02 => some { plainForm (t == 0) false false false fx with msk := false, ps := false }
  | 0x03 => some { plainForm (t == 1) true true (fx != 0) 0 with msk := fx != 0, fx := fx < 3 }
  | 0x04 => some { plainForm (t == 0) false true false 0 with msk := false, fx := fx % 8 != 0 && fx / 8 != 3 }
  | 0x10 | 0x11 | 0x12 | 0x13 | 0x14 => some { plainForm (isFloat t) true true true fx with rounds := true }
  | 0x15 | 0x16 => some (plainForm (isFloat t) true true true fx)
  | 0x17 | 0x18 => some (plainForm (isFloat t) true true false fx)
  | 0x19 | 0x1A => some { plainForm (isFloat t) true true false fx with rounds := true }
  | 0x1B => some { plainForm (isFloat t) true true (fx == 1) 0 with rounds := true, fx := fx < 2 }
  | 0x20 => some { plainForm (isFloat t) true true false 0 with rounds := true }
  | 0x21 => some { plainForm (t == 0) false true false 0 with msk := false, ps := false, fx := fx < 16 }
  | 0x22 => some { plainForm (isFloat t || isFP8 t) true true false 0 with
      rounds := true, sat := isFP8 t, fx := isFloat fx || isFP8 fx || isInt fx }
  | 0x23 => some { plainForm (isFP8 t || t == 6 || isEight t) true true (t != 6) 0 with
      rounds := true, sat := isFP8 t || t == 6, fx := isFloat fx }
  | 0x24 => some { plainForm (isFloat t) true true (fx != 6) 0 with
      rounds := true, fx := isFP8 fx || fx == 6 || isEight fx }
  | 0x30 | 0x31 | 0x32 => some (plainForm (isInt t) true true true fx)
  | 0x33 => some (plainForm (isInt t) true true false fx)
  | 0x34 | 0x35 | 0x36 | 0x37 => some (plainForm (isInt t) true true true fx)
  | 0x38 | 0x39 => some (plainForm (isInt t) true true false fx)
  | 0x3A => some { plainForm (if fx == 16 then t == 9 || t == 13 else isInt t && !isEight t) true true true 0 with
      fx := fx == 0 || fx == 8 || fx == 16 }
  | 0x3B => some { plainForm (if fx == 16 then t == 9 || t == 13 else isInt t && t != 10 && t != 14)
      true true (fx == 16) 0 with fx := fx == 0 || fx == 8 || fx == 16 }
  | 0x40 => some { plainForm (isFloat t || isInt t) true true true 0 with
      fx := fx < 6 || (fx < 8 && isFloat t) }
  | 0x41 => some (plainForm (t == 0) true true true fx)
  | 0x42 => some { plainForm (t == 0) true true true fx with ps := false }
  | 0x50 | 0x51 => some { plainForm (isFloat t || isInt t) true true false 0 with
      rounds := fx % 8 == 0 && isFloat t, fx := fx % 8 < 3 || (fx % 8 < 6 && isInt t) }
  | 0x52 => some { plainForm (isFloat t || isInt t) true true false 0 with fx := fx % 8 == 0 }
  | 0x53 => some (plainForm (t == 0) true true true fx)
  | 0x54 | 0x55 => some (plainForm (isInt t) true true true fx)
  | 0x56 => some (plainForm (t == 0) true true true fx)
  | 0x60 => some { plainForm (t == 0) true true (fx == 1) 0 with fx := fx < 2 }
  | 0x61 => some { plainForm (t == 0) true true (fx == 1) 0 with fx := fx < 2, msk := false }
  | 0x62 => some { plainForm (t == 0) true true true 0 with fx := fx < 2, msk := false }
  | 0x63 => some { plainForm (t == 0) true true false 0 with fx := fx < 16, msk := false }
  | 0x64 => some (plainForm (t == 0) true true false fx)
  | _ => none

/-- Whether the fields of a V-word are those its form allows (R50 to R54). -/
def vFieldsOk (opc : Nat) (w : VWord) : Bool :=
  match vForm opc w.ty.toNat w.fx.toNat with
  | none => false
  | some f =>
    f.ty && f.fx && w.rm.toNat ≤ 4 && (f.rounds || w.rm == 0) && (f.sat || !w.sat) &&
    (if w.fi || w.li then decide (w.flv.toNat ≤ 5) else w.flv == 0) && (f.msk || w.msk == 0) && (f.ps || !w.ps) &&
    (if f.d then operandOk w.d else w.d == 0) && (if f.a then operandOk w.a else w.a == 0) &&
    (if f.b then operandOk w.b else w.b == 0)

/-! ### M-words (R55 to R57) -/

/-- An operand specifier: SRC assigned, reserved bits zero (R56). -/
def specOk (x : BitVec 48) : Bool :=
  match bits x 47 46 with
  | 0 => bits x 39 0 == 0
  | 3 => false
  | _ => bits x 21 0 == 0

/-- A scale specifier with SLV 1 or 2 (R56, R57). -/
def scaleOk (x : BitVec 24) : Bool :=
  match bits x 23 22 with
  | 1 => bits x 15 0 == 0
  | 2 => decide (bits x 21 16 ≤ 15) && bits x 15 14 == 0
  | _ => false

/-- The iteration qualifiers of an M-word. -/
def mQualOk (w : MWord) : Bool := if w.fi || w.li then decide (w.flv.toNat ≤ 5) else w.flv == 0

/-- Whether the fields of an M-word of opcode `mop` are those R57 allows. -/
def mFieldsOk (mop : Nat) (w : MWord) : Bool :=
  let fa := w.fmta.toNat
  let fb := w.fmtb.toNat
  let fp8 := isFP8 fa && isFP8 fb
  match mop with
  | 1 => mQualOk w && (fp8 || (fa == fb && (fa == 2 || fa == 3))) && specOk w.aspec && specOk w.bspec && w.sspec == 0
  | 2 => mQualOk w && (fp8 || (fa == 6 && fb == 6)) && specOk w.aspec && specOk w.bspec && scaleOk w.sspec
  | 3 => mQualOk w && fa == 0 && fb == 0 && w.aspec == 0 && w.bspec == 0 && w.kst == 0 && !w.ee && w.sspec == 0
  | 4 => mQualOk w && fa == 1 && fb == 0 && specOk w.aspec && w.bspec == 0 && w.kst == 0 && !w.ee && w.sspec == 0
  | 5 => mQualOk w && isFloat fa && fb == 0 && specOk w.aspec && w.bspec == 0 && w.kst == 0 && w.sspec == 0
  | 6 => mQualOk w && fa == 0 && fb == 0 && specOk w.aspec && w.bspec == 0 && !w.ee && w.sspec == 0
  | 7 => !w.fi && !w.li && w.flv == 0 && fa == 0 && fb == 0 && w.aspec == 0 && w.bspec == 0 && w.kst == 0 && !w.ee &&
         bits w.sspec 23 15 == 0 && bits w.sspec 7 7 == 0
  | 8 => mQualOk w && (isFP8 fa || fa == 2 || fa == 3) && fb == 0 && specOk w.aspec && specOk w.bspec && !w.acc &&
         w.kst == 0 && !w.ee && w.sspec == 0
  | _ => false

end Sys2Proof.Machine
end

