-- ==== Sys2Proof/WellFormed.lean ====
section
/-! DEFINITION. Well-formed instructions: every field holds a value that the encoding tables of spec/02 assign. A
forbidden operand in a legal encoding is well formed; its instruction takes the illegal-operand trap (R60). -/

namespace Sys2Proof

open Sys2Proof.Machine

/-- A type code of a sequencer load or store (R35). -/
def accessType (t : BitVec 4) : Bool := 7 ≤ t.toNat && t.toNat ≤ 14

/-- Every field holds an assigned value, and the reserved ones zero. -/
def Instr.wf (i : Instr) : Bool :=
  match i with
  | .ld _ _ t _ | .lda _ _ t _ | .st _ _ t _ | .stl _ _ t _ => accessType t
  | .atom _ _ _ op _ _ => op.toNat ≤ 8
  | .hinfo _ _ k => k.toNat ≤ 4
  | .lnset lv bsrc _ => lv.toNat ≤ 5 && bsrc.toNat ≤ 2
  | .time _ k => k.toNat ≤ 1
  | .run x => sxOk 1 x
  | .cpy x => sxOk 4 x
  | .xform x => sxOk 3 x
  | .attns x => sxOk 3 x
  | .sqopen x => sxOk 2 x
  | .sqapp x => sxOk 3 x
  | .sqfork x => sxOk 3 x
  | .sqtrunc x => sxOk 2 x
  | .sqpark x => sxOk 3 x
  | .sqwake x => sxOk 2 x
  | .sqclose x => sxOk 1 x
  | .sqinfo x => sxOk 2 x
  | .attnd x => sxOk 3 x
  | .rdx x => sxOk 4 x
  | .coll x => sxOk 4 x
  | .ring x => sxOk 4 x
  | .plough x => sxOk 2 x
  | .tokp x => sxOk 0 x
  | .vbrk v => vFieldsOk 0x01 v
  | .vend v => vFieldsOk 0x02 v
  | .vtripMrg v => v.fx == 0 && vFieldsOk 0x03 v
  | .vtripAcc v => v.fx == 1 && vFieldsOk 0x03 v
  | .vtripProb v => v.fx == 2 && vFieldsOk 0x03 v
  | .vmask v => vFieldsOk 0x04 v
  | .vadd v => vFieldsOk 0x10 v
  | .vsub v => vFieldsOk 0x11 v
  | .vmul v => vFieldsOk 0x12 v
  | .vfma v => vFieldsOk 0x13 v
  | .vfms v => vFieldsOk 0x14 v
  | .vmin v => vFieldsOk 0x15 v
  | .vmax v => vFieldsOk 0x16 v
  | .vabs v => vFieldsOk 0x17 v
  | .vneg v => vFieldsOk 0x18 v
  | .vrcp v => vFieldsOk 0x19 v
  | .vrsq v => vFieldsOk 0x1A v
  | .vexp v => v.fx == 0 && vFieldsOk 0x1B v
  | .vexpSub v => v.fx == 1 && vFieldsOk 0x1B v
  | .vtab v => vFieldsOk 0x20 v
  | .vtload v => vFieldsOk 0x21 v
  | .vcvt v => vFieldsOk 0x22 v
  | .vqnt v => vFieldsOk 0x23 v
  | .vdqnt v => vFieldsOk 0x24 v
  | .vand v => vFieldsOk 0x30 v
  | .vor v => vFieldsOk 0x31 v
  | .vxor v => vFieldsOk 0x32 v
  | .vnot v => vFieldsOk 0x33 v
  | .vshl v => vFieldsOk 0x34 v
  | .vshr v => vFieldsOk 0x35 v
  | .vsra v => vFieldsOk 0x36 v
  | .vfsh v => vFieldsOk 0x37 v
  | .vclz v => vFieldsOk 0x38 v
  | .vpopc v => vFieldsOk 0x39 v
  | .vpackWrap v => v.fx == 0 && vFieldsOk 0x3A v
  | .vpackClamp v => v.fx == 8 && vFieldsOk 0x3A v
  | .vpackBits v => v.fx == 16 && vFieldsOk 0x3A v
  | .vunpackLo v => v.fx == 0 && vFieldsOk 0x3B v
  | .vunpackHi v => v.fx == 8 && vFieldsOk 0x3B v
  | .vunpackBits v => v.fx == 16 && vFieldsOk 0x3B v
  | .vcmp v => vFieldsOk 0x40 v
  | .vsel v => vFieldsOk 0x41 v
  | .vcommit v => vFieldsOk 0x42 v
  | .vred v => vFieldsOk 0x50 v
  | .vscan v => vFieldsOk 0x51 v
  | .vgmax v => vFieldsOk 0x52 v
  | .vperm v => vFieldsOk 0x53 v
  | .vbcast v => vFieldsOk 0x54 v
  | .viota v => vFieldsOk 0x55 v
  | .vrotm v => vFieldsOk 0x56 v
  | .vld v => v.fx == 0 && vFieldsOk 0x60 v
  | .vldIdx v => v.fx == 1 && vFieldsOk 0x60 v
  | .vst v => v.fx == 0 && vFieldsOk 0x61 v
  | .vstIdx v => v.fx == 1 && vFieldsOk 0x61 v
  | .vstmBits v => v.fx == 0 && vFieldsOk 0x62 v
  | .vstmRng v => v.fx == 1 && vFieldsOk 0x62 v
  | .vxq v => vFieldsOk 0x63 v
  | .vmov v => vFieldsOk 0x64 v
  | .mma m => mFieldsOk 1 m
  | .mmax m => mFieldsOk 2 m
  | .mzero m => mFieldsOk 3 m
  | .mload m => mFieldsOk 4 m
  | .mstore m => mFieldsOk 5 m
  | .mrow m => mFieldsOk 6 m
  | .medge m => mFieldsOk 7 m
  | .mtrans m => mFieldsOk 8 m
  | _ => true

end Sys2Proof
end

