-- ==== Sys2Proof/Decode.lean ====
section
/-! DEFINITION. The decoder, total on any bits, and the encoder, both from the encoding tables of spec/02. A word is
a number whose bit 0 is the least significant bit of its first byte. -/

namespace Sys2Proof

open Sys2Proof.Machine

/-! ### Fields -/

/-- n bits of w from bit lo. -/
def fieldOf (w lo n : Nat) : BitVec n := BitVec.ofNat n (w / 2 ^ lo)

/-- n bits of w from bit lo, as a number. -/
def numOf (w lo n : Nat) : Nat := w / 2 ^ lo % 2 ^ n

/-- Bit k of w. -/
def flagOf (w k : Nat) : Bool := w / 2 ^ k % 2 == 1

/-- i when c holds: an encoding that is not an instruction is rejected (R60). -/
def orIllegal (c : Bool) (i : Instr) : Option Instr := if c then some i else none

/-! ### S-words (R29 to R42) -/

/-- The integer group, by FUNC (R33). -/
def decodeInt (w : Nat) : Option Instr :=
  let d := fieldOf w 21 5
  let a := fieldOf w 16 5
  let b := fieldOf w 11 5
  let c := fieldOf w 0 5
  let aux0 := numOf w 0 5 == 0
  let b0 := numOf w 0 5 == 0 && numOf w 11 5 == 0
  match numOf w 5 6 with
  | 0x00 => orIllegal aux0 (.add d a b)
  | 0x01 => orIllegal aux0 (.sub d a b)
  | 0x02 => orIllegal aux0 (.mul d a b)
  | 0x03 => orIllegal aux0 (.mulh d a b)
  | 0x04 => orIllegal aux0 (.mulhz d a b)
  | 0x05 => orIllegal aux0 (.div d a b)
  | 0x06 => orIllegal aux0 (.divz d a b)
  | 0x07 => orIllegal aux0 (.rem d a b)
  | 0x08 => orIllegal aux0 (.remz d a b)
  | 0x09 => orIllegal aux0 (.and d a b)
  | 0x0A => orIllegal aux0 (.or d a b)
  | 0x0B => orIllegal aux0 (.xor d a b)
  | 0x0C => orIllegal aux0 (.andn d a b)
  | 0x0D => orIllegal aux0 (.shl d a b)
  | 0x0E => orIllegal aux0 (.shr d a b)
  | 0x0F => orIllegal aux0 (.sra d a b)
  | 0x10 => orIllegal aux0 (.rot d a b)
  | 0x11 => some (.fsh d a b c)
  | 0x12 => orIllegal b0 (.clz d a)
  | 0x13 => orIllegal b0 (.ctz d a)
  | 0x14 => orIllegal b0 (.popc d a)
  | 0x15 => orIllegal aux0 (.min d a b)
  | 0x16 => orIllegal aux0 (.max d a b)
  | 0x17 => orIllegal aux0 (.minz d a b)
  | 0x18 => orIllegal aux0 (.maxz d a b)
  | 0x19 => orIllegal (numOf w 3 2 == 0) (.cmp d a b (fieldOf w 0 3))
  | 0x1A => some (.sel d a b c)
  | _ => none

/-- The memory, translation and queue words, by OP (R35 to R38). -/
def decodeMem (w : Nat) : Option Instr :=
  let r := fieldOf w 21 5
  let r0 := numOf w 21 5 == 0
  let h := fieldOf w 17 4
  let t := fieldOf w 12 4
  let off := fieldOf w 0 12
  let typed := numOf w 16 1 == 0 && 7 ≤ t.toNat && t.toNat ≤ 14
  let sub := numOf w 12 5
  match numOf w 26 6 with
  | 0x10 => orIllegal typed (.ld r h t off)
  | 0x11 => orIllegal typed (.lda r h t off)
  | 0x12 => orIllegal typed (.st r h t off)
  | 0x13 => orIllegal typed (.stl r h t off)
  | 0x14 => orIllegal (numOf w 15 2 == 0) (.ldm r h (fieldOf w 12 3) off)
  | 0x15 => orIllegal (numOf w 15 2 == 0) (.stm r h (fieldOf w 12 3) off)
  | 0x16 => orIllegal (numOf w 8 4 ≤ 8) (.atom r h (fieldOf w 12 5) (fieldOf w 8 4) (flagOf w 7) (fieldOf w 0 7))
  | 0x17 => orIllegal (numOf w 8 4 == 0) (.cas r h (fieldOf w 12 5) (flagOf w 7) (fieldOf w 0 7))
  | 0x18 =>
    if r0 && numOf w 0 12 == 0 then
      match sub with
      | 0 => some (.fence h)
      | 1 => some (.fenceIfetch h)
      | _ => none
    else none
  | 0x19 => orIllegal (numOf w 16 1 == 0) (.ldq r h t off)
  | 0x1A => orIllegal (numOf w 15 2 == 0 && numOf w 0 12 == 0) (.xlate r h (fieldOf w 12 3))
  | 0x1B => orIllegal (r0 && numOf w 0 17 == 0) (.hdrop h)
  | 0x1C => orIllegal (sub ≤ 4 && numOf w 0 12 == 0) (.hinfo r h (fieldOf w 12 5))
  | 0x1D => orIllegal (sub == 0) (.keyld r h off)
  | 0x20 => 
    let a0 := numOf w 16 5 == 0
    let q := fieldOf w 12 4
    let cnt := fieldOf w 5 4
    let tailf := numOf w 4 1
    match numOf w 9 3 with
    | 0 => orIllegal (r0 && numOf w 0 9 == 0) (.qpush (fieldOf w 16 5) q)
    | 1 => orIllegal (a0 && numOf w 0 9 == 0) (.qpop r q)
    | 2 =>
      if r0 && a0 && numOf w 0 4 == 0 then
        if tailf == 0 then some (.qadvHead q cnt) else some (.qadvTail q cnt)
      else none
    | 3 => orIllegal (a0 && numOf w 0 9 == 0) (.qlvl r q)
    | _ => none
  | 0x22 =>
    orIllegal (numOf w 23 3 ≤ 5 && numOf w 21 2 ≤ 2 && numOf w 0 16 == 0)
      (.lnset (fieldOf w 23 3) (fieldOf w 21 2) (fieldOf w 16 5))
  | 0x23 => orIllegal (sub == 0) (.adset r h off)
  | 0x24 => orIllegal (sub == 0) (.layout r h off)
  | 0x25 => orIllegal (r0 && sub == 0) (.mblk h off)
  | 0x2A => orIllegal (r0 && sub == 0) (.launch h off)
  | _ => none

/-- The progress, barrier and system words (R41, R42). -/
def decodeSys (w : Nat) : Option Instr :=
  let d := fieldOf w 21 5
  let a := fieldOf w 16 5
  let b := fieldOf w 11 5
  let d0 := numOf w 21 5 == 0
  let a0 := numOf w 16 5 == 0
  let b0 := numOf w 11 5 == 0
  let x0 := numOf w 0 5 == 0
  let func := numOf w 5 6
  match numOf w 26 6 with
  | 0x28 =>
    match func with
    | 0 =>
      if numOf w 2 2 == 0 then
        if flagOf w 4 then some (.waitAll d a b (fieldOf w 0 2)) else some (.waitAny d a b (fieldOf w 0 2))
      else none
    | 1 => orIllegal (d0 && b0 && x0) (.sev a)
    | 2 => orIllegal (d0 && a0 && b0 && x0) .retire
    | 3 => orIllegal (d0 && a0 && b0 && x0) .yield
    | 4 => orIllegal (a0 && b0 && numOf w 0 5 ≤ 1) (.time d (fieldOf w 0 5))
    | _ => none
  | 0x29 =>
    if d0 && numOf w 6 2 == 0 then
      match numOf w 8 3 with
      | 0 => orIllegal (a0 && b0) (.cbarr (fieldOf w 0 6))
      | 1 => some (.cbset a b (fieldOf w 0 6))
      | 2 => orIllegal b0 (.cbadd a (fieldOf w 0 6))
      | _ => none
    else none
  | 0x2B => orIllegal (numOf w 12 14 == 0) (.phase (fieldOf w 0 12))
  | 0x3C =>
    match func with
    | 0 => orIllegal (d0 && a0 && b0) (.trap (fieldOf w 0 5))
    | 1 => orIllegal (d0 && a0 && b0 && x0) .eret
    | 2 => orIllegal (d0 && a0 && b0 && x0) .halt
    | 3 => orIllegal (d0 && a0 && b0 && x0) .bkpt
    | 4 => orIllegal (d0 && b0 && x0) (.shoot a)
    | 5 => orIllegal (d0 && b0 && x0) (.keydrop a)
    | _ => none
  | 0x3D => orIllegal (numOf w 12 9 == 0) (.srd d (fieldOf w 0 12))
  | 0x3E => orIllegal (numOf w 12 4 == 0 && d0) (.swr a (fieldOf w 0 12))
  | _ => none

/-- A 32-bit S-word: none for every encoding that is not an instruction, an SX head and an extension word among them
(R32, R60). -/
def decodeS (w : Nat) : Option Instr :=
  let d := fieldOf w 21 5
  let a := fieldOf w 16 5
  let res := numOf w 12 4 == 0
  match numOf w 26 6 with
  | 0x01 => decodeInt w
  | 0x02 => orIllegal res (.addi d a (fieldOf w 0 12))
  | 0x03 => orIllegal res (.andi d a (fieldOf w 0 12))
  | 0x04 => orIllegal res (.ori d a (fieldOf w 0 12))
  | 0x05 => orIllegal res (.xori d a (fieldOf w 0 12))
  | 0x06 => orIllegal (numOf w 20 1 == 0) (.lui d (fieldOf w 0 20))
  | 0x07 => orIllegal (numOf w 20 1 == 0) (.addpc d (fieldOf w 0 20))
  | 0x08 => some (.b d a (fieldOf w 13 3) (fieldOf w 0 13))
  | 0x09 => orIllegal (numOf w 21 5 == 0) (.j (fieldOf w 0 21))
  | 0x0A => some (.jal d (fieldOf w 0 21))
  | 0x0B => orIllegal (numOf w 0 16 == 0) (.jr d a)
  | n => if n < 0x28 || n == 0x2A then decodeMem w else decodeSys w

/-! ### SX double words (R43 to R47) -/

/-- Whether a word is the head of a double word (R32). -/
def isSXHead (w : Nat) : Bool := decide (0x30 ≤ numOf w 26 6) && decide (numOf w 26 6 ≤ 0x36)

def decodeExt (x : Nat) : Ext :=
  { push := fieldOf x 23 3, popa := fieldOf x 20 3, popb := fieldOf x 17 3, popc := fieldOf x 14 3,
    sig := flagOf x 13, scb := fieldOf x 7 6, wt := flagOf x 6, wcb := fieldOf x 0 6 }

def decodeSXWord (w : Nat) : SXWord :=
  { d := fieldOf w 21 5, a := fieldOf w 16 5, b := fieldOf w 11 5, c := fieldOf w 0 5,
    ext := decodeExt (w / 2 ^ 32) }

/-- A double word: head in bits [31:0], extension word in [63:32]. -/
def decodeSX (w : Nat) : Option Instr :=
  let x := decodeSXWord w
  let i : Option Instr :=
    match numOf w 26 6, numOf w 5 6 with
    | 0x30, 0 => some (.run x)
    | 0x31, 0 => some (.cpy x)
    | 0x32, 0 => some (.xform x)
    | 0x33, 0 => some (.attns x)
    | 0x33, 1 => some (.sqopen x)
    | 0x33, 2 => some (.sqapp x)
    | 0x33, 3 => some (.sqfork x)
    | 0x33, 4 => some (.sqtrunc x)
    | 0x33, 5 => some (.sqpark x)
    | 0x33, 6 => some (.sqwake x)
    | 0x33, 7 => some (.sqclose x)
    | 0x33, 8 => some (.sqinfo x)
    | 0x34, 0 => some (.attnd x)
    | 0x34, 1 => some (.rdx x)
    | 0x35, 0 => some (.coll x)
    | 0x35, 1 => some (.ring x)
    | 0x35, 2 => some (.plough x)
    | 0x36, 0 => some (.tokp x)
    | _, _ => none
  match i with
  | none => none
  | some j => orIllegal (numOf w 58 6 == 63 && j.wf) j

/-! ### V-words and M-words (R49, R53, R55, R57) -/

def decodeVWord (w : Nat) : VWord :=
  { ty := fieldOf w 84 4, d := fieldOf w 62 22, a := fieldOf w 40 22, b := fieldOf w 18 22, ps := flagOf w 17,
    fi := flagOf w 16, li := flagOf w 15, flv := fieldOf w 12 3, msk := fieldOf w 9 3, rm := fieldOf w 6 3,
    sat := flagOf w 5, fx := fieldOf w 0 5 }

/-- The V-word of opcode `opc` with those fields, by FX where one opcode has several rows; its fields unchecked. -/
def vInstr (opc : Nat) (v : VWord) : Option Instr :=
  match opc with
  | 0x01 => some (.vbrk v)
  | 0x02 => some (.vend v)
  | 0x03 =>
    match v.fx.toNat with
    | 0 => some (.vtripMrg v)
    | 1 => some (.vtripAcc v)
    | 2 => some (.vtripProb v)
    | _ => none
  | 0x04 => some (.vmask v)
  | 0x10 => some (.vadd v)
  | 0x11 => some (.vsub v)
  | 0x12 => some (.vmul v)
  | 0x13 => some (.vfma v)
  | 0x14 => some (.vfms v)
  | 0x15 => some (.vmin v)
  | 0x16 => some (.vmax v)
  | 0x17 => some (.vabs v)
  | 0x18 => some (.vneg v)
  | 0x19 => some (.vrcp v)
  | 0x1A => some (.vrsq v)
  | 0x1B =>
    match v.fx.toNat with
    | 0 => some (.vexp v)
    | 1 => some (.vexpSub v)
    | _ => none
  | 0x20 => some (.vtab v)
  | 0x21 => some (.vtload v)
  | 0x22 => some (.vcvt v)
  | 0x23 => some (.vqnt v)
  | 0x24 => some (.vdqnt v)
  | 0x30 => some (.vand v)
  | 0x31 => some (.vor v)
  | 0x32 => some (.vxor v)
  | 0x33 => some (.vnot v)
  | 0x34 => some (.vshl v)
  | 0x35 => some (.vshr v)
  | 0x36 => some (.vsra v)
  | 0x37 => some (.vfsh v)
  | 0x38 => some (.vclz v)
  | 0x39 => some (.vpopc v)
  | 0x3A =>
    match v.fx.toNat with
    | 0 => some (.vpackWrap v)
    | 8 => some (.vpackClamp v)
    | 16 => some (.vpackBits v)
    | _ => none
  | 0x3B =>
    match v.fx.toNat with
    | 0 => some (.vunpackLo v)
    | 8 => some (.vunpackHi v)
    | 16 => some (.vunpackBits v)
    | _ => none
  | 0x40 => some (.vcmp v)
  | 0x41 => some (.vsel v)
  | 0x42 => some (.vcommit v)
  | 0x50 => some (.vred v)
  | 0x51 => some (.vscan v)
  | 0x52 => some (.vgmax v)
  | 0x53 => some (.vperm v)
  | 0x54 => some (.vbcast v)
  | 0x55 => some (.viota v)
  | 0x56 => some (.vrotm v)
  | 0x60 =>
    match v.fx.toNat with
    | 0 => some (.vld v)
    | 1 => some (.vldIdx v)
    | _ => none
  | 0x61 =>
    match v.fx.toNat with
    | 0 => some (.vst v)
    | 1 => some (.vstIdx v)
    | _ => none
  | 0x62 =>
    match v.fx.toNat with
    | 0 => some (.vstmBits v)
    | 1 => some (.vstmRng v)
    | _ => none
  | 0x63 => some (.vxq v)
  | 0x64 => some (.vmov v)
  | _ => none

/-- A 96-bit V-word. `VNOP` is the all-zero word (R54). -/
def decodeV (w : Nat) : Option Instr :=
  if w % 2 ^ 96 = 0 then some .vnop
  else match vInstr (numOf w 88 8) (decodeVWord w) with
    | none => none
    | some i => orIllegal i.wf i

def decodeMWord (w : Nat) : MWord :=
  { fmta := fieldOf w 180 4, fmtb := fieldOf w 176 4, aspec := fieldOf w 128 48, bspec := fieldOf w 80 48,
    acc := flagOf w 79, kst := fieldOf w 70 8, ee := flagOf w 69, sspec := fieldOf w 40 24, fi := flagOf w 39,
    li := flagOf w 38, flv := fieldOf w 35 3 }

/-- A 192-bit M-word that is not the empty slot; its reserved bits are zero (R55). -/
def decodeM (w : Nat) : Option Instr :=
  let m := decodeMWord w
  let i : Option Instr :=
    match numOf w 184 8 with
    | 1 => some (.mma m)
    | 2 => some (.mmax m)
    | 3 => some (.mzero m)
    | 4 => some (.mload m)
    | 5 => some (.mstore m)
    | 6 => some (.mrow m)
    | 7 => some (.medge m)
    | 8 => some (.mtrans m)
    | _ => none
  match i with
  | none => none
  | some j => orIllegal (numOf w 78 1 == 0 && numOf w 64 5 == 0 && numOf w 0 35 == 0 && j.wf) j

/-! ### The encoder -/

def encR (op : Nat) (d a b : BitVec 5) (func aux : Nat) : Nat :=
  op * 2 ^ 26 + d.toNat * 2 ^ 21 + a.toNat * 2 ^ 16 + b.toNat * 2 ^ 11 + func * 2 ^ 5 + aux

def encM (op : Nat) (r : BitVec 5) (h : BitVec 4) (sub : Nat) (off : BitVec 12) : Nat :=
  op * 2 ^ 26 + r.toNat * 2 ^ 21 + h.toNat * 2 ^ 17 + sub * 2 ^ 12 + off.toNat

def encA (op : Nat) (d : BitVec 5) (h : BitVec 4) (b : BitVec 5) (aop : Nat) (sz : Bool) (off : BitVec 7) : Nat :=
  op * 2 ^ 26 + d.toNat * 2 ^ 21 + h.toNat * 2 ^ 17 + b.toNat * 2 ^ 12 + aop * 2 ^ 8 + b2n sz * 2 ^ 7 + off.toNat

def encQ (d a : BitVec 5) (q : BitVec 4) (qf cnt tailf : Nat) : Nat :=
  0x20 * 2 ^ 26 + d.toNat * 2 ^ 21 + a.toNat * 2 ^ 16 + q.toNat * 2 ^ 12 + qf * 2 ^ 9 + cnt * 2 ^ 5 + tailf * 2 ^ 4

def encC (a b : BitVec 5) (cbf : Nat) (n : BitVec 6) : Nat :=
  0x29 * 2 ^ 26 + a.toNat * 2 ^ 16 + b.toNat * 2 ^ 11 + cbf * 2 ^ 8 + n.toNat

/-- The 32 bits of an S-word. -/
def encodeS (i : Instr) : Option Nat :=
  match i with
  | .add d a b => some (encR 0x01 d a b 0x00 0)
  | .sub d a b => some (encR 0x01 d a b 0x01 0)
  | .mul d a b => some (encR 0x01 d a b 0x02 0)
  | .mulh d a b => some (encR 0x01 d a b 0x03 0)
  | .mulhz d a b => some (encR 0x01 d a b 0x04 0)
  | .div d a b => some (encR 0x01 d a b 0x05 0)
  | .divz d a b => some (encR 0x01 d a b 0x06 0)
  | .rem d a b => some (encR 0x01 d a b 0x07 0)
  | .remz d a b => some (encR 0x01 d a b 0x08 0)
  | .and d a b => some (encR 0x01 d a b 0x09 0)
  | .or d a b => some (encR 0x01 d a b 0x0A 0)
  | .xor d a b => some (encR 0x01 d a b 0x0B 0)
  | .andn d a b => some (encR 0x01 d a b 0x0C 0)
  | .shl d a b => some (encR 0x01 d a b 0x0D 0)
  | .shr d a b => some (encR 0x01 d a b 0x0E 0)
  | .sra d a b => some (encR 0x01 d a b 0x0F 0)
  | .rot d a b => some (encR 0x01 d a b 0x10 0)
  | .fsh d a b c => some (encR 0x01 d a b 0x11 c.toNat)
  | .clz d a => some (encR 0x01 d a 0 0x12 0)
  | .ctz d a => some (encR 0x01 d a 0 0x13 0)
  | .popc d a => some (encR 0x01 d a 0 0x14 0)
  | .min d a b => some (encR 0x01 d a b 0x15 0)
  | .max d a b => some (encR 0x01 d a b 0x16 0)
  | .minz d a b => some (encR 0x01 d a b 0x17 0)
  | .maxz d a b => some (encR 0x01 d a b 0x18 0)
  | .cmp d a b cc => some (encR 0x01 d a b 0x19 cc.toNat)
  | .sel d a b c => some (encR 0x01 d a b 0x1A c.toNat)
  | .addi d a imm => some (0x02 * 2 ^ 26 + d.toNat * 2 ^ 21 + a.toNat * 2 ^ 16 + imm.toNat)
  | .andi d a imm => some (0x03 * 2 ^ 26 + d.toNat * 2 ^ 21 + a.toNat * 2 ^ 16 + imm.toNat)
  | .ori d a imm => some (0x04 * 2 ^ 26 + d.toNat * 2 ^ 21 + a.toNat * 2 ^ 16 + imm.toNat)
  | .xori d a imm => some (0x05 * 2 ^ 26 + d.toNat * 2 ^ 21 + a.toNat * 2 ^ 16 + imm.toNat)
  | .lui d imm => some (0x06 * 2 ^ 26 + d.toNat * 2 ^ 21 + imm.toNat)
  | .addpc d imm => some (0x07 * 2 ^ 26 + d.toNat * 2 ^ 21 + imm.toNat)
  | .b a b cc off => some (0x08 * 2 ^ 26 + a.toNat * 2 ^ 21 + b.toNat * 2 ^ 16 + cc.toNat * 2 ^ 13 + off.toNat)
  | .j off => some (0x09 * 2 ^ 26 + off.toNat)
  | .jal d off => some (0x0A * 2 ^ 26 + d.toNat * 2 ^ 21 + off.toNat)
  | .jr d a => some (encR 0x0B d a 0 0 0)
  | .ld d h t off => some (encM 0x10 d h t.toNat off)
  | .lda d h t off => some (encM 0x11 d h t.toNat off)
  | .st a h t off => some (encM 0x12 a h t.toNat off)
  | .stl a h t off => some (encM 0x13 a h t.toNat off)
  | .ldm d h n off => some (encM 0x14 d h n.toNat off)
  | .stm a h n off => some (encM 0x15 a h n.toNat off)
  | .atom d h b op sz off => some (encA 0x16 d h b op.toNat sz off)
  | .cas d h b sz off => some (encA 0x17 d h b 0 sz off)
  | .fence h => some (encM 0x18 0 h 0 0)
  | .fenceIfetch h => some (encM 0x18 0 h 1 0)
  | .ldq q h n off => some (encM 0x19 q h n.toNat off)
  | .xlate a h intent => some (encM 0x1A a h intent.toNat 0)
  | .hdrop h => some (encM 0x1B 0 h 0 0)
  | .hinfo d h k => some (encM 0x1C d h k.toNat 0)
  | .keyld a h off => some (encM 0x1D a h 0 off)
  | .qpush a q => some (encQ 0 a q 0 0 0)
  | .qpop d q => some (encQ d 0 q 1 0 0)
  | .qadvHead q n => some (encQ 0 0 q 2 n.toNat 0)
  | .qadvTail q n => some (encQ 0 0 q 2 n.toNat 1)
  | .qlvl d q => some (encQ d 0 q 3 0 0)
  | .lnset lv bsrc sel => some (0x22 * 2 ^ 26 + lv.toNat * 2 ^ 23 + bsrc.toNat * 2 ^ 21 + sel.toNat * 2 ^ 16)
  | .adset n h off => some (encM 0x23 n h 0 off)
  | .layout k h off => some (encM 0x24 k h 0 off)
  | .mblk h off => some (encM 0x25 0 h 0 off)
  | .waitAny d a b n => some (encR 0x28 d a b 0 n.toNat)
  | .waitAll d a b n => some (encR 0x28 d a b 0 (16 + n.toNat))
  | .sev a => some (encR 0x28 0 a 0 1 0)
  | .retire => some (encR 0x28 0 0 0 2 0)
  | .yield => some (encR 0x28 0 0 0 3 0)
  | .time d k => some (encR 0x28 d 0 0 4 k.toNat)
  | .cbarr n => some (encC 0 0 0 n)
  | .cbset a b n => some (encC a b 1 n)
  | .cbadd a n => some (encC a 0 2 n)
  | .launch h off => some (encM 0x2A 0 h 0 off)
  | .phase k => some (0x2B * 2 ^ 26 + k.toNat)
  | .trap k => some (encR 0x3C 0 0 0 0 k.toNat)
  | .eret => some (encR 0x3C 0 0 0 1 0)
  | .halt => some (encR 0x3C 0 0 0 2 0)
  | .bkpt => some (encR 0x3C 0 0 0 3 0)
  | .shoot a => some (encR 0x3C 0 a 0 4 0)
  | .keydrop a => some (encR 0x3C 0 a 0 5 0)
  | .srd d n => some (0x3D * 2 ^ 26 + d.toNat * 2 ^ 21 + n.toNat)
  | .swr a n => some (0x3E * 2 ^ 26 + a.toNat * 2 ^ 16 + n.toNat)
  | _ => none

def encExt (x : Ext) : Nat :=
  63 * 2 ^ 26 + x.push.toNat * 2 ^ 23 + x.popa.toNat * 2 ^ 20 + x.popb.toNat * 2 ^ 17 + x.popc.toNat * 2 ^ 14 +
  b2n x.sig * 2 ^ 13 + x.scb.toNat * 2 ^ 7 + b2n x.wt * 2 ^ 6 + x.wcb.toNat

def encSX (op func : Nat) (x : SXWord) : Nat := encR op x.d x.a x.b func x.c.toNat + encExt x.ext * 2 ^ 32

/-- The 64 bits of a double word, head first. -/
def encodeSX (i : Instr) : Option Nat :=
  match i with
  | .run x => some (encSX 0x30 0 x)
  | .cpy x => some (encSX 0x31 0 x)
  | .xform x => some (encSX 0x32 0 x)
  | .attns x => some (encSX 0x33 0 x)
  | .sqopen x => some (encSX 0x33 1 x)
  | .sqapp x => some (encSX 0x33 2 x)
  | .sqfork x => some (encSX 0x33 3 x)
  | .sqtrunc x => some (encSX 0x33 4 x)
  | .sqpark x => some (encSX 0x33 5 x)
  | .sqwake x => some (encSX 0x33 6 x)
  | .sqclose x => some (encSX 0x33 7 x)
  | .sqinfo x => some (encSX 0x33 8 x)
  | .attnd x => some (encSX 0x34 0 x)
  | .rdx x => some (encSX 0x34 1 x)
  | .coll x => some (encSX 0x35 0 x)
  | .ring x => some (encSX 0x35 1 x)
  | .plough x => some (encSX 0x35 2 x)
  | .tokp x => some (encSX 0x36 0 x)
  | _ => none

def encV (opc : Nat) (v : VWord) : Nat :=
  opc * 2 ^ 88 + v.ty.toNat * 2 ^ 84 + v.d.toNat * 2 ^ 62 + v.a.toNat * 2 ^ 40 + v.b.toNat * 2 ^ 18 + b2n v.ps * 2 ^ 17 +
  b2n v.fi * 2 ^ 16 + b2n v.li * 2 ^ 15 + v.flv.toNat * 2 ^ 12 + v.msk.toNat * 2 ^ 9 + v.rm.toNat * 2 ^ 6 +
  b2n v.sat * 2 ^ 5 + v.fx.toNat

/-- The 96 bits of a V-word. -/
def encodeV (i : Instr) : Option Nat :=
  match i with
  | .vnop => some 0
  | .vbrk v => some (encV 0x01 v)
  | .vend v => some (encV 0x02 v)
  | .vtripMrg v => some (encV 0x03 v)
  | .vtripAcc v => some (encV 0x03 v)
  | .vtripProb v => some (encV 0x03 v)
  | .vmask v => some (encV 0x04 v)
  | .vadd v => some (encV 0x10 v)
  | .vsub v => some (encV 0x11 v)
  | .vmul v => some (encV 0x12 v)
  | .vfma v => some (encV 0x13 v)
  | .vfms v => some (encV 0x14 v)
  | .vmin v => some (encV 0x15 v)
  | .vmax v => some (encV 0x16 v)
  | .vabs v => some (encV 0x17 v)
  | .vneg v => some (encV 0x18 v)
  | .vrcp v => some (encV 0x19 v)
  | .vrsq v => some (encV 0x1A v)
  | .vexp v => some (encV 0x1B v)
  | .vexpSub v => some (encV 0x1B v)
  | .vtab v => some (encV 0x20 v)
  | .vtload v => some (encV 0x21 v)
  | .vcvt v => some (encV 0x22 v)
  | .vqnt v => some (encV 0x23 v)
  | .vdqnt v => some (encV 0x24 v)
  | .vand v => some (encV 0x30 v)
  | .vor v => some (encV 0x31 v)
  | .vxor v => some (encV 0x32 v)
  | .vnot v => some (encV 0x33 v)
  | .vshl v => some (encV 0x34 v)
  | .vshr v => some (encV 0x35 v)
  | .vsra v => some (encV 0x36 v)
  | .vfsh v => some (encV 0x37 v)
  | .vclz v => some (encV 0x38 v)
  | .vpopc v => some (encV 0x39 v)
  | .vpackWrap v => some (encV 0x3A v)
  | .vpackClamp v => some (encV 0x3A v)
  | .vpackBits v => some (encV 0x3A v)
  | .vunpackLo v => some (encV 0x3B v)
  | .vunpackHi v => some (encV 0x3B v)
  | .vunpackBits v => some (encV 0x3B v)
  | .vcmp v => some (encV 0x40 v)
  | .vsel v => some (encV 0x41 v)
  | .vcommit v => some (encV 0x42 v)
  | .vred v => some (encV 0x50 v)
  | .vscan v => some (encV 0x51 v)
  | .vgmax v => some (encV 0x52 v)
  | .vperm v => some (encV 0x53 v)
  | .vbcast v => some (encV 0x54 v)
  | .viota v => some (encV 0x55 v)
  | .vrotm v => some (encV 0x56 v)
  | .vld v => some (encV 0x60 v)
  | .vldIdx v => some (encV 0x60 v)
  | .vst v => some (encV 0x61 v)
  | .vstIdx v => some (encV 0x61 v)
  | .vstmBits v => some (encV 0x62 v)
  | .vstmRng v => some (encV 0x62 v)
  | .vxq v => some (encV 0x63 v)
  | .vmov v => some (encV 0x64 v)
  | _ => none

def encMW (mop : Nat) (m : MWord) : Nat :=
  mop * 2 ^ 184 + m.fmta.toNat * 2 ^ 180 + m.fmtb.toNat * 2 ^ 176 + m.aspec.toNat * 2 ^ 128 + m.bspec.toNat * 2 ^ 80 +
  b2n m.acc * 2 ^ 79 + m.kst.toNat * 2 ^ 70 + b2n m.ee * 2 ^ 69 + m.sspec.toNat * 2 ^ 40 + b2n m.fi * 2 ^ 39 +
  b2n m.li * 2 ^ 38 + m.flv.toNat * 2 ^ 35

/-- The 192 bits of an M-word. -/
def encodeM (i : Instr) : Option Nat :=
  match i with
  | .mma m => some (encMW 1 m)
  | .mmax m => some (encMW 2 m)
  | .mzero m => some (encMW 3 m)
  | .mload m => some (encMW 4 m)
  | .mstore m => some (encMW 5 m)
  | .mrow m => some (encMW 6 m)
  | .medge m => some (encMW 7 m)
  | .mtrans m => some (encMW 8 m)
  | _ => none

/-- The words of an instruction: how many bits, and the bits. An event has none. -/
def encode (i : Instr) : Option (Nat × Nat) :=
  match encodeS i with
  | some w => some (32, w)
  | none =>
    match encodeSX i with
    | some w => some (64, w)
    | none =>
      match encodeV i with
      | some w => some (96, w)
      | none => (encodeM i).map fun w => (192, w)

/-! ### The decoder by width -/

/-- What the sequencer decodes from the eight bytes at its program counter (R43): an S-word, or a double word. -/
def decodeFetch (w : Nat) : Option Instr := if isSXHead w then decodeSX w else decodeS (w % 2 ^ 32)

/-- The instruction whose bits are w: an S-word or double word from up to 64 bits, a V-word from 96, an M-word from
192; bits above `nbits` are zero. -/
def decodeTableWord (nbits w : Nat) : Option Instr :=
  let v := w % 2 ^ nbits
  if nbits ≤ 64 then decodeFetch v
  else if nbits ≤ 96 then decodeV v
  else decodeM v

end Sys2Proof
end

