-- ==== Sys2Proof/Config.lean ====
section
/-! DEFINITION. What the spec leaves open: free values, each an opaque constant with no body, applied to the counter
`State.free` or to the operands it depends on, and the unstated primitives of cryptography
(DESIGN CHOICE, safe: log entry 9). -/

namespace Sys2Proof.Config

/-- FREE VALUE. Whether a fetch from an instruction line that was cached before a store sees the old contents (R64). -/
opaque fetchOld : Nat → Bool

/-- FREE VALUE. Whether a release whose page's scope is narrower than the package is seen outside it before what it releases
(R198). -/
opaque releaseEarly : Nat → Bool

/-- FREE VALUE. HKEY at a task's first instruction: [15:5] HM, [4:0] HX (R394). -/
opaque taskHkey : Nat → BitVec 16

/-- FREE VALUE. Coefficient j (0 to 2) of segment s of built-in table k, an FP32 encoding (R155 to R157). -/
opaque tableCoef : Nat → Nat → Nat → BitVec 32

/-- FREE VALUE. The identity public key of a physical die: its modulus (R397, R399, R410). -/
opaque dieKey : Nat → BitVec 4096

/-- FREE VALUE. The certificate of a physical die's identity public key, and at 1,024 and 1,025 the device identity public key
and its certificate (R412). -/
opaque certificate : Nat → List (BitVec 8)

/-- OPEN PRIMITIVE. RSAES-OAEP decryption of a 512-byte ciphertext under a physical die's fused key (R399, R400). -/
opaque oaepDecrypt : Nat → List (BitVec 8) → Option (BitVec 2048)

/-- OPEN PRIMITIVE. SHA-512 (R408 to R410). -/
opaque sha512 : List (BitVec 8) → BitVec 512

/-- OPEN PRIMITIVE. RSASSA-PSS signature under the device identity key (R409, R410). -/
opaque sign : List (BitVec 8) → BitVec 4096

/-- FREE VALUE. SHA-512 of the firmware images of this package, 0 security and 1 management (R407, R410). -/
opaque firmwareHash : Nat → BitVec 512

/-- FREE VALUE. SVN of the firmware images (R411). -/
opaque firmwareSvn : Nat → BitVec 16

/-- FREE VALUE. The minimum to which a firmware image raises SVNMIN (R411). -/
opaque svnRaise : Nat → BitVec 16

/-- FREE VALUE. Bytes of a row that a failed link tag has left poisoned (R322). -/
opaque poisonByte : Nat → BitVec 8

/-- FREE VALUE. A row read under another key id than the one it was written under (R398). -/
opaque wrongKeyRow : Nat → BitVec 2048

/-- OPEN PRIMITIVE. AES-256-XTS decryption of a row under the two keys of a record, by the row's index in its region (R398,
R399, R402). -/
opaque decryptRow : BitVec 512 → Nat → BitVec 2048 → BitVec 2048

/-- OPEN PRIMITIVE. AES-256-XTS encryption, as for `decryptRow`. -/
opaque encryptRow : BitVec 512 → Nat → BitVec 2048 → BitVec 2048

/-- FREE VALUE. Whether tier t has room for n more rows (R292), t = 4 for a new slab (R286): first the free value's number. -/
opaque tierHasRoom : Nat → Nat → Nat → Bool

/-- FREE VALUE. Where a sheaf's header lies in its tier (R285): first the free value's number. -/
opaque sheafLoc : Nat → Nat

/-- FREE VALUE. Which gleaner of a stack takes a block (R306). -/
opaque gleaner : Nat → Nat

/-- FREE VALUE. Which line leaves a full instruction cache (R13). -/
opaque fetchVictim : Nat → Nat

/-- FREE VALUE. Whether the die's wake reserve grants a T0 frame to a wake (R303). -/
opaque wakeReserve : Nat → Bool

/-- FREE VALUE. The device-defined rows of a save area (R440), and every row of a sealed one (R433): first number the
save, second the row of the area. -/
opaque areaRow : Nat → Nat → BitVec 2048

/-- FREE VALUE. The number of a target's kind in an access-log entry of type 6: 0 a core, 1 the management core, 2 the security
processor (R407). -/
opaque debugKind : Nat → BitVec 8

/-- FREE VALUE. Spares of a resource, by kind * 2^16 + index, where R450 does not count them (R449). -/
opaque spareCount : Nat → Nat

/-- FREE VALUE. Physical cluster in which an SRAM bank lies (R450). -/
opaque bankCluster : Nat → Nat

/-- FREE VALUE. EADDR of a command fault that has no virtual address (R418). -/
opaque faultAddr : Nat → BitVec 64

/-- FREE VALUE. EADDR, EINFO and EPROG0 to EPROG3 (0 to 5) of a trap for which R418 states no location fields. -/
opaque faultField : Nat → Nat → BitVec 64

/-- FREE VALUE. A bundle whose words dispatch could not read when it copied the section (R65). -/
opaque freeBundle : Nat → BitVec 384

/-- FREE VALUE. The register number that an access-log entry of type 8 gives (R407): 0 PTROOT, 1 PSLOT, 2 QCTL, with the
register's index. -/
opaque registerNumber : Nat → Nat → BitVec 16

/-- FREE VALUE. CFGOFF, which the firmware reports in MSTAT (R473). -/
opaque cfgOff : BitVec 16

/-- FREE VALUE. PCLASS of a sequence that was never parked (R297). -/
opaque freeClass : Nat → BitVec 2

/-- FREE VALUE. Whether an uncorrectable media error meets a read of T2 or T3 (R295, R470). -/
opaque mediaError : Nat → Bool

end Sys2Proof.Config
end

