-- ==== Sys2Proof/Machine/Sparse.lean ====
section
/-! DEFINITION. Reading and writing sparse arrays in canonical form: indices strictly rising, no entry equal to the
default. -/

namespace Sys2Proof

/-- The entry at index k, or the default. -/
def Assoc.get {β : Type} (dflt : β) : Assoc β → Nat → β
  | [], _ => dflt
  | (i, v) :: m, k => if i = k then v else Assoc.get dflt m k

/-- Put v at index k, keeping the order. -/
def Assoc.put {β : Type} : Assoc β → Nat → β → Assoc β
  | [], k, v => [(k, v)]
  | (i, u) :: m, k, v =>
    if k < i then (k, v) :: (i, u) :: m
    else if i = k then (k, v) :: m
    else (i, u) :: Assoc.put m k v

/-- Remove the entry at index k. -/
def Assoc.del {β : Type} : Assoc β → Nat → Assoc β
  | [], _ => []
  | (i, u) :: m, k => if i = k then Assoc.del m k else (i, u) :: Assoc.del m k

/-- Write v at index k; writing the default removes the entry. -/
def Assoc.set {β : Type} [DecidableEq β] (dflt : β) (m : Assoc β) (k : Nat) (v : β) : Assoc β :=
  if v = dflt then Assoc.del m k else Assoc.put m k v

/-- Change every entry by f, in canonical form. -/
def Assoc.mapVals {β : Type} [DecidableEq β] (dflt : β) (f : Nat → β → β) : Assoc β → Assoc β
  | [] => []
  | (i, v) :: m => Assoc.set dflt (Assoc.mapVals dflt f m) i (f i v)

/-- Every index is above `lo`, indices rise, no entry is the default. -/
def Assoc.wfFrom {β : Type} [DecidableEq β] (dflt : β) : Option Nat → Assoc β → Bool
  | _, [] => true
  | lo, (i, v) :: m =>
    (match lo with | none => true | some l => decide (l < i)) && decide (v ≠ dflt) && Assoc.wfFrom dflt (some i) m

/-- The canonical form. -/
def Assoc.wf {β : Type} [DecidableEq β] (dflt : β) (m : Assoc β) : Bool := Assoc.wfFrom dflt none m

end Sys2Proof
end

