-- ==== Sys2Proof/Machine/State.lean ====
section
/-! DEFINITION. The state of one system of Edilon X9 modules: every piece of state that spec/ gives the machine,
as plain data, and the state right after power-on reset. A sparse array lists only entries that differ from the
default of its kind (`Assoc`). -/

namespace Sys2Proof.Machine

/-! ### Rows and memory -/

/-- One row of a core scratchpad, of cluster SRAM or of gleaner SRAM (R15, R199, R396, R403, R444, R445). `chk` stands for the
row's check value: it is that value less (exclusive or) CRC-32C of the bytes that the row holds, so zero where they agree. -/
structure RowCell where
  data : Row
  poison : Bool
  ptag : BitVec 5        -- [4] valid, [3:0] partition (R396)
  rtag : BitVec 24       -- region tag (R403)
  tent : Nat             -- 1 + number of the packet that wrote it while its tag is unchecked; 0: final (R322)
  chk : BitVec 32 := 0
  deriving DecidableEq, Repr

/-- What device memory keeps beside each 256-byte row (R398, R403, R444, R445); `chk` as in an SRAM row. -/
structure RowMeta where
  poison : Bool
  key : Nat              -- key id under which the row was written (R398)
  kv : BitVec 512        -- the keys that its slot then held
  rtag : BitVec 24
  tent : Nat
  cipher : Bool          -- a host wrote it into a sealed region: stored as ciphertext (R402)
  shift : Nat := 0       -- the row's number less the tweak under which it was written: first row of its sealed region (R398)
  chk : BitVec 32 := 0
  deriving DecidableEq, Repr

/-! ### Handles and translation -/

/-- The state of a handle (R385). -/
inductive HState where
  | invalid | pending | valid | faulted | stale
  deriving DecidableEq, Repr

/-- A handle (R385). -/
structure Handle where
  st : HState
  base : BitVec 56
  intent : BitVec 3      -- [0] read, [1] write, [2] execute
  page : Nat             -- virtual start of the page; while pending, the address being walked
  size : Nat             -- 0 64 KiB, 1 64 MiB, 2 64 GiB
  leaf : BitVec 64       -- the leaf entry
  cause : Nat            -- walk cause when faulted
  gen : BitVec 16
  deriving DecidableEq, Repr

/-- A cached translation (R384). -/
structure Xlat where
  part : Nat
  page : Nat
  size : Nat
  leaf : BitVec 64
  deriving DecidableEq, Repr

/-! ### Queues, commands and blocks -/

/-- One entry of a data or outcome queue (R227, R444); `chk` as in an SRAM row. -/
structure QSlot where
  row : Row
  poison : Bool
  filled : Bool
  chk : BitVec 32 := 0
  tent : Nat := 0        -- 1 + the packet on which it is tentative: not filled until that is final (R323); 0: final
  deriving DecidableEq, Repr

/-- The pointers and entries of one queue (R227); entry p mod C holds slot p. -/
structure Queue where
  head : Nat
  tail : Nat
  rsv : Nat
  slots : Assoc QSlot
  deriving DecidableEq, Repr

/-- The source of a loop bound (R88): a value read at the `LNSET`, or a data queue. -/
inductive BSrc where
  | value (v : Nat)
  | queue (q : Nat)
  deriving DecidableEq, Repr

/-- BASE and INTENT of a handle as a command captured them (R388). -/
structure HCap where
  h : Nat
  base : BitVec 56
  intent : BitVec 3
  deriving DecidableEq, Repr

/-- The engine commands that carry operand registers (R45), `RUN`, `XFORM` and `TOKP` apart. -/
inductive EngOp where
  | cpy | attns | sqopen | sqapp | sqfork | sqtrunc | sqpark | sqwake | sqclose | sqinfo
  | attnd | rdx | coll | ring | plough
  deriving DecidableEq, Repr

/-- What an entry of an engine's queue asks for (R39, R48, R85, R243). -/
inductive CmdOp where
  | run (reg : Word) (sregs : Assoc Word) (frm : BitVec 2) (hkey : Word)
  | lnset (n : Nat) (src : BSrc)
  | adset (n : Nat) (rec : BitVec 256)
  | mblk (rec : BitVec 512)
  | layout (k : Nat) (rec : BitVec 512)
  | engine (op : EngOp) (d a b c : Word) (caps : List HCap)
  deriving DecidableEq, Repr

/-- One entry of an engine's command queue. -/
structure Cmd where
  op : CmdOp
  pc : Word
  ext : Ext
  deriving DecidableEq, Repr

/-- A vector register, operand-file register or latch: its row, poison tags, the cause of the first deferred
fault (R95) and its integrity poison (R445). A cause is 0, or 1 + space * 2^16 + row of a row-range trap, the one
fault that is deferred (R96). -/
structure VReg where
  row : Row
  tags : BitVec 64
  cause : Nat
  poison : Bool
  deriving DecidableEq, Repr

/-- A lane mask with its taint and the cause behind it (R147), and whether it derives from a poisoned register (R446). -/
structure Mask where
  bits : BitVec 64
  taint : Bool
  cause : Nat
  poison : Bool := false
  deriving DecidableEq, Repr

/-- An accumulator tile (R99, R168): element (i, j) at i * 128 + j; `rows` and `cols` hold 128 less the limit. -/
structure Tile where
  elems : Assoc (BitVec 32)
  taint : Bool
  cause : Nat
  poison : Bool
  cutRows : Nat          -- 128 - EROWS
  cutCols : Nat          -- 128 - ECOLS
  deriving DecidableEq, Repr

/-- A loadable table's binding (R158): space (true: cluster SRAM), header row number and header. -/
structure TBind where
  cluster : Bool
  row : Nat
  hdr : Row
  poison : Bool
  deriving DecidableEq, Repr

/-- Where a block stands (R86). -/
inductive BPhase where
  | enter (from' l : Nat) -- enter(from') of R86 waits for the queue bound of level l
  | issue                -- the bundle at idx is next
  | finished             -- no next point; results outstanding in the array
  deriving DecidableEq, Repr

/-- The running block of a bank (R84 to R90, R436). -/
structure Block where
  start : Nat
  depth : Nat
  first : Nat            -- bundle from which the present point issues (START, or RLBL after a restore)
  idx : Nat
  phase : BPhase
  trapped : Bool         -- stopped by a fault until its bank's record is answered (R61)
  lx : Assoc Nat
  bnd : Assoc Nat
  brk : Nat
  sregs : Assoc Word
  frm : BitVec 2
  hkey : Word
  pc : Word
  ext : Ext
  rst : Option (BitVec 512)   -- restart record of a registered block (R434)
  hc : Assoc Nat              -- checkpoint heads of dq0 to dq3 (R436)
  host : Option Nat           -- core on which a migrated block runs (R179)
  home : Bool := false        -- back from another core, it waits for its own loop engine (R180)
  again : Bool := false       -- stopped by its watchdog, it starts again from its first point (R439)
  marked : Bool := false      -- it has passed a checkpoint (R436)
  deriving DecidableEq, Repr

/-- An M-word in the array with the operands it read at issue (R174, R175). -/
structure ArrOp where
  mop : Nat
  w : MWord
  arows : List Row
  brows : List Row
  srows : List Row
  tagged : Bool
  cause : Nat
  poisoned : Bool
  dst : List Nat              -- destination rows: keys of `State.sram`
  started : Bool              -- in paired mode: its first unit has started (R178)
  since : Nat := 0            -- counter value from which it may have the array
  till : Nat := 0             -- in paired mode: the counter value at which its last unit ends
  deriving DecidableEq, Repr

/-- A pinned page of a copy (R252): page start, size, leaf. -/
structure Pin where
  page : Nat
  size : Nat
  leaf : BitVec 64
  deriving DecidableEq, Repr

/-- An issued copy (R251 to R257). -/
structure CopyRun where
  d : Word
  a : Word
  b : Word
  c : Word
  caps : List HCap
  pc : Word
  ext : Ext
  recD : BitVec 512
  recS : BitVec 512
  recI : BitVec 512
  n : Nat                     -- next point
  count : Nat
  skip : Nat
  poisoned : Bool
  base : Nat                  -- first reserved slot of a SPACE 3 destination
  pins : List Pin
  ring : Option (Nat × Nat × Nat)   -- its ring header, the end of its page, its key id
  wait : Nat                  -- bulk writes not yet performed
  recAsked : Bool             -- the completion record has been asked for
  started : Bool              -- checked, and its pages pinned (R251, R252)
  trapped : Bool
  paid : List Bool := []       -- rows of the present points that have left another module, and whether a cap held them back (R405)
  deriving DecidableEq, Repr

/-! ### The sheaf store -/

/-- The lifecycle state of a sheaf (R292). -/
inductive ShState where
  | free | resident | lent | demoting | demoted | promoting | released
  deriving DecidableEq, Repr

/-- A space that a sheaf has left and that holds keep in use (R291, R292). -/
structure OldSpace where
  nth : Nat                            -- the move that left it
  tier : Nat
  loc : Nat
  lender : Nat
  recalled : Bool                      -- its grant has been recalled
  holds : Nat                          -- holds taken before the move, not yet released
  rows : Nat := 0                      -- rows of the sheaf there
  deriving DecidableEq, Repr

/-- A sheaf, or the continuation record of a parked sequence (R283, R285, R288, R290, R302). Rows are named 0 for the
header and 1 + r for payload row r. -/
structure Sheaf where
  st : ShState
  loc : Nat                            -- LOC: address / 256 of the header, or its flash unit (R285)
  ridx : Nat                           -- RIDX: its place in its die's table of reference counts, which holds `refs`
  chk : Nat                            -- CHK of its entry
  tier : Nat
  target : Nat                         -- target tier of a move
  tfmt : Nat                           -- format in the target tier
  fmt : Nat                            -- 0 BF16, 1 E4M3, 2 MXFP4
  scales : BitVec 1024                 -- SCALES of the header
  rows : Assoc Row                     -- payload rows
  bad : List Nat                       -- poisoned rows
  tags : Assoc (BitVec 24)             -- region tags of rows (R403)
  t : Nat                              -- token positions T
  e : Nat                              -- E = heads * hdim
  nvalid : Nat
  index : Nat
  layer : Nat
  owner : Nat                          -- handle of the sequence that created it
  part : Nat
  refs : Nat
  holds : Nat
  age : Nat                            -- reference time from which its age counts
  recalled : Bool
  lender : Nat                         -- of its T1 frame, held or awaited
  wantT0 : Bool                        -- a promotion request that waits for the move to end (R292)
  moves : Nat                          -- moves completed
  olds : List OldSpace                 -- source spaces still in use (R292)
  out : Nat := 0                       -- rows of the present move that have left by a port (R405)
  failed : Bool := false               -- its promotion met an uncorrectable read (R295, R470)
  deriving DecidableEq, Repr

/-- One layer of a sequence (R286): length, log₂ of the capacity, entries, relocation. -/
structure Layer where
  len : Nat
  caplog : Nat
  ents : Assoc Nat                     -- sheaf index ↦ 1 + sheaf name; OLD while a doubling runs
  moved : Option (Nat × Assoc Nat)     -- MOVED and NEW while a doubling runs
  deriving DecidableEq, Repr

/-- A sequence (R279, R296, R297, R302). -/
structure Seq where
  part : Nat
  toklog : Nat
  heads : Nat
  hdim : Nat
  stype : Nat                          -- type code
  layers : Nat
  cls : Nat
  pcls : Nat
  sstate : Nat                         -- SSTATE of R297
  wkey : BitVec 32
  cont : BitVec 512                    -- the continuation record
  contSheaf : Nat                      -- 1 + name of the sheaf that stands for it; 0 none
  gen : Nat
  wakeign : Nat
  tabs : Assoc Layer
  waiters : List Nat                   -- banks whose commands wait, in order (R304)
  deriving DecidableEq, Repr

/-- Bytes that a started collective has still to write at a member, and the die that they come from (R332, R342). -/
structure Land where
  die : Nat                   -- where it is now
  way : List Nat              -- the dies that it still passes: the member that reads it, then the member that writes it
  frm : Nat                   -- where it comes from
  va : Int
  data : List Byte
  poison : Bool
  tag : BitVec 24
  tent : Nat                  -- 1 + the packet on which it was read tentative (R323)
  chk : BitVec 32 := 0        -- of the row that it carries, as in an SRAM row (R444)
  hop : Nat := 0              -- links crossed towards the first die of `way` (R357)
  deriving DecidableEq, Repr

/-- An issued command of the walker, gleaner port or collective port. -/
structure EngRun where
  op : EngOp
  d : Word
  a : Word
  b : Word
  c : Word
  caps : List HCap
  pc : Word
  ext : Ext
  accepted : Bool             -- the home has accepted it (R281)
  len : Nat                   -- snapshot length; end position of an `ATTND`
  held : List (Nat × Nat × Sheaf)   -- sheaves held: index, name, contents at acceptance (R281)
  t : Nat                     -- T, heads and hdim of the snapshot's sequence
  heads : Nat
  hdim : Nat
  stype : Nat                 -- type code of the snapshot's sequence
  qrec : List Row             -- query record, header first (R305, R335); descriptor of a `PLOUGH`, then its record
  qbad : Bool                 -- a query row is poisoned
  qtags : List (BitVec 24) := []    -- region tags of the query rows of a `RING` (R403, R406)
  qout : Nat := 0             -- rows that have left by a port since the last block or sheaf (R405)
  pins : List Pin             -- pages pinned (R252, R295)
  fault : Option (Nat × Nat × Nat × Option Int)   -- class, sub-code, walk cause, address, until the status row stands
  k : Nat                     -- progress: sheaf, bag or range (R309, R311)
  tok : Nat                   -- tokens of the present range done (R186)
  acc : List Row              -- triples of the present range
  done : BitVec 1024          -- DONE mask (R307)
  poisoned : Bool
  wait : Nat                  -- bulk writes not yet performed
  sent : Bool                 -- the rows of the present step have been sent
  places : Option (List (Nat × Nat)) := none   -- tier and lender set aside for the sheaves of an accepted `SQAPP` (R292)
  gleaner : Nat := 0          -- the gleaner that took the latest block: stack * 16 + number (R15)
  pinning : Bool := false     -- some of its pages are pinned, and it goes on pinning
  trapped : Bool
  parked : Bool               -- stopped by a save, its status row asked for (R307, R430)
  inst : Nat                  -- instance of its GID (R329)
  started : Bool              -- a collective whose instance has started (R329)
  lands : List Land           -- what a started collective has still to write
  full : Bool := false        -- finished but for its token, whose FIFO is full (R11, R431)
  deriving DecidableEq, Repr

/-! ### Sequencer accesses in flight -/

/-- What a posted store-queue entry is (R221, R371). -/
inductive PostKind where
  | line      -- a store to cached memory
  | sram      -- a store to global SRAM
  | window    -- a store to a class-0xF window
  | atomic
  | event     -- SEV
  deriving DecidableEq, Repr

/-- An entry of the store queue (R221). -/
structure Post where
  kind : PostKind
  pa : Nat
  n : Nat                     -- bytes
  data : Word
  release : Bool
  ev : Bool                   -- the page is engine-visible (R277)
  key : Nat                   -- key id of the page
  scope : Nat                 -- sharing scope of the page (R197)
  grp : Nat                   -- the store-queue entry, in program order: words of one `STM` share it
  shot : Bool                 -- made through a translation that a revocation waits for (R392)
  sent : Bool
  done : Bool                 -- performed; waits for its acknowledgement to free the entry
  early : Bool := false       -- a release that agents outside its page's scope may see before what it releases (R198)
  deriving DecidableEq, Repr

/-- A load or atomic whose data is still to return (R221). -/
structure Pend where
  d : Nat                     -- first destination register
  n : Nat                     -- registers (1 to 8)
  i : Nat                     -- registers already loaded
  width : Nat                 -- bytes of each
  signed : Bool
  va : Nat
  pa : Nat
  leaf : BitVec 64            -- the page's leaf entry
  h : Nat
  atomic : Bool
  shot : Bool                 -- as for a store-queue entry
  ret : Option (Word × Bool)  -- the value that came back from a home, and its poison
  deriving DecidableEq, Repr

/-- A row of an `LDQ` on its way (R229, R230). -/
structure LdqRow where
  q : Nat
  slot : Nat
  pa : Nat
  key : Nat
  grp : Nat                   -- its place in program order among the bank's store-queue entries and rows
  shot : Bool
  arr : Nat := 0              -- its place in the order of arrival at its home; 0: on its way
  hop : Nat := 0              -- units of service that it has had: links and its burst (R357)
  no : Nat := 0               -- its number in the order of sending; 0: not yet sent (R318)
  deriving DecidableEq, Repr

/-- A line that a `WAIT` monitors (R364, R368). -/
structure Monitor where
  cond : Nat                  -- its condition
  h : Nat                     -- the handle that the condition names, and the line's virtual address
  va : Nat
  pa : Nat
  left : Bool                 -- the line has left the cache, or another bank has stored to it
  ev : Bool                   -- its page is engine-visible
  shot : Bool                 -- read through a translation that a revocation waits for (R392)
  deriving DecidableEq, Repr

/-- A waiting `WAIT` (R365): its operands, its deadline, its monitored lines. -/
structure Waiting where
  all : Bool
  d : Nat
  conds : List (BitVec 16)
  deadline : Option Nat
  lines : List Monitor
  deriving DecidableEq, Repr

/-- Other waits of an issued sequencer instruction. -/
inductive SeqWait where
  | none
  | wait (w : Waiting)
  | phase (k : Nat)
  | retire
  | shoot (arg : Word) (left : List Nat) (draining : List Nat)   -- dies not reached, dies not yet acknowledged
  | key (slot : Nat) (drop : Bool)
  deriving DecidableEq, Repr

/-! ### Traps -/

/-- A trap with the fields its record will hold (R414, R417, R418). -/
structure Trap where
  cls : Nat
  sub : Nat
  walk : Nat
  eng : Nat
  asyn : Bool
  defer : Bool
  count : Nat
  restart : Bool
  eaddr : Word
  einfo : Word
  prog0 : Word
  prog1 : Word
  prog2 : Word
  prog3 : Word
  edge : Bool := false        -- taken at a boundary and raised by no engine: a halt request (R442)
  deriving DecidableEq, Repr

/-- The system registers of a bank (R417), HMODE apart. -/
structure SysRegs where
  fstat : Word
  epc : Word
  enpc : Word
  etgt : Word
  eaddr : Word
  einfo : Word
  eprog0 : Word
  eprog1 : Word
  eprog2 : Word
  eprog3 : Word
  escr0 : Word
  escr1 : Word
  tvec : Word
  tmask : Word
  einsn : Word
  fpc : Word
  hkey : Word
  deriving DecidableEq, Repr

/-- What has been prepared for a `LAUNCH` in a slot before its branch issued (R82): its record, with an entry of the
device-launch queue reserved for it and the line that held it, or the fault of the record's read. -/
inductive Prep where
  | none
  | got (r : BitVec 512) (line : Nat)
  | bad (t : Trap)
  deriving DecidableEq, Repr

/-- The delay slot about to execute (R79, R83). -/
structure Slot where
  branch : Word
  target : Word
  taken : Bool
  prep : Prep := .none
  deriving DecidableEq, Repr

/-- What a bank is doing (R358, R416, R419, R429, R442). -/
inductive Run where
  | idle                              -- no task
  | live                              -- a task runs
  | entering (r : SysRegs)            -- waits to enter its handler with this record (R416)
  | stopping (r : SysRegs) (rep : SysRegs) (double : Bool)
      -- drains, then holds record `r` and reports `rep` (R419)
  | stopped (double : Bool)           -- stopped with its record (R419)
  | retired                           -- RETIRE has completed on this core (R361)
  | ending                            -- its task is being ended (R422)
  deriving DecidableEq, Repr

/-- The pre-emption state PSTATE of a bank (R429). -/
inductive PState where
  | live | saving | saved | restoring
  deriving DecidableEq, Repr

/-! ### A context bank -/

/-- One context bank of one core with the engine state of its context (DEDUCED, unsafe: log entry 4). -/
structure Bank where
  run : Run
  part : Nat                   -- partition of its task
  bindRec : Nat                -- bind record of its task
  pc : Word
  insn : Word                  -- the word at pc in [31:0], its extension word in [63:32] (EINSN, R417)
  slot : Option Slot
  regs : Assoc Word            -- s1 to s31
  handles : Assoc Handle
  sys : SysRegs
  hmode : Bool
  mbox : Assoc Word
  event : Bool
  cb : Assoc Word              -- TARGET [63:32], COUNT [31:0] (R373)
  tokens : Assoc Nat           -- channel 8 * from + to (R236)
  queues : Assoc Queue         -- dq0 to dq5 at 0 to 5, oq0 and oq1 at 6 and 7 (R38)
  cmds : Assoc (List Cmd)      -- per engine code (R48)
  posts : List Post            -- the store queue
  pend : Option Pend
  ldqs : List LdqRow
  wait : SeqWait
  fences : List (Nat × Nat)    -- fences that went on before what they order, their scope and place in program order (R198)
  tokp : List Word             -- addresses of `TOKP` words whose pops are taken and whose push waits (R237)
  faults : List Trap           -- engine faults not yet taken, oldest first (R415)
  yielded : Bool               -- YIELD: the other bank goes first (R377)
  ibuf : Assoc BundleBits      -- loop-engine instruction buffer, 1,024 bundles (R65)
  ibad : List Nat              -- its poisoned rows (R253)
  itent : List (Nat × Nat) := []   -- its tentative rows, with 1 + their packets (R323)
  edits : List DebugItem := []     -- writes of the debugger that take effect on resumption, oldest first (R443)
  copied : Bool                -- the bundle section has been copied (R65)
  sealedSeen : Bool            -- the task has translated a sealed page (R433)
  -- loop engine
  vregs : Assoc VReg
  oregs : Assoc VReg
  latches : Assoc VReg
  stale : BitVec 6             -- latches marked stale by a halt (R442)
  masks : Assoc Mask
  tiles : Assoc Tile
  ads : Assoc (BitVec 256)
  lbs : Assoc BSrc
  tabs : Assoc (Option TBind)
  mblk : Option (BitVec 512)
  leWait : Option Nat          -- time since which a `RUN` that could issue waits for the loop engine (R179)
  block : Option Block
  arr : List ArrOp
  -- copy sequencer
  layouts : Assoc (BitVec 512)
  copy : Option CopyRun
  -- walker, gleaner port, collective port, by engine code
  engs : Assoc (Option EngRun)
  -- pre-emption
  pst : PState
  area : Nat
  lastEnd : Nat                -- reference time at which the save began (R439)
  trapAt : Nat                 -- common counter at the trap that stopped the bank (R420)
  report : Option SysRegs      -- a trap of the block watchdog that the restore reports (R439)
  deriving DecidableEq, Repr

/-! ### Caches and the directory -/

/-- The state of a line in a sequencer data cache (R269, R273). -/
inductive CState where
  | i | s | e | o | m | isD | imD | smD | omD | xiA
  deriving DecidableEq, Repr

/-- A line of a data cache (R268). `ev`: its page is engine-visible. `way`: it holds a way of its set, otherwise
it lies in the transient or fill buffer (R273, R462). -/
structure CLine where
  st : CState
  data : BitVec 512
  ev : Bool
  way : Bool
  used : Nat                   -- time of the latest access (R462)
  poison : Bool := false       -- a port gave zeros for its row (R406)
  b : Nat := 0                 -- 1 + the bank that asked for it last, for which its messages act (R476)
  deriving DecidableEq, Repr

/-- The state of one core that its two banks share. -/
structure Core where
  lines : Assoc CLine          -- by line number, physical address / 64
  icache : Assoc (Option (BitVec 512))  -- instruction lines as fetched, by line number
  tlb : List Xlat
  turn : Nat                   -- 1 + bank that issued last, 0 before the first issue (R358)
  engTurn : Assoc Nat          -- per engine: bank whose command issued last
  attached : Bool              -- a debugger is attached (R441)
  sheafTab : List (Nat × Nat × Nat)    -- the walker's cache of table entries: handle, layer, index, latest first (R13)
  deriving DecidableEq, Repr

/-- A message of the coherence protocol (R270). -/
inductive MKind where
  | getS | getX | upg | wthru (off : Nat) (n : Nat) (v : Word)
  | put | putClean | ack | dO | dS | dW | dX | peekData
  | dataS | dataE | dataX | grant | fwdS | fwdX | inv | peek | putAck
  deriving DecidableEq, Repr

/-- The classes of packets (R315). -/
inductive PClass where
  | request | response | atomic | management
  deriving DecidableEq, Repr

/-- A coherence message between a core's cache and the home of a line. -/
structure Msg where
  kind : MKind
  core : Nat
  line : Nat
  data : BitVec 512
  ev : Bool
  arr : Nat := 0               -- a request that waits at its home: its place in the order of arrival (R272); 0: on its way
  b : Nat := 0                 -- 1 + the bank for whose partition it acts (R476); 0: none
  poison : Bool := false       -- its row was held back by a port (R406)
  whole : Bool := false        -- a write-through that brings the whole line (R277)
  hop : Nat := 0               -- links crossed on its way (R357)
  no : Nat := 0                -- its number in the order of sending; 0: not yet sent (R318)
  deriving DecidableEq, Repr

/-- What the directory entry's completion will do (R274). -/
inductive Req where
  | getS (r : Nat)
  | getX (r : Nat)
  | upg (r : Nat)
  | bulk                       -- a bulk write waits at the head of `State.bulk`
  | read                       -- a host or CXL read
  | atomic
  | recall                     -- page migration (R325)
  deriving DecidableEq, Repr

/-- A directory entry (R271): owner, sharers (cores, or dies in die-vector mode), and when busy the request and
the replies outstanding. -/
structure Dir where
  owner : Option Nat
  sharers : List Nat
  vec : Bool
  busy : Option Req
  need : Nat
  held : Bool                  -- a Put's PutAck is held back (R276)
  heldFor : Nat
  ev : Bool
  buf : Option (BitVec 512)    -- the owner's data, while replies are outstanding
  b : Nat := 0                 -- the bank, as in a message, for which the request that it serves acts (R476)
  capped : Bool := false       -- a port holds the row back from the requester (R406)
  deriving DecidableEq, Repr

/-- Who waits for a bulk access (R278). -/
inductive Who where
  | copy (b : Nat)
  | eng (b : Nat) (e : Nat)
  | host
  | cxl (port : Nat)
  | stop (b : Nat)             -- a stopped bank, whose record of the trap ring this is (R420)
  | nobody
  deriving DecidableEq, Repr

/-- A bulk, host or CXL access waiting at the home of its row (R272, R278). -/
structure Bulk where
  pa : Nat
  data : List Byte             -- empty for a read
  len : Nat
  poison : Bool
  rtag : BitVec 24
  key : Nat
  who : Who
  served : List Nat            -- lines reserved for it at their home, their copies recalled
  got : List (Nat × BitVec 512 × Bool)   -- a read: lines served, with the poison of their row
  tent : Nat                   -- 1 + the packet that brings it, while its tag is unchecked; 0: final (R322)
  shot : Bool := false         -- made through a translation that a revocation waits for (R392)
  out : List (Nat × Bool) := []    -- a read: rows that have left by the reader's port, and whether a cap held them back (R406)
  arr : Nat := 0               -- its place in the order of arrival at its home; 0: on its way
  chk : BitVec 32 := 0         -- of the row that it carries, as in an SRAM row (R444)
  hop : Nat := 0               -- links crossed on its way (R357)
  no : Nat := 0                -- its number in the order of sending; 0: not yet sent (R318)
  deriving DecidableEq, Repr

/-- An atomic waiting at its home (R223, R379). -/
structure AReq where
  b : Nat
  pa : Nat
  w64 : Bool
  op : Nat                     -- AOP; 16 for CAS
  v : Word
  expect : Word
  key : Nat
  ev : Bool
  arr : Nat := 0               -- its place in its home's queue; 0: not accepted
  refused : Nat := 0           -- the order of its first refusal by a full queue; 0: never refused
  hop : Nat := 0               -- links crossed on its way (R357)
  no : Nat := 0                -- its number in the order of sending; 0: not yet sent (R318)
  deriving DecidableEq, Repr

/-- A sequencer access to global SRAM or to a barrier word on its way (R209, R373). -/
structure GReq where
  b : Nat
  pa : Nat
  n : Nat
  write : Bool
  v : Word
  poison : Bool
  atomic : Bool := false       -- an atomic of the barrier window, which dispatch queues (R379)
  arr : Nat := 0               -- as for an atomic
  refused : Nat := 0
  hop : Nat := 0
  no : Nat := 0
  deriving DecidableEq, Repr

/-- An event on its way (R371). -/
structure Event where
  b : Nat                      -- sender
  part : Nat
  target : Word
  hop : Nat := 0               -- links crossed on its way (R357)
  no : Nat := 0                -- its number in the order of sending; 0: not yet sent (R318)
  deriving DecidableEq, Repr

/-- A write to the notify or the wake window on its way to the register or the sequence that it names (R303, R346). -/
structure WinWrite where
  b : Option Nat               -- the bank whose store it is; none: the host or a CXL device
  host : Bool                  -- the host's
  wake : Bool                  -- to the wake window; otherwise to a notify register
  n : Nat                      -- handle or queue
  v : Word
  pa : Nat                     -- the address of the store
  hop : Nat := 0               -- links crossed on its way (R357)
  no : Nat := 0                -- its number in the order of sending; 0: not yet sent (R318)
  deriving DecidableEq, Repr

/-- A completion record to be appended at a ring (R259, R420). `limit`: first address past the ring's page. -/
structure RingReq where
  pa : Nat
  limit : Nat
  key : Nat
  part : Nat
  rcd : BitVec 256
  who : Who
  served : List Nat            -- lines reserved for it
  arr : Nat := 0               -- its place in the order of arrival at its home; 0: on its way
  shot : Bool := false         -- made through a translation that a revocation waits for (R392)
  hop : Nat := 0               -- links crossed on its way (R357)
  no : Nat := 0                -- its number in the order of sending; 0: not yet sent (R318)
  deriving DecidableEq, Repr

/-- A home has refused a source's packets of one class, until the source reissues them (R326). -/
structure Refused where
  src : Nat
  home : Nat
  cls : PClass
  hint : Nat                   -- counter value from which the source may reissue them
  deriving DecidableEq, Repr

/-- A packet whose final tag has not passed (R322). -/
structure Packet where
  who : Who                    -- the command whose row it carries
  movers : List Who            -- commands that have moved the row on (R323)
  sram : Bool                  -- it writes an SRAM row, named by its key; else memory, by physical address
  pa : Nat
  data : List Byte
  failed : Bool                -- a tag has failed, and the packet comes again
  was : Bool                   -- poison of the row before the tag failed
  into : Option (Nat × Nat × Nat) := none   -- it writes a queue entry instead: bank, queue, slot; or, as queue 8, a row of the bank's instruction buffer
  deriving DecidableEq, Repr

/-! ### Clusters, dies, scheduling -/

/-- A transform waiting in a lane or running (R266). -/
structure Xform where
  b : Nat
  part : Nat
  d : Word
  a : Word
  c : Word
  ext : Ext
  served : Nat                 -- cycles of its engine that it has had, up to `since`
  since : Nat
  deriving DecidableEq, Repr

/-- A landing window of a multicast (R258). -/
structure Landing where
  b : Nat
  lo : Nat
  hi : Nat
  deriving DecidableEq, Repr

/-- The state of one cluster (R13, R177, R258, R266, R395). -/
structure Cluster where
  acmode : Word
  acnext : Option Word
  chkey : Word
  lanes : List (Nat × Xform)           -- engine, transform; arrival order
  running : Assoc (Option Xform)       -- by engine * 16 + partition
  windows : List Landing
  deriving DecidableEq, Repr

/-- A task of a launch, pending or bound (R349). -/
structure Task where
  num : Nat
  launch : Nat
  part : Nat
  dlo : Nat
  dhi : Nat
  plotn : Nat
  deriving DecidableEq, Repr

/-- A bind record (R353) with the change of SHARE that waits for the frame boundary (R354). -/
structure Bind where
  plot : BitVec 104
  share : Word
  task : Nat
  part : Nat
  var : Nat
  nvar : Nat
  bank : Nat
  state : Nat                          -- STATE of R353
  devres : Bool
  valid : Bool
  shareNext : Option (Word × Nat)      -- with the counter value of the frame boundary
  job : Option Task                    -- its task, while it waits or runs
  started : List Nat                   -- banks of the task that started
  finished : List Nat                  -- those that have completed RETIRE
  ended : Bool                         -- being ended (R422)
  deriving DecidableEq, Repr

/-- A launch in being (R24, R348): its record, its image's fixed part (R74) and the mailbox values of its tasks. -/
structure Launch where
  id : Nat
  rcd : BitVec 512
  part : Nat
  b : Option Nat                       -- issuing bank (core 127 for a wake); none for the host
  fixed : BitVec 2560
  mbox : Assoc Word
  ring : Option Xlat                   -- the translation of its ring's page
  left : Nat                           -- tasks not yet complete
  tasks : Nat
  ended : Bool
  deriving DecidableEq, Repr

/-- A key slot of a die (R397) with its region and meter (R399, R405). -/
structure KeySlot where
  state : Nat                          -- 0 empty, 1 plain, 2 sealed here, 3 closed here
  part : Nat
  blob : Word
  key : BitVec 512                     -- XTS keys 1 and 2; 0 for key id 0, whose drawn key no rule reads
  rbase : Nat
  rsize : Nat
  win : Nat
  rate : Nat
  cap : Nat
  granted : List Nat                   -- reference times of the grants within WIN
  total : Nat                          -- bytes ever granted
  credit : Assoc Nat                   -- bytes of credit held, per port
  waiting : List Nat                   -- ports that wait for credit
  warned : Option Nat                  -- reference time of the last type-4 entry
  deriving DecidableEq, Repr

/-- A request to a die's key unit (R400, R401). -/
structure KeyReq where
  b : Nat
  drop : Bool
  slot : Nat
  blob : List Byte
  revoked : Bool                       -- a drop: its translations are revoked, their accesses drain
  deriving DecidableEq, Repr

/-- The configuration and queues of one die. -/
structure Die where
  ptroot : Assoc Word                  -- R381
  rootNow : Assoc Word                 -- the roots that translations use (R381)
  sqcls : Assoc (Option Word)          -- R289, none: the reset value
  tcfg : Word                          -- R413
  wdctl : Option (BitVec 32)           -- R439, none: reset 100,000
  rascfg : Option (BitVec 8)           -- R449, none: reset 4
  relabel : Assoc (Option (BitVec 16)) -- R312, none: the reset value
  extents : Word                       -- R314
  cxl : Assoc Word                     -- R195: [63] attached, [40:0] capacity
  cxlNow : Assoc Word := []            -- the entries that translations use (R195, R469)
  pslot : Assoc Word                   -- R356
  pslotNext : List (Nat × Word × Nat)  -- partition, mask, counter value of the frame boundary
  binds : Assoc Bind                   -- R353
  pending : List Task                  -- R349
  launchq : List (Nat × Nat × BitVec 512)  -- device-launch queue: issuing bank, its partition, record (R351)
  sealSeen : List Xlat                 -- sealed pages walked (R407)
  gidCount : Assoc Nat                 -- R329
  keys : Assoc KeySlot
  keyq : List KeyReq
  ras : Assoc Nat                      -- corrected errors of the window, by kind * 2^16 + index (R449)
  rasWin : Nat                         -- the window that they belong to
  spares : Assoc Nat                   -- spares used, by kind * 2^16 + index (R450)
  remaps : List (Nat × Nat) := []      -- remaps of clusters and of the die that wait for idle plots, as kind and index (R450)
  seqNext : Nat                        -- next sequence index never used (R279)
  seqFree : List Nat                   -- freed indices, oldest first
  units : List (Nat × Nat × Nat)       -- units of service under way: resource, partition, end (R357)
  skew : Nat := 0                      -- by how much its copy of the common counter is ahead, 2 at most (R17)
  deriving DecidableEq, Repr

/-! ### Collectives -/

/-- The triples of one shard for one owner of a `RING` (R336, R337). -/
structure Slab where
  owner : Nat                          -- ranks
  shard : Nat
  rows : List Row
  poison : Bool
  deriving DecidableEq, Repr

/-- What an instance of a `RING` has received (R336 to R338). -/
structure Inst where
  gid : Nat
  nth : Nat
  grp : Word
  slots : List Slab
  late : List (Nat × Nat)              -- owner, shard that arrived after its deadline
  merged : List Nat                    -- owners that have merged
  disc : List (Nat × Nat)              -- owner, shard discarded
  deriving DecidableEq, Repr

/-! ### Host side -/

/-- A user-mode queue (R345, R346). -/
structure HostQ where
  base : Word
  head : Nat
  tail : Nat
  part : Nat
  err : Bool
  enable : Bool
  log2n : Nat
  since : Nat                          -- time since which it has been ready
  deriving DecidableEq, Repr

/-- A mapper slot (R347): its queue and the records taken in this turn. -/
structure MSlot where
  q : Option Nat
  taken : Nat
  deriving DecidableEq, Repr

/-- An entry of the access log (R407, R408), less its hash. -/
structure LogEntry where
  ty : Nat
  die : Nat
  part : Nat
  key : Nat
  detail : BitVec 256
  time : Nat
  epoch : Nat
  seq : Nat
  prev : BitVec 512
  deriving DecidableEq, Repr

/-- A signed checkpoint (R409). -/
structure Checkpoint where
  seq : Nat
  epoch : Nat
  hash : BitVec 512
  nonce : BitVec 256
  sig : BitVec 4096
  deriving DecidableEq, Repr

/-- The completion of a host's or a CXL device's access (R402, R446, R467, R474). -/
inductive Reply where
  | data (xs : List Byte) (poison : Bool)
  | abort                              -- Completer Abort
  | unsupported                        -- Unsupported Request
  deriving DecidableEq, Repr

/-- The I/O die and the module (R17, R409, R471, R473). -/
structure Module where
  stage : Nat
  ready : Bool
  svnmin : Nat                         -- SVNMIN, in fuses (R411)
  attached : List Nat                  -- processors to which the debug port has attached: 126 management core, 127 security processor
  debugged : List (Nat × Row × Bool)   -- rows that the debug port has read: bank * 8192 + row, contents, poison; latest first
  fail : Bool
  fuseout : Bool
  epoch : Nat
  cfgoff : Nat
  pwrlim : Option (BitVec 16)          -- none: reset 9,600
  hostbase : Word
  lognonce : Assoc Word
  log : List LogEntry                  -- newest first
  logWait : List LogEntry              -- events on their way to the security processor
  checkpoints : List Checkpoint
  reports : List (BitVec 8192)         -- attestation reports returned
  grants : Assoc Nat                   -- lent frames: lender * 1024 + borrower (R291)
  replies : List Reply                 -- completions given to the host or to a CXL device
  deriving DecidableEq, Repr

/-- A migrating page (R325). -/
structure Migr where
  old : Nat                            -- old frame, a physical address
  new : Nat
  size : Nat
  phase : Nat                          -- 0 copying, 1 recall, 2 recopy, 3 forwarding, 4 grace
  dirty : List Nat                     -- rows
  since : Nat
  deriving DecidableEq, Repr

/-- What a save has written into the regions of its area that must come back unchanged (R433, R440). -/
structure Saved where
  base : Nat                           -- the free value that gives those rows
  sealedSave : Bool
  deriving DecidableEq, Repr

/-- Where an uncorrectable error can strike: what has a poison bit (R445). -/
inductive Spot where
  | mem (row : Nat)                    -- a row of device memory
  | sram (key : Nat)                   -- a row of a scratchpad or of cluster SRAM, by its key in `State.sram`
  | gleaner (key : Nat)                -- a row of gleaner SRAM
  | vreg (b i : Nat)
  | oreg (b i : Nat)
  | tile (b i : Nat)
  | entry (b q p : Nat)                -- slot p of queue q
  deriving DecidableEq, Repr

/-- Who moves next when the outside world or an arbiter says so. -/
inductive Turn where
  | seq (b : Nat)                      -- the sequencer of bank b
  | ev (i : Instr)                     -- an event
  | together (is : List Instr)         -- messages that these events name arrive at their homes in one cycle (R272)
  | tick (n : Nat)                     -- n cycles pass
  | upset (x : Spot)                   -- an uncorrectable error (R445)
  deriving DecidableEq, Repr

/-- The state of the system. -/
structure State where
  counter : Nat                        -- common cycle counter (R17, R378), modulo 2^64 when read
  reftime : Nat                        -- reference time (R378)
  cur : Nat                            -- the bank whose sequencer is acting
  agenda : List Turn                   -- the model's own: the next moves, chosen outside the machine
  pending : List Instr                 -- the model's own: events the machine itself owes, oldest first
  free : Nat                           -- the model's own: free values used
  mem : List Host.Cell                 -- device memory by physical address
  memMeta : Assoc RowMeta              -- by physical address / 256
  hostMem : List Host.Cell             -- host memory by host bus address (R468)
  sram : Assoc RowCell                 -- 2 * (core * 8192 + row), or 2 * (cluster * 32768 + row) + 1
  glSram : Assoc RowCell               -- gleaner SRAM (R15): (stack * 16 + gleaner) * 512 + row, a stack being die * 2 + its number
  banks : Assoc Bank
  cores : Assoc Core
  clusters : Assoc Cluster
  dies : Assoc Die
  dirs : Assoc Dir                     -- by line number
  net : List Msg                       -- coherence messages, oldest first
  bulk : List Bulk
  atomics : List AReq
  gsram : List GReq
  events : List Event
  winWrites : List WinWrite
  rings : List RingReq
  packets : Assoc (Option Packet)
  refused : List Refused
  arrivals : Nat                       -- messages that have arrived at homes (R272)
  migr : List Migr
  seqs : Assoc (Option Seq)
  sheaves : Assoc (Option Sheaf)
  sheafNext : Nat
  insts : List Inst
  launches : List Launch
  launchNext : Nat
  taskNext : Nat
  hostLaunch : List (BitVec 512 × Nat) -- records taken from queues: record, partition (R347)
  hostq : Assoc HostQ
  mapper : Assoc MSlot
  passed : Assoc Nat                   -- the model's own: units of service that reads in progress have had, by their agent (R357)
  sends : Nat                          -- packets sent (R318)
  saved : Assoc (Option Saved)
  modul : Module
  deriving DecidableEq, Repr

/-! ### Defaults and reset -/

def RowCell.zero : RowCell := { data := 0, poison := false, ptag := 0, rtag := 0, tent := 0 }

def RowMeta.zero : RowMeta := { poison := false, key := 0, kv := 0, rtag := 0, tent := 0, cipher := false }

/-- A handle at a task's first instruction (R385). -/
def Handle.zero : Handle :=
  { st := .invalid, base := 0, intent := 0, page := 0, size := 0, leaf := 0, cause := 0, gen := 0 }

def QSlot.zero : QSlot := { row := 0, poison := false, filled := false }

def Queue.zero : Queue := { head := 0, tail := 0, rsv := 0, slots := [] }

def VReg.zero : VReg := { row := 0, tags := 0, cause := 0, poison := false }

def Mask.zero : Mask := { bits := 0, taint := false, cause := 0 }

/-- A tile at a task's first instruction (R168). -/
def Tile.zero : Tile := { elems := [], taint := false, cause := 0, poison := false, cutRows := 0, cutCols := 0 }

def SysRegs.zero : SysRegs :=
  { fstat := 0, epc := 0, enpc := 0, etgt := 0, eaddr := 0, einfo := 0, eprog0 := 0, eprog1 := 0, eprog2 := 0,
    eprog3 := 0, escr0 := 0, escr1 := 0, tvec := 0, tmask := 0, einsn := 0, fpc := 0, hkey := 0 }

/-- A bank that holds no task (DESIGN CHOICE, unsafe: log entry 13). -/
def Bank.zero : Bank :=
  { run := .idle, part := 0, bindRec := 0, pc := 0, insn := 0, slot := none, regs := [], handles := [], sys := SysRegs.zero,
    hmode := false, mbox := [], event := false, cb := [], tokens := [], queues := [], cmds := [], posts := [],
    pend := none, ldqs := [], wait := .none, fences := [], tokp := [], faults := [], yielded := false, ibuf := [], ibad := [], copied := false,
    sealedSeen := false, vregs := [], oregs := [], latches := [], stale := 0, masks := [], tiles := [], ads := [],
    lbs := [], tabs := [], mblk := none, leWait := none, block := none, arr := [], layouts := [], copy := none, engs := [],
    pst := .live, area := 0, lastEnd := 0, trapAt := 0, report := none }

def CLine.zero : CLine := { st := .i, data := 0, ev := false, way := false, used := 0 }

def Core.zero : Core := { lines := [], icache := [], tlb := [], turn := 0, engTurn := [], attached := false, sheafTab := [] }

/-- A directory entry in state I (R271, R472). -/
def Dir.zero : Dir :=
  { owner := none, sharers := [], vec := false, busy := none, need := 0, held := false, heldFor := 0, ev := false,
    buf := none }

def Cluster.zero : Cluster :=
  { acmode := 0, acnext := none, chkey := 0, lanes := [], running := [], windows := [] }

/-- An empty bind record (R353). -/
def Bind.zero : Bind :=
  { plot := 0, share := 0, task := 0, part := 0, var := 0, nvar := 0, bank := 0, state := 0, devres := false,
    valid := false, shareNext := none, job := none, started := [], finished := [], ended := false }

def KeySlot.zero : KeySlot :=
  { state := 0, part := 0, blob := 0, key := 0, rbase := 0, rsize := 0, win := 0, rate := 0, cap := 0, granted := [],
    total := 0, credit := [], waiting := [], warned := none }

def Die.zero : Die :=
  { ptroot := [], rootNow := [], sqcls := [], tcfg := 0, wdctl := none, rascfg := none, relabel := [], extents := 0, cxl := [],
    pslot := [], pslotNext := [], binds := [], pending := [], launchq := [], sealSeen := [], gidCount := [], keys := [], keyq := [],
    ras := [], rasWin := 0, spares := [], seqNext := 0, seqFree := [], units := [] }

def Layer.zero : Layer := { len := 0, caplog := 0, ents := [], moved := none }

def HostQ.zero : HostQ :=
  { base := 0, head := 0, tail := 0, part := 0, err := false, enable := false, log2n := 0, since := 0 }

def MSlot.zero : MSlot := { q := none, taken := 0 }

/-- The module at power-on: MSTAT at its reset value (R473); bring-up starts with the power-on event (R472)
(DESIGN CHOICE, unsafe: log entry 13). -/
def Module.zero : Module :=
  { stage := 0, ready := false, fail := false, fuseout := false, epoch := 0, cfgoff := 0, pwrlim := none,
    svnmin := 0, attached := [], debugged := [], hostbase := 0, lognonce := [], log := [], logWait := [], checkpoints := [], reports := [], grants := [],
    replies := [] }

/-- The system right after power-on reset (R472): every register at its reset value, every memory empty, no task,
no message, MSTAT zero. -/
def State.reset : State :=
  { counter := 0, reftime := 0, cur := 0, agenda := [], pending := [], free := 0, mem := [], memMeta := [],
    hostMem := [], sram := [], glSram := [], banks := [], cores := [], clusters := [], dies := [], dirs := [], net := [],
    bulk := [], atomics := [], gsram := [], events := [], winWrites := [], rings := [], packets := [], refused := [], arrivals := 0, migr := [],
    seqs := [], sheaves := [], sheafNext := 0, insts := [], launches := [], launchNext := 0, taskNext := 0,
    hostLaunch := [], hostq := [], mapper := [], passed := [], sends := 0, saved := [], modul := Module.zero }

/-! ### Reasons to stop -/

/-- The machine stops with one of these. -/
inductive Fault where
  /-- `State.agenda` names a die, core, bank, cluster or queue that the device does not have (R8, R9, R10); raised
  by the step, and by the events that name an agent. Safe: no such agent acts. -/
  | noSuchAgent
  deriving DecidableEq, Repr

/-- No meaning is given. -/
inductive Refusal where
  /-- The instruction has no meaning in this model. Raised by `exec` alone. Safe. -/
  | notModelled (mnemonic : String)
  deriving DecidableEq, Repr

end Sys2Proof.Machine
end

