-- ==== Sys2Proof/Machine/Ops.lean ====
section
/-! DEFINITION. The named operations over State: agents and their parts, registers, memory, translation, handles,
tokens and barriers, taking a trap and returning from one. -/

namespace Sys2Proof.Machine

/-- The outcome type of every meaning. -/
abbrev Out := Host.Outcome State Fault Refusal

/-! ### Names of agents (R9, R10) -/

def bankCore (b : Nat) : Nat := b / 2
def bankDie (b : Nat) : Nat := b / 256
def coreDie (c : Nat) : Nat := c / 128
def coreNum (b : Nat) : Nat := (b / 2) % 128
def mkBank (die core bank : Nat) : Nat := (die * 128 + core) * 2 + bank
def bankCluster (b : Nat) : Nat := bankDie b * 16 + coreNum b / 8
def otherBank (b : Nat) : Nat := if b % 2 = 0 then b + 1 else b - 1

/-- Banks that exist: 1,024 dies of 104 cores (R9, R10). -/
def validBank (b : Nat) : Bool := decide (bankDie b < 1024) && decide (coreNum b < 104)

def validCore (c : Nat) : Bool := decide (coreDie c < 1024) && decide (c % 128 < 104)

def validDie (d : Nat) : Bool := decide (d < 1024)

def validCluster (c : Nat) : Bool := decide (c / 16 < 1024) && decide (c % 16 < 13)

/-! ### Parts of the state -/

def State.bank (s : State) (b : Nat) : Bank := Assoc.get Bank.zero s.banks b

def State.setBank (s : State) (b : Nat) (k : Bank) : State := { s with banks := Assoc.set Bank.zero s.banks b k }

def State.modBank (s : State) (b : Nat) (f : Bank → Bank) : State := s.setBank b (f (s.bank b))

def State.core (s : State) (c : Nat) : Core := Assoc.get Core.zero s.cores c

def State.modCore (s : State) (c : Nat) (f : Core → Core) : State :=
  { s with cores := Assoc.set Core.zero s.cores c (f (s.core c)) }

def State.die (s : State) (d : Nat) : Die := Assoc.get Die.zero s.dies d

def State.modDie (s : State) (d : Nat) (f : Die → Die) : State :=
  { s with dies := Assoc.set Die.zero s.dies d (f (s.die d)) }

def State.cluster (s : State) (c : Nat) : Cluster := Assoc.get Cluster.zero s.clusters c

def State.modCluster (s : State) (c : Nat) (f : Cluster → Cluster) : State :=
  { s with clusters := Assoc.set Cluster.zero s.clusters c (f (s.cluster c)) }

def State.dir (s : State) (line : Nat) : Dir := Assoc.get Dir.zero s.dirs line

def State.setDir (s : State) (line : Nat) (d : Dir) : State := { s with dirs := Assoc.set Dir.zero s.dirs line d }

/-- The bank whose sequencer is acting. -/
def State.me (s : State) : Bank := s.bank s.cur

def State.modMe (s : State) (f : Bank → Bank) : State := s.modBank s.cur f

/-- Leave an event for the machine to do later, once (DESIGN CHOICE, safe: log entry 3). -/
def State.owe (s : State) (i : Instr) : State :=
  if i ∈ s.pending then s else { s with pending := s.pending ++ [i] }

/-- Take one free value. -/
def State.tickFree (s : State) : State := { s with free := s.free + 1 }

/-! ### Scalar registers (R30) -/

/-- Read `s`r: `s0` gives zero. -/
def Bank.reg (k : Bank) (r : BitVec 5) : Word := if r = 0 then 0 else Assoc.get 0 k.regs r.toNat

/-- Write `s`r: a result named `s0` is discarded. -/
def Bank.setReg (k : Bank) (r : BitVec 5) (v : Word) : Bank :=
  if r = 0 then k else { k with regs := Assoc.set 0 k.regs r.toNat v }

def State.reg (s : State) (r : BitVec 5) : Word := s.me.reg r

def State.setReg (s : State) (r : BitVec 5) (v : Word) : State := s.modMe fun k => k.setReg r v

/-! ### Advancing the program counter (R79, R80) -/

/-- Where the bank continues after a word of `len` bytes: past the word, or where its branch goes when it stands in
a delay slot. -/
def Bank.advance (k : Bank) (len : Nat) : Bank :=
  match k.slot with
  | none => { k with pc := k.pc + BitVec.ofNat 64 len }
  | some sl => { k with pc := if sl.taken then sl.target else sl.branch + 8, slot := none }

/-- The instruction completes. -/
def finish (s : State) : Out := .next (s.modMe fun k => k.advance 4)

/-- An SX double word completes (R43). -/
def finish8 (s : State) : Out := .next (s.modMe fun k => k.advance 8)

/-- The instruction waits before any effect and counts as not executed (R235). -/
def stall (s : State) : Out := .next s

/-! ### Byte strings -/

/-- The little-endian number of a byte string (R2). -/
def leNat : List Byte → Nat
  | [] => 0
  | x :: xs => x.toNat + 256 * leNat xs

/-- The n little-endian bytes of a number. -/
def natLE : Nat → Nat → List Byte
  | 0, _ => []
  | n + 1, v => BitVec.ofNat 8 v :: natLE n (v / 256)

/-! ### Check values (R444) -/

/-- One bit of the reflected CRC-32C (R285, R444). -/
def crcBit (c : Nat) : Nat := if c % 2 = 1 then (c / 2) ^^^ 0x82F63B78 else c / 2

def crcByte (c : Nat) (x : Byte) : Nat :=
  crcBit (crcBit (crcBit (crcBit (crcBit (crcBit (crcBit (crcBit (c ^^^ x.toNat))))))))

/-- CRC-32C of a byte string (R285, R444) (DEDUCED, safe: log entry 65). -/
def crc32c (xs : List Byte) : Nat := (xs.foldl crcByte 0xFFFFFFFF) ^^^ 0xFFFFFFFF

/-- The check value that is made for a row (R444). -/
def rowCheck (r : Row) : BitVec 32 := BitVec.ofNat 32 (crc32c (natLE 256 r.toNat))

/-- The check value of an SRAM row (R444). -/
def RowCell.check (c : RowCell) : BitVec 32 := c.chk ^^^ rowCheck c.data

/-- The check value of a queue entry (R444). -/
def QSlot.check (e : QSlot) : BitVec 32 := e.chk ^^^ rowCheck e.row

/-! ### Scratchpad and cluster-SRAM rows -/

def spadRows : Nat := 6144
def csramRows : Nat := 32768

/-- Index of a scratchpad row in `State.sram`. -/
def spadKey (core row : Nat) : Nat := 2 * (core * 8192 + row)

/-- Index of a cluster-SRAM row in `State.sram`; a cluster is die * 16 + number. -/
def csramKey (cluster row : Nat) : Nat := 2 * (cluster * 32768 + row) + 1

/-- Index of the global-SRAM row that a physical address of class 0x8 names (R195). -/
def gsramKey (pa : Nat) : Nat :=
  csramKey (((pa / 2 ^ 37) % 1024) * 16 + (pa / 2 ^ 23) % 16) ((pa / 2 ^ 8) % 32768)

def State.cell (s : State) (key : Nat) : RowCell := Assoc.get RowCell.zero s.sram key

def State.setCell (s : State) (key : Nat) (c : RowCell) : State :=
  { s with sram := Assoc.set RowCell.zero s.sram key c }

/-- The partition number of an agent that acts for no task (R396). -/
def noTask : Nat := 16

/-- The tag of partition p with its valid bit (R396). -/
def ptagOf (p : Nat) : BitVec 5 := if p = noTask then 0 else BitVec.ofNat 5 (16 + p % 16)

/-- A read by row number for partition p (R396): a row of another partition reads as clean zeros. -/
def State.readCell (s : State) (key part : Nat) : RowCell :=
  let c := s.cell key
  if part ≠ noTask ∧ c.ptag = ptagOf part then c else RowCell.zero

/-- A whole-row write for partition p (R396, R448). -/
def State.writeCell (s : State) (key part : Nat) (data : Row) (poison : Bool) (rtag : BitVec 24) : State :=
  s.setCell key { data := data, poison := poison, ptag := ptagOf part, rtag := rtag, tent := 0 }

/-- A row that was not made here enters an SRAM row with the check value that it brings (R444, R448). -/
def State.moveCell (s : State) (key part : Nat) (data : Row) (poison : Bool) (rtag : BitVec 24) (chk : BitVec 32) (tent : Nat) :
    State :=
  s.setCell key { data := data, poison := poison, ptag := ptagOf part, rtag := rtag, tent := tent, chk := chk }

/-- The bytes of `new` where the byte mask is set, of `old` elsewhere. -/
def mergeBytes (old new : Row) (mask : Nat → Bool) : Row :=
  BitVec.ofNat 2048 (leNat ((List.range 256).map fun k =>
    BitVec.ofNat 8 (((if mask k then new else old).toNat / 2 ^ (8 * k)) % 256)))

/-- A byte-masked row write for partition p (R396, R448): of a row of another partition the unwritten bytes become
zero and its poison goes. -/
def State.maskCell (s : State) (key part : Nat) (data : Row) (mask : Nat → Bool) (poison : Bool) : State :=
  let c := s.cell key
  let own := part ≠ noTask ∧ c.ptag = ptagOf part
  let old : Row := if own then c.data else 0
  s.setCell key { data := mergeBytes old data mask, poison := poison || (decide own && c.poison),
                  ptag := ptagOf part, rtag := 0, tent := 0 }

/-! ### Traps (R414 to R419) -/

/-- A synchronous trap of the sequencer with RESTART 1 and no location. -/
def Trap.mk0 (cls sub : Nat) : Trap :=
  { cls := cls, sub := sub, walk := 0, eng := 0, asyn := false, defer := false, count := 0, restart := true,
    eaddr := 0, einfo := 0, prog0 := 0, prog1 := 0, prog2 := 0, prog3 := 0 }

def illegalInstruction : Trap := Trap.mk0 1 0
def privileged : Trap := Trap.mk0 2 0
def illegalOperand : Trap := Trap.mk0 3 0

/-- A trap of a sequencer access through handle h at virtual address va (R418). -/
def accessTrap (cls walk h va : Nat) : Trap :=
  { Trap.mk0 cls 0 with walk := walk, eaddr := BitVec.ofNat 64 (at' (h % 16) 56 + va % 2 ^ 56) }

/-- A page fault of a sequencer access. -/
def pageFault (cause h va : Nat) : Trap := accessTrap 4 cause h va

/-- FSTAT of a trap (R417). -/
def Trap.fstat (t : Trap) (ds : Bool) : Word :=
  BitVec.ofNat 64 (t.cls % 256 + at' (t.sub % 256) 8 + at' (t.walk % 16) 16 + at' (t.eng % 8) 20 + at' (b2n ds) 24
    + at' (b2n t.restart) 25 + at' (b2n t.asyn) 26 + at' (b2n t.defer) 27 + at' (t.count % 8) 29)

/-- Bytes of the word in `Bank.insn`: an SX head (major 0x30 to 0x36) takes eight. -/
def insnLen (w : Word) : Nat := if 0x30 ≤ bits w 31 26 && bits w 31 26 ≤ 0x36 then 8 else 4

/-- Whether the bank stands in the slot of a taken branch (R83). -/
def Bank.inTakenSlot (k : Bank) : Option Slot :=
  match k.slot with
  | some sl => if sl.taken then some sl else none
  | none => none

/-- The fault record of a trap taken by bank k whose word is w (R83, R417, R418). -/
def makeRecord (k : Bank) (w : Word) (t : Trap) : SysRegs :=
  let ds := k.inTakenSlot
  let epc := match ds with
    | some sl => sl.branch
    | none => k.pc
  let enpc := if t.asyn || t.edge then epc else match ds with
    | some _ => epc + 4
    | none => epc + BitVec.ofNat 64 (insnLen w)
  { k.sys with
    fstat := t.fstat ds.isSome, epc := epc, enpc := enpc,
    etgt := match ds with | some sl => sl.target | none => 0,
    eaddr := t.eaddr, einfo := t.einfo, eprog0 := t.prog0, eprog1 := t.prog1, eprog2 := t.prog2,
    eprog3 := t.prog3,
    einsn := if t.asyn || t.edge then 0 else if insnLen w = 8 then w else w &&& 0xFFFFFFFF }

/-- The handler's address: bits [1:0] and [63:56] of TVEC are ignored (R417). -/
def handlerPc (tvec : Word) : Word := tvec &&& 0x00FFFFFFFFFFFFFC

/-- Whether a trap of class c goes to the bank's handler (R416). -/
def Bank.toHandler (k : Bank) (c : Nat) : Bool :=
  bit k.sys.tmask c && decide (k.sys.tvec ≠ 0) && !k.hmode && c != 17

/-- Enter the handler with record r (R416). -/
def Bank.enter (k : Bank) (r : SysRegs) : Bank :=
  { k with run := .live, sys := r, hmode := true, pc := handlerPc k.sys.tvec, slot := none, wait := .none }

/-- Stop the bank with record r at time `now`; in handler mode the record still holds the first trap (R416, R419). -/
def Bank.stopWith (k : Bank) (r : SysRegs) (now : Nat) : Bank :=
  { k with run := .stopping (if k.hmode then k.sys else r) r k.hmode, slot := none, wait := .none, trapAt := now }

/-- A trap of the sequencer that is neither an access nor a fetch: R418 states no location fields for it
(DESIGN CHOICE, safe: log entry 45). -/
def Trap.placeless (t : Trap) : Bool :=
  !t.asyn && (t.cls == 1 || t.cls == 2 || t.cls == 3 || t.cls == 10 || t.cls == 14 || t.cls == 15 || t.cls == 16 || t.cls == 17)

/-- A trap with the location fields that its record will hold: free values where R418 states none
(DESIGN CHOICE, safe: log entry 45). -/
def State.fillTrap (s : State) (t : Trap) : Trap :=
  if t.placeless then
    { t with eaddr := Config.faultField s.free 0, einfo := Config.faultField s.free 1, prog0 := Config.faultField s.free 2,
             prog1 := Config.faultField s.free 3, prog2 := Config.faultField s.free 4, prog3 := Config.faultField s.free 5 }
  else t

/-- Take a trap in bank b (R415, R416): enter its handler, or stop and drain; a bank whose task is being ended takes none. -/
def State.takeTrap (s : State) (b : Nat) (t : Trap) : State :=
  let k := s.bank b
  let r := makeRecord k k.insn (s.fillTrap t)
  let s1 := s.tickFree
  if k.run = .ending then s
  else if k.toHandler t.cls then s1.setBank b (k.enter r)
  else (s1.setBank b (k.stopWith r s.counter)).owe (.bankStopDrainEnd b)

/-- The acting sequencer takes a synchronous trap. -/
def trapNow (s : State) (t : Trap) : Out := .next (s.takeTrap s.cur t)

/-- Whether bank b holds system rights (R413). -/
def State.hasRights (s : State) (b : Nat) : Bool :=
  (s.bank b).hmode || bit (s.die (bankDie b)).tcfg ((s.bank b).part % 16)

/-! ### System registers (R417) -/

/-- System register n of bank k as `SRD` reads it; `rights`: system rights held now. None for an unassigned number. -/
def Bank.readSys (k : Bank) (rights : Bool) (n : Nat) : Option Word :=
  let r := k.sys
  match n with
  | 0x000 => some r.fstat
  | 0x001 => some r.epc
  | 0x002 => some r.enpc
  | 0x003 => some r.etgt
  | 0x004 => some r.eaddr
  | 0x005 => some r.einfo
  | 0x006 => some r.eprog0
  | 0x007 => some r.eprog1
  | 0x008 => some r.eprog2
  | 0x009 => some r.eprog3
  | 0x00A => some r.escr0
  | 0x00B => some r.escr1
  | 0x00C => some r.tvec
  | 0x00D => some r.tmask
  | 0x00E => some (BitVec.ofNat 64 (at' (b2n k.hmode) 1 + b2n rights))
  | 0x00F => some r.einsn
  | 0x010 => some r.fpc
  | 0x011 => some r.hkey
  | _ => none

/-- Write the writable fields of system register n (R5, R116, R394, R417). -/
def Bank.writeSys (k : Bank) (n : Nat) (v : Word) : Bank :=
  let r := k.sys
  match n with
  | 0x000 => { k with sys := { r with fstat := setBits r.fstat 25 25 (bits v 25 25) } }
  | 0x003 => { k with sys := { r with etgt := v } }
  | 0x00A => { k with sys := { r with escr0 := v } }
  | 0x00B => { k with sys := { r with escr1 := v } }
  | 0x00C => { k with sys := { r with tvec := v } }
  | 0x00D => { k with sys := { r with tmask := v } }
  | 0x010 => { k with sys := { r with fpc := BitVec.ofNat 64 (bits v 1 0) } }
  | 0x011 => { k with sys := { r with hkey := BitVec.ofNat 64 (bits v 15 0) } }
  | _ => k

/-- The privilege check of R32, R60, then the word's own effect. -/
def privilegedThen (s : State) (f : State → Out) : Out :=
  if s.hasRights s.cur then f s else trapNow s privileged

/-- The waiting trap that bank k takes at its next boundary: the oldest; while a handler's record is unanswered, a halt
request alone (R415, R442). -/
def Bank.dueFault (k : Bank) : Option Trap :=
  if k.hmode then k.faults.find? fun t => t.cls == 17 else k.faults.head?

/-- An engine fault waits for the next boundary of its bank (R61, R251, R415). -/
def State.raise (s : State) (b : Nat) (t : Trap) : State :=
  (s.modBank b fun k => { k with faults := k.faults ++ [t] }).owe (.asyncTrapTaken b)

/-- Return from the record that bank k holds (R427), HMODE apart: where the bank goes on, and whether a slot word is
to be executed first (DESIGN CHOICE, unsafe: log entry 64). A block that its watchdog has stopped is issued again (R439). -/
def Bank.resume (k : Bank) : Bank :=
  let st := k.sys.fstat
  let asyn := bit st 26
  let ds := bit st 24
  let restart := bit st 25
  let eng := bits st 22 20
  let hs := k.handles.map fun p => (p.1, if p.2.st = .faulted then { p.2 with st := .stale } else p.2)
  let held := k.faults.any fun t => t.eng == 1
  let block := k.block.map fun x =>
    if x.again || (asyn && eng == 1) then { x with trapped := held, again := x.again && held } else x
  let k1 := { k with run := .live, handles := hs, wait := .none, block := block,
                     sys := { k.sys with fstat := setBits st 7 0 0 } }
  if asyn then
    let k2 := { k1 with pc := k.sys.epc, slot := none }
    match eng with
    | 1 => k2
    | 2 => { k2 with copy := k2.copy.map fun x => { x with trapped := false } }
    | e => { k2 with engs := k2.engs.map fun p =>
               if p.1 = e then (p.1, p.2.map fun r => { r with trapped := false }) else p }
  else if ds then
    if restart then
      { k1 with pc := k.sys.epc + 4,
                slot := some { branch := k.sys.epc, target := k.sys.etgt, taken := true } }
    else { k1 with pc := k.sys.etgt, slot := none }
  else { k1 with pc := if restart then k.sys.epc else k.sys.enpc, slot := none }

/-! ### Physical addresses (R195, R477) -/

def paClass (pa : Nat) : Nat := (pa / 2 ^ 48) % 16

/-- The logical die that an HBM or global-SRAM address names. -/
def paDie (pa : Nat) : Nat := (pa / 2 ^ 37) % 1024

def isHbm (pa : Nat) : Bool := paClass pa == 0
def isGsram (pa : Nat) : Bool := paClass pa == 8
def isCxl (pa : Nat) : Bool := paClass pa == 9
def isWindow (pa : Nat) : Bool := paClass pa == 15
def isBarrierWin (pa : Nat) : Bool := isWindow pa && (pa / 2 ^ 40) % 256 == 0x43
def isHostWin (pa : Nat) : Bool := isWindow pa && (pa / 2 ^ 40) % 256 == 0x48
def isNotifyWin (pa : Nat) : Bool := isWindow pa && (pa / 2 ^ 40) % 256 == 0x4E
def isWakeWin (pa : Nat) : Bool := isWindow pa && (pa / 2 ^ 32) % 65536 == 0x5700

/-- Memory that a sequencer cache may hold (R268). -/
def isCached (pa : Nat) : Bool := isHbm pa || isCxl pa

/-- Whether logical die n exists for die `die`: VALID of its relabelling entry (R312). -/
def State.dieExists (s : State) (die n : Nat) : Bool :=
  match Assoc.get none (s.die die).relabel n with
  | some e => bit e 15
  | none => false

/-- The defects of a barrier-window frame in bits [47:16] (R372). -/
def barrierFrameBad (pa : Nat) : Bool :=
  let core := (pa / 2 ^ 17) % 128
  let self := (pa / 2 ^ 16) % 2 == 1
  decide (103 < core) || (self && (pa / 2 ^ 17) % 2 ^ 23 != 0)

/-- The defects of a barrier-window access in bits [15:0] (R372). -/
def barrierLowBad (pa : Nat) : Bool :=
  (pa / 2 ^ 10) % 64 != 0 || ((pa / 2 ^ 9) % 2 == 1 && pa % 512 != 0)

/-- Whether a frame's address lies in a hole, as die `die` sees it (R195, R372, R477) (DEDUCED, unsafe: log entry 23)
(DESIGN CHOICE, unsafe: log entry 27). -/
def State.inHole (s : State) (die pa : Nat) : Bool :=
  match paClass pa with
  | 0 => (pa / 2 ^ 47) % 2 == 1 || decide (0x1DCD650000 ≤ pa % 2 ^ 37)
  | 8 => (pa / 2 ^ 47) % 2 == 1 || (pa / 2 ^ 27) % 1024 != 0 || decide (12 < (pa / 2 ^ 23) % 16)
  | 9 =>
    let e := Assoc.get 0 (s.die die).cxlNow ((pa / 2 ^ 40) % 256)
    !(bit e 63) || decide (bits e 40 0 ≤ pa % 2 ^ 40)
  | 15 =>
    if isBarrierWin pa then barrierFrameBad pa
    else !(isHostWin pa || isNotifyWin pa || isWakeWin pa)
  | _ => true

/-- Whether an address names a logical die that the relabelling table does not hold (R312, R384). -/
def State.noDie (s : State) (die pa : Nat) : Bool :=
  if isHbm pa || isGsram pa then !s.dieExists die (paDie pa)
  else if isBarrierWin pa && (pa / 2 ^ 16) % 2 == 0 then !s.dieExists die ((pa / 2 ^ 30) % 1024)
  else false

/-! ### Keys and regions (R397, R402) -/

def State.keySlot (s : State) (die k : Nat) : KeySlot := Assoc.get KeySlot.zero (s.die die).keys k

/-- The key slot of the sealed region that holds a frame of HBM, with its die and key id. -/
def State.regionOf (s : State) (pa : Nat) : Option (Nat × Nat × KeySlot) :=
  if isHbm pa then
    ((s.die (paDie pa)).keys.find? fun p =>
      p.2.state == 2 && decide (p.2.rbase ≤ pa / 65536) && decide (pa / 65536 < p.2.rbase + p.2.rsize)).map
      fun p => (paDie pa, p.1, p.2)
  else none

/-! ### Device memory at its home -/

/-- Where an access to a physical address goes: while a page is being forwarded, to its new frame (R325, R327). -/
def State.frameOf (s : State) (pa : Nat) : Nat :=
  match s.migr.find? fun m => decide (3 ≤ m.phase) && decide (m.old ≤ pa) && decide (pa < m.old + m.size) with
  | some m => m.new + (pa - m.old)
  | none => pa

def State.rowMeta (s : State) (r : Nat) : RowMeta := Assoc.get RowMeta.zero s.memMeta (s.frameOf (r * 256) / 256)

def State.setRowMeta (s : State) (r : Nat) (m : RowMeta) : State :=
  { s with memMeta := Assoc.set RowMeta.zero s.memMeta (s.frameOf (r * 256) / 256) m }

/-- The byte stored at a physical address; memory that nothing has written reads zero (R472)
(DESIGN CHOICE, unsafe: log entry 11). -/
def State.rawByte (s : State) (pa : Nat) : Byte := Assoc.get 0 s.mem (s.frameOf pa)

/-- The n stored bytes from pa. -/
def State.rawBytes (s : State) (pa : Nat) : Nat → List Byte
  | 0 => []
  | n + 1 => s.rawByte pa :: s.rawBytes (pa + 1) n

/-- The keys that a controller takes for an access to a row under a key id: of the slot of the die whose stack holds the row;
for CXL memory of its module's first die (R397, R398). -/
def State.keyVal (s : State) (pa key : Nat) : BitVec 512 :=
  (s.keySlot (if isHbm pa then paDie pa else 16 * (pa / 2 ^ 42 % 64)) key).key

/-- By how much the tweak of an access under a key id falls short of the row's number: the first row of the region of a sealed
slot, nothing for key id 0 and plain slots (R398). -/
def State.keyShift (s : State) (pa key : Nat) : Nat :=
  let k := s.keySlot (if isHbm pa then paDie pa else 16 * (pa / 2 ^ 42 % 64)) key
  if key ≠ 0 ∧ k.state = 2 then k.rbase * 256 else 0

/-- A row was written under the keys and the tweak under which it is read (R398). -/
def State.keyFits (s : State) (pa key : Nat) : Bool :=
  let m := s.rowMeta (pa / 256)
  m.key == key && m.kv == s.keyVal pa key && m.shift == s.keyShift pa key

/-- A clean row of memory would fail its check value if it were read under a key id (R398). -/
def State.misfits (s : State) (pa key : Nat) : Bool :=
  isCached pa && !s.keyFits pa key && !(s.rowMeta (pa / 256)).poison

/-- The row of pa after an agent has read it under a key id: one that fails its check value is poisoned where it lies (R398,
R445). -/
def State.spoil (s : State) (pa key : Nat) : State :=
  if s.misfits pa key then s.setRowMeta (pa / 256) { s.rowMeta (pa / 256) with poison := true } else s

/-- The check value that a row of memory carries (R444); of the plain bytes. -/
def State.rowChk (s : State) (r : Nat) : BitVec 32 :=
  (s.rowMeta r).chk ^^^ BitVec.ofNat 32 (crc32c (s.rawBytes (r * 256) 256))

/-- The keys and the row index of the sealed region that holds a row (R398). -/
def State.sealOf (s : State) (r : Nat) : BitVec 512 × Nat :=
  match s.regionOf (r * 256) with
  | some (_, _, k) => (k.key, r - k.rbase * 256)
  | none => (0, r)

/-- The contents of a row that was stored as ciphertext, decrypted (R402) (DEDUCED, safe: log entry 58). -/
def State.plainRow (s : State) (r : Nat) : Row :=
  Config.decryptRow (s.sealOf r).1 (s.sealOf r).2 (BitVec.ofNat 2048 (leNat (s.rawBytes (r * 256) 256)))

/-- The byte at a physical address as the agents of its partition read it. -/
def State.byte (s : State) (pa : Nat) : Byte :=
  if (s.rowMeta (pa / 256)).cipher then BitVec.ofNat 8 ((s.plainRow (pa / 256)).toNat / 2 ^ (8 * (pa % 256)))
  else s.rawByte pa

/-- The n bytes from pa. -/
def State.bytes (s : State) (pa : Nat) : Nat → List Byte
  | 0 => []
  | n + 1 => s.byte pa :: s.bytes (pa + 1) n

def putBytes (m : List Host.Cell) (pa : Nat) : List Byte → List Host.Cell
  | [] => m
  | x :: xs => putBytes (Assoc.set 0 m pa x) (pa + 1) xs

/-- A write of n bytes at pa to a page that is being copied or recalled (R325). -/
def Migr.note (pa n : Nat) (m : Migr) : Migr :=
  if m.phase ≤ 1 ∧ m.old ≤ pa ∧ pa < m.old + m.size ∧ 0 < n ∧ pa / 256 ∉ m.dirty then { m with dirty := pa / 256 :: m.dirty }
  else m

/-- Store bytes of one row as they are. -/
def State.putRaw (s : State) (pa : Nat) (xs : List Byte) : State :=
  { s with mem := putBytes s.mem (s.frameOf pa) xs, migr := s.migr.map fun m => m.note pa xs.length }

/-- A row stored as ciphertext becomes plain before a part of it is written (DEDUCED, safe: log entry 58). -/
def State.settle (s : State) (r : Nat) : State :=
  let m := s.rowMeta r
  if m.cipher then (s.putRaw (r * 256) (natLE 256 (s.plainRow r).toNat)).setRowMeta r { m with cipher := false } else s

/-- Write bytes of one row. -/
def State.setBytes (s : State) (pa : Nat) (xs : List Byte) : State := (s.settle (pa / 256)).putRaw pa xs

/-- A row of memory is tentative: it was written by a packet whose final tag has not passed (R322). -/
def State.tentAt (s : State) (pa : Nat) : Bool := s.packets != [] && (s.rowMeta (pa / 256)).tent != 0

/-- An SRAM row is tentative. -/
def State.tentCell (s : State) (key : Nat) : Bool := s.packets != [] && (s.cell key).tent != 0

/-- A row of the scratchpads or of the SRAM of bank b's cluster is tentative. -/
def State.tentNear (s : State) (b : Nat) : Bool :=
  s.packets != [] && s.sram.any fun p =>
    p.2.tent != 0 &&
    (if p.1 % 2 = 0 then bankCluster (2 * (p.1 / 2 / 8192)) else p.1 / 2 / 32768) == bankCluster b

/-- A write by the host has not yet taken effect (R217). -/
def State.hostWrites (s : State) : Bool := s.bulk.any fun y => y.data != [] && y.who == .host

/-- A command waits for a packet of its rows (R323). -/
def State.tentFor (s : State) (w : Who) : Bool :=
  s.packets.any fun p => match p.2 with
    | some x => x.who == w || x.movers.contains w
    | none => false

/-- Read n bytes at the home under a key id, with the poison of their row; a row written under another key id fails
its check value (R398). The bytes lie in one row. -/
def State.readHome (s : State) (pa n key : Nat) : List Byte × Bool :=
  let m := s.rowMeta (pa / 256)
  if s.keyFits pa key then (s.bytes pa n, m.poison)
  else ((natLE 256 (Config.wrongKeyRow (pa / 256)).toNat).drop (pa % 256) |>.take n, true)

/-- Write bytes of one row at the home under a key id: a first write of those bytes (R220, R444, R448). A whole row
of clean data clears poison; a part of a poisoned row leaves it poisoned. -/
def State.writeHome (s : State) (pa : Nat) (xs : List Byte) (key : Nat) (poison : Bool) (rtag : BitVec 24) : State :=
  let r := pa / 256
  let m := s.rowMeta r
  let whole := xs.length == 256
  let old := !whole && (m.poison || !s.keyFits pa key)
  (s.setBytes pa xs).setRowMeta r
    { poison := poison || old, key := key, kv := s.keyVal pa key, rtag := rtag, tent := if whole then 0 else m.tent, cipher := false,
      shift := s.keyShift pa key }

/-! ### The page walk (R383, R384) -/

def leafR (e : BitVec 64) : Bool := bit e 3
def leafW (e : BitVec 64) : Bool := bit e 4
def leafX (e : BitVec 64) : Bool := bit e 5
def leafScope (e : BitVec 64) : Nat := bits e 8 6
def leafEv (e : BitVec 64) : Bool := bit e 9
def leafSeal (e : BitVec 64) : Bool := bit e 10
def leafKey (e : BitVec 64) : Nat := bits e 23 11
def leafFrame (e : BitVec 64) : Nat := bits e 59 24

/-- The rights of a leaf: [0] read, [1] write, [2] execute. -/
def leafRights (e : BitVec 64) : BitVec 3 := BitVec.ofNat 3 (bits e 5 3)

def rightsOk (need have' : BitVec 3) : Bool := need &&& ~~~have' = 0

/-- Bytes of a page by SIZE: 64 KiB, 64 MiB, 64 GiB (R383). -/
def pageBytes (size : Nat) : Nat := 2 ^ (16 + 10 * size)

/-- The physical address of va through a leaf of that size. -/
def leafPa (leaf : BitVec 64) (size va : Nat) : Nat := leafFrame leaf * 65536 + va % pageBytes size

/-- The checks of a leaf in their order (R384, R402): none, or the cause. -/
def State.leafFault (s : State) (die part va size : Nat) (intent : BitVec 3) (e : BitVec 64) : Option Nat :=
  let pa := leafPa e size va
  if leafFrame e * 65536 % pageBytes size ≠ 0 then some 3
  else if s.inHole die pa then some 4
  else if s.noDie die pa then some 6
  else
    let sealBad := match s.regionOf (leafFrame e * 65536) with
      | some (d, k, sl) => !(leafSeal e && leafKey e == k && sl.part == part && d == die)
      | none => leafSeal e
    if sealBad then some 8
    else
      let st := (s.keySlot die (leafKey e)).state
      if leafKey e ≠ 0 && !(st == 1 || st == 2) then some 9
      else if !rightsOk intent (leafRights e) then some 2
      else none

/-- Levels of the walk left to do, from the table at physical address t. -/
def State.walkFrom (s : State) (die part va : Nat) (intent : BitVec 3) : Nat → Nat → Except Nat Xlat
  | 0, _ => .error 3
  | left + 1, t =>
    let lvl := 3 - left
    let pa := t + 8 * ((va / 2 ^ (46 - 10 * lvl)) % 1024)
    let (xs, poison) := s.readHome pa 8 0
    let e : BitVec 64 := BitVec.ofNat 64 (leNat xs)
    if poison then .error 7
    else if !(bit e 0) then .error 1
    else if bits e 63 60 ≠ 0 then .error 3
    else if !(bit e 1) then
      if bits e 20 2 ≠ 0 then .error 3
      else if left = 0 then .error 3
      else s.walkFrom die part va intent left (bits e 59 21 * 8192)
    else if bit e 2 then .error 3
    else if lvl = 0 || decide (4 < leafScope e) then .error 3
    else
      match s.leafFault die part va left intent e with
      | some c => .error c
      | none => .ok { part := part, page := va - va % pageBytes left, size := left, leaf := e }

/-- The table entries that a walk reads from the table at t on. -/
def State.pathFrom (s : State) (va : Nat) : Nat → Nat → List Nat
  | 0, _ => []
  | left + 1, t =>
    let pa := t + 8 * ((va / 2 ^ (46 - 10 * (3 - left))) % 1024)
    let e : BitVec 64 := BitVec.ofNat 64 (leNat (s.bytes pa 8))
    pa :: if s.keyFits pa 0 && bit e 0 && !(bit e 1) then s.pathFrom va left (bits e 59 21 * 8192) else []

/-- The table entries that a walk reads, in order. -/
def State.walkPath (s : State) (die part va : Nat) : List Nat :=
  let r := Assoc.get 0 (s.die die).rootNow part
  if 2 ^ 56 ≤ va ∨ !(bit r 0) then [] else s.pathFrom va 4 (bits r 51 13 * 8192)

/-- The state after a walk's reads (R445). -/
def State.walked (s : State) (die part va : Nat) : State := (s.walkPath die part va).foldl (fun s pa => s.spoil pa 0) s

/-- walk(va, intent, part) of R384 on die `die`. -/
def State.walk (s : State) (die part va : Nat) (intent : BitVec 3) : Except Nat Xlat :=
  if 2 ^ 56 ≤ va then .error 5
  else
    let r := Assoc.get 0 (s.die die).rootNow part
    if !(bit r 0) then .error 1
    else s.walkFrom die part va intent 4 (bits r 51 13 * 8192)

/-- A translation that a core's translation cache holds (R384). -/
def Core.cached (c : Core) (part va : Nat) : Option Xlat :=
  c.tlb.find? fun x => x.part == part && x.page == va - va % pageBytes x.size

/-- Keep a translation (DEDUCED, unsafe: log entry 67). -/
def Core.keep (c : Core) (x : Xlat) : Core := if x ∈ c.tlb then c else { c with tlb := x :: c.tlb }

/-! ### The access log (R407) -/

/-- Send an event to the security processor. -/
def State.logEvent (s : State) (ty die part key : Nat) (detail : BitVec 256) : State :=
  let e : LogEntry := { ty := ty, die := die, part := part, key := key, detail := detail, time := s.reftime,
                        epoch := s.modul.epoch, seq := 0, prev := 0 }
  ({ s with modul := { s.modul with logWait := s.modul.logWait ++ [e] } }).owe .accessLogAppend

/-- Note a valid walk on a die: the first of a sealed page is logged (R407). -/
def State.noteWalk (s : State) (die : Nat) (x : Xlat) : State :=
  if leafSeal x.leaf && !((s.die die).sealSeen.contains x) then
    (s.modDie die fun d => { d with sealSeen := x :: d.sealSeen }).logEvent 3 die x.part (leafKey x.leaf)
      (BitVec.ofNat 256 (at' (x.page / 65536) 0 + at' (leafFrame x.leaf) 40 + at' x.size 76))
  else s

/-- Note a walk that bank b makes, and the first of a sealed page by its task (R407, R433). -/
def State.noteSeal (s : State) (b : Nat) (x : Xlat) : State :=
  let s1 := s.noteWalk (bankDie b) x
  if leafSeal x.leaf then s1.modBank b fun k => { k with sealedSeen := true } else s1

/-! ### Handles (R385 to R390) -/

def Bank.handle (k : Bank) (h : Nat) : Handle := Assoc.get Handle.zero k.handles h

def Bank.setHandle (k : Bank) (h : Nat) (x : Handle) : Bank :=
  { k with handles := Assoc.set Handle.zero k.handles h x }

/-- Start the walk of handle h of bank b. -/
def State.startWalk (s : State) (b h : Nat) : State :=
  (s.modBank b fun k => k.setHandle h { k.handle h with st := .pending, page := (k.handle h).base.toNat }).owe (.pageWalkComplete b h)

/-- What the use of an operand answers. -/
inductive Use (α : Type) where
  | ok (a : α)
  | trap (t : Trap)
  | wait (s : State)

/-- Use handle h at offset `off` for the rights `need` (R219, R385 to R387): a pending handle waits, a stale one
starts its walk and waits. -/
def State.useHandle (s : State) (b h off : Nat) (need : BitVec 3) : Use Handle :=
  let x := (s.bank b).handle h
  let va := x.base.toNat + off
  match x.st with
  | .invalid => .trap (accessTrap 5 0 h va)
  | .pending => .wait s
  | .stale => .wait (s.startWalk b h)
  | .faulted => .trap (pageFault x.cause h va)
  | .valid => if rightsOk need x.intent then .ok x else .trap (pageFault 2 h va)

/-- A checked access: its addresses and leaf. -/
structure Acc where
  va : Nat
  pa : Nat
  leaf : BitVec 64
  deriving DecidableEq, Repr

/-- An address of an access that does not exist: a hole, or a defect in the low bits of a barrier-window address (R195, R372). -/
def State.missing (s : State) (die pa : Nat) : Bool := s.inHole die pa || (isBarrierWin pa && barrierLowBad pa)

/-- The checks of R219 in their order for n bytes at BASE + off, aligned to `width`. -/
def State.inPage (s : State) (b h off n width : Nat) (need : BitVec 3) : Use Acc :=
  match s.useHandle b h off need with
  | .trap t => .trap t
  | .wait s' => .wait s'
  | .ok x =>
    let va := x.base.toNat + off
    let stop := x.page + pageBytes x.size
    if stop < va + n then .trap (accessTrap 6 0 h (max va stop))
    else if va % width ≠ 0 then .trap (accessTrap 7 0 h va)
    else .ok { va := va, pa := leafPa x.leaf x.size va, leaf := x.leaf }

/-- The page fault of an access whose address does not exist: of its first 8-byte word in a hole, or on a die that does not exist
(R195, R372) (DESIGN CHOICE, unsafe: log entry 76). -/
def State.holeTrap (s : State) (b h n : Nat) (a : Acc) : Option Trap :=
  match (List.range ((n + 7) / 8)).find? fun j => s.missing (bankDie b) (a.pa + 8 * j) with
  | some j => some (pageFault 4 h (a.va + 8 * j))
  | none => if s.noDie (bankDie b) a.pa then some (pageFault 6 h a.va) else none

/-- The checks of R219 for n bytes at BASE + off; then each of its 8-byte words must exist (R195, R372). -/
def State.access (s : State) (b h off n width : Nat) (need : BitVec 3) : Use Acc :=
  match s.inPage b h off n width need with
  | .ok a => match s.holeTrap b h n a with
    | some t => .trap t
    | none => .ok a
  | r => r

/-! ### Reading through a sequencer cache (R209) -/

def Core.line (c : Core) (l : Nat) : CLine := Assoc.get CLine.zero c.lines l

/-- States in which a cache holds the line's data (R269, R273). -/
def CState.holds (c : CState) : Bool :=
  match c with
  | .s | .e | .o | .m | .smD | .omD | .xiA => true
  | .i | .isD | .imD => false

/-- Messages that carry a line to its next owner or back from its last one. -/
def MKind.moves (m : MKind) : Bool :=
  match m with
  | .dX | .dW | .dataX | .dataE => true
  | _ => false

/-- The line as the coherence order has it (R202): its owner's copy; while it moves, the message that carries it or a
copy that an upgrade will make the owner's, or the home, which has the owner's data and waits for other replies (R274);
otherwise none, and memory is current. A line in E is clean, and on an engine-visible page a store is performed at its home
(R269, R277). A page that is being forwarded is named by its new frame (R325). -/
def State.owned (s : State) (l0 : Nat) : Option (BitVec 512) :=
  let l := s.frameOf (64 * l0) / 64
  match (s.dir l).owner, (s.dir l).buf with
  | none, _ => none
  | some _, some d => if (s.dir l).ev then none else some d
  | some c, none =>
    let x := (s.core c).line l
    if x.st == .e || (x.ev && x.st == .xiA) then none
    else if x.st.holds then some x.data
    else match s.net.find? fun m => m.line == l && m.kind.moves with
      | some m => if m.ev then none else some m.data
      | none =>
        match s.cores.find? fun p => (p.2.line l).st.holds with
        | some p => some (p.2.line l).data
        | none => none

/-- The byte of a line. -/
def lineByte (d : BitVec 512) (pa : Nat) : Byte := BitVec.ofNat 8 (d.toNat / 2 ^ (8 * (pa % 64)))

/-- A byte as the coherence order has it (R202). -/
def State.coherentByte (s : State) (pa : Nat) : Byte :=
  match s.owned (pa / 64) with
  | some d => lineByte d pa
  | none => s.byte pa

def State.coherentBytes (s : State) (pa : Nat) : Nat → List Byte
  | 0 => []
  | n + 1 => s.coherentByte pa :: s.coherentBytes (pa + 1) n

/-! ### Counting barriers and their window (R236, R47, R372, R373) -/

def cbCount (w : Word) : Nat := bits w 31 0
def cbTarget (w : Word) : Nat := bits w 63 32

def cbWord (target count : Nat) : Word :=
  BitVec.ofNat 64 (at' (min target (2 ^ 32 - 1)) 32 + min count (2 ^ 32 - 1))

def Bank.cbar (k : Bank) (n : Nat) : Word := Assoc.get 0 k.cb n

def Bank.setCbar (k : Bank) (n : Nat) (w : Word) : Bank := { k with cb := Assoc.set 0 k.cb n w }

/-- Add v to a barrier's count, saturating (R373, R374). -/
def Bank.cbInc (k : Bank) (n v : Nat) : Bank :=
  k.setCbar n (cbWord (cbTarget (k.cbar n)) (cbCount (k.cbar n) + v))

def Bank.cbMet (k : Bank) (n : Nat) : Bool := decide (cbTarget (k.cbar n) ≤ cbCount (k.cbar n))

/-- Bind record r of a die (R353). -/
def Die.bind (d : Die) (r : Nat) : Bind := Assoc.get Bind.zero d.binds r

/-- The bank that record `rec`, core `core` of a die names to an agent of partition p, if any (R371, R373). -/
def State.taskBank (s : State) (die r core p : Nat) : Option Nat :=
  let x := (s.die die).bind r
  if x.valid && bit x.plot core && x.part == p then some (mkBank die core x.bank) else none

/-- The bank whose barriers an access of bank b to the barrier window reaches (R372, R373). -/
def State.barrierBank (s : State) (b pa : Nat) : Option Nat :=
  if (pa / 2 ^ 16) % 2 = 1 then some b
  else s.taskBank ((pa / 2 ^ 30) % 1024) ((pa / 2 ^ 24) % 64) ((pa / 2 ^ 17) % 128) (s.bank b).part

/-- The `SEV` target that names bank b (R371, R373). -/
def State.identity (s : State) (b : Nat) : Word :=
  BitVec.ofNat 64 (at' (bankDie b) 13 + at' ((s.bank b).bindRec % 64) 7 + coreNum b)

/-- Whether a bank's editable items stand in its save area: saved, or not yet restored (R376, R440). -/
def Bank.inArea (k : Bank) : Bool := (k.pst == .saved || k.pst == .restoring) && !k.sealedSeen

/-- The word of `cb`n of bank b, which lies in the save area of a saved context (R376, R440). -/
def State.cbNow (s : State) (b n : Nat) : Word :=
  let k := s.bank b
  if k.inArea then BitVec.ofNat 64 (leNat (s.readHome (k.area + 0x600 + 8 * (n % 64)) 8 0).1) else k.cbar n

/-- The word that bank b reads at a barrier-window address (R373). -/
def State.barrierWord (s : State) (b pa : Nat) : Word :=
  match s.barrierBank b pa with
  | none => 0
  | some t => if (pa / 512) % 2 = 1 then s.identity b else s.cbNow t ((pa / 8) % 64)

/-! ### Records that the sequencer reads (R93, R219, R246) -/

/-- The host bus address of a host-window address (R468). -/
def State.hostAddr (s : State) (pa : Nat) : Nat := (s.modul.hostbase.toNat + pa % 2 ^ 40) % 2 ^ 64

def State.hostByte (s : State) (a : Nat) : Byte := Assoc.get 0 s.hostMem a

/-- A byte that bank b loads from a class-0xF window (R373, R468, R477) (DEDUCED, unsafe: log entry 17). -/
def State.windowByte (s : State) (b pa : Nat) : Byte :=
  if isHostWin pa then s.hostByte (s.hostAddr pa)
  else if isBarrierWin pa then BitVec.ofNat 8 ((s.barrierWord b pa).toNat / 2 ^ (8 * (pa % 8)))
  else 0

/-- A byte that bank b reads through a leaf's key, with the poison of its row (DEDUCED, unsafe: log entry 17). -/
def State.recordByte (s : State) (b key pa : Nat) : Byte × Bool :=
  if isWindow pa then (s.windowByte b pa, false)
  else if isGsram pa then
    let c := s.cell (gsramKey pa)
    (BitVec.ofNat 8 (c.data.toNat / 2 ^ (8 * (pa % 256))), c.poison)
  else if s.keyFits pa key then (s.coherentByte pa, (s.rowMeta (pa / 256)).poison)
  else
    let r := s.readHome pa 1 key
    (r.1.headD 0, r.2)

/-- n bytes that bank b reads through an access, and the first of them, if any, that lies in a poisoned row. -/
def State.readRecord (s : State) (b : Nat) (a : Acc) (n : Nat) : List Byte × Option Nat :=
  let xs := (List.range n).map fun i => s.recordByte b (leafKey a.leaf) (a.pa + i)
  (xs.map fun x => x.1, xs.findIdx? fun x => x.2)

/-! ### Tokens (R236, R46 to R48) -/

def chan (frm into : Nat) : Nat := 8 * frm + into

def Bank.tokens? (k : Bank) (frm into : Nat) : Nat := Assoc.get 0 k.tokens (chan frm into)

def Bank.setTokens (k : Bank) (frm into n : Nat) : Bank := { k with tokens := Assoc.set 0 k.tokens (chan frm into) n }

/-- How many of the three POP fields name engine e. -/
def popsOf (x : Ext) (e : Nat) : Nat :=
  b2n (x.popa.toNat == e) + b2n (x.popb.toNat == e) + b2n (x.popc.toNat == e)

/-- Whether every pop of a command of engine `eng` is available and its barrier condition holds (R47, R48). -/
def Bank.canIssue (k : Bank) (eng : Nat) (x : Ext) : Bool :=
  ([0, 1, 2, 3, 4, 5].all fun e => decide (popsOf x e ≤ k.tokens? e eng)) && (!x.wt || k.cbMet x.wcb.toNat)

/-- Take the pops together (R48). -/
def Bank.takePops (k : Bank) (eng : Nat) (x : Ext) : Bank :=
  [0, 1, 2, 3, 4, 5].foldl (fun k e => k.setTokens e eng (k.tokens? e eng - popsOf x e)) k

/-- Give back the tokens that a command popped (R329). -/
def Bank.givePops (k : Bank) (eng : Nat) (x : Ext) : Bank :=
  [0, 1, 2, 3, 4, 5].foldl (fun k e => k.setTokens e eng (k.tokens? e eng + popsOf x e)) k

/-- Whether the FIFO towards PUSH accepts a token (R11, R236). -/
def Bank.canPush (k : Bank) (eng : Nat) (x : Ext) : Bool :=
  x.push.toNat == 7 || decide (k.tokens? eng x.push.toNat < 15)

/-- Push the token and signal the barrier (R47). -/
def Bank.retireTok (k : Bank) (eng : Nat) (x : Ext) : Bank :=
  let k1 := if x.push.toNat = 7 then k else k.setTokens eng x.push.toNat (k.tokens? eng x.push.toNat + 1)
  if x.sig then k1.cbInc x.scb.toNat 1 else k1

/-! ### Data and outcome queues (R227 to R229), numbered 0 to 5 for `dq0` to `dq5`, 6 and 7 for `oq0` and `oq1` -/

def qCap (q : Nat) : Nat := if q < 6 then 16 else 32

def Bank.queue (k : Bank) (q : Nat) : Queue := Assoc.get Queue.zero k.queues q

def Bank.setQueue (k : Bank) (q : Nat) (x : Queue) : Bank := { k with queues := Assoc.set Queue.zero k.queues q x }

/-- Published rows. -/
def Queue.fill (x : Queue) : Nat := x.tail - x.head

/-- The entry of slot p. -/
def Queue.slot (x : Queue) (q p : Nat) : QSlot := Assoc.get QSlot.zero x.slots (p % qCap q)

def Queue.setSlot (x : Queue) (q p : Nat) (e : QSlot) : Queue :=
  { x with slots := Assoc.set QSlot.zero x.slots (p % qCap q) e }

/-- Move T over the filled slots that start at it, at most n of them (R229). -/
def Queue.publish (x : Queue) (q : Nat) : Nat → Queue
  | 0 => x
  | n + 1 =>
    if x.tail < x.rsv ∧ (x.slot q x.tail).filled then Queue.publish { x with tail := x.tail + 1 } q n else x

/-- The head that producers count from: the checkpoint head from a registered block's first checkpoint on (R229, R436)
(DEDUCED, unsafe: log entry 47). -/
def Bank.producerHead (k : Bank) (q : Nat) : Nat :=
  match k.block with
  | some x => if x.rst.isSome && x.marked then Assoc.get 0 x.hc q else (k.queue q).head
  | none => (k.queue q).head

/-- Whether a producer of n slots of `dq0` to `dq3` may reserve them (R229). -/
def Bank.canReserve (k : Bank) (q n : Nat) : Bool := decide ((k.queue q).rsv + n ≤ k.producerHead q + 16)

/-- Mark the n slots from V reserved and not filled (R229). -/
def clearFilled (q : Nat) (x : Queue) (p : Nat) : Nat → Queue
  | 0 => x
  | n + 1 => clearFilled q (x.setSlot q p { x.slot q p with filled := false }) (p + 1) n

def Bank.reserve (k : Bank) (q n : Nat) : Bank :=
  let x := k.queue q
  k.setQueue q { clearFilled q x x.rsv n with rsv := x.rsv + n }

/-- Fill a reserved slot and publish what can be (R229); a tentative row fills it once it is final (R323)
(DEDUCED, safe: log entry 34). -/
def Bank.fillSlot (k : Bank) (q p : Nat) (row : Row) (poison : Bool) (chk : BitVec 32 := 0) (tent : Nat := 0) : Bank :=
  let x := (k.queue q).setSlot q p { row := row, poison := poison, filled := tent == 0, chk := chk, tent := tent }
  k.setQueue q (x.publish q 16)

/-! ### Engine queues (R48) -/

def engLE : Nat := 1
def engCP : Nat := 2
def engWK : Nat := 3
def engGL : Nat := 4
def engCL : Nat := 5

def Bank.cmdq (k : Bank) (e : Nat) : List Cmd := Assoc.get [] k.cmds e

def Bank.setCmdq (k : Bank) (e : Nat) (q : List Cmd) : Bank := { k with cmds := Assoc.set [] k.cmds e q }

def Bank.cmdFull (k : Bank) (e : Nat) : Bool := decide (32 ≤ (k.cmdq e).length)

def Bank.enqueue (k : Bank) (e : Nat) (c : Cmd) : Bank := k.setCmdq e (k.cmdq e ++ [c])

def Bank.eng (k : Bank) (e : Nat) : Option EngRun := Assoc.get none k.engs e

def Bank.setEng (k : Bank) (e : Nat) (r : Option EngRun) : Bank := { k with engs := Assoc.set none k.engs e r }

/-! ### Completion rings (R259, R260) -/

/-- A completion record without its TIME and PH fields, which the append sets. -/
def ringRecord (count skip tag status kind die core bank : Nat) : BitVec 256 :=
  BitVec.ofNat 256 (at' (bank % 2) 70 + at' (core % 128) 71 + at' (die % 1024) 78 + at' (kind % 16) 92
    + at' (status % 256) 96 + at' (tag % 65536) 112 + at' (skip % 2 ^ 32) 128 + at' (count % 2 ^ 32) 160)

/-- Ask the home of a ring header to append a record for an agent of a partition (DEDUCED, unsafe: log entry 51). -/
def State.askRing (s : State) (pa limit key part : Nat) (r : BitVec 256) (w : Who) : State :=
  let q : RingReq := { pa := pa, limit := limit, key := key, part := part, rcd := r, who := w, served := [], no := s.sends + 1 }
  let i := s.rings.length
  ({ s with rings := s.rings ++ [q], sends := s.sends + 1 } : State).owe (.completionRecordAppend i)

/-- The rows of the instruction buffer in which a bundle lies (R250). -/
def bundleRows (i : Nat) : List Nat := [48 * i / 256, (48 * i + 47) / 256]

/-! ### Instruction fetch (R63, R64) -/

/-- The 64 bytes of the instruction line that holds pa, as bank b reads it under a key id. -/
def State.lineNow (s : State) (b key pa : Nat) : BitVec 512 :=
  BitVec.ofNat 512 (leNat ((List.range 64).map fun i => (s.recordByte b key (pa / 64 * 64 + i)).1))

/-- The lines that the instruction cache holds: 32 KiB (R13). -/
def icacheLines : Nat := 512

/-- The instruction line that a core holds. -/
def Core.ifetched (c : Core) (l : Nat) : Option (BitVec 512) := Assoc.get none c.icache l

/-- A line enters a core's instruction cache; from a full one another leaves, which one a free value
(DESIGN CHOICE, safe: log entry 5). -/
def State.fillIcache (s : State) (core l : Nat) (line : BitVec 512) : State :=
  let old := (s.core core).icache
  if ((s.core core).ifetched l).isSome ∨ old.length < icacheLines then
    s.modCore core fun c => { c with icache := Assoc.set none old l (some line) }
  else
    let kept := old.eraseIdx (Config.fetchVictim s.free % old.length)
    s.tickFree.modCore core fun c => { c with icache := Assoc.set none kept l (some line) }

/-- The fault of a fetch at a virtual address: class and cause. -/
def fetchFault (cls cause va : Nat) : Trap :=
  { Trap.mk0 cls 0 with walk := cause, eaddr := BitVec.ofNat 64 (va % 2 ^ 56) }

/-- The translation of bank b's program counter, with execute permission: one that its core holds, or a new walk's. -/
def State.fetchXlat (s : State) (b va : Nat) : Except Nat Xlat :=
  match (s.core (bankCore b)).cached (s.bank b).part va with
  | some x => if leafX x.leaf then .ok x else .error 2
  | none => s.walk (bankDie b) (s.bank b).part va 4

/-- The line that a fetch of bank b at pa takes, and the state after it. A line that the instruction cache holds gives its old or
the new contents, chosen by a free value where they differ (R64). The host window is never cached (R468)
(DESIGN CHOICE, safe: log entry 5). -/
def State.fetchLine (s : State) (b key pa : Nat) : BitVec 512 × State :=
  let now := s.lineNow b key pa
  if isWindow pa then (now, s)
  else
    match (s.core (bankCore b)).ifetched (pa / 64) with
    | some old =>
      if old = now then (now, s)
      else
        let line := if Config.fetchOld s.free then old else now
        (line, s.tickFree.fillIcache (bankCore b) (pa / 64) line)
    | none => (now, s.fillIcache (bankCore b) (pa / 64) now)

/-- Fetch the word at a virtual address, its bits [1:0] taken as zero (R63), for bank b, with execute permission
(DESIGN CHOICE, unsafe: log entry 64). -/
def State.fetch (s : State) (b : Nat) (at0 : Word) : Except Trap (BitVec 32 × State) :=
  let va := at0.toNat / 4 * 4
  match s.fetchXlat b va with
  | .error c => .error (fetchFault 4 c va)
  | .ok x =>
    let pa := leafPa x.leaf x.size va
    let s1 := ((s.modCore (bankCore b) fun c => c.keep x).noteSeal b x)
    let r := s1.fetchLine b (leafKey x.leaf) pa
    if (s.recordByte b (leafKey x.leaf) pa).2 then .error (fetchFault 8 0 va)
    else .ok (BitVec.ofNat 32 (r.1.toNat / 2 ^ (8 * (pa % 64))), r.2)

/-- The state that the reads of a fetch leave, whatever it answers (R407, R445). -/
def State.fetched (s : State) (b : Nat) (at0 : Word) : State :=
  let va := at0.toNat / 4 * 4
  let s1 := if ((s.core (bankCore b)).cached (s.bank b).part va).isSome then s else s.walked (bankDie b) (s.bank b).part va
  match s.fetchXlat b va with
  | .error _ => s1
  | .ok x => ((s1.modCore (bankCore b) fun c => c.keep x).noteSeal b x).spoil (leafPa x.leaf x.size va) (leafKey x.leaf)

end Sys2Proof.Machine
end

