-- ==== Sys2Proof/Machine/Order.lean ====
section
/-! DEFINITION. Who is near whom (spec/10 R193, R197), the classes of packets (spec/15 R315), the homes and the order in which
messages arrive and are served there (spec/10 R196, spec/13 R272, spec/15 R318), refusals (R325, R326), and the order of a
sequencer's own accesses (R203, R206, R207). -/

namespace Sys2Proof.Machine

/-! ### Agents and scopes (R193, R197) -/

/-- An agent outside the sequencer that makes an access, as scopes see it. -/
inductive Agent where
  | core (c : Nat)             -- an engine of a core
  | xform (cl : Nat)           -- a transform engine of a cluster
  | gleaner (die : Nat)        -- a gleaner of a die's stacks
  | manager (m : Nat)          -- the management core of a module
  | host (m : Nat)
  | cxl (port : Nat)           -- CXL port: module * 4 + port
  deriving DecidableEq, Repr

/-- The package of a die: sixteen dies each (R10). -/
def diePackage (d : Nat) : Nat := d / 16

/-- The cluster of a core. -/
def coreCluster (c : Nat) : Nat := coreDie c * 16 + c % 128 / 8

/-- Where an agent sits, as far as it does: its package, its die, its cluster, its core. -/
def Agent.place (a : Agent) : Nat × Option Nat × Option Nat × Option Nat :=
  match a with
  | .core c => (diePackage (coreDie c), some (coreDie c), some (coreCluster c), some c)
  | .xform cl => (diePackage (cl / 16), some (cl / 16), some cl, none)
  | .gleaner d => (diePackage d, some d, none, none)
  | .manager m => (m, none, none, none)
  | .host m => (m, none, none, none)
  | .cxl p => (p / 4, none, none, none)

/-- Whether an agent lies within a page's scope, measured from core c (R197). -/
def inScope (scope c : Nat) (a : Agent) : Bool :=
  let p := a.place
  match scope with
  | 0 => p.2.2.2 == some c
  | 1 => p.2.2.1 == some (coreCluster c)
  | 2 => p.2.1 == some (coreDie c)
  | 3 => p.1 == diePackage (coreDie c)
  | _ => true

/-! ### Classes (R270, R315) -/

/-- The code of a class. -/
def PClass.code (c : PClass) : Nat :=
  match c with
  | .request => 0
  | .response => 1
  | .atomic => 2
  | .management => 3

/-- The number of a class's lower or upper virtual channel. -/
def PClass.channel (c : PClass) (upper : Bool) : Nat := 2 * c.code + b2n upper

/-- The class of a coherence message (R270, R277). -/
def MKind.cls (k : MKind) : PClass :=
  match k with
  | .getS | .getX | .upg | .wthru _ _ _ => .request
  | .put | .putClean | .ack | .dO | .dS | .dW | .dX | .peekData => .response
  | .dataS | .dataE | .dataX | .grant | .fwdS | .fwdX | .inv | .peek | .putAck => .response

/-- Whether a message goes from a cache to a home. -/
def MKind.toHome (k : MKind) : Bool :=
  match k with
  | .getS | .getX | .upg | .wthru _ _ _ | .put | .putClean | .ack | .dO | .dS | .dW | .dX | .peekData => true
  | .dataS | .dataE | .dataX | .grant | .fwdS | .fwdX | .inv | .peek | .putAck => false

/-! ### Routes (R10, R312, R314, R316) -/

/-- Coordinate k of a die number. -/
def coord (n k : Nat) : Nat := n / 4 ^ k % 4

/-- A die number with coordinate k changed. -/
def setCoord (n k x : Nat) : Nat := n - coord n k * 4 ^ k + x * 4 ^ k

/-- The extent of dimension k, as die `die` has it (R314). -/
def State.extent (s : State) (die k : Nat) : Nat :=
  if k < 2 then 4 else bits (s.die die).extents (2 * (k - 2) + 1) (2 * (k - 2)) + 1

/-- The physical die that die `src` sends to for a logical die: PHYS, which is the entry's own index at reset (R312). -/
def State.physOf (s : State) (src n : Nat) : Nat :=
  match Assoc.get none (s.die src).relabel n with
  | some e => bits e 9 0
  | none => n

/-- The logical die that a physical die is in die `src`'s table. -/
def State.logicalOf (s : State) (src p : Nat) : Nat :=
  match (s.die src).relabel.find? fun q => match q.2 with
    | some e => bit e 15 && bits e 9 0 == p
    | none => false with
  | some q => q.1
  | none => p

/-- A hop over a Wymin link: the physical die that it leaves, its dimension, whether towards the next higher coordinate, and
the channel. -/
structure Hop where
  die : Nat
  dim : Nat
  up : Bool
  upper : Bool
  deriving DecidableEq, Repr

/-- n hops round the ring of dimension k of extent e, from physical die `p`: the upper channel from the wrap link on (R316). -/
def ringHops (k e : Nat) (up : Bool) : Nat → Nat → Bool → List Hop
  | 0, _, _ => []
  | n + 1, p, upper =>
    let x := coord p k
    let wraps := if up then x + 1 == e else x == 0
    let u := upper || wraps
    { die := p, dim := k, up := up, upper := u } ::
      ringHops k e up n (setCoord p k (if up then (x + 1) % e else (x + e - 1) % e)) u

/-- The hops in dimension k: the shorter way round, the positive one when both are equal (R314). -/
def dimHops (k e p q : Nat) : List Hop :=
  let d := (coord q k + e - coord p k) % e
  if 2 * d ≤ e then ringHops k e true d p false else ringHops k e false (e - d) p false

/-- The hops from physical die p to physical die q, by dimension order, as die `src` routes them (R314). -/
def State.hops (s : State) (src p q : Nat) : List Hop :=
  ([0, 1, 2, 3, 4].foldl (fun (acc : List Hop × Nat) k =>
    (acc.1 ++ dimHops k (s.extent src k) acc.2 q, setCoord acc.2 k (coord q k))) ([], p)).1

/-- The route of a packet from a logical die to another: physical coordinates throughout (R312). -/
def State.route (s : State) (src dst : Nat) : List Hop := s.hops src (s.physOf src src) (s.physOf src dst)

/-- The route of a packet from a die to the I/O die of module m, its port apart (R314). -/
def State.routeIo (s : State) (src m : Nat) : List Hop :=
  let p := s.physOf src src
  s.hops src p (16 * m + p % 16)

/-- The port of the package by which a route first leaves its module (R404): link 2(k - 2) + s of the die at that place. -/
def State.exitPort (s : State) (src : Nat) (hs : List Hop) : Option Nat :=
  (hs.find? fun h => decide (2 ≤ h.dim)).map fun h =>
    6 + 6 * (s.logicalOf src h.die % 16) + 2 * (h.dim - 2) + b2n h.up

/-- Logical neighbours: one hop apart in one dimension (R10, R16, R313). -/
def State.oneHop (s : State) (a b : Nat) : Bool := (s.hops a a b).length == 1

/-! ### Homes and sources (R196, R272) -/

/-- The home of a physical address: the die of HBM, the cluster of global SRAM, the port of CXL memory. -/
def homeOf (pa : Nat) : Nat :=
  if isGsram pa then 2 ^ 48 + pa / 2 ^ 23 else if isCxl pa then 2 ^ 47 + pa / 2 ^ 40 else pa / 2 ^ 37

/-- The home of a barrier word that bank b names: the dispatch unit of its die (R372). -/
def barrierHome (b pa : Nat) : Nat := 2 ^ 49 + if (pa / 2 ^ 16) % 2 = 1 then bankDie b else (pa / 2 ^ 30) % 1024

/-- Sources, in the order in which a home takes messages of one cycle: the sequencers by core. -/
def srcCore (c : Nat) : Nat := c

/-- The bulk engines by core and engine code. -/
def srcEng (b e : Nat) : Nat := 2 ^ 20 + bankCore b * 8 + e

/-- The agents of I/O dies by module: 0 the host, 1 to 4 the CXL ports, 5 the management core, 6 the security processor. -/
def srcIo (m k : Nat) : Nat := 2 ^ 40 + m * 8 + k

/-- The source of a bulk access. -/
def Who.src (w : Who) : Nat :=
  match w with
  | .copy b => srcEng b 2
  | .eng b e => srcEng b e
  | .host => srcIo 0 0
  | .cxl p => srcIo (p / 4) (1 + p % 4)
  | .stop b => srcIo (diePackage (bankDie b)) 5
  | .nobody => srcIo 0 5

/-! ### Time slots (R26, R356, R357, R476) -/

/-- The place of an address in the fabric: its die, or its module's I/O die from 1,024 on. -/
def memDie (pa : Nat) : Nat :=
  if isHbm pa || isGsram pa then paDie pa else if isCxl pa then 1024 + pa / 2 ^ 42 % 64 else 1024

/-- A die's copy of the common counter (R17). -/
def State.copyOf (s : State) (die : Nat) : Nat := s.counter + min 2 (s.die die).skew

/-- The slot that a die is in. -/
def State.slotAt (s : State) (die : Nat) : Nat := s.copyOf die / 64 % 64

/-- A unit of service of a partition may start on a die: in a slot that it owns, or for no partition (16) in one that no
mask holds. -/
def State.inSlot (s : State) (die part : Nat) : Bool :=
  let owns (p : Nat) : Bool := bit (Assoc.get 0 (s.die die).pslot p) (s.slotAt die)
  if part < 16 then owns part else (List.range 16).all fun p => !owns p

/-- The partition for which a packet or a burst acts: that of the bank that caused it, none for 0 (R476). -/
def State.partOf (s : State) (b : Nat) : Nat := if b = 0 then 16 else (s.bank (b - 1)).part % 16

/-- The bank that a bulk access acts for, as in a message. -/
def Who.cause (w : Who) : Nat :=
  match w with
  | .copy b | .eng b _ => b + 1
  | .host | .cxl _ | .stop _ | .nobody => 0

/-- A burst for the task of b may start at the stack that holds an address. -/
def State.mayBurst (s : State) (b pa : Nat) : Bool := !isHbm pa || s.inSlot (paDie pa) (s.partOf b)

/-- The rank of bank b's task in the slot of a die: first the task whose SHARE holds the slot, then by bind record (R357). -/
def State.rank (s : State) (die b : Nat) : Nat :=
  let r := (s.bank b).bindRec
  if bit ((s.die (bankDie b)).bind r).share (s.slotAt die) then 0 else 1 + r

/-- Bank c's task goes before bank b's of the same partition in the slot of a die (R357). -/
def State.before (s : State) (die c b : Nat) : Bool :=
  c != b && (s.bank c).part == (s.bank b).part && decide (s.rank die c < s.rank die b)

/-! ### Units of service on a way (R314, R316, R357, R476) -/

/-- A unit of service that a packet or a read takes: a packet over a link or over the port of a compute die, a burst at the
stack of an address, the service of a command at its home. -/
inductive Leg where
  | link (die : Nat) (h : Hop) (c : PClass)
  | port (die : Nat) (c : PClass) (out : Bool)
  | burst (pa : Nat)
  | home (die : Nat)
  deriving DecidableEq, Repr

/-- The die whose slots a unit takes. -/
def Leg.die (x : Leg) : Nat :=
  match x with
  | .link d _ _ => d
  | .port d _ _ => d
  | .burst pa => paDie pa
  | .home d => d

/-- Two units ask for one virtual channel of one link (R315, R357). -/
def Leg.contends (x y : Leg) : Bool :=
  match x, y with
  | .link d h c, .link e g f => d == e && h.dim == g.dim && h.up == g.up && c.channel h.upper == f.channel g.upper
  | .port d c o, .port e f u => d == e && o == u && c.channel false == f.channel false
  | _, _ => false

/-- The links from one place to another: from die to die, from a die to an I/O die (1,024 on) or back by the port of the compute
die beside it (R314). -/
def State.wayTo (s : State) (c : PClass) (src dst : Nat) : List Leg :=
  let link (v : Nat) (h : Hop) : Leg := .link (s.logicalOf v h.die) h c
  if src = dst then []
  else if src < 1024 ∧ dst < 1024 then (s.route src dst).map (link src)
  else if src < 1024 then
    let q := 16 * (dst - 1024) + s.physOf src src % 16
    (s.hops src (s.physOf src src) q).map (link src) ++ [.port (s.logicalOf src q) c true]
  else if dst < 1024 then
    let q := 16 * (src - 1024) + s.physOf dst dst % 16
    .port (s.logicalOf dst q) c false :: (s.hops dst q (s.physOf dst dst)).map (link dst)
  else []

/-- A packet on its way: its source, its destination, its class, its number in the order of sending (0: not sent), the bank that
it acts for as in a message, and the links that it has still to cross. -/
structure Foot where
  src : Nat
  dst : Nat
  cls : PClass
  no : Nat
  b : Nat
  legs : List Leg
  deriving DecidableEq, Repr

/-- The home of a line. -/
def lineHome (l : Nat) : Nat := homeOf (64 * l)

/-- Homes as the ends of a way. -/
def endHome (home : Nat) : Nat := 2 ^ 60 + home

/-- The places between which a message goes. -/
def Msg.src (m : Msg) : Nat := if m.kind.toHome then coreDie m.core else memDie (64 * m.line)
def Msg.dst (m : Msg) : Nat := if m.kind.toHome then memDie (64 * m.line) else coreDie m.core

/-- A coherence message on its way. -/
def State.msgFoot (s : State) (m : Msg) : Foot :=
  let home := endHome (lineHome m.line)
  { src := if m.kind.toHome then srcCore m.core else home, dst := if m.kind.toHome then home else srcCore m.core,
    cls := m.kind.cls, no := m.no, b := m.b, legs := (s.wayTo m.kind.cls m.src m.dst).drop m.hop }

/-- The place from which an agent's bulk write or append goes out: its die, or the I/O die beside the home. -/
def Who.srcDie (w : Who) (pa : Nat) : Nat :=
  match w with
  | .copy b | .eng b _ => bankDie b
  | .stop b => 1024 + diePackage (bankDie b)
  | .host | .cxl _ | .nobody => if memDie pa < 1024 then 1024 + diePackage (memDie pa) else memDie pa

/-- A bulk access on its way. -/
def State.bulkFoot (s : State) (x : Bulk) : Foot :=
  { src := x.who.src, dst := endHome (homeOf x.pa), cls := .request, no := x.no, b := x.who.cause,
    legs := (s.wayTo .request (x.who.srcDie x.pa) (memDie x.pa)).drop x.hop }

/-- An append of a completion record on its way. -/
def State.ringFoot (s : State) (q : RingReq) : Foot :=
  { src := q.who.src, dst := endHome (homeOf q.pa), cls := .request, no := q.no, b := q.who.cause,
    legs := (s.wayTo .request (q.who.srcDie q.pa) (memDie q.pa)).drop q.hop }

/-- The home that queues an atomic of bank b (R373, R379). -/
def atomicHome (b pa : Nat) : Nat := if isBarrierWin pa then barrierHome b pa else homeOf pa

/-- An atomic on its way. -/
def State.atomicFoot (s : State) (r : AReq) : Foot :=
  { src := srcCore (bankCore r.b), dst := endHome (atomicHome r.b r.pa), cls := .atomic, no := r.no, b := r.b + 1,
    legs := (s.wayTo .atomic (bankDie r.b) (memDie r.pa)).drop r.hop }

/-- The home of an access to global SRAM or to the barrier window. -/
def GReq.home (g : GReq) : Nat := if isGsram g.pa then homeOf g.pa else barrierHome g.b g.pa

/-- The class of such an access (R315). -/
def GReq.cls (g : GReq) : PClass := if g.atomic then .atomic else .request

/-- The links and the burst of a read from a die at the home of an address, and of the answer (R476). -/
def State.readLegs (s : State) (die pa : Nat) : List Leg :=
  s.wayTo .request die (memDie pa) ++ (if isHbm pa then [.burst pa] else []) ++ s.wayTo .response (memDie pa) die

/-- An access to global SRAM or to the barrier window on its way. -/
def State.gFoot (s : State) (g : GReq) : Foot :=
  { src := srcCore (bankCore g.b), dst := endHome g.home, cls := g.cls, no := g.no, b := g.b + 1,
    legs := (if isGsram g.pa && !g.write then s.readLegs (bankDie g.b) g.pa
      else s.wayTo g.cls (bankDie g.b) (if isGsram g.pa then memDie g.pa else g.home % 2 ^ 49)).drop g.hop }

/-- A row of an `LDQ` of bank b on its way. -/
def State.ldqFoot (s : State) (b : Nat) (r : LdqRow) : Foot :=
  { src := srcCore (bankCore b), dst := endHome (homeOf r.pa), cls := .request, no := r.no, b := b + 1,
    legs := (s.readLegs (bankDie b) r.pa).drop r.hop }

/-- The die of dispatch that an event goes to. -/
def Event.die (e : Event) : Nat := bits e.target 22 13

/-- An event on its way: `SEV` is of the management class (R476). -/
def State.eventFoot (s : State) (e : Event) : Foot :=
  { src := srcCore (bankCore e.b), dst := endHome (2 ^ 49 + e.die), cls := .management, no := e.no, b := e.b + 1,
    legs := (s.wayTo .management (bankDie e.b) e.die).drop e.hop }

/-- Where a window write is performed: the die of its sequence, or the module's I/O die, which holds the notify registers. -/
def WinWrite.die (w : WinWrite) : Nat := if w.wake then w.n / 2 ^ 14 % 1024 else 1024

/-- A write to the notify or the wake window on its way. -/
def State.winFoot (s : State) (w : WinWrite) : Foot :=
  let from' := match w.b with
    | some b => bankDie b
    | none => 1024 + if w.wake then diePackage w.die else 0
  { src := match w.b with
      | some b => srcCore (bankCore b)
      | none => srcIo 0 0,
    dst := endHome (2 ^ 50 + w.die), cls := .request, no := w.no,
    b := match w.b with
      | some b => b + 1
      | none => 0,
    legs := (s.wayTo .request from' w.die).drop w.hop }

/-- The packets on their way. -/
def State.feet (s : State) : List Foot :=
  ((s.net.filter fun m => m.arr == 0).map s.msgFoot) ++ ((s.bulk.filter fun x => x.arr == 0).map s.bulkFoot) ++
  ((s.atomics.filter fun r => r.arr == 0).map s.atomicFoot) ++ ((s.gsram.filter fun g => g.arr == 0).map s.gFoot) ++
  (s.events.map s.eventFoot) ++ (s.winWrites.map s.winFoot) ++ ((s.rings.filter fun q => q.arr == 0).map s.ringFoot) ++
  s.banks.flatMap fun p => (p.2.ldqs.filter fun r => r.arr == 0).map (s.ldqFoot p.1)

/-- A packet of the same source, destination and class was sent before it and is still on its way (R318). -/
def State.behind (s : State) (x : Foot) : Bool :=
  s.feet.any fun y => y.src == x.src && y.dst == x.dst && y.cls == x.cls && y.no != 0 && decide (y.no < x.no)

/-- A packet of the same partition that goes before bank b's stands ready at the same virtual channel (R357). -/
def State.yields (s : State) (b : Nat) (l : Leg) : Bool :=
  b != 0 && s.feet.any fun y =>
    y.b != 0 && y.no != 0 && (y.legs.head?.any fun k => k.contends l) && s.before l.die (y.b - 1) (b - 1) && !s.behind y

/-! ### What waits at a home (R272) -/

/-- The lines that n bytes at pa touch, ascending. -/
def linesOf (pa n : Nat) : List Nat := if n = 0 then [] else (List.range ((pa + n - 1) / 64 - pa / 64 + 1)).map fun i => pa / 64 + i

/-- A message for lines of one home: its place in the order of arrival, 0 while it is on its way. -/
structure Parcel where
  arr : Nat
  lines : List Nat
  b : Nat := 0                 -- the bank that it acts for, as in a message, where its home may serve it at once
  deriving DecidableEq, Repr

/-- The messages that a home serves in the order of their arrival. -/
def State.parcels (s : State) : List Parcel :=
  ((s.net.filter fun m => m.kind.cls == .request).map fun m =>
    { arr := m.arr, lines := [s.frameOf (64 * m.line) / 64], b := m.b }) ++
  (s.bulk.map fun x =>
    { arr := x.arr, lines := (linesOf (s.frameOf x.pa) x.len).filter (fun l => !(x.got.any fun g => g.1 == l)), b := x.who.cause }) ++
  (s.atomics.map fun r => { arr := r.arr, lines := if isCached r.pa then [s.frameOf r.pa / 64] else [] }) ++
  (s.rings.map fun q => { arr := q.arr, lines := if isCached q.pa then [s.frameOf q.pa / 64] else [] }) ++
  s.banks.flatMap fun p => p.2.ldqs.map fun r =>
    { arr := r.arr, lines := if isCached r.pa then linesOf (s.frameOf r.pa) 256 else [] }

/-- A message that arrived before number n waits for one of the lines. -/
def State.ahead (s : State) (n : Nat) (ls : List Nat) : Bool :=
  s.parcels.any fun q => q.arr != 0 && decide (q.arr < n) && q.lines.any fun l => ls.contains l

/-- A request or a bulk write of the same partition that goes before bank b's (as in a message) stands ready at the home of an
address (R357). -/
def State.outranked (s : State) (b pa : Nat) : Bool :=
  b != 0 && isHbm pa && s.parcels.any fun q =>
    q.b != 0 && q.arr != 0 && s.before (paDie pa) (q.b - 1) (b - 1) &&
    (q.lines.all fun l => paDie (64 * l) == paDie pa && isHbm (64 * l) && (s.dir l).busy.isNone && !s.tentAt (64 * l) &&
      !(s.migr.any fun m => decide (m.old ≤ 64 * l) && decide (64 * l < m.old + m.size))) &&
    !s.ahead q.arr q.lines

/-- A home's burst for bank b (as in a message) waits: for a slot of its partition, or for a unit that goes before it. -/
def State.burstWaits (s : State) (b pa : Nat) : Bool := !s.mayBurst b pa || s.outranked b pa

/-- A unit for bank b (as in a message) and partition `part` may start now (R357, R476). -/
def State.mayLeg (s : State) (b part : Nat) (l : Leg) : Bool :=
  s.inSlot l.die part && match l with
  | .burst pa => !s.outranked b pa
  | _ => !s.yields b l

/-- How many of these units, one after the other, may start in this cycle. -/
def State.strides (s : State) (b part : Nat) : List Leg → Nat
  | [] => 0
  | l :: ls => if s.mayLeg b part l then 1 + s.strides b part ls else 0

/-- The units that a packet takes in this cycle: none behind another of its way (R318). -/
def State.stride (s : State) (x : Foot) : Nat := if s.behind x then 0 else s.strides x.b (s.partOf x.b) x.legs

/-- A packet arrives in this cycle (R318, R357). -/
def State.arrives (s : State) (x : Foot) : Bool := !s.behind x && decide (s.strides x.b (s.partOf x.b) x.legs = x.legs.length)

/-- A read, or a message that the machine keeps in no list, takes its units for bank b (as in a message) and partition `part`:
whether it has had them all, and the state that counts them, by the number of its agent (DEDUCED, unsafe: log entry 66). -/
def State.serve (s : State) (agent b part : Nat) (ls : List Leg) : Bool × State :=
  let n := Assoc.get 0 s.passed agent
  let m := n + s.strides b part (ls.drop n)
  if ls.length ≤ m then (true, { s with passed := Assoc.del s.passed agent })
  else (false, { s with passed := Assoc.set 0 s.passed agent m })

/-- The number of the next packet in the order of sending. -/
def State.nextNo (s : State) : Nat := s.sends + 1

/-- The units of a page walk from a die (R383, R476). -/
def State.walkLegs (s : State) (die part va : Nat) : List Leg := (s.walkPath die part va).flatMap (s.readLegs die)

/-- Agents of `State.passed`. -/
def agentFetch (b : Nat) : Nat := 64 * b
def agentWalk (b h : Nat) : Nat := 64 * b + 1 + h
def agentRecord (b : Nat) : Nat := 64 * b + 17
def agentEng (b e : Nat) : Nat := 64 * b + 18 + e
def agentStore (b : Nat) : Nat := 64 * b + 24
def agentShoot (b die : Nat) : Nat := 2 ^ 40 + 2048 * b + die
def agentDispatch (die : Nat) : Nat := 2 ^ 41 + die
def agentBundles (b : Nat) : Nat := 2 ^ 42 + b
def agentMapper (i : Nat) : Nat := 2 ^ 43 + i

/-- The number of a message: its own, or that of the next arrival. -/
def State.arrNum (s : State) (arr : Nat) : Nat := if arr = 0 then s.arrivals + 1 else arr

/-- Count the arrival of a message that was on its way. -/
def State.countArr (s : State) (arr : Nat) : State := if arr = 0 then { s with arrivals := s.arrivals + 1 } else s

/-! ### Migration and refusals (R325, R326) -/

/-- The migration of the page that holds an address, of those not yet released. -/
def State.migrOf (s : State) (pa : Nat) : Option Migr :=
  s.migr.find? fun m => decide (m.old ≤ pa) && decide (pa < m.old + m.size)

/-- A home refuses requests, stores and atomics to the page (R325) (DEDUCED, unsafe: log entry 54). -/
def State.refuses (s : State) (pa : Nat) : Bool :=
  match s.migrOf pa with
  | some m => m.phase == 1 || m.phase == 2
  | none => false

/-- A source's packets of a class have been refused by a home and not yet reissued (R326). -/
def State.isRefused (s : State) (src home : Nat) (c : PClass) : Bool :=
  s.refused.any fun p => p.src == src && p.home == home && p.cls == c

/-- A home refuses a packet with a retry hint of 256 cycles (R325, R326, R379) (DEDUCED, unsafe: log entry 54). -/
def State.refuse (s : State) (src home : Nat) (c : PClass) : State :=
  if s.isRefused src home c then s
  else
    let p : Refused := { src := src, home := home, cls := c, hint := s.counter + 256 }
    ({ s with refused := s.refused ++ [p] } : State).owe (.reissue src)

/-! ### A bank's own accesses (R203, R206, R207) -/

/-- Something that a fence of bank k orders is not yet performed (R198, R207). -/
def Bank.fenceOpen (k : Bank) (f : Nat × Nat) : Bool :=
  (k.posts.any fun q => !q.done && decide (q.grp < f.2)) || k.ldqs.any fun r => decide (r.grp < f.2)

/-- The fences of bank k that went on early and are not yet kept for every agent. -/
def Bank.openFences (k : Bank) : List (Nat × Nat) := k.fences.filter k.fenceOpen

/-- Bank k has passed such a fence: only stores go on (R198) (DESIGN CHOICE, safe: log entry 71). -/
def Bank.fencing (k : Bank) : Bool := k.openFences != []

/-- Every earlier access of the sequencer is performed and acknowledged (R206, R207, R216). -/
def Bank.quiet (k : Bank) : Bool := k.posts.isEmpty && k.ldqs.isEmpty

/-- n bytes at pa and m bytes at qa overlap in physical memory, as their frames now lie (R203, R218). -/
def State.overlap (s : State) (pa n qa m : Nat) : Bool :=
  let a := s.frameOf pa
  let c := s.frameOf qa
  decide (c < a + n) && decide (a < c + m)

/-- Whether bank b has a store to some of n bytes at pa that is not yet performed (R203). -/
def State.storeAhead (s : State) (b pa n : Nat) : Bool :=
  (s.bank b).posts.any fun p => !p.done && s.overlap p.pa p.n pa n

/-- Whether bank b has a row of an `LDQ` on its way that overlaps n bytes at pa (R203, R230). -/
def State.rowAhead (s : State) (b pa n : Nat) : Bool := (s.bank b).ldqs.any fun r => s.overlap r.pa 256 pa n

/-- Whether a load, an atomic or a record read of bank b waits for its own earlier accesses to those bytes; a store that its
line holds may be read by its own bank before its home has it (R202, R203) (DESIGN CHOICE, safe: log entry 16). -/
def State.loadBehind (s : State) (b pa n : Nat) : Bool :=
  ((s.bank b).posts.any fun p => !p.done && !(p.kind == .line && p.sent) && s.overlap p.pa p.n pa n) || s.rowAhead b pa n

/-- Whether the core's other bank has a store to those bytes that stands in the shared line of an engine-visible page and not
yet at its home, where it is performed (R202, R277). -/
def State.throughAhead (s : State) (b pa n : Nat) : Bool :=
  (s.bank (otherBank b)).posts.any fun p => p.kind == .line && p.sent && !p.done && s.overlap p.pa p.n pa n

/-- Whether a release that agents within its scope may not yet see stands on the line of pa, for an agent other than its own
bank (R198, R206). -/
def State.unreleased (s : State) (mine : Option Nat) (a : Agent) (pa : Nat) : Bool :=
  s.banks.any fun p => mine != some p.1 && p.2.posts.any fun q =>
    q.early && q.done && s.frameOf q.pa / 64 == s.frameOf pa / 64 && inScope q.scope (bankCore p.1) a

/-- A release stands that an agent of its scope may not yet see (R198, R206). -/
def State.earlyOut (s : State) (a : Agent) : Bool :=
  s.banks.any fun p => p.2.posts.any fun q => q.early && q.done && inScope q.scope (bankCore p.1) a

/-- Reads of engine e of bank b at physical addresses do not go out: behind its requests to a home, or to one that refuses them
and has them sent again (R198, R318, R325, R326). -/
def State.engShut (s : State) (b e : Nat) (pas : List Nat) : Option State :=
  let shut (pa : Nat) : Bool :=
    s.isRefused (srcEng b e) (homeOf pa) .request ||
    s.behind { src := srcEng b e, dst := endHome (homeOf pa), cls := .request, no := s.nextNo, b := b + 1, legs := [] }
  if s.earlyOut (.core (bankCore b)) || pas.any shut then some s
  else (pas.find? s.refuses).map fun pa => s.refuse (srcEng b e) (homeOf pa) .request

/-- Reads of engine e of bank b go out with their units (R476). -/
def State.engServe (s : State) (b e part : Nat) (pas : List Nat) (ls : List Leg) : Bool × State :=
  match s.engShut b e pas with
  | some s1 => (false, s1)
  | none => s.serve (agentEng b e) (b + 1) part ls

/-- The numbers of the 256-byte rows that n bytes at pa touch. -/
def rowNums (pa n : Nat) : List Nat := if n = 0 then [] else (List.range ((pa + n - 1) / 256 - pa / 256 + 1)).map fun i => pa / 256 + i

/-- Some of n bytes at pa lie in a tentative row (R323). -/
def State.tentSpan (s : State) (pa n : Nat) : Bool :=
  s.packets != [] &&
  if isGsram pa then s.tentCell (gsramKey pa) else !isWindow pa && (rowNums pa n).any fun r => s.tentAt (256 * r)

/-- Whether a read of bank b of n bytes at pa must wait: for its own earlier accesses, for a store of the other bank that is
not performed, for a release whose scope holds the core, or for a row that is not final (R198, R202, R203, R323). -/
def State.readWaits (s : State) (b pa n : Nat) : Bool :=
  s.tentSpan pa n || s.storeAhead b pa n || s.rowAhead b pa n || s.throughAhead b pa n || s.unreleased (some b) (.core (bankCore b)) pa

end Sys2Proof.Machine
end

