-- ==== Sys2Proof/Machine/Egress.lean ====
section
/-! DEFINITION. Region tags, ports and egress meters (spec/19 R403 to R406). -/

namespace Sys2Proof.Machine

/-! ### Region tags and egress (R403 to R406) -/

def State.setKeySlot (s : State) (d k : Nat) (x : KeySlot) : State :=
  s.modDie d fun die => { die with keys := Assoc.set KeySlot.zero die.keys k x }

/-- The tag of a region (R403). -/
def regionTag (die key : Nat) : BitVec 24 := BitVec.ofNat 24 (2 ^ 23 + at' (die % 1024) 13 + key % 8192)

/-- The tag that a row of memory gives to an engine that reads it (R403). -/
def State.readTag (s : State) (pa : Nat) : BitVec 24 :=
  match s.regionOf pa with
  | some (d, k, _) => regionTag d k
  | none => if isCached pa then (s.rowMeta (pa / 256)).rtag else 0

/-- The port by which a row that die `src` writes to a physical address leaves the package; none if it stays (R404). -/
def State.portOf (s : State) (src pa : Nat) : Option Nat :=
  if isHostWin pa then some 0
  else if isCxl pa then
    let out := s.exitPort src (s.routeIo src ((pa / 2 ^ 42) % 64))
    if out.isSome then out else some (1 + (pa / 2 ^ 40) % 4)
  else if isHbm pa || isGsram pa then s.exitPort src (s.route src (paDie pa))
  else none

/-- What a port finds for a tagged row. -/
inductive Egress where
  | ok (s : State)
  | wait (s : State)
  | capped

/-- Grants that count in the window that ends now (R405). -/
def KeySlot.recent (x : KeySlot) (now : Nat) : List Nat := x.granted.filter fun t => decide (now < t + x.win)

/-- CAP of a slot: all ones is no cap. -/
def KeySlot.passesCap (x : KeySlot) : Bool := decide (x.cap ≠ 2 ^ 64 - 1) && decide (x.cap < x.total + 4096)

/-- A port asks the meter of a region for a unit (R405), with the log entries of R407 (DEDUCED, unsafe: log entry 36). -/
def State.draw (s : State) (port d k : Nat) : Egress :=
  let x := s.keySlot d k
  if x.state ≠ 2 || x.passesCap then .capped
  else
    let rec' := x.recent s.reftime
    if x.rate < 4096 * rec'.length + 4096 then
      let x1 := { x with waiting := if port ∈ x.waiting then x.waiting else x.waiting ++ [port] }
      let quiet := match x.warned with
        | some t => decide (s.reftime < t + x.win)
        | none => false
      if quiet then .wait (s.setKeySlot d k x1)
      else .wait ((s.setKeySlot d k { x1 with warned := some s.reftime }).logEvent 4 d x.part k
        (BitVec.ofNat 256 (4096 * rec'.length + at' port 64)))
    else
      let x1 := { x with granted := s.reftime :: rec', total := x.total + 4096,
                         credit := Assoc.set 0 x.credit port (Assoc.get 0 x.credit port + 4096),
                         waiting := x.waiting.filter fun p => p != port }
      let s1 := s.setKeySlot d k x1
      .ok (if x1.passesCap then s1.logEvent 5 d x.part k (BitVec.ofNat 256 (x1.total + at' port 64)) else s1)

/-- A tagged row of n bytes leaves through a port (R404 to R406); an untagged one is free to go
(DEDUCED, unsafe: log entry 36). -/
def State.egress (s : State) (port : Option Nat) (tag : BitVec 24) : Egress :=
  match port with
  | none => .ok s
  | some p =>
    if !bit tag 23 then .ok s
    else
      let d := bits tag 22 13
      let k := bits tag 12 0
      let spend (s : State) : State :=
        let x := s.keySlot d k
        s.setKeySlot d k { x with credit := Assoc.set 0 x.credit p (Assoc.get 0 x.credit p - 256) }
      if (s.keySlot d k).state ≠ 2 then .capped
      else if 256 ≤ Assoc.get 0 (s.keySlot d k).credit p then .ok (spend s)
      else match s.draw p d k with
        | .ok s1 => .ok (spend s1)
        | r => r

/-- What a port finds for rows that leave one after the other: all have left, or the first n. -/
inductive Leave where
  | all (s : State)
  | wait (s : State) (n : Nat)
  | capped (s : State) (n : Nat)

/-- Rows with these tags leave through a port in turn, n having left before (R404 to R406). -/
def State.leaveAll (s : State) (port : Option Nat) : List (BitVec 24) → Nat → Leave
  | [], _ => .all s
  | t :: ts, n =>
    match s.egress port t with
    | .ok s1 => s1.leaveAll port ts (n + 1)
    | .wait s1 => .wait s1 n
    | .capped => .capped s n

/-- The port by which a row that lies on a die leaves its package towards an agent on another, if it does. -/
def State.pullPort (s : State) (src dst : Nat) : Option Nat := if 1024 ≤ src then none else s.exitPort src (s.route src dst)

/-- A load of bank b from another module meets the port of the row's home: the row leaves, waits, or comes as poisoned zeros
(R406) (DEDUCED, unsafe: log entry 36). -/
def State.pullEgress (s : State) (core pa : Nat) : Egress :=
  s.egress (s.pullPort (memDie pa) (coreDie core)) (if isGsram pa then (s.cell (gsramKey pa)).rtag else s.readTag pa)

/-- EGRESS_CREDIT_REQUEST (R405): a port that holds less than a row's credit for a region draws a unit or waits. -/
def execEgressCreditRequest (port die key : Nat) (s : State) : Out :=
  if !validDie die || 101 < port then .fault .noSuchAgent
  else if 256 ≤ Assoc.get 0 (s.keySlot die key).credit port then .next s
  else match s.draw port die key with
    | .ok s1 | .wait s1 => .next s1
    | .capped => .next s

/-- METER_CREDIT_AGE_OUT (R405): grants leave the window, and the ports that wait are granted their units in turn. -/
def execMeterCreditAgeOut (die key : Nat) (s : State) : Out :=
  if !validDie die then .fault .noSuchAgent
  else .next ((s.keySlot die key).waiting.foldl (fun s p =>
    match s.draw p die key with
    | .ok s1 | .wait s1 => s1
    | .capped => s) s)

end Sys2Proof.Machine
end

