-- ==== Sys2Proof/Machine/Flags.lean ====
section
/-! DEFINITION. The conditions of branches and compares (spec/02 R34, spec/07 R146, spec/17 R363). The machine keeps
no flags: a comparison writes its answer into a register (spec/06). -/

namespace Sys2Proof.Machine

/-- cond(COND, a, b) of R34. -/
def cond (cc : BitVec 3) (a b : Word) : Bool :=
  match cc.toNat with
  | 0 => a == b
  | 1 => a != b
  | 2 => a.slt b
  | 3 => !a.slt b
  | 4 => a.ult b
  | 5 => !a.ult b
  | 6 => (a &&& b) != 0
  | _ => (a &&& b) == 0

/-- A truth value as a register value. -/
def flag (c : Bool) : Word := if c then 1 else 0

end Sys2Proof.Machine
end

