-- ==== Sys2Proof/Machine/Lines.lean ====
section
/-! DEFINITION. The messages and the lines of a sequencer's data cache (spec/13 R268 to R273), and what the sequencer reads
through it for itself: records (spec/04 R93, spec/16 R351) and instruction words (spec/02 R63). -/

namespace Sys2Proof.Machine

/-! ### Coherence messages (R270) -/

/-- The event that serves a message. -/
def Msg.event (m : Msg) : Option Instr :=
  match m.kind with
  | .getS => some (.cohGetS m.core m.line)
  | .getX => some (.cohGetX m.core m.line)
  | .upg => some (.cohUpg m.core m.line)
  | .wthru _ _ _ => some (.writeThrough m.core m.line)
  | .put | .putClean => some (.cohPut m.core m.line)
  | .ack => some (.cohAck m.core m.line)
  | .dO => some (.cohDO m.core m.line)
  | .dS => some (.cohDS m.core m.line)
  | .dW => some (.cohDW m.core m.line)
  | .dX => some (.cohDX m.core m.line)
  | .peekData => none
  | .dataS => some (.cohDataS m.core m.line)
  | .dataE => some (.cohDataE m.core m.line)
  | .dataX => some (.cohDataX m.core m.line)
  | .grant => some (.cohGrant m.core m.line)
  | .fwdS => some (.cohFwdS m.core m.line)
  | .fwdX => some (.cohFwdX m.core m.line)
  | .inv => some (.cohInv m.core m.line)
  | .peek => some (.cohPeek m.core m.line)
  | .putAck => some (.cohPutAck m.core m.line)

/-- Send a message. -/
def State.send (s : State) (m : Msg) : State :=
  let s1 : State := { s with net := s.net ++ [{ m with no := s.nextNo }], sends := s.nextNo }
  match m.event with
  | some e => s1.owe e
  | none => s1

/-! ### The lines of a core's cache -/

def State.line (s : State) (c l : Nat) : CLine := (s.core c).line l

def State.setLine (s : State) (c l : Nat) (x : CLine) : State :=
  s.modCore c fun k => { k with lines := Assoc.set CLine.zero k.lines l x }

/-- States in which a load hits (R269, R273). -/
def CState.loadHits (c : CState) : Bool :=
  match c with
  | .s | .e | .o | .m | .smD | .omD => true
  | .i | .isD | .imD | .xiA => false

/-- Bank b asks the home of a line for a copy or for ownership (R273): `st` is the transient state entered. -/
def State.request (s : State) (b l : Nat) (st : CState) (kind : MKind) (ev : Bool) : State :=
  let c := bankCore b
  let x := s.line c l
  (s.setLine c l { x with st := st, ev := ev, b := b + 1 }).send
    { kind := kind, core := c, line := l, data := 0, ev := ev, b := b + 1 }

/-- n bytes of a line from byte `off`, as a number. -/
def lineVal (d : BitVec 512) (off n : Nat) : Nat := d.toNat / 2 ^ (8 * off) % 2 ^ (8 * n)

/-- A line with n bytes from `off` replaced. -/
def linePut (d : BitVec 512) (off n v : Nat) : BitVec 512 := setBits d (8 * (off + n) - 1) (8 * off) v

/-! ### Record reads (R93, R219, R246, R351, R462) -/

/-- What the read of a record finds: its bytes, the first of them, if any, in a poisoned row, and the state after it; or nothing
yet. -/
inductive Record where
  | got (xs : List Byte) (bad : Option Nat) (s : State)
  | notYet (s : State)

/-- Ask the home for those of these lines that bank b's core neither holds nor awaits. -/
def State.askLines (s : State) (b : Nat) (ev : Bool) : List Nat → State
  | [] => s
  | l :: ls => (if (s.line (bankCore b) l).st = .i then s.request b l .isD .getS ev else s).askLines b ev ls

/-- A line that a core holds is its latest (R462). -/
def State.touch (s : State) (c l : Nat) : State := s.setLine c l { s.line c l with used := s.counter }

/-- The byte at pa is poisoned for a read through core c's line under a key id: its row is, or a port held the row back (R398,
R406). -/
def State.lineBad (s : State) (c key pa : Nat) : Bool :=
  (s.rowMeta (pa / 256)).poison || !s.keyFits pa key || (s.line c (pa / 64)).poison

/-- Bank b reads a record of n bytes: through its data cache from memory, at its home from global SRAM and from the windows. A
frame that is being forwarded is found under its new name (R325). -/
def State.readThrough (s : State) (b : Nat) (a : Acc) (n : Nat) : Record :=
  let c := bankCore b
  if isCached a.pa then
    let pa := s.frameOf a.pa
    let ls := linesOf pa n
    let key := leafKey a.leaf
    if ls.all fun l => (s.line c l).st.loadHits then
      .got ((List.range n).map fun i => lineByte (s.line c ((pa + i) / 64)).data (pa + i))
        ((List.range n).find? fun i => s.lineBad c key (pa + i))
        (ls.foldl (fun s l => (s.touch c l).spoil (64 * l) key) s)
    else .notYet (s.askLines b (leafEv a.leaf) ls)
  else
    match s.serve (agentRecord b) (b + 1) ((s.bank b).part % 16) (if isBarrierWin a.pa then [] else s.readLegs (bankDie b) a.pa) with
    | (false, s1) => .notYet s1
    | (true, s1) =>
      match s1.pullEgress c a.pa with
      | .ok s2 =>
        let r := s2.readRecord b a n
        .got r.1 r.2 s2
      | .wait s2 => .notYet s2
      | .capped => .got (List.replicate n 0) (some 0) s1

/-- Send an access to global SRAM or to the barrier window. -/
def State.sendG (s : State) (g : GReq) : State :=
  let i := s.gsram.length
  ({ s with gsram := s.gsram ++ [{ g with no := s.nextNo }], sends := s.nextNo } : State).owe
    (if isGsram g.pa then .globalSramHomeAccess i else .barrierWindowAccess i)

/-- Send a write of the notify or the wake window (R303, R346). -/
def State.sendWin (s : State) (w : WinWrite) : State :=
  ({ s with winWrites := s.winWrites ++ [{ w with no := s.nextNo }], sends := s.nextNo } : State).owe
    (if w.wake then .wakeWrite w.n w.v else .notifyRegisterWrite w.n w.v)

/-! ### The units of an instruction fetch (R63, R476) -/

/-- The walk and the line of a fetch, as far as the core does not hold them. -/
def State.fetchLegs (s : State) (b : Nat) (at0 : Word) : List Leg :=
  let va := at0.toNat / 4 * 4
  let die := bankDie b
  let walk := if ((s.core (bankCore b)).cached (s.bank b).part va).isSome then []
    else s.walkLegs die ((s.bank b).part % 16) va
  match s.fetchXlat b va with
  | .error _ => walk
  | .ok x =>
    let pa := leafPa x.leaf x.size va
    walk ++ if ((s.core (bankCore b)).ifetched (pa / 64)).isSome then [] else s.readLegs die pa

/-- A fetch of bank b takes its units: whether it has had them all. -/
def State.fetchServed (s : State) (b : Nat) (at0 : Word) : Bool × State :=
  s.serve (agentFetch b) (b + 1) ((s.bank b).part % 16) (s.fetchLegs b at0)

/-- What the fetch of a word comes to: its trap, a wait, or the word, with the state after it. -/
inductive Fetched where
  | trap (t : Trap) (s : State)
  | wait (s : State)
  | word (w : BitVec 32) (s : State)

/-- Whether bank b's core holds the instruction line at a physical address. -/
def State.holdsLine (s : State) (b pa : Nat) : Bool := isWindow pa || ((s.core (bankCore b)).ifetched (pa / 64)).isSome

/-- Bank b fetches the word at a virtual address once its units have started and, from another module, its row has left by the
port (R404, R406, R476). -/
def State.fetchWord (s : State) (b : Nat) (at0 : Word) : Fetched :=
  let take (s : State) : Fetched :=
    match s.fetch b at0 with
    | .error t => .trap t (s.fetched b at0)
    | .ok (w, s1) => .word w s1
  match s.fetchServed b at0 with
  | (false, s1) => .wait s1
  | (true, s1) =>
    let va := at0.toNat / 4 * 4
    match s1.fetchXlat b va with
    | .error _ => take s1
    | .ok x =>
      let pa := leafPa x.leaf x.size va
      if s1.holdsLine b pa then take s1
      else match s1.pullEgress (bankCore b) pa with
        | .ok s2 => take s2
        | .wait s2 => .wait s2
        | .capped => .trap (fetchFault 8 0 va) (s1.fetched b at0)

end Sys2Proof.Machine
end

