-- ==== Sys2Proof/Machine/Operands.lean ====
section
/-! DEFINITION. The operand forms of spec/02: immediates and offsets (R31), operand fields of V-words (R51), operand and
scale specifiers of M-words (R56), descriptors (R93, R94). -/

namespace Sys2Proof.Machine

/-! ### Immediates (R31) -/

/-- IMM12 of `ADDI`. -/
def immS (imm : BitVec 12) : Word := imm.signExtend 64

/-- IMM12 of `ANDI`, `ORI` and `XORI`. -/
def immZ (imm : BitVec 12) : Word := imm.zeroExtend 64

/-- IMM20 times 2^12, sign-extended. -/
def immU (imm : BitVec 20) : Word := (imm ++ (0 : BitVec 12)).signExtend 64

/-- A word offset times 4, sign-extended. -/
def offW {n : Nat} (off : BitVec n) : Word := BitVec.ofInt 64 (4 * off.toInt)

/-- The width in bytes of an access type (R28, R35). -/
def typeBytes (t : BitVec 4) : Nat :=
  match t.toNat with
  | 7 | 11 => 1
  | 8 | 12 => 2
  | 9 | 13 => 4
  | _ => 8

/-- Whether a load of the type sign-extends (R220). -/
def typeSigned (t : BitVec 4) : Bool := decide (t.toNat ≤ 10)

/-- A value of n bytes extended to a register (R220). -/
def extend (signed : Bool) (n v : Nat) : Word :=
  if signed then BitVec.ofInt 64 (sgn (8 * n) (v % 2 ^ (8 * n))) else BitVec.ofNat 64 (v % 2 ^ (8 * n))

/-! ### Operands of V-words (R51) -/

/-- What an operand field names. Queues are numbered 0 to 7: `dq0` to `dq5`, then `oq0`, `oq1`. -/
inductive Opnd where
  | latch (i : Nat)
  | o (i : Nat)
  | queue (q : Nat) (adv : Bool) (slot : Nat)
  | v (i : Nat)
  | ad (n : Nat) (off : Int)
  deriving DecidableEq, Repr

def opnd (x : BitVec 22) : Opnd :=
  let idx := bits x 19 14
  match bits x 21 20 with
  | 0 => .latch idx
  | 1 => if idx < 8 then .o idx else .queue (idx - 8) (bit x 13) (bits x 12 8)
  | 2 => .v idx
  | _ => .ad idx (sgn 14 (bits x 13 0))

def Opnd.isAd : Opnd → Bool
  | .ad _ _ => true
  | _ => false

def Opnd.isQueue : Opnd → Bool
  | .queue _ _ _ => true
  | _ => false

def Opnd.isLatch : Opnd → Bool
  | .latch _ => true
  | _ => false

/-- A data queue's slot is 0 to 15 (R51). -/
def Opnd.slotOk : Opnd → Bool
  | .queue q _ slot => decide (6 ≤ q) || decide (slot ≤ 15)
  | _ => true

/-- A readable source: not `dq4`, `dq5`, `oq0`, `oq1` (R51). -/
def Opnd.readable : Opnd → Bool
  | .queue q _ slot => decide (q ≤ 3) && decide (slot ≤ 15)
  | _ => true

/-- A destination: `l.alu`'s field for "no register", `o`, `v`, a row, `dq4`, `dq5`, `oq0`, `oq1` (R51); another latch is an
operand in a forbidden position (DESIGN CHOICE, unsafe: log entry 68). -/
def Opnd.writable : Opnd → Bool
  | .latch i => i == 0
  | .queue q _ _ => decide (4 ≤ q)
  | _ => true

/-- Words that read D before they write it: `VFMA`, `VFMS` (R54), `VFSH` (R132), `VTRIP.mrg`, `VTRIP.acc` (R188),
`VROTM` (R241). -/
def readsD (opc fx : Nat) : Bool :=
  opc == 0x13 || opc == 0x14 || opc == 0x37 || opc == 0x56 || (opc == 0x03 && fx != 2)

/-- Words under the rule of R132 that a queue D is forbidden. -/
def noQueueD (opc : Nat) : Bool := opc == 0x13 || opc == 0x14 || opc == 0x37 || opc == 0x56 || opc == 0x03

/-- Whether a V-word with allowed fields holds a forbidden operand (R51, R96, R132, R158, R188, R239 to R242): the
illegal-operand kind of R61. -/
def vForbidden (opc : Nat) (w : VWord) : Bool :=
  match vForm opc w.ty.toNat w.fx.toNat with
  | none => false
  | some f =>
    let d := opnd w.d
    let a := opnd w.a
    let b := opnd w.b
    (f.d && (!d.writable || !d.slotOk)) || (f.a && !a.readable) || (f.b && !b.readable) ||
    (f.d && noQueueD opc && d.isQueue) ||
    (f.d && w.ps && (d.isAd || d.isQueue)) ||
    (opc == 0x21 && !a.isAd) ||
    (opc == 0x60 && (!a.isAd || d.isLatch)) ||
    ((opc == 0x61 || opc == 0x62) && !d.isAd) ||
    (opc == 0x63 && !((a.isQueue && d.isAd) || (a.isAd && match d with | .queue q _ _ => q == 4 || q == 5 | _ => false)))

/-! ### Specifiers of M-words (R56, R160, R167) -/

/-- Rows per K step of an operand format (R160). -/
def rowsPerStep (fmt : Nat) : Nat := if isFP8 fmt then 16 else 8

/-- Bits of an element of an array operand (R160). -/
def arrBits (fmt : Nat) : Nat := if isFP8 fmt then 8 else if fmt == 6 then 4 else 16

/-- Values of k per step (R160). -/
def kPerStep (fmt : Nat) : Nat := if isFP8 fmt || fmt == 6 then 32 else 8

def specSrc (x : BitVec 48) : Nat := bits x 47 46
def specV (x : BitVec 48) : Nat := bits x 45 40
def specA (x : BitVec 48) : Nat := bits x 45 41
def specB (x : BitVec 48) : Nat := bits x 40 36
def specOfs (x : BitVec 48) : Int := sgn 14 (bits x 35 22)

/-- Registers that an M-word of opcode `mop` counts for operand B (true) or A (false) in registers (R56, R162, R170 to
R173). -/
def mRegCount (mop : Nat) (w : MWord) : Nat :=
  match mop with
  | 1 | 2 => rowsPerStep w.fmta.toNat * (w.kst.toNat + 1)
  | 4 => 256
  | 5 => if w.fmta == 1 then 256 else 128
  | 6 => 2
  | _ => if isFP8 w.fmta.toNat then 64 else 128

/-- A specifier whose registers run past `v63`. -/
def specOver (x : BitVec 48) (n : Nat) : Bool := specSrc x == 0 && decide (64 < specV x + n)

/-- Whether an M-word with allowed fields holds a forbidden operand (R56, R57, R167, R170 to R173). -/
def mForbidden (mop : Nat) (w : MWord) : Bool :=
  let n := mRegCount mop w
  match mop with
  | 1 => specOver w.aspec n || specOver w.bspec n
  | 2 => specOver w.aspec n || specOver w.bspec n ||
         (bits w.sspec 23 22 == 1 && decide (64 < bits w.sspec 21 16 + w.kst.toNat + 1))
  | 4 | 5 => specOver w.aspec n
  | 6 => specSrc w.aspec != 0 || specOver w.aspec n || decide (127 < w.kst.toNat)
  | 8 => specOver w.aspec n || specOver w.bspec n
  | _ => false

/-! ### Descriptors (R93, R94) -/

def descSpace (r : BitVec 256) : Bool := bit r 144
def descBase (r : BitVec 256) : Nat := bits r 143 128
def descCoef (r : BitVec 256) (i : Nat) : Int := sgn 20 (bits r (20 * i + 19) (20 * i))

/-- Rows of a space: scratchpad, or cluster SRAM. -/
def spaceRows (cluster : Bool) : Nat := if cluster then csramRows else spadRows

/-- Whether a descriptor record is one that `ADSET` accepts (R93). -/
def descOk (r : BitVec 256) : Bool :=
  bits r 255 145 == 0 && bits r 127 120 == 0 && decide (descBase r < spaceRows (descSpace r))

/-- The row that `adN±k` names at a point (R94), exactly. -/
def descRow (r : BitVec 256) (lx : Nat → Nat) (k : Int) : Int :=
  (descBase r : Int) + (descCoef r 0 * lx 0 + descCoef r 1 * lx 1 + descCoef r 2 * lx 2 + descCoef r 3 * lx 3 +
    descCoef r 4 * lx 4 + descCoef r 5 * lx 5) + k

/-- Index in `State.sram` of a row of bank b's scratchpad or cluster SRAM. -/
def rowKey (b : Nat) (cluster : Bool) (r : Nat) : Nat :=
  if cluster then csramKey (bankCluster b) r else spadKey (bankCore b) r

/-- A row in range of its space, by its index in `State.sram`; or the cause of a row-range trap (R94, R96). -/
def rowAt (b : Nat) (cluster : Bool) (r : Int) : Except Nat Nat :=
  if 0 ≤ r ∧ r < spaceRows cluster then .ok (rowKey b cluster r.toNat)
  else .error (1 + b2n cluster * 2 ^ 16 + (r % 65536).toNat)

end Sys2Proof.Machine
end

