-- ==== Sys2Proof/Machine/Control.lean ====
section
/-! DEFINITION. Branches, jumps and calls with their delay slot (spec/04 R79 to R83). -/

namespace Sys2Proof.Machine

/-- A word that a delay slot may not hold (R81): the illegal-instruction trap comes before any effect. -/
def noSlot (s : State) (f : State → Out) : Out :=
  if s.me.slot.isSome then trapNow s illegalInstruction else f s

/-! ### Whether the slot can issue at once (R82) -/

/-- Store-queue entries in use: the words of one `STM` share one (R221). -/
def Bank.postsUsed (k : Bank) : Nat := (k.posts.map fun p => p.grp).eraseDups.length

/-- The store queue of 32 entries is full (R221). -/
def Bank.postsFull (k : Bank) : Bool := decide (32 ≤ k.postsUsed)

/-- Whether bank k holds an entry of the device-launch queue for the `LAUNCH` in its slot (R82). -/
def Bank.reservesLaunch (k : Bank) : Bool :=
  match k.slot with
  | some sl => match sl.prep with
    | .got _ _ => true
    | _ => false
  | none => false

/-- The device-launch queue of 64 entries is full, reserved entries counted (R82, R351). -/
def State.launchFull (s : State) : Bool :=
  let die := bankDie s.cur
  decide (64 ≤ (s.die die).launchq.length + (s.banks.filter fun p => bankDie p.1 == die && p.2.reservesLaunch).length)

/-- A `LAUNCH` in a slot is prepared (R82): its record is read and an entry of the device-launch queue reserved, or the read's
fault kept; or the state in which its branch waits. -/
def State.prepareLaunch (s : State) (h : BitVec 4) (off : BitVec 12) : Except State Prep :=
  match s.access s.cur h.toNat (off.toNat * 64) 64 64 1 with
  | .trap t => .ok (.bad t)
  | .wait s' => .error s'
  | .ok a =>
    if s.readWaits s.cur a.pa 64 then .error s
    else match s.readThrough s.cur a 64 with
      | .notYet s1 => .error s1
      | .got xs (some i) s1 =>
        if !s.misfits a.pa (leafKey a.leaf) then .ok (.bad (accessTrap 8 0 h.toNat (a.va + i))) else .error s1
      | .got xs none _ =>
        if s.launchFull || !s.me.quiet then .error s
        else .ok (.got (BitVec.ofNat 512 (leNat xs)) (s.frameOf a.pa / 64))

/-- The handle that a word uses (R219, R226, R386, R390, R400). -/
def Instr.usesHandle (i : Instr) : Option Nat :=
  match i with
  | .ld _ h _ _ | .lda _ h _ _ | .st _ h _ _ | .stl _ h _ _ => some h.toNat
  | .ldm _ h _ _ | .stm _ h _ _ => some h.toNat
  | .atom _ h _ _ _ _ | .cas _ h _ _ _ => some h.toNat
  | .fence h | .fenceIfetch h => some h.toNat
  | .ldq _ h _ _ | .keyld _ h _ | .adset _ h _ | .layout _ h _ => some h.toNat
  | .mblk h _ | .launch h _ => some h.toNat
  | .hinfo _ h k => if k = 1 ∨ k = 2 then some h.toNat else none
  | _ => none

/-- Whether the queue, store queue or command queue that a slot word needs holds it back before any effect
(DEDUCED, unsafe: log entry 14). -/
def State.slotBlocked (s : State) (i : Instr) : Bool :=
  let k := s.me
  match i with
  | .lnset _ _ _ | .adset _ _ _ | .mblk _ _ => k.cmdFull engLE
  | .layout _ _ _ => k.cmdFull engCP
  | .st _ _ _ _ | .stl _ _ _ _ | .stm _ _ _ _ | .atom _ _ _ _ _ _ | .cas _ _ _ _ _ | .sev _ => k.postsFull
  | .ldq q _ n _ => decide (q.toNat < 4) && !k.canReserve q.toNat (n.toNat + 1)
  | .qpush _ q => decide (q.toNat < 4) && !k.canReserve q.toNat 1
  | .qadvTail q n => decide (q.toNat < 4) && !k.canReserve q.toNat (n.toNat + 1)
  | .qpop _ q => decide (4 ≤ q.toNat) && decide (q.toNat < 8) && decide ((k.queue q.toNat).fill < 1)
  | .qadvHead q n => decide (4 ≤ q.toNat) && decide (q.toNat < 8) && decide ((k.queue q.toNat).fill < n.toNat + 1)
  | _ => false

/-- Whether the slot word at `pc` can issue at once (R82): what has been prepared for it, or the state in which the branch
waits. A slot whose fetch faults, or that is no S-word, does not hold the branch: it traps after it
(DEDUCED, unsafe: log entry 14). -/
def State.slotReady (s : State) (pc : Word) : Except State Prep :=
  match s.fetchWord s.cur pc with
  | .wait s1 => .error s1
  | .trap _ _ => .ok .none
  | .word w s2 =>
    if s.fetchLegs s.cur pc ≠ [] && s2.fetchLegs s.cur pc = [] then .error s2
    else match decodeS w.toNat with
    | none => .ok .none
    | some (.launch h off) => s.prepareLaunch h off
    | some i =>
      if s.slotBlocked i then .error s
      else match Instr.usesHandle i with
        | none => .ok .none
        | some h =>
          match (s.me.handle h).st with
          | .pending => .error s
          | .stale => .error (s.startWalk s.cur h)
          | _ => .ok .none

/-- What keeps the slot word at `pc` from issuing at once: the state in which the branch waits. -/
def State.slotWait (s : State) (pc : Word) : Option State :=
  match s.slotReady pc with
  | .error s' => some s'
  | .ok _ => none

/-- What has been prepared for the slot word at `pc`. -/
def State.slotPrep (s : State) (pc : Word) : Prep :=
  match s.slotReady pc with
  | .error _ => .none
  | .ok p => p

/-- One control transfer (R79, R82): it waits until its slot can issue, writes its link, and leaves the bank at its
slot. -/
def branch (s : State) (taken : Bool) (target : Word) (link : Option (BitVec 5)) : Out :=
  let pc := s.me.pc
  match s.slotWait (pc + 4) with
  | some s' => stall s'
  | none =>
    .next (s.modMe fun k =>
      let k1 := match link with
        | some d => k.setReg d (pc + 8)
        | none => k
      { k1 with pc := pc + 4, slot := some { branch := pc, target := target, taken := taken, prep := s.slotPrep (pc + 4) } })

/-- `B.cc` (R79). -/
def execB (a b : BitVec 5) (cc : BitVec 3) (off : BitVec 13) (s : State) : Out :=
  noSlot s fun s => branch s (cond cc (s.reg a) (s.reg b)) (s.me.pc + offW off) none

/-- `J` (R79). -/
def execJ (off : BitVec 21) (s : State) : Out := noSlot s fun s => branch s true (s.me.pc + offW off) none

/-- `JAL` (R79). -/
def execJal (d : BitVec 5) (off : BitVec 21) (s : State) : Out :=
  noSlot s fun s => branch s true (s.me.pc + offW off) (some d)

/-- `JR` (R79): a target that is not a multiple of 4 traps with no link and no slot. -/
def execJr (d a : BitVec 5) (s : State) : Out :=
  noSlot s fun s => if (s.reg a).toNat % 4 ≠ 0 then trapNow s illegalOperand else branch s true (s.reg a) (some d)

end Sys2Proof.Machine
end

