-- ==== Sys2Proof/Machine/Handles.lean ====
section
/-! DEFINITION. Handles (spec/18 R385 to R390) and the accesses that words make through them (spec/11 R219). -/

namespace Sys2Proof.Machine

/-! ### Accesses of the acting sequencer -/

/-- Make the checks of R219, then go on with the access; a read waits for the fences before it (R207). -/
def withAccess (s : State) (h off n width : Nat) (need : BitVec 3) (f : Acc → Out) : Out :=
  match s.access s.cur h off n width need with
  | .trap t => trapNow s t
  | .wait s' => stall s'
  | .ok a => if bit need 0 && s.me.fencing then stall s else f a

/-- Read a record of n bytes with the ordering of the sequencer's own loads (R93, R203), then go on with its bytes in the state
after the read; a poisoned row traps. -/
def withRecord (s : State) (h off n width : Nat) (f : State → List Byte → Out) : Out :=
  withAccess s h off n width 1 fun a =>
    if s.readWaits s.cur a.pa n then stall s
    else match s.readThrough s.cur a n with
      | .notYet s1 => stall s1
      | .got _ (some i) s1 => trapNow s1 (accessTrap 8 0 h (a.va + i))
      | .got xs none s1 => f s1 xs

/-! ### XLATE, HDROP, HINFO -/

/-- A handle that a cached translation makes valid (R385, R386). -/
def Handle.filled (x : Handle) (t : Xlat) : Handle :=
  { x with st := .valid, page := t.page, size := t.size, leaf := t.leaf, cause := 0 }

/-- `XLATE` (R37, R386). -/
def execXlate (a : BitVec 5) (h : BitVec 4) (intent : BitVec 3) (s : State) : Out :=
  if intent = 0 then trapNow s illegalOperand
  else
    let va := (s.reg a).toNat
    let old := s.me.handle h.toNat
    let x : Handle := { old with base := BitVec.ofNat 56 va, intent := intent, gen := old.gen + 1, cause := 0 }
    let hit : Option Xlat :=
      if va < 2 ^ 56 then
        match (s.core (bankCore s.cur)).cached s.me.part va with
        | some t => if rightsOk intent (leafRights t.leaf) then some t else none
        | none => none
      else none
    match hit with
    | some t => finish (s.modMe fun k => k.setHandle h.toNat (x.filled t))
    | none =>
      finish ((s.modMe fun k => k.setHandle h.toNat { x with st := .pending, page := va }).owe
        (.pageWalkComplete s.cur h.toNat))

/-- `HDROP` (R389). -/
def execHdrop (h : BitVec 4) (s : State) : Out :=
  finish (s.modMe fun k =>
    let x := k.handle h.toNat
    k.setHandle h.toNat { x with st := .invalid, gen := x.gen + 1 })

/-- STATE as `HINFO` gives it (R390). -/
def HState.code (x : HState) : Nat :=
  match x with
  | .invalid => 0
  | .pending => 1
  | .valid => 2
  | .faulted => 3
  | .stale => 4

/-- The attribute word of `HINFO` (R390). -/
def Handle.attrs (x : Handle) (rights : Bool) : Word :=
  let frame := if rights then at' (leafFrame x.leaf) 24 else 0
  let intent := bits (x.intent) 2 0
  let rwx := Nat.land (bits x.leaf 5 3) intent
  BitVec.ofNat 64 (frame + at' (bits x.leaf 23 6) 6 + at' rwx 3)

/-- A word of `HINFO` that does not wait (R390). -/
def Handle.info (x : Handle) (rights : Bool) (k : Nat) : Word :=
  match k with
  | 0 => if x.st = .invalid then 0 else x.base.zeroExtend 64
  | 1 => if x.st = .valid then BitVec.ofNat 64 (x.page + x.size) else 0
  | 2 => if x.st = .valid then x.attrs rights else 0
  | 3 => x.gen.zeroExtend 64
  | _ => BitVec.ofNat 64 (at' (if x.st = .faulted then x.cause else 0) 8 + x.st.code)

/-- `HINFO` (R390): its words 1 and 2 wait for a walk, and a stale handle walks again for them. -/
def execHinfo (d : BitVec 5) (h : BitVec 4) (k : BitVec 5) (s : State) : Out :=
  let x := s.me.handle h.toNat
  let waits := k = 1 ∨ k = 2
  if waits ∧ x.st = .pending then stall s
  else if waits ∧ x.st = .stale then stall (s.startWalk s.cur h.toNat)
  else finish (s.setReg d (x.info (s.hasRights s.cur) k.toNat))

/-! ### PAGE_WALK_COMPLETE (R384, R386) -/

/-- The walk of handle h of bank b ends, once its reads have had their units of service (R476). A walk that its handle no longer
waits for is discarded. -/
def execPageWalkComplete (b h : Nat) (s : State) : Out :=
  if !validBank b then .fault .noSuchAgent
  else
    let x := (s.bank b).handle h
    if x.st ≠ .pending || ((s.bank b).pst != .live && (s.bank b).pst != .saving) then .next s
    else
      let part := (s.bank b).part
      match s.serve (agentWalk b h) (b + 1) (part % 16) (s.walkLegs (bankDie b) part x.page) with
      | (false, s1) => .next (s1.owe (.pageWalkComplete b h))
      | (true, s1) =>
        let s2 := s1.walked (bankDie b) part x.page
        match s.walk (bankDie b) part x.page x.intent with
        | .error c => .next (s2.modBank b fun k => k.setHandle h { x with st := .faulted, page := 0, cause := c })
        | .ok t =>
          .next (((s2.modCore (bankCore b) fun c => c.keep t).noteSeal b t).modBank b fun k => k.setHandle h (x.filled t))

end Sys2Proof.Machine
end

