-- ==== Sys2Proof/Machine/Engine.lean ====
section
/-! DEFINITION. The words that set an engine (spec/02 R39, R40, spec/04 R88, R93, spec/12 R246, spec/21 R434, R435), the
checks that engine commands share (spec/02 R43 to R48), `RUN` (spec/04 R84, R85) and `TOKP` (spec/11 R237). -/

namespace Sys2Proof.Machine

/-- The events by which an engine of bank b takes its next command. -/
def State.oweEngine (s : State) (b e : Nat) : State :=
  match e with
  | 1 => s.owe (.blockStart b)
  | 2 => s.owe (.copyStart b)
  | 3 => s.owe (.sheafCommandAccept b true)
  | 4 => (s.owe (.sheafCommandAccept b false)).owe (.gleanerBlock b)
  | _ => s.owe (.collectiveRetire b)

/-- Queue a command for engine e; a full queue stalls the word before any effect (R48), and so does a fence before it (R207). -/
def queueFor (s : State) (e len : Nat) (op : CmdOp) (ext : Ext) : Out :=
  if s.me.cmdFull e || s.me.fencing then stall s
  else
    let s1 := s.modMe fun k => (k.enqueue e { op := op, pc := k.pc, ext := ext }).advance len
    .next (s1.oweEngine s.cur e)

/-- The extension word of an engine-setting word: no token and no barrier (R39). -/
def Ext.none : Ext := { push := 7, popa := 7, popb := 7, popc := 7, sig := false, scb := 0, wt := false, wcb := 0 }

/-! ### Engine-setting words -/

/-- A loop bound's source (R40, R88): a value above 2^24 - 1 is an illegal operand. -/
def execLnset (lv : BitVec 3) (bsrc : BitVec 2) (sel : BitVec 5) (s : State) : Out :=
  let n := sel.toNat
  let src : Option BSrc :=
    if bsrc = 0 then if (s.reg sel).toNat < 2 ^ 24 then some (.value (s.reg sel).toNat) else none
    else if bsrc = 1 then
      if n < 8 ∧ (Assoc.get 0 s.me.mbox n).toNat < 2 ^ 24 then some (.value (Assoc.get 0 s.me.mbox n).toNat) else none
    else if n < 4 then some (.queue n) else none
  match src with
  | none => trapNow s illegalOperand
  | some x => queueFor s engLE 4 (.lnset lv.toNat x) Ext.none

/-- `ADSET` (R93). -/
def execAdset (n : BitVec 5) (h : BitVec 4) (off : BitVec 12) (s : State) : Out :=
  if 15 < n.toNat then trapNow s illegalOperand
  else withRecord s h.toNat (off.toNat * 32) 32 32 fun s xs =>
    let r := BitVec.ofNat 256 (leNat xs)
    if descOk r then queueFor s engLE 4 (.adset n.toNat r) Ext.none else trapNow s illegalOperand

/-- A layout record that `LAYOUT` accepts (R246, R247). -/
def layoutOk (r : BitVec 512) : Bool :=
  bits r 479 408 == 0 && bits r 399 391 == 0 && bits r 387 387 == 0 && decide (bits r 390 388 ≤ 4) &&
  decide (bits r 386 384 ≤ 6) && decide (bits r 407 406 ≤ 2) && decide (bits r 402 400 ≤ 5)

/-- `LAYOUT` (R246). -/
def execLayout (k : BitVec 5) (h : BitVec 4) (off : BitVec 12) (s : State) : Out :=
  if 7 < k.toNat then trapNow s illegalOperand
  else withRecord s h.toNat (off.toNat * 64) 64 64 fun s xs =>
    let r := BitVec.ofNat 512 (leNat xs)
    if layoutOk r then queueFor s engCP 4 (.layout k.toNat r) Ext.none else trapNow s illegalOperand

/-- Live-in entry i of a restart record: its kind and index (R435). -/
def liveIn (r : BitVec 512) (i : Nat) : Nat × Nat := (bits r (135 + 8 * i) (134 + 8 * i), bits r (133 + 8 * i) (128 + 8 * i))

/-- A restart record that `MBLK` accepts (R435). -/
def restartOk (r : BitVec 512) : Bool :=
  bits r 511 256 == 0 && bits r 127 10 == 0 &&
  (List.range 16).all fun i =>
    match liveIn r i with
    | (2, n) => decide (n < 8)
    | (3, n) => decide (n < 16)
    | _ => true

/-- `MBLK` (R434, R435). -/
def execMblk (h : BitVec 4) (off : BitVec 12) (s : State) : Out :=
  withRecord s h.toNat (off.toNat * 64) 64 64 fun s xs =>
    let r := BitVec.ofNat 512 (leNat xs)
    if restartOk r then queueFor s engLE 4 (.mblk r) Ext.none else trapNow s illegalOperand

/-! ### Engine commands (R46) -/

/-- The token fields that a command of engine e may carry (R46). -/
def pushOk (e : Nat) (x : Ext) : Bool := decide (x.push.toNat ≤ 5) && x.push.toNat != e

def popsOk (e : Nat) (x : Ext) : Bool := x.popa.toNat != e && x.popb.toNat != e && x.popc.toNat != e

/-- An engine command (R43, R46, R48, R60): its token fields, then its own checks, then its queue. -/
def engineCommand (s : State) (e : Nat) (ext : Ext) (bad : Option Trap) (op : CmdOp) : Out :=
  noSlot s fun s =>
    if pushOk e ext && popsOk e ext then
      match bad with
      | some t => trapNow s t
      | none => queueFor s e 8 op ext
    else trapNow s illegalOperand

/-- An illegal operand when the check fails. -/
def operandCheck (ok : Bool) : Option Trap := if ok then none else some illegalOperand

/-- The operand of `RUN` (R84). -/
def runOk (v : Word) : Bool := bits v 63 19 == 0 && bits v 15 10 == 0 && decide (bits v 18 16 ≤ 6)

/-- `RUN` (R84, R85): it captures its register, `s1` to `s31`, FRM (R116) and HKEY (R394). -/
def execRun (x : SXWord) (s : State) : Out :=
  let v := s.reg x.d
  engineCommand s engLE x.ext (operandCheck (runOk v))
    (.run v s.me.regs (BitVec.ofNat 2 (bits s.me.sys.fpc 1 0)) s.me.sys.hkey)

/-! ### TOKP (R237) -/

/-- The second part of `TOKP`, its pops taken: with nothing to push or signal it completes, otherwise once every earlier
access is performed and the FIFO has room (DEDUCED, unsafe: log entry 15). -/
def Bank.tokPush (k : Bank) (x : Ext) : Option Bank :=
  if (x.push = 7 && !x.sig) || (k.quiet && k.canPush 0 x) then some (k.retireTok 0 x) else none

/-- `TOKP` (R46, R237) (DEDUCED, unsafe: log entry 15). -/
def execTokp (x : SXWord) (s : State) : Out :=
  noSlot s fun s =>
    let k := s.me
    if x.ext.push = 0 || !popsOk 0 x.ext then trapNow s illegalOperand
    else if !(k.tokp.contains k.pc) && !k.canIssue 0 x.ext then stall s
    else
      let k1 := if k.tokp.contains k.pc then k else k.takePops 0 x.ext
      match k1.tokPush x.ext with
      | some k2 => finish8 (s.modMe fun _ => { k2 with tokp := k2.tokp.filter fun p => p != k.pc })
      | none => .next (s.modMe fun _ => { k1 with tokp := if k.tokp.contains k.pc then k.tokp else k.pc :: k.tokp })

end Sys2Proof.Machine
end

