-- ==== Sys2Proof/Machine/Access.lean ====
section
/-! DEFINITION. Sequencer loads, stores, atomics, fences and `LDQ` (spec/11 R219 to R226, R230, spec/10 R203 to R209,
R477), the store queue, and the sequencer's side of the data cache (spec/13 R268, R273). A load that finds its data
completes in its step; every other access leaves a note in the bank and completes by the event that brings its answer. -/

namespace Sys2Proof.Machine

/-! ### Line monitors (R364, R368) -/

/-- KIND of a `WAIT` condition (R364). -/
def condKind (c : BitVec 16) : Nat := bits c 15 12

/-- A monitored line has left core c's cache, or another bank of the core has stored to it (R368); `skip` is the
storing bank. -/
def State.lineLeft (s : State) (c l : Nat) (skip : Option Nat) : State :=
  let mark (k : Bank) : Bank :=
    match k.wait with
    | .wait w =>
      let ms := w.lines.map fun m => if m.pa / 64 = l ∧ condKind (w.conds.getD m.cond 0) = 7 then { m with left := true } else m
      { k with wait := .wait { w with lines := ms } }
    | _ => k
  let s1 := if skip = some (2 * c) then s else s.modBank (2 * c) mark
  if skip = some (2 * c + 1) then s1 else s1.modBank (2 * c + 1) mark

/-- Whether a bank of core c monitors line l (R368, R462). -/
def State.monitored (s : State) (c l : Nat) : Bool :=
  [2 * c, 2 * c + 1].any fun b =>
    match (s.bank b).wait with
    | .wait w => w.lines.any fun m => m.pa / 64 == l
    | _ => false

/-! ### Loads -/

/-- What a word of a load finds: its value and poison, or nothing yet. -/
inductive Found where
  | got (v : Nat) (poison : Bool) (s : State)
  | notYet (s : State)

/-- The next word of bank b's outstanding load or atomic. -/
def State.loadWord (s : State) (b : Nat) (p : Pend) : Found :=
  let pa := p.pa + p.width * p.i
  if p.atomic then
    match p.ret with
    | some (v, e) => .got v.toNat e s
    | none => .notYet s
  else if isGsram pa || isBarrierWin pa then
    match p.ret with
    | some (v, e) => .got v.toNat e (s.modBank b fun k => { k with pend := some { p with ret := none } })
    | none =>
      if s.gsram.any fun g => g.b == b && g.pa == pa && !g.write && !g.atomic then .notYet s
      else
        .notYet (s.sendG { b := b, pa := pa, n := p.width, write := false, v := 0, poison := false })
  else if isWindow pa then
    match s.serve (agentRecord b) (b + 1) ((s.bank b).part % 16) (s.readLegs (bankDie b) pa) with
    | (false, s1) => .notYet s1
    | (true, s1) => .got (leNat ((List.range p.width).map fun j => s.windowByte b (pa + j))) false s1
  else
    let c := bankCore b
    let l := pa / 64
    let x := s.line c l
    if s.throughAhead b pa p.width || s.unreleased (some b) (.core c) pa then .notYet s
    else if x.st.loadHits then
      .got (lineVal x.data (pa % 64) p.width) (s.lineBad c (leafKey p.leaf) pa) ((s.touch c l).spoil pa (leafKey p.leaf))
    else if x.st = .i then .notYet (s.request b l .isD .getS (leafEv p.leaf))
    else .notYet s

/-- Write word i of a load to its register (R220, R222, R223). -/
def Bank.loaded (k : Bank) (p : Pend) (v : Nat) : Bank :=
  k.setReg (BitVec.ofNat 5 (p.d + p.i)) (extend p.signed p.width v)

/-- Go on with bank b's outstanding load for at most that many words: a word poisoned takes the trap with the count of
words loaded; the last word completes the instruction. -/
def State.loadGo (s : State) (b : Nat) : Nat → State
  | 0 => s
  | fuel + 1 =>
    match (s.bank b).pend with
    | none => s
    | some p =>
      match s.loadWord b p with
      | .notYet s1 => s1.owe (.loadDataReturn b)
      | .got v poison s1 =>
        if poison then
          let t := { accessTrap 8 0 p.h (p.va + p.width * p.i) with count := p.i }
          (s1.modBank b fun k => { k with pend := none }).takeTrap b t
        else
          let last := decide (p.n ≤ p.i + 1)
          let s2 := s1.modBank b fun k =>
            let k1 := k.loaded p v
            if last then { k1.advance 4 with pend := none } else { k1 with pend := some { p with i := p.i + 1, ret := none } }
          if last then s2 else s2.loadGo b fuel

/-- A load issues (R203, R221): it waits for the bank's own earlier stores to its bytes (DEDUCED, unsafe: log entry 50). -/
def startLoad (s : State) (a : Acc) (h : Nat) (d : BitVec 5) (n width : Nat) (signed : Bool) : Out :=
  if s.loadBehind s.cur a.pa (n * width) then stall s
  else
    let p : Pend := { d := d.toNat, n := n, i := 0, width := width, signed := signed, va := a.va, pa := a.pa,
                      leaf := a.leaf, h := h, atomic := false, shot := false, ret := none }
    .next ((s.modMe fun k => { k with pend := some p }).loadGo s.cur 8)

/-- The one load of `LD` and `LDA`: a load holds every later instruction of its bank (R221), so acquire order needs
nothing more (R205). -/
def loadOne (d : BitVec 5) (h t : BitVec 4) (off : BitVec 12) (s : State) : Out :=
  let w := typeBytes t
  withAccess s h.toNat (off.toNat * w) w w 1 fun a => startLoad s a h.toNat d 1 w (typeSigned t)

/-- `LD` (R220). -/
def execLd (d : BitVec 5) (h t : BitVec 4) (off : BitVec 12) (s : State) : Out := loadOne d h t off s

/-- `LDA` (R205, R220). -/
def execLda (d : BitVec 5) (h t : BitVec 4) (off : BitVec 12) (s : State) : Out := loadOne d h t off s

/-- `LDM` (R222) (DEDUCED, unsafe: log entry 50). -/
def execLdm (d : BitVec 5) (h : BitVec 4) (n : BitVec 3) (off : BitVec 12) (s : State) : Out :=
  let cnt := n.toNat + 1
  if 31 < d.toNat + n.toNat then trapNow s illegalOperand
  else withAccess s h.toNat (off.toNat * 8) (8 * cnt) 8 1 fun a => startLoad s a h.toNat d cnt 8 false

/-- LOAD_DATA_RETURN (R221): data for bank b's outstanding access has come. -/
def execLoadDataReturn (b : Nat) (s : State) : Out :=
  if !validBank b then .fault .noSuchAgent else .next (s.loadGo b 8)

/-! ### Posting to the store queue (R221) -/

/-- The number of a new store-queue entry, of the rows of an `LDQ` or of a fence, in program order. -/
def Bank.newGrp (k : Bank) : Nat :=
  ((k.posts.map fun p => p.grp) ++ (k.ldqs.map fun r => r.grp) ++ k.openFences.map fun f => f.2).foldl max 0 + 1

/-- Post an entry of bank b, and let it take its turns. -/
def State.post (s : State) (b : Nat) (p : Post) : State :=
  let i := (s.bank b).posts.length
  (s.modBank b fun k => { k with posts := k.posts ++ [p] }).owe (.storeAck b i)

/-- How a store to an address travels (R209, R268, R477). -/
def postKind (pa : Nat) : PostKind := if isGsram pa then .sram else if isWindow pa then .window else .line

/-- The entry of one store. -/
def mkPost (a : Acc) (pa n : Nat) (v : Word) (release : Bool) (grp : Nat) : Post :=
  { kind := postKind pa, pa := pa, n := n, data := v, release := release, ev := leafEv a.leaf, key := leafKey a.leaf,
    scope := leafScope a.leaf, grp := grp, shot := false, sent := false, done := false }

/-- `ST` and `STL` (R206, R220). -/
def storeOne (release : Bool) (a : BitVec 5) (h t : BitVec 4) (off : BitVec 12) (s : State) : Out :=
  let w := typeBytes t
  withAccess s h.toNat (off.toNat * w) w w 2 fun x =>
    if s.me.postsFull then stall s
    else finish (s.post s.cur (mkPost x x.pa w (s.reg a) release s.me.newGrp))

/-- `ST` (R220). -/
def execSt (a : BitVec 5) (h t : BitVec 4) (off : BitVec 12) (s : State) : Out := storeOne false a h t off s

/-- `STL` (R206, R220). -/
def execStl (a : BitVec 5) (h t : BitVec 4) (off : BitVec 12) (s : State) : Out := storeOne true a h t off s

/-- The words of an `STM` from register r + i, address pa + 8 i. -/
def State.postWords (s : State) (x : Acc) (r grp : Nat) : Nat → Nat → State
  | 0, _ => s
  | n + 1, i =>
    (s.post s.cur (mkPost x (x.pa + 8 * i) 8 (s.reg (BitVec.ofNat 5 (r + i))) false grp)).postWords x r grp n (i + 1)

/-- `STM` (R222): its words share one store-queue entry (R221). -/
def execStm (a : BitVec 5) (h : BitVec 4) (n : BitVec 3) (off : BitVec 12) (s : State) : Out :=
  let cnt := n.toNat + 1
  if 31 < a.toNat + n.toNat then trapNow s illegalOperand
  else withAccess s h.toNat (off.toNat * 8) (8 * cnt) 8 2 fun x =>
    if s.me.postsFull then stall s else finish (s.postWords x a.toNat s.me.newGrp cnt 0)

/-! ### Performing a store -/

/-- The row's metadata after a partial first write under a key (R220, R398, R444, R448). -/
def State.noteStore (s : State) (pa key : Nat) : State :=
  let m := s.rowMeta (pa / 256)
  s.setRowMeta (pa / 256) { m with poison := m.poison || !s.keyFits pa key, key := key, kv := s.keyVal pa key, rtag := 0,
                                   shift := s.keyShift pa key, chk := 0 }

/-- Write a post's bytes into its line at core c. -/
def State.putInLine (s : State) (c : Nat) (p : Post) (st : CState) : State :=
  let l := p.pa / 64
  let x := s.line c l
  let s1 := (s.setLine c l { x with st := st, data := linePut x.data (p.pa % 64) p.n p.data.toNat, used := s.counter }).noteStore
    p.pa p.key
  if x.poison then s1.setRowMeta (p.pa / 256) { s1.rowMeta (p.pa / 256) with poison := true } else s1

/-- What a turn of an entry does: it is performed; it has been sent; it waits. -/
inductive Turned where
  | performed (s : State)
  | sent (s : State)
  | waits (s : State)

/-- A dirty line whose page has become engine-visible sends its bytes to its home before the line becomes clean, for the bank that
b names as in a message (R202, R277) (DEDUCED, unsafe: log entry 77). -/
def State.cleanLine (s : State) (c l b : Nat) : State :=
  let x := s.line c l
  s.send { kind := .wthru 0 0 0, core := c, line := l, data := x.data, ev := false, b := b, poison := x.poison, whole := true }

/-- A store to cached memory takes a turn (R273, R277). On an engine-visible page the bytes go to the home too, and the
entry stays until the home acknowledges them. -/
def State.storeLine (s : State) (b : Nat) (p : Post) : Turned :=
  let c := bankCore b
  let l := p.pa / 64
  match (s.line c l).st with
  | .m | .e =>
    if p.ev then
      let v := BitVec.ofNat 64 (p.data.toNat % 2 ^ (8 * p.n))
      let s := if (s.line c l).st = .m then s.cleanLine c l (b + 1) else s
      .sent (((s.putInLine c p .e).lineLeft c l (some b)).send
        { kind := .wthru (p.pa % 64) p.n v, core := c, line := l, data := 0, ev := true, b := b + 1 })
    else .performed ((s.putInLine c p .m).lineLeft c l (some b))
  | .s => .waits (s.request b l .smD .upg p.ev)
  | .o => .waits (s.request b l .omD .upg p.ev)
  | .i => .waits (s.request b l .imD .getX p.ev)
  | .isD | .imD | .smD | .omD | .xiA => .waits s

/-- The write that a store of n bytes to a class-0xF window makes there: none where the window ignores it (R303, R346). -/
def winWrite (b : Option Nat) (host : Bool) (pa n : Nat) (v : Word) : Option WinWrite :=
  if isNotifyWin pa then
    let q := pa % 2 ^ 40 / 64
    if pa % 64 = 0 ∧ (n = 4 ∨ n = 8) ∧ q < 1024 then some { b := b, host := host, wake := false, n := q, v := v, pa := pa } else none
  else if isWakeWin pa then
    if n = 8 ∧ pa % 256 = 0 then some { b := b, host := host, wake := true, n := pa / 256 % 2 ^ 24, v := v, pa := pa } else none
  else none

/-- A store to a class-0xF window takes its turn (R303, R346, R373, R468, R477): to host memory it is written once its units have
started, in the bank's order; a write that a window takes goes on its way there. -/
def State.storeWindow (s : State) (b : Nat) (p : Post) : Turned :=
  if isHostWin p.pa then
    if (s.bank b).posts.any fun q => q.kind == .window && isHostWin q.pa && decide (q.grp < p.grp) then .waits s
    else match s.serve (agentStore b) (b + 1) ((s.bank b).part % 16) (s.wayTo .request (bankDie b) (memDie p.pa)) with
      | (false, s1) => .waits s1
      | (true, s1) => .performed { s1 with hostMem := putBytes s1.hostMem (s1.hostAddr p.pa) (natLE p.n p.data.toNat) }
  else match winWrite (some b) false p.pa p.n p.data with
    | some w => .sent (s.sendWin w)
    | none => .performed s

/-- Whether an access that precedes entry i of bank k in program order is not yet performed. -/
def Bank.undone (k : Bank) (i : Nat) (p : Post) : Bool :=
  ((k.posts.take i).any fun q => !q.done) || k.ldqs.any fun r => decide (r.grp < p.grp)

/-- The open fences before an entry. -/
def Bank.fencesOf (k : Bank) (p : Post) : List (Nat × Nat) := k.openFences.filter fun f => decide (f.2 < p.grp)

/-- Whether entry i of bank b must wait for accesses that precede it (R203, R206, R207, R371). -/
def State.postBlocked (s : State) (b i : Nat) (p : Post) : Bool :=
  let k := s.bank b
  ((k.posts.take i).any fun q => !q.done && s.overlap q.pa q.n p.pa p.n) ||
  (k.ldqs.any fun r => decide (r.grp < p.grp) && s.overlap r.pa 256 p.pa p.n) ||
  ((p.release || p.kind == .event || k.fencesOf p != []) && !p.early && k.undone i p)

/-- The scope within which entry p waits: its page's for a release, that of a fence before it (R198). -/
def Bank.holdScope (k : Bank) (p : Post) : Nat := (k.fencesOf p).foldl (fun n f => max n f.1) (if p.release then p.scope else 0)

/-- Whether the release, or the store behind a fence, at entry i of bank b may be seen outside its scope before what it waits for
(R198): it is ready but for that, to a line that its core owns, no engine reads it through its home, and nothing that it waits
for touches that line (DESIGN CHOICE, safe: log entry 71). -/
def State.mayRelease (s : State) (b i : Nat) (p : Post) : Bool :=
  let k := s.bank b
  let st := (s.line (bankCore b) (p.pa / 64)).st
  (p.release || k.fencesOf p != []) && p.kind == .line && !p.ev && !p.early && decide (k.holdScope p ≤ 2) &&
  (st == .m || st == .e) && k.ldqs.isEmpty &&
  ((k.posts.take i).all fun q => q.done || s.frameOf q.pa / 64 != s.frameOf p.pa / 64) &&
  s.atomics.all fun r => s.frameOf r.pa / 64 != s.frameOf p.pa / 64

/-- Remove entry i. -/
def Bank.dropPost (k : Bank) (i : Nat) : Bank := { k with posts := k.posts.eraseIdx i }

def Bank.setPost (k : Bank) (i : Nat) (p : Post) : Bank := { k with posts := k.posts.set i p }

/-- An entry of bank b takes its turn. -/
def State.turnPost (s : State) (b : Nat) (p : Post) : Turned :=
  match p.kind with
  | .line => s.storeLine b p
  | .sram =>
    let g : GReq := { b := b, pa := p.pa, n := p.n, write := true, v := p.data, poison := false }
    .sent (s.sendG g)
  | .window => s.storeWindow b p
  | .atomic => .waits s
  | .event =>
    let e : Event := { b := b, part := (s.bank b).part, target := p.data, no := s.nextNo }
    let j := s.events.length
    .sent (({ s with events := s.events ++ [e], sends := s.nextNo } : State).owe (.eventArrival j))

/-- Entry i of bank b is performed: it is freed, a release that went early once what it releases is performed (R198, R221). -/
def State.performed (s : State) (b i : Nat) (p : Post) : State :=
  if p.early && (s.bank b).undone i p then s.modBank b fun k => k.setPost i { p with sent := true, done := true }
  else s.modBank b fun k => k.dropPost i

/-- Entry i of bank b acts, in a state in which nothing holds it back. -/
def State.actPost (s : State) (b i : Nat) (p : Post) : State :=
  match s.turnPost b p with
  | .performed s2 => s2.performed b i p
  | .sent s2 => s2.modBank b fun k => k.setPost i { p with sent := true }
  | .waits s2 => s2

/-- STORE_ACK (R198, R221): entry i of bank b's store queue takes a turn: it is sent or performed, or its acknowledgement
frees it. While an entry stands at i it is owed another turn. -/
def execStoreAck (b i : Nat) (s : State) : Out :=
  if !validBank b then .fault .noSuchAgent
  else
    let k := s.bank b
    match k.posts[i]? with
    | none => .next s
    | some p =>
      let s1 : State :=
        if p.done then if p.early && k.undone i p then s else s.modBank b fun k => k.dropPost i
        else if p.sent then s
        else if !s.postBlocked b i p then s.actPost b i p
        else if s.mayRelease b i p && !s.postBlocked b i { p with early := true } && Config.releaseEarly s.free then
          s.tickFree.actPost b i { p with early := true, scope := k.holdScope p }
        else if s.mayRelease b i p then s.tickFree
        else s
      .next (if i < (s1.bank b).posts.length then s1.owe (.storeAck b i) else s1)

/-- Mark performed the first entry of bank b that a home has answered. -/
def Bank.ackPost (k : Bank) (f : Post → Bool) : Bank :=
  match k.posts.findIdx? fun p => p.sent && !p.done && f p with
  | some i => { k with posts := k.posts.modify i fun p => { p with done := true } }
  | none => k

/-! ### Writes of the notify and the wake window (R303, R346) -/

/-- The first such write on its way, with its place. -/
def State.findWin (s : State) (wake : Bool) (n : Nat) (v : Word) : Option (Nat × WinWrite) :=
  (s.winWrites.findIdx? fun w => w.wake == wake && w.n == n && w.v == v).bind fun i => s.winWrites[i]?.map fun w => (i, w)

/-- A write of the host waits for those that the host sent before it (R217). -/
def State.hostAhead (s : State) (w : WinWrite) : Bool :=
  w.host &&
  ((s.bulk.any fun y => y.data != [] && y.who == .host && decide (y.no < w.no)) ||
   s.winWrites.any fun y => y.host && decide (y.no < w.no))

/-- The store of which a window write is made is performed. -/
def State.ackWin (s : State) (w : WinWrite) : State :=
  match w.b with
  | some b => s.modBank b fun k => k.ackPost fun p => p.kind == .window && p.pa == w.pa && p.data == w.v
  | none => s

/-- The write that an event names arrives and does `f`: one on its way once its units have started, after what it follows; with
none on its way the write comes from outside the machine. -/
def State.takeWin (s : State) (wake : Bool) (n : Nat) (v : Word) (f : State → State) : State :=
  let again (s : State) : State := s.owe (if wake then .wakeWrite n v else .notifyRegisterWrite n v)
  match s.findWin wake n v with
  | none => f s
  | some (i, w) =>
    if s.hostAhead w then again s
    else if s.arrives (s.winFoot w) then
      let s1 := f (({ s with winWrites := s.winWrites.eraseIdx i } : State).ackWin w)
      if (s1.findWin wake n v).isSome then again s1 else s1
    else
      let k := s.stride (s.winFoot w)
      again { s with winWrites := s.winWrites.modify i fun w => { w with hop := w.hop + k } }

/-! ### Atomics (R223 to R225, R379) -/

/-- The places of a home's queue of atomics (R379). -/
def atomicCap (pa : Nat) : Nat := if isGsram pa then 16 else if isHbm pa then 256 else 64

/-- A place at a home's queue of atomics, held or asked for: arrival and first refusal (R379). -/
structure QPlace where
  arr : Nat
  refused : Nat
  deriving DecidableEq, Repr

/-- The places of a home's queue, and the atomics that ask for one (R379). -/
def State.places (s : State) (home : Nat) : List QPlace :=
  ((s.atomics.filter fun r => atomicHome r.b r.pa == home).map fun r => { arr := r.arr, refused := r.refused }) ++
  ((s.gsram.filter fun g => g.atomic && atomicHome g.b g.pa == home).map fun g => { arr := g.arr, refused := g.refused })

/-- What an atomic that reaches its home meets there (R325, R326, R379). -/
inductive Admission where
  | accepted (s : State) (arr : Nat)
  | refused (s : State) (first : Nat)
  | later

/-- An atomic of bank b that holds no place reaches its home: while its source's atomics are refused it goes later; a full
queue, and a place kept for one refused before it, refuse it (R326, R379). -/
def State.seatAtomic (s : State) (b pa first : Nat) : Admission :=
  let home := atomicHome b pa
  let src := srcCore (bankCore b)
  let ps := s.places home
  if s.isRefused src home .atomic then .later
  else if decide (atomicCap pa ≤ (ps.filter fun p => p.arr != 0).length) ||
      ps.any fun p => p.arr == 0 && p.refused != 0 && (first == 0 || decide (p.refused < first)) then
    let s1 := s.refuse src home .atomic
    if first = 0 then .refused { s1 with arrivals := s1.arrivals + 1 } (s1.arrivals + 1) else .refused s1 first
  else .accepted { s with arrivals := s.arrivals + 1 } (s.arrivals + 1)

/-- Whether an atomic that arrived before number n stands at the home (R379). -/
def State.placeAhead (s : State) (home n : Nat) : Bool := (s.places home).any fun p => p.arr != 0 && decide (p.arr < n)

/-- Send an atomic to its home: a counting barrier's word is served by dispatch (R373), every other by R379. -/
def State.sendAtomic (s : State) (a : Acc) (w64 : Bool) (op : Nat) (v expect : Word) : State :=
  if isBarrierWin a.pa then
    let add := op == 0 && !w64 && a.pa % 8 == 0 && (a.pa / 512) % 2 == 0
    let g : GReq := { b := s.cur, pa := a.pa, n := if w64 then 8 else 4, write := add, v := v, poison := false, atomic := true }
    s.sendG g
  else
    let r : AReq := { b := s.cur, pa := a.pa, w64 := w64, op := op, v := v, expect := expect, key := leafKey a.leaf,
                      ev := leafEv a.leaf, no := s.nextNo }
    let i := s.atomics.length
    ({ s with atomics := s.atomics ++ [r], sends := s.nextNo } : State).owe (.homeAtomic i)

/-- The shared part of `ATOM` and `CAS`: a window other than the barrier window is a hole to them (R468, R477). -/
def atomicOp (d : BitVec 5) (h : BitVec 4) (sz : Bool) (off : BitVec 7) (op : Nat) (signed : Bool) (v expect : Word)
    (s : State) : Out :=
  let w := if sz then 8 else 4
  withAccess s h.toNat (off.toNat * w) w w 3 fun a =>
    if isWindow a.pa && !isBarrierWin a.pa then trapNow s (pageFault 4 h.toNat a.va)
    else if s.me.postsFull || s.loadBehind s.cur a.pa w || s.throughAhead s.cur a.pa w ||
        s.unreleased (some s.cur) (.core (bankCore s.cur)) a.pa then stall s
    else
      let p : Pend := { d := d.toNat, n := 1, i := 0, width := w, signed := signed, va := a.va, pa := a.pa,
                        leaf := a.leaf, h := h.toNat, atomic := true, shot := false, ret := none }
      let e : Post := { mkPost a a.pa w v false s.me.newGrp with kind := .atomic, sent := true }
      .next (((s.post s.cur e).modMe fun k => { k with pend := some p }).sendAtomic a sz op v expect)

/-- `ATOM` (R36, R223). -/
def execAtom (d : BitVec 5) (h : BitVec 4) (b : BitVec 5) (op : BitVec 4) (sz : Bool) (off : BitVec 7) (s : State) : Out :=
  atomicOp d h sz off op.toNat (op = 0 ∨ op = 4 ∨ op = 5) (s.reg b) 0 s

/-- `CAS` (R36, R224): the expected value comes from dst. -/
def execCas (d : BitVec 5) (h : BitVec 4) (b : BitVec 5) (sz : Bool) (off : BitVec 7) (s : State) : Out :=
  atomicOp d h sz off 16 false (s.reg b) (s.reg d) s

/-- The value that an atomic writes over `old`, both of w bytes: none when it writes nothing (R223, R224). -/
def atomicNew (op w : Nat) (old v expect : Nat) : Option Nat :=
  let m := 2 ^ (8 * w)
  let so := sgn (8 * w) old
  let sv := sgn (8 * w) v
  match op with
  | 0 => some ((old + v) % m)
  | 1 => some (Nat.land old v)
  | 2 => some (Nat.lor old v)
  | 3 => some (Nat.xor old v)
  | 4 => some (if sv < so then v else old)
  | 5 => some (if so < sv then v else old)
  | 6 => some (Nat.min old v)
  | 7 => some (Nat.max old v)
  | 8 => some v
  | _ => if old = expect then some v else none

/-! ### Fences (R207, R226) -/

/-- Use a handle for no right, then go on (R219, R226) (DESIGN CHOICE, safe: log entry 16). -/
def withFence (s : State) (h : BitVec 4) (f : Handle → Out) : Out :=
  match s.useHandle s.cur h.toNat 0 0 with
  | .trap t => trapNow s t
  | .wait s' => stall s'
  | .ok x => f x

/-- `FENCE` (R198, R207, R226): it waits until every earlier access is performed. Within the scope of a core, a cluster or a die
it may, as a free value chooses, go on before that for agents outside the scope alone (DESIGN CHOICE, safe: log entry 71). -/
def execFence (h : BitVec 4) (s : State) : Out :=
  withFence s h fun x =>
    if s.me.quiet then finish s
    else if decide (leafScope x.leaf ≤ 2) && !s.me.fencing && Config.releaseEarly s.free then
      finish (s.tickFree.modMe fun k => { k with fences := [(leafScope x.leaf, k.newGrp)] })
    else stall s.tickFree

/-- `FENCE.ifetch` (R64, R226): the instruction-cache lines of the handle's page go. -/
def execFenceIfetch (h : BitVec 4) (s : State) : Out :=
  withFence s h fun x =>
    let lo := leafFrame x.leaf * 1024
    let n := pageBytes x.size / 64
    finish (s.modCore (bankCore s.cur) fun c =>
      { c with icache := c.icache.filter fun p => !(decide (lo ≤ p.1) && decide (p.1 < lo + n)) })

/-! ### LDQ (R229, R230) -/

/-- Ask for the n rows from pa into slots from `slot`. -/
def State.postRows (s : State) (q key grp : Nat) : Nat → Nat → Nat → State
  | 0, _, _ => s
  | n + 1, slot, pa =>
    let i := s.me.ldqs.length
    let r : LdqRow := { q := q, slot := slot, pa := pa, key := key, grp := grp, shot := false }
    State.postRows ((s.modMe fun k => { k with ldqs := k.ldqs ++ [r] }).owe (.ldqRowArrival s.cur i)) q key grp n (slot + 1)
      (pa + 256)

/-- `LDQ` (R35, R230). -/
def execLdq (q : BitVec 5) (h n : BitVec 4) (off : BitVec 12) (s : State) : Out :=
  let cnt := n.toNat + 1
  if 3 < q.toNat then trapNow s illegalOperand
  else withAccess s h.toNat (off.toNat * 256) (256 * cnt) 256 1 fun a =>
    if isWindow a.pa then trapNow s (pageFault 4 h.toNat a.va)
    else if s.storeAhead s.cur a.pa (256 * cnt) || !s.me.canReserve q.toNat cnt then stall s
    else
      let v := (s.me.queue q.toNat).rsv
      finish ((s.modMe fun k => k.reserve q.toNat cnt).postRows q.toNat (leafKey a.leaf) s.me.newGrp cnt v a.pa)

/-- A row as a sequencer reads it coherently, and its poison. -/
def State.coherentRow (s : State) (b key pa : Nat) : Row × Bool :=
  let xs := (List.range 256).map fun i => s.recordByte b key (pa + i)
  (BitVec.ofNat 2048 (leNat (xs.map fun x => x.1)), xs.any fun x => x.2)

/-- Whether row i of bank b's `LDQ` rows is not sent yet: a row asked for before it holds the same bytes (R203), its row is
tentative (R323), or a release that its core may not yet see stands on one of its lines (R198). -/
def State.rowWaits (s : State) (b i : Nat) (r : LdqRow) : Bool :=
  (((s.bank b).ldqs.take i).any fun q => s.overlap q.pa 256 r.pa 256) ||
  s.tentAt r.pa || (isGsram r.pa && s.tentCell (gsramKey r.pa)) ||
  [0, 1, 2, 3].any fun j => s.unreleased (some b) (.core (bankCore b)) (r.pa + 64 * j)

def Bank.setLdq (k : Bank) (i : Nat) (r : LdqRow) : Bank := { k with ldqs := k.ldqs.set i r }

/-- The lines of a row that a core's own cache holds are its latest (R230, R462). -/
def State.touchRow (s : State) (c pa : Nat) : State :=
  (linesOf pa 256).foldl (fun s l => if isCached pa && (s.line c l).st.loadHits then s.touch c l else s) s

/-- By how much the check value that a whole row carries differs from its contents' (R444). -/
def State.rowDeviation (s : State) (pa : Nat) : BitVec 32 :=
  if isGsram pa then (s.cell (gsramKey pa)).chk else (s.rowMeta (pa / 256)).chk

/-- The row fills its slot, with the check value that it brings (R444). -/
def State.fillLdq (s : State) (b i : Nat) (r : LdqRow) (x : Row × Bool) (chk : BitVec 32) : Out :=
  let s1 := (s.touchRow (bankCore b) r.pa).modBank b fun k =>
    { k.fillSlot r.q r.slot x.1 x.2 chk with ldqs := k.ldqs.eraseIdx i }
  .next (if i < (s1.bank b).ldqs.length then s1.owe (.ldqRowArrival b i) else s1)

/-- LDQ_ROW_ARRIVAL (R203, R229, R230, R272, R318, R326): row i of bank b's outstanding `LDQ` rows is sent, reaches its home, is
read there in its turn, and fills its slot, poisoned if it arrives so. -/
def execLdqRowArrival (b i : Nat) (s : State) : Out :=
  if !validBank b then .fault .noSuchAgent
  else
    match (s.bank b).ldqs[i]? with
    | none => .next s
    | some r0 =>
      let again (s : State) (r : LdqRow) : Out := .next ((s.modBank b fun k => k.setLdq i r).owe (.ldqRowArrival b i))
      let r := if r0.no = 0 then { r0 with no := s.nextNo } else r0
      let s0 : State := if r0.no = 0 then { s with sends := s.nextNo } else s
      if r0.no = 0 && s.rowWaits b i r0 then .next (s.owe (.ldqRowArrival b i))
      else if r.arr = 0 && (s.isRefused (srcCore (bankCore b)) (homeOf r.pa) .request || !s.arrives (s.ldqFoot b r)) then
        again s0 { r with hop := r.hop + s.stride (s.ldqFoot b r) }
      else
        let n := s0.arrNum r.arr
        let s1 := s0.countArr r.arr
        if s1.ahead n (if isCached r.pa then linesOf (s.frameOf r.pa) 256 else []) || s.rowWaits b i r0 then again s1 { r with arr := n }
        else match s1.pullEgress (bankCore b) r.pa with
          | .ok s2 => (s2.spoil r.pa r.key).fillLdq b i r (s2.coherentRow b r.key r.pa) (s2.rowDeviation r.pa)
          | .wait s2 => again s2 { r with arr := n }
          | .capped => s1.fillLdq b i r (0, true) 0

end Sys2Proof.Machine
end

