-- ==== Sys2Proof/Machine/Nest.lean ====
section
/-! DEFINITION. The nest of a copy (spec/12 R244 to R250) and the rows that a multicast has still to write (R258). -/

namespace Sys2Proof.Machine

/-! ### Endpoints and records (R244, R246, R247) -/

def epSlot (e : Word) : Nat := bits e 50 48
def epHU (e : Word) : Bool := bit e 47
def epH (e : Word) : Nat := bits e 43 40
def epRow (e : Word) : Int := sgn 40 (bits e 39 0)

/-- Reserved bits of an endpoint register are zero. -/
def epOk (e : Word) : Bool := bits e 63 51 == 0 && bits e 46 44 == 0

def recDepth (r : BitVec 512) : Nat := bits r 386 384
def recSpace (r : BitVec 512) : Nat := bits r 390 388
def recBound (r : BitVec 512) (l : Nat) : Nat := bits r (240 + 24 * l + 23) (240 + 24 * l)
def recCoef (r : BitVec 512) (l : Nat) : Int := sgn 40 (bits r (40 * l + 39) (40 * l))

/-! ### Points (R86, R249) -/

/-- The product of the bounds of levels from..DEPTH-1 of a nest: the points of one iteration outside them. -/
def pointsFrom (r : BitVec 512) (from' : Nat) : Nat :=
  ((List.range (recDepth r)).filter fun l => from' ≤ l).foldl (fun n l => n * recBound r l) 1

/-- The number of points of a nest. -/
def pointCount (r : BitVec 512) : Nat := pointsFrom r 0

/-- Loop index l of point n, the innermost level fastest. -/
def pointIx (r : BitVec 512) (n l : Nat) : Nat :=
  if l < recDepth r then n / pointsFrom r (l + 1) % recBound r l else 0

/-- The sum of coefficients and indices (R249), exactly. -/
def rowSum (r : BitVec 512) (row : Int) (lx : Nat → Nat) : Int :=
  row + recCoef r 0 * lx 0 + recCoef r 1 * lx 1 + recCoef r 2 * lx 2 + recCoef r 3 * lx 3 + recCoef r 4 * lx 4 +
    recCoef r 5 * lx 5

/-- The least and greatest row sum over a nest with points (R251). -/
def rowSpan (r nest : BitVec 512) (row : Int) : Int × Int :=
  (List.range (recDepth nest)).foldl (fun p l =>
    let d := recCoef r l * ((recBound nest l : Int) - 1)
    (p.1 + min 0 d, p.2 + max 0 d)) (row, row)

/-! ### In use (R258) -/

/-- Whether a point of a multicast that has not landed will write cluster row `row`. -/
def CopyRun.willWrite (c : CopyRun) (row : Nat) : Bool :=
  (List.range (pointCount c.recD - c.n)).any fun i =>
    rowSum c.recD (epRow c.d) (pointIx c.recD (c.n + i)) == (row : Int)

/-- Whether the row of cluster SRAM with this key is in use by an open landing window. -/
def State.inUse (s : State) (key : Nat) : Bool :=
  key % 2 == 1 &&
  (let row := key / 2 % 32768
   (s.cluster (key / 2 / 32768)).windows.any fun w =>
     decide (w.lo ≤ row) && decide (row ≤ w.hi) && (match (s.bank w.b).copy with
       | some c => c.willWrite row
       | none => false))

/-- Causes from here on stand for the in-use trap of a row, not a row-range trap. -/
def inUseBase : Nat := 2 ^ 20

/-- A row that a word may touch: not one in use. -/
def State.freeKey (s : State) (e : Except Nat Nat) : Except Nat Nat :=
  match e with
  | .ok key => if s.inUse key then .error (inUseBase + 1 + 2 ^ 16 + key / 2 % 32768) else .ok key
  | .error c => .error c

end Sys2Proof.Machine
end

