-- ==== Sys2Proof/Machine/Num.lean ====
section
/-! DEFINITION. Number formats, exact values, rounding and conversion (spec/05 R102 to R122), the base-2 exponential
and the other correctly rounded functions of spec/07 R141, and `prob` of spec/09 R183. -/

namespace Sys2Proof.Num

/-! ### Formats (R104) -/

/-- A floating-point format: width, mantissa bits, bias, and the magnitude codes of its largest finite value, of
infinity and of its canonical NaN (R104, R109). -/
structure Fmt where
  w : Nat
  m : Nat
  bias : Nat
  maxfin : Nat
  inf : Option Nat
  nan : Option Nat
  deriving DecidableEq, Repr

def f32 : Fmt := { w := 32, m := 23, bias := 127, maxfin := 0x7F7FFFFF, inf := some 0x7F800000, nan := some 0x7FC00000 }
def f16 : Fmt := { w := 16, m := 10, bias := 15, maxfin := 0x7BFF, inf := some 0x7C00, nan := some 0x7E00 }
def bf16 : Fmt := { w := 16, m := 7, bias := 127, maxfin := 0x7F7F, inf := some 0x7F80, nan := some 0x7FC0 }
def e4m3 : Fmt := { w := 8, m := 3, bias := 7, maxfin := 0x7E, inf := none, nan := some 0x7F }
def e5m2 : Fmt := { w := 8, m := 2, bias := 15, maxfin := 0x7B, inf := some 0x7C, nan := some 0x7E }
def e2m1 : Fmt := { w := 4, m := 1, bias := 1, maxfin := 7, inf := none, nan := none }

/-- The format of a floating-point type code (R28); none for an integer or untyped code. -/
def fmtOf (t : Nat) : Option Fmt :=
  match t with
  | 1 => some f32 | 2 => some f16 | 3 => some bf16 | 4 => some e4m3 | 5 => some e5m2 | 6 => some e2m1 | _ => none

/-- The width in bits of a type code (R28); 0 for untyped and reserved codes. -/
def widthOf (t : Nat) : Nat :=
  match t with
  | 1 => 32 | 2 => 16 | 3 => 16 | 4 => 8 | 5 => 8 | 6 => 4
  | 7 => 8 | 8 => 16 | 9 => 32 | 10 => 64 | 11 => 8 | 12 => 16 | 13 => 32 | 14 => 64 | _ => 0

/-- Whether an integer type code is signed (R108). -/
def signedOf (t : Nat) : Bool := 7 ≤ t && t ≤ 10

/-- Class F of R52. -/
def isF (t : Nat) : Bool := t == 1 || t == 2 || t == 3

/-- Class I of R52. -/
def isI (t : Nat) : Bool := 7 ≤ t && t ≤ 14

/-! ### Exact values (R105) -/

/-- An exact real with the special values: NaN, an infinity, or (-1)^neg * m * 2^e, where m = 0 is a signed zero. -/
inductive FV where
  | nan
  | inf (neg : Bool)
  | fin (neg : Bool) (m : Nat) (e : Int)
  deriving DecidableEq, Repr

def signBit (f : Fmt) (x : Nat) : Bool := Nat.testBit x (f.w - 1)

def magOf (f : Fmt) (x : Nat) : Nat := x % 2 ^ (f.w - 1)

def isNaNCode (f : Fmt) (x : Nat) : Bool :=
  match f.inf, f.nan with
  | some i, _ => decide (i < magOf f x)
  | none, some n => magOf f x == n
  | none, none => false

/-- The value of an encoding (R105). -/
def value (f : Fmt) (x : Nat) : FV :=
  let mg := magOf f x
  if isNaNCode f x then .nan
  else if f.inf = some mg then .inf (signBit f x)
  else
    let ex := mg / 2 ^ f.m
    let mant := mg % 2 ^ f.m
    if ex = 0 then .fin (signBit f x) mant (1 - (f.bias : Int) - f.m)
    else .fin (signBit f x) (2 ^ f.m + mant) ((ex : Int) - f.bias - f.m)

def FV.isNaN : FV → Bool
  | .nan => true
  | _ => false

def FV.isZero : FV → Bool
  | .fin _ 0 _ => true
  | _ => false

def FV.neg : FV → FV
  | .nan => .nan
  | .inf n => .inf (!n)
  | .fin n m e => .fin (!n) m e

def FV.abs : FV → FV
  | .nan => .nan
  | .inf _ => .inf false
  | .fin _ m e => .fin false m e

/-- An exact value from an integer (R118). -/
def FV.ofInt (v : Int) : FV := .fin (decide (v < 0)) v.natAbs 0

/-- Multiply by a power of two. -/
def FV.scale (x : FV) (k : Int) : FV :=
  match x with
  | .fin n m e => .fin n m (e + k)
  | y => y

/-! ### Rounding (R114, R115) -/

/-- Rounding modes with the codes of FRM (R114). -/
inductive Mode where
  | rne | rtz | rdn | rup
  deriving DecidableEq, Repr

def Mode.ofFrm (x : Nat) : Mode :=
  match x with
  | 0 => .rne | 1 => .rtz | 2 => .rdn | _ => .rup

/-- Whether the magnitude is rounded up, from the parity of the truncated integer, the comparison of the rest with
one half, and whether any rest is left. -/
def roundsUp (mode : Mode) (neg odd : Bool) (half : Ordering) (inexact : Bool) : Bool :=
  match mode with
  | .rne => half == .gt || (half == .eq && odd)
  | .rtz => false
  | .rdn => neg && inexact
  | .rup => !neg && inexact

/-- m * 2^(-sh), and strictly more when `sticky`, rounded to an integer magnitude (R114). -/
def rndMag (mode : Mode) (neg : Bool) (m sh : Nat) (sticky : Bool) : Nat :=
  let q := m / 2 ^ sh
  let r := m % 2 ^ sh
  let half : Ordering :=
    if sh = 0 then .lt
    else match compare r (2 ^ (sh - 1)) with
      | .eq => if sticky then .gt else .eq
      | o => o
  if roundsUp mode neg (q % 2 == 1) half (decide (0 < r) || sticky) then q + 1 else q

/-- The code of an infinite or overflowing result (R115). For E4M3 a negative overflow gives -NaN, 0xFF, as the worked
conversion of minus infinity under `rdn` in spec/05 shows (DEDUCED, log entry 6). -/
def overflow (f : Fmt) (mode : Mode) (sat : Bool) (neg : Bool) : Nat :=
  let big := if sat then f.maxfin else match f.inf, f.nan with
    | some i, _ => i
    | none, some n => n
    | none, none => f.maxfin
  let sgn := if neg then 2 ^ (f.w - 1) else 0
  let toBig := match mode with
    | .rne => true | .rtz => false | .rdn => neg | .rup => !neg
  if toBig then sgn + big else sgn + f.maxfin

/-- The code of a NaN result (R109); E2M1 has none and gives 0. -/
def nanCode (f : Fmt) : Nat := f.nan.getD 0

/-- Round the exact magnitude m * 2^e (more when `sticky`) into a format (R115). Callers that set `sticky` give m at
least two bits more than the mantissa needs. -/
def roundMag (f : Fmt) (mode : Mode) (sat : Bool) (neg : Bool) (m : Nat) (e : Int) (sticky : Bool) : Nat :=
  let sgn := if neg then 2 ^ (f.w - 1) else 0
  if m = 0 then sgn
  else
    let emin : Int := 1 - (f.bias : Int)
    let ex : Int := max ((Nat.log2 m : Int) + e) emin
    let sh : Int := ex - f.m - e
    let y := if sh ≤ 0 then m * 2 ^ (-sh).toNat else rndMag mode neg m sh.toNat sticky
    let code := (ex - emin).toNat * 2 ^ f.m + y
    if f.maxfin < code then overflow f mode sat neg else sgn + code

/-- round(x, fmt, mode, sat) of R115, as an encoding (DEDUCED, unsafe: log entry 6). -/
def round (f : Fmt) (mode : Mode) (sat : Bool) (x : FV) : Nat :=
  match x with
  | .nan => nanCode f
  | .inf n => match f.inf with
    | some i => (if n then 2 ^ (f.w - 1) else 0) + i
    | none => overflow f mode sat n
  | .fin n m e => roundMag f mode sat n m e false

/-! ### Exact arithmetic (R110, R111) -/

/-- The signed integer of a finite value at exponent e, which is at most its own. -/
def alignTo (n : Bool) (m : Nat) (e0 e : Int) : Int :=
  let v : Int := (m * 2 ^ (e0 - e).toNat : Nat)
  if n then -v else v

/-- The exact sum; an exact zero of operands of opposite sign is +0, or -0 when rounding down (R111). -/
def add (mode : Mode) (x y : FV) : FV :=
  match x, y with
  | .nan, _ => .nan
  | _, .nan => .nan
  | .inf a, .inf b => if a = b then .inf a else .nan
  | .inf a, _ => .inf a
  | _, .inf b => .inf b
  | .fin n1 m1 e1, .fin n2 m2 e2 =>
    let e := min e1 e2
    let s := alignTo n1 m1 e1 e + alignTo n2 m2 e2 e
    if s = 0 then
      if n1 = n2 then .fin n1 0 0 else .fin (mode == .rdn) 0 0
    else .fin (decide (s < 0)) s.natAbs e

def sub (mode : Mode) (x y : FV) : FV := add mode x y.neg

/-- The exact product (R110, R111). -/
def mul (x y : FV) : FV :=
  match x, y with
  | .nan, _ => .nan
  | _, .nan => .nan
  | .inf a, .inf b => .inf (a != b)
  | .inf a, .fin n m _ => if m = 0 then .nan else .inf (a != n)
  | .fin n m _, .inf b => if m = 0 then .nan else .inf (n != b)
  | .fin n1 m1 e1, .fin n2 m2 e2 => .fin (n1 != n2) (m1 * m2) (e1 + e2)

/-- Compare two values that are not NaN; zeros are equal (R112). -/
def cmp (x y : FV) : Ordering :=
  match x, y with
  | .inf a, .inf b => if a = b then .eq else if a then .lt else .gt
  | .inf a, _ => if a then .lt else .gt
  | _, .inf b => if b then .gt else .lt
  | .fin n1 m1 e1, .fin n2 m2 e2 =>
    let e := min e1 e2
    compare (alignTo n1 m1 e1 e) (alignTo n2 m2 e2 e)
  | _, _ => .eq

/-- A result whose sign the rounding mode fixes when an exact sum is zero: one rounding of a sum. -/
def addR (f : Fmt) (mode : Mode) (x y : FV) : Nat := round f mode false (add mode x y)

/-! ### Conversions (R117 to R121) -/

/-- From floating point to an integer of range [lo, hi] (R119). -/
def toInt (mode : Mode) (lo hi : Int) (x : FV) : Int :=
  match x with
  | .nan => 0
  | .inf n => if n then lo else hi
  | .fin n m e =>
    let mag : Nat := if 0 ≤ e then m * 2 ^ e.toNat else rndMag mode n m (-e).toNat false
    let t : Int := if n then -(mag : Int) else mag
    min (max t lo) hi

/-- floor(log2 |x|) of a finite value that is not zero. -/
def log2FV (x : FV) : Int :=
  match x with
  | .fin _ m e => (Nat.log2 m : Int) + e
  | _ => 0

/-- The largest magnitude of a list of finite values. -/
def maxAbs (xs : List FV) : FV :=
  xs.foldl (fun a x => if cmp a x.abs == .lt then x.abs else a) (.fin false 0 0)

def anySpecial (xs : List FV) : Bool :=
  xs.any fun x => match x with
    | .fin _ _ _ => false
    | _ => true

/-- The shared scale exponent of a block (R121, R189, R264): min(max(floor(log2 a) - emax, -127), 127), 0 for a = 0. -/
def blockScale (emax : Int) (xs : List FV) : Int :=
  let a := maxAbs xs
  if a.isZero then 0 else min (max (log2FV a - emax) (-127)) 127

/-- Encode a block into elements of format `f` with one E8M0 scale (R121, R189, R264): scale byte and codes. -/
def quantBlock (f : Fmt) (emax : Int) (mode : Mode) (xs : List FV) : Nat × List Nat :=
  if anySpecial xs then (0xFF, xs.map fun _ => 0)
  else
    let k := blockScale emax xs
    ((k + 127).toNat, xs.map fun x => round f mode true (x.scale (-k)))

/-- mxq of R121. -/
def mxq (mode : Mode) (xs : List FV) : Nat × List Nat := quantBlock e2m1 2 mode xs

/-- The exact value of a scaled element (R106, R120): NaN under scale 0xFF. -/
def scaled (f : Fmt) (scale code : Nat) : FV :=
  if scale = 0xFF then .nan else (value f code).scale ((scale : Int) - 127)

/-! ### Reciprocal, reciprocal square root, exponential (R141, R143) -/

/-- round(1 / x) (R141, R143). -/
def rcp (f : Fmt) (mode : Mode) (x : FV) : Nat :=
  match x with
  | .nan => nanCode f
  | .inf n => round f mode false (.fin n 0 0)
  | .fin n m e =>
    if m = 0 then round f mode false (.inf n)
    else
      let p := Nat.log2 m + 64
      roundMag f mode false n (2 ^ p / m) (-(p : Int) - e) (decide (2 ^ p % m ≠ 0))

/-- The integer square root by Newton's steps from above, with fuel. -/
def isqrtGo (n : Nat) : Nat → Nat → Nat
  | 0, r => r
  | fuel + 1, r =>
    let r' := (r + n / r) / 2
    if r ≤ r' then r else isqrtGo n fuel r'

/-- floor(sqrt n). -/
def isqrt (n : Nat) : Nat :=
  if n = 0 then 0 else isqrtGo n (Nat.log2 n + 8) (2 ^ (Nat.log2 n / 2 + 1))

/-- round(1 / sqrt x) (R141, R143). -/
def rsq (f : Fmt) (mode : Mode) (x : FV) : Nat :=
  match x with
  | .nan => nanCode f
  | .inf n => if n then nanCode f else round f mode false (.fin false 0 0)
  | .fin n m e =>
    if m = 0 then round f mode false (.inf n)
    else if n then nanCode f
    else
      -- 1/sqrt(m 2^e) = sqrt(2^p / m) 2^(-(p + e)/2) with p + e even
      let p0 := Nat.log2 m + 160
      let p := if ((p0 : Int) + e) % 2 = 0 then p0 else p0 + 1
      let q := 2 ^ p / m
      let r := isqrt q
      roundMag f mode false false r (-(((p : Int) + e) / 2)) (decide (r * r * m ≠ 2 ^ p))

/-- Bits of precision of `exp2`. -/
def expPrec : Nat := 320

/-- A lower bound, within a few units of 2^(-320), of 2^t for the fraction t = frac / 2^bits: the square roots
2^(1/2), 2^(1/4), ... taken bit by bit. -/
def exp2Frac (frac : Nat) : Nat → Nat → Nat → Nat
  | 0, _, acc => acc
  | bits + 1, root, acc =>
    let root' := isqrt (root * 2 ^ expPrec)
    let acc' := if Nat.testBit frac bits then acc * root' / 2 ^ expPrec else acc
    exp2Frac frac bits root' acc'

/-- round(2^x) (R141, R143): exact when x is an integer; otherwise from a lower bound of 2^x at 320 bits. -/
def exp2 (f : Fmt) (mode : Mode) (x : FV) : Nat :=
  match x with
  | .nan => nanCode f
  | .inf n => if n then round f mode false (.fin false 0 0) else round f mode false (.inf false)
  | .fin n m e =>
    if m = 0 then roundMag f mode false false 1 0 false
    else
      let big : Bool := decide (20 ≤ (Nat.log2 m : Int) + e)
      if big then
        -- |x| is at least 2^20: far beyond every exponent range
        if n then roundMag f mode false false 1 (-(2 ^ 20)) false else roundMag f mode false false 1 (2 ^ 20) false
      else if 0 ≤ e then
        let k : Int := (m * 2 ^ e.toNat : Nat)
        roundMag f mode false false 1 (if n then -k else k) false
      else
        let bits := (-e).toNat
        let v : Int := if n then -(m : Int) else m
        let k := v / (2 ^ bits : Nat)                 -- floor
        let frac := (v - k * (2 ^ bits : Nat)).toNat
        if frac = 0 then roundMag f mode false false 1 k false
        else
          let keep := min bits 300
          let fr := frac / 2 ^ (bits - keep)
          let one := 2 ^ expPrec
          let r := exp2Frac fr keep (2 * one) one
          roundMag f mode false false (max r (one + 1)) (k - expPrec) true

/-- LOG2E, the FP32 constant 0x3FB8_AA3B (R183). -/
def log2e : FV := value f32 0x3FB8AA3B

/-- prob(x, m) of R183, on FP32 encodings. -/
def prob (x m : Nat) : Nat :=
  let vx := value f32 x
  let vm := value f32 m
  if vx.isNaN || vm.isNaN then 0x7FC00000
  else if vx = .inf true then 0
  else if vm = .inf false then 0x7FC00000
  else match sub .rne vx vm with
    | .nan => 0x7FC00000
    | d => exp2 f32 .rne (value f32 (round f32 .rne false (mul d log2e)))

/-! ### Rows (R103) -/

/-- Element k of width w of a row. -/
def elem (w : Nat) (r : Row) (k : Nat) : Nat := (r.toNat / 2 ^ (k * w)) % 2 ^ w

/-- Lane i of a row. -/
def lane (r : Row) (i : Nat) : Nat := elem 32 r i

/-- The number whose n digits of width w are f 0, f 1, ... -/
def packNat (w : Nat) (f : Nat → Nat) : Nat → Nat
  | 0 => 0
  | n + 1 => packNat w f n + (f n % 2 ^ w) * 2 ^ (w * n)

/-- The row whose first n elements of width w are f 0, f 1, ..., the rest zero. -/
def mkRow (w n : Nat) (f : Nat → Nat) : Row := BitVec.ofNat 2048 (packNat w f n)

/-- The elements of a row of width w. -/
def elems (w n : Nat) (r : Row) : List Nat := (List.range n).map (elem w r)

/-- The integer value of an element under its type (R108). -/
def intVal (t : Nat) (x : Nat) : Int :=
  let w := widthOf t
  if signedOf t && Nat.testBit x (w - 1) then (x : Int) - (2 ^ w : Nat) else x

/-- An integer reduced modulo 2^w. -/
def wrap (w : Nat) (x : Int) : Nat := (x % (2 ^ w : Nat)).toNat

/-- The range of an integer type code (R108). -/
def loOf (t : Nat) : Int := if signedOf t then -(2 ^ (widthOf t - 1) : Nat) else 0

def hiOf (t : Nat) : Int :=
  if signedOf t then (2 ^ (widthOf t - 1) : Nat) - 1 else (2 ^ widthOf t : Nat) - 1

/-- The exact value of an element of any type but .mx4 (R105, R108). -/
def valOf (t : Nat) (x : Nat) : FV :=
  match fmtOf t with
  | some f => value f x
  | none => FV.ofInt (intVal t x)

end Sys2Proof.Num
end

