-- ==== Sys2Proof/Machine/Vec.lean ====
section
/-! DEFINITION. What a V-word computes from, and the tag rules that its words share (spec/04 R97, spec/06 R129, spec/07
R137). -/

namespace Sys2Proof.Machine

/-- The coefficients and header that `VTAB` reads (R154, R155): a built-in table, a bound table with its 12
coefficient rows, or none. -/
inductive VTable where
  | none
  | builtin (k : Nat)
  | bound (hdr : Row) (coef : List Row)
  deriving DecidableEq, Repr

/-- The values one V-word reads: its operands, the lanes that MSK selects, its type, extension, rounding mode and
saturation, and its table. -/
structure VIn where
  ty : Nat
  fx : Nat
  mode : Num.Mode
  sat : Bool
  d : VReg
  a : VReg
  b : VReg
  lanes : BitVec 64
  tab : VTable
  deriving DecidableEq, Repr

/-- A word's result row, and which result lanes are tagged. -/
abbrev VRes := Row × BitVec 64

def VIn.w (i : VIn) : Nat := Num.widthOf i.ty

/-- Elements of width w in a row. -/
def perRow (w : Nat) : Nat := if w = 0 then 64 else 2048 / w

/-- All lanes, or none. -/
def allLanes (c : Bool) : BitVec 64 := if c then BitVec.allOnes 64 else 0

def tag (r : VReg) (i : Nat) : Bool := r.tags.getLsbD i

def anyTag (r : VReg) : Bool := r.tags != 0

/-- The lanes for which f holds. -/
def lanesWhere (f : Nat → Bool) : BitVec 64 :=
  BitVec.ofNat 64 ((List.range 64).foldl (fun acc i => if f i then acc + 2 ^ i else acc) 0)

/-- The tag of each result lane from the same-numbered source lanes; a 64-bit element takes both its lanes (R129). -/
def sameTags (w : Nat) (t : BitVec 64) : BitVec 64 :=
  if w = 64 then lanesWhere fun i => t.getLsbD (i / 2 * 2) || t.getLsbD (i / 2 * 2 + 1) else t

/-- Element by element from A. -/
def map1 (w : Nat) (f : Nat → Nat) (a : Row) : Row := Num.mkRow w (perRow w) fun k => f (Num.elem w a k)

/-- Element by element from A and B. -/
def map2 (w : Nat) (f : Nat → Nat → Nat) (a b : Row) : Row :=
  Num.mkRow w (perRow w) fun k => f (Num.elem w a k) (Num.elem w b k)

/-- Element by element from A, B and D. -/
def map3 (w : Nat) (f : Nat → Nat → Nat → Nat) (a b d : Row) : Row :=
  Num.mkRow w (perRow w) fun k => f (Num.elem w a k) (Num.elem w b k) (Num.elem w d k)

/-- A word on A alone. -/
def unary (i : VIn) (f : Nat → Nat) : VRes := (map1 i.w f i.a.row, sameTags i.w i.a.tags)

/-- A word on A and B. -/
def binary (i : VIn) (f : Nat → Nat → Nat) : VRes :=
  (map2 i.w f i.a.row i.b.row, sameTags i.w (i.a.tags ||| i.b.tags))

/-- A word on A, B and the old D. -/
def ternary (i : VIn) (f : Nat → Nat → Nat → Nat) : VRes :=
  (map3 i.w f i.a.row i.b.row i.d.row, sameTags i.w (i.a.tags ||| i.b.tags ||| i.d.tags))

/-- Whether any lane of a group of g lanes from lane i's group is tagged (R149). -/
def groupTag (t : BitVec 64) (g i : Nat) : Bool :=
  (List.range g).any fun j => t.getLsbD (i / g * g + j)

end Sys2Proof.Machine
end

