-- ==== Sys2Proof/Machine/Loop.lean ====
section
/-! DEFINITION. The loop engine: the walk of a loop nest (spec/04 R84 to R92), reading and writing operands, and the
effects of one bundle (spec/02 R59, R61; spec/04 R95 to R101; spec/11 R228, R238). -/

namespace Sys2Proof.Machine

/-! ### Points of the nest (R86, R88, R90) -/

def Block.ix (x : Block) (l : Nat) : Nat := Assoc.get 0 x.lx l
def Block.bound (x : Block) (l : Nat) : Nat := Assoc.get 0 x.bnd l

def Block.setIx (x : Block) (l v : Nat) : Block := { x with lx := Assoc.set 0 x.lx l v }
def Block.setBound (x : Block) (l v : Nat) : Block := { x with bnd := Assoc.set 0 x.bnd l v }

/-- Whether levels l to DEPTH - 1 all satisfy f. -/
def Block.levels (x : Block) (l : Nat) (f : Nat → Bool) : Bool :=
  [0, 1, 2, 3, 4, 5].all fun m => m < l || x.depth ≤ m || f m

/-- FI and LI of level l at the present point (R90). -/
def Block.first? (x : Block) (l : Nat) : Bool := x.levels l fun m => x.ix m == 0
def Block.last? (x : Block) (l : Nat) : Bool := x.levels l fun m => x.ix m + 1 == x.bound m || decide (x.brk ≤ m)

/-- Whether a word's iteration qualifier holds (R49, R90). -/
def Block.qual (x : Block) (fi li : Bool) (flv : BitVec 3) : Bool :=
  (!fi || x.first? flv.toNat) && (!li || x.last? flv.toNat)

/-- A checkpoint of a registered block records the heads of `dq0` to `dq3` (R436) (DEDUCED, unsafe: log entry 47). -/
def Block.checkpoint (x : Block) (k : Bank) : Block :=
  if x.rst.isSome then
    { x with hc := [0, 1, 2, 3].foldl (fun m q => Assoc.set 0 m q (k.queue q).head) x.hc, marked := true }
  else x

/-- The source of bound l, as the last `LNSET` before the `RUN` left it; `s0` where none did (R89). -/
def Bank.bsrc (k : Bank) (l : Nat) : BSrc := Assoc.get (.value 0) k.lbs l

/-- What the nest does next: enter level l of enter(from'), or next_point(L) with n = L + 1 (R86). -/
inductive Walk where
  | enter (from' l : Nat)
  | next (n : Nat)

/-- Walk the nest to its next point, to a bound that a queue must give, or to its end (R86). The fuel exceeds every
number of steps that 24-bit bounds allow. -/
def walkNest (k : Bank) : Nat → Block → Walk → Block
  | 0, x, _ => x
  | fuel + 1, x, .enter from' l =>
    if x.depth ≤ l then
      let y := if x.depth = 0 then x.checkpoint k else x
      { y with idx := y.first, first := y.start, brk := 6, phase := .issue }
    else match k.bsrc l with
      | .queue _ => { x.setIx l 0 with phase := .enter from' l }
      | .value v =>
        let y := (x.setIx l 0).setBound l v
        if v = 0 then (if from' = 0 then { y with phase := .finished } else walkNest k fuel y (.next from'))
        else walkNest k fuel (if l = 0 then y.checkpoint k else y) (.enter from' (l + 1))
  | fuel + 1, x, .next n =>
    match n with
    | 0 => { x with phase := .finished }
    | l + 1 =>
      let y := x.setIx l (x.ix l + 1)
      if y.ix l < y.bound l then
        walkNest k fuel (if l = 0 then y.checkpoint k else y) (.enter (l + 1) (l + 1))
      else walkNest k fuel y (.next l)

def nestFuel : Nat := 2 ^ 160

/-! ### Faults of the loop engine (R61, R418) -/

/-- Two loop indices in one register. -/
def ixPair (x : Block) (l : Nat) : Word := BitVec.ofNat 64 (x.ix l % 2 ^ 24 + at' (x.ix (l + 1) % 2 ^ 24) 32)

/-- A trap of the loop engine at bundle `idx`, slot `slot`. -/
def leTrap (x : Block) (idx slot cls sub eaddr : Nat) (defer : Bool) : Trap :=
  { Trap.mk0 cls sub with
    eng := engLE, asyn := true, defer := defer, eaddr := BitVec.ofNat 64 eaddr,
    einfo := BitVec.ofNat 64 (at' slot 62 + x.pc.toNat % 2 ^ 56), prog0 := BitVec.ofNat 64 (idx % 1024),
    prog1 := ixPair x 0, prog2 := ixPair x 2, prog3 := ixPair x 4 }

/-- The block of bank b stops with a fault, which waits for the sequencer's next boundary (R61). -/
def State.trapBlock (s : State) (b : Nat) (x : Block) (t : Trap) : State :=
  (s.modBank b fun k => { k with block := some { x with trapped := true } }).raise b t

/-! ### Operands -/

/-- What reading an operand answers. -/
inductive Rd where
  | ok (r : VReg)
  | wait
  | range (cause : Nat)
  deriving DecidableEq, Repr

def Bank.vreg (k : Bank) (i : Nat) : VReg := Assoc.get VReg.zero k.vregs i
def Bank.oreg (k : Bank) (i : Nat) : VReg := Assoc.get VReg.zero k.oregs i
def Bank.latch (k : Bank) (i : Nat) : VReg := Assoc.get VReg.zero k.latches i
def Bank.lmask (k : Bank) (i : Nat) : Mask := Assoc.get Mask.zero k.masks i
def Bank.desc (k : Bank) (i : Nat) : BitVec 256 := Assoc.get 0 k.ads i

/-- The row that `adN±off` names with a further index, as a key of `State.sram` (R94). -/
def descKey (b : Nat) (k : Bank) (x : Block) (n : Nat) (off : Int) : Except Nat Nat :=
  let r := k.desc n
  rowAt b (descSpace r) (descRow r x.ix off)

/-- A row by its number, for the partition of bank b's task (R396). -/
def State.readRow (s : State) (b key : Nat) : VReg :=
  let c := s.readCell key (s.bank b).part
  { row := c.data, tags := 0, cause := 0, poison := c.poison }

/-- Read a source operand; `extra` is the index of an indexed row word (R51, R228, R239). -/
def State.readOpnd (s : State) (b : Nat) (x : Block) (o : Opnd) (extra : Int) : Rd :=
  let k := s.bank b
  match o with
  | .latch i => .ok (k.latch i)
  | .o i => .ok (k.oreg i)
  | .v i => .ok (k.vreg i)
  | .queue q _ j =>
    let z := k.queue q
    if z.fill < j + 1 then .wait
    else
      let e := z.slot q (z.head + j)
      .ok { row := e.row, tags := 0, cause := 0, poison := e.poison }
  | .ad n off =>
    match s.freeKey (descKey b k x n (off + extra)) with
    | .ok key => .ok (s.readRow b key)
    | .error c => .range c

/-! ### Effects -/

/-- One effect of a bundle. -/
inductive Wr where
  | reg (o : Opnd) (row : Row) (tags lanes : BitVec 64) (cause : Nat) (poison : Bool)
  | cell (key : Nat) (row : Row) (mask : Option (BitVec 256)) (poison : Bool)
  | qput (q p : Nat) (row : Row) (lanes : BitVec 64) (poison : Bool)
  | qhead (q n : Nat)
  | qtail (q n : Nat)
  | mask (n : Nat) (m : Mask)
  | bind (i : Nat) (t : TBind)
  | brk (l : Nat)
  | endPoint
  deriving DecidableEq, Repr

/-- What a word's issue answers: it waits, it faults (class, sub-code, EADDR, DEFER), or its effects. -/
inductive VOut where
  | wait
  | trap (cls sub eaddr : Nat) (defer : Bool)
  | ok (ws : List Wr)
  deriving DecidableEq, Repr

/-- A deferred fault with its recorded cause (R96, R98). -/
def deferred (cause : Nat) : VOut := .trap 10 0 (cause - 1) true

/-- A row-range trap (R94). -/
def rangeTrap (cause : Nat) : VOut :=
  if inUseBase ≤ cause then .trap 12 0 (cause - 1 - inUseBase) false else .trap 10 0 (cause - 1) false

/-- The lanes of `new` where set, of `old` elsewhere. -/
def mergeLanes (old new : Row) (lanes : BitVec 64) : Row :=
  Num.mkRow 32 64 fun i => if lanes.getLsbD i then Num.lane new i else Num.lane old i

/-- A register after a word has written some of its lanes (R95, R97, R446). -/
def VReg.write (r : VReg) (row : Row) (tags lanes : BitVec 64) (cause : Nat) (poison : Bool) : VReg :=
  let tags' := (r.tags &&& ~~~lanes) ||| (tags &&& lanes)
  { row := if lanes = BitVec.allOnes 64 then row else mergeLanes r.row row lanes,
    tags := tags',
    cause := if tags' = 0 then 0 else if r.tags ≠ 0 then r.cause else cause,
    poison := poison || (lanes != BitVec.allOnes 64 && r.poison) }

/-- The byte mask of a lane mask. -/
def laneBytes (lanes : BitVec 64) : BitVec 256 :=
  BitVec.ofNat 256 (Num.packNat 4 (fun i => if lanes.getLsbD i then 15 else 0) 64)

/-- A row write by bank b: whole, or under a byte mask, whatever bytes that enables (R129, R396, R448); with none enabled the row
stays as it is (DESIGN CHOICE, unsafe: log entry 69). -/
def State.putRow (s : State) (b key : Nat) (row : Row) (mask : Option (BitVec 256)) (poison : Bool) : State :=
  let part := (s.bank b).part
  match mask with
  | none => s.writeCell key part row poison 0
  | some m => if m = 0 then s else s.maskCell key part row (fun i => m.getLsbD i) poison

/-- Apply one effect of bank b. -/
def State.applyWr (s : State) (b : Nat) (w : Wr) : State :=
  match w with
  | .reg o row tags lanes cause poison =>
    match o with
    | .v i => s.modBank b fun k =>
        { k with vregs := Assoc.set VReg.zero k.vregs i ((k.vreg i).write row tags lanes cause poison) }
    | .o i => s.modBank b fun k =>
        { k with oregs := Assoc.set VReg.zero k.oregs i ((k.oreg i).write row tags lanes cause poison) }
    | .latch i => s.modBank b fun k =>
        { k with latches := Assoc.set VReg.zero k.latches i ((k.latch i).write row tags lanes cause poison),
                 stale := k.stale &&& ~~~((1 : BitVec 6) <<< i) }
    | _ => s
  | .cell key row mask poison => s.putRow b key row mask poison
  | .qput q p row lanes poison => s.modBank b fun k =>
      let z := k.queue q
      let e := z.slot q p
      let new := mergeLanes e.row row lanes
      k.setQueue q (z.setSlot q p
        { row := if q < 6 then new else BitVec.ofNat 2048 (new.toNat % 2 ^ 64),
          poison := poison || (lanes != BitVec.allOnes 64 && e.poison), filled := true })
  | .qhead q n => s.modBank b fun k => k.setQueue q { k.queue q with head := (k.queue q).head + n }
  | .qtail q n => s.modBank b fun k =>
      k.setQueue q { k.queue q with tail := (k.queue q).tail + n, rsv := (k.queue q).rsv + n }
  | .mask n m => s.modBank b fun k => { k with masks := Assoc.set Mask.zero k.masks n m }
  | .bind i t => s.modBank b fun k => { k with tabs := Assoc.set none k.tabs i (some t) }
  | .brk _ => s
  | .endPoint => s

def State.applyAll (s : State) (b : Nat) (ws : List Wr) : State := ws.foldl (fun s w => s.applyWr b w) s

/-! ### A word on the vector unit -/

/-- A V-word ready for issue: its opcode, its fields, and what it does at the present point. -/
structure VOp where
  opc : Nat
  w : VWord
  run : State → Nat → Block → VOut

/-- The latch that an opcode writes (R138). -/
def latchOf (opc : Nat) : Option Nat :=
  match opc with
  | 0x12 => some 1
  | 0x13 | 0x14 => some 2
  | 0x19 | 0x1A | 0x1B | 0x20 => some 3
  | 0x23 | 0x24 | 0x3A | 0x3B | 0x53 | 0x54 | 0x55 | 0x56 => some 4
  | 0x03 | 0x50 | 0x51 | 0x52 => some 5
  | 0x04 | 0x21 | 0x60 | 0x61 | 0x62 | 0x63 | 0x00 | 0x01 | 0x02 => none
  | _ => some 0

/-- The rounding mode of a word: RM, or the FRM that the `RUN` captured (R49, R116). -/
def wordMode (x : Block) (w : VWord) : Num.Mode :=
  if w.rm = 0 then Num.Mode.ofFrm x.frm.toNat else Num.Mode.ofFrm (w.rm.toNat - 1)

/-- The operands of a word as read: A, B and D where it reads them; the out-of-range cause of a speculative word
(R96). -/
structure Ops3 where
  a : VReg
  b : VReg
  d : VReg
  spec : Nat
  deriving DecidableEq, Repr

/-- One operand as a word of form PS reads it: out of range it reads nothing and notes the cause (R96). -/
def takeOpnd (ps use : Bool) (r : Rd) (acc : Nat) : Except VOut (VReg × Nat) :=
  if use then
    match r with
    | .ok v => .ok (v, acc)
    | .wait => .error .wait
    | .range c => if ps && decide (c < inUseBase) then .ok (VReg.zero, if acc = 0 then c else acc) else .error (rangeTrap c)
  else .ok (VReg.zero, acc)

/-- Read every operand that the form uses; A's row takes the index of `VLD.idx` (R239). -/
def readOps (s : State) (b : Nat) (x : Block) (opc : Nat) (w : VWord) (extra : Int) : Except VOut Ops3 :=
  match vForm opc w.ty.toNat w.fx.toNat with
  | none => .error (.ok [])
  | some f =>
    let rd (use : Bool) (o : BitVec 22) (e : Int) : Rd := if use then s.readOpnd b x (opnd o) e else .wait
    let useD := f.d && readsD opc w.fx.toNat
    match takeOpnd w.ps useD (rd useD w.d 0) 0 with
    | .error e => .error e
    | .ok (d, c1) =>
      match takeOpnd w.ps f.a (rd f.a w.a extra) c1 with
      | .error e => .error e
      | .ok (a, c2) =>
        match takeOpnd w.ps f.b (rd f.b w.b 0) c2 with
        | .error e => .error e
        | .ok (bb, c3) => .ok { a := a, b := bb, d := d, spec := c3 }

/-- A source under a tainted mask counts every lane as tagged (R147) (DEDUCED, safe: log entry 46). -/
def taintBy (m : Mask) (r : VReg) : VReg :=
  if m.taint then { r with tags := BitVec.allOnes 64, cause := if r.cause = 0 then m.cause else r.cause } else r

/-- The lanes that MSK selects, and the mask (R49, R147). -/
def Bank.mskOf (k : Bank) (msk : BitVec 3) : Mask :=
  if msk = 0 then { bits := BitVec.allOnes 64, taint := false, cause := 0 } else k.lmask msk.toNat

/-- The first recorded cause among tagged sources (DEDUCED, safe: log entry 46). -/
def firstCause (o : Ops3) : Nat :=
  if anyTag o.a then o.a.cause else if anyTag o.b then o.b.cause else if anyTag o.d then o.d.cause else 0

/-- Write a result to its destination D: a register, a row or a queue slot; a tagged lane that a row or a queue would
take fires the deferred fault (R51, R98, R228). D of level 0b00 writes nothing here: the result stands in the unit's own
latch, for `VFMA`, `VFMS` and `VROTM` too (DESIGN CHOICE, unsafe: log entry 69). A row is written whole unless the word masks its
lanes (R129). -/
def writeDest (s : State) (b : Nat) (x : Block) (w : VWord) (extra : Int) (row : Row) (tags lanes : BitVec 64)
    (cause : Nat) (poison whole : Bool) : VOut :=
  match opnd w.d with
  | .latch _ => .ok []
  | .o i => .ok [.reg (.o i) row tags lanes cause poison]
  | .v i => .ok [.reg (.v i) row tags lanes cause poison]
  | .queue q adv j =>
    let z := (s.bank b).queue q
    if z.head + qCap q ≤ z.tail + j then .wait
    else if tags &&& lanes ≠ 0 then deferred cause
    else .ok ([.qput q (z.tail + j) row lanes poison] ++ if adv then [.qtail q 1] else [])
  | .ad n off =>
    match s.freeKey (descKey b (s.bank b) x n (off + extra)) with
    | .error c => rangeTrap c
    | .ok key =>
      if tags &&& lanes ≠ 0 then deferred cause
      else .ok [.cell key row (if whole then none else some (laneBytes lanes)) poison]

/-- The head moves of the queue sources with ADV (R59, R228). -/
def headMoves (w : VWord) (f : VForm) : List Wr :=
  let one (use : Bool) (o : BitVec 22) : List Wr :=
    if use then match opnd o with
      | .queue q true _ => [.qhead q 1]
      | _ => []
    else []
  one f.a w.a ++ one f.b w.b

/-- The latch write of a unit's result (DEDUCED, unsafe: log entry 19). -/
def latchWrite (opc : Nat) (row : Row) (tags lanes : BitVec 64) (cause : Nat) (poison : Bool) : List Wr :=
  match latchOf opc with
  | some i => [.reg (.latch i) row tags lanes cause poison]
  | none => []

/-- Combine the effects that follow a result. -/
def VOut.also (o : VOut) (ws : List Wr) : VOut :=
  match o with
  | .ok vs => .ok (vs ++ ws)
  | e => e

/-- The values a word computes from. -/
def vIn (x : Block) (w : VWord) (o : Ops3) (m : Mask) (tab : VTable) : VIn :=
  { ty := w.ty.toNat, fx := w.fx.toNat, mode := wordMode x w, sat := w.sat, d := o.d, a := o.a, b := o.b,
    lanes := m.bits, tab := tab }

/-- A word that computes a result row from its operands and writes it to its latch and its destination (R97, R129,
R137, R139). `extra`: the index that its rows take; `extraTag`: the cause of a tagged index. -/
def computeWord (s : State) (b : Nat) (x : Block) (opc : Nat) (w : VWord) (f : VIn → VRes) (tab : VTable)
    (tabPoison : Bool) (extra : Int) : VOut :=
  match vForm opc w.ty.toNat w.fx.toNat, readOps s b x opc w (if opc = 0x60 then extra else 0) with
  | none, _ => .ok []
  | some _, .error e => e
  | some form, .ok o0 =>
    let m := (s.bank b).mskOf w.msk
    let o : Ops3 := { a := taintBy m o0.a, b := taintBy m o0.b, d := taintBy m o0.d, spec := o0.spec }
    let res := f (vIn x w o m tab)
    let choose := opc == 0x41 || opc == 0x42
    let lanes := if choose then BitVec.allOnes 64 else m.bits
    let row := if o.spec = 0 then res.1 else 0
    let tags := if o.spec = 0 then res.2 else BitVec.allOnes 64
    let cause := if o.spec = 0 then firstCause o else o.spec
    let poison := o.a.poison || o.b.poison || o.d.poison || tabPoison || m.poison
    (writeDest s b x w (if opc = 0x61 then extra else 0) row tags lanes cause poison (choose || w.msk == 0)).also
      (latchWrite opc row tags lanes cause poison ++ headMoves w form)

/-- A word of the plain shape. -/
def plainOp (opc : Nat) (w : VWord) (f : VIn → VRes) : VOp :=
  { opc := opc, w := w, run := fun s b x => computeWord s b x opc w f .none false 0 }

/-! ### Issuing a bundle (R59, R61, R86) -/

/-- A queue operand is not ready: a source holds too few rows, or a destination has no room (R228, R242). -/
def Bank.opndWaits (k : Bank) (source : Bool) (n : Nat) (o : Opnd) : Bool :=
  match o with
  | .queue q _ j =>
    let z := k.queue q
    if source then decide (z.fill < j + n) else decide (z.head + qCap q < z.tail + j + n)
  | _ => false

/-- A word waits for a queue that it names, before any check of its issue (R94, R228, R235). -/
def VOp.waits (v : VOp) (k : Bank) : Bool :=
  match vForm v.opc v.w.ty.toNat v.w.fx.toNat with
  | some f =>
    let n := if v.opc = 0x63 then v.w.fx.toNat % 16 + 1 else 1
    (f.d && k.opndWaits false n (opnd v.w.d)) || (f.a && k.opndWaits true n (opnd v.w.a)) ||
    (f.b && k.opndWaits true 1 (opnd v.w.b))
  | none => false

/-- A slot's word that its qualifier lets execute; a skipped word has no effect (R90). -/
def VOp.go (v : VOp) (s : State) (b : Nat) (x : Block) : VOut :=
  if x.qual v.w.fi v.w.li v.w.flv then (if v.waits (s.bank b) then .wait else v.run s b x) else .ok []

/-- The levels that the bundle's `VBRK` words end (R92). -/
def brkOf (ws : List Wr) (brk : Nat) : Nat :=
  ws.foldl (fun acc w => match w with | .brk l => min acc l | _ => acc) brk

def endsPoint (ws : List Wr) : Bool := ws.any fun w => w == .endPoint

/-- The block after a bundle: its next bundle, or its next point after a `VEND` (R86). -/
def Block.after (k : Bank) (x : Block) (ws : List Wr) : Block :=
  let y := { x with brk := brkOf ws x.brk, idx := x.idx + 1 }
  if endsPoint ws then walkNest k nestFuel y (.next (min y.brk y.depth)) else y

/-- The effects of the two V slots and the M slot, each computed from the state before the bundle, applied in slot
order (R59), so that of two `VMASK` of one mask or two `VTLOAD` of one slot V1's stands
(DESIGN CHOICE, unsafe: log entry 69); an M-word joins the array's queue. -/
def State.commitBundle (s : State) (b : Nat) (x : Block) (ws : List Wr) (m : List ArrOp) : State :=
  let s1 := s.applyAll b ws
  s1.modBank b fun k =>
    let from' (o : ArrOp) : ArrOp := { o with since := s.counter }
    let k1 := { k with arr := k.arr ++ m.map from' }
    { k1 with block := some (x.after k1 ws) }

/-- What the M slot answers: nothing to do, a wait, a fault, or an array operation (R163, R175). -/
inductive MOut where
  | none
  | wait
  | trap (cls sub eaddr : Nat) (defer : Bool)
  | ok (m : ArrOp)
  deriving DecidableEq, Repr

/-- An M-word ready for issue. -/
structure MOp where
  mop : Nat
  w : MWord
  run : State → Nat → Block → MOut

def MOp.go (m : MOp) (s : State) (b : Nat) (x : Block) : MOut :=
  if x.qual m.w.fi m.w.li m.w.flv then m.run s b x else .none

/-- Array words whose rows or registers a later bundle must wait for (R175): `MSTORE`, `MROW`, `MTRANS`
(DEDUCED, safe: log entry 7). -/
def Bank.arrayWrites (k : Bank) : Bool := k.arr.any fun a => a.mop == 5 || a.mop == 6 || a.mop == 8

/-- Issue the bundle that holds these words at the block's present index: it waits whole, faults whole, or has its
effects (R59, R61, R139). -/
def State.issueWords (s : State) (b : Nat) (x : Block) (v0 v1 : Option VOp) (m : Option MOp) : State :=
  if (s.bank b).arrayWrites then s
  else
    let go (v : Option VOp) : VOut := match v with
      | some o => o.go s b x
      | none => .ok []
    let o0 := go v0
    let o1 := go v1
    let om : MOut := match m with
      | some o => o.go s b x
      | none => .none
    if o0 == .wait || o1 == .wait || om == .wait then s
    else match o0, o1, om with
      | .trap c u e d, _, _ => s.trapBlock b x (leTrap x x.idx 0 c u e d)
      | _, .trap c u e d, _ => s.trapBlock b x (leTrap x x.idx 1 c u e d)
      | _, _, .trap c u e d => s.trapBlock b x (leTrap x x.idx 2 c u e d)
      | .ok w0, .ok w1, .ok a => s.commitBundle b x (w0 ++ w1) [a]
      | .ok w0, .ok w1, _ => s.commitBundle b x (w0 ++ w1) []
      | _, _, _ => s

/-- Whether the engines serve this bank (R419, R422, R430): not while it drains, stands stopped or ends, nor once a save has
begun, which a branch's slot holds off. -/
def Bank.served (k : Bank) : Bool :=
  (match k.run with
    | .live => true
    | .entering _ => true
    | _ => false) &&
  (k.pst == .live || (k.pst == .saving && k.slot.isSome))

/-- Whether a save drains this bank, stopped or not: what runs to retirement does so (R430)
(DEDUCED, unsafe: log entry 59). -/
def Bank.draining (k : Bank) : Bool :=
  k.pst == .saving && match k.run with
    | .live | .entering _ | .stopped _ => true
    | _ => false

/-- Whether the loop engine issues for this bank: an unregistered block runs on while its bank saves (R430). -/
def Bank.blockServed (k : Bank) (x : Block) : Bool := k.served || (k.draining && x.rst.isNone)

/-- The block of bank b when its next bundle may issue (R62, R86, R419). -/
def State.issuing (s : State) (b : Nat) : Option Block :=
  match (s.bank b).block with
  | some x =>
    if x.phase = .issue ∧ x.trapped = false ∧ x.idx ≤ 1023 ∧ (s.bank b).blockServed x ∧ s.tentNear b = false then some x else none
  | none => none

/-- A bundle that holds one V-word in slot V0 issues on the acting bank's loop engine. -/
def issueV (s : State) (v : VOp) : Out :=
  match s.issuing s.cur with
  | none => .next s
  | some x =>
    if vForbidden v.opc v.w then .next (s.trapBlock s.cur x (leTrap x x.idx 0 9 2 0 false))
    else .next (s.issueWords s.cur x (some v) none none)

end Sys2Proof.Machine
end

