-- ==== Sys2Proof/Machine/Matrix.lean ====
section
/-! DEFINITION. The outer-product array (spec/08): what an M-word reads when its bundle issues, and what it does to its
tile, rows or registers when the array completes it. -/

namespace Sys2Proof.Machine

/-! ### Operand rows (R160 to R163, R167, R170 to R173) -/

/-- A register value that the `RUN` captured; `s0` gives zero (R56). -/
def Block.sreg (x : Block) (n : Nat) : Word := if n = 0 then 0 else Assoc.get 0 x.sregs n

/-- Base row, TPITCH and RPITCH of a row operand (R161); none when a reserved bit is set. -/
def rowShape (x : Block) (spec : BitVec 48) : Option (Int × Int × Int) :=
  let base := x.sreg (specA spec)
  let shape := x.sreg (specB spec)
  if bits base 63 16 = 0 ∧ bits shape 63 35 = 0 then
    some ((bits base 15 0 : Nat) + specOfs spec, sgn 16 (bits shape 31 16), sgn 16 (bits shape 15 0))
  else none

/-- What gathering operand rows answers. -/
inductive Gather where
  | bad                       -- a reserved bit of the shape registers
  | range (cause : Nat)
  | rows (keys : List Nat)
  deriving DecidableEq, Repr

/-- The keys of the rows at the numbers listed, all in range (R163). -/
def keysAt (b : Nat) (cluster : Bool) : List Int → Gather
  | [] => .rows []
  | r :: rs =>
    match rowAt b cluster r with
    | .error c => .range c
    | .ok key =>
      match keysAt b cluster rs with
      | .rows ks => .rows (key :: ks)
      | g => g

/-- Row numbers by step and row of the step. -/
def stepRows (shape : Int × Int × Int) (steps q : Nat) : List Int :=
  ((List.range steps).map fun (t : Nat) => (List.range q).map fun (j : Nat) =>
    shape.1 + (t : Int) * shape.2.1 + (j : Int) * shape.2.2).flatten

/-- Row numbers (i, h) with h varying fastest (R170, R171). -/
def tileRows (shape : Int × Int × Int) (halves : Nat) : List Int :=
  ((List.range 128).map fun (i : Nat) => (List.range halves).map fun (h : Nat) =>
    shape.1 + (i : Int) * shape.2.2 + (h : Int) * shape.2.1).flatten

/-- Rows that a word may touch: none of them in use (R258) (DEDUCED, safe: log entry 7). -/
def State.freeKeys (s : State) (g : Gather) : Gather :=
  match g with
  | .rows ks =>
    match ks.find? fun key => s.inUse key with
    | some key => .range (inUseBase + 1 + 2 ^ 16 + key / 2 % 32768)
    | none => .rows ks
  | g => g

/-- The trap of a row that an M-word may not touch. -/
def rowTrap (c : Nat) : MOut :=
  if inUseBase ≤ c then .trap 12 0 (c - 1 - inUseBase) false else .trap 10 0 (c - 1) false

/-- The rows of an operand in scratchpad or cluster SRAM. -/
def gatherSpec (s : State) (b : Nat) (x : Block) (spec : BitVec 48) (f : Int × Int × Int → List Int) : Gather :=
  match rowShape x spec with
  | none => .bad
  | some sh => s.freeKeys (keysAt b (specSrc spec == 2) (f sh))

/-- The values that an operand's rows or registers hold when the bundle issues (R175). -/
inductive Fetch where
  | fail (o : MOut)
  | got (rs : List VReg)
  deriving DecidableEq, Repr

def fetchSpec (s : State) (b : Nat) (x : Block) (spec : BitVec 48) (n : Nat) (f : Int × Int × Int → List Int) : Fetch :=
  if specSrc spec = 0 then
    .got ((List.range n).map fun i => (s.bank b).vreg (specV spec + i))
  else match gatherSpec s b x spec f with
    | .bad => .fail (.trap 9 2 0 false)
    | .range c => .fail (rowTrap c)
    | .rows ks => .got (ks.map fun key => s.readRow b key)

/-- The scale rows of `MMAX` (R167). -/
def fetchScales (s : State) (b : Nat) (x : Block) (w : MWord) : Fetch :=
  let steps := w.kst.toNat + 1
  let i := bits w.sspec 21 16
  if bits w.sspec 23 22 = 1 then .got ((List.range steps).map fun t => (s.bank b).vreg (i + t))
  else
    let r := (s.bank b).desc i
    let base := descRow r x.ix (sgn 14 (bits w.sspec 13 0))
    match s.freeKeys (keysAt b (descSpace r) ((List.range steps).map fun (t : Nat) => base + (t : Int))) with
    | .bad => .fail (.trap 9 2 0 false)
    | .range c => .fail (rowTrap c)
    | .rows ks => .got (ks.map fun key => s.readRow b key)

/-- The array operation with the operands read (R99, R176). -/
def arrOp (mop : Nat) (w : MWord) (a bb sc : List VReg) (dst : List Nat) : ArrOp :=
  let all := a ++ bb ++ sc
  { mop := mop, w := w, arows := a.map VReg.row, brows := bb.map VReg.row, srows := sc.map VReg.row,
    tagged := all.any anyTag, cause := ((all.find? anyTag).map VReg.cause).getD 0, poisoned := all.any VReg.poison,
    dst := dst, started := false }

/-- The units of work of an M-word in paired mode: how many, and the cycles of each (R174, R178). -/
def ArrOp.units (o : ArrOp) : Nat × Nat :=
  let n := o.w.kst.toNat + 1
  let wide := o.w.fmta.toNat
  match o.mop with
  | 1 => (n, if isFP8 wide then 32 else 16)
  | 2 => (n, if isFP8 wide then 32 else 16)
  | 4 => (4, 16)
  | 5 => (if o.w.fmta = 1 then 4 else 2, 16)
  | 6 => (1, 2)
  | 8 => (if isFP8 wide then 2 else 4, 16)
  | _ => (1, 1)

/-- The first time from t on at which a unit of n cycles may start in a window of w cycles of the core (R178). -/
def unitStart (w core t n : Nat) : Nat :=
  if t / w % 2 = core % 2 then
    if t % w + n ≤ w then t else (t / w + 2) * w
  else (t / w + 1) * w

/-- The end of k units of n cycles each, back to back in the core's windows, the first of them from t on. -/
def unitsEnd (w core n : Nat) : Nat → Nat → Nat
  | 0, t => t
  | k + 1, t => unitsEnd w core n k (unitStart w core t n + n)

/-- Places for M-words: one runs and two wait (R174). -/
def Bank.arrayFull (k : Bank) : Bool := decide (3 ≤ k.arr.length)

def Bank.tile (k : Bank) (acc : Bool) : Tile := Assoc.get Tile.zero k.tiles (b2n acc)

def Bank.setTile (k : Bank) (acc : Bool) (t : Tile) : Bank := { k with tiles := Assoc.set Tile.zero k.tiles (b2n acc) t }

/-- Issue of a word that reads operands A and B, and scales where it has them (R164, R167). Of several operands that
stop it, by a reserved bit of a shape register or by a row that it may not read, A comes before B before the scales
(DESIGN CHOICE, unsafe: log entry 68). -/
def issueMul (mop : Nat) (w : MWord) (s : State) (b : Nat) (x : Block) : MOut :=
  if (s.bank b).arrayFull then .wait
  else
    let steps := w.kst.toNat + 1
    let q := rowsPerStep w.fmta.toNat
    let sc := if mop = 2 then fetchScales s b x w else .got []
    match fetchSpec s b x w.aspec (steps * q) (fun sh => stepRows sh steps q),
          fetchSpec s b x w.bspec (steps * q) (fun sh => stepRows sh steps q), sc with
    | .fail o, _, _ => o
    | _, .fail o, _ => o
    | _, _, .fail o => o
    | .got a, .got bb, .got c => .ok (arrOp mop w a bb c [])

/-- Issue of a word that reads no operand rows: `MZERO`, `MEDGE`. -/
def issueBare (mop : Nat) (w : MWord) (s : State) (b : Nat) (_ : Block) : MOut :=
  if (s.bank b).arrayFull then .wait else .ok (arrOp mop w [] [] [] [])

/-- Issue of `MLOAD` (R170). -/
def issueLoad (w : MWord) (s : State) (b : Nat) (x : Block) : MOut :=
  if (s.bank b).arrayFull then .wait
  else match fetchSpec s b x w.aspec 256 (fun sh => tileRows sh 2) with
    | .fail o => o
    | .got a => .ok (arrOp 4 w a [] [] [])

/-- The rows of an `MSTORE`: all of them in range, and none that it writes in use (R163, R171, R258). -/
def State.storeKeys (s : State) (b : Nat) (x : Block) (w : MWord) (t : Tile) (halves : Nat) : Gather :=
  match rowShape x w.aspec with
  | none => .bad
  | some sh =>
    match keysAt b (specSrc w.aspec == 2) (tileRows sh halves) with
    | .rows ks =>
      match s.freeKeys (.rows (if w.ee then ks.take ((128 - t.cutRows) * halves) else ks)) with
      | .rows _ => .rows ks
      | g => g
    | g => g

/-- Issue of `MSTORE` (R171): it waits for the earlier words of the array; a row out of range comes before a tainted tile
(DESIGN CHOICE, unsafe: log entry 68). -/
def issueStore (w : MWord) (s : State) (b : Nat) (x : Block) : MOut :=
  if (s.bank b).arr ≠ [] then .wait
  else
    let t := (s.bank b).tile w.acc
    let halves := if w.fmta = 1 then 2 else 1
    match s.storeKeys b x w t halves with
    | .bad => .trap 9 2 0 false
    | .range c => rowTrap c
    | .rows ks =>
      if t.taint then .trap 10 0 (t.cause - 1) true else .ok (arrOp 5 w [] [] [] ks)

/-- Issue of `MROW` (R172). -/
def issueRow (w : MWord) (s : State) (b : Nat) (_ : Block) : MOut :=
  if (s.bank b).arr ≠ [] then .wait else .ok (arrOp 6 w [] [] [] [])

/-- Rows or registers of an `MTRANS` operand (R173). -/
def transRows (w : MWord) : Nat := if isFP8 w.fmta.toNat then 64 else 128

/-- Issue of `MTRANS` (R173): a tagged source lane fires when the destination is rows, after the check of those rows
(DESIGN CHOICE, unsafe: log entry 68). -/
def issueTrans (w : MWord) (s : State) (b : Nat) (x : Block) : MOut :=
  if (s.bank b).arrayFull then .wait
  else
    let n := transRows w
    match fetchSpec s b x w.aspec n (fun sh => stepRows sh 1 n) with
    | .fail o => o
    | .got a =>
      if specSrc w.bspec = 0 then .ok (arrOp 8 w a [] [] [])
      else match gatherSpec s b x w.bspec (fun sh => stepRows sh 1 n) with
        | .bad => .trap 9 2 0 false
        | .range c => rowTrap c
        | .rows ks =>
          let o := arrOp 8 w a [] [] ks
          if o.tagged then .trap 10 0 (o.cause - 1) true else .ok o

/-! ### Multiply-accumulate (R165 to R167) -/

/-- Element for lane index i and the k-th value of step t of an operand of format `fmt` (R160). -/
def operandElem (fmt : Nat) (rows : List Row) (t i k : Nat) : Nat :=
  let q := rowsPerStep fmt
  let per := kPerStep fmt / q                 -- values of k in one row
  Num.elem (arrBits fmt) (rows.getD (t * q + k / per) 0) (i + 128 * (k % per))

def operandVal (fmt x : Nat) : Num.FV := Num.value ((Num.fmtOf fmt).getD Num.f32) x

/-- The exact sum of products that are finite, or the special value of R166. -/
def sumProducts (ps : List Num.FV) : Num.FV :=
  if ps.any Num.FV.isNaN then .nan
  else
    let pinf := ps.any fun p => p == .inf false
    let ninf := ps.any fun p => p == .inf true
    if pinf && ninf then .nan
    else if pinf then .inf false
    else if ninf then .inf true
    else
      let sum := ps.foldl (Num.add .rne) (.fin false 0 0)
      if sum.isZero then .fin false 0 0 else sum

/-- Scale codes sa[t][i] and sb[t][j]; 127 without scales (R165, R167). -/
def scaleCodes (o : ArrOp) (t i j : Nat) : Nat × Nat :=
  if o.mop = 2 then
    let r := o.srows.getD t 0
    (Num.elem 8 r i, Num.elem 8 r (128 + j))
  else (127, 127)

/-- blocksum(t, i, j), as an exact value before its rounding to FP32 (R165, R166). -/
def blockSum (o : ArrOp) (t i j : Nat) : Num.FV :=
  let sc := scaleCodes o t i j
  if sc.1 = 255 ∨ sc.2 = 255 then .nan
  else
    let fa := o.w.fmta.toNat
    let fb := o.w.fmtb.toNat
    (sumProducts ((List.range (kPerStep fa)).map fun k =>
      Num.mul (operandVal fa (operandElem fa o.arows t i k)) (operandVal fb (operandElem fb o.brows t j k)))).scale
      ((sc.1 : Int) + sc.2 - 254)

/-- One step's update of one element (R165). -/
def stepElem (o : ArrOp) (i j : Nat) (old : Nat) (t : Nat) : Nat :=
  let p := Num.round Num.f32 .rne false (blockSum o t i j)
  Num.round Num.f32 .rne false (Num.add .rne (Num.value Num.f32 old) (Num.value Num.f32 p))

/-- Map every element of a tile, n elements from index i, in canonical form. -/
def tileMap (f : Nat → BitVec 32 → BitVec 32) : Nat → Nat → Assoc (BitVec 32) → Assoc (BitVec 32)
  | 0, _, _ => []
  | c + 1, n, m =>
    let here : BitVec 32 × Assoc (BitVec 32) := match m with
      | (i, v) :: r => if i = n then (v, r) else (0, m)
      | [] => (0, [])
    let y := f n here.1
    if y = 0 then tileMap f c (n + 1) here.2 else (n, y) :: tileMap f c (n + 1) here.2

def tileSize : Nat := 16384

/-- Whether element (i, j) takes part: within the edge limits when EE is set (R169). -/
def Tile.inEdge (t : Tile) (ee : Bool) (i j : Nat) : Bool :=
  !ee || (decide (i + t.cutRows < 128) && decide (j + t.cutCols < 128))

/-- The tile after a multiply-accumulate word (R165, R169). -/
def Tile.mulAdd (t : Tile) (o : ArrOp) : Tile :=
  let steps := List.range (o.w.kst.toNat + 1)
  { t with
    elems := tileMap (fun n v =>
        let i := n / 128
        let j := n % 128
        if t.inEdge o.w.ee i j then BitVec.ofNat 32 (steps.foldl (stepElem o i j) v.toNat) else v) tileSize 0
          (Assoc.mapVals 0 (fun _ v => v) t.elems),
    taint := t.taint || o.tagged, cause := if t.taint then t.cause else o.cause, poison := t.poison || o.poisoned }

/-- `MLOAD` (R170): element (i, 64h + l) from lane l of row (i, h). -/
def Tile.load (t : Tile) (o : ArrOp) : Tile :=
  { t with
    elems := tileMap (fun n _ => BitVec.ofNat 32 (Num.lane (o.arows.getD (n / 64) 0) (n % 64))) tileSize 0 [],
    taint := false, cause := 0, poison := o.poisoned }

/-- `MZERO` (R170). -/
def Tile.clear (t : Tile) : Tile := { t with elems := [], taint := false, cause := 0, poison := false }

/-- `MEDGE` (R169). -/
def Tile.edge (t : Tile) (w : MWord) : Tile :=
  { t with cutRows := 127 - bits w.sspec 14 8, cutCols := 127 - bits w.sspec 6 0 }

def Tile.elem (t : Tile) (i j : Nat) : Nat := (Assoc.get 0 t.elems (i * 128 + j)).toNat

/-- The first n bytes enabled, of elements of width w below a limit. -/
def edgeMask (w count : Nat) : BitVec 256 := BitVec.ofNat 256 (2 ^ (min (count * w / 8) 256) - 1)

/-- One row of `MSTORE` (R171): the n-th of its rows; with edge limits its byte mask. -/
def storeRow (t : Tile) (w : MWord) (n : Nat) : Row × Option (BitVec 256) :=
  let cols := 128 - t.cutCols
  let rows := 128 - t.cutRows
  let under (m : BitVec 256) : Option (BitVec 256) := if w.ee then some m else none
  if w.fmta = 1 then
    let i := n / 2
    let h := n % 2
    (Num.mkRow 32 64 fun l => t.elem i (64 * h + l), under (if i < rows then edgeMask 32 (cols - 64 * h) else 0))
  else
    let f := (Num.fmtOf w.fmta.toNat).getD Num.f16
    (Num.mkRow 16 128 fun l => Num.round f .rne false (Num.value Num.f32 (t.elem n l)),
      under (if n < rows then edgeMask 16 cols else 0))

/-- The destination line of `MTRANS`: element c of line l is element l of line c of the source (R173). -/
def transRow (fmt : Nat) (src : List Row) (q : Nat) : Row :=
  let w := arrBits fmt
  let lines := 16 / w                          -- lines in a row
  Num.mkRow w (128 * lines) fun e =>
    let l := q * lines + e / 128
    let c := e % 128
    Num.elem w (src.getD (c / lines) 0) (128 * (c % lines) + l)

/-- Write rows in order. -/
def State.putRows (s : State) (b : Nat) : List (Nat × Row × Option (BitVec 256) × Bool) → State
  | [] => s
  | (key, row, mask, p) :: rest => State.putRows (s.putRow b key row mask p) b rest

/-- What the array does when it completes a word of bank b (R165 to R173). -/
def State.arrayApply (s : State) (b : Nat) (o : ArrOp) : State :=
  let acc := o.w.acc
  let t := (s.bank b).tile acc
  match o.mop with
  | 1 => s.modBank b fun k => k.setTile acc (t.mulAdd o)
  | 2 => s.modBank b fun k => k.setTile acc (t.mulAdd o)
  | 3 => s.modBank b fun k => k.setTile acc t.clear
  | 4 => s.modBank b fun k => k.setTile acc (t.load o)
  | 5 => s.putRows b (o.dst.mapIdx fun n key =>
      let r := storeRow t o.w n
      (key, r.1, r.2, t.poison))
  | 6 =>
    let half (h : Nat) : Wr :=
      .reg (.v (specV o.w.aspec + h)) (Num.mkRow 32 64 fun l => t.elem o.w.kst.toNat (64 * h + l)) (allLanes t.taint)
        (BitVec.allOnes 64) t.cause t.poison
    s.applyAll b [half 0, half 1]
  | 7 => s.modBank b fun k => k.setTile acc (t.edge o.w)
  | _ =>
    let out := (List.range (transRows o.w)).map (transRow o.w.fmta.toNat o.arows)
    if specSrc o.w.bspec = 0 then
      s.applyAll b (out.mapIdx fun q row =>
        .reg (.v (specV o.w.bspec + q)) row (allLanes o.tagged) (BitVec.allOnes 64) o.cause o.poisoned)
    else s.putRows b ((o.dst.zip out).map fun p => (p.1, p.2, none, o.poisoned))

/-! ### The M-words -/

def opMma (w : MWord) : MOp := { mop := 1, w := w, run := issueMul 1 w }
def opMmax (w : MWord) : MOp := { mop := 2, w := w, run := issueMul 2 w }
def opMzero (w : MWord) : MOp := { mop := 3, w := w, run := issueBare 3 w }
def opMload (w : MWord) : MOp := { mop := 4, w := w, run := issueLoad w }
def opMstore (w : MWord) : MOp := { mop := 5, w := w, run := issueStore w }
def opMrow (w : MWord) : MOp := { mop := 6, w := w, run := issueRow w }
def opMedge (w : MWord) : MOp := { mop := 7, w := w, run := issueBare 7 w }
def opMtrans (w : MWord) : MOp := { mop := 8, w := w, run := issueTrans w }

/-- The M-word of a slot (R57). -/
def mOp (i : Instr) : Option MOp :=
  match i with
  | .mma w => some (opMma w)
  | .mmax w => some (opMmax w)
  | .mzero w => some (opMzero w)
  | .mload w => some (opMload w)
  | .mstore w => some (opMstore w)
  | .mrow w => some (opMrow w)
  | .medge w => some (opMedge w)
  | .mtrans w => some (opMtrans w)
  | _ => none

/-- A bundle that holds one M-word issues on the acting bank's loop engine. -/
def issueM (s : State) (m : MOp) : Out :=
  match s.issuing s.cur with
  | none => .next s
  | some x =>
    if mForbidden m.mop m.w then .next (s.trapBlock s.cur x (leTrap x x.idx 2 9 2 0 false))
    else .next (s.issueWords s.cur x none none (some m))

/-- `MMA` (R164, R165). -/
def execMma (w : MWord) (s : State) : Out := issueM s (opMma w)
/-- `MMAX` (R164, R167). -/
def execMmax (w : MWord) (s : State) : Out := issueM s (opMmax w)
/-- `MZERO` (R170). -/
def execMzero (w : MWord) (s : State) : Out := issueM s (opMzero w)
/-- `MLOAD` (R170). -/
def execMload (w : MWord) (s : State) : Out := issueM s (opMload w)
/-- `MSTORE` (R171). -/
def execMstore (w : MWord) (s : State) : Out := issueM s (opMstore w)
/-- `MROW` (R172). -/
def execMrow (w : MWord) (s : State) : Out := issueM s (opMrow w)
/-- `MEDGE` (R169). -/
def execMedge (w : MWord) (s : State) : Out := issueM s (opMedge w)
/-- `MTRANS` (R173). -/
def execMtrans (w : MWord) (s : State) : Out := issueM s (opMtrans w)

end Sys2Proof.Machine
end

