-- ==== Sys2Proof/Machine/Tables.lean ====
section
/-! DEFINITION. The functions of the built-in tables (spec/07 R156), in fixed point with 512 bits below the point, and the
accuracy that their results keep (R157). Every series ends below 2^(-400). -/

namespace Sys2Proof.Machine.Fx

/-- 1. -/
def one : Int := 2 ^ 512

def mul (x y : Int) : Int := x * y / one

def div (x y : Int) : Int := x * one / y

def sqrt (x : Int) : Int := (Num.isqrt (x * one).toNat : Nat)

/-- The sum of t n / out n over n, where t (n + 1) = t n * z / step n, from t at n. -/
def series (z : Int) (step out : Nat → Int) : Nat → Nat → Int → Int → Int
  | 0, _, _, acc => acc
  | fuel + 1, n, t, acc => series z step out fuel (n + 1) (mul t z / step n) (acc + t / out n)

/-- e^x for 0 ≤ x ≤ 64. -/
def expPos (x : Int) : Int := series x (fun n => (n : Int) + 1) (fun _ => 1) 440 0 one 0

def exp (x : Int) : Int := if x < 0 then div one (expPos (-x)) else expPos x

/-- The inverse hyperbolic tangent for |x| ≤ 1/3, and the arc tangent for |x| ≤ 1/5. -/
def artanh (x : Int) : Int := series (mul x x) (fun _ => 1) (fun n => 2 * (n : Int) + 1) 170 0 x 0
def arctan (x : Int) : Int := series (-mul x x) (fun _ => 1) (fun n => 2 * (n : Int) + 1) 120 0 x 0

def ln2 : Int := 2 * artanh (one / 3)

def pi : Int := 4 * (4 * arctan (one / 5) - arctan (one / 239))

/-- ln x for x ≥ 1. -/
def ln (x : Int) : Int :=
  let k := Nat.log2 x.toNat - 512
  let m := x / 2 ^ k
  k * ln2 + 2 * artanh (div (m - one) (m + one))

def tanh (x : Int) : Int :=
  let e := expPos (2 * x.natAbs)
  let t := div (e - one) (e + one)
  if x < 0 then -t else t

/-- The integral of e^(-t²/c) over [0, x], c 1 or 2. -/
def bell (c x : Int) : Int := series (-mul x x / c) (fun n => (n : Int) + 1) (fun n => 2 * (n : Int) + 1) 440 0 x 0

def sin (x : Int) : Int :=
  series (-mul x x) (fun n => (2 * (n : Int) + 2) * (2 * (n : Int) + 3)) (fun _ => 1) 80 0 x 0

def cos (x : Int) : Int :=
  series (-mul x x) (fun n => (2 * (n : Int) + 1) * (2 * (n : Int) + 2)) (fun _ => 1) 80 0 one 0

/-- √(2 / π). -/
def root2pi : Int := sqrt (div (2 * one) pi)

/-- The function of built-in table k (R156) inside its domain. The tanh form of GELU has the constant 0.044715
(log entry 10). -/
def builtin (k : Nat) (x : Int) : Int :=
  match k with
  | 0 => mul x (one + mul root2pi (bell 2 x)) / 2
  | 1 => tanh x
  | 2 => mul (2 * sqrt (div one pi)) (bell 1 x)
  | 3 => div one (one + exp (-x))
  | 4 => div x (one + exp (-x))
  | 5 => exp (mul x ln2)
  | 6 => div (ln x) ln2
  | 7 => div one x
  | 8 => div one (sqrt x)
  | 9 => ln (one + exp x)
  | 10 => sin (mul pi x)
  | 11 => cos (mul pi x)
  | 12 => exp (-x)
  | 13 => mul x (one + tanh (mul root2pi (x + mul x (mul x x) * 44715 / 1000000))) / 2
  | 14 =>
    let y := one + exp x
    div (mul x (mul y y - one)) (mul y y + one)
  | _ => sqrt x

end Sys2Proof.Machine.Fx

namespace Sys2Proof.Machine

/-- One unit in the last place of a format at f. -/
def ulpOf (fm : Num.Fmt) (f : Int) : Int :=
  let ex : Int := max ((Nat.log2 f.natAbs : Int) - 512) (1 - (fm.bias : Int))
  2 ^ (ex - fm.m + 512).toNat

/-- Whether a built-in table may give that encoding where its function is f (R157): of FP32, a result within the larger of
2^(-16) |f| and 2^(-26); of a 16-bit format under `rne`, a result within one unit in the last place. -/
def tableMeets (fm : Num.Fmt) (mode : Num.Mode) (f : Int) (r : Nat) : Bool :=
  if fm.w == 16 && mode != .rne then true
  else match Num.value fm r with
    | .fin n m e =>
      let d := (Num.alignTo n m e (-512) - f).natAbs
      if fm.w == 16 then decide ((d : Int) ≤ ulpOf fm f) else decide (d * 2 ^ 16 ≤ f.natAbs) || decide (d ≤ 2 ^ 486)
    | _ => false

/-- A built-in table's result at x: what its coefficients give, which keeps the accuracy of R157; coefficients that would
not are none that a device has, and the nearest value stands in. -/
def tableResult (fm : Num.Fmt) (mode : Num.Mode) (k : Nat) (x : Int) (r : Nat) : Nat :=
  let f := Fx.builtin k x
  if tableMeets fm mode f r then r else Num.round fm mode false (.fin (decide (f < 0)) f.natAbs (-512))

end Sys2Proof.Machine
end

