-- ==== Sys2Proof/Machine/VecFloat.lean ====
section
/-! DEFINITION. The vector floating-point, conversion, reduction, permutation and table words (spec/07 R137 to R159) and
`VTRIP` (spec/09 R188): each result row with its tags. -/

namespace Sys2Proof.Machine

/-- The format of the word's TYPE; FP32 where the type is none of the floating-point ones. -/
def VIn.fmt (i : VIn) : Num.Fmt := (Num.fmtOf i.ty).getD Num.f32

def VIn.val (i : VIn) (x : Nat) : Num.FV := Num.value i.fmt x

/-- Round an exact value into the word's type. -/
def VIn.rnd (i : VIn) (x : Num.FV) : Nat := Num.round i.fmt i.mode false x

/-! ### Arithmetic (R141 to R143) -/

def evalVadd (i : VIn) : VRes := binary i fun a b => i.rnd (Num.add i.mode (i.val a) (i.val b))
def evalVsub (i : VIn) : VRes := binary i fun a b => i.rnd (Num.sub i.mode (i.val a) (i.val b))
def evalVmul (i : VIn) : VRes := binary i fun a b => i.rnd (Num.mul (i.val a) (i.val b))

def evalVfma (i : VIn) : VRes :=
  ternary i fun a b d => i.rnd (Num.add i.mode (Num.mul (i.val a) (i.val b)) (i.val d))

def evalVfms (i : VIn) : VRes :=
  ternary i fun a b d => i.rnd (Num.sub i.mode (Num.mul (i.val a) (i.val b)) (i.val d))

/-- The smaller (or larger) of two encodings by R142. -/
def minMaxF (f : Num.Fmt) (larger : Bool) (a b : Nat) : Nat :=
  let va := Num.value f a
  let vb := Num.value f b
  if va.isNaN then (if vb.isNaN then Num.nanCode f else b)
  else if vb.isNaN then a
  else
    let aLess := match Num.cmp va vb with
      | .lt => true
      | .gt => false
      | .eq => Num.signBit f a
    if aLess != larger then a else b

def evalVmin (i : VIn) : VRes := binary i (minMaxF i.fmt false)
def evalVmax (i : VIn) : VRes := binary i (minMaxF i.fmt true)
def evalVabs (i : VIn) : VRes := unary i fun a => a % 2 ^ (i.w - 1)
def evalVneg (i : VIn) : VRes := unary i fun a => if Nat.testBit a (i.w - 1) then a - 2 ^ (i.w - 1) else a + 2 ^ (i.w - 1)
def evalVrcp (i : VIn) : VRes := unary i fun a => Num.rcp i.fmt i.mode (i.val a)
def evalVrsq (i : VIn) : VRes := unary i fun a => Num.rsq i.fmt i.mode (i.val a)
def evalVexp (i : VIn) : VRes := unary i fun a => Num.exp2 i.fmt i.mode (i.val a)
def evalVexpSub (i : VIn) : VRes :=
  binary i fun a b => Num.exp2 i.fmt i.mode (Num.sub i.mode (i.val a) (i.val b))

/-! ### Conversion and quantisation (R144, R145) -/

/-- Whether any lane of A that holds a bit of elements lo to lo + n - 1 of width w is tagged. -/
def tagOver (r : VReg) (w lo n : Nat) : Bool :=
  (List.range 64).any fun l => tag r l && decide (l * 32 < (lo + n) * w) && decide (lo * w < (l + 1) * 32)

/-- Convert one element of source type `t` into floating-point format `f` (R117, R118). -/
def convertElem (i : VIn) (x : Nat) : Nat := Num.round i.fmt i.mode i.sat (Num.valOf i.fx x)

def evalVcvt (i : VIn) : VRes :=
  let ws := Num.widthOf i.fx
  let wd := i.w
  let n := 2048 / max ws wd
  let per := 32 / wd                       -- result elements in a lane
  (Num.mkRow wd n fun k => convertElem i (Num.elem ws i.a.row k),
    lanesWhere fun l =>
      let first := l * per
      decide (first < n) && tagOver i.a ws first (min per (n - first)))

/-- σ of R144: lane 0 of B, signed. -/
def sigma (i : VIn) : Int := sgn 32 (Num.lane i.b.row 0)

/-- The lanes of A read for n elements of width w, and lane 0 of B. -/
def quantTags (i : VIn) (w n : Nat) (useB : Bool) : BitVec 64 :=
  allLanes (tagOver i.a w 0 n || (useB && tag i.b 0))

/-- The MXFP4 row of R145 for n source elements: codes, then a scale for each block of 32 at byte 128. -/
def mxRow (mode : Num.Mode) (n : Nat) (f : Nat → Num.FV) : Row :=
  let blocks := (List.range (n / 32)).map fun j => Num.mxq mode ((List.range 32).map fun k => f (32 * j + k))
  let codes := (blocks.map Prod.snd).flatten
  BitVec.ofNat 2048 (Num.packNat 4 (fun k => codes.getD k 0) n +
    Num.packNat 8 (fun j => (blocks.getD j (0, [])).1) (n / 32) * 2 ^ 1024)

def evalVqnt (i : VIn) : VRes :=
  let ws := Num.widthOf i.fx
  let n := 2048 / ws
  let src := fun k => Num.value ((Num.fmtOf i.fx).getD Num.f32) (Num.elem ws i.a.row k)
  if i.ty = 6 then (mxRow i.mode n src, quantTags i ws n false)
  else
    let q := fun k =>
      let x := (src k).scale (sigma i)
      match Num.fmtOf i.ty with
      | some f => Num.round f i.mode i.sat x
      | none => Num.wrap i.w (Num.toInt i.mode (Num.loOf i.ty) (Num.hiOf i.ty) x)
    (Num.mkRow i.w n q, quantTags i ws n true)

def evalVdqnt (i : VIn) : VRes :=
  let wd := i.w
  let n := 2048 / wd
  if i.fx = 6 then
    (Num.mkRow wd n fun k =>
        i.rnd (Num.scaled Num.e2m1 (Num.elem 8 i.a.row (128 + k / 32)) (Num.elem 4 i.a.row k)),
      allLanes (tagOver i.a 4 0 n || tagOver i.a 8 128 (n / 32)))
  else
    let ws := Num.widthOf i.fx
    (Num.mkRow wd n fun k => i.rnd ((Num.valOf i.fx (Num.elem ws i.a.row k)).scale (sigma i)), quantTags i ws n true)

/-! ### Compare, select, move (R146, R148) -/

/-- The condition of R146 between two elements. -/
def vcond (t cc a b : Nat) : Bool :=
  let va := Num.valOf t a
  let vb := Num.valOf t b
  if va.isNaN || vb.isNaN then cc == 1 || cc == 6
  else
    let o := Num.cmp va vb
    match cc with
    | 0 => o == .eq
    | 1 => o != .eq
    | 2 => o == .lt
    | 3 => o != .gt
    | 4 => o == .gt
    | 5 => o != .lt
    | 6 => false
    | _ => true

def evalVcmp (i : VIn) : VRes := binary i fun a b => if vcond i.ty (i.fx % 8) a b then 2 ^ i.w - 1 else 0

/-- Lane by lane, A where MSK picks it and B elsewhere, with the chosen lane's tag (R100, R148). -/
def chooseLanes (i : VIn) : VRes :=
  (Num.mkRow 32 64 fun k => if i.lanes.getLsbD k then Num.lane i.a.row k else Num.lane i.b.row k,
    (i.lanes &&& i.a.tags) ||| (~~~i.lanes &&& i.b.tags))

def evalVsel (i : VIn) : VRes := chooseLanes i
def evalVcommit (i : VIn) : VRes := chooseLanes i
def evalVmov (i : VIn) : VRes := (i.a.row, i.a.tags)

/-! ### Reductions, scans, group maximum (R149 to R152) -/

/-- Lanes in a group. -/
def groupLanes (fx : Nat) : Nat := 64 / 2 ^ (fx / 8 % 4)

/-- One level of the pairwise tree at FP32. -/
def pairUp : List Num.FV → List Num.FV
  | a :: b :: rest => Num.value Num.f32 (Num.round Num.f32 .rne false (Num.add .rne a b)) :: pairUp rest
  | xs => xs

def treeDown : Nat → List Num.FV → List Num.FV
  | 0, xs => xs
  | n + 1, xs => if xs.length ≤ 2 then xs else treeDown n (pairUp xs)

/-- The float sum of a group: a pairwise tree at FP32 whose root is rounded once into t (R150). -/
def redAddF (i : VIn) (es : List Nat) : Nat :=
  match treeDown 8 (es.map i.val) with
  | [x, y] => i.rnd (Num.add i.mode x y)
  | [x] => i.rnd x
  | _ => 0

/-- Reduction op other than a float add, on two elements of type code t (R149, R333). -/
def reduceOp (t op a b : Nat) : Nat :=
  let f := Num.isF t
  let fmt := (Num.fmtOf t).getD Num.f32
  let less := decide (Num.intVal t a < Num.intVal t b)
  match op with
  | 0 => (a + b) % 2 ^ Num.widthOf t
  | 1 => if f then minMaxF fmt false a b else if less then a else b
  | 2 => if f then minMaxF fmt true a b else if less then b else a
  | 3 => a &&& b
  | 4 => a ||| b
  | _ => a ^^^ b

/-- The operation of FX[2:0] other than a float add. -/
def redOp (i : VIn) (a b : Nat) : Nat := reduceOp i.ty (i.fx % 8) a b

def foldElems (op : Nat → Nat → Nat) : List Nat → Nat
  | [] => 0
  | e :: es => es.foldl op e

/-- Elements of group g. -/
def groupElems (i : VIn) (g : Nat) : List Nat :=
  let n := groupLanes i.fx * 32 / i.w
  (List.range n).map fun j => Num.elem i.w i.a.row (g * n + j)

/-- A result for every element of every group, from the group's elements. -/
def perGroup (i : VIn) (f : List Nat → Nat → Nat) : VRes :=
  let n := groupLanes i.fx * 32 / i.w
  let groups := (List.range (64 / groupLanes i.fx)).map fun g => groupElems i g
  let outs := groups.map fun es => (List.range n).map (f es)
  let flat := outs.flatten
  (Num.mkRow i.w (perRow i.w) fun k => flat.getD k 0, lanesWhere (groupTag i.a.tags (groupLanes i.fx)))

/-- A result common to every element of a group. -/
def perGroupAll (i : VIn) (f : List Nat → Nat) : VRes :=
  let n := groupLanes i.fx * 32 / i.w
  let outs := (List.range (64 / groupLanes i.fx)).map fun g => f (groupElems i g)
  (Num.mkRow i.w (perRow i.w) fun k => outs.getD (k / n) 0, lanesWhere (groupTag i.a.tags (groupLanes i.fx)))

def evalVred (i : VIn) : VRes :=
  perGroupAll i fun es => if i.fx % 8 = 0 ∧ Num.isF i.ty then redAddF i es else foldElems (redOp i) es

/-- The float prefix sums, carried at FP32 (R151). -/
def scanAddF (i : VIn) : Num.FV → List Nat → List Nat
  | _, [] => []
  | s, e :: es =>
    let x := Num.add .rne s (i.val e)
    i.rnd (Num.add i.mode s (i.val e)) :: scanAddF i (Num.value Num.f32 (Num.round Num.f32 .rne false x)) es

def scanOp (op : Nat → Nat → Nat) : Nat → List Nat → List Nat
  | _, [] => []
  | s, e :: es => op s e :: scanOp op (op s e) es

/-- The inclusive prefix of a group (R151); a NaN that it delivers is canonical (R109). -/
def scanGroup (i : VIn) : List Nat → List Nat
  | [] => []
  | e :: es =>
    if i.fx % 8 = 0 ∧ Num.isF i.ty then i.rnd (i.val e) :: scanAddF i (i.val e) es
    else (if Num.isF i.ty && (i.val e).isNaN then Num.nanCode i.fmt else e) :: scanOp (redOp i) e es

def evalVscan (i : VIn) : VRes :=
  let flat := ((List.range (64 / groupLanes i.fx)).map fun g => scanGroup i (groupElems i g)).flatten
  (Num.mkRow i.w (perRow i.w) fun k => flat.getD k 0, lanesWhere (groupTag i.a.tags (groupLanes i.fx)))

/-- The largest magnitude of a group (R152). -/
def groupMax (i : VIn) (es : List Nat) : Nat :=
  if Num.isF i.ty then
    if es.any fun e => (i.val e).isNaN then Num.nanCode i.fmt
    else es.foldl (fun m e => max m (Num.magOf i.fmt e)) 0
  else es.foldl (fun m e => max m (Num.intVal i.ty e).natAbs) 0

def evalVgmax (i : VIn) : VRes := perGroupAll i (groupMax i)

/-! ### Permutation (R153, R241) -/

def evalVperm (i : VIn) : VRes :=
  let pick := fun k => Num.lane i.b.row k % 64
  (Num.mkRow 32 64 fun k => Num.lane i.a.row (pick k), lanesWhere fun k => tag i.a (pick k) || tag i.b k)

/-- Whether a lane of element k of width w is tagged. -/
def elemTag (r : VReg) (w k : Nat) : Bool := tagOver r w k 1

def evalVbcast (i : VIn) : VRes :=
  let j := Num.lane i.b.row 0 % perRow i.w
  (Num.mkRow i.w (perRow i.w) fun _ => Num.elem i.w i.a.row j, allLanes (elemTag i.a i.w j || tag i.b 0))

def evalViota (i : VIn) : VRes :=
  (Num.mkRow i.w (perRow i.w) fun k => Num.elem i.w i.a.row 0 + k * Num.elem i.w i.b.row 0,
    allLanes (elemTag i.a i.w 0 || elemTag i.b i.w 0))

/-- The rotate-merge: byte k from byte k + rot of D_old : A (R241). -/
def evalVrotm (i : VIn) : VRes :=
  let rot := i.b.row.toNat % 256
  let x := i.a.row.toNat + i.d.row.toNat * 2 ^ 2048
  (BitVec.ofNat 2048 (x / 2 ^ (8 * rot)),
    lanesWhere fun l => tag i.b 0 || (List.range 4).any fun j =>
      let p := 4 * l + j + rot
      if p < 256 then tag i.a (p / 4) else tag i.d ((p - 256) / 4))

/-! ### Table interpolation (R154 to R159) -/

/-- The parameters of a table (R154): KIND, domain start X0, log₂ of the segment width, the codes and constants
outside the domain, the results at 0 and infinity, and its coefficients as FP32 encodings. -/
structure TabParam where
  kind : Nat
  x0 : Num.FV
  logh : Int
  lo : Nat
  loVal : Num.FV
  hi : Nat
  hiVal : Num.FV
  zeroVal : Num.FV
  infVal : Num.FV
  coef : Nat → Nat → Nat          -- j, segment
  fn : Option Nat                 -- the number of a built-in table

def fv32 (x : Nat) : Num.FV := Num.value Num.f32 x

/-- The segment of built-in table k that starts at a point where it is exact, with the value there: c0 of that
segment (R156, R157) (DESIGN CHOICE, safe: log entry 10). -/
def exactC0 (k s : Nat) : Option Nat :=
  match k, s with
  | 0, 128 | 1, 128 | 2, 128 | 4, 128 | 13, 128 | 14, 128 | 6, 0 => some 0
  | 3, 128 => some 0x3F000000
  | 5, 0 | 7, 0 | 8, 0 | 12, 0 | 15, 0 => some 0x3F800000
  | 10, 0 | 10, 128 => some 0
  | 10, 64 => some 0xBF800000
  | 10, 192 => some 0x3F800000
  | 11, 0 => some 0xBF800000
  | 11, 64 | 11, 192 => some 0
  | 11, 128 => some 0x3F800000
  | 15, 72 => some 0x3FA00000
  | 15, 144 => some 0x3FC00000
  | _, _ => none

/-- Whether built-in table k falls through a zero at the start of segment s: its c1 is negative there, as the bounds of R157
ask of the segment, and with it the zero y * τ of R155 (DESIGN CHOICE, safe: log entry 10). -/
def falls (k s : Nat) : Bool := (k == 10 && s == 0) || (k == 11 && s == 192)

/-- Coefficient j of segment s of built-in table k: a free value, but for c0 at a point where the table is exact
(R156, R157) (DESIGN CHOICE, safe: log entry 10). -/
def builtinCoef (k j s : Nat) : Nat :=
  match j, exactC0 k s with
  | 0, some c => c
  | _, _ => (Config.tableCoef k j s).toNat

/-- A built-in table (R156). -/
def builtinTable (k : Nat) : TabParam :=
  let u (x0 : Int) (logh : Int) (lo : Nat) (loVal : Nat) (hi hiVal : Nat) : TabParam :=
    { kind := 0, x0 := Num.FV.ofInt x0, logh := logh, lo := lo, loVal := fv32 loVal, hi := hi, hiVal := fv32 hiVal,
      zeroVal := fv32 0, infVal := fv32 0, coef := builtinCoef k, fn := some k }
  let m (kind atZero inf : Nat) : TabParam :=
    { kind := kind, x0 := fv32 0, logh := 0, lo := 0, loVal := fv32 0, hi := 0, hiVal := fv32 0,
      zeroVal := fv32 atZero, infVal := fv32 inf, coef := builtinCoef k, fn := some k }
  match k with
  | 0 => u (-8) (-4) 0 0 1 0
  | 1 => u (-8) (-4) 0 0xBF800000 0 0x3F800000
  | 2 => u (-4) (-5) 0 0xBF800000 0 0x3F800000
  | 3 => u (-16) (-3) 0 0 0 0x3F800000
  | 4 => u (-16) (-3) 0 0 1 0
  | 5 => u 0 (-8) 0 0x3F800000 0 0x40000000
  | 6 => m 1 0xFF800000 0x7F800000
  | 7 => m 1 0x7F800000 0
  | 8 => m 2 0x7F800000 0
  | 9 => u (-16) (-3) 0 0 1 0
  | 10 => u (-1) (-7) 2 0 2 0
  | 11 => u (-1) (-7) 2 0 2 0
  | 12 => u 0 (-3) 2 0 0 0
  | 13 => u (-8) (-4) 0 0 1 0
  | 14 => u (-16) (-3) 0 0 1 0
  | _ => m 2 0 0x7F800000

/-- A bound table from its header and coefficient rows (R154). -/
def boundTable (hdr : Row) (rows : List Row) : TabParam :=
  { kind := bits hdr 1 0, x0 := fv32 (bits hdr 63 32), logh := sgn 32 (bits hdr 95 64), lo := bits hdr 5 4,
    loVal := fv32 (bits hdr 127 96), hi := bits hdr 9 8, hiVal := fv32 (bits hdr 159 128),
    zeroVal := fv32 (bits hdr 191 160), infVal := fv32 (bits hdr 223 192),
    coef := fun j s => Num.lane (rows.getD (4 * j + s / 64) 0) (s % 64), fn := none }

/-- Whether `VTLOAD` accepts a header (R154, R158); a kind U header has a finite X0 (DESIGN CHOICE, unsafe: log entry 69). -/
def headerOk (hdr : Row) : Bool :=
  let kind := bits hdr 1 0
  let logh := sgn 32 (bits hdr 95 64)
  bits hdr 2047 224 == 0 && bits hdr 31 10 == 0 && bits hdr 7 6 == 0 && bits hdr 3 2 == 0 && kind != 3 &&
  bits hdr 9 8 != 3 && bits hdr 5 4 != 3 &&
  (if kind == 0 then
    decide (-24 ≤ logh) && decide (logh ≤ 8) && bits hdr 62 55 != 255 && bits hdr 223 160 == 0
   else bits hdr 95 32 == 0)

/-- The segment and the exact τ of a position u = m * 2^e, not negative, clipped to 256 segments. -/
def segmentOf (m : Nat) (e : Int) : Nat × Num.FV :=
  if 0 ≤ e then (min (m * 2 ^ e.toNat) 255, .fin false 0 0)
  else
    let p := 2 ^ (-e).toNat
    (min (m / p) 255, .fin false (m % p) e)

/-- round(c0 + y * τ, t, mode) with y = round(c2 * τ + c1, FP32, RNE) (R155), at x, given at exponent -512; a built-in
table keeps the accuracy of R157, and gives the value itself where it is exact. At τ = 0 with y infinite or NaN the pseudocode
of R155 decides: the result is NaN (DESIGN CHOICE, unsafe: log entry 69). -/
def tabPoly (i : VIn) (p : TabParam) (x : Int) (s : Nat) (tau : Num.FV) : Nat :=
  let y := fv32 (Num.round Num.f32 .rne false (Num.add .rne (Num.mul (fv32 (p.coef 2 s)) tau) (fv32 (p.coef 1 s))))
  let r := i.rnd (Num.add i.mode (fv32 (p.coef 0 s)) (Num.mul y tau))
  match p.fn with
  | none => r
  | some k =>
    match tau.isZero, exactC0 k s with
    | true, some c => i.rnd (Num.add i.mode (fv32 c) (.fin (falls k s) 0 0))
    | _, _ => tableResult i.fmt i.mode k x r

def outside (i : VIn) (code : Nat) (val : Num.FV) (x : Nat) : Nat :=
  match code with
  | 0 => i.rnd val
  | 1 => x
  | _ => Num.nanCode i.fmt

/-- One element of `VTAB` (R155). -/
def tabElem (i : VIn) (p : TabParam) (x : Nat) : Nat :=
  match i.val x with
  | .nan => Num.nanCode i.fmt
  | .inf n =>
    if p.kind = 0 then (if n then outside i p.lo p.loVal x else outside i p.hi p.hiVal x) else i.rnd p.infVal
  | .fin n m e =>
    if p.kind = 0 then
      let v := Num.FV.fin n m e
      let top := Num.add .rne p.x0 (.fin false 1 (p.logh + 8))
      if Num.cmp v p.x0 == .lt then outside i p.lo p.loVal x
      else if Num.cmp v top != .lt then outside i p.hi p.hiVal x
      else match Num.sub .rne v p.x0 with
        | .fin _ mu eu =>
          let st := segmentOf mu (eu - p.logh)
          tabPoly i p (Num.alignTo n m e (-512)) st.1 st.2
        | _ => Num.nanCode i.fmt
    else if m = 0 then i.rnd p.zeroVal
    else
      let lg := Nat.log2 m
      let frac := m - 2 ^ lg                     -- (m' - 1) * 2^lg
      let ex : Int := (lg : Int) + e
      let up := if p.kind = 2 ∧ ex % 2 = 1 then 128 else 0
      let scale := if p.kind = 1 then 8 else 7
      -- u = up + frac * 2^(scale - lg)
      let st := segmentOf (frac * 2 ^ scale) (-(lg : Int))
      tabPoly i p (Num.alignTo false m (if up = 0 then -(lg : Int) else 1 - (lg : Int)) (-512)) (up + st.1) st.2

def VTable.param : VTable → TabParam
  | .none => builtinTable 0
  | .builtin k => builtinTable k
  | .bound h rows => boundTable h rows

def evalVtab (i : VIn) : VRes := unary i (tabElem i i.tab.param)

/-! ### `VTRIP` (R181 to R184, R188) -/

def satSum (a b : Nat) : Nat := min (a + b) (2 ^ 32 - 1)

/-- Exact l = LHI + LLO of a header row. -/
def tripleL (h : Row) : Num.FV := Num.add .rne (fv32 (Num.lane h 1)) (fv32 (Num.lane h 2))

/-- The normalised pair of an exact value (R181). -/
def normPair (l : Num.FV) : Nat × Nat :=
  let hi := Num.round Num.f32 .rne false l
  (hi, Num.round Num.f32 .rne false (Num.sub .rne l (fv32 hi)))

/-- A header row from its fields (R181). -/
def tripleHeader (m lhi llo nflush ntok : Nat) (incomplete : Bool) (range c1 c2 : Nat) : Row :=
  BitVec.ofNat 2048 (m % 2 ^ 32 + at' (lhi % 2 ^ 32) 32 + at' (llo % 2 ^ 32) 64 + at' (nflush % 2 ^ 32) 96 +
    at' (ntok % 2 ^ 32) 128 + at' (b2n incomplete) 160 + at' (range % 2 ^ 32) 192 + at' (c1 % 2 ^ 32) 256 +
    at' (c2 % 2 ^ 32) 288)

def nan32 : Nat := 0x7FC00000

/-- The header of merge(T1, T2) (R184), or of the NaN triple (R182). -/
def mergeHeader (h1 h2 : Row) : Row :=
  let m1 := Num.lane h1 0
  let m2 := Num.lane h2 0
  let v1 := fv32 m1
  let v2 := fv32 m2
  let ntok := satSum (Num.lane h1 4) (Num.lane h2 4)
  let nflush := satSum (Num.lane h1 3) (Num.lane h2 3)
  let inc := bit h1 160 || bit h2 160
  let range := Num.lane h1 6
  if v1.isNaN || v2.isNaN || v1 == .inf false || v2 == .inf false then
    tripleHeader nan32 nan32 0 nflush ntok inc range nan32 nan32
  else
    let m := minMaxF Num.f32 true m1 m2
    let c1 := Num.prob m1 m
    let c2 := Num.prob m2 m
    let p := normPair (Num.add .rne (Num.mul (fv32 c1) (tripleL h1)) (Num.mul (fv32 c2) (tripleL h2)))
    tripleHeader m p.1 p.2 nflush ntok inc range c1 c2

/-- Whether any of lanes 0 to 9 is tagged. -/
def headerTag (r : VReg) : Bool := (List.range 10).any (tag r)

def evalVtripMrg (i : VIn) : VRes :=
  (mergeHeader i.d.row i.a.row, allLanes (headerTag i.d || headerTag i.a))

/-- One accumulator element of a merge (R184). -/
def mergeAcc (c1 c2 x1 x2 : Nat) : Nat :=
  Num.round Num.f32 .rne false (Num.add .rne (Num.mul (fv32 c1) (fv32 x1)) (Num.mul (fv32 c2) (fv32 x2)))

def evalVtripAcc (i : VIn) : VRes :=
  let c1 := Num.lane i.b.row 8
  let c2 := Num.lane i.b.row 9
  (map2 32 (fun d a => mergeAcc c1 c2 d a) i.d.row i.a.row,
    i.d.tags ||| i.a.tags ||| allLanes (tag i.b 8 || tag i.b 9))

def evalVtripProb (i : VIn) : VRes :=
  (map1 32 (fun a => Num.prob a (Num.lane i.b.row 0)) i.a.row, i.a.tags ||| allLanes (tag i.b 0))

end Sys2Proof.Machine
end

