-- ==== Sys2Proof/Machine/VecInt.lean ====
section
/-! DEFINITION. The vector integer and bit words (spec/06 R129 to R136): each result row with its tags. -/

namespace Sys2Proof.Machine

/-! ### Bitwise words and shifts (R130, R131) -/

def evalVand (i : VIn) : VRes := binary i fun a b => a &&& b
def evalVor (i : VIn) : VRes := binary i fun a b => a ||| b
def evalVxor (i : VIn) : VRes := binary i fun a b => a ^^^ b
def evalVnot (i : VIn) : VRes := unary i fun a => 2 ^ i.w - 1 - a

def evalVshl (i : VIn) : VRes := binary i fun a b => a * 2 ^ (b % i.w) % 2 ^ i.w
def evalVshr (i : VIn) : VRes := binary i fun a b => a / 2 ^ (b % i.w)

/-- Copies of bit w - 1 enter. -/
def sraElem (w a n : Nat) : Nat := if Nat.testBit a (w - 1) then 2 ^ w - 1 - (2 ^ w - 1 - a) / 2 ^ n else a / 2 ^ n

def evalVsra (i : VIn) : VRes := binary i fun a b => sraElem i.w a (b % i.w)

/-- The funnel shift: the count is the old D (R132). -/
def evalVfsh (i : VIn) : VRes :=
  ternary i fun a b d => (a * 2 ^ i.w + b) / 2 ^ (d % i.w) % 2 ^ i.w

/-! ### Counts (R133) -/

def clzNat (w a : Nat) : Nat := if a = 0 then w else w - 1 - Nat.log2 a

def popNat (w a : Nat) : Nat := (List.range w).foldl (fun n k => if Nat.testBit a k then n + 1 else n) 0

def evalVclz (i : VIn) : VRes := unary i fun a => clzNat i.w a
def evalVpopc (i : VIn) : VRes := unary i fun a => popNat i.w a

/-! ### Pack and unpack (R134 to R136) -/

/-- The narrowing forms: source elements of A, then of B, each through f. -/
def narrow (i : VIn) (f : Nat → Nat) : VRes :=
  let n := perRow i.w
  (Num.mkRow (i.w / 2) (2 * n) fun k =>
      if k < n then f (Num.elem i.w i.a.row k) else f (Num.elem i.w i.b.row (k - n)),
    allLanes (anyTag i.a || anyTag i.b))

def evalVpackWrap (i : VIn) : VRes := narrow i fun x => x % 2 ^ (i.w / 2)

/-- The type of half the width and the same signedness: the codes of R28 rise with the width. -/
def halfType (t : Nat) : Nat := t - 1

def evalVpackClamp (i : VIn) : VRes :=
  let lo := Num.loOf (halfType i.ty)
  let hi := Num.hiOf (halfType i.ty)
  narrow i fun x => Num.wrap (i.w / 2) (min (max (Num.intVal i.ty x) lo) hi)

/-- The run-time width n of the bit forms. -/
def bitWidth (b : Row) : Nat := min (b.toNat % 64) 32

def evalVpackBits (i : VIn) : VRes :=
  let n := bitWidth i.b.row
  (Num.mkRow n 64 fun k => Num.lane i.a.row k, allLanes (anyTag i.a || tag i.b 0))

/-- Widen half a row from element `from'`. -/
def widen (i : VIn) (from' : Nat) : VRes :=
  (Num.mkRow (2 * i.w) (1024 / i.w) fun k =>
      Num.wrap (2 * i.w) (Num.intVal i.ty (Num.elem i.w i.a.row (from' + k))),
    allLanes (anyTag i.a))

def evalVunpackLo (i : VIn) : VRes := widen i 0
def evalVunpackHi (i : VIn) : VRes := widen i (1024 / i.w)

def evalVunpackBits (i : VIn) : VRes :=
  let n := bitWidth i.b.row
  (Num.mkRow 32 64 fun k =>
      let f := Num.elem n i.a.row k
      if n = 0 then 0 else if i.ty = 9 then Num.wrap 32 (sgn n f) else f,
    allLanes (anyTag i.a || tag i.b 0))

end Sys2Proof.Machine
end

