-- ==== Sys2Proof/Machine/VecMem.lean ====
section
/-! DEFINITION. The V-words whose issue is their own: loop control (spec/04 R91, R92), masks (spec/07 R147), `VTAB` and
`VTLOAD` (R155, R158, R159), row words (spec/11 R239 to R242); and the table of all V-words. -/

namespace Sys2Proof.Machine

/-- `VNOP` (R54): nothing. -/
def opVnop : VOp :=
  { opc := 0, w := { ty := 0, d := 0, a := 0, b := 0, ps := false, fi := false, li := false, flv := 0, msk := 0,
                     rm := 0, sat := false, fx := 0 },
    run := fun _ _ _ => .ok [] }

/-- Read operand A of a word alone. -/
def readA (s : State) (b : Nat) (x : Block) (w : VWord) (k : VReg → VOut) : VOut :=
  match s.readOpnd b x (opnd w.a) 0 with
  | .wait => .wait
  | .range c => rangeTrap c
  | .ok a => k a

/-- The head move of operand A. -/
def moveA (w : VWord) : List Wr :=
  match opnd w.a with
  | .queue q true _ => [.qhead q 1]
  | _ => []

/-- `VBRK` (R92, R98, R447). -/
def opVbrk (w : VWord) : VOp :=
  { opc := 0x01, w := w, run := fun s b x =>
      let l := w.fx.toNat % 8
      if x.depth ≤ l then .trap 9 2 0 false
      else readA s b x w fun a =>
        if a.poison then .trap 8 0 0 false
        else if tag a 0 then deferred a.cause
        else .ok ((if Num.lane a.row 0 ≠ 0 then [.brk l] else []) ++ moveA w) }

/-- `VEND` (R91). -/
def opVend (w : VWord) : VOp := { opc := 0x02, w := w, run := fun _ _ _ => .ok [.endPoint] }

/-- The bits that `VMASK` takes from a lane (R147). -/
def maskBit (part x : Nat) : Bool :=
  match part with
  | 0 => x != 0
  | 1 => x % 65536 != 0
  | _ => x / 65536 != 0

/-- `VMASK` (R147, R446); under PS an out-of-range row reads as zeros with every lane tagged (R96). -/
def opVmask (w : VWord) : VOp :=
  { opc := 0x04, w := w, run := fun s b x =>
      let n := w.fx.toNat % 8
      let mk (a : VReg) : VOut :=
        .ok ([.mask n { bits := lanesWhere fun i => maskBit (w.fx.toNat / 8) (Num.lane a.row i), taint := anyTag a,
                        cause := if anyTag a then a.cause else 0, poison := a.poison }] ++ moveA w)
      match s.readOpnd b x (opnd w.a) 0 with
      | .wait => .wait
      | .range c => if w.ps && decide (c < inUseBase) then mk { VReg.zero with tags := BitVec.allOnes 64, cause := c } else rangeTrap c
      | .ok a => mk a }

/-- `VTLOAD` (R158); of the 13 rows the first is checked, then the last (DESIGN CHOICE, unsafe: log entry 69). -/
def opVtload (w : VWord) : VOp :=
  { opc := 0x21, w := w, run := fun s b x =>
      match opnd w.a with
      | .ad n off =>
        let r := (s.bank b).desc n
        let sp := descSpace r
        let row := descRow r x.ix off
        match s.freeKey (rowAt b sp row), rowAt b sp (row + 12) with
        | .error c, _ => rangeTrap c
        | _, .error c => rangeTrap c
        | .ok key, .ok _ =>
          let h := s.readRow b key
          if headerOk h.row then
            .ok [.bind (w.fx.toNat % 16) { cluster := sp, row := row.toNat, hdr := h.row, poison := h.poison }]
          else .trap 9 2 0 false
      | _ => .trap 9 2 0 false }

/-- The twelve coefficient rows of a bound table as they stand (R159). -/
def coefRows (s : State) (b : Nat) (t : TBind) : List VReg :=
  (List.range 12).map fun i => s.readRow b (rowKey b t.cluster (t.row + 1 + i))

/-- `VTAB` (R155, R159): an unbound slot is an illegal bundle of the illegal-operand kind, and comes before the check of the
operands' rows (DESIGN CHOICE, unsafe: log entry 68). -/
def opVtab (w : VWord) : VOp :=
  { opc := 0x20, w := w, run := fun s b x =>
      let k := w.fx.toNat
      if k < 16 then computeWord s b x 0x20 w evalVtab (.builtin k) false 0
      else match Assoc.get none (s.bank b).tabs (k - 16) with
        | none => .trap 9 2 0 false
        | some t =>
          let rows := coefRows s b t
          match (List.range 12).find? fun i => s.inUse (rowKey b t.cluster (t.row + 1 + i)) with
          | some i => .trap 12 0 (2 ^ 16 + t.row + 1 + i) false
          | none => computeWord s b x 0x20 w evalVtab (.bound t.hdr (rows.map VReg.row)) (t.poison || rows.any VReg.poison) 0 }

/-- A copy of A. -/
def evalCopy (i : VIn) : VRes := (i.a.row, i.a.tags)

/-- `VLD`, `VST` without an index (R239). -/
def opVld (w : VWord) : VOp := plainOp 0x60 w evalCopy
def opVst (w : VWord) : VOp := plainOp 0x61 w evalCopy

/-- The index of `VLD.idx` and `VST.idx`: lane 0 of B; a poisoned one stops the block (R239, R447). -/
def withIndex (s : State) (b : Nat) (x : Block) (w : VWord) (k : VReg → Int → VOut) : VOut :=
  match s.readOpnd b x (opnd w.b) 0 with
  | .wait => .wait
  | .range c =>
    if w.ps && decide (c < inUseBase) then k { VReg.zero with tags := BitVec.allOnes 64, cause := c } 0 else rangeTrap c
  | .ok i => if i.poison then .trap 8 0 0 false else k i (sgn 32 (Num.lane i.row 0))

/-- `VLD.idx` (R239): a tagged index tags every lane written. -/
def opVldIdx (w : VWord) : VOp :=
  { opc := 0x60, w := w, run := fun s b x =>
      withIndex s b x w fun i e =>
        computeWord s b x 0x60 w
          (fun v => (v.a.row, if tag i 0 then BitVec.allOnes 64 else v.a.tags)) .none false e }

/-- `VST.idx` (R239): a tagged index fires the deferred fault. -/
def opVstIdx (w : VWord) : VOp :=
  { opc := 0x61, w := w, run := fun s b x =>
      withIndex s b x w fun i e =>
        if tag i 0 then deferred i.cause else computeWord s b x 0x61 w evalCopy .none false e }

/-- The lanes that hold an enabled byte. -/
def enabledLanes (m : BitVec 256) : BitVec 64 := lanesWhere fun l => m.toNat / 2 ^ (4 * l) % 16 != 0

/-- `VSTM` with the enabled bytes m and the lanes of B that it reads (R240). -/
def maskedStore (w : VWord) (m : Row → BitVec 256) (bLanes : BitVec 64) : VOp :=
  { opc := 0x62, w := w, run := fun s b x =>
      match readOps s b x 0x62 w 0, opnd w.d, vForm 0x62 w.ty.toNat w.fx.toNat with
      | .error e, _, _ => e
      | .ok o, .ad n off, some f =>
        let en := m o.b.row
        let named := descKey b (s.bank b) x n off
        match if en = 0 then named else s.freeKey named with
        | .error c => rangeTrap c
        | .ok key =>
          if o.a.tags &&& enabledLanes en ≠ 0 then deferred o.a.cause
          else if o.b.tags &&& bLanes ≠ 0 then deferred o.b.cause
          else .ok ([.cell key o.a.row (some en) (o.a.poison || o.b.poison)] ++ headMoves w f)
      | _, _, _ => .trap 9 2 0 false }

/-- The enabled bytes of `VSTM.bits`: bits of lanes 0 to 7 of B. -/
def bitsMask (b : Row) : BitVec 256 := BitVec.ofNat 256 b.toNat

/-- The enabled bytes of `VSTM.rng`. -/
def rngMask (b : Row) : BitVec 256 :=
  let f := b.toNat % 256
  let c := b.toNat / 256 % 512
  let stop := min (f + c) 256
  BitVec.ofNat 256 (2 ^ stop - 2 ^ f)

def opVstmBits (w : VWord) : VOp := maskedStore w bitsMask 0xFF
def opVstmRng (w : VWord) : VOp := maskedStore w rngMask 1

/-- The keys of n rows from a descriptor operand, or the first row out of range. -/
def rowRun (s : State) (b : Nat) (x : Block) (n : Nat) (off : Int) : Nat → Except Nat (List Nat)
  | 0 => .ok []
  | c + 1 =>
    match s.freeKey (descKey b (s.bank b) x n off) with
    | .error e => .error e
    | .ok key =>
      match rowRun s b x n (off + 1) c with
      | .error e => .error e
      | .ok ks => .ok (key :: ks)

/-- `VXQ` (R242): n rows between a queue and consecutive rows. -/
def opVxq (w : VWord) : VOp :=
  { opc := 0x63, w := w, run := fun s b x =>
      let n := w.fx.toNat % 16 + 1
      let k := s.bank b
      match opnd w.a, opnd w.d with
      | .queue q adv j, .ad ad off =>
        let z := k.queue q
        if z.fill < j + n then .wait
        else match rowRun s b x ad off n with
          | .error c => rangeTrap c
          | .ok keys =>
            .ok ((keys.mapIdx fun i key =>
                let e := z.slot q (z.head + j + i)
                Wr.cell key e.row none e.poison) ++ if adv then [.qhead q n] else [])
      | .ad ad off, .queue q adv j =>
        let z := k.queue q
        if z.head + 16 < z.tail + j + n then .wait
        else match rowRun s b x ad off n with
          | .error c => rangeTrap c
          | .ok keys =>
            .ok ((keys.mapIdx fun i key =>
                let r := s.readRow b key
                Wr.qput q (z.tail + j + i) r.row (BitVec.allOnes 64) r.poison) ++ if adv then [.qtail q n] else [])
      | _, _ => .trap 9 2 0 false }

/-- `VCOMMIT` (R100): a tagged lane that is chosen fires its deferred fault; D is written untagged. -/
def opVcommit (w : VWord) : VOp :=
  { opc := 0x42, w := w, run := fun s b x =>
      match readOps s b x 0x42 w 0 with
      | .error e => e
      | .ok o0 =>
        let m := (s.bank b).mskOf w.msk
        let a := taintBy m o0.a
        let bb := taintBy m o0.b
        match (List.range 64).find? fun i => if m.bits.getLsbD i then tag a i else tag bb i with
        | some i => deferred (if m.bits.getLsbD i then a.cause else bb.cause)
        | none =>
          let m' : Mask := { m with taint := false }
          let row := (chooseLanes (vIn x w { a := a, b := bb, d := VReg.zero, spec := 0 } m' .none)).1
          let all := BitVec.allOnes 64
          let poison := a.poison || bb.poison || m.poison
          let form := plainForm true true true true 0
          (writeDest s b x w 0 row 0 all 0 poison true).also (latchWrite 0x42 row 0 all 0 poison ++ headMoves w form) }

/-! ### The other words compute a row from their operands -/

/-- `VTRIP_MRG` (R188). -/
def opVtripMrg (w : VWord) : VOp := plainOp 0x03 w evalVtripMrg
/-- `VTRIP_ACC` (R188). -/
def opVtripAcc (w : VWord) : VOp := plainOp 0x03 w evalVtripAcc
/-- `VTRIP_PROB` (R188). -/
def opVtripProb (w : VWord) : VOp := plainOp 0x03 w evalVtripProb
/-- `VADD` (R141). -/
def opVadd (w : VWord) : VOp := plainOp 0x10 w evalVadd
/-- `VSUB` (R141). -/
def opVsub (w : VWord) : VOp := plainOp 0x11 w evalVsub
/-- `VMUL` (R141). -/
def opVmul (w : VWord) : VOp := plainOp 0x12 w evalVmul
/-- `VFMA` (R141). -/
def opVfma (w : VWord) : VOp := plainOp 0x13 w evalVfma
/-- `VFMS` (R141). -/
def opVfms (w : VWord) : VOp := plainOp 0x14 w evalVfms
/-- `VMIN` (R142). -/
def opVmin (w : VWord) : VOp := plainOp 0x15 w evalVmin
/-- `VMAX` (R142). -/
def opVmax (w : VWord) : VOp := plainOp 0x16 w evalVmax
/-- `VABS` (R141). -/
def opVabs (w : VWord) : VOp := plainOp 0x17 w evalVabs
/-- `VNEG` (R141). -/
def opVneg (w : VWord) : VOp := plainOp 0x18 w evalVneg
/-- `VRCP` (R141). -/
def opVrcp (w : VWord) : VOp := plainOp 0x19 w evalVrcp
/-- `VRSQ` (R141). -/
def opVrsq (w : VWord) : VOp := plainOp 0x1A w evalVrsq
/-- `VEXP` (R141). -/
def opVexp (w : VWord) : VOp := plainOp 0x1B w evalVexp
/-- `VEXP_SUB` (R141). -/
def opVexpSub (w : VWord) : VOp := plainOp 0x1B w evalVexpSub
def opVcvt (w : VWord) : VOp := plainOp 0x22 w evalVcvt
/-- `VQNT` (R144). -/
def opVqnt (w : VWord) : VOp := plainOp 0x23 w evalVqnt
/-- `VDQNT` (R144). -/
def opVdqnt (w : VWord) : VOp := plainOp 0x24 w evalVdqnt
/-- `VAND` (R130). -/
def opVand (w : VWord) : VOp := plainOp 0x30 w evalVand
/-- `VOR` (R130). -/
def opVor (w : VWord) : VOp := plainOp 0x31 w evalVor
/-- `VXOR` (R130). -/
def opVxor (w : VWord) : VOp := plainOp 0x32 w evalVxor
/-- `VNOT` (R130). -/
def opVnot (w : VWord) : VOp := plainOp 0x33 w evalVnot
/-- `VSHL` (R131). -/
def opVshl (w : VWord) : VOp := plainOp 0x34 w evalVshl
/-- `VSHR` (R131). -/
def opVshr (w : VWord) : VOp := plainOp 0x35 w evalVshr
/-- `VSRA` (R131). -/
def opVsra (w : VWord) : VOp := plainOp 0x36 w evalVsra
/-- `VFSH` (R132). -/
def opVfsh (w : VWord) : VOp := plainOp 0x37 w evalVfsh
def opVclz (w : VWord) : VOp := plainOp 0x38 w evalVclz
/-- `VPOPC` (R133). -/
def opVpopc (w : VWord) : VOp := plainOp 0x39 w evalVpopc
/-- `VPACK_WRAP` (R134). -/
def opVpackWrap (w : VWord) : VOp := plainOp 0x3A w evalVpackWrap
/-- `VPACK_CLAMP` (R134). -/
def opVpackClamp (w : VWord) : VOp := plainOp 0x3A w evalVpackClamp
/-- `VPACK_BITS` (R134). -/
def opVpackBits (w : VWord) : VOp := plainOp 0x3A w evalVpackBits
/-- `VUNPACK_LO` (R135). -/
def opVunpackLo (w : VWord) : VOp := plainOp 0x3B w evalVunpackLo
/-- `VUNPACK_HI` (R135). -/
def opVunpackHi (w : VWord) : VOp := plainOp 0x3B w evalVunpackHi
/-- `VUNPACK_BITS` (R135). -/
def opVunpackBits (w : VWord) : VOp := plainOp 0x3B w evalVunpackBits
def opVcmp (w : VWord) : VOp := plainOp 0x40 w evalVcmp
/-- `VSEL` (R148). -/
def opVsel (w : VWord) : VOp := plainOp 0x41 w evalVsel
/-- `VRED` (R150). -/
def opVred (w : VWord) : VOp := plainOp 0x50 w evalVred
/-- `VSCAN` (R151). -/
def opVscan (w : VWord) : VOp := plainOp 0x51 w evalVscan
/-- `VGMAX` (R152). -/
def opVgmax (w : VWord) : VOp := plainOp 0x52 w evalVgmax
/-- `VPERM` (R153). -/
def opVperm (w : VWord) : VOp := plainOp 0x53 w evalVperm
/-- `VBCAST` (R153). -/
def opVbcast (w : VWord) : VOp := plainOp 0x54 w evalVbcast
/-- `VIOTA` (R153). -/
def opViota (w : VWord) : VOp := plainOp 0x55 w evalViota
/-- `VROTM` (R241). -/
def opVrotm (w : VWord) : VOp := plainOp 0x56 w evalVrotm
/-- `VMOV` (R148). -/
def opVmov (w : VWord) : VOp := plainOp 0x64 w evalVmov

/-- The V-word of a slot (R53); none for an instruction that is no V-word. -/
def vOp (i : Instr) : Option VOp :=
  match i with
  | .vnop => some opVnop
  | .vbrk w => some (opVbrk w)
  | .vend w => some (opVend w)
  | .vtripMrg w => some (opVtripMrg w)
  | .vtripAcc w => some (opVtripAcc w)
  | .vtripProb w => some (opVtripProb w)
  | .vmask w => some (opVmask w)
  | .vadd w => some (opVadd w)
  | .vsub w => some (opVsub w)
  | .vmul w => some (opVmul w)
  | .vfma w => some (opVfma w)
  | .vfms w => some (opVfms w)
  | .vmin w => some (opVmin w)
  | .vmax w => some (opVmax w)
  | .vabs w => some (opVabs w)
  | .vneg w => some (opVneg w)
  | .vrcp w => some (opVrcp w)
  | .vrsq w => some (opVrsq w)
  | .vexp w => some (opVexp w)
  | .vexpSub w => some (opVexpSub w)
  | .vtab w => some (opVtab w)
  | .vtload w => some (opVtload w)
  | .vcvt w => some (opVcvt w)
  | .vqnt w => some (opVqnt w)
  | .vdqnt w => some (opVdqnt w)
  | .vand w => some (opVand w)
  | .vor w => some (opVor w)
  | .vxor w => some (opVxor w)
  | .vnot w => some (opVnot w)
  | .vshl w => some (opVshl w)
  | .vshr w => some (opVshr w)
  | .vsra w => some (opVsra w)
  | .vfsh w => some (opVfsh w)
  | .vclz w => some (opVclz w)
  | .vpopc w => some (opVpopc w)
  | .vpackWrap w => some (opVpackWrap w)
  | .vpackClamp w => some (opVpackClamp w)
  | .vpackBits w => some (opVpackBits w)
  | .vunpackLo w => some (opVunpackLo w)
  | .vunpackHi w => some (opVunpackHi w)
  | .vunpackBits w => some (opVunpackBits w)
  | .vcmp w => some (opVcmp w)
  | .vsel w => some (opVsel w)
  | .vcommit w => some (opVcommit w)
  | .vred w => some (opVred w)
  | .vscan w => some (opVscan w)
  | .vgmax w => some (opVgmax w)
  | .vperm w => some (opVperm w)
  | .vbcast w => some (opVbcast w)
  | .viota w => some (opViota w)
  | .vrotm w => some (opVrotm w)
  | .vld w => some (opVld w)
  | .vldIdx w => some (opVldIdx w)
  | .vst w => some (opVst w)
  | .vstIdx w => some (opVstIdx w)
  | .vstmBits w => some (opVstmBits w)
  | .vstmRng w => some (opVstmRng w)
  | .vxq w => some (opVxq w)
  | .vmov w => some (opVmov w)
  | _ => none

/-! ### A bundle that holds one V-word -/

/-- `VNOP` (R54). -/
def execVnop (s : State) : Out := issueV s opVnop
/-- `VBRK` (R92). -/
def execVbrk (w : VWord) (s : State) : Out := issueV s (opVbrk w)
/-- `VEND` (R91). -/
def execVend (w : VWord) (s : State) : Out := issueV s (opVend w)
/-- `VTRIP_MRG` (R188). -/
def execVtripMrg (w : VWord) (s : State) : Out := issueV s (opVtripMrg w)
/-- `VTRIP_ACC` (R188). -/
def execVtripAcc (w : VWord) (s : State) : Out := issueV s (opVtripAcc w)
/-- `VTRIP_PROB` (R188). -/
def execVtripProb (w : VWord) (s : State) : Out := issueV s (opVtripProb w)
/-- `VMASK` (R147). -/
def execVmask (w : VWord) (s : State) : Out := issueV s (opVmask w)
/-- `VADD` (R141). -/
def execVadd (w : VWord) (s : State) : Out := issueV s (opVadd w)
/-- `VSUB` (R141). -/
def execVsub (w : VWord) (s : State) : Out := issueV s (opVsub w)
/-- `VMUL` (R141). -/
def execVmul (w : VWord) (s : State) : Out := issueV s (opVmul w)
/-- `VFMA` (R141). -/
def execVfma (w : VWord) (s : State) : Out := issueV s (opVfma w)
/-- `VFMS` (R141). -/
def execVfms (w : VWord) (s : State) : Out := issueV s (opVfms w)
/-- `VMIN` (R142). -/
def execVmin (w : VWord) (s : State) : Out := issueV s (opVmin w)
/-- `VMAX` (R142). -/
def execVmax (w : VWord) (s : State) : Out := issueV s (opVmax w)
/-- `VABS` (R141). -/
def execVabs (w : VWord) (s : State) : Out := issueV s (opVabs w)
/-- `VNEG` (R141). -/
def execVneg (w : VWord) (s : State) : Out := issueV s (opVneg w)
/-- `VRCP` (R141). -/
def execVrcp (w : VWord) (s : State) : Out := issueV s (opVrcp w)
/-- `VRSQ` (R141). -/
def execVrsq (w : VWord) (s : State) : Out := issueV s (opVrsq w)
/-- `VEXP` (R141). -/
def execVexp (w : VWord) (s : State) : Out := issueV s (opVexp w)
/-- `VEXP_SUB` (R141). -/
def execVexpSub (w : VWord) (s : State) : Out := issueV s (opVexpSub w)
/-- `VTAB` (R155). -/
def execVtab (w : VWord) (s : State) : Out := issueV s (opVtab w)
/-- `VTLOAD` (R158). -/
def execVtload (w : VWord) (s : State) : Out := issueV s (opVtload w)
/-- `VCVT` (R144). -/
def execVcvt (w : VWord) (s : State) : Out := issueV s (opVcvt w)
/-- `VQNT` (R144). -/
def execVqnt (w : VWord) (s : State) : Out := issueV s (opVqnt w)
/-- `VDQNT` (R144). -/
def execVdqnt (w : VWord) (s : State) : Out := issueV s (opVdqnt w)
/-- `VAND` (R130). -/
def execVand (w : VWord) (s : State) : Out := issueV s (opVand w)
/-- `VOR` (R130). -/
def execVor (w : VWord) (s : State) : Out := issueV s (opVor w)
/-- `VXOR` (R130). -/
def execVxor (w : VWord) (s : State) : Out := issueV s (opVxor w)
/-- `VNOT` (R130). -/
def execVnot (w : VWord) (s : State) : Out := issueV s (opVnot w)
/-- `VSHL` (R131). -/
def execVshl (w : VWord) (s : State) : Out := issueV s (opVshl w)
/-- `VSHR` (R131). -/
def execVshr (w : VWord) (s : State) : Out := issueV s (opVshr w)
/-- `VSRA` (R131). -/
def execVsra (w : VWord) (s : State) : Out := issueV s (opVsra w)
/-- `VFSH` (R132). -/
def execVfsh (w : VWord) (s : State) : Out := issueV s (opVfsh w)
/-- `VCLZ` (R133). -/
def execVclz (w : VWord) (s : State) : Out := issueV s (opVclz w)
/-- `VPOPC` (R133). -/
def execVpopc (w : VWord) (s : State) : Out := issueV s (opVpopc w)
/-- `VPACK_WRAP` (R134). -/
def execVpackWrap (w : VWord) (s : State) : Out := issueV s (opVpackWrap w)
/-- `VPACK_CLAMP` (R134). -/
def execVpackClamp (w : VWord) (s : State) : Out := issueV s (opVpackClamp w)
/-- `VPACK_BITS` (R134). -/
def execVpackBits (w : VWord) (s : State) : Out := issueV s (opVpackBits w)
/-- `VUNPACK_LO` (R135). -/
def execVunpackLo (w : VWord) (s : State) : Out := issueV s (opVunpackLo w)
/-- `VUNPACK_HI` (R135). -/
def execVunpackHi (w : VWord) (s : State) : Out := issueV s (opVunpackHi w)
/-- `VUNPACK_BITS` (R135). -/
def execVunpackBits (w : VWord) (s : State) : Out := issueV s (opVunpackBits w)
/-- `VCMP` (R146). -/
def execVcmp (w : VWord) (s : State) : Out := issueV s (opVcmp w)
/-- `VSEL` (R148). -/
def execVsel (w : VWord) (s : State) : Out := issueV s (opVsel w)
/-- `VCOMMIT` (R100). -/
def execVcommit (w : VWord) (s : State) : Out := issueV s (opVcommit w)
/-- `VRED` (R150). -/
def execVred (w : VWord) (s : State) : Out := issueV s (opVred w)
/-- `VSCAN` (R151). -/
def execVscan (w : VWord) (s : State) : Out := issueV s (opVscan w)
/-- `VGMAX` (R152). -/
def execVgmax (w : VWord) (s : State) : Out := issueV s (opVgmax w)
/-- `VPERM` (R153). -/
def execVperm (w : VWord) (s : State) : Out := issueV s (opVperm w)
/-- `VBCAST` (R153). -/
def execVbcast (w : VWord) (s : State) : Out := issueV s (opVbcast w)
/-- `VIOTA` (R153). -/
def execViota (w : VWord) (s : State) : Out := issueV s (opViota w)
/-- `VROTM` (R241). -/
def execVrotm (w : VWord) (s : State) : Out := issueV s (opVrotm w)
/-- `VLD` (R239). -/
def execVld (w : VWord) (s : State) : Out := issueV s (opVld w)
/-- `VLD_IDX` (R239). -/
def execVldIdx (w : VWord) (s : State) : Out := issueV s (opVldIdx w)
/-- `VST` (R239). -/
def execVst (w : VWord) (s : State) : Out := issueV s (opVst w)
/-- `VST_IDX` (R239). -/
def execVstIdx (w : VWord) (s : State) : Out := issueV s (opVstIdx w)
/-- `VSTM_BITS` (R240). -/
def execVstmBits (w : VWord) (s : State) : Out := issueV s (opVstmBits w)
/-- `VSTM_RNG` (R240). -/
def execVstmRng (w : VWord) (s : State) : Out := issueV s (opVstmRng w)
/-- `VXQ` (R242). -/
def execVxq (w : VWord) (s : State) : Out := issueV s (opVxq w)
/-- `VMOV` (R148). -/
def execVmov (w : VWord) (s : State) : Out := issueV s (opVmov w)

end Sys2Proof.Machine
end

