-- ==== Sys2Proof/Machine/Bundle.lean ====
section
/-! DEFINITION. The steps of the loop engine: starting a block, popping a bound, issuing a bundle, completing an M-word,
retiring, migrating (spec/02 R58 to R62, spec/04 R84 to R92, spec/08 R174 to R180). -/

namespace Sys2Proof.Machine

/-! ### Which block has the loop engine (R85, R179, R358, R419) -/

/-- Whether bank k's block holds the loop engine of its own core. -/
def Bank.holdsLE (k : Bank) : Bool :=
  match k.block with
  | some x => x.host.isNone && !x.home && !x.trapped && k.blockServed x
  | none => false

/-- A block of bank k is back from another core and waits for its own loop engine (R180). -/
def Bank.backHome (k : Bank) : Bool :=
  match k.block with
  | some x => x.home && !x.trapped && k.blockServed x
  | none => false

/-- Whether a block of another core runs on core c (R179). -/
def State.hostsOther (s : State) (c : Nat) : Bool :=
  s.banks.any fun p => match p.2.block with
    | some x => x.host == some c
    | none => false

/-- Whether the loop engine of core c runs no block. -/
def State.leIdle (s : State) (c : Nat) : Bool :=
  !(s.bank (2 * c)).holdsLE && !(s.bank (2 * c + 1)).holdsLE && !s.hostsOther c

def State.turnOf (s : State) (b e : Nat) : Nat := Assoc.get 0 (s.core (bankCore b)).engTurn e

/-- Note that bank b's command issued last in engine e (R358). -/
def State.takeTurn (s : State) (b e : Nat) : State :=
  s.modCore (bankCore b) fun c => { c with engTurn := Assoc.set 0 c.engTurn e (b % 2) }

/-- Whether bank b's block may act now: where two banks of a core hold unfinished blocks, the one that issued last
goes on (R358, R419). -/
def State.ownsLE (s : State) (b : Nat) : Bool :=
  match (s.bank b).block with
  | some x =>
    (s.bank b).blockServed x && !x.home && (x.host.isSome ||
      (!(s.bank (otherBank b)).holdsLE || s.turnOf b engLE == b % 2) && !s.hostsOther (bankCore b))
  | none => false

/-- The steps that bank b's block is owed. -/
def State.oweBlock (s : State) (b : Nat) : State :=
  let s1 := if (s.bank b).arr ≠ [] then s.owe (.mwordComplete b) else s
  match (s.bank b).block with
  | none => s1
  | some x =>
    if x.trapped then s1
    else if x.home then s1.owe (.blockMigrateReturn b)
    else match x.phase with
      | .enter _ _ => s1.owe (.loopBoundPop b)
      | .issue => s1.owe (.bundleIssue b)
      | .finished => s1.owe (.blockRetire b)

/-! ### Decoding a bundle (R58, R59, R61, R91, R436) -/

def bundleV0 (w : BundleBits) : Nat := w.toNat % 2 ^ 96
def bundleV1 (w : BundleBits) : Nat := w.toNat / 2 ^ 96 % 2 ^ 96
def bundleM (w : BundleBits) : Nat := w.toNat / 2 ^ 192 % 2 ^ 192

/-- The V-word of a slot; the sub-code of R414 where it is illegal: 1 an encoding, 2 a forbidden operand. -/
def slotV (w : Nat) : Except Nat VOp :=
  match decodeV w with
  | none => .error 1
  | some i =>
    match vOp i with
    | none => .error 1
    | some o => if vForbidden o.opc o.w then .error 2 else .ok o

/-- The M-word of a slot; an all-zero word is the empty slot (R57). -/
def slotM (w : Nat) : Except Nat (Option MOp) :=
  if w = 0 then .ok none
  else match decodeM w with
    | none => .error 1
    | some i =>
      match mOp i with
      | none => .error 1
      | some o => if mForbidden o.mop o.w then .error 2 else .ok (some o)

/-- The register or data queue that a V-word names as D. -/
def VOp.dest (o : VOp) : Option Opnd :=
  match vForm o.opc o.w.ty.toNat o.w.fx.toNat with
  | some f =>
    if f.d then match opnd o.w.d with
      | .v i => some (.v i)
      | .o i => some (.o i)
      | .queue q _ _ => if q < 6 then some (.queue q false 0) else none
      | _ => none
    else none
  | none => none

/-- Whether an M-word writes register i (R59). -/
def MOp.writesV (m : MOp) (i : Nat) : Bool :=
  (m.mop == 6 && (i == specV m.w.aspec || i == specV m.w.aspec + 1)) ||
  (m.mop == 8 && specSrc m.w.bspec == 0 && decide (specV m.w.bspec ≤ i) && decide (i < specV m.w.bspec + transRows m.w))

/-- A V-word whose D an M-word writes too: its register destinations count as a slot's D
(DESIGN CHOICE, unsafe: log entry 68). -/
def clashM (o : VOp) (m : Option MOp) : Bool :=
  match o.dest, m with
  | some (.v i), some w => w.writesV i
  | _, _ => false

/-- The lowest slot of a clash between slots (R59, R61, R91). -/
def clashSlot (v0 v1 : VOp) (m : Option MOp) : Option Nat :=
  if (v0.opc == 2 && v1.opc == 2) || (v0.dest.isSome && v0.dest == v1.dest) || clashM v0 m then some 0
  else if clashM v1 m then some 1
  else none

/-- A registered block may not name `dq4`, `dq5`, `oq0` or `oq1` as D (R436). -/
def VOp.queueDest (o : VOp) : Bool :=
  match vForm o.opc o.w.ty.toNat o.w.fx.toNat with
  | some f => f.d && (opnd o.w.d).isQueue
  | none => false

/-- A decoded bundle, or the slot and sub-code of its illegal-bundle trap (R61): of several illegal slots the lowest, of one slot
its encoding before its operands, a clash last (DESIGN CHOICE, unsafe: log entry 68). -/
def decodeBundle (registered : Bool) (w : BundleBits) : Except (Nat × Nat) (VOp × VOp × Option MOp) :=
  match slotV (bundleV0 w), slotV (bundleV1 w), slotM (bundleM w) with
  | .error u, _, _ => .error (0, u)
  | .ok v0, r1, rm =>
    if registered && v0.queueDest then .error (0, 2)
    else match r1 with
      | .error u => .error (1, u)
      | .ok v1 =>
        if registered && v1.queueDest then .error (1, 2)
        else match rm with
          | .error u => .error (2, u)
          | .ok m =>
            match clashSlot v0 v1 m with
            | some k => .error (k, 2)
            | none => .ok (v0, v1, m)

/-! ### Migrated blocks (R180) -/

/-- Whether an operand of a V-word keeps a block at home: a queue, or a row of core scratchpad. -/
def homeOpnd (k : Bank) (o : Opnd) : Bool :=
  match o with
  | .queue _ _ _ => true
  | .ad n _ => !descSpace (k.desc n)
  | _ => false

def VOp.needsHome (o : VOp) (k : Bank) : Bool :=
  match vForm o.opc o.w.ty.toNat o.w.fx.toNat with
  | some f =>
    (f.d && homeOpnd k (opnd o.w.d)) || (f.a && homeOpnd k (opnd o.w.a)) || (f.b && homeOpnd k (opnd o.w.b)) ||
    (o.opc == 0x20 && match Assoc.get none k.tabs (o.w.fx.toNat - 16) with
      | some t => decide (16 ≤ o.w.fx.toNat) && !t.cluster
      | none => false)
  | none => false

def MOp.needsHome (m : MOp) (k : Bank) : Bool :=
  (m.mop != 3 && m.mop != 7 && specSrc m.w.aspec == 1) ||
  ((m.mop == 1 || m.mop == 2 || m.mop == 8) && specSrc m.w.bspec == 1) ||
  (m.mop == 2 && bits m.w.sspec 23 22 == 2 && !descSpace (k.desc (bits m.w.sspec 21 16)))

/-- The next bundle of a block needs the block's own core (R180). -/
def State.wantsHome (s : State) (b : Nat) (x : Block) : Bool :=
  let k := s.bank b
  x.phase == .issue && match decodeBundle x.rst.isSome (Assoc.get 0 k.ibuf x.idx) with
  | .error _ => false
  | .ok (v0, v1, m) => v0.needsHome k || v1.needsHome k || (m.map fun o => o.needsHome k).getD false

/-! ### BUNDLE_ISSUE -/

/-- The loop engine of bank b issues the next bundle of its block (R61, R62, R86); one in a poisoned row chooses no path
(DEDUCED, safe: log entry 74), and one in a tentative row waits until that is final (R323). -/
def execBundleIssue (b : Nat) (s : State) : Out :=
  if !validBank b then .fault .noSuchAgent
  else match (s.bank b).block with
    | none => .next s
    | some x =>
      if x.phase ≠ .issue ∨ x.trapped then .next s
      else if !s.ownsLE b || s.tentNear b then .next (s.owe (.bundleIssue b))
      else if 1023 < x.idx then .next (s.trapBlock b x (leTrap x 1023 0 9 2 0 false))
      else if (bundleRows x.idx).any fun r => (s.bank b).itent.any fun t => t.1 == r then .next (s.owe (.bundleIssue b))
      else if (bundleRows x.idx).any fun r => (s.bank b).ibad.contains r then
        .next (s.trapBlock b x (leTrap x x.idx 0 8 0 0 false))
      else match decodeBundle x.rst.isSome (Assoc.get 0 (s.bank b).ibuf x.idx) with
        | .error (slot, sub) => .next (s.trapBlock b x (leTrap x x.idx slot 9 sub 0 false))
        | .ok (v0, v1, m) =>
          if x.host.isSome && s.wantsHome b x then .next (s.owe (.blockMigrateReturn b))
          else .next ((s.issueWords b x (some v0) (some v1) m).oweBlock b)

/-! ### BLOCK_START (R84, R85, R434, R435) -/

/-- Apply an engine-setting word of the loop engine (R39). -/
def Bank.setting (k : Bank) (c : Cmd) : Option Bank :=
  match c.op with
  | .lnset n src => some { k with lbs := Assoc.set (.value 0) k.lbs n src }
  | .adset n rec => some { k with ads := Assoc.set 0 k.ads n rec }
  | .mblk rec => some { k with mblk := some rec }
  | _ => none

/-- Apply the engine-setting words at the head of the loop engine's queue. -/
def Bank.settings (k : Bank) : List Cmd → Bank
  | [] => k.setCmdq engLE []
  | c :: cs =>
    match k.setting c with
    | some k' => Bank.settings k' cs
    | none => k.setCmdq engLE (c :: cs)

/-- Whether bank k's next `RUN` could issue (R48, R65). -/
def Bank.leReady (k : Bank) : Bool :=
  k.served && k.block.isNone && k.copied &&
  (match (k.settings (k.cmdq engLE)).cmdq engLE with
   | c :: _ => k.canIssue engLE c.ext && (k.faults.all fun t => t.eng != engLE)
   | [] => false)

/-- The block of a `RUN` before its first point. -/
def newBlock (k : Bank) (c : Cmd) (reg : Word) (sregs : Assoc Word) (frm : BitVec 2) (hkey : Word) (host : Option Nat) :
    Block :=
  { start := bits reg 9 0, depth := bits reg 18 16, first := bits reg 9 0, idx := bits reg 9 0, phase := .issue,
    trapped := false, lx := [], bnd := [], brk := 6, sregs := sregs, frm := frm, hkey := hkey, pc := c.pc, ext := c.ext,
    rst := k.mblk, hc := [], host := host }

/-- An extension word with no pop and no barrier wait. -/
def Ext.taken (x : Ext) : Ext := { x with popa := 7, popb := 7, popc := 7, wt := false, wcb := 0 }

/-- The `RUN` at the head of the queue issues: its pops are taken and its block enters its first point. A registered
block whose RLBL lies below START does not start (R435). -/
def State.startBlock (s : State) (b : Nat) (host : Option Nat) : State :=
  let k0 := s.bank b
  let k := k0.settings (k0.cmdq engLE)
  match k.cmdq engLE with
  | c :: cs =>
    match c.op with
    | .run reg sregs frm hkey =>
      let k1 := k.takePops engLE c.ext
      let x := newBlock k1 c reg sregs frm hkey host
      let bad := match k1.mblk with
        | some r => decide (bits r 9 0 < x.start)
        | none => false
      if bad then
        (s.setBank b (k1.setCmdq engLE ({ c with ext := Ext.taken c.ext } :: cs))).raise b
          (leTrap x x.start 0 9 2 0 false)
      else
        let k2 := { k1.setCmdq engLE cs with mblk := none, leWait := none }
        let s1 := s.setBank b { k2 with block := some (walkNest k2 nestFuel x (.enter 0 0)) }
        (if host.isNone then s1.takeTurn b engLE else s1).oweBlock b
    | _ => s.setBank b k
  | [] => s.setBank b k

/-- A block of bank b starts: the engine-setting words before its `RUN` take effect, then the `RUN` issues when it can
(R48, R85, R358). -/
def execBlockStart (b : Nat) (s : State) : Out :=
  if !validBank b then .fault .noSuchAgent
  else
    let k := s.bank b
    if !k.served then .next (s.setBank b { k with leWait := none })
    else if k.block.isSome || (k.cmdq engLE).isEmpty then .next s
    else if !k.leReady then
      let k1 := { k.settings (k.cmdq engLE) with leWait := none }
      let s1 := s.setBank b k1
      .next (if (k1.cmdq engLE).isEmpty then s1 else s1.owe (.blockStart b))
    else
      let free := s.leIdle (bankCore b)
      let o := s.bank (otherBank b)
      let yields := o.backHome || (o.leReady && s.turnOf b engLE == b % 2)
      if free && !yields then .next (s.startBlock b none)
      else
        let k1 := { k with leWait := if o.holdsLE then some (k.leWait.getD s.counter) else none }
        .next ((s.setBank b k1).owe (.blockStart b))

/-! ### LOOP_BOUND_POP (R88, R447) -/

/-- The bound of the level that waits is drawn from its queue; a poisoned one chooses nothing, and one too large has left its
queue (R88). -/
def execLoopBoundPop (b : Nat) (s : State) : Out :=
  if !validBank b then .fault .noSuchAgent
  else match (s.bank b).block with
    | none => .next s
    | some x =>
      match x.phase with
      | .enter from' l =>
        let k := s.bank b
        match k.bsrc l with
        | .value _ => .next s
        | .queue q =>
          let z := k.queue q
          let e := z.slot q z.head
          let v := e.row.toNat % 2 ^ 32
          if x.trapped then .next s
          else if !s.ownsLE b || z.fill = 0 then .next (s.owe (.loopBoundPop b))
          else if e.poison then .next (s.trapBlock b x (leTrap x x.first 0 8 0 0 false))
          else
            let k1 := k.setQueue q { z with head := z.head + 1 }
            if 2 ^ 24 ≤ v then .next ((s.setBank b k1).trapBlock b x (leTrap x x.first 0 9 2 0 false))
            else
              let y := x.setBound l v
              let y1 := if v ≠ 0 ∧ l = 0 then y.checkpoint k1 else y
              let y2 :=
                if v ≠ 0 then walkNest k1 nestFuel y1 (.enter from' (l + 1))
                else if from' = 0 then { y1 with phase := .finished }
                else walkNest k1 nestFuel y1 (.next from')
              .next ((s.setBank b { k1 with block := some y2 }).oweBlock b)
      | _ => .next s

/-! ### MWORD_COMPLETE, PAIRED_WINDOW_START (R174, R178) -/

/-- Paired mode of bank b's core: the window length, when ACMODE pairs it (R177, R178) (DEDUCED, safe: log entry 49). -/
def State.pairedWindow (s : State) (b : Nat) : Option Nat :=
  let m := (s.cluster (bankCluster b)).acmode
  if bits m 1 0 = 2 ∧ bit m (10 + coreNum b % 8 / 2) then some (32 * 2 ^ bits m 9 8) else none

/-- The oldest M-word of bank b completes in the array; in paired mode only once its last unit has ended (R178). -/
def execMwordComplete (b : Nat) (s : State) : Out :=
  if !validBank b then .fault .noSuchAgent
  else match (s.bank b).arr with
    | [] => .next s
    | o :: rest =>
      let paired := (s.pairedWindow b).isSome
      if paired && !o.started then .next (s.owe (.pairedWindowStart b))
      else if paired && decide (s.copyOf (bankDie b) < o.till) then .next (s.owe (.mwordComplete b))
      else
        let next (x : ArrOp) : ArrOp := { x with since := max x.since o.till }
        let s1 := s.arrayApply b o
        .next ((s1.modBank b fun k => { k with arr := (rest.take 1).map next ++ rest.drop 1 }).oweBlock b)

/-- PAIRED_WINDOW_START (R178): the first unit of bank b's waiting M-word starts in a window of its core in which it ends, and
with it the times of all its units are fixed (DEDUCED, safe: log entry 49). -/
def execPairedWindowStart (b : Nat) (s : State) : Out :=
  if !validBank b then .fault .noSuchAgent
  else match (s.bank b).arr with
    | [] => .next s
    | o :: rest =>
      let start (till : Nat) : State :=
        (s.modBank b fun k => { k with arr := { o with started := true, till := till } :: rest }).owe (.mwordComplete b)
      match s.pairedWindow b with
      | none => .next (start o.since)
      | some w =>
        if o.started then .next (s.owe (.mwordComplete b))
        else if s.copyOf (bankDie b) < unitStart w (coreNum b) o.since o.units.2 then .next (s.owe (.pairedWindowStart b))
        else .next (start (unitsEnd w (coreNum b) o.units.2 o.units.1 o.since))

/-! ### BLOCK_RETIRE (R47, R87, R180) -/

/-- The block of bank b retires: its M-words are done, its token and its barrier increment go out together. -/
def execBlockRetire (b : Nat) (s : State) : Out :=
  if !validBank b then .fault .noSuchAgent
  else match (s.bank b).block with
    | none => .next s
    | some x =>
      let k := s.bank b
      if x.phase ≠ .finished ∨ x.trapped then .next s
      else if !s.ownsLE b || k.arr ≠ [] || !k.canPush engLE x.ext then .next ((s.owe (.blockRetire b)).oweBlock b)
      else
        let s1 := s.setBank b { k.retireTok engLE x.ext with block := none }
        .next ((s1.owe (.blockStart b)).owe (.blockStart (otherBank b)))

/-! ### BLOCK_MIGRATE, BLOCK_MIGRATE_RETURN (R179, R180) -/

/-- Whether core c may take a block of partition p. -/
def State.migrateHost (s : State) (c part : Nat) : Bool :=
  let k0 := s.bank (2 * c)
  let k1 := s.bank (2 * c + 1)
  let fits (k : Bank) : Bool :=
    k.block.isNone && (k.cmdq engLE).isEmpty && (k.run == .idle || k.part == part)
  s.leIdle c && fits k0 && fits k1

/-- The lowest-numbered core of bank b's cluster that may take its block. -/
def State.migrateTarget (s : State) (b : Nat) : Option Nat :=
  let c0 := bankCore b / 8 * 8
  ([0, 1, 2, 3, 4, 5, 6, 7].map fun i => c0 + i).find? fun c =>
    c != bankCore b && s.migrateHost c (s.bank b).part

/-- Whether the `RUN` at the head of bank b's queue meets the conditions of R179 on the block itself. -/
def Bank.mayMigrate (k : Bank) : Bool :=
  let k1 := k.settings (k.cmdq engLE)
  match k1.cmdq engLE with
  | c :: _ =>
    match c.op with
    | .run reg _ _ _ =>
      ([0, 1, 2, 3, 4, 5].all fun l => decide (bits reg 18 16 ≤ l) || match k1.bsrc l with
        | .value _ => true
        | .queue _ => false) &&
      ((List.range 16).all fun n => descSpace (k1.desc n)) &&
      (k1.tabs.all fun p => match p.2 with
        | some t => t.cluster
        | none => true)
    | _ => false
  | [] => false

/-- The block at the head of bank b's queue leaves for another core of the cluster. -/
def execBlockMigrate (b : Nat) (s : State) : Out :=
  if !validBank b then .fault .noSuchAgent
  else
    let k := s.bank b
    let m := (s.cluster (bankCluster b)).acmode
    let waited : Bool := match k.leWait with
      | some t => decide (t + bits m 7 4 * 256 ≤ s.counter)
      | none => false
    if bits m 1 0 = 1 ∧ k.leReady ∧ (s.bank (otherBank b)).holdsLE ∧ waited ∧ k.mayMigrate then
      match s.migrateTarget b with
      | some c => .next (s.startBlock b (some c))
      | none => .next s
    else .next s

/-- BLOCK_MIGRATE_RETURN (R180): the state of a migrated block returns to its own core, and the block goes on there once the
loop engine is free. -/
def execBlockMigrateReturn (b : Nat) (s : State) : Out :=
  if !validBank b then .fault .noSuchAgent
  else match (s.bank b).block with
    | none => .next s
    | some x =>
      let put (y : Block) : State := s.modBank b fun k => { k with block := some y }
      if x.host.isSome then
        .next (if s.wantsHome b x then (put { x with host := none, home := true }).owe (.blockMigrateReturn b) else s)
      else if !x.home then .next s
      else if s.leIdle (bankCore b) then .next (((put { x with home := false }).takeTurn b engLE).oweBlock b)
      else .next (s.owe (.blockMigrateReturn b))

end Sys2Proof.Machine
end

