-- ==== Sys2Proof/Machine/Queues.lean ====
section
/-! DEFINITION. The sequencer's words on data and outcome queues (spec/02 R38, spec/11 R227 to R235). -/

namespace Sys2Proof.Machine

/-- Queues that a producer of the sequencer may name: `dq0` to `dq3` (R38). -/
def producerQ (q : BitVec 4) : Bool := decide (q.toNat ≤ 3)

/-- Queues that a consumer of the sequencer may name: `dq4`, `dq5`, `oq0`, `oq1` (R38). -/
def consumerQ (q : BitVec 4) : Bool := decide (4 ≤ q.toNat) && decide (q.toNat ≤ 7)

/-- `QPUSH` (R231): one slot is reserved and filled with a row that holds sa. -/
def execQpush (a : BitVec 5) (q : BitVec 4) (s : State) : Out :=
  if !producerQ q then trapNow s illegalOperand
  else if !s.me.canReserve q.toNat 1 then stall s
  else
    let v := (s.me.queue q.toNat).rsv
    finish (s.modMe fun k => (k.reserve q.toNat 1).fillSlot q.toNat v ((s.reg a).zeroExtend 2048) false)

/-- `QPOP` (R232): a poisoned row traps and stays. -/
def execQpop (d : BitVec 5) (q : BitVec 4) (s : State) : Out :=
  if !consumerQ q then trapNow s illegalOperand
  else
    let x := s.me.queue q.toNat
    if x.fill < 1 then stall s
    else
      let e := x.slot q.toNat x.head
      if e.poison then trapNow s (Trap.mk0 8 0)
      else
        let s1 := s.modMe fun k => k.setQueue q.toNat { x with head := x.head + 1 }
        finish (s1.setReg d (BitVec.ofNat 64 e.row.toNat))

/-- `QADV.head` (R233). -/
def execQadvHead (q n : BitVec 4) (s : State) : Out :=
  if !consumerQ q then trapNow s illegalOperand
  else
    let x := s.me.queue q.toNat
    if x.fill < n.toNat + 1 then stall s
    else finish (s.modMe fun k => k.setQueue q.toNat { x with head := x.head + n.toNat + 1 })

/-- Mark n slots from p filled with the contents they hold. -/
def fillOld (q : Nat) (k : Bank) (p : Nat) : Nat → Bank
  | 0 => k
  | n + 1 =>
    let e := (k.queue q).slot q p
    fillOld q (k.fillSlot q p e.row e.poison e.chk) (p + 1) n

/-- `QADV.tail` (R233). -/
def execQadvTail (q n : BitVec 4) (s : State) : Out :=
  let cnt := n.toNat + 1
  if !producerQ q then trapNow s illegalOperand
  else if !s.me.canReserve q.toNat cnt then stall s
  else
    let v := (s.me.queue q.toNat).rsv
    finish (s.modMe fun k => fillOld q.toNat (k.reserve q.toNat cnt) v cnt)

/-- FREE of a queue (R234). -/
def Queue.free (x : Queue) (q : Nat) : Nat := if q < 4 then qCap q - (x.rsv - x.head) else qCap q - (x.tail - x.head)

/-- `QLVL` (R234). -/
def execQlvl (d : BitVec 5) (q : BitVec 4) (s : State) : Out :=
  if 7 < q.toNat then trapNow s illegalOperand
  else
    let x := s.me.queue q.toNat
    let pend := if q.toNat < 4 then x.rsv - x.tail else 0
    finish (s.setReg d (BitVec.ofNat 64 (at' (x.free q.toNat) 16 + at' pend 8 + x.fill)))

end Sys2Proof.Machine
end

