-- ==== Sys2Proof/Machine/Save.lean ====
section
/-! DEFINITION. The save area of a pre-empted bank (spec/21 R437, R440): its rows as a save writes them and a restore reads
them. While a bank is saved its editable items have their value in the area, its other items in `Bank`. -/

namespace Sys2Proof.Machine

/-- Numbers of w bits packed from the low end (DESIGN CHOICE, unsafe: log entry 24). -/
def packed (w : Nat) : List Nat → Nat
  | [] => 0
  | x :: xs => x % 2 ^ w + 2 ^ w * packed w xs

/-- The i-th number of w bits (DESIGN CHOICE, unsafe: log entry 24). -/
def unpacked (w v i : Nat) : Nat := v / 2 ^ (w * i) % 2 ^ w

def rowOf (v : Nat) : Row := BitVec.ofNat 2048 v

/-- The 30 token channels, by from then to (R236, R440). -/
def channels : List (Nat × Nat) :=
  (List.range 6).flatMap fun a => ((List.range 6).filter fun b => b != a).map fun b => (a, b)

/-- Pointers of the queues in the area: H, T, V, HC of `dq0` to `dq3`, then H, T of the others. -/
def Bank.pointers (k : Bank) : List Nat :=
  ((List.range 4).flatMap fun q =>
    let x := k.queue q
    let hc := match k.block with
      | some y => if y.rst.isSome && y.marked then Assoc.get 0 y.hc q else x.head
      | none => x.head
    [x.head, x.tail, x.rsv, hc]) ++
  ((List.range 4).flatMap fun i => let x := k.queue (4 + i); [x.head, x.tail])

/-- A bound source as one word: a value, or a queue with bit 32 set. -/
def BSrc.code (x : BSrc) : Nat :=
  match x with
  | .value v => v
  | .queue q => 2 ^ 32 + q

/-- The row of mailboxes, bound sources, token counts and pointers. -/
def Bank.miscRow (k : Bank) : Row :=
  rowOf (packed 64 ((List.range 8).map fun i => (Assoc.get 0 k.mbox i).toNat) +
    2 ^ 512 * packed 64 ((List.range 6).map fun i => (Assoc.get (.value 0) k.lbs i).code) +
    2 ^ 896 * packed 8 (channels.map fun c => k.tokens? c.1 c.2) +
    2 ^ 1152 * packed 32 k.pointers)

/-- The live-in rows of a registered block, in LIVE order (R435, R437). -/
def Bank.liveRow (k : Bank) (r : BitVec 512) (i : Nat) : Row × Bool :=
  let kind := bits r (135 + 8 * i) (134 + 8 * i)
  let n := bits r (133 + 8 * i) (128 + 8 * i)
  match kind with
  | 1 => let x := Assoc.get VReg.zero k.vregs n; (x.row, x.poison)
  | 2 => let x := Assoc.get VReg.zero k.oregs n; (x.row, x.poison)
  | 3 => ((Assoc.get 0 k.ads n).zeroExtend 2048, false)
  | _ => (0, false)

/-- The row of an outcome queue: its 32 entries, poisoned when one of them is (R440, R446). -/
def Bank.outRow (k : Bank) (q : Nat) : Nat × Row × Bool :=
  let es := (List.range 32).map fun i => (k.queue q).slot q i
  (8 + q, rowOf (packed 64 (es.map fun e => e.row.toNat)), es.any fun e => e.poison)

/-- The editable rows of bank b's save area: row number, contents, poison. -/
def Bank.areaRows (k : Bank) (b : Nat) (rights : Bool) : List (Nat × Row × Bool) :=
  let clean (xs : List (Nat × Row)) : List (Nat × Row × Bool) := xs.map fun p => (p.1, p.2, false)
  let head := packed 64 [k.pc.toNat, b % 2, k.bindRec, b2n k.hmode, b2n k.event, 0]
  let regs := packed 64 ((List.range 32).map fun i => (k.reg (BitVec.ofNat 5 i)).toNat)
  let sys := packed 64 ((List.range 32).map fun i => ((k.readSys rights i).getD 0).toNat)
  let handle (i : Nat) : Nat := let x := k.handle i; packed 64 [x.base.toNat, x.intent.toNat, x.gen.toNat, 0]
  let many (f : Nat → Nat) (w per at0 n : Nat) : List (Nat × Row) :=
    (List.range n).map fun j => (at0 + j, rowOf (packed w ((List.range per).map fun i => f (j * per + i))))
  clean ([(0, rowOf head), (1, rowOf regs), (2, rowOf sys), (3, k.miscRow)] ++
    many handle 256 8 4 2 ++
    many (fun i => (k.cbar i).toNat) 64 32 6 2 ++
    many (fun i => (Assoc.get 0 k.ads i).toNat) 256 8 8 2 ++
    many (fun i => (Assoc.get 0 k.layouts i).toNat) 512 4 10 2) ++
  ((List.range 2).map fun j => k.outRow (6 + j)) ++
  (match k.block with
   | some x =>
     match x.rst with
     | some r => (List.range 16).map fun i => let v := k.liveRow r i; (16 + i, v.1, v.2)
     | none => []
   | none => []) ++
  ((List.range 96).map fun i => let e := (k.queue (i / 16)).slot (i / 16) (i % 16); (32 + i, e.row, e.poison))

/-- Write rows of an area. -/
def State.putAreaRows (s : State) (area : Nat) : List (Nat × Row × Bool) → State
  | [] => s
  | (r, v, p) :: xs => (s.writeHome (area + 256 * r) (natLE 256 v.toNat) 0 p 0).putAreaRows area xs

/-- Write the editable rows of bank b's save area. -/
def State.writeArea (s : State) (b : Nat) : State :=
  s.putAreaRows (s.bank b).area ((s.bank b).areaRows b (s.hasRights b))

/-- Row r of an area, as a number, with its poison. -/
def State.areaRow (s : State) (area r : Nat) : Nat × Bool :=
  let x := s.readHome (area + 256 * r) 256 0
  (leNat x.1, x.2)

/-- Set the pointers of queue q from the area. -/
def Bank.putPointers (k : Bank) (v q : Nat) : Bank :=
  let x := k.queue q
  if q < 4 then
    k.setQueue q { x with head := unpacked 32 v (4 * q), tail := unpacked 32 v (4 * q + 1), rsv := unpacked 32 v (4 * q + 2) }
  else
    let i := 16 + 2 * (q - 4)
    k.setQueue q { x with head := unpacked 32 v i, tail := unpacked 32 v (i + 1), rsv := unpacked 32 v (i + 1) }

/-- Set the checkpoint heads of a registered block from the area. -/
def Bank.putHC (k : Bank) (v : Nat) : Bank :=
  { k with block := k.block.map fun x =>
      if x.rst.isSome && x.marked then
        { x with hc := (List.range 4).foldl (fun m q => Assoc.set 0 m q (unpacked 32 v (4 * q + 3))) x.hc } else x }

/-- A descriptor takes a record that software wrote: reserved bits read zero (R5, R93). -/
def Bank.putAd (k : Bank) (n : Nat) (v : BitVec 256) : Bank :=
  { k with ads := Assoc.set 0 k.ads n (setBits (setBits v 255 145 0) 127 120 0) }

/-- A layout slot takes a record that software wrote: reserved bits read zero (R5, R247). -/
def Bank.putLayout (k : Bank) (n : Nat) (v : BitVec 512) : Bank :=
  { k with layouts := Assoc.set 0 k.layouts n (setBits (setBits (setBits v 479 408 0) 399 391 0) 387 387 0) }

/-- Put the live-in rows of a registered block back from the area; an integrity-poisoned row stays so. -/
def State.putLive (s : State) (area : Nat) (r : BitVec 512) (k : Bank) : Nat → Bank
  | 0 => k
  | i + 1 =>
    let k1 := s.putLive area r k i
    let kind := bits r (135 + 8 * i) (134 + 8 * i)
    let n := bits r (133 + 8 * i) (128 + 8 * i)
    let v := s.areaRow area (16 + i)
    match kind with
    | 1 => { k1 with vregs := Assoc.set VReg.zero k1.vregs n
                       { Assoc.get VReg.zero k1.vregs n with row := rowOf v.1, poison := v.2 } }
    | 2 => { k1 with oregs := Assoc.set VReg.zero k1.oregs n
                       { Assoc.get VReg.zero k1.oregs n with row := rowOf v.1, poison := v.2 } }
    | 3 => k1.putAd n (BitVec.ofNat 256 v.1)
    | _ => k1

/-- The bank with every editable item as the area holds it (R440). -/
def State.readArea (s : State) (b : Nat) : Bank :=
  let k := s.bank b
  let area := k.area
  let row (r : Nat) : Nat := (s.areaRow area r).1
  let k1 := { k with pc := BitVec.ofNat 64 (unpacked 64 (row 0) 0) }
  let k2 := (List.range 32).foldl (fun k i => k.setReg (BitVec.ofNat 5 i) (BitVec.ofNat 64 (unpacked 64 (row 1) i))) k1
  let k3 := (List.range 32).foldl (fun k i => k.writeSys i (BitVec.ofNat 64 (unpacked 64 (row 2) i))) k2
  let misc := row 3
  let k4 := (List.range 30).foldl (fun k i =>
    let c := channels.getD i (0, 0)
    k.setTokens c.1 c.2 (unpacked 8 (misc / 2 ^ 896) i)) k3
  let k5 := ((List.range 8).foldl (fun k q => k.putPointers (misc / 2 ^ 1152) q) k4).putHC (misc / 2 ^ 1152)
  let k6 := (List.range 16).foldl (fun k i =>
    let v := unpacked 256 (row (4 + i / 8)) (i % 8)
    k.setHandle i { k.handle i with base := BitVec.ofNat 56 v, intent := BitVec.ofNat 3 (unpacked 64 v 1),
                                    gen := BitVec.ofNat 16 (unpacked 64 v 2) }) k5
  let k7 := (List.range 64).foldl (fun k i => k.setCbar i (BitVec.ofNat 64 (unpacked 64 (row (6 + i / 32)) (i % 32)))) k6
  let k8 := (List.range 16).foldl (fun k i =>
    k.putAd i (BitVec.ofNat 256 (unpacked 256 (row (8 + i / 8)) (i % 8)))) k7
  let k9 := (List.range 8).foldl (fun k i =>
    k.putLayout i (BitVec.ofNat 512 (unpacked 512 (row (10 + i / 4)) (i % 4)))) k8
  let k10 := (List.range 64).foldl (fun k i =>
    let q := 6 + i / 32
    let x := k.queue q
    let v := s.areaRow area (14 + i / 32)
    k.setQueue q (x.setSlot q (i % 32) { x.slot q (i % 32) with row := rowOf (unpacked 64 v.1 (i % 32)), poison := v.2 })) k9
  let k11 := (List.range 96).foldl (fun k i =>
    let q := i / 16
    let x := k.queue q
    let v := s.areaRow area (32 + i)
    let e := x.slot q (i % 16)
    k.setQueue q (x.setSlot q (i % 16)
      { e with row := rowOf v.1, poison := v.2, chk := if rowOf v.1 = e.row then e.chk else 0 })) k10
  match k11.block with
  | some x =>
    match x.rst with
    | some r => s.putLive area r k11 16
    | none => k11
  | none => k11

/-! ### What the debugger writes (R441, R443) -/

/-- A write that takes effect only when the bank goes on: of what resumption sets, and of pointers and counts that a stopped bank
still lets producers move (R419, R443) (DEDUCED, unsafe: log entry 38). -/
def Bank.debugLate (k : Bank) (item : DebugItem) : Bank :=
  match item with
  | .pc v => { k with pc := v, slot := none }
  | .hmode v => { k with hmode := v }
  | .tokens ch n => let c := channels.getD ch (0, 0); if 29 < ch then k else k.setTokens c.1 c.2 (n % 16)
  | .qhead q n => if 7 < q then k else k.setQueue q { k.queue q with head := n % 2 ^ 32 }
  | .qtail q n => if 7 < q then k else k.setQueue q { k.queue q with tail := n % 2 ^ 32, rsv := if q < 4 then (k.queue q).rsv else n % 2 ^ 32 }
  | .qrsv q n => if 3 < q then k else k.setQueue q { k.queue q with rsv := n % 2 ^ 32 }
  | .qcheck q n =>
    if 3 < q then k
    else { k with block := k.block.map fun x => { x with hc := Assoc.set 0 x.hc q (n % 2 ^ 32) } }
  | _ => k

/-- The bank goes on as a return from its record has it (R421, R427), out of handler mode, and what the debugger has written
takes effect; a written program counter stands (R443). -/
def Bank.resumed (k : Bank) : Bank :=
  { k.edits.foldl Bank.debugLate { k.resume with hmode := false } with edits := [], leWait := none }

/-! ### Arrivals (R376) -/

/-- Apply a push, increment, event or revocation to bank b; in a saved context, to the rows of its save area that change
too, until the restore has read them (R376, R431). -/
def State.arrive (s : State) (b : Nat) (f : Bank → Bank) : State :=
  let k := s.bank b
  if k.inArea then
    let old := s.readArea b
    let now := f old
    let s1 := s.setBank b now
    s1.putAreaRows k.area ((now.areaRows b (s1.hasRights b)).filter fun p => !(old.areaRows b (s.hasRights b)).contains p)
  else s.modBank b f

end Sys2Proof.Machine
end

