-- ==== Sys2Proof/Machine/Wait.lean ====
section
/-! DEFINITION. Waiting and synchronisation (spec/17 R363 to R378), the sequencer's part of `LAUNCH`, `PHASE` and `RETIRE`
(spec/16 R351, R359, R361), and the homes of events, barrier words and global SRAM (R209, R371, R373). -/

namespace Sys2Proof.Machine

/-! ### Conditions of WAIT (R364) -/

/-- A legal kind and argument (R364). -/
def condOk (c : BitVec 16) : Bool :=
  let arg := bits c 11 0
  match condKind c with
  | 1 => decide (arg < 64)
  | 2 => decide (1 ≤ arg) && decide (arg ≤ 5)
  | 3 | 4 => bits c 8 6 == 0 && decide (bits c 5 0 ≤ qCap (bits c 11 9))
  | 5 | 7 => true
  | 6 => arg == 0
  | _ => false

/-- The n conditions packed in SA. -/
def conditions (sa : Word) (n : Nat) : List (BitVec 16) := (List.range n).map fun i => BitVec.ofNat 16 (bits sa (16 * i + 15) (16 * i))

/-- Whether (WIDX − RIDX) mod 2^32 of a ring header at pa is not zero, as the header's line holds it (R259). -/
def ringHolds (x : CLine) (pa : Nat) : Bool := lineVal x.data ((pa + 8) % 64) 4 != lineVal x.data ((pa + 12) % 64) 4

/-- Whether condition i of a waiting bank holds now (R364, R368). -/
def State.condHolds (s : State) (b i : Nat) (c : BitVec 16) (lines : List Monitor) : Bool :=
  let k := s.bank b
  let q := bits c 11 9
  match condKind c with
  | 1 => k.cbMet (bits c 5 0)
  | 2 => decide (0 < k.tokens? (bits c 2 0) 0)
  | 3 => decide (bits c 5 0 ≤ (k.queue q).fill)
  | 4 => decide (bits c 5 0 ≤ (k.queue q).free q)
  | 5 =>
    match lines.find? fun m => m.cond == i with
    | some m =>
      let x := s.line (bankCore b) (m.pa / 64)
      (k.handle m.h).st == .valid && x.st.loadHits && !s.throughAhead b m.pa 64 &&
      !s.unreleased (some b) (.core (bankCore b)) m.pa && ringHolds x m.pa
    | none => false
  | 6 => k.event
  | 7 =>
    match lines.find? fun m => m.cond == i with
    | some m => m.left
    | none => false
  | _ => false

/-- HELD from condition i on (R366). -/
def State.held (s : State) (b : Nat) (lines : List Monitor) : List (BitVec 16) → Nat → Nat
  | [], _ => 0
  | c :: cs, i => at' (b2n (s.condHolds b i c lines)) i + s.held b lines cs (i + 1)

/-- The condition of a monitor reads a ring header (R364). -/
def Monitor.reads (m : Monitor) (cs : List (BitVec 16)) : Bool := condKind (cs.getD m.cond 0) == 5

/-- Ask for the header lines of kind 5 that the cache does not hold, through a valid handle (R368, R393). -/
def State.askHeaders (s : State) (b : Nat) (cs : List (BitVec 16)) : List Monitor → State
  | [] => s
  | m :: ms =>
    let c := bankCore b
    let s1 := if m.reads cs && ((s.bank b).handle m.h).st == .valid && (s.line c (m.pa / 64)).st == .i then
        s.request b (m.pa / 64) .isD .getS m.ev
      else s
    s1.askHeaders b cs ms

/-- The headers that kind 5 reads at issue are the latest lines of the core (R368, R462). -/
def State.touchHeaders (s : State) (b : Nat) (cs : List (BitVec 16)) (ms : List Monitor) : State :=
  ms.foldl (fun s m =>
    let l := m.pa / 64
    if m.reads cs && (s.line (bankCore b) l).st.loadHits then s.touch (bankCore b) l else s) s

/-- `WAIT` returns (R365, R366). -/
def State.waitDone (s : State) (b d v : Nat) (clear : Bool) : State :=
  s.modBank b fun k =>
    { (k.setReg (BitVec.ofNat 5 d) (BitVec.ofNat 64 v)).advance 4 with wait := .none, event := k.event && !clear }

/-- One sample of a `WAIT` (R365): its conditions win over its time-out. -/
def State.sample (s : State) (b : Nat) (w : Waiting) : Option State :=
  let h := s.held b w.lines w.conds 0
  let n := w.conds.length
  let ok := if w.all then h == 2 ^ n - 1 else h != 0
  let evHeld := (List.range n).any fun i => condKind (w.conds.getD i 0) == 6 && Nat.testBit h i
  if ok then some (s.waitDone b w.d h evHeld)
  else match w.deadline with
    | some t => if t ≤ s.reftime then some (s.waitDone b w.d (h + 256) false) else none
    | none => none

/-- Use the handles of kinds 5 and 7 in ascending order (R363): the monitored lines, or the outcome that the word takes
instead; a page of another class than HBM and CXL memory is an illegal operand before any hole of it. -/
def State.monitors (s : State) : List (BitVec 16) → Nat → List Monitor → Except Out (List Monitor)
  | [], _, acc => .ok acc.reverse
  | c :: cs, i, acc =>
    if condKind c = 5 ∨ condKind c = 7 then
      match s.inPage s.cur (bits c 11 8) (64 * bits c 7 0) 64 1 1 with
      | .trap t => .error (trapNow s t)
      | .wait s' => .error (stall s')
      | .ok a =>
        if !isCached a.pa then .error (trapNow s illegalOperand)
        else match s.holeTrap s.cur (bits c 11 8) 64 a with
        | some t => .error (trapNow s t)
        | none =>
          let gone := condKind c == 7 && !(s.line (bankCore s.cur) (a.pa / 64)).st.loadHits
          let m : Monitor := { cond := i, h := bits c 11 8, va := a.va, pa := a.pa, left := gone, ev := leafEv a.leaf, shot := false }
          s.monitors cs (i + 1) (m :: acc)
    else s.monitors cs (i + 1) acc

/-- `WAIT` (R363 to R369): its checks, its first sample in the issue cycle, then the wait. -/
def waitOp (all : Bool) (d a b : BitVec 5) (n : BitVec 2) (s : State) : Out :=
  noSlot s fun s =>
    let cnt := n.toNat + 1
    let sa := s.reg a
    let sb := s.reg b
    let cs := conditions sa cnt
    if (sa.toNat / 2 ^ (16 * cnt) ≠ 0) ∨ bits sb 63 32 ≠ 0 ∨ !(cs.all condOk) then trapNow s illegalOperand
    else if s.me.fencing then stall s
    else match s.monitors cs 0 [] with
      | .error o => o
      | .ok ms =>
        let w : Waiting := { all := all, d := d.toNat, conds := cs, lines := ms,
                             deadline := if sb.toNat = 0xFFFFFFFF then none else some (s.reftime + sb.toNat) }
        let s1 := (s.askHeaders s.cur cs ms).touchHeaders s.cur cs ms
        match s1.sample s.cur w with
        | some s' => .next s'
        | none => .next (s1.modMe fun k => { k with wait := .wait w })

/-- `WAIT.any` (R363, R365). -/
def execWaitAny (d a b : BitVec 5) (n : BitVec 2) (s : State) : Out := waitOp false d a b n s

/-- `WAIT.all` (R363, R365). -/
def execWaitAll (d a b : BitVec 5) (n : BitVec 2) (s : State) : Out := waitOp true d a b n s

/-- What a revocation leaves of a ring header's monitor (R392, R393). -/
inductive Rewalk where
  | kept (m : Monitor)
  | walk                       -- its handle is stale: it walks again
  | bad (t : Trap)             -- the new walk has failed, or its page is not cached
  deriving DecidableEq, Repr

/-- A monitor of kind 5 as its handle now stands: after a revocation the header is read through the new walk (R393)
(DEDUCED, unsafe: log entry 72). -/
def Monitor.renewed (m : Monitor) (cs : List (BitVec 16)) (x : Handle) : Rewalk :=
  if !m.reads cs then .kept m
  else match x.st with
    | .stale => .walk
    | .pending => .kept m
    | .faulted => .bad (pageFault x.cause m.h m.va)
    | .invalid => .bad (accessTrap 5 0 m.h m.va)
    | .valid =>
      let pa := leafPa x.leaf x.size m.va
      if isCached pa then .kept { m with pa := pa, ev := leafEv x.leaf, shot := false } else .bad illegalOperand

/-- The monitors of a waiting bank as its handles now stand. -/
def Bank.renewAll (k : Bank) (cs : List (BitVec 16)) (ms : List Monitor) : List Rewalk :=
  ms.map fun m => m.renewed cs (k.handle m.h)

/-- A waiting bank samples at the end of a cycle (R365, R367): it returns, or asks again for the headers that its cache has
lost (R368, R393). -/
def State.sampleBank (s : State) (b : Nat) : State :=
  match (s.bank b).wait with
  | .wait w =>
    let rs := (s.bank b).renewAll w.conds w.lines
    match rs.findSome? fun r => match r with
      | .bad t => some t
      | _ => none with
    | some t => (s.modBank b fun k => { k with wait := .none }).takeTrap b t
    | none =>
      let stale := (w.lines.zip rs).filterMap fun p => if p.2 = .walk then some p.1.h else none
      let s1 := stale.eraseDups.foldl (fun s h => s.startWalk b h) s
      let w1 := { w with lines := (w.lines.zip rs).map fun p => match p.2 with
        | .kept m => m
        | _ => p.1 }
      match s1.sample b w1 with
      | some s' => s'
      | none => (s1.askHeaders b w1.conds w1.lines).modBank b fun k => { k with wait := .wait w1 }
  | _ => s

/-- Every waiting bank samples. -/
def State.sampleAll (s : State) : State :=
  ((s.banks.filter fun p => match p.2.wait with
    | .wait _ => true
    | _ => false).map fun p => p.1).foldl (fun s b => s.sampleBank b) s

/-- WAIT_CONDITION_MET (R365, R367): the waiting bank takes the sample of this cycle. -/
def execWaitConditionMet (b : Nat) (s : State) : Out :=
  if !validBank b then .fault .noSuchAgent else .next (s.sampleBank b)

/-- WAIT_TIMEOUT (R365): the deadline of bank b's wait has passed; the sample of this cycle decides. -/
def execWaitTimeout (b : Nat) (s : State) : Out :=
  if !validBank b then .fault .noSuchAgent else .next (s.sampleBank b)

/-! ### Events (R371) -/

/-- `SEV` (R371): posted as a store-queue entry. -/
def execSev (a : BitVec 5) (s : State) : Out :=
  let v := s.reg a
  if bits v 63 23 ≠ 0 ∨ 103 < bits v 6 0 then trapNow s illegalOperand
  else if !s.dieExists (bankDie s.cur) (bits v 22 13) then trapNow s { Trap.mk0 4 0 with walk := 6 }
  else if s.me.postsFull then stall s
  else
    let p : Post := { kind := .event, pa := 0, n := 0, data := v, release := true, ev := false, key := 0,
                      scope := 4, grp := s.me.newGrp, shot := false, sent := false, done := false }
    finish (s.post s.cur p)

/-- EVENT_ARRIVAL (R318, R371): event i reaches its target die, after those of its core to that die before it, and sets a
latch, or is dropped. -/
def execEventArrival (i : Nat) (s : State) : Out :=
  match s.events[i]? with
  | none => .next s
  | some e =>
    if !s.arrives (s.eventFoot e) then
      .next (({ s with events := s.events.set i { e with hop := e.hop + s.stride (s.eventFoot e) } } : State).owe (.eventArrival i))
    else
      let s0 : State := { s with events := s.events.eraseIdx i }
      let s1 := match s0.taskBank (bits e.target 22 13) (bits e.target 12 7) (bits e.target 6 0) e.part with
        | some t => s0.arrive t fun k => { k with event := true }
        | none => s0
      let s2 := s1.modBank e.b fun k => k.ackPost fun p => p.kind == .event && p.data == e.target
      .next (if i < s2.events.length then s2.owe (.eventArrival i) else s2)

/-! ### Barrier words (R373) and global SRAM (R209) -/

/-- Answer access g of global SRAM or the barrier window: its load or atomic has its value, its store is performed. -/
def State.answer (s : State) (g : GReq) (v : Nat) (poison : Bool) : State :=
  let s1 := s.modBank g.b fun k =>
    match k.pend with
    | some p => if p.pa + p.width * p.i = g.pa then { k with pend := some { p with ret := some (BitVec.ofNat 64 v, poison) } }
                else k
    | none => k
  s1.owe (.loadDataReturn g.b)

/-- The turn of access i, of global SRAM or of the barrier window. -/
def State.oweG (s : State) (i : Nat) : State :=
  match s.gsram[i]? with
  | some g => s.owe (if isGsram g.pa then .globalSramHomeAccess i else .barrierWindowAccess i)
  | none => s

/-- Remove access i and let the one that moves up take its turn. -/
def State.dropG (s : State) (i : Nat) : State := ({ s with gsram := s.gsram.eraseIdx i } : State).oweG i

/-- Change access i in place; it takes another turn. -/
def State.setG (s : State) (i : Nat) (g : GReq) : State := ({ s with gsram := s.gsram.set i g } : State).oweG i

/-- Access i goes on over its links, as far as it may in this cycle (R357). -/
def State.strideG (s : State) (i : Nat) (g : GReq) : State := s.setG i { g with hop := g.hop + s.stride (s.gFoot g) }

/-- Dispatch serves an access to a barrier word (R373). -/
def State.serveBarrier (s : State) (i : Nat) (g : GReq) : State :=
  let old := (s.barrierWord g.b g.pa).toNat / 2 ^ (8 * (g.pa % 8)) % 2 ^ (8 * g.n)
  let s1 := if g.write then
      match s.barrierBank g.b g.pa with
      | some t => s.arrive t fun k => k.cbInc ((g.pa / 8) % 64) (g.v.toNat % 2 ^ 32)
      | none => s
    else s
  ((s1.modBank g.b fun k => k.ackPost fun p => p.kind == .atomic).answer g old false).dropG i

/-- BARRIER_WINDOW_ACCESS (R373, R379): dispatch serves access i; an atomic is first accepted into dispatch's queue, which
is served in the order of arrival. -/
def execBarrierWindowAccess (i : Nat) (s : State) : Out :=
  match s.gsram[i]? with
  | none => .next s
  | some g =>
    if isGsram g.pa then .next (s.oweG i)
    else if g.arr == 0 && !s.arrives (s.gFoot g) then .next (s.strideG i g)
    else if g.atomic && g.arr == 0 then
      match s.seatAtomic g.b g.pa g.refused with
      | .later => .next (s.oweG i)
      | .refused s1 n => .next (s1.setG i { g with refused := n })
      | .accepted s1 n => .next (if s1.placeAhead g.home n then s1.setG i { g with arr := n } else s1.serveBarrier i g)
    else if g.atomic && s.placeAhead g.home g.arr then .next (s.oweG i)
    else .next (s.serveBarrier i g)

/-- GLOBAL_SRAM_HOME_ACCESS (R199, R209, R318, R396): the home cluster performs access i as one row access. -/
def execGlobalSramHomeAccess (i : Nat) (s : State) : Out :=
  match s.gsram[i]? with
  | none => .next s
  | some g =>
    if !isGsram g.pa || s.tentCell (gsramKey g.pa) then .next (s.oweG i)
    else if !s.arrives (s.gFoot g) then .next (s.strideG i g)
    else
      let key := gsramKey g.pa
      let off := g.pa % 256
      if g.write then
        let row : Row := BitVec.ofNat 2048 (g.v.toNat % 2 ^ (8 * g.n) * 2 ^ (8 * off))
        let s2 := (s.maskCell key (s.bank g.b).part row (fun j => decide (off ≤ j) && decide (j < off + g.n)) false).modBank g.b
          fun k => k.ackPost fun p => p.kind == .sram && p.pa == g.pa
        .next (s2.dropG i)
      else
        let c := s.cell key
        match s.pullEgress (bankCore g.b) g.pa with
        | .ok s1 => .next ((s1.answer g (c.data.toNat / 2 ^ (8 * off) % 2 ^ (8 * g.n)) c.poison).dropG i)
        | .wait s1 => .next (s1.oweG i)
        | .capped => .next ((s.answer g 0 true).dropG i)

/-! ### The other progress words (R374, R377, R378) -/

/-- `YIELD` (R377). -/
def execYield (s : State) : Out := noSlot s fun s => finish (s.modMe fun k => { k with yielded := true })

/-- `TIME` (R378). -/
def execTime (d k : BitVec 5) (s : State) : Out :=
  finish (s.setReg d (BitVec.ofNat 64 (if k = 0 then s.copyOf (bankDie s.cur) else s.reftime)))

/-- `CBARR` (R374). -/
def execCbarr (n : BitVec 6) (s : State) : Out :=
  if s.me.quiet then finish (s.modMe fun k => k.cbInc n.toNat 1) else stall s

/-- `CBSET` (R374). -/
def execCbset (a b : BitVec 5) (n : BitVec 6) (s : State) : Out :=
  if bits (s.reg a) 63 32 ≠ 0 then trapNow s illegalOperand
  else finish (s.modMe fun k => k.setCbar n.toNat (cbWord (bits (s.reg b) 31 0) (bits (s.reg a) 31 0)))

/-- TARGET after `CBADD` (R374): the sum clamped to 0 and 2^32 - 1. -/
def cbTargetAdd (target : Nat) (v : Word) : Nat :=
  let t := (target : Int) + sgn 32 (bits v 31 0)
  if t < 0 then 0 else min t.toNat (2 ^ 32 - 1)

/-- `CBADD` (R374). -/
def execCbadd (a : BitVec 5) (n : BitVec 6) (s : State) : Out :=
  if bits (s.reg a) 63 32 ≠ 0 then trapNow s illegalOperand
  else
    let w := s.me.cbar n.toNat
    finish (s.modMe fun k => k.setCbar n.toNat (cbWord (cbTargetAdd (cbTarget w) (s.reg a)) (cbCount w)))

/-! ### LAUNCH, PHASE, RETIRE: the sequencer's part -/

/-- A launch record enters the device-launch queue (R351). -/
def enqueueLaunch (s : State) (r : BitVec 512) : Out :=
  let die := bankDie s.cur
  finish ((s.modDie die fun d => { d with launchq := d.launchq ++ [(s.cur, s.me.part, r)] }).owe (.launchProcess die))

/-- `LAUNCH` (R215, R351): its enqueue is a release. In a slot it acts on what its branch prepared (R82). -/
def execLaunch (h : BitVec 4) (off : BitVec 12) (s : State) : Out :=
  match s.me.slot.map Slot.prep with
  | some (.got r l) =>
    let c := bankCore s.cur
    enqueueLaunch (if (s.line c l).st.loadHits then s.touch c l else s) r
  | some (.bad t) => trapNow s t
  | _ =>
    withRecord s h.toNat (off.toNat * 64) 64 64 fun s xs =>
      if s.launchFull || !s.me.quiet then stall s else enqueueLaunch s (BitVec.ofNat 512 (leNat xs))

/-- `PHASE` (R359): the core has arrived; the rendezvous completes it. -/
def execPhase (k : BitVec 12) (s : State) : Out :=
  .next ((s.modMe fun x => { x with wait := .phase k.toNat }).owe (.phaseRendezvous (bankDie s.cur) s.me.bindRec))

/-- `RETIRE` (R361): the sequencer stops fetching. -/
def execRetire (s : State) : Out :=
  noSlot s fun s => .next ((s.modMe fun k => { k with wait := .retire }).owe (.retireComplete s.cur))

end Sys2Proof.Machine
end

