-- ==== Sys2Proof/Machine/System.lean ====
section
/-! DEFINITION. The system words and the taking and answering of traps (spec/20 R413 to R428), and the revocation of
translations (spec/18 R391 to R393). -/

namespace Sys2Proof.Machine

/-! ### Owing a bank its events -/

/-- Owe bank b every event by which its sequencer and its engines may go on. -/
def State.rouse (s : State) (b : Nat) : State :=
  [Instr.blockStart b, .loopBoundPop b, .bundleIssue b, .mwordComplete b, .blockRetire b, .copyStart b,
   .multicastRowLand b, .copyRetire b, .sheafCommandAccept b true, .sheafCommandAccept b false, .walkerRetire b,
   .gleanerBlock b, .attndRetire b, .rdxRetire b, .collectiveRetire b, .ploughRetire b, .asyncTrapTaken b].foldl
    (fun s i => s.owe i) s

/-! ### TRAP, BKPT, HALT, ERET (R424 to R427) -/

/-- `TRAP` (R424): illegal in a slot. -/
def execTrap (k : BitVec 5) (s : State) : Out :=
  noSlot s fun s => privilegedThen s fun s => trapNow s { Trap.mk0 15 k.toNat with restart := false }

/-- `BKPT` (R425). -/
def execBkpt (s : State) : Out := privilegedThen s fun s => trapNow s { Trap.mk0 16 0 with restart := false }

/-- `HALT` (R426): class 17 never goes to a handler (R416). -/
def execHalt (s : State) : Out :=
  noSlot s fun s => privilegedThen s fun s => trapNow s { Trap.mk0 17 0 with restart := false }

/-- `ERET` (R427). -/
def execEret (s : State) : Out :=
  noSlot s fun s => privilegedThen s fun s =>
    if !s.me.hmode then trapNow s illegalOperand
    else .next ((s.modMe fun k => k.resumed).rouse s.cur)

/-! ### SRD, SWR (R417, R428) -/

/-- `SRD` (R428): an unassigned number is an illegal instruction, checked before rights (R60). -/
def execSrd (d : BitVec 5) (n : BitVec 12) (s : State) : Out :=
  if 0x011 < n.toNat then trapNow s illegalInstruction
  else privilegedThen s fun s =>
    match s.me.readSys (s.hasRights s.cur) n.toNat with
    | some v => finish (s.setReg d v)
    | none => trapNow s illegalInstruction

/-- `SWR` (R428). -/
def execSwr (a : BitVec 5) (n : BitVec 12) (s : State) : Out :=
  if 0x011 < n.toNat then trapNow s illegalInstruction
  else privilegedThen s fun s => finish (s.modMe fun k => k.writeSys n.toNat (s.reg a))

/-! ### Asynchronous traps and handler entry (R415, R416) -/

/-- Whether bank k stands at an instruction boundary at which a waiting trap may be taken: not between a branch and its
slot (R82), no load outstanding (R221). -/
def Bank.atBoundary (k : Bank) : Bool := k.run == .live && k.pst == .live && k.slot.isNone && k.pend.isNone

/-- Requests of bank b that a key unit has not served are withdrawn when its wait ends early (R235). -/
def State.dropKeyReq (s : State) (b : Nat) : State :=
  s.modDie (bankDie b) fun d => { d with keyq := d.keyq.filter fun r => r.b != b }

/-- ASYNC_TRAP_TAKEN (R415, R442): the oldest waiting fault of bank b's engines, or a halt request, is taken before the
instruction at its boundary issues; a waiting instruction counts as not executed. -/
def execAsyncTrapTaken (b : Nat) (s : State) : Out :=
  if !validBank b then .fault .noSuchAgent
  else
    let k := s.bank b
    match k.dueFault with
    | none => .next s
    | some t =>
      if !k.atBoundary then
        .next (if k.run = .live ∧ k.pst = .live then s.owe (.asyncTrapTaken b) else s)
      else
        let r := makeRecord k k.insn (s.fillTrap t)
        let k1 := { k with faults := k.faults.erase t, wait := .none }
        let s1 := (s.dropKeyReq b).tickFree
        if k.toHandler t.cls then .next ((s1.setBank b { k1 with run := .entering r }).owe (.handlerEntry b))
        else .next ((s1.setBank b (k1.stopWith r s.counter)).owe (.bankStopDrainEnd b))

/-- HANDLER_ENTRY (R416): the record is written and the bank goes on at its handler. -/
def execHandlerEntry (b : Nat) (s : State) : Out :=
  if !validBank b then .fault .noSuchAgent
  else match (s.bank b).run with
    | .entering r => .next (s.modBank b fun k => k.enter r)
    | _ => .next s

/-! ### The trap ring (R413, R420) -/

/-- A record of the trap ring (R420) with its time. -/
def trapRecord (time epc cls sub walk eng rec die core bank kind : Nat) (double : Bool) : BitVec 256 :=
  BitVec.ofNat 256 (at' (bank % 2) 70 + at' (core % 128) 71 + at' (die % 1024) 78 + at' (kind % 16) 92 + at' (rec % 64) 106
    + at' (eng % 8) 112 + at' (b2n double) 115 + at' (walk % 16) 116 + at' (sub % 256) 120 + at' (cls % 256) 128
    + at' (epc % 2 ^ 56) 136 + at' (time % 2 ^ 64) 192)

/-- Append a record to a die's trap ring, if it has one. -/
def State.askTrapRing (s : State) (die : Nat) (r : BitVec 256) (w : Who) : State :=
  let pa := bits (s.die die).tcfg 61 16 * 64
  if pa = 0 then s else s.askRing pa ((pa / 65536 + 1) * 65536) 0 noTask r w

/-- The trap-ring record of kind 3 for the report `r` of bank b (R416, R420). -/
def State.reportStop (s : State) (b : Nat) (r : SysRegs) (double : Bool) : State :=
  s.askTrapRing (bankDie b) (w := .stop b)
    (trapRecord (s.bank b).trapAt r.epc.toNat (bits r.fstat 7 0) (bits r.fstat 15 8) (bits r.fstat 19 16) (bits r.fstat 22 20)
      (s.bank b).bindRec (bankDie b) (coreNum b) (b % 2) 3 double)

/-- BANK_STOP_DRAIN_END (R419, R442): once its M-words are written, no row of its copy is in flight and a multicast has
retired, the bank holds its record, its latches are copied to their images, and the stop is reported
(DEDUCED, unsafe: log entry 19). -/
def execBankStopDrainEnd (b : Nat) (s : State) : Out :=
  if !validBank b then .fault .noSuchAgent
  else
    let k := s.bank b
    match k.run with
    | .stopping r rep double =>
      let copying := match k.copy with
        | some c => decide (0 < c.wait) || (bit c.b 32 && !c.trapped)
        | none => false
      if k.arr ≠ [] then .next ((s.owe (.mwordComplete b)).owe (.bankStopDrainEnd b))
      else if copying || k.pend.isSome then .next (s.owe (.bankStopDrainEnd b))
      else
        let k1 := { k with run := .stopped double, sys := r, stale := BitVec.allOnes 6 }
        .next ((s.setBank b k1).reportStop b rep double)
    | _ => .next s

/-! ### The firmware's answers (R421) -/

/-- The record of bank b's stop has still to be appended: the bank stays stopped until then (R420). -/
def State.reporting (s : State) (b : Nat) : Bool := s.rings.any fun q => q.who == .stop b

/-- BCTL_RESUME (R421, R427); it takes effect once the stop has been reported (R420). -/
def execBctlResume (b : Nat) (s : State) : Out :=
  if !validBank b then .fault .noSuchAgent
  else if s.reporting b then .next (s.owe (.bctlResume b))
  else match (s.bank b).run with
    | .stopped _ =>
      .next ((s.modBank b fun k => k.resumed).rouse b)
    | _ => .next s

/-- BCTL_ENTER_HANDLER (R421): ignored when TVEC is 0 or the record is of a double trap. -/
def execBctlEnterHandler (b : Nat) (s : State) : Out :=
  if !validBank b then .fault .noSuchAgent
  else if s.reporting b then .next (s.owe (.bctlEnterHandler b))
  else
    let k := s.bank b
    match k.run with
    | .stopped double =>
      if double ∨ k.sys.tvec = 0 then .next s else .next ((s.modBank b fun k => k.enter k.sys).rouse b)
    | _ => .next s

/-! ### Revocation (R392, R401) -/

/-- What a revocation removes: the pages of a partition that overlap [lo, hi), or the pages whose leaf names a key id,
for a sealed slot with their frame (a number of 64 KiB) in [lo, hi). -/
inductive Revoked where
  | range (part lo hi : Nat)
  | key (k : Nat) (region : Option (Nat × Nat))
  deriving DecidableEq, Repr

/-- Whether a translation of a partition falls under a revocation. -/
def Revoked.hits (r : Revoked) (part page size : Nat) (leaf : BitVec 64) : Bool :=
  match r with
  | .range p lo hi => part == p && decide (page < hi) && decide (lo < page + pageBytes size)
  | .key k region =>
    leafKey leaf == k && match region with
      | some (lo, hi) => decide (lo ≤ leafFrame leaf) && decide (leafFrame leaf < hi)
      | none => true

/-- Whether a bank of a partition may hold an access or a walk that the revocation concerns. -/
def Revoked.concerns (r : Revoked) (part : Nat) : Bool :=
  match r with
  | .range p _ _ => part == p
  | .key _ _ => true

/-- Steps 1 and 2 of R392 for one handle. -/
def Handle.revoked (r : Revoked) (part : Nat) (x : Handle) : Handle :=
  let hit := match x.st with
    | .valid => r.hits part x.page x.size x.leaf
    | .pending => r.concerns part
    | _ => false
  if hit then { x with st := .stale, gen := x.gen + 1 } else x

/-- Step 2 of R392 for one bank; its accesses under way are marked, for step 3. -/
def Bank.revoked (r : Revoked) (k : Bank) : Bank :=
  let k1 := { k with handles := Assoc.mapVals Handle.zero (fun _ h => h.revoked r k.part) k.handles }
  if r.concerns k.part then
    { k1 with posts := k1.posts.map fun p => { p with shot := true },
              pend := k1.pend.map fun p => { p with shot := true },
              ldqs := k1.ldqs.map fun p => { p with shot := true },
              wait := match k1.wait with
                | .wait w => .wait { w with lines := w.lines.map fun m => { m with shot := true } }
                | w => w }
  else k1

/-- A row write or a ring append of a partition that a revocation on a die concerns: of a bank there, or of dispatch. -/
def State.concerned (s : State) (die : Nat) (r : Revoked) (w : Who) (part : Nat) : Bool :=
  match w with
  | .copy b | .eng b _ => bankDie b == die && r.concerns (s.bank b).part
  | .nobody => r.concerns part
  | .host | .cxl _ | .stop _ => false

/-- What is on its way through a removed translation is marked, for step 3; dispatch forgets the translations of rings. -/
def State.markShot (s : State) (die : Nat) (r : Revoked) : State :=
  { s with launches := s.launches.map fun l =>
             { l with ring := l.ring.filter fun x => (l.b.map bankDie).getD 0 != die || !r.hits x.part x.page x.size x.leaf },
           bulk := s.bulk.map fun x => { x with shot := x.shot || s.concerned die r x.who 16 },
           rings := s.rings.map fun x => { x with shot := x.shot || s.concerned die r x.who x.part } }

/-- A marked write or append is still on its way, on a die or of dispatch. -/
def State.shotLeft (s : State) (die : Nat) : Bool :=
  let here (w : Who) : Bool := match w with
    | .copy b | .eng b _ => bankDie b == die
    | _ => true
  (s.bulk.any fun x => x.shot && here x.who) || s.rings.any fun x => x.shot && here x.who

/-- Steps 1 and 2 of R392 on one die, in saved contexts too. -/
def State.revoke (s : State) (die : Nat) (r : Revoked) : State :=
  let cores := Assoc.mapVals Core.zero (fun c x =>
    if coreDie c = die then { x with tlb := x.tlb.filter fun t => !r.hits t.part t.page t.size t.leaf } else x) s.cores
  let ids := (s.banks.map fun p => p.1).filter fun b => bankDie b == die
  let s1 := ({ s with cores := cores } : State).modDie die fun d => { d with sealSeen := d.sealSeen.filter fun x => !r.hits x.part x.page x.size x.leaf }
  ids.foldl (fun s b => s.arrive b fun k => k.revoked r) (s1.markShot die r)

/-- Step 3 of R392 on one die: no marked access is under way and no pin holds a page in range. -/
def State.revokeDrained (s : State) (die : Nat) (r : Revoked) : Bool :=
  !s.shotLeft die && s.banks.all fun p =>
    bankDie p.1 != die ||
      (let k := p.2
       (k.posts.all fun x => !x.shot) && (k.ldqs.all fun x => !x.shot) &&
       (match k.pend with | some x => !x.shot | none => true) &&
       (match k.wait with
        | .wait w => w.lines.all fun m => !m.shot || !m.reads w.conds || (s.line (bankCore p.1) (m.pa / 64)).st != .isD
        | _ => true) &&
       (match k.copy with
        | some c => c.pins.all fun y => !r.hits k.part y.page y.size y.leaf
        | none => true) &&
       k.engs.all fun e => match e.2 with
        | some c => c.pins.all fun y => !r.hits k.part y.page y.size y.leaf
        | none => true)

/-- The pages that `SHOOT`'s register names (R391). -/
def shootPages (arg : Word) : Revoked :=
  let lo := bits arg 55 16 * 65536
  if bits arg 59 58 = 3 then .range (bits arg 63 60) 0 (2 ^ 56)
  else .range (bits arg 63 60) lo (lo + pageBytes (bits arg 59 58))

/-- The fields of `SHOOT`'s register (R391). -/
def shootOk (v : Word) : Bool :=
  bits v 57 56 == 0 && bits v 15 0 == 0 &&
  (match bits v 59 58 with
   | 0 => true
   | 1 => bits v 25 16 == 0
   | 2 => bits v 35 16 == 0
   | _ => bits v 55 16 == 0)

/-- The dies of the fabric as bank b's die knows them: those whose relabelling entry is valid, and its own (R312). -/
def State.fabricDies (s : State) (b : Nat) : List Nat :=
  let own := bankDie b
  let others := ((s.die own).relabel.map fun p => p.1).filter fun d => d != own && s.dieExists own d
  own :: others

/-- `SHOOT` (R391, R392): the word waits until every die has acknowledged. -/
def execShoot (a : BitVec 5) (s : State) : Out :=
  privilegedThen s fun s =>
    let v := s.reg a
    if !shootOk v then trapNow s illegalOperand
    else
      let ds := s.fabricDies s.cur
      let s1 := s.modMe fun k => { k with wait := .shoot v ds [] }
      .next (ds.foldl (fun s d => s.owe (.shootDieArrival s.cur d)) s1)

/-- SHOOT_DIE_ARRIVAL (R392, R476): the shootdown of bank b reaches a die in the management class; the die drains and then
acknowledges. -/
def execShootDieArrival (b die : Nat) (s : State) : Out :=
  if !validBank b || !validDie die then .fault .noSuchAgent
  else match (s.bank b).wait with
    | .shoot arg left draining =>
      let r := shootPages arg
      if die ∈ left then
        match s.serve (agentShoot b die) (b + 1) ((s.bank b).part % 16) (s.wayTo .management (bankDie b) die) with
        | (false, s1) => .next (s1.owe (.shootDieArrival b die))
        | (true, s1) =>
          let s2 := (s1.revoke die r).modBank b fun k =>
            { k with wait := .shoot arg (left.filter fun d => d != die) (die :: draining) }
          .next (s2.owe (.shootDieArrival b die))
      else if die ∈ draining then
        if s.revokeDrained die r then
          .next ((s.modBank b fun k =>
            { k with wait := .shoot arg left (draining.filter fun d => d != die) }).owe (.shootComplete b))
        else .next (s.owe (.shootDieArrival b die))
      else .next s
    | _ => .next s

/-- A changed root of a partition comes into force on a die (R381) (DEDUCED, unsafe: log entry 20). -/
def State.takeRoot (s : State) (part die : Nat) : State :=
  s.modDie die fun d => { d with rootNow := Assoc.set 0 d.rootNow part (Assoc.get 0 d.ptroot part) }

/-- A shootdown of every page of a partition has completed: its changed roots come into force (R381). -/
def State.takeRoots (s : State) (arg : Word) : State :=
  if bits arg 59 58 = 3 then (s.dies.map fun p => p.1).foldl (fun s d => s.takeRoot (bits arg 63 60) d) s else s

/-- Some leaf for addresses in [lo, hi), in the tables from the one at t for addresses from va on, is one that `hit` looks for:
leaf and size. -/
def State.leads (s : State) (lo hi : Nat) (hit : BitVec 64 → Nat → Bool) : Nat → Nat → Nat → Bool
  | 0, _, _ => false
  | left + 1, t, va =>
    (List.range 1024).any fun i =>
      let a := va + i * pageBytes left
      decide (a < hi) && decide (lo < a + pageBytes left) &&
        (let (xs, poison) := s.readHome (t + 8 * i) 8 0
         let e : BitVec 64 := BitVec.ofNat 64 (leNat xs)
         !poison && bit e 0 && if bit e 1 then hit e left else s.leads lo hi hit left (bits e 59 21 * 8192) a)

/-- The pages that a shootdown names include one that lies, or lay, in a migrating page (R325). -/
def State.shoots (s : State) (die : Nat) (arg : Word) (m : Migr) : Bool :=
  match shootPages arg with
  | .range p lo hi =>
    let r := Assoc.get 0 (s.die die).rootNow p
    let touches (e : BitVec 64) (size a : Nat) : Bool :=
      decide (leafFrame e * 65536 < a + m.size) && decide (a < leafFrame e * 65536 + pageBytes size)
    bit r 0 && s.leads lo hi (fun e size => touches e size m.old || touches e size m.new) 4 (bits r 51 13 * 8192) 0
  | .key _ _ => false

/-- The `SHOOT` of a migrated page completes: its grace timer starts (R325). -/
def State.startGrace (s : State) (die : Nat) (arg : Word) : State :=
  { s with migr := s.migr.map fun m => if m.phase = 3 ∧ s.shoots die arg m then { m with phase := 4, since := s.reftime } else m }

/-! ### Changes of the CXL table (R195, R469) -/

/-- The bytes of memory behind a port by its entry of the CXL table. -/
def cxlRoom (e : Word) : Nat := if bit e 63 then bits e 40 0 else 0

/-- A page reaches into bytes [lo, hi) of the memory behind port entry e. -/
def leafBehind (e lo hi size : Nat) (leaf : BitVec 64) : Bool :=
  let pa := leafFrame leaf * 65536
  isCxl pa && (pa / 2 ^ 40) % 256 == e && decide (pa % 2 ^ 40 < hi) && decide (lo < pa % 2 ^ 40 + pageBytes size)

/-- A die holds a translation into those bytes: cached, in a valid handle, or pinned. -/
def State.cxlHeld (s : State) (die e lo hi : Nat) : Bool :=
  (s.cores.any fun c => coreDie c.1 == die && c.2.tlb.any fun x => leafBehind e lo hi x.size x.leaf) ||
  s.banks.any fun p => bankDie p.1 == die &&
    ((p.2.handles.any fun h => h.2.st == .valid && leafBehind e lo hi h.2.size h.2.leaf) ||
     (p.2.copy.any fun c => c.pins.any fun y => leafBehind e lo hi y.size y.leaf) ||
     p.2.engs.any fun q => q.2.any fun c => c.pins.any fun y => leafBehind e lo hi y.size y.leaf)

/-- Entry e of a die's CXL table comes into force: at once where it takes no memory away, otherwise once a shootdown completes that
leaves no translation into what it takes away (R195, R469) (DEDUCED, unsafe: log entry 20). -/
def State.takeCxl (s : State) (shot : Bool) (die e : Nat) : State :=
  let old := Assoc.get 0 (s.die die).cxlNow e
  let new := Assoc.get 0 (s.die die).cxl e
  if cxlRoom old ≤ cxlRoom new ∨ (shot ∧ !s.cxlHeld die e (cxlRoom new) (cxlRoom old)) then
    s.modDie die fun d => { d with cxlNow := Assoc.set 0 d.cxlNow e new }
  else s

/-- A shootdown has completed: the changed entries come into force where they may. -/
def State.takeTables (s : State) : State :=
  (s.dies.flatMap fun p => (p.2.cxl ++ p.2.cxlNow).map fun e => (p.1, e.1)).foldl (fun s q => s.takeCxl true q.1 q.2) s

/-- SHOOT_COMPLETE (R392): every die has acknowledged. -/
def execShootComplete (b : Nat) (s : State) : Out :=
  if !validBank b then .fault .noSuchAgent
  else match (s.bank b).wait with
    | .shoot arg [] [] =>
      .next (((s.takeRoots arg).takeTables.startGrace (bankDie b) arg).modBank b fun k => { k.advance 4 with wait := .none })
    | _ => .next s

end Sys2Proof.Machine
end

