-- ==== Sys2Proof/Machine/Launch.lean ====
section
/-! DEFINITION. From a launch record to the first instruction of its tasks, and to their end (spec/01 R19 to R26, spec/03
R74 to R78, spec/16 R345 to R362). -/

namespace Sys2Proof.Machine

/-! ### Reads of dispatch and of the mapper (R217) -/

/-- A byte that an agent without a bank reads coherently through a leaf's key, with the poison of its row. -/
def State.agentByte (s : State) (key pa : Nat) : Byte × Bool :=
  if isBarrierWin pa then (0, false) else s.recordByte 0 key pa

/-- n bytes read so. -/
def State.agentBytes (s : State) (key pa n : Nat) : List (Byte × Bool) :=
  (List.range n).map fun i => s.agentByte key (pa + i)

/-- What a read at a virtual address gives: its bytes and whether a row of them is poisoned. -/
structure VRead where
  bytes : List Byte
  poison : Bool
  s : State

/-- Read n units of w bytes from a virtual address that w divides, through the tables of a partition as a die holds them; rows in
`held` come as poisoned zeros; none where a unit fails translation. -/
def State.vread (s : State) (held : List Nat) (die part w : Nat) : Nat → Nat → Option VRead
  | 0, _ => some { bytes := [], poison := false, s := s }
  | n + 1, va =>
    match s.walk die part va 1 with
    | .error _ => none
    | .ok x =>
      let pa := leafPa x.leaf x.size va
      let xs := if held.contains (pa / 256) then List.replicate w (0, true) else s.agentBytes (leafKey x.leaf) pa w
      match (((s.walked die part va).noteWalk die x).spoil pa (leafKey x.leaf)).vread held die part w n (va + w) with
      | none => none
      | some r => some { r with bytes := xs.map (fun p => p.1) ++ r.bytes, poison := xs.any (fun p => p.2) || r.poison }

/-- The units of service that such reads take from place `from'`, and the rows that they read, as far as they translate (R404,
R476). -/
def State.vunits (s : State) (from' die part w : Nat) : Nat → Nat → List Leg × List Nat
  | 0, _ => ([], [])
  | n + 1, va =>
    let walk := (s.walkPath die part va).flatMap (s.readLegs from')
    match s.walk die part va 1 with
    | .error _ => (walk, [])
    | .ok x =>
      let pa := leafPa x.leaf x.size va
      let r := s.vunits from' die part w n (va + w)
      (walk ++ s.readLegs from' pa ++ r.1, pa :: r.2)

/-- Rows leave one after the other by the ports towards a die (R404 to R406): the answers so far as the digits of a number below
its first, 1 for a row held back; whether all have been given. -/
def State.pullRows (s : State) (die : Nat) : List Nat → Nat → Bool × Nat × State
  | [], n => (true, n, s)
  | pa :: ps, n =>
    match s.egress (s.pullPort (memDie pa) die) (if isGsram pa then (s.cell (gsramKey pa)).rtag else s.readTag pa) with
    | .ok s1 => s1.pullRows die ps (2 * n)
    | .wait s1 => (false, n, s1)
    | .capped => s.pullRows die ps (2 * n + 1)

/-- What reads by dispatch, by the mapper or of a bundle section come to: not yet, or the rows that ports hold back. -/
inductive Pulled where
  | wait (s : State)
  | done (held : List Nat) (s : State)

/-- Agent `agent`, of bank b (as in a message) and partition `part`, takes the units and the rows of reads towards a die
(R404, R476). -/
def State.agentPull (s : State) (agent b part die : Nat) (u : List Leg × List Nat) : Pulled :=
  let rows := agent + 2 ^ 60
  let n := max 1 (Assoc.get 0 s.passed rows)
  let ps := (u.2.map fun pa => pa / 256).eraseDups
  match if n = 1 then s.serve agent b part u.1 else (true, s) with
  | (false, s1) => .wait s1
  | (true, s1) =>
    match s1.pullRows die ((ps.drop (Nat.log2 n)).map fun r => 256 * r) n with
    | (false, m, s2) => .wait { s2 with passed := Assoc.set 0 s2.passed rows m }
    | (true, m, s2) =>
      .done (((List.range ps.length).filter fun i => Nat.testBit m (ps.length - 1 - i)).map fun i => ps.getD i 0)
        { s2 with passed := Assoc.del s2.passed rows }

/-! ### The launch record (R348) and its image (R74 to R78) -/

/-- The dies of a set with its origin and extents (R21, R328), in ascending order: none where an extent code is illegal or
a coordinate of the origin is not a multiple of its extent. -/
def dieSet (base ext : Nat) : Option (List Nat) :=
  let dims := [0, 1, 2, 3, 4]
  let code (d : Nat) : Nat := ext / 4 ^ d % 4
  let c (d : Nat) : Nat := base / 4 ^ d % 4
  if dims.all fun d => decide (code d < 3) && decide (c d % 2 ^ code d = 0) then
    some ((List.range 1024).filter fun n =>
      dims.all fun d =>
        let x := n / 4 ^ d % 4
        decide (c d ≤ x) && decide (x < c d + 2 ^ code d))
  else none

/-- Step 1 of R349, translations apart. -/
def recordOk (r : BitVec 512) : Bool :=
  bits r 511 336 == 0 && bits r 311 306 == 0 && bits r 303 302 == 0 && bits r 283 276 == 0 &&
  (bit r 304 || bits r 301 300 == 0) && decide (bits r 291 284 ≤ 104) &&
  bits r 63 56 == 0 && bits r 5 0 == 0 && bits r 133 128 == 0 &&
  (bits r 299 292 == 0 || bits r 66 64 == 0)

/-- Field [hi:lo] of the image's header, whose bits count from bit 0 of byte 0 (R75). -/
def hdr (x : BitVec 2560) (hi lo : Nat) : Nat := bits x hi lo

def imgNvar (x : BitVec 2560) : Nat := hdr x 50 48
def imgNlev (x : BitVec 2560) : Nat := hdr x 53 51
def imgCodeOff (x : BitVec 2560) : Nat := hdr x 127 96
def imgBlkOff (x : BitVec 2560) : Nat := hdr x 191 160
def imgBlkCnt (x : BitVec 2560) : Nat := hdr x 207 192

/-- Loop-table entry i (R76). -/
def imgLoop (x : BitVec 2560) (i : Nat) : Nat := bits x (512 + 64 * i + 63) (512 + 64 * i)

/-- Variant entry v (R77). -/
def imgVar (x : BitVec 2560) (v : Nat) : BitVec 256 := BitVec.ofNat 256 (bits x (1536 + 256 * v + 255) (1536 + 256 * v))

/-- Default of mailbox n (R74). -/
def imgMbox (x : BitVec 2560) (n : Nat) : Word := BitVec.ofNat 64 (bits x (1024 + 64 * n + 63) (1024 + 64 * n))

/-- The sections of an image: offset and length in bytes (R75). -/
def imgSections (x : BitVec 2560) : List (Nat × Nat) :=
  [(imgCodeOff x, hdr x 159 128), (imgBlkOff x, 48 * imgBlkCnt x), (hdr x 287 256, 32 * hdr x 239 232),
   (hdr x 319 288, 64 * hdr x 247 240), (hdr x 351 320, hdr x 383 352)]

/-- Sections lie in the image, aligned, without overlap; an empty one has offset 0 (R74, R78); their order is not checked
(DESIGN CHOICE, unsafe: log entry 70). -/
def sectionsOk (len : Nat) (xs : List (Nat × Nat)) : Bool :=
  (xs.all fun p => if p.2 = 0 then p.1 == 0 else p.1 % 64 == 0 && decide (320 ≤ p.1) && decide (p.1 + p.2 ≤ len)) &&
  decide ((xs.filter fun p => p.2 ≠ 0).Pairwise fun p q => p.1 + p.2 ≤ q.1 ∨ q.1 + q.2 ≤ p.1)

/-- The sheaf fields of the header (R75). -/
def sheafFieldsOk (x : BitVec 2560) : Bool :=
  if hdr x 450 443 = 0 then hdr x 471 464 == 0 && hdr x 463 460 == 0 && hdr x 459 451 == 0 && hdr x 442 440 == 0
  else (hdr x 463 460 == 3 || hdr x 463 460 == 4 || hdr x 463 460 == 6) && decide (hdr x 442 440 ≤ 5)

/-- Variant entry v of an image (R77, R78); ENTRY is a multiple of 4 (DESIGN CHOICE, unsafe: log entry 70). -/
def variantOk (x : BitVec 2560) (v : Nat) : Bool :=
  let e := imgVar x v
  if v < imgNvar x then
    bits e 255 176 == 0 && bits e 111 96 == 0 && bits e 65 64 == 0 && decide (bits e 95 64 < hdr x 159 128) &&
    decide (bits e 127 112 + bits e 143 128 ≤ imgBlkCnt x) && decide (bits e 159 144 ≤ 6144) &&
    decide (bits e 175 160 ≤ 32768) &&
    (v == 0 || decide (bits e 63 0 ≤ bits (imgVar x (v - 1)) 63 0))
  else e == 0

/-- The image checks of R78, over the fixed part alone; entries beyond NLEV and NVAR are zero (R76, R77), and CODELEN is a multiple of
4 (R75) (DESIGN CHOICE, unsafe: log entry 70). -/
def imageOk (x : BitVec 2560) : Bool :=
  hdr x 31 0 == 0x58444B31 && hdr x 47 32 == 1 && decide (1 ≤ imgNvar x) && decide (imgNvar x ≤ 4) &&
  decide (imgNlev x ≤ 6) && imgBlkCnt x % 16 == 0 && decide (imgBlkCnt x ≤ 1024) && hdr x 159 128 % 4 == 0 &&
  decide (320 ≤ hdr x 511 480) &&
  hdr x 63 54 == 0 && hdr x 95 64 == 0 && hdr x 231 208 == 0 && hdr x 255 248 == 0 && hdr x 439 384 == 0 &&
  hdr x 479 472 == 0 && sheafFieldsOk x && sectionsOk (hdr x 511 480) (imgSections x) &&
  ((List.range 6).all fun i => imgLoop x i / 2 ^ 26 == 0 && (decide (i < imgNlev x) || imgLoop x i == 0)) &&
  bits x 1023 896 == 0 && ((List.range 4).all fun v => variantOk x v)

/-- MARK of a loop-table entry: 1 T, 2 C, 3 D (R76). -/
def loopMark (e : Nat) : Nat := e / 2 ^ 24 % 4

/-- The marks and trip counts of the levels in use, outermost first. -/
def imgLevels (x : BitVec 2560) : List (Nat × Nat) :=
  (List.range (imgNlev x)).map fun i => (loopMark (imgLoop x i), imgLoop x i % 2 ^ 24)

/-- The product of the trip counts of the levels with a mark; 1 with none. -/
def trips (x : BitVec 2560) (mark : Nat) : Nat :=
  ((imgLevels x).filter fun p => p.1 == mark).foldl (fun n p => n * p.2) 1

/-- The loop-table checks (R20, R76, R349): D levels, then C levels, then T levels. -/
def loopsOk (x : BitVec 2560) : Bool :=
  ((imgLevels x).all fun p => p.1 != 0) && decide ((imgLevels x).Pairwise fun p q => q.1 ≤ p.1) &&
  decide (trips x 3 ≤ 2 ^ 32) && decide (trips x 2 ≤ 2 ^ 32)

/-- Part i of n iterations divided among p (R21, R22). -/
def share (i n p : Nat) : Nat × Nat := (i * n / p, (i + 1) * n / p)

/-! ### Launches -/

/-- The die whose dispatch processes the launches of an issuer: the host's are processed on die 0. -/
def launchDie (b : Option Nat) : Nat :=
  match b with
  | some b => bankDie b
  | none => 0

/-- A launch's completion record (R24, R260), when the record names a ring with a translation. -/
def State.launchRecord (s : State) (r : BitVec 512) (ring : Option Xlat) (part : Nat) (b : Option Nat) (tasks status : Nat) :
    State :=
  match ring with
  | none => s
  | some x =>
    let (core, bank) := match b with
      | some b => (coreNum b, b % 2)
      | none => (127, 0)
    let die := if b.isNone then 1023 else launchDie b
    s.askRing (leafPa x.leaf x.size (bits r 191 128)) (leafFrame x.leaf * 65536 + pageBytes x.size) (leafKey x.leaf) part
      (ringRecord tasks 0 (bits r 335 320) status 1 die core bank) .nobody

/-- The translation of a launch's ring, when its record names one; `held`: the one that dispatch has, unless a shootdown has
removed it (R393) (DEDUCED, unsafe: log entry 51). -/
def State.ringXlat (s : State) (b : Option Nat) (part : Nat) (r : BitVec 512) (held : Option Xlat) : Option Xlat :=
  if bits r 191 128 = 0 then none
  else match held with
    | some x => some x
    | none => (s.walk (launchDie b) part (bits r 191 128) 3).toOption

/-- What the checks of R349 find: a status that refuses the launch, or what its tasks need. -/
inductive Checked where
  | refused (status : Nat)
  | ok (dies : List Nat) (fixed : BitVec 2560) (mbox : Assoc Word)

/-- The mailbox values of a launch: the image's defaults, replaced where MBMASK says (R348, R350)
(DEDUCED, unsafe: log entry 44). -/
def mailboxes (r : BitVec 512) (fixed : BitVec 2560) (given : List Byte) : Assoc Word :=
  (List.range 8).foldl (fun m n =>
    let v := if bit r (292 + n) then BitVec.ofNat 64 (leNat ((given.drop (8 * n)).take 8)) else imgMbox fixed n
    Assoc.set 0 m n v) []

/-- The checks of R349 in their order, on die `die` for a partition. A poisoned mailbox row counts as a bad record, a
poisoned row of the image's fixed part as a bad image (DEDUCED, unsafe: log entry 44). -/
def State.checkLaunch (s : State) (held : List Nat) (die part : Nat) (r : BitVec 512) (ringOk : Bool) : Checked × State :=
  let mb : Option VRead :=
    if bits r 299 292 = 0 then some { bytes := [], poison := false, s := s } else s.vread held die part 8 8 (bits r 127 64)
  match dieSet (bits r 265 256) (bits r 275 266), mb with
  | some ds, some m =>
    if !recordOk r || !ringOk || m.poison then (.refused 6, s)
    else match m.s.vread held die part 64 5 (bits r 63 0) with
      | none => (.refused 6, m.s)
      | some f =>
        let fixed : BitVec 2560 := BitVec.ofNat 2560 (leNat f.bytes)
        if !(ds.all fun d => s.dieExists die d) then (.refused 7, f.s)
        else if f.poison || !imageOk fixed then (.refused 2, f.s)
        else if !loopsOk fixed then (.refused 3, f.s)
        else (.ok ds fixed (mailboxes r fixed m.bytes), f.s)
  | _, _ => (.refused 6, s)

/-- The tasks of a launch, one for each die with a share of its D iterations (R21) (DEDUCED, unsafe: log entry 52). -/
def launchTasks (id first part plotn : Nat) (fixed : BitVec 2560) (ds : List Nat) : List (Nat × Task) :=
  let n := trips fixed 3
  let all := (List.range ds.length).map fun i => (ds.getD i 0, share i n ds.length)
  let some' := if (imgLevels fixed).any (fun p => p.1 == 3) then all.filter fun p => decide (p.2.1 < p.2.2)
    else ds.map fun d => (d, (0, 1))
  (List.range some'.length).map fun j =>
    let p := some'.getD j (0, (0, 0))
    (p.1, { num := (first + j) % 2 ^ 32, launch := id, part := part, dlo := p.2.1, dhi := p.2.2, plotn := plotn })

/-- The number of cores in a plot. -/
def plotSize (plot : BitVec 104) : Nat := ((List.range 104).filter fun c => bit plot c).length

/-- The lowest-numbered reserve record of a die that a device launch may take (R352). -/
def Die.reserveFor (d : Die) (t : Task) : Option Nat :=
  (List.range 64).find? fun n =>
    let x := d.bind n
    x.valid && x.state == 5 && x.part == t.part && decide (t.plotn ≤ plotSize x.plot)

def State.modBind (s : State) (die rec : Nat) (f : Bind → Bind) : State :=
  s.modDie die fun d => { d with binds := Assoc.set Bind.zero d.binds rec (f (d.bind rec)) }

/-- A task joins its die: bound at once to a reserve when it may be (R352), otherwise pending (R349). -/
def State.addTask (s : State) (fast : Bool) (die : Nat) (t : Task) : State :=
  match if fast then (s.die die).reserveFor t else none with
  | some n => (s.modBind die n fun x => { x with state := 6, job := some t, var := 0, started := [], finished := [] }).owe
      (.taskStart die n)
  | none => s.modDie die fun d => { d with pending := d.pending ++ [t] }

/-- Launch processing of one record (R21, R349): `b` is the issuing bank, none for the host; `held`: rows that ports hold back
(DEDUCED, unsafe: log entry 51). -/
def State.launch (s : State) (held : List Nat) (part : Nat) (b : Option Nat) (r : BitVec 512) : State :=
  let die := launchDie b
  let va := bits r 191 128
  let ring := if va % 64 = 0 then s.ringXlat b part r none else none
  let s0 := match ring with
    | some x => (s.walked die part va).noteWalk die x
    | none => s
  match s0.checkLaunch held die part r (va == 0 || ring.isSome) with
  | (.refused st, s1) => s1.launchRecord r ring part b 0 st
  | (.ok ds fixed mb, s1) =>
    let ts := launchTasks s1.launchNext s1.taskNext part (bits r 291 284) fixed ds
    let l : Launch := { id := s1.launchNext, rcd := r, part := part, b := b, fixed := fixed, mbox := mb, ring := ring,
                        left := ts.length, tasks := ts.length, ended := false }
    if ts = [] then s1.launchRecord r ring part b 0 0
    else
      let s2 : State := { s1 with launches := s1.launches ++ [l], launchNext := s1.launchNext + 1,
                                  taskNext := (s1.taskNext + ts.length) % 2 ^ 32 }
      ts.foldl (fun s p => s.addTask (bit r 305 && b.isSome) p.1 p.2) s2

/-- What dispatch reads for a launch: the tables for its ring, its mailbox values, its image's fixed part (R349). -/
def State.launchUnits (s : State) (part : Nat) (b : Option Nat) (r : BitVec 512) : List Leg × List Nat :=
  let die := launchDie b
  let ring := if bits r 191 128 = 0 then [] else s.walkLegs die part (bits r 191 128)
  let mb := if bits r 299 292 = 0 then ([], []) else s.vunits die die part 8 8 (bits r 127 64)
  let img := s.vunits die die part 64 5 (bits r 63 0)
  (ring ++ mb.1 ++ img.1, mb.2 ++ img.2)

/-- Dispatch processes a record once its reads have had their units of service; not before (R476). -/
def State.tryLaunch (s : State) (agent part : Nat) (b : Option Nat) (r : BitVec 512) : Pulled :=
  let cause := match b with
    | some b => b + 1
    | none => 0
  match s.agentPull agent cause part (launchDie b) (s.launchUnits part b r) with
  | .wait s1 => .wait s1
  | .done held s1 => .done held (s1.launch held part b r)

/-- LAUNCH_PROCESS (R349): the oldest record of a die's device-launch queue, or, at 1,024, of those that the mapper took. -/
def execLaunchProcess (die : Nat) (s : State) : Out :=
  if die = 1024 then
    match s.hostLaunch with
    | [] => .next s
    | (r, part) :: rest =>
      match s.tryLaunch (agentDispatch 1024) part none r with
      | .wait s1 => .next (s1.owe (.launchProcess 1024))
      | .done _ s1 =>
        let s2 : State := { s1 with hostLaunch := rest }
        .next (if rest = [] then s2 else s2.owe (.launchProcess 1024))
  else if !validDie die then .fault .noSuchAgent
  else match (s.die die).launchq with
    | [] => .next s
    | (b, part, r) :: rest =>
      match s.tryLaunch (agentDispatch die) part (some b) r with
      | .wait s1 => .next (s1.owe (.launchProcess die))
      | .done _ s1 =>
        let s2 := s1.modDie die fun d => { d with launchq := rest }
        .next (if rest = [] then s2 else s2.owe (.launchProcess die))

/-! ### Host queues and the mapper (R345 to R347) -/

def State.hostQueue (s : State) (q : Nat) : HostQ := Assoc.get HostQ.zero s.hostq q

def State.setHostQueue (s : State) (q : Nat) (x : HostQ) : State := { s with hostq := Assoc.set HostQ.zero s.hostq q x }

/-- Records announced and not taken (R346). -/
def HostQ.waiting (x : HostQ) : Nat := (x.tail + 2 ^ 32 - x.head) % 2 ^ 32

/-- Ready (R346). -/
def HostQ.ready (x : HostQ) : Bool := x.enable && decide (1 ≤ x.waiting) && decide (x.waiting ≤ 2 ^ x.log2n)

def State.mslot (s : State) (i : Nat) : MSlot := Assoc.get MSlot.zero s.mapper i

def State.setMSlot (s : State) (i : Nat) (x : MSlot) : State := { s with mapper := Assoc.set MSlot.zero s.mapper i x }

/-- Whether a slot serves queue q. -/
def State.isMapped (s : State) (q : Nat) : Bool := s.mapper.any fun p => p.2.q == some q

/-- The ready, unmapped queues (DESIGN CHOICE, unsafe: log entry 53). -/
def State.unmapped (s : State) : List Nat :=
  (s.hostq.map fun p => p.1).filter fun q => (s.hostQueue q).ready && !s.isMapped q

/-- Let a free slot map when a queue waits. -/
def State.askMapper (s : State) : State :=
  if s.unmapped = [] then s
  else match (List.range 32).find? fun i => (s.mslot i).q.isNone with
    | some i => s.owe (.mapperQueueMap i)
    | none => s

/-- Change a queue; one that becomes ready waits from now. -/
def State.updateQueue (s : State) (q : Nat) (x : HostQ) : State :=
  let since := if x.ready && !(s.hostQueue q).ready then s.counter else x.since
  (s.setHostQueue q { x with since := since }).askMapper

/-- A notify register takes a write (R346, R474). -/
def State.notify (s : State) (q : Nat) (v : Word) : State :=
  if !s.modul.ready then s
  else
    let x := { s.hostQueue q with tail := bits v 31 0 }
    let past := decide (2 ^ x.log2n < x.waiting)
    s.updateQueue q (if past then { x with err := true, enable := false } else x)

/-- NOTIFY_REGISTER_WRITE (R346): a write reaches the notify register of a queue; one by the host goes behind its earlier
writes (R217). -/
def execNotifyRegisterWrite (q : Nat) (v : Word) (s : State) : Out :=
  if 1023 < q then .fault .noSuchAgent
  else if (s.findWin false q v).isNone ∧ (s.hostWrites ∨ s.winWrites.any (fun w => w.host)) then
    .next (s.sendWin { b := none, host := true, wake := false, n := q, v := v, pa := 0 })
  else .next (s.takeWin false q v fun s => s.notify q v)

/-- Of the unmapped ready queues, the one that has waited longest, ties to the lower number (R347)
(DESIGN CHOICE, unsafe: log entry 53). -/
def State.longest (s : State) : Option Nat :=
  let qs := s.unmapped
  qs.find? fun q => qs.all fun p => decide ((s.hostQueue q).since ≤ (s.hostQueue p).since)

/-- MAPPER_QUEUE_MAP (R347): a free slot takes the queue that has waited longest. -/
def execMapperQueueMap (slot : Nat) (s : State) : Out :=
  if 31 < slot then .fault .noSuchAgent
  else match (s.mslot slot).q, s.longest with
    | none, some q => .next ((s.setMSlot slot { q := some q, taken := 0 }).owe (.mapperRecordTake slot)).askMapper
    | _, _ => .next s

/-- A slot leaves its queue; the queue, if still ready, waits from now. -/
def State.leaveQueue (s : State) (slot q : Nat) : State :=
  ((s.setMSlot slot MSlot.zero).setHostQueue q { s.hostQueue q with since := s.counter }).askMapper

/-- MAPPER_RECORD_TAKE (R347, R476): a slot takes its queue's next record, or leaves the queue; the host's earlier writes come
first (R217, R346). -/
def execMapperRecordTake (slot : Nat) (s : State) : Out :=
  if 31 < slot then .fault .noSuchAgent
  else
    let m := s.mslot slot
    match m.q with
    | none => .next s
    | some q =>
      let x := s.hostQueue q
      if s.hostWrites then .next (s.owe (.mapperRecordTake slot))
      else if !x.ready || (decide (16 ≤ m.taken) && s.unmapped != []) then .next (s.leaveQueue slot q)
      else
        let va := x.base.toNat % 2 ^ 56 / 64 * 64 + 64 * (x.head % 2 ^ x.log2n)
        let bad (s : State) : State := (s.setHostQueue q { x with err := true, enable := false }).leaveQueue slot q
        match s.agentPull (agentMapper slot) 0 x.part 0 (s.vunits 1024 0 x.part 64 1 va) with
        | .wait s0 => .next (s0.owe (.mapperRecordTake slot))
        | .done held s0 => match s0.vread held 0 x.part 64 1 va with
        | none => .next (bad s0)
        | some r =>
          if r.poison then .next (bad r.s)
          else
            let s1 := r.s.setHostQueue q { x with head := (x.head + 1) % 2 ^ 32 }
            let s2 := s1.setMSlot slot { m with taken := m.taken + 1 }
            let s3 : State := { s2 with hostLaunch := s2.hostLaunch ++ [(BitVec.ofNat 512 (leNat r.bytes), x.part)] }
            .next ((s3.owe (.launchProcess 1024)).owe (.mapperRecordTake slot))

/-! ### Bind records (R353, R354) -/

/-- A launch in being. -/
def State.launchOf (s : State) (t : Task) : Option Launch := s.launches.find? fun l => l.id == t.launch

/-- The image's fixed part of a task. -/
def State.fixedOf (s : State) (t : Task) : BitVec 2560 :=
  match s.launchOf t with
  | some l => l.fixed
  | none => 0

/-- The writable fields of a record (R353); no change of SHARE waits any more. -/
def Bind.written (x : Bind) (v : BitVec 256) : Bind :=
  { x with plot := BitVec.ofNat 104 (bits v 255 152), share := BitVec.ofNat 64 (bits v 151 88), task := bits v 87 56,
           part := bits v 55 52, nvar := bits v 49 48, bank := bits v 39 39, devres := bit v 35, valid := bit v 0,
           shareNext := none }

/-- Whether a record's state has its task started. -/
def Bind.isRunning (x : Bind) : Bool := x.state == 2 || x.state == 3 || x.state == 6

/-- The value of a die's counter at its next frame boundary (R354 to R356). -/
def State.nextFrame (s : State) (die : Nat) : Nat := (s.copyOf die / 4096 + 1) * 4096

/-- The checks of a record that is not a reserve (R354): its task, where it passes. -/
def State.bindTask (s : State) (die : Nat) (x : Bind) : Option Task :=
  match (s.die die).pending.find? fun t => t.num == x.task && t.part == x.part with
  | some t => if x.nvar < imgNvar (s.fixedOf t) then some t else none
  | none => none

/-- A waiting record rewritten gives its task back to the pending list. -/
def State.unbind (s : State) (die rec : Nat) : State :=
  let x := (s.die die).bind rec
  match x.state, x.job with
  | 1, some t =>
    (s.modDie die fun d => { d with pending := d.pending ++ [t] }).modBind die rec fun x => { x with job := none, state := 0 }
  | _, _ => s

/-- Owe every waiting record of a die its start. -/
def State.oweStarts (s : State) (die : Nat) : State :=
  ((List.range 64).filter fun n =>
    let x := (s.die die).bind n
    x.state == 1 || (x.state == 6 && x.job.isSome && x.started == [])).foldl (fun s n => s.owe (.taskStart die n)) s

/-- BIND_RECORD_WRITE (R353, R354). -/
def execBindRecordWrite (die rec : Nat) (v : BitVec 256) (s : State) : Out :=
  if !validDie die || 63 < rec then .fault .noSuchAgent
  else if ((s.die die).bind rec).isRunning then
    .next (s.modBind die rec fun x =>
      { x with nvar := bits v 49 48, shareNext := some (BitVec.ofNat 64 (bits v 151 88), s.nextFrame die) })
  else
    let s1 := s.unbind die rec
    let x := ((s1.die die).bind rec).written v
    let put (y : Bind) : State := s1.modBind die rec fun _ => y
    if !x.valid then .next ((put { x with state := 0 }).oweStarts die)
    else
      let mask := Assoc.get 0 (s1.die die).pslot x.part
      if x.plot = 0 || x.share &&& ~~~mask != 0 then .next ((put { x with state := 4 }).oweStarts die)
      else if x.devres then .next ((put { x with state := 5 }).oweStarts die)
      else match s1.bindTask die x with
        | none => .next ((put { x with state := 4 }).oweStarts die)
        | some t =>
          let s2 := s1.modDie die fun d => { d with pending := d.pending.filter fun u => u != t }
          .next ((s2.modBind die rec fun _ => { x with state := 1, job := some t, started := [], finished := [] }).oweStarts die)

/-! ### Starting a task (R22, R65, R350, R354) -/

/-- Whether two records name a bank in common. -/
def Bind.clash (x y : Bind) : Bool := x.bank == y.bank && x.plot &&& y.plot != 0

/-- Whether a record may start now: its banks are free, and no lower-numbered waiting record needs one of them
(DEDUCED, unsafe: log entry 52). -/
def Die.mayStart (d : Die) (rec : Nat) : Bool :=
  let x := d.bind rec
  (List.range 64).all fun n =>
    let y := d.bind n
    n == rec || !x.clash y || !((y.isRunning && (y.state != 6 || y.started != [])) || (y.state == 1 && decide (n < rec)))

/-- The cores of a plot in ascending order. -/
def plotCores (plot : BitVec 104) : List Nat := (List.range 104).filter fun c => bit plot c

/-- A core's C range in its task (R22). -/
def coreRange (plot : BitVec 104) (fixed : BitVec 2560) (core : Nat) : Nat × Nat :=
  let cs := plotCores plot
  share (cs.findIdx fun c => c == core) (trips fixed 2) cs.length

/-- The address at which a variant begins (R63). -/
def entryPc (l : Launch) (var : Nat) : Word :=
  BitVec.ofNat 64 (bits l.rcd 63 0 + imgCodeOff l.fixed + bits (imgVar l.fixed var) 95 64)

/-- `s1` to `s5` at the first instruction (R350). -/
def startRegs (k : Bank) (l : Launch) (t : Task) (range : Nat × Nat) : Bank :=
  let vals := [bits l.rcd 255 192, t.dlo, t.dhi, range.1, range.2]
  (List.range 5).foldl (fun k i => k.setReg (BitVec.ofNat 5 (i + 1)) (BitVec.ofNat 64 (vals.getD i 0))) k

/-- The state of a bank at its task's first instruction (R65, R116, R350, R394) (DESIGN CHOICE, safe: log entry 48). -/
def startBank (old : Bank) (rec : Nat) (l : Launch) (t : Task) (var : Nat) (range : Nat × Nat) (hkey : BitVec 16) : Bank :=
  startRegs
    { Bank.zero with
      run := .live, part := t.part, bindRec := rec, pc := entryPc l var, mbox := l.mbox,
      ibuf := if old.part = t.part then old.ibuf else [], ibad := if old.part = t.part then old.ibad else [],
      area := old.area,
      sys := { SysRegs.zero with fpc := BitVec.ofNat 64 (bits l.rcd 301 300), hkey := hkey.zeroExtend 64 } }
    l t range

/-- Start one core of a task. -/
def State.startCore (s : State) (rec : Nat) (l : Launch) (t : Task) (var b : Nat) (range : Nat × Nat) : State :=
  ((s.setBank b (startBank (s.bank b) rec l t var range (Config.taskHkey s.free))).tickFree).owe (.bundleCopyComplete b)

/-- Forget a task that is done, in its bind record and its banks (R65, R354). -/
def State.freeRecord (s : State) (die rec : Nat) : State :=
  let x := (s.die die).bind rec
  let s1 := x.started.foldl (fun s b => s.modBank b fun k =>
    { Bank.zero with part := k.part, ibuf := k.ibuf, ibad := k.ibad, area := k.area }) s
  (s1.modBind die rec fun y =>
    { y with state := if y.devres then 5 else 0, valid := y.devres && y.valid, job := none, started := [], finished := [],
             ended := false }).oweStarts die

/-- A task completes; with the last one its launch does, and writes its completion record (R24, R354, R361). -/
def State.taskDone (s : State) (die rec : Nat) : State :=
  let x := (s.die die).bind rec
  let s1 := s.freeRecord die rec
  match x.job with
  | none => s1
  | some t =>
    match s1.launchOf t with
    | none => s1
    | some l =>
      let l1 := { l with left := l.left - 1, ended := l.ended || x.ended }
      let others := s1.launches.filter fun m => m.id != l.id
      if l1.left = 0 then
        ({ s1 with launches := others } : State).launchRecord l.rcd (s1.ringXlat l.b l.part l.rcd l.ring) l.part l.b l.tasks
          (if l1.ended then 8 else 0)
      else { s1 with launches := s1.launches.map fun m => if m.id = l.id then l1 else m }

/-- TASK_START (R22, R350, R354): the cores whose C range is not empty start; with none, the task completes at once. -/
def execTaskStart (die rec : Nat) (s : State) : Out :=
  if !validDie die || 63 < rec then .fault .noSuchAgent
  else
    let d := s.die die
    let x := d.bind rec
    let waiting := x.state == 1 || (x.state == 6 && x.started == [])
    match x.job with
    | none => .next s
    | some t =>
      match s.launchOf t with
      | none => .next s
      | some l =>
        if !waiting || !d.mayStart rec then .next s
        else
          let var := if x.devres then 0 else x.nvar
          let go := (plotCores x.plot).filter fun c =>
            let r := coreRange x.plot l.fixed c
            decide (r.1 < r.2)
          let ids := go.map fun c => mkBank die c x.bank
          let s1 := s.modBind die rec fun y =>
            { y with state := if y.state = 6 then 6 else 2, var := var, started := ids, finished := [], ended := false }
          if ids = [] then .next (s1.taskDone die rec)
          else .next (go.foldl (fun s c =>
            s.startCore rec l t var (mkBank die c x.bank) (coreRange x.plot l.fixed c)) s1)

/-- Read bundles i to i + n - 1 of the section at va into bank k's instruction buffer, with their poison (R65, R445); one
that cannot be read is a free value. -/
def State.copyBundles (s : State) (held : List Nat) (die part va : Nat) : Nat → Nat → Bank → Bank × State
  | 0, _, k => (k, s)
  | n + 1, i, k =>
    match s.vread held die part 16 3 (va + 48 * i) with
    | some r =>
      let k1 := { k with ibuf := Assoc.set 0 k.ibuf i (BitVec.ofNat 384 (leNat r.bytes)),
                         ibad := if r.poison then k.ibad ++ bundleRows i else k.ibad }
      r.s.copyBundles held die part va n (i + 1) k1
    | none => s.tickFree.copyBundles held die part va n (i + 1) { k with ibuf := Assoc.set 0 k.ibuf i (Config.freeBundle s.free) }

/-- BUNDLE_COPY_COMPLETE (R65, R476): the image's bundle section is in the bank's instruction buffer. -/
def execBundleCopyComplete (b : Nat) (s : State) : Out :=
  if !validBank b then .fault .noSuchAgent
  else
    let k := s.bank b
    let die := bankDie b
    if k.copied || k.run == .idle then .next s
    else match ((s.die die).bind k.bindRec).job with
      | none => .next s
      | some t =>
        match s.launchOf t with
        | none => .next s
        | some l =>
          let n := imgBlkCnt l.fixed
          let k0 := { k with ibad := k.ibad.filter fun r => decide (48 * n < 256 * (r + 1)) }
          let va := bits l.rcd 63 0 + imgBlkOff l.fixed
          match s.agentPull (agentBundles b) (b + 1) (k.part % 16) die (s.vunits die die k.part 256 ((va % 256 + 48 * n + 255) / 256) (va / 256 * 256)) with
          | .wait s1 => .next (s1.owe (.bundleCopyComplete b))
          | .done held s1 =>
          let r := s1.copyBundles held die k.part va n 0 k0
          .next ((r.2.modBank b fun k => { k with ibuf := r.1.ibuf, ibad := r.1.ibad.eraseDups, copied := true }).owe (.blockStart b))

/-! ### PHASE and RETIRE (R359, R361) -/

/-- Whether a transform of bank b waits or runs in its cluster. -/
def State.transforming (s : State) (b : Nat) : Bool :=
  let c := s.cluster (bankCluster b)
  (c.lanes.any fun p => p.2.b == b) || (c.running.any fun p => match p.2 with | some x => x.b == b | none => false)

/-- Whether every engine of the bank is idle, its queues empty, and every access acknowledged (R216, R359, R361). In a slot
the wait goes before a save or a waiting trap (R82). -/
def State.drained (s : State) (b : Nat) : Bool :=
  let k := s.bank b
  k.run == .live && (k.pst == .live && k.dueFault.isNone || k.slot.isSome) && k.quiet && k.pend.isNone && k.block.isNone && k.arr.isEmpty &&
  k.copy.isNone && (k.cmds.all fun p => p.2.isEmpty) && (k.engs.all fun p => p.2.isNone) && !s.transforming b

/-- Whether every token FIFO and queue of the bank is empty (R359). -/
def Bank.allEmpty (k : Bank) : Bool :=
  (k.tokens.all fun p => p.2 == 0) &&
  k.queues.all fun p => p.2.head == p.2.tail && (decide (4 ≤ p.1) || p.2.tail == p.2.rsv)

/-- Whether the bank waits in a `PHASE`, and its k. -/
def Bank.phase (k : Bank) : Option Nat :=
  match k.wait with
  | .phase n => some n
  | _ => none

/-- One core passes its `PHASE`: at the requested variant, or past the word. -/
def Bank.passPhase (k : Bank) (l : Launch) (t : Task) (sw : Option Nat) (n : Nat) (range : Nat × Nat) : Bank :=
  match sw with
  | some v =>
    { (startRegs k l t range).setReg 6 (BitVec.ofNat 64 (n + 1)) with pc := entryPc l v, slot := none, wait := .none }
  | none => { k.advance 4 with wait := .none }

/-- PHASE_RENDEZVOUS (R359): every core of the task that started has issued a `PHASE`; one that retired never will. -/
def execPhaseRendezvous (die rec : Nat) (s : State) : Out :=
  if !validDie die || 63 < rec then .fault .noSuchAgent
  else
    let x := (s.die die).bind rec
    let ids := x.started
    let ks := ids.map fun b => (s.bank b).phase
    let again := s.owe (.phaseRendezvous die rec)
    match x.job with
    | none => .next s
    | some t =>
      match s.launchOf t, ks with
      | some l, some n :: _ =>
        if !ks.all fun p => p.isSome then .next s
        else if !ks.all fun p => p == some n then
          .next (ids.foldl (fun s b => (s.modBank b fun k => { k with wait := .none }).takeTrap b illegalOperand) s)
        else if !ids.all fun b => s.drained b then .next again
        else
          let sw := if x.nvar ≠ x.var ∧ ids.all (fun b => (s.bank b).allEmpty) then some x.nvar else none
          let s1 := match sw with
            | some v => s.modBind die rec fun y => { y with var := v }
            | none => s
          .next (ids.foldl (fun s b => s.modBank b fun k =>
            k.passPhase l t sw n (coreRange x.plot l.fixed (coreNum b))) s1)
      | _, _ => .next s

/-- RETIRE_COMPLETE (R361): the core's work is done; with the last core the task completes, with the last task the launch. It
waits for dispatch's copy of the bundle section into the bank too (R65) (DEDUCED, unsafe: log entry 52). -/
def execRetireComplete (b : Nat) (s : State) : Out :=
  if !validBank b then .fault .noSuchAgent
  else
    let k := s.bank b
    let die := bankDie b
    if k.wait ≠ .retire then .next s
    else if !s.drained b || !k.copied then .next (if k.run = .live ∧ k.pst = .live then s.owe (.retireComplete b) else s)
    else
      let s1 := s.modBank b fun k =>
        { k with run := .retired, wait := .none, tokens := [], queues := [], handles := [], cb := [] }
      let s2 := s1.modBind die k.bindRec fun x =>
        { x with state := if x.state = 2 then 3 else x.state, finished := b :: x.finished }
      let x := (s2.die die).bind k.bindRec
      if x.started.all fun c => x.finished.contains c then .next (s2.taskDone die k.bindRec)
      else .next s2

/-! ### Frames (R354 to R357) -/

/-- The mask of a partition with its pending change. -/
def Die.pslotLatest (d : Die) (p : Nat) : Word :=
  match (d.pslotNext.filter fun e => e.1 == p).getLast? with
  | some e => e.2.1
  | none => Assoc.get 0 d.pslot p

/-- The firmware writes the tables of STAGE 7: in that stage, and once the device is ready (R472). -/
def Module.tablesOpen (m : Module) : Bool := m.ready || m.stage == 7

/-- PSLOT_WRITE (R356, R472): ignored as a whole where masks would overlap or leave no slot, and before READY but in STAGE 7
(DEDUCED, unsafe: log entry 26); a change is logged (R407) (DESIGN CHOICE, safe: log entry 25). -/
def execPslotWrite (die part : Nat) (v : Word) (s : State) : Out :=
  if !validDie die || 15 < part then .fault .noSuchAgent
  else if !s.modul.tablesOpen then .next s
  else
    let d := s.die die
    let others := (List.range 16).filter fun p => p != part
    let union := others.foldl (fun m p => m ||| d.pslotLatest p) (0 : Word)
    if union &&& v ≠ 0 ∨ union ||| v = BitVec.allOnes 64 then .next s
    else
      let old := d.pslotLatest part
      let s1 := s.modDie die fun d => { d with pslotNext := d.pslotNext ++ [(part, v, s.nextFrame die)] }
      if old = v then .next s1
      else .next (s1.logEvent 8 die part 0
        (BitVec.ofNat 256 ((Config.registerNumber 1 part).toNat + at' old.toNat 16 + at' v.toNat 80)))

/-- SHARE after the boundary at time c. -/
def Bind.atBoundary (x : Bind) (c : Nat) : Bind :=
  match x.shareNext with
  | some (v, t) => if t ≤ c then { x with share := v, shareNext := none } else x
  | none => x

/-- Cycles before time t of a die's counter that lie in the slots of a mask (DEDUCED, unsafe: log entry 66). -/
def slotCycles (mask : Word) (t : Nat) : Nat :=
  ((List.range 64).filter fun i => bit mask i).foldl (fun n i =>
    n + t / 4096 * 64 + min 64 (t % 4096 - 64 * i)) 0

/-- Cycles that the transform has had at time t of its die's counter (R355). -/
def Xform.had (x : Xform) (mask : Word) (t : Nat) : Nat := x.served + (slotCycles mask t - slotCycles mask x.since)

/-- The slots of the transform's partition on the die of a cluster. -/
def State.xfMask (s : State) (cl : Nat) (x : Xform) : Word := Assoc.get 0 (s.die (cl / 16)).pslot x.part

/-- Account the time up to t. -/
def State.xfAccount (s : State) (t cl : Nat) (x : Xform) : Xform := { x with served := x.had (s.xfMask cl x) t, since := t }

/-- The running transforms of a cluster, accounted up to time t. -/
def State.accounted (s : State) (t cl : Nat) (c : Cluster) : Cluster :=
  { c with running := Assoc.mapVals none (fun _ r => r.map fun x => s.xfAccount t cl x) c.running }

/-- Account the running transforms of a die up to time t, before its slots change. -/
def State.accountDie (s : State) (t die : Nat) : State :=
  { s with clusters := Assoc.mapVals Cluster.zero (fun cl c => if cl / 16 = die then s.accounted t cl c else c) s.clusters }

/-- The changes of PSLOT and SHARE whose boundary has come by time t take effect at it (R354, R356). -/
def State.frameAt (s : State) (t die : Nat) : State :=
  (s.accountDie t die).modDie die fun d =>
    { d with pslot := (d.pslotNext.filter fun e => decide (e.2.2 ≤ t)).foldl (fun m e => Assoc.set 0 m e.1 e.2.1) d.pslot,
             pslotNext := d.pslotNext.filter fun e => !decide (e.2.2 ≤ t),
             binds := Assoc.mapVals Bind.zero (fun _ x => x.atBoundary t) d.binds }

/-- FRAME_BOUNDARY (R354, R356): the changes of PSLOT and SHARE whose boundary has come take effect. -/
def execFrameBoundary (die : Nat) (s : State) : Out :=
  if !validDie die then .fault .noSuchAgent else .next (s.frameAt (s.copyOf die) die)

/-- The boundaries for which changes of a die wait. -/
def Die.boundaries (d : Die) : List Nat :=
  (d.pslotNext.map fun e => e.2.2) ++ d.binds.filterMap fun x => x.2.shareNext.map fun e => e.2

/-- Every boundary that a die's counter has reached takes effect, each die's at the latest of its own. -/
def State.frames (s : State) : State :=
  (s.dies.filterMap fun p =>
    match (p.2.boundaries.filter fun t => decide (t ≤ s.copyOf p.1)).max? with
    | some t => some (p.1, t)
    | none => none).foldl (fun s e => s.frameAt e.2 e.1) s

/-- Shared resources of a die: 256 pseudo-channels of its two stacks, eight channels of each of ten links, 32 gleaners, four
transform engines of each of 13 clusters (R8, R15, R26, R315) (DEDUCED, unsafe: log entry 66). -/
def dieResources : Nat := 256 + 80 + 32 + 52

/-- SERVICE_UNIT_START (R26, R355 to R357, R476): resource `res` starts a unit of `len` cycles for a partition, or for none
(16), in a slot that is theirs and within which it ends (DEDUCED, unsafe: log entry 66). -/
def execServiceUnitStart (die res part len : Nat) (s : State) : Out :=
  if !validDie die || dieResources ≤ res then .fault .noSuchAgent
  else
    let d := s.die die
    let busy := d.units.any fun u => u.1 == res && decide (s.counter < u.2.2)
    if !s.inSlot die part || decide (64 < s.copyOf die % 64 + len) || busy then .next s
    else .next (s.modDie die fun d =>
      { d with units := (res, part, s.counter + len) :: d.units.filter fun u => u.1 != res })

end Sys2Proof.Machine
end

