-- ==== Sys2Proof/Machine/Coherence.lean ====
section
/-! DEFINITION. Coherence of the sequencer caches (spec/13 R268 to R278, R462): the home's side, the cache's side, bulk
writes and reads, atomics at their home (spec/17 R379, spec/11 R223 to R225), and the completion rings (spec/12 R259). -/

namespace Sys2Proof.Machine

/-! ### Taking messages in their order (R270, R272, R318) -/

/-- Two kinds of one event. -/
def MKind.like (k j : MKind) : Bool :=
  match k, j with
  | .wthru _ _ _, .wthru _ _ _ => true
  | .put, .putClean => true
  | .putClean, .put => true
  | _, _ => k == j

/-- Two messages of one source to one destination in one class (R318). -/
def Msg.sameWay (m x : Msg) : Bool :=
  m.core == x.core && lineHome m.line == lineHome x.line && m.kind.cls == x.kind.cls && m.kind.toHome == x.kind.toHome

/-- Whether a message is the one that an event of core, line and kind names. -/
def Msg.named (m : Msg) (core line : Nat) (k : MKind) : Bool := m.core == core && m.line == line && m.kind.like k

/-- What stands in the network for an event: a message that is next to be served, at its place; a message that has not yet
come so far, and the state in which it has gone on; none. -/
inductive Taken where
  | got (m : Msg) (i : Nat)
  | behind (s : State)
  | absent

/-- The oldest message of core, line and kind, when it is the next to be served: it has arrived, now or before, and nothing of its
way is before it on the way (R318, R357); a request follows those of its core for the same line (R272). -/
def State.takeMsg (s : State) (core line : Nat) (k : MKind) : Taken :=
  match s.net.findIdx? fun m => m.named core line k with
  | none => .absent
  | some i =>
    match s.net[i]? with
    | none => .absent
    | some m =>
      if (s.net.take i).any fun x => x.sameWay m && ((m.arr == 0 && x.arr == 0) || x.line == m.line) then .behind s
      else if m.arr == 0 && !s.arrives (s.msgFoot m) then
        .behind { s with net := s.net.set i { m with hop := m.hop + s.stride (s.msgFoot m) } }
      else .got m i

/-- Owe the event of a kind of message of a core and a line. -/
def State.oweMsg (s : State) (core line : Nat) (k : MKind) : State :=
  match ({ kind := k, core := core, line := line, data := 0, ev := false } : Msg).event with
  | some e => s.owe e
  | none => s

/-- What serving a message comes to: it is served; it stays at its home; it goes back to its source, refused. -/
inductive Served where
  | done (s : State)
  | waits (s : State)
  | refused (s : State)

/-- Serve the next message of a core, a line and a kind, or wait for its turn: `f` is given the message with its place in the
order of arrival, and the state without it. While more of its kind stand behind it, they are owed theirs. -/
def serveNext (core line : Nat) (k : MKind) (s : State) (f : Msg → State → Served) : Out :=
  if !validCore core then .fault .noSuchAgent
  else match s.takeMsg core line k with
    | .got m i =>
      let m1 := { m with arr := s.arrNum m.arr }
      let put (s : State) (m : Msg) : State := ({ s with net := s.net.insertIdx i m } : State).oweMsg core line k
      match f m1 (({ s with net := s.net.eraseIdx i } : State).countArr m.arr) with
      | .done s2 => .next (if s2.net.any fun m => m.named core line k then s2.oweMsg core line k else s2)
      | .waits s2 => .next (put s2 m1)
      | .refused s2 => .next (put s2 { m with arr := 0, hop := 0 })
    | .behind s1 => .next (s1.oweMsg core line k)
    | .absent => .next s

/-- Serve a message that its receiver always accepts (R270). -/
def serveMsg (core line : Nat) (k : MKind) (s : State) (f : Msg → State → State) : Out :=
  if !validCore core then .fault .noSuchAgent
  else match s.takeMsg core line k with
    | .got m i =>
      let s2 := f m { s with net := s.net.eraseIdx i }
      .next (if s2.net.any fun m => m.named core line k then s2.oweMsg core line k else s2)
    | .behind s1 => .next (s1.oweMsg core line k)
    | .absent => .next s

/-! ### The directory (R271) -/

/-- The line at its home, as plain bytes. -/
def State.homeLine (s : State) (l : Nat) : BitVec 512 := BitVec.ofNat 512 (leNat (s.bytes (64 * l) 64))

/-- Write a line at its home. -/
def State.putHomeLine (s : State) (l : Nat) (d : BitVec 512) : State := s.setBytes (64 * l) (natLE 64 d.toNat)

/-- Add a sharer: a fifth one turns the pointers into a vector of dies. -/
def Dir.addSharer (d : Dir) (c : Nat) : Dir :=
  let add (xs : List Nat) (x : Nat) : List Nat := if x ∈ xs then xs else xs ++ [x]
  if d.vec then { d with sharers := add d.sharers (coreDie c) }
  else
    let xs := add d.sharers c
    if xs.length ≤ 4 then { d with sharers := xs }
    else { d with vec := true, sharers := (xs.map coreDie).eraseDups }

/-- The cores that an invalidation of the sharers goes to. -/
def Dir.targets (d : Dir) : List Nat :=
  if d.vec then d.sharers.flatMap fun die => (List.range 104).map fun c => die * 128 + c else d.sharers

/-- No copy anywhere: state I, in pointer mode. -/
def Dir.clear (d : Dir) : Dir := { d with owner := none, sharers := [], vec := false }

/-- Put an entry back in order after a change: an entry in I is in pointer mode. -/
def Dir.tidy (d : Dir) : Dir := if d.owner = none ∧ d.sharers = [] then { d with vec := false } else d

/-- The home sends a message about a line, for the bank that the present request acts for (R476). -/
def State.toCache (s : State) (core line : Nat) (k : MKind) (data : BitVec 512) (ev : Bool) : State :=
  s.send { kind := k, core := core, line := line, data := data, ev := ev, b := (s.dir line).b }

/-- The home sends a line's data to its requester: poisoned zeros where a port holds the row back (R406). -/
def State.sendData (s : State) (core line : Nat) (k : MKind) (data : BitVec 512) : State :=
  let d := s.dir line
  s.send { kind := k, core := core, line := line, data := if d.capped then 0 else data, ev := d.ev, b := d.b, poison := d.capped }

def State.modDir (s : State) (l : Nat) (f : Dir → Dir) : State := s.setDir l (f (s.dir l))

/-- The home recalls copies: FwdX to the owner `o`, Inv to the cores `xs`; the entry is busy until every reply (R274). -/
def State.recall (s : State) (l : Nat) (busy : Req) (o : Option Nat) (xs : List Nat) : State :=
  let s1 := match o with
    | some c => s.toCache c l .fwdX 0 false
    | none => s
  let s2 := xs.foldl (fun s c => s.toCache c l .inv 0 false) s1
  s2.modDir l fun d => { d with busy := some busy, need := xs.length + (if o.isSome then 1 else 0), buf := none }

/-! ### Requests at the home (R274, R275) -/

/-- GetX, or an upgrade converted to it. -/
def State.serveGetX (s : State) (r l : Nat) : State :=
  let d := s.dir l
  if d.owner = none ∧ d.sharers = [] then
    (s.sendData r l .dataX (s.homeLine l)).modDir l fun d => { d with owner := some r }
  else s.recall l (.getX r) d.owner d.targets

/-- Whether an upgrade finds its sender a sharer. In the vector of dies only the sender's own line tells
(DEDUCED, unsafe: log entry 21). -/
def State.sharesLine (s : State) (r l : Nat) : Bool :=
  let d := s.dir l
  if d.vec then
    d.sharers.contains (coreDie r) && ((s.line r l).st == .smD || (s.line r l).st == .omD)
  else d.sharers.contains r

/-- Whether the home answers a request with the line's data. -/
def State.givesData (s : State) (m : Msg) : Bool :=
  m.kind != .upg || !((s.dir m.line).owner == some m.core || s.sharesLine m.core m.line)

/-- The home serves a request of core r for a line; `capped`: a port holds the row back, and a copy for reading is then a shared
one (R406). -/
def State.serveRequest (s : State) (m : Msg) (capped : Bool) : State :=
  let l := m.line
  let r := m.core
  let s := s.modDir l fun d => { d with ev := m.ev, b := m.b, capped := capped }
  let d := s.dir l
  match m.kind with
  | .getS =>
    match d.owner with
    | some o => (s.toCache o l .fwdS 0 d.ev).modDir l fun d => { d with busy := some (.getS r), need := 1, buf := none }
    | none =>
      if d.sharers = [] ∧ !capped then (s.sendData r l .dataE (s.homeLine l)).modDir l fun d => { d with owner := some r }
      else (s.sendData r l .dataS (s.homeLine l)).modDir l fun d => d.addSharer r
  | .upg =>
    if d.owner = some r ∨ s.sharesLine r l then
      let o := if d.owner = some r then [] else d.owner.toList
      let xs := o ++ (d.targets.filter fun c => c != r && d.owner != some c)
      if xs = [] then (s.toCache r l .grant 0 d.ev).modDir l fun d => { d with owner := some r, sharers := [] }
      else s.recall l (.upg r) none xs
    else s.serveGetX r l
  | _ => s.serveGetX r l

/-! ### Migration and refusals (R325 to R327) -/

/-- A core's accesses to a line go by its new address (R327). -/
def State.renameLine (s : State) (core old new : Nat) : State :=
  let x := s.line core old
  let s1 := s.setLine core old CLine.zero
  let s2 := if (s.line core new).st = .i then s1.setLine core new x else s1
  let pa (a : Nat) : Nat := if a / 64 = old then new * 64 + a % 64 else a
  let fix (k : Bank) : Bank :=
    { k with posts := k.posts.map fun p => { p with pa := pa p.pa },
             pend := k.pend.map fun p => { p with pa := pa p.pa },
             wait := match k.wait with
               | .wait w => .wait { w with lines := w.lines.map fun m => { m with pa := pa m.pa } }
               | w => w }
  let s3 : State := { s2 with atomics := s2.atomics.map fun r => if bankCore r.b = core then { r with pa := pa r.pa } else r }
  (s3.modBank (2 * core) fix).modBank (2 * core + 1) fix

/-- GETS, GETX and UPG at the home: they wait in the order of their arrival while the entry is busy (R272) or the row tentative
(R323), are refused during recall and recopy, and go on to the new frame after them (R325, R326). -/
def homeRequest (k : MKind) (core line : Nat) (s : State) : Out :=
  serveNext core line k s fun m s1 =>
    let new := s.frameOf (64 * line) / 64
    if s.refuses (64 * line) || s.isRefused (srcCore core) (lineHome line) .request then
      .refused (s1.refuse (srcCore core) (lineHome line) .request)
    else if new ≠ line then
      let free := (s1.line core new).st == .i
      let s2 := s1.renameLine core line new
      .done (if free then s2.send { m with line := new, arr := 0 } else s2)
    else if (s.dir line).busy ≠ none || s.tentAt (64 * line) || s1.ahead m.arr [line] || s.burstWaits m.b (64 * line) then
      .waits s1
    else if !s1.givesData m then .done (s1.serveRequest m false)
    else match s1.pullEgress core (64 * line) with
      | .ok s2 => .done (s2.serveRequest m false)
      | .wait s2 => .waits s2
      | .capped => .done (s1.serveRequest m true)

/-- GETS (R274). -/
def execCohGetS (core line : Nat) (s : State) : Out := homeRequest .getS core line s

/-- GETX (R274). -/
def execCohGetX (core line : Nat) (s : State) : Out := homeRequest .getX core line s

/-- UPG (R274, R275) (DEDUCED, unsafe: log entry 21). -/
def execCohUpg (core line : Nat) (s : State) : Out := homeRequest .upg core line s

/-- The packets that a home refuses: source, home and class of each request, bulk write, append and atomic to a page in recall or
recopy (R325). -/
def State.refusable (s : State) : List (Nat × Nat × PClass) :=
  ((s.net.filter fun m => m.kind.cls == .request && s.refuses (64 * m.line)).map fun m =>
    (srcCore m.core, lineHome m.line, .request)) ++
  ((s.bulk.filter fun x => x.data != [] && x.served == [] && s.refuses x.pa).map fun x => (x.who.src, homeOf x.pa, .request)) ++
  ((s.rings.filter fun q => q.served == [] && s.refuses q.pa).map fun q => (q.who.src, homeOf q.pa, .request)) ++
  ((s.atomics.filter fun r => s.refuses r.pa).map fun r => (srcCore (bankCore r.b), homeOf r.pa, .atomic))

/-- REFUSAL (R325, R326): a home refuses a source's oldest packet to a page in recall or recopy. -/
def execRefusal (src : Nat) (s : State) : Out :=
  match s.refusable.find? fun p => p.1 == src with
  | some p => .next (s.refuse src p.2.1 p.2.2)
  | none => .next s

/-- Owe the packets of a source and a class their events, oldest first. -/
def State.reask (s : State) (src : Nat) (c : PClass) : State :=
  match c with
  | .atomic =>
    let s1 := (List.range s.atomics.length).foldl (fun s i => s.owe (.homeAtomic i)) s
    (List.range s1.gsram.length).foldl (fun s i => s.oweG i) s1
  | _ =>
    let s1 := (s.net.filter fun m => srcCore m.core == src && m.kind.cls == .request).foldl (fun s m =>
      s.oweMsg m.core m.line m.kind) s
    let s2 := (List.range s1.bulk.length).foldl (fun s i => s.owe (.bulkWrite i)) s1
    let s3 := (List.range s2.rings.length).foldl (fun s i => s.owe (.completionRecordAppend i)) s2
    s3.banks.foldl (fun s p => (List.range p.2.ldqs.length).foldl (fun s i => s.owe (.ldqRowArrival p.1 i)) s) s3

/-- REISSUE (R326): once the hint has elapsed a source's refused packets go again, in their order. -/
def execReissue (src : Nat) (s : State) : Out :=
  match s.refused.find? fun p => p.src == src with
  | none => .next s
  | some p =>
    if s.counter < p.hint then .next (s.owe (.reissue src))
    else
      let s1 := ({ s with refused := s.refused.erase p } : State).reask src p.cls
      .next (if s1.refused.any fun q => q.src == src then s1.owe (.reissue src) else s1)

/-! ### Replies at the home (R274, R276) -/

/-- A Put held back is acknowledged after the forward has completed; it changes the entry no further (R276). -/
def State.releasePut (s : State) (l : Nat) : State :=
  let d := s.dir l
  if d.held then
    (s.toCache d.heldFor l .putAck 0 d.ev).modDir l fun d =>
      { d with held := false }
  else s

/-- A Put that a Peek held back takes its own effect once the reader has its data (R274). -/
def State.finishPut (s : State) (l : Nat) : State :=
  if (s.dir l).held then (s.releasePut l).modDir l fun d => Dir.tidy { d with owner := none } else s

/-- The busy request of a line completes, every reply in (R274); a line reserved for a write stays so until it is written. -/
def State.completeReq (s : State) (l : Nat) : State :=
  let d := s.dir l
  match d.busy with
  | some (.getX r) =>
    let data := match d.buf with
      | some x => x
      | none => s.homeLine l
    ((s.sendData r l .dataX data).modDir l fun d =>
      { d with busy := none, need := 0, buf := none, owner := some r, sharers := [] }).releasePut l
  | some (.upg r) =>
    ((s.toCache r l .grant 0 d.ev).modDir l fun d =>
      { d with busy := none, need := 0, buf := none, owner := some r, sharers := [] }).releasePut l
  | some .recall => (s.modDir l fun d => { d.clear with busy := none, need := 0, buf := none }).releasePut l
  | some .bulk | some .atomic => s.modDir l fun d => { d.clear with need := 0, buf := none }
  | _ => s

/-- One reply of a recall has come. -/
def State.countReply (s : State) (l : Nat) : State :=
  let n := (s.dir l).need - 1
  let s1 := s.modDir l fun d => { d with need := n }
  if n = 0 then s1.completeReq l else s1

/-- The forward of a GetS is answered: the requester shares the line, whose owner is now `o`, with further sharers `xs`. -/
def State.completeGetS (s : State) (l : Nat) (data : BitVec 512) (o : Option Nat) (xs : List Nat) : State :=
  match (s.dir l).busy with
  | some (.getS r) =>
    let s1 := (s.sendData r l .dataS data).modDir l fun d =>
      (xs ++ [r]).foldl (fun d c => d.addSharer c) { d with busy := none, need := 0, owner := o }
    s1.releasePut l
  | _ => s

/-- The data that a cache gives back: of a row that a port held back, the home's own but for what was stored (R406). -/
def State.given (s : State) (m : Msg) : BitVec 512 :=
  if m.poison && (m.ev || !(s.rowMeta (m.line / 4)).poison) then s.homeLine m.line else m.data

/-- ACK (R274). -/
def execCohAck (core line : Nat) (s : State) : Out := serveMsg core line .ack s fun m s => s.countReply m.line

/-- DO (R274): the owner keeps the line. -/
def execCohDO (core line : Nat) (s : State) : Out :=
  serveMsg core line .dO s fun m s => s.completeGetS m.line (s.given m) (some m.core) []

/-- DS (R274): the owner keeps a shared copy, and memory takes the data. -/
def execCohDS (core line : Nat) (s : State) : Out :=
  serveMsg core line .dS s fun m s => (s.putHomeLine m.line (s.given m)).completeGetS m.line (s.given m) none [m.core]

/-- DW (R274, R276): the owner keeps nothing. -/
def execCohDW (core line : Nat) (s : State) : Out :=
  serveMsg core line .dW s fun m s => (s.putHomeLine m.line (s.given m)).completeGetS m.line (s.given m) none []

/-- DX (R274, R277): the owner gives the line up; for another core it goes with DataX, and for a write, an atomic, a
migration, or on an engine-visible page it goes to memory. -/
def execCohDX (core line : Nat) (s : State) : Out :=
  serveMsg core line .dX s fun m s =>
    let d := s.dir m.line
    let toCore := match d.busy with
      | some (.getX _) => true
      | _ => false
    let s1 := if !toCore || d.ev then s.putHomeLine m.line (s.given m) else s
    (s1.modDir m.line fun d => { d with buf := some (s.given m) }).countReply m.line

/-- PUT (R274, R276): from the owner it ends the ownership; while a forward to its sender is under way its data is
written and its acknowledgement held back. -/
def execCohPut (core line : Nat) (s : State) : Out :=
  serveMsg core line .put s fun m s =>
    let l := m.line
    let d := s.dir l
    let s1 := if m.kind = .put ∧ d.owner = some m.core then s.putHomeLine l (s.given m) else s
    if d.busy ≠ none ∧ d.owner = some m.core then s1.modDir l fun d => { d with held := true, heldFor := m.core }
    else
      let s2 := s1.send { kind := .putAck, core := m.core, line := l, data := 0, ev := d.ev, b := m.b }
      if d.owner = some m.core then s2.modDir l fun d => Dir.tidy { d with owner := none } else s2

/-- Free the store-queue entry of a write-through that the home has acknowledged. -/
def State.ackThrough (s : State) (core pa n : Nat) (v : Word) : State :=
  let mine (p : Post) : Bool := p.kind == .line && p.pa == pa && p.n == n && p.data.toNat % 2 ^ (8 * n) == v.toNat
  let waits (k : Bank) : Bool := k.posts.any fun p => p.sent && !p.done && mine p
  if waits (s.bank (2 * core)) then s.modBank (2 * core) fun k => k.ackPost mine
  else s.modBank (2 * core + 1) fun k => k.ackPost mine

/-- WRITE_THROUGH (R277): the home writes the bytes if their sender still owns the line, and acknowledges them; a whole line, sent
as a dirty line became clean, frees no entry. -/
def execWriteThrough (core line : Nat) (s : State) : Out :=
  serveNext core line (.wthru 0 0 0) s fun m s1 =>
    let moved := s.frameOf (64 * line) / 64
    if s.refuses (64 * line) || s.isRefused (srcCore core) (lineHome line) .request then
      .refused (s1.refuse (srcCore core) (lineHome line) .request)
    else if moved ≠ line then .done ((s1.renameLine core line moved).send { m with line := moved, arr := 0 })
    else if (s.dir line).busy ≠ none || s.tentAt (64 * line) || s1.ahead m.arr [line] || s.burstWaits m.b (64 * line) then
      .waits s1
    else match m.kind with
      | .wthru off n v =>
        if (s.dir line).owner ≠ some core then .done (s1.ackThrough core (64 * line + off) n v)
        else if m.whole then .done (s1.putHomeLine line (s1.given m))
        else .done ((s1.setBytes (64 * line + off) (natLE n v.toNat)).ackThrough core (64 * line + off) n v)
      | _ => .done s1

/-! ### The cache (R273) -/

/-- A core's loads go on as a line comes (R273). -/
def State.lineCame (s : State) (core : Nat) : State :=
  [2 * core, 2 * core + 1].foldl (fun s b => if (s.bank b).pend.isSome then s.loadGo b 8 else s) s

/-- A line arrives with its data and waits for a way (R462). -/
def State.arrived (s : State) (m : Msg) (st : CState) : State :=
  let x := s.line m.core m.line
  ((s.setLine m.core m.line
    { x with st := st, data := m.data, ev := m.ev, way := false, used := s.counter, poison := m.poison }).owe
    (.cacheFill m.core m.line)).lineCame m.core

/-- The first store of bank b to a line that may be performed now. -/
def State.waitingStore (s : State) (b line : Nat) : Option (Nat × Post) :=
  let ps := (s.bank b).posts
  ((List.range ps.length).filterMap fun i => ps[i]?.map fun p => (i, p)).find? fun e =>
    e.2.kind == .line && !e.2.sent && !e.2.done && e.2.pa / 64 == line && !s.postBlocked b e.1 e.2

/-- The stores of both banks that waited for ownership of a line are performed as it arrives, at most that many (R273, R275). -/
def State.performStores (s : State) (core line : Nat) : Nat → State
  | 0 => s
  | n + 1 =>
    match s.waitingStore (2 * core) line with
    | some (i, p) => (s.actPost (2 * core) i p).performStores core line n
    | none =>
      match s.waitingStore (2 * core + 1) line with
      | some (i, p) => (s.actPost (2 * core + 1) i p).performStores core line n
      | none => s

/-- The stores that waited for ownership of a line are performed in the cycle in which it arrives (R273). -/
def State.performStore (s : State) (core line : Nat) : State :=
  s.performStores core line ((s.bank (2 * core)).posts.length + (s.bank (2 * core + 1)).posts.length)

/-- DATAS (R273). -/
def execCohDataS (core line : Nat) (s : State) : Out :=
  serveMsg core line .dataS s fun m s => s.arrived m .s

/-- DATAE (R273). -/
def execCohDataE (core line : Nat) (s : State) : Out :=
  serveMsg core line .dataE s fun m s => s.arrived m .e

/-- DATAX (R273, R277): a line of an engine-visible page is held in E. -/
def execCohDataX (core line : Nat) (s : State) : Out :=
  serveMsg core line .dataX s fun m s =>
    (s.arrived m (if m.ev then .e else .m)).performStore core line

/-- GRANT (R273, R277): an owner whose page has become engine-visible sends its dirty bytes home. -/
def execCohGrant (core line : Nat) (s : State) : Out :=
  serveMsg core line .grant s fun m s =>
    let x := s.line core line
    let s1 := s.setLine core line { x with st := if m.ev then .e else .m, ev := m.ev }
    ((if m.ev && x.st == .omD then s1.cleanLine core line x.b else s1).lineCame core).performStore core line

/-- A cache answers the home, for the bank that the home's message acts for (R476). -/
def State.toHome (s : State) (b core line : Nat) (k : MKind) (d : BitVec 512) : State :=
  let x := s.line core line
  s.send { kind := k, core := core, line := line, data := d, ev := x.ev, b := b, poison := x.poison }

/-- The line goes from the cache; its way is free and its monitors see it (R368, R462). -/
def State.loseLine (s : State) (core line : Nat) : State := (s.setLine core line CLine.zero).lineLeft core line none

/-- The line's data goes while an access of the core still waits for ownership. -/
def State.loseData (s : State) (core line : Nat) : State :=
  let x := s.line core line
  (s.setLine core line { x with st := .imD, data := 0, way := false }).lineLeft core line none

/-- FWDS (R273). -/
def execCohFwdS (core line : Nat) (s : State) : Out :=
  serveMsg core line .fwdS s fun m s =>
    let x := s.line core line
    match x.st with
    | .e => (s.setLine core line { x with st := .s }).toHome m.b core line .dS x.data
    | .o | .omD => s.toHome m.b core line .dO x.data
    | .m => (s.setLine core line { x with st := .o }).toHome m.b core line .dO x.data
    | .xiA => s.toHome m.b core line .dW x.data
    | .i | .s | .isD | .imD | .smD => s

/-- FWDX (R273). -/
def execCohFwdX (core line : Nat) (s : State) : Out :=
  serveMsg core line .fwdX s fun m s =>
    let x := s.line core line
    match x.st with
    | .e | .o | .m => (s.toHome m.b core line .dX x.data).loseLine core line
    | .omD => (s.toHome m.b core line .dX x.data).loseData core line
    | .xiA => s.toHome m.b core line .dX x.data
    | .i | .s | .isD | .imD | .smD => s

/-- INV (R273). -/
def execCohInv (core line : Nat) (s : State) : Out :=
  serveMsg core line .inv s fun m s =>
    let x := s.line core line
    let s1 := s.toHome m.b core line .ack 0
    match x.st with
    | .s | .o => s1.loseLine core line
    | .smD | .omD => s1.loseData core line
    | .i | .isD | .imD | .xiA | .e | .m => s1

/-- PEEK (R273). -/
def execCohPeek (core line : Nat) (s : State) : Out :=
  serveMsg core line .peek s fun m s =>
    let x := s.line core line
    match x.st with
    | .e | .o | .m | .omD | .xiA => s.toHome m.b core line .peekData x.data
    | .i | .s | .isD | .imD | .smD => s

/-- PUTACK (R273). -/
def execCohPutAck (core line : Nat) (s : State) : Out :=
  serveMsg core line .putAck s fun _ s =>
    if (s.line core line).st = .xiA then s.setLine core line CLine.zero else s

/-! ### Ways (R268, R462) -/

/-- The lines of a core's set that hold a way. -/
def Core.ways (c : Core) (set : Nat) : List (Nat × CLine) := c.lines.filter fun p => p.1 % 128 == set && p.2.way

/-- A stable state. -/
def CState.stable (c : CState) : Bool :=
  match c with
  | .s | .e | .o | .m => true
  | .i | .isD | .imD | .smD | .omD | .xiA => false

/-- Bytes of a line of core c are on their way to its home, which has not yet acknowledged them (R277). -/
def State.throughOut (s : State) (c l : Nat) : Bool :=
  (s.net.any fun m => m.whole && m.core == c && m.line == l) ||
  [2 * c, 2 * c + 1].any fun b => (s.bank b).posts.any fun p => p.kind == .line && p.sent && !p.done && p.pa / 64 == l

/-- The line that a fill evicts: of those stable, not monitored and with no write-through outstanding, the least recently accessed
(DEDUCED, safe: log entry 73). -/
def State.victim (s : State) (core set : Nat) : Option Nat :=
  let xs := ((s.core core).ways set).filter fun p => p.2.st.stable && !s.monitored core p.1 && !s.throughOut core p.1
  (xs.find? fun p => xs.all fun q => decide (p.2.used ≤ q.2.used)).map fun p => p.1

/-- A line leaves its way for the line of bank b: silently from S, with a Put otherwise (R273) (DEDUCED, unsafe: log entry 67). -/
def State.evict (s : State) (b core line : Nat) : State :=
  let x := s.line core line
  match x.st with
  | .s => s.setLine core line CLine.zero
  | .e => (s.setLine core line { x with st := .xiA, way := false }).toHome b core line .putClean 0
  | .o | .m => (s.setLine core line { x with st := .xiA, way := false }).toHome b core line .put x.data
  | _ => s

/-- CACHE_FILL (R462): an arrived line takes a way of its set; it waits while every way is transient or monitored. -/
def execCacheFill (core line : Nat) (s : State) : Out :=
  if !validCore core then .fault .noSuchAgent
  else
    let x := s.line core line
    if x.way || !(x.st.stable || x.st == .smD || x.st == .omD) then .next s
    else
      let enter (s : State) : State := s.setLine core line { s.line core line with way := true }
      if ((s.core core).ways (line % 128)).length < 8 then .next (enter s)
      else match s.victim core (line % 128) with
        | some v => .next (enter (s.evict x.b core v))
        | none => .next (s.owe (.cacheFill core line))

/-! ### Bulk writes (R274, R278) -/

/-- Reserve a free line at its home for a write of bank b (as in a message), recalling its copies (DEDUCED, safe: log entry 42). -/
def State.claim (s : State) (b l : Nat) (q : Req) : State :=
  let s := s.modDir l fun d => { d with b := b, capped := false }
  let d := s.dir l
  if d.owner = none ∧ d.sharers = [] then s.modDir l fun d => { d with busy := some q, need := 0 }
  else s.recall l q d.owner (d.targets.filter fun c => d.owner != some c)

/-- Reserve lines one after the other, each when its entry is free: the lines reserved. Lines go in ascending order. -/
def State.claimAll (s : State) (b : Nat) (have' : List Nat) : List Nat → State × List Nat
  | [] => (s, have')
  | l :: ls =>
    if l ∈ have' then s.claimAll b have' ls
    else if (s.dir l).busy ≠ none then (s, have')
    else (s.claim b l .bulk).claimAll b (have' ++ [l]) ls

/-- Whether every line is reserved and its copies are back. -/
def State.claimedAll (s : State) (have' ls : List Nat) : Bool :=
  ls.all fun l => have'.contains l && (s.dir l).need == 0

/-- The entries of written lines are in I; a Put that crossed the recall is acknowledged now (R274, R276). -/
def State.unclaim (s : State) (ls : List Nat) : State :=
  ls.foldl (fun s l => (s.modDir l fun d => { d.clear with busy := none, need := 0, buf := none }).releasePut l) s

/-- Write bytes row by row at the home. -/
def State.writeRows (s : State) (pa key : Nat) (poison : Bool) (rtag : BitVec 24) : Nat → List Byte → State
  | 0, _ => s
  | _, [] => s
  | n + 1, xs =>
    let room := 256 - pa % 256
    (s.writeHome pa (xs.take room) key poison rtag).writeRows (pa + room) key poison rtag n (xs.drop room)

/-- A host's write into a sealed region (R402): the bytes are stored as they are, as ciphertext. -/
def State.writeCipher (s : State) (pa : Nat) (xs : List Byte) (key : Nat) : State :=
  let r := pa / 256
  let m := s.rowMeta r
  let s1 := if m.cipher then s
    else s.putRaw (r * 256) (natLE 256 (Config.encryptRow (s.sealOf r).1 (s.sealOf r).2
      (BitVec.ofNat 2048 (leNat (s.rawBytes (r * 256) 256)))).toNat)
  (s1.putRaw pa xs).setRowMeta r { m with poison := false, key := key, kv := s.keyVal pa key, rtag := 0, cipher := true,
                                          shift := s.keyShift pa key, chk := 0 }

/-- Give a completion to the host or to a CXL device. -/
def State.reply (s : State) (w : Who) (x : Reply) : State :=
  match w with
  | .host | .cxl _ => { s with modul := { s.modul with replies := s.modul.replies ++ [x] } }
  | _ => s

/-- The bytes of a bulk access enter memory. -/
def State.performBulk (s : State) (x : Bulk) : State :=
  match s.regionOf x.pa, x.who with
  | some (_, k, _), .host => s.writeCipher x.pa x.data k
  | some _, .cxl p => s.reply (.cxl p) .abort
  | _, _ =>
    let s1 := s.writeRows x.pa x.key x.poison x.rtag (x.data.length + 1) x.data
    if x.tent = 0 ∧ x.chk = 0 then s1
    else s1.setRowMeta (x.pa / 256) { s1.rowMeta (x.pa / 256) with tent := x.tent, chk := if x.len = 256 then x.chk else 0 }

/-- An agent's bulk write has been performed. -/
def State.bulkDone (s : State) (w : Who) : State :=
  match w with
  | .copy b => (s.modBank b fun k => { k with copy := k.copy.map fun c => { c with wait := c.wait - 1 } }).owe (.copyRetire b)
  | .eng b e =>
    let s1 := s.modBank b fun k => k.setEng e ((k.eng e).map fun r => { r with wait := r.wait - 1 })
    match e with
    | 3 => s1.owe (.walkerRetire b)
    | 4 => (s1.owe (.attndRetire b)).owe (.rdxRetire b)
    | _ => (s1.owe (.collectiveRetire b)).owe (.ploughRetire b)
  | .host | .cxl _ | .stop _ | .nobody => s

/-- Ask for a bulk write of one row, or a part of one, at its home, by a packet that may be tentative, with the check value that
the row brings. -/
def State.askTent (s : State) (pa : Nat) (xs : List Byte) (key : Nat) (poison : Bool) (rtag : BitVec 24) (w : Who) (tent : Nat)
    (chk : BitVec 32) : State :=
  let i := s.bulk.length
  let x : Bulk := { pa := pa, data := xs, len := xs.length, poison := poison, rtag := rtag, key := key, who := w,
                    served := [], got := [], tent := tent, chk := chk, no := s.nextNo }
  ({ s with bulk := s.bulk ++ [x], sends := s.nextNo } : State).owe (.bulkWrite i)

/-- Ask for a bulk write that is final as it lands. -/
def State.askBulk (s : State) (pa : Nat) (xs : List Byte) (key : Nat) (poison : Bool) (rtag : BitVec 24) (w : Who) : State :=
  s.askTent pa xs key poison rtag w 0 0

/-- The access that moves up to place i takes its turn. -/
def State.bulkTurn (s : State) (i : Nat) : State :=
  match s.bulk[i]? with
  | some x => s.owe (if x.data = [] then .bulkRead i else .bulkWrite i)
  | none => s

/-- Whether the host's bulk access i waits for a write that the host made before it (R217). -/
def State.hostBehind (s : State) (i : Nat) (x : Bulk) : Bool :=
  x.who == .host &&
  (((s.bulk.take i).any fun y => y.data != [] && y.who == .host) ||
   s.winWrites.any fun w => w.host && w.no != 0 && decide (w.no < x.no))

/-- BULK_WRITE (R272, R274, R278, R325, R326): bulk write i reserves its lines in its turn; with every copy back its bytes are
written together. -/
def execBulkWrite (i : Nat) (s : State) : Out :=
  match s.bulk[i]? with
  | none => .next s
  | some x0 =>
    let src := x0.who.src
    let home := homeOf x0.pa
    let x := { x0 with pa := s.frameOf x0.pa, arr := s.arrNum x0.arr }
    let again (s : State) (y : Bulk) : Out := .next (({ s with bulk := s.bulk.set i y } : State).owe (.bulkWrite i))
    if x.data = [] then .next (s.owe (.bulkRead i))
    else if x0.arr == 0 && !s.arrives (s.bulkFoot x0) then again s { x0 with hop := x0.hop + s.stride (s.bulkFoot x0) }
    else if x.served == [] && (s.refuses x0.pa || s.isRefused src home .request) then
      again (s.refuse src home .request) { x0 with arr := 0, hop := 0 }
    else
      let s0 := s.countArr x0.arr
      let ls := linesOf x.pa x.len
      if s.hostBehind i x || s.tentAt x.pa || s0.ahead x.arr ls || (x.served == [] && s.burstWaits x.who.cause x.pa) then
        again s0 { x0 with arr := x.arr }
      else
        let (s1, held) := s0.claimAll x.who.cause x.served ls
        if s1.claimedAll held ls then
          let s2 := ({ (s1.performBulk x) with bulk := s1.bulk.eraseIdx i } : State).unclaim ls
          .next ((s2.bulkDone x.who).bulkTurn i)
        else again s1 { x with served := held }

/-! ### Atomics at their home (R223 to R225, R379) -/

/-- Give an atomic's old value and its poison back to its bank. -/
def State.atomicReply (s : State) (r : AReq) (old : Nat) (poison : Bool) : State :=
  (s.modBank r.b fun k =>
    { (k.ackPost fun p => p.kind == .atomic) with
      pend := k.pend.map fun p => { p with ret := some (BitVec.ofNat 64 old, poison) } }).owe (.loadDataReturn r.b)

/-- The read-modify-write of an atomic on memory; `capped`: a port gives zeros for its old value (R406). -/
def State.atomicMem (s : State) (r : AReq) (pa : Nat) (capped : Bool) : State :=
  let w := if r.w64 then 8 else 4
  let (xs, poison) := s.readHome pa w r.key
  let old := leNat xs
  let s1 := if poison then s.spoil pa r.key
    else match atomicNew r.op w old (r.v.toNat % 2 ^ (8 * w)) (r.expect.toNat % 2 ^ (8 * w)) with
      | some v => s.writeHome pa (natLE w v) r.key false 0
      | none => s
  if capped then s1.atomicReply r 0 true else s1.atomicReply r old poison

/-- The read-modify-write of an atomic on global SRAM: it reads through a handle, and so checks no tag (R199, R396). -/
def State.atomicSram (s : State) (r : AReq) (capped : Bool) : State :=
  let w := if r.w64 then 8 else 4
  let key := gsramKey r.pa
  let off := r.pa % 256
  let part := (s.bank r.b).part
  let c := s.cell key
  let old := c.data.toNat / 2 ^ (8 * off) % 2 ^ (8 * w)
  let s1 := if c.poison then s
    else match atomicNew r.op w old (r.v.toNat % 2 ^ (8 * w)) (r.expect.toNat % 2 ^ (8 * w)) with
      | some v =>
        s.maskCell key part (BitVec.ofNat 2048 (v * 2 ^ (8 * off))) (fun j => decide (off ≤ j) && decide (j < off + w)) false
      | none => s
  if capped then s1.atomicReply r 0 true else s1.atomicReply r old c.poison

/-- Remove atomic i; the one that moves up takes its turn. -/
def State.dropAtomic (s : State) (i : Nat) : State :=
  let s1 : State := { s with atomics := s.atomics.eraseIdx i }
  if i < s1.atomics.length then s1.owe (.homeAtomic i) else s1

/-- An atomic that may perform now: the row of its old value leaves the port of its home first (R404, R406); then it is done
with state `f` of its read-modify-write. -/
def State.doAtomic (s : State) (i : Nat) (r : AReq) (f : State → Bool → State) : State :=
  match s.pullEgress (bankCore r.b) r.pa with
  | .ok s1 => (f s1 false).dropAtomic i
  | .wait s1 => s1.owe (.homeAtomic i)
  | .capped => (f s true).dropAtomic i

/-- The atomic performs, on a line that is its own or on a row of global SRAM, once its home holds nothing before it. -/
def State.serveAtomic (s : State) (i : Nat) (r : AReq) : State :=
  let pa := s.frameOf r.pa
  let l := pa / 64
  let mem (s : State) : State := s.doAtomic i r fun s capped => (s.atomicMem r pa capped).unclaim [l]
  if isGsram r.pa then
    if s.tentCell (gsramKey r.pa) then s.owe (.homeAtomic i) else s.doAtomic i r fun s capped => s.atomicSram r capped
  else if s.tentAt pa then s.owe (.homeAtomic i)
  else match (s.dir l).busy with
    | none =>
      if s.ahead r.arr [l] || s.burstWaits (r.b + 1) pa then s.owe (.homeAtomic i)
      else
        let s1 := s.claim (r.b + 1) l .atomic
        if (s1.dir l).need = 0 then mem s1 else s1.owe (.homeAtomic i)
    | some .atomic => if (s.dir l).need = 0 then mem s else s.owe (.homeAtomic i)
    | some _ => s.owe (.homeAtomic i)

/-- An atomic that has a place is served when nothing arrived before it stands in its home's queue; one that holds its line
busy goes on whatever its page's migration does (R218, R325, R379). -/
def State.turnAtomic (s : State) (i : Nat) (r : AReq) : State :=
  let home := atomicHome r.b r.pa
  if s.placeAhead home r.arr then s.owe (.homeAtomic i)
  else if s.refuses r.pa && (s.dir (r.pa / 64)).busy != some .atomic then
    (({ s with atomics := s.atomics.set i { r with arr := 0, hop := 0 } } : State).refuse (srcCore (bankCore r.b)) home .atomic).owe
      (.homeAtomic i)
  else s.serveAtomic i r

/-- HOME_ATOMIC (R223 to R225, R272, R325, R326, R379): atomic i asks for a place in its home's queue; the oldest that has one is
performed, once a line that a cache holds has been recalled (DEDUCED, safe: log entry 42). -/
def execHomeAtomic (i : Nat) (s : State) : Out :=
  match s.atomics[i]? with
  | none => .next s
  | some r =>
    let again (s : State) (q : AReq) : Out := .next (({ s with atomics := s.atomics.set i q } : State).owe (.homeAtomic i))
    if r.arr ≠ 0 then .next (s.turnAtomic i r)
    else if !s.arrives (s.atomicFoot r) then again s { r with hop := r.hop + s.stride (s.atomicFoot r) }
    else if s.refuses r.pa then
      again (s.refuse (srcCore (bankCore r.b)) (atomicHome r.b r.pa) .atomic) { r with hop := 0 }
    else match s.seatAtomic r.b r.pa r.refused with
      | .later => again s r
      | .refused s1 n => again s1 { r with refused := n }
      | .accepted s1 n =>
        .next (({ s1 with atomics := s1.atomics.set i { r with arr := n } } : State).turnAtomic i { r with arr := n })

/-! ### Completion rings (R259, R260, R420) -/

/-- n bytes at a physical address as their home holds them, with poison, for a ring of a partition. -/
def State.homeBytes (s : State) (pa n key : Nat) : List Byte × Bool :=
  if isGsram pa then
    let c := s.cell (gsramKey pa)
    ((natLE 256 c.data.toNat).drop (pa % 256) |>.take n, c.poison)
  else if isHostWin pa then ((List.range n).map fun i => s.hostByte (s.hostAddr pa + i), false)
  else if isWindow pa then (List.replicate n 0, false)
  else s.readHome pa n key

/-- Write bytes of one row at their home. -/
def State.putHomeBytes (s : State) (pa : Nat) (xs : List Byte) (key part : Nat) : State :=
  if isGsram pa then
    let off := pa % 256
    s.maskCell (gsramKey pa) part (BitVec.ofNat 2048 (leNat xs * 2 ^ (8 * off)))
      (fun j => decide (off ≤ j) && decide (j < off + xs.length)) false
  else if isHostWin pa then { s with hostMem := putBytes s.hostMem (s.hostAddr pa) xs }
  else if isWindow pa then s
  else s.writeHome pa xs key false 0

/-- What an append finds in a ring's header. -/
inductive RingTurn where
  | bad
  | full
  | slot (widx n : Nat)

/-- The header's fields judge an append (R259). -/
def ringTurn (h : Nat) (pa limit : Nat) : RingTurn :=
  let lg := h % 32
  let widx := h / 2 ^ 64 % 2 ^ 32
  let ridx := h / 2 ^ 96 % 2 ^ 32
  let n := 2 ^ lg
  if lg = 0 ∨ 16 < lg ∨ limit < pa + 64 + 32 * n then .bad
  else if n ≤ (widx + 2 ^ 32 - ridx) % 2 ^ 32 then .full
  else .slot widx n

/-- Kinds whose TIME is the counter when the record is written; in a record of the trap ring it is set already. -/
def stamps (r : BitVec 256) : Bool := decide (bits r 95 92 < 3) || decide (5 < bits r 95 92)

/-- Remove append i; the one that moves up takes its turn. -/
def State.dropRing (s : State) (i : Nat) : State :=
  let s1 : State := { s with rings := s.rings.eraseIdx i }
  if i < s1.rings.length then s1.owe (.completionRecordAppend i) else s1

/-- An append has been made or dropped: its writer may go on. -/
def State.ringDone (s : State) (i : Nat) (w : Who) : State := (s.bulkDone w).dropRing i

/-- Append i of ring request x, in turn at its header, reserves the lines of header and record, then writes both; while the ring is
full it lets the header go, to those that have come since, and waits (R259). `x` names its header where it now lies. -/
def State.appendRecord (s : State) (i : Nat) (x : RingReq) : State :=
  let again (s : State) (held : List Nat) : State :=
    ({ s with rings := s.rings.modify i fun y => { y with served := held } } : State).owe (.completionRecordAppend i)
  let cached := isCached x.pa
  let (s1, held) := s.claimAll x.who.cause x.served (if cached then [x.pa / 64] else [])
  if !s1.claimedAll held (if cached then [x.pa / 64] else []) then again s1 held
  else
    let (hb, poison) := s1.homeBytes x.pa 64 x.key
    let h := leNat hb
    match if poison then .bad else ringTurn h x.pa x.limit with
    | .bad =>
      let s2 := (s1.spoil x.pa x.key).putHomeBytes x.pa [BitVec.ofNat 8 (Nat.lor (h % 256) 32)] x.key x.part
      (s2.unclaim held).ringDone i x.who
    | .full =>
      let s2 := s1.unclaim held
      again { s2 with arrivals := s2.arrivals + 1, rings := s2.rings.modify i fun y => { y with arr := s2.arrivals + 1 } } []
    | .slot widx n =>
      let at0 := x.pa + 64 + 32 * (widx % n)
      let rl := if cached then [at0 / 64] else []
      let (s2, held2) := s1.claimAll x.who.cause held rl
      if !s2.claimedAll held2 rl then again s2 held2
      else
        let ph := 1 - widx / n % 2
        let t := if stamps x.rcd then setBits x.rcd 255 192 s.counter else x.rcd
        let s3 := s2.putHomeBytes at0 (natLE 32 (setBits t 0 0 ph).toNat) x.key x.part
        let s4 := s3.putHomeBytes (x.pa + 8) (natLE 4 ((widx + 1) % 2 ^ 32)) x.key x.part
        (s4.unclaim held2).ringDone i x.who

/-- COMPLETION_RECORD_APPEND (R218, R259, R272, R325 to R327): append i reaches the home of its header, is refused there during
recall and recopy, and is made in its turn, on the new frame once the old one is forwarded. -/
def execCompletionRecordAppend (i : Nat) (s : State) : Out :=
  match s.rings[i]? with
  | none => .next s
  | some x0 =>
    let src := x0.who.src
    let home := homeOf x0.pa
    let again (s : State) (y : RingReq) : Out :=
      .next (({ s with rings := s.rings.set i y } : State).owe (.completionRecordAppend i))
    if x0.arr == 0 && !s.arrives (s.ringFoot x0) then again s { x0 with hop := x0.hop + s.stride (s.ringFoot x0) }
    else if x0.served == [] && (s.refuses x0.pa || s.isRefused src home .request) then
      again (s.refuse src home .request) { x0 with arr := 0, hop := 0 }
    else
      let n := s.arrNum x0.arr
      let pa := s.frameOf x0.pa
      let x := { x0 with pa := pa, limit := x0.limit + pa - x0.pa, arr := n }
      let s0 : State := { s.countArr x0.arr with rings := s.rings.set i { x0 with arr := n } }
      if ((s.rings.take i).any fun y => s.frameOf y.pa == pa) || s.tentAt pa ||
          s0.ahead n (if isCached pa then [pa / 64] else []) || (x0.served == [] && s.burstWaits x0.who.cause pa) then
        .next (s0.owe (.completionRecordAppend i))
      else .next (s0.appendRecord i x)

end Sys2Proof.Machine
end

