-- ==== Sys2Proof/Machine/Keys.lean ====
section
/-! DEFINITION. Keys, sealed regions, the access log and attestation (spec/19 R397 to R402, R407 to R412). -/

namespace Sys2Proof.Machine

/-! ### The access log (R407 to R409) -/

/-- The 128 bytes of an entry (R408). -/
def LogEntry.bytes (e : LogEntry) : List Byte :=
  natLE 128 (at' e.prev.toNat 512 + at' (e.seq % 2 ^ 64) 448 + at' (e.time % 2 ^ 64) 384 + at' (e.epoch % 65536) 368 +
    at' (e.ty % 256) 360 + at' (e.die % 1024) 350 + at' (e.part % 16) 346 + at' (e.key % 8192) 333 + e.detail.toNat)

/-- A signed checkpoint at an entry (R409). -/
def checkpointOf (e : LogEntry) (nonce : BitVec 256) : Checkpoint :=
  let h := Config.sha512 e.bytes
  let body := natLE 128 (at' (e.seq % 2 ^ 64) 960 + at' (e.epoch % 65536) 944 + h.toNat) ++ natLE 32 nonce.toNat
  { seq := e.seq, epoch := e.epoch, hash := h, nonce := nonce, sig := Config.sign body }

/-- SEQ of the entry appended next. -/
def Module.nextSeq (m : Module) : Nat :=
  match m.log with
  | [] => 0
  | e :: _ => if e.epoch = m.epoch then e.seq + 1 else 0

/-- PREV of the entry appended next: the hash of the last entry, or at the start of an epoch that of the last checkpoint. -/
def Module.nextPrev (m : Module) : BitVec 512 :=
  if m.nextSeq = 0 then
    match m.checkpoints with
    | c :: _ => c.hash
    | [] => 0
  else match m.log with
    | e :: _ => Config.sha512 e.bytes
    | [] => 0

/-- Append one entry, with the checkpoints that follow it (R409). -/
def Module.append (m : Module) (e0 : LogEntry) : Module :=
  if m.fuseout then m
  else
    let e := { e0 with seq := m.nextSeq, prev := m.nextPrev, epoch := m.epoch }
    let m1 := { m with log := e :: m.log }
    let m2 := if e.seq % 64 = 63 then { m1 with checkpoints := checkpointOf e 0 :: m1.checkpoints } else m1
    if e.ty = 9 then { m2 with checkpoints := checkpointOf e e.detail :: m2.checkpoints } else m2

/-- Append every event that has reached the security processor, in order. -/
def State.flushLog (s : State) : State :=
  { s with modul := { s.modul.logWait.foldl (fun m e => m.append e) s.modul with logWait := [] } }

/-- ACCESS_LOG_APPEND (R407): the oldest event that has reached the security processor is appended. -/
def execAccessLogAppend (s : State) : Out :=
  match s.modul.logWait with
  | [] => .next s
  | e :: rest =>
    let s1 : State := { s with modul := { s.modul.append e with logWait := rest } }
    .next (if rest = [] then s1 else s1.owe .accessLogAppend)

/-- LOGREQ_WRITE (R409): the host asks for a checkpoint with the nonce in LOGNONCE0 to LOGNONCE3
(DEDUCED, unsafe: log entry 61). -/
def execLogreqWrite (v : Word) (s : State) : Out :=
  if v ≠ 1 ∨ !s.modul.ready then .next s
  else
    let nonce := packed 64 ((List.range 4).map fun i => (Assoc.get 0 s.modul.lognonce i).toNat)
    .next (s.logEvent 9 1023 0 0 (BitVec.ofNat 256 nonce))

/-- The dies of the package that holds die d (R10). -/
def packageDies (d : Nat) : List Nat := (List.range 16).map fun i => d / 16 * 16 + i

/-- DIEHASH of a physical die: bits [511:256] of SHA-512 of its identity public key (R399). -/
def dieHash (p : Nat) : Nat := (Config.sha512 (natLE 512 (Config.dieKey p).toNat)).toNat / 2 ^ 256

/-- The physical dies of the module in logical order, through the relabelling table (R312, R412). -/
def State.physicalDies (s : State) : List Nat := (packageDies 0).map fun d => s.physOf 0 d

/-- DIEKEYS: SHA-512 over the sixteen identity public keys in logical order (R410). -/
def State.dieKeys (s : State) : BitVec 512 :=
  Config.sha512 (s.physicalDies.flatMap fun p => natLE 512 (Config.dieKey p).toNat)

/-- The identity block: the device identity public key with its certificate, and the dies' certificates in logical order
(R412). -/
def State.identityBlock (s : State) : List Byte :=
  Config.certificate 1024 ++ Config.certificate 1025 ++ s.physicalDies.flatMap Config.certificate

/-- An attestation report (R410). -/
def State.attest (s : State) (nonce : BitVec 256) : BitVec 8192 :=
  let m := s.modul
  let (head, seq) := match m.log with
    | e :: _ => (Config.sha512 e.bytes, e.seq)
    | [] => (0, 0)
  let sealedSlots := ((packageDies 0).map fun d => ((s.die d).keys.filter fun p => p.2.state == 2).length).foldl (· + ·) 0
  let parts := (List.range 16).foldl (fun n p => n + at' (b2n (bit (Assoc.get 0 (s.die 0).ptroot p) 0)) p) 0
  let low := at' (Config.firmwareHash 0).toNat 3584 + at' (Config.firmwareHash 1).toNat 3072 + at' head.toNat 2560 +
    at' s.dieKeys.toNat 2048 + at' nonce.toNat 1792 + at' (seq % 2 ^ 64) 1728 + at' (m.epoch % 65536) 1712 +
    at' (m.svnmin % 65536) 1696 + at' (sealedSlots % 65536) 1680 + at' parts 32 + 0x41545331
  BitVec.ofNat 8192 (at' (Config.sign (natLE 512 low)).toNat 4096 + low)

/-- ATTESTATION_REQUEST (R410). -/
def execAttestationRequest (nonce : BitVec 256) (s : State) : Out :=
  if !s.modul.ready then .next s
  else .next { s with modul := { s.modul with reports := s.modul.reports ++ [s.attest nonce] } }

/-! ### KEYLD and KEYDROP (R399 to R401) -/

/-- The key id that a register names; none for an illegal operand. -/
def keyIdOf (v : Word) : Option Nat := if bits v 63 13 ≠ 0 ∨ bits v 12 0 = 0 then none else some (bits v 12 0)

/-- The acting bank asks its die's key unit, and waits. -/
def State.askKey (s : State) (slot : Nat) (drop : Bool) (blob : List Byte) : State :=
  let die := bankDie s.cur
  let r : KeyReq := { b := s.cur, drop := drop, slot := slot, blob := blob, revoked := false }
  ((s.modMe fun k => { k with wait := .key slot drop }).modDie die fun d => { d with keyq := d.keyq ++ [r] }).owe
    (.keyRequestServe die)

/-- `KEYLD` (R400). -/
def execKeyld (a : BitVec 5) (h : BitVec 4) (off : BitVec 12) (s : State) : Out :=
  privilegedThen s fun s =>
    match keyIdOf (s.reg a) with
    | none => trapNow s illegalOperand
    | some k => withRecord s h.toNat (off.toNat * 64) 576 64 fun s xs => .next (s.askKey k false xs)

/-- `KEYDROP` (R401). -/
def execKeydrop (a : BitVec 5) (s : State) : Out :=
  privilegedThen s fun s =>
    match keyIdOf (s.reg a) with
    | none => trapNow s illegalOperand
    | some k => .next (s.askKey k true [])

/-- Whether a decrypted record keeps R399 for die d. -/
def keyRecordOk (p : BitVec 2048) (d : Nat) : Bool :=
  let rbase := bits p 831 796
  let rsize := bits p 863 832
  let win := bits p 895 864
  let rate := bits p 959 896
  let cap := bits p 1023 960
  if bit p 596 then
    decide (1 ≤ rsize) && decide (65536 ≤ win) && decide (4096 ≤ rate) && decide (rate ≤ cap) &&
    isHbm (rbase * 65536) && paDie (rbase * 65536) == d && !bit (BitVec.ofNat 52 (rbase * 65536)) 47 &&
    decide (rbase * 65536 % 2 ^ 37 + rsize * 65536 ≤ 0x1DCD650000)
  else rbase == 0 && rsize == 0 && win == 0 && rate == 0 && cap == 0

/-- Whether a slot is free for a record on die d (R400). -/
def State.slotFree (s : State) (d k : Nat) (p : BitVec 2048) : Bool :=
  let st (n : Nat) : Nat := (s.keySlot n k).state
  if bit p 596 then
    st d == 0 && ((packageDies d).all fun n => st n != 1) &&
    !((s.die d).keys.any fun q =>
      q.2.state == 2 && decide (q.2.rbase < bits p 831 796 + bits p 863 832) &&
      decide (bits p 831 796 < q.2.rbase + q.2.rsize))
  else (packageDies d).all fun n => st n == 0

/-- Install a record (R397, R400) and log its load; a first walk of each of its pages is to be logged anew. -/
def State.installKey (s : State) (d k : Nat) (p : BitVec 2048) : State :=
  let isSealed := bit p 596
  let x : KeySlot :=
    { KeySlot.zero with
      state := if isSealed then 2 else 1, part := bits p 595 592, blob := BitVec.ofNat 64 (bits p 575 512),
      key := BitVec.ofNat 512 (bits p 511 0),
      rbase := bits p 831 796, rsize := bits p 863 832, win := bits p 895 864, rate := bits p 959 896, cap := bits p 1023 960 }
  let s1 := if isSealed then s.setKeySlot d k x else (packageDies d).foldl (fun s n => s.setKeySlot n k x) s
  let region := Revoked.key k (if isSealed then some (x.rbase, x.rbase + x.rsize) else none)
  let s2 := s1.modDie d fun die =>
    { die with sealSeen := die.sealSeen.filter fun y => !region.hits y.part y.page y.size y.leaf }
  (s2.logEvent 1 d x.part k
    (BitVec.ofNat 256 (x.blob.toNat + at' (b2n isSealed) 64 + at' x.rbase 65 + at' x.rsize 101))).flushLog

/-- What the key unit does with a load (R400): the trap's sub-code, or the record to install. -/
def State.judgeKey (s : State) (d k : Nat) (blob : List Byte) : Except Nat (BitVec 2048) :=
  let hd : BitVec 512 := BitVec.ofNat 512 (leNat (blob.take 64))
  if bits hd 31 0 ≠ 0x4B455931 ∨ bits hd 447 192 ≠ dieHash (s.physOf d d) then .error 1
  else match Config.oaepDecrypt (s.physOf d d) (blob.drop 64) with
    | none => .error 2
    | some p =>
      if bits p 575 512 ≠ bits hd 511 448 ∨ bits p 588 576 ≠ k then .error 1
      else if !keyRecordOk p d || (bit p 596 && s.modul.fuseout) then .error 4
      else if !s.slotFree d k p then .error 3
      else .ok p

/-- A request is served: its bank goes on, and the next request takes its turn. -/
def State.keyServed (s : State) (d : Nat) : State :=
  let s1 := s.modDie d fun die => { die with keyq := die.keyq.drop 1 }
  if (s1.die d).keyq = [] then s1 else s1.owe (.keyRequestServe d)

/-- The waiting word of bank b completes. -/
def State.keyDone (s : State) (b : Nat) : State := s.modBank b fun k => { k.advance 4 with wait := .none }

/-- What a drop revokes: none where the word has no effect (R401). -/
def State.dropped (s : State) (d k : Nat) : Option (Revoked × List Nat) :=
  let x := s.keySlot d k
  let all := (s.dies.map fun p => p.1)
  match x.state with
  | 2 => some (.key k (some (x.rbase, x.rbase + x.rsize)), all)
  | 1 => some (.key k none, all)
  | _ => none

/-- Zero a slot's key (R401): a plain slot becomes empty, a sealed one closed. -/
def State.zeroKey (s : State) (d k : Nat) : State :=
  let x := s.keySlot d k
  if x.state = 2 then s.setKeySlot d k { x with state := 3, key := 0 }
  else (packageDies d).foldl (fun s n => s.setKeySlot n k KeySlot.zero) s

/-- KEY_REQUEST_SERVE (R400, R401): the die's key unit serves its oldest request; a drop first revokes and drains. -/
def execKeyRequestServe (die : Nat) (s : State) : Out :=
  if !validDie die then .fault .noSuchAgent
  else match (s.die die).keyq with
    | [] => .next s
    | r :: rest =>
      let s1 := s.keyServed die
      if !r.drop then
        match s.judgeKey die r.slot r.blob with
        | .error c => .next ((s1.modBank r.b fun k => { k with wait := .none }).takeTrap r.b (Trap.mk0 14 c))
        | .ok p => .next ((s1.installKey die r.slot p).keyDone r.b)
      else match s.dropped die r.slot with
        | none => .next (s1.keyDone r.b)
        | some (rv, ds) =>
          if !r.revoked then
            let s2 := ds.foldl (fun s d => s.revoke d rv) s
            .next ((s2.modDie die fun d => { d with keyq := { r with revoked := true } :: rest }).owe (.keyRequestServe die))
          else if !ds.all fun d => s.revokeDrained d rv then .next (s.owe (.keyRequestServe die))
          else
            let x := s.keySlot die r.slot
            .next (((s1.zeroKey die r.slot).logEvent 2 die x.part r.slot (x.blob.zeroExtend 256)).flushLog.keyDone r.b)

end Sys2Proof.Machine
end

