-- ==== Sys2Proof/Machine/Copy.lean ====
section
/-! DEFINITION. The copy sequencer (spec/12 R243 to R260). -/

namespace Sys2Proof.Machine

/-! ### Rows that a bulk engine reads and writes through a translation (R200, R214, R252) -/

/-- A walk of an engine of bank b for a virtual address, or its cause, with the state that its reads leave (R407, R445): of the
windows of class 0xF an engine reaches the host window only (R468, R477) (DEDUCED, unsafe: log entry 23). -/
def State.engWalk (s : State) (b part : Nat) (va : Int) (intent : BitVec 3) : Except (Nat × State) (Xlat × State) :=
  if va < 0 then .error (5, s)
  else
    let s1 := s.walked (bankDie b) part va.toNat
    match s.walk (bankDie b) part va.toNat intent with
    | .error c => .error (c, s1)
    | .ok x =>
      let pa := leafPa x.leaf x.size va.toNat
      if isWindow pa && !isHostWin pa then .error (4, s1) else .ok (x, s1.noteSeal b x)

/-- The units of such a walk (R476). -/
def State.engLegs (s : State) (b part : Nat) (va : Int) : List Leg :=
  if va < 0 then [] else s.walkLegs (bankDie b) part va.toNat

/-- The aligned rows, or parts of rows, that n bytes at a virtual address lie in: address and length
(DEDUCED, unsafe: log entry 22). -/
def rowParts (va : Int) (n : Nat) : List (Int × Nat) :=
  let room := 256 - (va % 256).toNat
  if n ≤ room then [(va, n)] else [(va, room), (va + room, n - room)]

/-- Whether an engine's access of n bytes at a physical address is one whole row of global SRAM: its low address bits select
no bytes (R199). -/
def wholeRow (pa n : Nat) : Bool := isGsram pa && n == 256

/-- What a row carries on its way. -/
structure Carried where
  data : List Byte
  poison : Bool
  tag : BitVec 24
  die : Nat                   -- where it comes from (`memDie`)
  tent : Nat                  -- 1 + the packet on which it is tentative; 0: final (R323)
  chk : BitVec 32 := 0        -- as in an SRAM row (R444)
  deriving DecidableEq, Repr

/-- n bytes of one row as an engine reads them at their home, with poison and region tag (R214, R403). -/
def State.engBytes (s : State) (pa n key : Nat) : Carried :=
  if isGsram pa then
    let c := s.cell (gsramKey pa)
    { data := (natLE 256 c.data.toNat).drop (pa % 256) |>.take n, poison := c.poison, tag := c.rtag, die := memDie pa,
      tent := c.tent, chk := if n = 256 then c.chk else 0 }
  else if isHostWin pa then
    { data := (List.range n).map fun i => s.hostByte (s.hostAddr pa + i), poison := false, tag := 0, die := memDie pa, tent := 0 }
  else
    let r := s.readHome pa n key
    let m := s.rowMeta (pa / 256)
    { data := r.1, poison := r.2, tag := s.readTag pa, die := memDie pa, tent := m.tent, chk := if n = 256 then m.chk else 0 }

def Carried.row (c : Carried) : Row := BitVec.ofNat 2048 (leNat c.data)

/-- Join the parts of one row. -/
def joinParts (ps : List Carried) : Carried :=
  { data := (ps.map Carried.data).flatten, poison := ps.any Carried.poison,
    tag := ((ps.map Carried.tag).find? fun t => bit t 23).getD 0, die := ((ps.map Carried.die).head?).getD 0,
    tent := ((ps.map Carried.tent).find? fun t => t != 0).getD 0,
    chk := match ps with
      | [p] => p.chk
      | _ => 0 }

/-- A row that has left a port: as it was, or as poisoned zeros where a cap held it back (R406). -/
def Carried.left (c : Carried) (capped : Bool) : Carried :=
  if capped then { c with data := natLE c.data.length 0, poison := true, tag := 0, chk := 0 } else { c with tag := 0 }

/-- An engine reads parts of rows: physical address, length, key id; those that a port holds back come as poisoned zeros (R210,
R214, R406, R445). -/
def State.engRead (s : State) (ps : List (Nat × Nat × Nat)) (held : List Nat := []) : Carried × State :=
  (joinParts (ps.map fun q =>
    let c := s.engBytes q.1 q.2.1 q.2.2
    if held.contains (q.1 / 256) then c.left true else c), ps.foldl (fun s q => s.spoil q.1 q.2.2) s)

/-- The rows that engine e of bank b reads leave other modules in turn once its units have started (R404, R476)
(DEDUCED, unsafe: log entry 36). -/
def State.engPull (s : State) (b e part : Nat) (u : List Nat × List Leg) : Pulled :=
  match s.engShut b e u.1 with
  | some s1 => .wait s1
  | none => s.agentPull (agentEng b e) (b + 1) part (bankDie b) (u.2, u.1)

/-- The units of such a read (R476). -/
def State.partLegs (s : State) (b : Nat) (ps : List (Nat × Nat × Nat)) : List Leg :=
  ps.flatMap fun q => s.readLegs (bankDie b) q.1

/-- A new packet of the fabric that brings a row for `w`: 1 + its number, by which the row is tentative (R322). -/
def State.newPacket (s : State) (w : Who) (sram : Bool) (pa : Nat) (xs : List Byte) (into : Option (Nat × Nat × Nat) := none) :
    Nat × State :=
  let id := (s.packets.map fun p => p.1).foldl max 0 + 1
  let p : Packet := { who := w, movers := [], sram := sram, pa := pa, data := xs, failed := false, was := false,
                      into := into }
  (id + 1, { s with packets := Assoc.set none s.packets id (some p) })

/-- A row on its way into a place of the fabric: whether it is tentative there, and on which packet (R322, R323). A row that
was tentative where it was read stays so; a row that crosses the fabric comes by a packet of its own. -/
def State.carry (s : State) (w : Who) (c : Carried) (dst : Nat) (sram : Bool) (pa : Nat) (xs : List Byte)
    (into : Option (Nat × Nat × Nat) := none) : Nat × State :=
  match if c.tent = 0 then none else Assoc.get none s.packets (c.tent - 1) with
  | some p =>
    let ms := if p.movers.contains w then p.movers else p.movers ++ [w]
    (c.tent, { s with packets := Assoc.set none s.packets (c.tent - 1) (some { p with movers := ms }) })
  | none =>
    if c.die = dst then (0, s) else s.newPacket w sram pa xs into

/-- The tag that a row keeps where it lands: it loses it as it leaves the package (R404). -/
def State.landTag (s : State) (die pa : Nat) (tag : BitVec 24) : BitVec 24 :=
  if (s.portOf die pa).isSome then 0 else tag

/-- An engine of bank b writes bytes of one row: device memory at its home as a bulk write for `w`, other memory at once.
The second result counts the bulk writes asked for. -/
def State.engWrite (s : State) (b part pa key : Nat) (xs : List Byte) (c : Carried) (w : Who) : State × Nat :=
  let t := s.landTag (bankDie b) pa c.tag
  if isGsram pa then
    let off := pa % 256
    let key' := gsramKey pa
    let row : Row := BitVec.ofNat 2048 (leNat xs * 2 ^ (8 * off))
    let s1 :=
      if xs.length = 256 then s.moveCell key' part row c.poison t c.chk 0
      else s.maskCell key' part row (fun j => decide (off ≤ j) && decide (j < off + xs.length)) c.poison
    let x := s1.cell key'
    let (tent, s2) := s1.carry w c (memDie pa) true key' (natLE 256 x.data.toNat)
    (s2.setCell key' { x with rtag := t, tent := tent }, 0)
  else if isHostWin pa then ({ s with hostMem := putBytes s.hostMem (s.hostAddr pa) xs }, 0)
  else
    let (tent, s1) := s.carry w c (memDie pa) false pa xs
    (s1.askTent pa xs key c.poison t w tent (if xs.length = 256 then c.chk else 0), 1)

/-! ### CPY (R243 to R245, R251) -/

def ctlMC (c : Word) : Bool := bit c 32
def ctlIX (c : Word) : Bool := bit c 31
def ctlREC (c : Word) : Bool := bit c 33
def ctlRH (c : Word) : Nat := bits c 53 50
def ctlROFF (c : Word) : Nat := bits c 49 34
def ctlMask (c : Word) : Nat := bits c 28 16

/-- The plot of a bank's task. -/
def State.plotOf (s : State) (b : Nat) : BitVec 104 := ((s.die (bankDie b)).bind (s.bank b).bindRec).plot

/-- The checks of R251 at the sequencer; with REC = 0 a nonzero RH or ROFF is a reserved bit set
(DESIGN CHOICE, unsafe: log entry 8). -/
def State.cpyOk (s : State) (x : SXWord) (d a c i : Word) : Bool :=
  let mask := ctlMask c
  let plot := s.plotOf s.cur
  epOk d && epOk a && (!ctlIX c || epOk i) && bits c 63 54 == 0 && bits c 30 29 == 0 &&
  !(ctlMC c && ctlIX c) && (ctlMC c == (mask != 0)) && (ctlREC c || bits c 53 34 == 0) &&
  (ctlMC c || ctlIX c || x.c == 0) &&
  (List.range 13).all fun k => !Nat.testBit mask k || (List.range 8).all fun j => bit plot (8 * k + j)

/-- Use each handle of a command once, then go on with what it captures (R251, R388). -/
def withHandles (s : State) : List Nat → (List HCap → Out) → Out
  | [], f => f []
  | h :: hs, f =>
    match s.useHandle s.cur h 0 0 with
    | .trap t => trapNow s t
    | .wait s' => stall s'
    | .ok x => withHandles s hs fun caps => f ({ h := h, base := x.base, intent := x.intent } :: caps)

/-- The handles that the registers of a `CPY` name. -/
def cpyHandles (d a c i : Word) : List Nat :=
  let one (u : Bool) (e : Word) : List Nat := if u && epHU e then [epH e] else []
  (one true d ++ one true a ++ one (ctlIX c) i ++ if ctlREC c then [ctlRH c] else []).eraseDups

/-- `CPY` (R243, R251). -/
def execCpy (x : SXWord) (s : State) : Out :=
  let d := s.reg x.d
  let a := s.reg x.a
  let c := s.reg x.b
  let i := s.reg x.c
  noSlot s fun s =>
    if !(pushOk engCP x.ext && popsOk engCP x.ext) || !s.cpyOk x d a c i then trapNow s illegalOperand
    else withHandles s (cpyHandles d a c i) fun caps => queueFor s engCP 8 (.engine .cpy d a c i caps) x.ext

/-! ### Faults (R251, R256, R418) -/

/-- A trap of the copy sequencer at point n. -/
def cpTrap (r : CopyRun) (cls sub walk : Nat) (eaddr : Word) : Trap :=
  let pair (l : Nat) : Word :=
    BitVec.ofNat 64 (pointIx r.recD r.n l % 2 ^ 24 + at' (pointIx r.recD r.n (l + 1) % 2 ^ 24) 32)
  { Trap.mk0 cls sub with
    walk := walk, eng := engCP, asyn := true, eaddr := eaddr, einfo := BitVec.ofNat 64 (r.pc.toNat % 2 ^ 56),
    prog0 := BitVec.ofNat 64 r.n, prog1 := pair 0, prog2 := pair 2, prog3 := pair 4 }

/-- What stops a copy: a command fault's cause with the walk's, or poison; the failing virtual address, if any. -/
structure CopyFault where
  cls : Nat
  sub : Nat
  walk : Nat
  va : Option Int
  deriving DecidableEq, Repr

def cmdFault (sub : Nat) : CopyFault := { cls := 13, sub := sub, walk := 0, va := none }
def walkFault (cause : Nat) (va : Int) : CopyFault := { cls := 13, sub := 3, walk := cause, va := some va }

/-- The copy of bank b takes a command fault: its pins go, and it waits for the firmware's answer (R251, R252). -/
def State.faultCopy (s : State) (b : Nat) (r : CopyRun) (f : CopyFault) : State :=
  let (addr, s1) : Word × State := match f.va with
    | some v => (BitVec.ofInt 64 v, s)
    | none => (Config.faultAddr s.free, s.tickFree)
  (s1.modBank b fun k => { k with copy := some { r with trapped := true, started := false, pins := [] } }).raise b
    (cpTrap r f.cls f.sub f.walk addr)

/-! ### The checks at CP issue (R250, R251) -/

def CopyRun.ix (r : CopyRun) : Bool := ctlIX r.b
def CopyRun.mc (r : CopyRun) : Bool := ctlMC r.b

/-- SIDE of the index record: the destination is composed. -/
def CopyRun.scatter (r : CopyRun) : Bool := r.ix && bit r.recI 405
def CopyRun.gather (r : CopyRun) : Bool := r.ix && !bit r.recI 405

/-- An endpoint's use of its handle field fits its space (R244, R251). -/
def sideOk (e : Word) (sp : Nat) : Bool :=
  (epHU e == (sp == 0)) && (epHU e || sp == 3 || epH e == 0) && (sp != 3 || (epRow e == 0 && decide (epH e < 4)))

/-- Whole units of the instruction buffer (R250). -/
def unitsOk (r : CopyRun) : Bool :=
  let n := recDepth r.recD
  decide (1 ≤ n) && recBound r.recD (n - 1) == 3 && recCoef r.recD (n - 1) == 1 &&
  (pointCount r.recD == 0 ||
    (epRow r.d % 3 == 0 && (List.range (n - 1)).all fun l => recCoef r.recD l % 3 == 0 || decide (recBound r.recD l ≤ 1)))

/-- The combination of records and endpoints (R251). -/
def CopyRun.combOk (r : CopyRun) : Bool :=
  let sd := recSpace r.recD
  let ss := recSpace r.recS
  let sx := recSpace r.recI
  sideOk r.d sd && sideOk r.a ss && (!r.ix || (sideOk r.c sx && decide (sx < 3) && bits r.recI 404 403 != 3)) &&
  decide (ss < 3) && (sd != 4 || (ss == 0 && unitsOk r)) && (!r.mc || sd == 2) &&
  (sd != 3 || (decide (pointCount r.recD ≤ 16) && (List.range 6).all fun l => recCoef r.recD l == 0)) &&
  !(r.scatter && (sd == 3 || sd == 4))

/-- Rows of a space that row numbers name. -/
def spaceSize (sp : Nat) : Nat := if sp = 1 then 6144 else if sp = 2 then 32768 else 192

/-- Bytes of an index element (R247). -/
def ixBytes (r : BitVec 512) : Nat := if bits r 404 403 = 2 then 2 else 4

/-- An affine side's rows lie in its space (R251). -/
def rowsOk (rec nest : BitVec 512) (e : Word) : Bool :=
  let sp := recSpace rec
  let p := rowSpan rec nest (epRow e)
  sp == 0 || sp == 3 || (decide (0 ≤ p.1) && decide (p.2 < spaceSize sp))

/-- The index side's rows lie in its space. -/
def ixRowsOk (r : CopyRun) : Bool :=
  let p := rowSpan r.recI r.recD 0
  let w := ixBytes r.recI
  let lo := 256 * epRow r.c + p.1 * w
  let hi := 256 * epRow r.c + p.2 * w + w - 1
  recSpace r.recI == 0 || (decide (0 ≤ lo) && decide (hi / 256 < (spaceSize (recSpace r.recI) : Int)))

/-- Every affine row of a copy with points is in range. -/
def CopyRun.rangeOk (r : CopyRun) : Bool :=
  pointCount r.recD == 0 ||
  ((r.scatter || rowsOk r.recD r.recD r.d) && (r.gather || rowsOk r.recS r.recD r.a) && (!r.ix || ixRowsOk r))

/-! ### Translation and pins (R252, R388) -/

/-- BASE and INTENT as captured for a handle. -/
def capOf (caps : List HCap) (h : Nat) : HCap := (caps.find? fun c => c.h == h).getD { h := h, base := 0, intent := 0 }

/-- A captured handle's base address. -/
def capBase (caps : List HCap) (h : Nat) : Int := ((capOf caps h).base.toNat : Int)

/-- The rights that each side needs. -/
def CopyRun.srcIntent (r : CopyRun) : BitVec 3 := if recSpace r.recD = 4 then 5 else 1

/-- A pin that covers a virtual address with those rights. -/
def pinFor (pins : List Pin) (va : Int) (intent : BitVec 3) : Option Pin :=
  pins.find? fun p => decide ((p.page : Int) ≤ va) && decide (va < p.page + pageBytes p.size) &&
    rightsOk intent (leafRights p.leaf)

/-- What pinning comes to: the pins, a fault, or, while a walk waits for its units, the pins so far; with the state after the
walks. -/
inductive Pinning where
  | ok (pins : List Pin) (s : State)
  | fault (f : CopyFault) (s : State)
  | wait (pins : List Pin) (s : State)

/-- Engine e of bank b pins the page of a virtual address; what its rows name within the page is not checked
(DESIGN CHOICE, unsafe: log entry 76). -/
def State.pinPage (s : State) (b e part : Nat) (pins : List Pin) (va : Int) (intent : BitVec 3) : Pinning :=
  match pinFor pins va intent with
  | some _ => .ok pins s
  | none =>
    match s.engServe b e part [] (s.engLegs b part va) with
    | (false, s0) => .wait pins s0
    | (true, s0) =>
      match s0.engWalk b part va intent with
      | .error (c, s1) => .fault (walkFault c va) s1
      | .ok (x, s1) =>
        let p : Pin := { page := x.page, size := x.size, leaf := x.leaf }
        if p ∈ pins then .ok pins s1
        else if 1024 ≤ pins.length then .fault { cmdFault 4 with va := some va } s1
        else .ok (pins ++ [p]) s1

/-- Whether n bytes at a pinned address are one whole row of global SRAM, which lies in one page (R199). -/
def onePage (pins : List Pin) (va : Int) (intent : BitVec 3) (n : Nat) : Bool :=
  match pinFor pins va intent with
  | some p => wholeRow (leafFrame p.leaf * 65536) n
  | none => false

/-- Where pinned bytes lie: physical address, length, key id; a whole row of global SRAM is the aligned row that holds its
address (R199). -/
def pinnedParts (pins : List Pin) (intent : BitVec 3) (va : Int) (n : Nat) : List (Nat × Nat × Nat) :=
  let part (p : Int × Nat) : Option (Nat × Nat × Nat) :=
    (pinFor pins p.1 intent).map fun q => (leafPa q.leaf q.size p.1.toNat, p.2, leafKey q.leaf)
  match part (va, n) with
  | some (pa, _, key) => if wholeRow pa n then [(pa - pa % 256, n, key)] else (rowParts va n).filterMap part
  | none => (rowParts va n).filterMap part

/-- Pin the pages of a list of ranges with their rights, in order. -/
def State.pinAll (s : State) (b e part : Nat) (pins : List Pin) : List (Int × Nat × BitVec 3) → Pinning
  | [] => .ok pins s
  | (va, n, intent) :: rest =>
    match s.pinPage b e part pins va intent with
    | .ok p1 s1 =>
      match if onePage p1 va intent n then .ok p1 s1 else s1.pinPage b e part p1 (va + n - 1) intent with
      | .ok p2 s2 => s2.pinAll b e part p2 rest
      | r => r
    | r => r

/-- The virtual address of a side's row at loop indices lx (R249). -/
def sideVa (caps : List HCap) (e : Word) (rec : BitVec 512) (lx : Nat → Nat) : Int :=
  capBase caps (epH e) + 256 * rowSum rec (epRow e) lx

/-- The virtual address of the index element of a point (R255). -/
def ixVa (r : CopyRun) (lx : Nat → Nat) : Int :=
  capBase r.caps (epH r.c) + 256 * epRow r.c + rowSum r.recI 0 lx * ixBytes r.recI

/-- The virtual address of the ring header (R245). -/
def ringVa (r : CopyRun) : Int := capBase r.caps (ctlRH r.b) + 64 * ctlROFF r.b

/-- A side that is pinned: in device memory and not composed. -/
def CopyRun.pinD (r : CopyRun) : Bool := recSpace r.recD == 0 && !r.scatter
def CopyRun.pinS (r : CopyRun) : Bool := recSpace r.recS == 0 && !r.gather
def CopyRun.pinI (r : CopyRun) : Bool := r.ix && recSpace r.recI == 0

/-- The ranges that the points from n on have in device memory on pinned sides, then the ring header. -/
def CopyRun.ranges (r : CopyRun) : List (Int × Nat × BitVec 3) :=
  ((List.range (pointCount r.recD - r.n)).flatMap fun j =>
    let lx := pointIx r.recD (r.n + j)
    (if r.pinD then [(sideVa r.caps r.d r.recD lx, 256, 2)] else []) ++
    (if r.pinS then [(sideVa r.caps r.a r.recS lx, 256, r.srcIntent)] else []) ++
    (if r.pinI then [(ixVa r lx, ixBytes r.recI, 1)] else [])) ++
  (if ctlREC r.b then [(ringVa r, 64, 2)] else [])

/-- The captured intents bound what the pinned sides and the ring need (R252, R388). -/
def CopyRun.intentFault (r : CopyRun) : Option CopyFault :=
  let lx := pointIx r.recD r.n
  let bad (h : Nat) (need : BitVec 3) : Bool := !rightsOk need (capOf r.caps h).intent
  let some' := decide (r.n < pointCount r.recD)
  if some' && r.pinD && bad (epH r.d) 2 then some (walkFault 2 (sideVa r.caps r.d r.recD lx))
  else if some' && r.pinS && bad (epH r.a) r.srcIntent then some (walkFault 2 (sideVa r.caps r.a r.recS lx))
  else if some' && r.pinI && bad (epH r.c) 1 then some (walkFault 2 (ixVa r lx))
  else if ctlREC r.b && bad (ctlRH r.b) 2 then some (walkFault 2 (ringVa r))
  else none

/-- The clusters that a multicast names. -/
def CopyRun.clusters (b : Nat) (r : CopyRun) : List Nat :=
  ((List.range 13).filter fun k => Nat.testBit (ctlMask r.b) k).map fun k => bankDie b * 16 + k

/-- The window that a multicast opens (R258). -/
def CopyRun.window (b : Nat) (r : CopyRun) : Landing :=
  let p := rowSpan r.recD r.recD (epRow r.d)
  { b := b, lo := p.1.toNat, hi := p.2.toNat }

/-- Open the landing windows of a multicast in its clusters. -/
def State.openWindows (s : State) (b : Nat) (r : CopyRun) : State :=
  if r.mc && decide (0 < pointCount r.recD) then
    (r.clusters b).foldl (fun s c => s.modCluster c fun x => { x with windows := r.window b :: x.windows }) s
  else s

/-- A window of the multicast would overlap an open one (DEDUCED, safe: log entry 57). -/
def State.windowClash (s : State) (b : Nat) (r : CopyRun) : Bool :=
  r.mc && decide (0 < pointCount r.recD) && (r.clusters b).any fun c => (s.cluster c).windows.any fun w =>
    decide (w.lo ≤ (r.window b).hi) && decide ((r.window b).lo ≤ w.hi)

/-- A multicast waits until each named cluster has a free window (R258). -/
def State.windowsFull (s : State) (b : Nat) (r : CopyRun) : Bool :=
  r.mc && decide (0 < pointCount r.recD) && (r.clusters b).any fun c => decide (4 ≤ (s.cluster c).windows.length)

/-- Owe a started copy its next row. -/
def State.oweCopy (s : State) (b : Nat) (r : CopyRun) : State :=
  if r.mc then s.owe (.multicastRowLand b) else s.owe (.copyRetire b)

/-- The checks and pins of an issued copy; again after a fault or a save (R251, R252, R256); a walk that waits goes on from the
pins so far. -/
def State.prepareCopy (s : State) (b : Nat) (r : CopyRun) : State :=
  let part := (s.bank b).part
  if !r.combOk then s.faultCopy b r (cmdFault 1)
  else if !r.rangeOk then s.faultCopy b r (cmdFault 2)
  else if s.windowsFull b r then s.owe (.copyStart b)
  else if s.windowClash b r then s.faultCopy b r (cmdFault 6)
  else match r.intentFault with
    | some f => s.faultCopy b r f
    | none =>
      match s.pinAll b engCP part r.pins r.ranges with
      | .fault f s1 => s1.faultCopy b r f
      | .wait pins s1 => (s1.modBank b fun k => { k with copy := some { r with pins := pins } }).owe (.copyStart b)
      | .ok pins s1 =>
        let ring := if ctlREC r.b then
            (pinFor pins (ringVa r) 2).map fun p =>
              (leafPa p.leaf p.size (ringVa r).toNat, leafFrame p.leaf * 65536 + pageBytes p.size, leafKey p.leaf)
          else none
        let r1 := { r with pins := pins, ring := ring, started := true }
        ((s1.openWindows b r1).modBank b fun k => { k with copy := some r1 }).oweCopy b r1

/-! ### COPY_START (R48, R246, R251, R358) -/

/-- Apply the engine-setting words at the head of the copy sequencer's queue (R39, R246). -/
def Bank.layoutsIn (k : Bank) : List Cmd → Bank
  | [] => k.setCmdq engCP []
  | c :: cs =>
    match c.op with
    | .layout n rec => Bank.layoutsIn { k with layouts := Assoc.set 0 k.layouts n rec } cs
    | _ => k.setCmdq engCP (c :: cs)

/-- A `CPY` of bank b as it issues, with the slots it reads. -/
def newCopy (k : Bank) (c : Cmd) (d a ctl i : Word) (caps : List HCap) : CopyRun :=
  let slot (e : Word) : BitVec 512 := Assoc.get 0 k.layouts (epSlot e)
  { d := d, a := a, b := ctl, c := i, caps := caps, pc := c.pc, ext := c.ext, recD := slot d, recS := slot a,
    recI := if ctlIX ctl then slot i else 0, n := 0, count := 0, skip := 0, poisoned := false, base := 0, pins := [],
    ring := none, wait := 0, recAsked := false, started := false, trapped := false }

/-- The next copy of bank k, if its command could issue (R48). -/
def Bank.nextCopy (k : Bank) : Option (Cmd × CopyRun) :=
  if k.served && k.copy.isNone && k.faults.all (fun t => t.eng != engCP) then
    match k.cmdq engCP with
    | c :: _ =>
      match c.op with
      | .engine .cpy d a ctl i caps => if k.canIssue engCP c.ext then some (c, newCopy k c d a ctl i caps) else none
      | _ => none
    | [] => none
  else none

/-- Whether the copy of bank k keeps the copy sequencer: it has rows to start, or it is done and its token finds a full
FIFO (R11). -/
def Bank.copying (k : Bank) : Bool :=
  match k.copy with
  | some r => !r.trapped && (k.served || r.mc) &&
    (decide (r.n < pointCount r.recD) || (r.wait == 0 && (!ctlREC r.b || r.recAsked) && !k.canPush engCP r.ext))
  | none => false

/-- Whether an issue waits for queue slots or for landing windows (R229, R250, R258). -/
def State.copyHeld (s : State) (b : Nat) (r : CopyRun) : Bool :=
  r.combOk &&
  ((recSpace r.recD == 3 && !(s.bank b).canReserve (epH r.d) (pointCount r.recD)) || s.windowsFull b r)

/-- COPY_START (R251): layouts at the head of the queue take effect, then the next `CPY` issues when it can
(DESIGN CHOICE, unsafe: log entry 8) (DEDUCED, safe: log entry 57). -/
def execCopyStart (b : Nat) (s : State) : Out :=
  if !validBank b then .fault .noSuchAgent
  else
    let k := s.bank b
    match k.copy with
    | some r =>
      if (k.served || r.mc) && !r.started && !r.trapped then .next (s.prepareCopy b r) else .next s
    | none =>
      if !k.served || (k.cmdq engCP).isEmpty then .next s
      else
        let k1 := k.layoutsIn (k.cmdq engCP)
        let s1 := s.setBank b k1
        match k1.nextCopy with
        | none => .next (if (k1.cmdq engCP).isEmpty then s1 else s1.owe (.copyStart b))
        | some (c, r) =>
          let o := s.bank (otherBank b)
          let yields := o.copying || (o.nextCopy.isSome && s.turnOf b engCP == b % 2)
          if yields || s1.copyHeld b r then .next (s1.owe (.copyStart b))
          else
            let k2 := (k1.takePops engCP c.ext).setCmdq engCP ((k1.cmdq engCP).drop 1)
            let q := epH r.d
            let n := pointCount r.recD
            let (k3, r1) :=
              if recSpace r.recD = 3 && r.combOk then (k2.reserve q n, { r with base := (k2.queue q).rsv }) else (k2, r)
            let s2 := (s1.setBank b { k3 with copy := some r1 }).takeTurn b engCP
            .next (s2.prepareCopy b r1)

/-! ### Points (R249, R253, R255, R256) -/

/-- Translate a row of a composed side by walks, part by part (DEDUCED, unsafe: log entry 22); a whole row of global SRAM is the
aligned row that holds its address (R199). -/
def State.composedParts (s : State) (b part : Nat) (intent : BitVec 3) (va : Int) :
    Except (CopyFault × State) (List (Nat × Nat × Nat) × State) :=
  match s.engWalk b part va intent with
  | .error (c, s1) => .error (walkFault c va, s1)
  | .ok (x, s1) =>
    let pa := leafPa x.leaf x.size va.toNat
    if wholeRow pa 256 then .ok ([(pa - pa % 256, 256, leafKey x.leaf)], s1)
    else match rowParts va 256 with
      | (_, n) :: (vb, m) :: _ =>
        match s1.engWalk b part vb intent with
        | .error (c, s2) => .error (walkFault c vb, s2)
        | .ok (y, s2) =>
          .ok ([(pa, n, leafKey x.leaf), (leafPa y.leaf y.size vb.toNat, m, leafKey y.leaf)], s2)
      | _ => .ok ([(pa, 256, leafKey x.leaf)], s1)

/-- The units of those walks. -/
def State.composedLegs (s : State) (b part : Nat) (intent : BitVec 3) (va : Int) : List Leg :=
  s.engLegs b part va ++
  match s.composedParts b part intent va, rowParts va 256 with
  | .ok ([_], _), _ => []
  | _, _ :: (vb, _) :: _ => s.engLegs b part vb
  | _, _ => []

/-- Where a side's row lies at a point. -/
inductive Place where
  | mem (va : Int) (parts : List (Nat × Nat × Nat))      -- virtual address; physical address, length, key id
  | cell (key : Nat)
  | slot
  | buffer (row : Nat)
  deriving DecidableEq, Repr

/-- A side's place at loop indices lx; `composed`: its rows are checked here (R256). -/
def State.sidePlace (s : State) (b part : Nat) (r : CopyRun) (e : Word) (rec : BitVec 512) (composed : Bool)
    (intent : BitVec 3) (lx : Nat → Nat) : Except (CopyFault × State) (Place × State) :=
  let row := rowSum rec (epRow e) lx
  match recSpace rec with
  | 0 =>
    let va := sideVa r.caps e rec lx
    if !composed then .ok (.mem va (pinnedParts r.pins intent va 256), s)
    else if !rightsOk intent (capOf r.caps (epH e)).intent then .error (walkFault 2 va, s)
    else match s.composedParts b part intent va with
      | .error x => .error x
      | .ok (ps, s1) => .ok (.mem va ps, s1)
  | 3 => .ok (.slot, s)
  | sp =>
    if row < 0 ∨ spaceSize sp ≤ row then .error (cmdFault 2, s)
    else if sp = 4 then .ok (.buffer row.toNat, s)
    else .ok (.cell (rowKey b (sp == 2) row.toNat), s)

/-- The virtual address of a row in device memory. -/
def Place.va (p : Place) : Option Int :=
  match p with
  | .mem va _ => some va
  | _ => none

/-- The parts of a row in device memory. -/
def Place.parts (p : Place) : List (Nat × Nat × Nat) :=
  match p with
  | .mem _ ps => ps
  | _ => []

/-- The die of an SRAM row. -/
def cellDie (key : Nat) : Nat := if key % 2 = 0 then key / 2 / 8192 / 128 else key / 2 / 32768 / 16

/-- A zero row that comes from nowhere. -/
def zeroRow : Carried := { data := natLE 256 0, poison := false, tag := 0, die := 0, tent := 0 }

/-- Read the row at a place. -/
def State.readPlace (s : State) (part : Nat) (p : Place) : Carried × State :=
  match p with
  | .mem _ ps => s.engRead ps
  | .cell key =>
    let c := s.readCell key part
    ({ data := natLE 256 c.data.toNat, poison := c.poison, tag := c.rtag, die := cellDie key, tent := c.tent, chk := c.chk }, s)
  | _ => (zeroRow, s)

/-! ### The index of a point (R255, R447) -/

/-- Where the index of a point lies in memory. -/
def ixParts (r : CopyRun) (lx : Nat → Nat) : List (Nat × Nat × Nat) :=
  if recSpace r.recI = 0 then pinnedParts r.pins 1 (ixVa r lx) (ixBytes r.recI) else []

/-- Read the index of a point. -/
def State.readIndex (s : State) (b part : Nat) (r : CopyRun) (lx : Nat → Nat) : Carried × State :=
  let w := ixBytes r.recI
  if recSpace r.recI = 0 then s.engRead (ixParts r lx)
  else
    let byte := (256 * epRow r.c + rowSum r.recI 0 lx * w).toNat
    let c := (s.readPlace part (.cell (rowKey b (recSpace r.recI == 2) (byte / 256)))).1
    ({ c with data := (c.data.drop (byte % 256)).take w }, s)

/-- What the index of a point gives (R255). -/
inductive Index where
  | value (v : Nat)
  | out
  | fault (f : CopyFault)

/-- Judge the index of a point as it was read (R255, R447). -/
def indexOf (r : CopyRun) (lx : Nat → Nat) (c : Carried) : Index :=
  let v := leNat c.data
  if c.poison then .fault { cmdFault 0 with cls := 8, va := if recSpace r.recI = 0 then some (ixVa r lx) else none }
  else if bits r.recI 511 480 ≤ v ∨ (bits r.recI 404 403 = 1 ∧ 2 ^ 31 ≤ v) then .out
  else .value v

/-- Replace one loop index. -/
def replaceIx (lx : Nat → Nat) (lev v : Nat) : Nat → Nat := fun l => if l = lev then v else lx l

/-- The bytes of rows 3u to 3u + 2 of an instruction buffer. -/
def unitBytes (k : Bank) (u : Nat) : List Byte :=
  (List.range 16).flatMap fun i => natLE 48 (Assoc.get 0 k.ibuf (16 * u + i)).toNat

/-- Write rows of one unit of the instruction buffer together, each with its poison (R65, R250, R253). -/
def Bank.putUnit (k : Bank) (u : Nat) (rows : List (Option Carried)) : Bank :=
  let old := unitBytes k u
  let bytes := (List.range 3).flatMap fun i =>
    match rows.getD i none with
    | some c => c.data
    | none => (old.drop (256 * i)).take 256
  let bad (i : Nat) : Bool := match rows.getD i none with
    | some c => c.poison
    | none => k.ibad.contains (3 * u + i)
  { k with
    ibad := (k.ibad.filter fun n => n / 3 != u) ++ ((List.range 3).filter bad).map (fun i => 3 * u + i),
    ibuf := (List.range 16).foldl (fun m i =>
      Assoc.set 0 m (16 * u + i) (BitVec.ofNat 384 (leNat ((bytes.drop (48 * i)).take 48)))) k.ibuf }

/-- The loop indices of a point's source and of its destination, its index as given (R255). -/
def CopyRun.sides (r : CopyRun) (lx : Nat → Nat) (v : Nat) : (Nat → Nat) × (Nat → Nat) :=
  let lx' := replaceIx lx (bits r.recI 402 400) v
  if r.scatter then (lx, lx') else if r.gather then (lx', lx) else (lx, lx)

/-- The units of a side of a point: the walks of a composed side, then the read of its row, or the way of a row to a home that
writes it at once (R476). -/
def State.sideLegs (s : State) (b part : Nat) (r : CopyRun) (e : Word) (rec : BitVec 512) (composed write : Bool)
    (intent : BitVec 3) (lx : Nat → Nat) : List Leg :=
  (if composed && recSpace rec == 0 then s.composedLegs b part intent (sideVa r.caps e rec lx) else []) ++
  match s.sidePlace b part r e rec composed intent lx with
  | .ok (p, _) =>
    if write then (p.parts.filter fun q => !isCached q.1).flatMap fun q => s.wayTo .request (bankDie b) (memDie q.1)
    else s.partLegs b p.parts
  | .error _ => []

/-- The homes that point n reads, as addresses, and its units (R476). -/
def State.pointLegs (s : State) (b part : Nat) (r : CopyRun) (n : Nat) : List Nat × List Leg :=
  let lx := pointIx r.recD n
  let go (lxS lxD : Nat → Nat) : List Nat × List Leg :=
    ((match s.sidePlace b part r r.a r.recS r.gather r.srcIntent lxS with
      | .ok (p, _) => p.parts.map fun q => q.1
      | .error _ => []),
     s.sideLegs b part r r.a r.recS r.gather false r.srcIntent lxS ++ s.sideLegs b part r r.d r.recD r.scatter true 2 lxD)
  if r.ix then
    let ps := ixParts r lx
    let x := match indexOf r lx (s.readIndex b part r lx).1 with
      | .value v => go (r.sides lx v).1 (r.sides lx v).2
      | _ => ([], [])
    (ps.map (fun q => q.1) ++ x.1, s.partLegs b ps ++ x.2)
  else go lx lx

/-- Rows that an engine pulls from other modules for one point or unit: the state, the answers of the ports so far, and how many
of those have been used again (R405). -/
structure Toll where
  s : State
  paid : List Bool
  i : Nat

/-- What a row meets at the port of another module from which bank b's engine pulls it: it comes, without its tag, or as
poisoned zeros; or it waits (R404, R406) (DEDUCED, unsafe: log entry 36). -/
def Toll.pull (t : Toll) (b : Nat) (c : Carried) : Except Toll (Carried × Toll) :=
  match t.s.pullPort c.die (bankDie b) with
  | none => .ok (c, t)
  | some p =>
    if t.i < t.paid.length then .ok (c.left (t.paid.getD t.i false), { t with i := t.i + 1 })
    else match t.s.egress (some p) c.tag with
      | .ok s1 => .ok (c.left false, { s := s1, paid := t.paid ++ [false], i := t.i + 1 })
      | .wait s1 => .error { t with s := s1 }
      | .capped => .ok (c.left true, { t with paid := t.paid ++ [true], i := t.i + 1 })

/-- What a point does before its row moves: it moves a row to a place (`out`: its index was out of range), writes nothing,
faults, or waits for a port. -/
inductive Point where
  | row (c : Carried) (p : Place) (out : Bool) (t : Toll)
  | skip (t : Toll)
  | fault (f : CopyFault) (s : State)
  | wait (t : Toll)

/-- A point whose sides stand at these loop indices. -/
def Toll.move (t : Toll) (b part : Nat) (r : CopyRun) (lxS lxD : Nat → Nat) : Point :=
  match t.s.sidePlace b part r r.a r.recS r.gather r.srcIntent lxS with
  | .error (f, s1) => .fault f s1
  | .ok (src, s1) =>
    match s1.sidePlace b part r r.d r.recD r.scatter 2 lxD with
    | .error (f, s2) => .fault f s2
    | .ok (p, s2) =>
      let (c, s3) := s2.readPlace part src
      match Toll.pull { t with s := s3 } b c with
      | .error t1 => .wait t1
      | .ok (c1, t1) => .row c1 p false t1

/-- Point n of a copy (R255): a zero row where IXOOB says so. -/
def Toll.point (t : Toll) (b part : Nat) (r : CopyRun) (n : Nat) : Point :=
  let lx := pointIx r.recD n
  if r.ix then
    let (c, s1) := t.s.readIndex b part r lx
    match Toll.pull { t with s := s1 } b c with
    | .error t1 => .wait t1
    | .ok (c1, t1) =>
      match indexOf r lx c1 with
      | .fault f => .fault f t1.s
      | .value v => t1.move b part r (r.sides lx v).1 (r.sides lx v).2
      | .out =>
        match bits r.recI 407 406 with
        | 0 => .fault (cmdFault 5) t1.s
        | 2 =>
          if r.scatter then .skip t1
          else match t1.s.sidePlace b part r r.d r.recD r.scatter 2 lx with
            | .error (f, s2) => .fault f s2
            | .ok (p, s2) => .row { zeroRow with die := bankDie b } p true { t1 with s := s2 }
        | _ => .skip t1
  else t.move b part r lx lx

/-- The meter's word on a row that leaves by a port (R405, R406). -/
def State.copyEgress (s : State) (b : Nat) (c : Carried) (p : Place) : Egress :=
  match p with
  | .mem _ ((pa, _, _) :: _) => s.egress (s.portOf (bankDie b) pa) c.tag
  | _ => .ok s

/-- Put bank b's copy as it now is. -/
def State.setCopy (s : State) (b : Nat) (r : CopyRun) : State := s.modBank b fun k => { k with copy := some r }

/-- A row lands in an SRAM row for partition `part`, tentative where its packet is (R322, R444). -/
def State.landCell (s : State) (w : Who) (part key : Nat) (c : Carried) : State :=
  let (tent, s1) := s.carry w c (cellDie key) true key c.data
  s1.moveCell key part c.row c.poison c.tag c.chk tent

/-- Write a row at its place: the state, and the bulk writes asked for. -/
def State.writePlace (s : State) (b part : Nat) (r : CopyRun) (c : Carried) (p : Place) : State × Nat :=
  match p with
  | .mem _ ps =>
    (ps.foldl (fun (acc : State × Nat × List Byte) q =>
      let e := acc.1.engWrite b part q.1 q.2.2 (acc.2.2.take q.2.1) c (.copy b)
      (e.1, acc.2.1 + e.2, acc.2.2.drop q.2.1)) (s, 0, c.data)) |> fun x => (x.1, x.2.1)
  | .cell key => (s.landCell (.copy b) part key c, 0)
  | .slot =>
    let q := epH r.d
    let (tent, s1) := s.carry (.copy b) c (bankDie b) true 0 c.data (some (b, q, r.base + r.n))
    (s1.modBank b fun k => k.fillSlot q (r.base + r.n) c.row c.poison c.chk tent, 0)
  | .buffer _ => (s, 0)

/-- One point moves once its units have started (R253 to R256). A gather point that writes nothing fills its slot of SPACE 3 with
a zero row, which COUNT does not count (DESIGN CHOICE, unsafe: log entry 8). -/
def State.copyPoint (s : State) (b : Nat) (r : CopyRun) : State :=
  let part := (s.bank b).part
  let again (s : State) (paid : List Bool) : State := (s.setCopy b { r with paid := paid }).owe (.copyRetire b)
  let stop (s : State) (f : CopyFault) : State :=
    if 0 < r.wait then again s [] else s.faultCopy b { r with paid := [] } f
  let u := s.pointLegs b part r r.n
  match s.engServe b engCP part u.1 u.2 with
  | (false, s0) => again s0 r.paid
  | (true, s0) =>
    match Toll.point { s := s0, paid := r.paid, i := 0 } b part r r.n with
    | .fault f s1 => stop s1 f
    | .wait t => again t.s t.paid
    | .skip t =>
      let s1 := if recSpace r.recD = 3 then t.s.modBank b fun k => k.fillSlot (epH r.d) (r.base + r.n) 0 false else t.s
      (s1.setCopy b { r with n := r.n + 1, skip := r.skip + 1, paid := [] }).owe (.copyRetire b)
    | .row c p out t =>
      match t.s.copyEgress b c p with
      | .wait s2 => again s2 t.paid
      | .capped => stop t.s { cmdFault 7 with va := p.va }
      | .ok s2 =>
        let (s3, asked) := s2.writePlace b part r c p
        (s3.setCopy b { r with n := r.n + 1, count := r.count + 1, skip := r.skip + b2n out, paid := [],
                               poisoned := r.poisoned || c.poison, wait := r.wait + asked }).owe (.copyRetire b)

/-- The rows of a unit of the instruction buffer as they come: those so far, with how many indices were out of range. -/
inductive Unit3 where
  | rows (cs : List (Option Carried)) (out : Nat) (t : Toll)
  | fault (f : CopyFault) (s : State)
  | wait (t : Toll)

/-- Points n on, k of them. -/
def Toll.points (t : Toll) (b part : Nat) (r : CopyRun) (cs : List (Option Carried)) (out : Nat) : Nat → Nat → Unit3
  | 0, _ => .rows cs out t
  | k + 1, n =>
    match t.point b part r n with
    | .fault f s => .fault f s
    | .wait t1 => .wait t1
    | .skip t1 => t1.points b part r (cs ++ [none]) (out + 1) k (n + 1)
    | .row c _ o t1 => t1.points b part r (cs ++ [some c]) (out + b2n o) k (n + 1)

/-- Rows of a unit that are tentative, or become so on their way, mark their places in the buffer (R322, R323). -/
def State.markUnit (s : State) (b u : Nat) (cs : List (Option Carried)) : State :=
  ((List.range cs.length).zip cs).foldl (fun s p =>
    match p.2 with
    | none => s
    | some c =>
      let row := 3 * u + p.1
      let (tent, s1) := s.carry (.copy b) c (bankDie b) true 0 c.data (some (b, 8, row))
      s1.modBank b fun k =>
        { k with itent := (k.itent.filter fun x => x.1 != row) ++ if tent = 0 then [] else [(row, tent)] }) s

/-- The three rows of one unit of the instruction buffer move together; a fault in any stops the copy at its first
(DESIGN CHOICE, unsafe: log entry 8). -/
def State.copyUnit (s : State) (b : Nat) (r : CopyRun) : State :=
  let part := (s.bank b).part
  let us := (List.range 3).map fun j => s.pointLegs b part r (r.n + j)
  match s.engServe b engCP part (us.flatMap fun u => u.1) (us.flatMap fun u => u.2) with
  | (false, s0) => s0.owe (.copyRetire b)
  | (true, s0) =>
    match Toll.points { s := s0, paid := r.paid, i := 0 } b part r [] 0 3 r.n with
    | .fault f s1 => s1.faultCopy b { r with paid := [] } f
    | .wait t => (t.s.setCopy b { r with paid := t.paid }).owe (.copyRetire b)
    | .rows cs out t =>
      let u := (rowSum r.recD (epRow r.d) (pointIx r.recD r.n)).toNat / 3
      let poison := cs.any fun c => (c.map fun x => x.poison).getD false
      (((t.s.markUnit b u cs).modBank b fun k => k.putUnit u cs).setCopy b
        { r with n := r.n + 3, count := r.count + (cs.filterMap id).length, skip := r.skip + out,
                 poisoned := r.poisoned || poison, paid := [] }).owe (.copyRetire b)

/-! ### Retirement (R254, R260) -/

/-- The copy's completion record. -/
def copyRecord (b : Nat) (r : CopyRun) : BitVec 256 :=
  ringRecord r.count r.skip (bits r.b 15 0) (b2n r.poisoned) 0 (bankDie b) (coreNum b) (b % 2)

/-- Whether the copy sequencer works for bank b: a multicast runs on while its bank stops or saves (R419, R430). -/
def Bank.copyServed (k : Bank) (r : CopyRun) : Bool := k.served || r.mc

/-- Every row has moved: the record, then the token, and the command retires (R254). -/
def State.finishCopy (s : State) (b : Nat) (r : CopyRun) : State :=
  let again := s.owe (.copyRetire b)
  if 0 < r.wait || s.tentFor (.copy b) then again
  else if ctlREC r.b && !r.recAsked then
    match r.ring with
    | some (pa, limit, key) =>
      (s.setCopy b { r with recAsked := true, wait := 1 }).askRing pa limit key (s.bank b).part (copyRecord b r) (.copy b)
    | none => s
  else if !(s.bank b).canPush engCP r.ext then again
  else
    (((s.modBank b fun k => { k.retireTok engCP r.ext with copy := none }).owe (.copyStart b)).owe
      (.copyStart (otherBank b)))

/-- COPY_RETIRE (R253, R254): the copy's next row moves; after the last its record is written and it retires. -/
def execCopyRetire (b : Nat) (s : State) : Out :=
  if !validBank b then .fault .noSuchAgent
  else
    let k := s.bank b
    match k.copy with
    | none => .next s
    | some r =>
      if r.trapped || !k.copyServed r then .next s
      else if !r.started then .next (s.prepareCopy b r)
      else if r.n < pointCount r.recD then
        if r.mc then .next (s.owe (.multicastRowLand b))
        else if recSpace r.recD = 4 then .next (s.copyUnit b r)
        else .next (s.copyPoint b r)
      else .next (s.finishCopy b r)

/-! ### Multicast (R257, R258) -/

/-- Close the windows of bank b's multicast. -/
def State.closeWindows (s : State) (b : Nat) (r : CopyRun) : State :=
  (r.clusters b).foldl (fun s c => s.modCluster c fun x => { x with windows := x.windows.filter fun w => w.b != b }) s

/-- MULTICAST_ROW_LAND (R257): point n lands in every named cluster at START + 8 n or later. -/
def execMulticastRowLand (b : Nat) (s : State) : Out :=
  if !validBank b then .fault .noSuchAgent
  else
    let k := s.bank b
    match k.copy with
    | none => .next s
    | some r =>
      if r.trapped || !r.mc || !r.started then .next s
      else if pointCount r.recD ≤ r.n then .next (s.owe (.copyRetire b))
      else if s.copyOf (bankDie b) < r.c.toNat + 8 * r.n then .next (s.owe (.multicastRowLand b))
      else
        let again (s : State) (paid : List Bool) : Out := .next ((s.setCopy b { r with paid := paid }).owe (.multicastRowLand b))
        let u := s.pointLegs b k.part r r.n
        match s.engServe b engCP k.part u.1 u.2 with
        | (false, s0) => again s0 r.paid
        | (true, s0) =>
          match Toll.point { s := s0, paid := r.paid, i := 0 } b k.part r r.n with
          | .fault f s1 => .next (s1.faultCopy b r f)
          | .wait t | .skip t => again t.s t.paid
          | .row c _ _ t =>
            let row := (rowSum r.recD (epRow r.d) (pointIx r.recD r.n)).toNat
            let s2 := (r.clusters b).foldl (fun s cl => s.landCell (.copy b) k.part (csramKey cl row) c) t.s
            let r1 := { r with n := r.n + 1, count := r.count + 1, poisoned := r.poisoned || c.poison, paid := [] }
            let s3 := s2.setCopy b r1
            .next (if r1.n < pointCount r1.recD then s3.owe (.multicastRowLand b)
                   else (s3.closeWindows b r1).owe (.copyRetire b))

end Sys2Proof.Machine
end

