-- ==== Sys2Proof/Machine/Transform.lean ====
section
/-! DEFINITION. The transform engines (spec/12 R261 to R267). -/

namespace Sys2Proof.Machine

/-! ### Operand registers (R261) -/

def xfCount (e : Word) : Nat := bits e 63 48
def xfCluster (e : Word) : Bool := bit e 16
def xfRow (e : Word) : Nat := bits e 15 0
def xfOp (c : Word) : Nat := bits c 15 12
def xfDty (c : Word) : Nat := bits c 11 8
def xfSty (c : Word) : Nat := bits c 7 4
def xfEng (c : Word) : Nat := bits c 1 0

/-- a / b, rounded up. -/
def ceilDiv (a b : Nat) : Nat := (a + b - 1) / b

/-- Element rows of a quantised block of n elements (R262). -/
def quantElems (ty n : Nat) : Nat := if ty = 6 then ceilDiv n 512 else ceilDiv n 256

/-- Rows of a quantised block of n elements: element rows, then scale rows (R262). -/
def quantRows (ty n : Nat) : Nat :=
  if ty = 6 then ceilDiv n 512 + ceilDiv n 8192 else ceilDiv n 256 + ceilDiv (ceilDiv n 256) 256

/-- The types that a quantised block may have. -/
def quantType (t : Nat) : Bool := t == 4 || t == 5 || t == 6

/-- The table of R262: whether operation, types and row counts agree. -/
def xformRowsOk (op sty dty sn dn : Nat) : Bool :=
  match op with
  | 0 => sty == 0 && dty == 0 && decide (sn ≤ dn)
  | 1 => Num.isF sty && quantType dty && decide (quantRows dty (sn * 2048 / Num.widthOf sty) ≤ dn)
  | 2 => quantType sty && Num.isF dty && sn == quantRows sty (dn * 2048 / Num.widthOf dty)
  | 3 => sty == 0 && dty == 0 && decide (sn + ceilDiv sn 32 ≤ dn)
  | 4 => sty == 0 && dty == 0
  | 5 =>
    let w := Num.widthOf sty
    (w == 8 || w == 16 || w == 32) && dty == 0 && sn % (2048 / w) == 0 && decide (sn ≤ dn)
  | _ => false

/-- The checks of R261 but for the row range. -/
def xformOk (d a c : Word) : Bool :=
  bits d 47 17 == 0 && bits a 47 17 == 0 && bits c 63 16 == 0 && bits c 3 2 == 0 && decide (1 ≤ xfCount d) &&
  decide (1 ≤ xfCount a) && xfCluster d != xfCluster a && xformRowsOk (xfOp c) (xfSty c) (xfDty c) (xfCount a) (xfCount d)

/-- Rows ROW to ROW + COUNT - 1 lie in their space. -/
def xfRangeOk (e : Word) : Bool := decide (xfRow e + xfCount e ≤ spaceRows (xfCluster e))

/-- Entries of one partition's lane: the queue's 32 entries divided among 16 lanes (R266) (DEDUCED, unsafe: log entry 43). -/
def laneCap : Nat := 2

/-- The commands of a partition that wait at an engine. -/
def Cluster.lane (c : Cluster) (eng part : Nat) : List Xform :=
  (c.lanes.filter fun p => p.1 == eng && p.2.part == part).map fun p => p.2

/-- `XFORM` (R46, R48, R261, R266) (DEDUCED, unsafe: log entry 43). -/
def execXform (x : SXWord) (s : State) : Out :=
  let d := s.reg x.d
  let a := s.reg x.a
  let c := s.reg x.b
  noSlot s fun s =>
    if !(x.ext.push == 7 && x.ext.popa == 7 && x.ext.popb == 7 && x.ext.popc == 7) || !xformOk d a c then
      trapNow s illegalOperand
    else if !(xfRangeOk d && xfRangeOk a) then trapNow s (Trap.mk0 10 0)
    else
      let cl := bankCluster s.cur
      let part := s.me.part
      let t : Xform := { b := s.cur, part := part, d := d, a := a, c := c, ext := x.ext, served := 0, since := 0 }
      if laneCap ≤ ((s.cluster cl).lane (xfEng c) part).length || s.me.fencing then stall s
      else finish8 ((s.modCluster cl fun k => { k with lanes := k.lanes ++ [(xfEng c, t)] }).owe
        (.transformStart cl (xfEng c) part))

/-! ### The time that a transform takes (R26, R266, R357) -/

/-- Cycles that it takes. -/
def Xform.needs (x : Xform) : Nat := 24 + 2 * (xfCount x.a + xfCount x.d)

/-- A bank whose queued transforms may start: a stopped bank's wait, a saving bank's run (R419, R430). -/
def Bank.lanesServed (k : Bank) : Bool := k.served || k.draining

/-- TRANSFORM_START (R266): the head of a partition's lane starts when its barrier condition holds. -/
def execTransformStart (cl eng part : Nat) (s : State) : Out :=
  if !validCluster cl || 3 < eng || 15 < part then .fault .noSuchAgent
  else
    let c := s.cluster cl
    let again := s.owe (.transformStart cl eng part)
    match c.lane eng part with
    | [] => .next s
    | x :: _ =>
      let k := s.bank x.b
      if (Assoc.get none c.running (eng * 16 + part)).isSome || !k.lanesServed || s.tentNear x.b ||
          (x.ext.wt && !k.cbMet x.ext.wcb.toNat) then .next again
      else
        let y := { x with since := s.copyOf (cl / 16) }
        .next ((s.modCluster cl fun c =>
          { c with lanes := c.lanes.erase (eng, x),
                   running := Assoc.set none c.running (eng * 16 + part) (some y) }).owe (.transformRetire cl eng))

/-! ### What a transform writes (R262 to R265) -/

/-- A destination row and the source rows that it is derived from. -/
structure XRow where
  data : Row
  from' : List Nat

/-- The source rows of elements lo to hi where a row holds n. -/
def rowsOf (n lo hi : Nat) : List Nat := (List.range (hi / n + 1 - lo / n)).map fun i => lo / n + i

/-- Element k of a block of rows whose elements have width w. -/
def blockElem (src : Nat → Row) (w k : Nat) : Nat := Num.elem w (src (k / (2048 / w))) (k % (2048 / w))

/-- The exact value of source element k of type t, +0 at n and beyond. -/
def srcVal (src : Nat → Row) (t n k : Nat) : Num.FV :=
  if k < n then Num.valOf t (blockElem src (Num.widthOf t) k) else .fin false 0 0

/-- Quantise an element row of 256 elements into E4M3 or E5M2 (R189, R264): scale and codes. -/
def quantRow (src : Nat → Row) (sty dty n r : Nat) : Nat × List Nat :=
  Num.quantBlock (if dty = 4 then Num.e4m3 else Num.e5m2) (if dty = 4 then 8 else 15) .rne
    ((List.range 256).map fun j => srcVal src sty n (256 * r + j))

/-- Quantise block j of 32 elements (R121, R264). -/
def quantMx (src : Nat → Row) (sty n j : Nat) : Nat × List Nat :=
  Num.mxq .rne ((List.range 32).map fun i => srcVal src sty n (32 * j + i))

/-- Rows of the quantise operation (R262, R264). -/
def quantiseRow (src : Nat → Row) (sty dty n r : Nat) : XRow :=
  let per := 2048 / Num.widthOf sty
  let e := quantElems dty n
  if dty = 6 then
    if r < e then
      let blocks := (List.range 16).filter fun j => 32 * (16 * r + j) < n
      let codes := (blocks.map fun j => (quantMx src sty n (16 * r + j)).2).flatten
      { data := Num.mkRow 4 512 fun k => codes.getD k 0, from' := rowsOf per (512 * r) (min (512 * r + 511) (n - 1)) }
    else
      let t := r - e
      { data := Num.mkRow 8 256 fun j =>
          if 32 * (256 * t + j) < n then (quantMx src sty n (256 * t + j)).1 else 0,
        from' := rowsOf per (8192 * t) (min (8192 * t + 8191) (n - 1)) }
  else if r < e then
    let codes := (quantRow src sty dty n r).2
    { data := Num.mkRow 8 256 fun k => codes.getD k 0, from' := rowsOf per (256 * r) (min (256 * r + 255) (n - 1)) }
  else
    let t := r - e
    { data := Num.mkRow 8 256 fun j => if 256 * t + j < e then (quantRow src sty dty n (256 * t + j)).1 else 0,
      from' := rowsOf per (65536 * t) (min (65536 * t + 65535) (n - 1)) }

/-- Rows of the dequantise operation (R262, R264): n elements in all. -/
def dequantRow (src : Nat → Row) (sty dty n r : Nat) : XRow :=
  let wd := Num.widthOf dty
  let per := 2048 / wd
  let e := quantElems sty n
  let f := (Num.fmtOf sty).getD Num.e4m3
  let out := (Num.fmtOf dty).getD Num.f32
  let ws := Num.widthOf sty
  let block := if sty = 6 then 32 else 256
  let lo := r * per
  let hi := lo + per - 1
  { data := Num.mkRow wd per fun i =>
      let k := lo + i
      let sc := Num.elem 8 (src (e + k / block / 256)) (k / block % 256)
      Num.round out .rne false (Num.scaled f sc (blockElem src ws k)),
    from' := rowsOf (2048 / ws) lo hi ++ (rowsOf 256 (lo / block) (hi / block)).map fun x => e + x }

/-- The words of source rows p to p + n - 1 in row then lane order (R263). -/
def wordsOf (src : Nat → Row) (p n : Nat) : List Nat :=
  (List.range (64 * n)).map fun i => Num.lane (src (p + i / 64)) (i % 64)

/-- One row of packed words. -/
def packRow (ws : List Nat) (j : Nat) : Row := Num.mkRow 32 64 fun i => ws.getD (64 * j + i) 0

/-- A frame of the compress operation: its map row, then its nonzero words (R263). -/
def compressFrame (src : Nat → Row) (sn f : Nat) : List XRow :=
  let ws := wordsOf src (32 * f) 32
  let nz := ws.filter fun w => w != 0
  let from' := (List.range 32).filterMap fun i => if 32 * f + i < sn then some (32 * f + i) else none
  { data := Num.mkRow 1 2048 fun i => b2n (ws.getD i 0 != 0), from' := from' } ::
    (List.range (ceilDiv nz.length 64)).map fun j => { data := packRow nz j, from' := from' }

/-- Frames of the expand operation from source row p, with the map rows read before it (R263). -/
def expandFrames (src : Nat → Row) (maps : List Nat) : Nat → Nat → List XRow
  | 0, _ => []
  | n + 1, p =>
    let m := src p
    let before (i : Nat) : Nat := ((List.range i).filter fun k => bit m k).length
    let ms := p :: maps
    (List.range 32).map (fun j =>
      let lo := before (64 * j)
      let hi := before (64 * j + 64)
      { data := Num.mkRow 32 64 fun i =>
          if bit m (64 * j + i) then
            let w := before (64 * j + i)
            Num.lane (src (p + 1 + w / 64)) (w % 64)
          else 0,
        from' := if lo < hi then ms ++ (rowsOf 64 lo (hi - 1)).map fun x => p + 1 + x else ms : XRow }) ++
      expandFrames src ms n (p + 1 + ceilDiv (before 2048) 64)

/-- A row of the transpose operation (R265). -/
def transposeRow (src : Nat → Row) (w r : Nat) : XRow :=
  let n := 2048 / w
  let b := r / n
  { data := Num.mkRow w n fun c => Num.elem w (src (b * n + c)) (r % n),
    from' := (List.range n).map fun c => b * n + c }

/-- The rows of a transform's output; source rows at or past SN read as zero (R262). -/
def xformOut (op sty dty sn dn : Nat) (src0 : Nat → Row) : List XRow :=
  let src (i : Nat) : Row := if i < sn then src0 i else 0
  match op with
  | 0 => (List.range sn).map fun i => { data := src i, from' := [i] }
  | 1 =>
    let n := sn * 2048 / Num.widthOf sty
    (List.range (quantRows dty n)).map fun r => quantiseRow src sty dty n r
  | 2 => (List.range dn).map fun r => dequantRow src sty dty (dn * 2048 / Num.widthOf dty) r
  | 3 => (List.range (ceilDiv sn 32)).flatMap fun f => compressFrame src sn f
  | 4 => (expandFrames src [] (ceilDiv dn 32) 0).take dn
  | _ => (List.range sn).map fun r => transposeRow src (Num.widthOf sty) r

/-! ### TRANSFORM_RETIRE (R266, R267) -/

/-- A source row of a transform. -/
def State.xfCell (s : State) (x : Xform) (i : Nat) : RowCell := s.readCell (rowKey x.b (xfCluster x.a) (xfRow x.a + i)) x.part

/-- Write the destination rows: poison and region tags follow the source rows that a row is derived from (R262, R403). -/
def State.xfWrite (s0 : State) (x : Xform) (out : List XRow) : State :=
  let zero : XRow := { data := 0, from' := [] }
  (List.range (xfCount x.d)).foldl (fun s i =>
    let r := out.getD i zero
    let cells := (r.from'.filter fun j => decide (j < xfCount x.a)).map fun j => s0.xfCell x j
    s.writeCell (rowKey x.b (xfCluster x.d) (xfRow x.d + i)) x.part r.data (cells.any fun c => c.poison)
      (((cells.map fun c => c.rtag).find? fun t => bit t 23).getD 0)) s0

/-- TRANSFORM_RETIRE (R266, R267): an engine's transform that has had its cycles writes its rows and adds to its barrier. -/
def execTransformRetire (cl eng : Nat) (s : State) : Out :=
  if !validCluster cl || 3 < eng then .fault .noSuchAgent
  else
    let runs := (List.range 16).filterMap fun p => Assoc.get none (s.cluster cl).running (eng * 16 + p)
    match runs.find? fun x => decide (x.needs ≤ x.had (s.xfMask cl x) (s.copyOf (cl / 16))) with
    | none => .next (if runs.isEmpty then s else s.owe (.transformRetire cl eng))
    | some x =>
      let out := xformOut (xfOp x.c) (xfSty x.c) (xfDty x.c) (xfCount x.a) (xfCount x.d) fun i => (s.xfCell x i).data
      let s1 := (s.xfWrite x out).modCluster cl fun c => { c with running := Assoc.set none c.running (eng * 16 + x.part) none }
      let s2 := if x.ext.sig then s1.arrive x.b fun k => k.cbInc x.ext.scb.toNat 1 else s1
      .next ((s2.owe (.transformStart cl eng x.part)).owe (.transformRetire cl eng))

end Sys2Proof.Machine
end

