-- ==== Sys2Proof/Machine/SheafStore.lean ====
section
/-! DEFINITION. The sheaf store at a sequence's home (spec/14 R279 to R304, spec/09 R189 to R192): the contents of a sheaf
in its format, tables, reference counts, ageing, the lifecycle of a sheaf, waking. A sheaf has no address here
(notes/assumptions/30). -/

namespace Sys2Proof.Machine

/-! ### Contents of a sheaf (R283, R284, R189, R190) -/

/-- Elements of the payload: keys, then values. -/
def Sheaf.n (x : Sheaf) : Nat := 2 * x.t * x.e

/-- Payload rows of n elements in format f. -/
def payloadRows (f n : Nat) : Nat :=
  if f = 0 then ceilDiv n 128 else if f = 1 then ceilDiv n 256 else ceilDiv n 512 + ceilDiv n 8192

/-- Bits of an element and elements of a row. -/
def fmtBits (f : Nat) : Nat := if f = 0 then 16 else if f = 1 then 8 else 4

def fmtPer (f : Nat) : Nat := 2048 / fmtBits f

def Sheaf.row (x : Sheaf) (r : Nat) : Row := Assoc.get 0 x.rows r

/-- The encoding of payload element q. -/
def Sheaf.code (x : Sheaf) (q : Nat) : Nat := Num.elem (fmtBits x.fmt) (x.row (q / fmtPer x.fmt)) (q % fmtPer x.fmt)

/-- The exact value of payload element q (R189 to R192). -/
def Sheaf.val (x : Sheaf) (q : Nat) : Num.FV :=
  if x.fmt = 0 then Num.value Num.bf16 (x.code q)
  else if x.fmt = 1 then Num.scaled Num.e4m3 (bits x.scales (8 * (q / 256 % 128) + 7) (8 * (q / 256 % 128))) (x.code q)
  else Num.scaled Num.e2m1 (Num.elem 8 (x.row (ceilDiv x.n 512 + q / 8192)) (q / 32 % 256)) (x.code q)

/-- The rows that element q is read from. -/
def Sheaf.elemRows (x : Sheaf) (q : Nat) : List Nat :=
  if x.fmt = 0 then [1 + q / 128]
  else if x.fmt = 1 then [0, 1 + q / 256]
  else [1 + q / 512, 1 + ceilDiv x.n 512 + q / 8192]

def Sheaf.elemBad (x : Sheaf) (q : Nat) : Bool := (x.elemRows q).any fun r => x.bad.contains r

def Sheaf.tag (x : Sheaf) (r : Nat) : BitVec 24 := Assoc.get 0 x.tags r

/-- The first valid tag of a list, 0 if none. -/
def firstTag (ts : List (BitVec 24)) : BitVec 24 := (ts.find? fun t => bit t 23).getD 0

def Sheaf.elemTag (x : Sheaf) (q : Nat) : BitVec 24 := firstTag ((x.elemRows q).map x.tag)

/-- The elements from which a row of format f is derived: first and one past the last. -/
def derivedFrom (f n r : Nat) : Nat × Nat :=
  if r = 0 then (0, if f = 1 then n else 0)
  else
    let p := r - 1
    let e := ceilDiv n (fmtPer f)
    if f ≠ 2 ∨ p < e then (fmtPer f * p, min n (fmtPer f * p + fmtPer f))
    else (8192 * (p - e), min n (8192 * (p - e) + 8192))

/-- Poison and region tags of the rows of format f, from those of the elements. -/
def Sheaf.marks (x : Sheaf) (f : Nat) (bad : Nat → Bool) (tag : Nat → BitVec 24) : Sheaf :=
  let rs := List.range (1 + payloadRows f x.n)
  let span (r : Nat) : List Nat :=
    let p := derivedFrom f x.n r
    (List.range (p.2 - p.1)).map fun i => p.1 + i
  { x with bad := rs.filter fun r => (span r).any bad,
           tags := rs.foldl (fun m r => Assoc.set 0 m r (firstTag ((span r).map tag))) [] }

/-- Rows as an array. -/
def rowArray (rs : List Row) : Assoc Row :=
  ((List.range rs.length).zip rs).foldl (fun m p => Assoc.set 0 m p.1 p.2) []

/-- The sheaf with BF16 elements of the given encodings. -/
def Sheaf.putBf16 (x : Sheaf) (code : Nat → Nat) (bad : Nat → Bool) (tag : Nat → BitVec 24) : Sheaf :=
  { x.marks 0 bad tag with
    fmt := 0, scales := 0,
    rows := rowArray ((List.range (payloadRows 0 x.n)).map fun r =>
      Num.mkRow 16 128 fun k => if 128 * r + k < x.n then code (128 * r + k) else 0) }

/-- Element q, +0 past the payload. -/
def Sheaf.valOr0 (x : Sheaf) (q : Nat) : Num.FV := if q < x.n then x.val q else .fin false 0 0

/-- The sheaf requantised in a narrower format (R189, R190). -/
def Sheaf.requant (x : Sheaf) (f : Nat) : Sheaf :=
  let y := x.marks f x.elemBad x.elemTag
  if f = 1 then
    let qs := (List.range (payloadRows 1 x.n)).map fun r =>
      Num.quantBlock Num.e4m3 8 .rne ((List.range 256).map fun k => x.valOr0 (256 * r + k))
    { y with fmt := 1, scales := BitVec.ofNat 1024 (Num.packNat 8 (fun i => (qs.getD i (0, [])).1) (min 128 qs.length)),
             rows := rowArray (qs.map fun p => Num.mkRow 8 256 fun k => p.2.getD k 0) }
  else
    let bs := (List.range (ceilDiv x.n 32)).map fun j =>
      Num.mxq .rne ((List.range 32).map fun k => x.valOr0 (32 * j + k))
    let els := (List.range (ceilDiv x.n 512)).map fun r =>
      Num.mkRow 4 512 fun k => ((bs.getD (16 * r + k / 32) (0, [])).2).getD (k % 32) 0
    let scs := (List.range (ceilDiv x.n 8192)).map fun r => Num.mkRow 8 256 fun k => (bs.getD (256 * r + k) (0, [])).1
    { y with fmt := 2, scales := 0, rows := rowArray (els ++ scs) }

/-- The BF16 encoding of element q (R288): exact from a narrower format. -/
def Sheaf.bf16Code (x : Sheaf) (q : Nat) : Nat :=
  if x.fmt = 0 then x.code q else Num.round Num.bf16 .rne false (x.val q)

/-- The position of payload element q. -/
def Sheaf.pos (x : Sheaf) (q : Nat) : Nat := x.index * x.t + q % (x.t * x.e) / x.e

/-- Full (R284). -/
def Sheaf.full (x : Sheaf) : Bool := decide (0 < x.t) && x.nvalid == x.t

/-- PCHK (R283): over the check values of the payload rows, each as four bytes, lowest first
(DEDUCED, safe: log entry 65). -/
def Sheaf.pchk (x : Sheaf) : Nat :=
  crc32c ((List.range (payloadRows x.fmt x.n)).flatMap fun r => natLE 4 (crc32c (natLE 256 (x.row r).toNat)))

/-- The header row (R283). -/
def Sheaf.header (x : Sheaf) : Row :=
  BitVec.ofNat 2048 (x.fmt % 4 + at' (x.owner % 2 ^ 24) 16 + at' (x.layer % 256) 40 + at' (x.index * x.t % 2 ^ 24) 48 +
    at' (x.nvalid % 2 ^ 24) 72 + at' x.pchk 96 + at' x.scales.toNat 1024)

/-- CRC-32C of bytes 0 to 127 of the header (R285). -/
def Sheaf.headCrc (x : Sheaf) : Nat := crc32c (natLE 128 x.header.toNat)

/-- The entry of a sheaf as it is written, with its CHK (R285). -/
def Sheaf.stamp (x : Sheaf) : Sheaf := { x with chk := x.headCrc }

/-- A sheaf as a walker resolves its entry: poisoned whole when CHK does not hold (R285). -/
def Sheaf.resolved (x : Sheaf) : Sheaf :=
  if x.chk = x.headCrc then x else { x with bad := List.range (1 + payloadRows x.fmt x.n) }

/-- Payload row r as a reader of a snapshot of length `len` sees it: positions at and beyond it read as zero (R309). -/
def Sheaf.rowUpTo (x : Sheaf) (len r : Nat) : Row :=
  let per := fmtPer x.fmt
  if r < ceilDiv x.n per then
    Num.mkRow (fmtBits x.fmt) per fun k =>
      if per * r + k < x.n ∧ x.pos (per * r + k) < len then x.code (per * r + k) else 0
  else x.row r

/-! ### Names and tables (R279, R285, R286) -/

def State.sheaf (s : State) (id : Nat) : Option Sheaf := Assoc.get none s.sheaves id

def State.setSheaf (s : State) (id : Nat) (x : Option Sheaf) : State := { s with sheaves := Assoc.set none s.sheaves id x }

/-- The walkers' cached copies of some entries go before their change takes effect (R287). -/
def State.dropTab (s : State) (gone : Nat × Nat × Nat → Bool) : State :=
  let drop (_ : Nat) (c : Core) : Core := { c with sheafTab := c.sheafTab.filter fun e => !gone e }
  { s with cores := Assoc.mapVals Core.zero drop s.cores }

def State.modSheaf (s : State) (id : Nat) (f : Sheaf → Sheaf) : State := s.setSheaf id ((s.sheaf id).map f)

def State.seq (s : State) (h : Nat) : Option Seq := Assoc.get none s.seqs h

def State.setSeq (s : State) (h : Nat) (q : Option Seq) : State := { s with seqs := Assoc.set none s.seqs h q }

/-- The die that owns a sequence. -/
def seqDie (h : Nat) : Nat := h / 2 ^ 14 % 1024

def Seq.layer (q : Seq) (l : Nat) : Layer := Assoc.get Layer.zero q.tabs l

def Seq.setLayer (q : Seq) (l : Nat) (x : Layer) : Seq := { q with tabs := Assoc.set Layer.zero q.tabs l x }

def Seq.t (q : Seq) : Nat := 2 ^ (q.toklog + 3)
def Seq.e (q : Seq) : Nat := q.heads * q.hdim

/-- The format of the store's type. -/
def Seq.fmt (q : Seq) : Nat := if q.stype = 4 then 1 else if q.stype = 6 then 2 else 0

/-- The entry of sheaf i (R286): the sheaf's name, if any. -/
def Layer.entry (x : Layer) (i : Nat) : Option Nat :=
  let v := match x.moved with
    | some (m, new) => if i < m ∨ 2 ^ (x.caplog - 1) ≤ i then Assoc.get 0 new i else Assoc.get 0 x.ents i
    | none => Assoc.get 0 x.ents i
  if v = 0 then none else some (v - 1)

/-- Write the entry of sheaf i: 1 + name, or 0 for none. -/
def Layer.setEntry (x : Layer) (i v : Nat) : Layer :=
  match x.moved with
  | some (m, new) =>
    if i < m ∨ 2 ^ (x.caplog - 1) ≤ i then { x with moved := some (m, Assoc.set 0 new i v) }
    else { x with ents := Assoc.set 0 x.ents i v }
  | none => { x with ents := Assoc.set 0 x.ents i v }

/-- The entries of sheaf `id` are about to change: no walker keeps a copy of one (R287). -/
def State.dropNamed (s : State) (id : Nat) : State :=
  s.dropTab fun e => match s.seq e.1 with
    | some q => (q.layer e.2.1).entry e.2.2 == some id
    | none => true

/-- Entries that a walker's cache holds (R13). -/
def sheafTabSize : Nat := 512

/-- Core c's walker resolves entries of a layer: its cache holds the latest. -/
def State.fillTab (s : State) (c h l : Nat) (is : List Nat) : State :=
  s.modCore c fun k =>
    let new := is.map fun i => (h, l, i)
    { k with sheafTab := (new ++ k.sheafTab.filter fun e => !new.contains e).take sheafTabSize }

/-- The sheaves of a layer up to its length: index and name. -/
def Layer.list (x : Layer) (t : Nat) : List (Nat × Nat) :=
  (List.range (ceilDiv x.len t)).filterMap fun i => (x.entry i).map fun id => (i, id)

/-- Every sheaf of a sequence, its continuation record with them. -/
def Seq.names (q : Seq) : List Nat :=
  ((List.range q.layers).flatMap fun l => ((q.layer l).list q.t).map fun p => p.2) ++
    (if q.contSheaf = 0 then [] else [q.contSheaf - 1])

/-! ### SLAB_RELOCATION_STEP (R286) -/

/-- Sixteen entries of a doubling slab move; at the end the old slab is freed. -/
def execSlabRelocationStep (seq layer : Nat) (s : State) : Out :=
  match s.seq seq with
  | none => .next s
  | some q =>
    let x := q.layer layer
    match x.moved with
    | none => .next s
    | some (m, new) =>
      if !s.inSlot (seqDie seq) (q.part % 16) then .next (s.owe (.slabRelocationStep seq layer))
      else
      let new' := (List.range 16).foldl (fun t i => Assoc.set 0 t (m + i) (Assoc.get 0 x.ents (m + i))) new
      if 2 ^ (x.caplog - 1) ≤ m + 16 then
        let fin := (List.range (2 ^ (x.caplog - 1) - m)).foldl (fun t i => Assoc.set 0 t (m + i) (Assoc.get 0 x.ents (m + i))) new
        .next (s.setSeq seq (some (q.setLayer layer { x with ents := fin, moved := none })))
      else .next ((s.setSeq seq (some (q.setLayer layer { x with moved := some (m + 16, new') }))).owe
        (.slabRelocationStep seq layer))

/-! ### Classes and ageing (R288 to R290) -/

/-- The reset values of SQCLS0 to SQCLS3. -/
def sqclsReset (n : Nat) : Word :=
  match n with
  | 2 => BitVec.ofNat 64 (at' 120000 44 + at' 5000 24 + at' 2 6 + at' 1 4 + 1)
  | 3 => BitVec.ofNat 64 (at' 5000 44 + at' 50 24 + at' 2 6 + at' 1 4)
  | _ => 0

def State.sqcls (s : State) (die n : Nat) : Word := (Assoc.get none (s.die die).sqcls n).getD (sqclsReset n)

/-- Slow ticks between two reference times (R3). -/
def slowTicks (since now : Nat) : Nat := now / 100000 - since / 100000

/-- The class under which a sheaf ages: the highest among the sequences that name it. -/
def State.sheafClass (s : State) (id : Nat) : Nat :=
  s.seqs.foldl (fun c p => match p.2 with
    | some q => if id ∈ q.names then min c q.cls else c
    | none => c) 3

/-- The format that a sheaf takes in tier t under class register v. -/
def tierFmt (x : Sheaf) (v : Word) (t : Nat) : Nat :=
  if !x.full || t = 1 then x.fmt else max x.fmt (if t = 2 then bits v 5 4 else bits v 7 6)

/-- Frames of one lender that a sheaf takes: its own in T1, one that it moves to, and those that holds keep in use; frames
of a recalled grant are not among them (R291, R292). -/
def Sheaf.framesOf (x : Sheaf) (lender : Nat) : Nat :=
  b2n (x.lender == lender && !x.recalled && (x.tier == 1 || (x.st == .demoting && x.target == 1))) +
    (x.olds.filter fun o => o.tier == 1 && o.lender == lender && !o.recalled).length

/-- Frames of a lender that are set aside for a borrower's accepted appends. -/
def State.framesAside (s : State) (lender borrower : Nat) : Nat :=
  s.banks.foldl (fun n k => match k.2.eng engWK with
    | some r => if seqDie (bits r.d 23 0) = borrower then n + ((r.places.getD []).filter fun p => p == (1, lender)).length else n
    | none => n) 0

/-- Frames of a grant in use: each sheaf in T1 takes one (DESIGN CHOICE, unsafe: log entry 29). -/
def State.framesUsed (s : State) (lender borrower : Nat) : Nat :=
  s.sheaves.foldl (fun n p => match p.2 with
    | some x => if seqDie x.owner = borrower then n + x.framesOf lender else n
    | none => n) (s.framesAside lender borrower)

/-- A die one hop away that lends frames to this one and has a free one, `taken` of each being spoken for (R289, R291)
(DESIGN CHOICE, unsafe: log entry 29). -/
def State.freeLender (s : State) (die : Nat) (taken : List (Nat × Nat)) : Option Nat :=
  (s.modul.grants.find? fun g => g.1 % 1024 == die && s.oneHop (g.1 / 1024) die &&
    decide (s.framesUsed (g.1 / 1024) die + (taken.filter fun p => p == (1, g.1 / 1024)).length < g.2)).map fun g => g.1 / 1024

/-- Rows of a sheaf in its tier: its header and its payload. -/
def Sheaf.size (x : Sheaf) : Nat := 1 + payloadRows x.fmt x.n

/-- Rows of the module's flash that sheaves may have: 24 TB less the firmware region of 64 GB (R16, R470). -/
def flashRows : Nat := (24 * 10 ^ 12 - 64 * 10 ^ 9) / 256

/-- Rows of the flash that a sheaf has: its own, and those that holds keep in use (R292). -/
def Sheaf.flashRows (x : Sheaf) : Nat :=
  (if x.tier = 3 then x.size else 0) + ((x.olds.filter fun o => o.tier == 3).map fun o => o.rows).foldl (· + ·) 0

/-- Rows of the flash that are set aside for accepted appends: a new sheaf is in BF16 (R292, R293). -/
def State.flashAside (s : State) : Nat :=
  s.banks.foldl (fun n k => match k.2.eng engWK with
    | some r =>
      let each := match s.seq (bits r.d 23 0) with
        | some q => 1 + payloadRows 0 (2 * q.t * q.e)
        | none => 0
      n + each * ((r.places.getD []).filter fun p => p.1 == 3).length
    | none => n) 0

/-- Whether n more rows fit the flash. -/
def State.flashFits (s : State) (n : Nat) : Bool :=
  decide (s.sheaves.foldl (fun m p => match p.2 with
    | some x => m + x.flashRows
    | none => m) (n + s.flashAside) ≤ flashRows)

/-- LOC of a header in tier t, of the die that holds it there in T0 and T1; T2 lies behind a CXL port (R16, R285)
(DESIGN CHOICE, unsafe: log entry 30). -/
def State.newLoc (s : State) (t die : Nat) : Nat :=
  let f := Config.sheafLoc s.free
  if t ≤ 1 then die * 2 ^ 29 + f % 500000000 else if t = 2 then 9 * 2 ^ 40 + f % 2 ^ 40 else f % 2 ^ 44

/-- The stack of its die that holds a sheaf in T0 and stages one of T2 or T3 (R16, R306). -/
def Sheaf.stack (x : Sheaf) : Nat := x.index % 2

/-- The places that sheaves of a die have in its table of 2^20 reference counts (R285). -/
def State.ridxUsed (s : State) (die : Nat) : List Nat :=
  s.sheaves.filterMap fun p => match p.2 with
    | some x => if seqDie x.owner = die then some x.ridx else none
    | none => none

/-- The least free place. -/
def State.freeRidx (s : State) (die : Nat) : Nat :=
  let used := s.ridxUsed die
  ((List.range (used.length + 1)).find? fun i => !used.contains i).getD 0

/-- Start to demote a sheaf to a tier (R290). -/
def State.demote (s : State) (id : Nat) (x : Sheaf) (t lender : Nat) : State :=
  let v := s.sqcls (seqDie x.owner) (s.sheafClass id)
  ((s.dropNamed id).setSheaf id (some { x with st := .demoting, target := t, tfmt := tierFmt x v t, lender := lender,
                                               recalled := false, wantT0 := false, out := 0 })).owe (.sheafMoveComplete id)

/-- The threshold that a sheaf in its state has reached: AGE2 in T0, AGE3 in T1 and T2. -/
def State.ageReached (s : State) (id : Nat) (x : Sheaf) : Bool :=
  let v := s.sqcls (seqDie x.owner) (s.sheafClass id)
  let a := if x.tier = 0 then bits v 43 24 else bits v 63 44
  (x.st == .resident || x.st == .lent || (x.st == .demoted && x.tier == 2)) && x.holds == 0 && a != 0 &&
  decide (a ≤ slowTicks x.age s.reftime)

/-- SHEAF_AGE_THRESHOLD (R290, R292). -/
def execSheafAgeThreshold (id : Nat) (s : State) : Out :=
  match s.sheaf id with
  | none => .next s
  | some x =>
    if !s.ageReached id x then .next s
    else if x.tier ≠ 0 then .next (s.demote id x 3 x.lender)
    else
      let v := s.sqcls (seqDie x.owner) (s.sheafClass id)
      match if bit v 0 then s.freeLender (seqDie x.owner) [] else none with
      | some l => .next (s.demote id x 1 l)
      | none => .next (s.demote id x 2 0)

/-! ### The lifecycle (R292, R293) -/

/-- A promotion request. -/
def State.promote (s : State) (id : Nat) : State :=
  match s.sheaf id with
  | none => s
  | some x =>
    let go := ((s.dropNamed id).setSheaf id (some { x with st := .promoting, target := 0, tfmt := x.fmt, out := 0, failed := false })).owe
      (.sheafMoveComplete id)
    match x.st with
    | .lent | .demoted => go
    | .demoting =>
      if x.tier = 0 then
        (s.dropNamed id).setSheaf id (some { x with st := .resident, wantT0 := false, lender := 0 })
      else if x.tier = 1 ∧ !x.recalled then go
      else s.setSheaf id (some { x with wantT0 := true })
    | _ => s

/-- The dies on which a sheaf's movement starts units: its owner's, and its lender's when T1 takes part. -/
def Sheaf.moveDies (x : Sheaf) : List Nat := seqDie x.owner :: (if x.tier = 1 ∨ x.target = 1 then [x.lender] else [])

/-- A unit of a task of the partition stands ready at a home of the die: it goes before every movement (R357). -/
def State.tasksReady (s : State) (die part : Nat) : Bool :=
  s.parcels.any fun q => q.b != 0 && q.arr != 0 && s.partOf q.b == part && (q.lines.all fun l => paDie (64 * l) == die) &&
    q.lines != [] && !s.ahead q.arr q.lines

/-- The last unit of a movement may go: the partition owns slots on every die that takes part, the present one at the owner's,
and none of its tasks goes before (R290, R357). -/
def State.mayMove (s : State) (x : Sheaf) : Bool :=
  (x.moveDies.all fun d => Assoc.get 0 (s.die d).pslot x.part != 0) && s.inSlot (seqDie x.owner) (x.part % 16) &&
    !s.tasksReady (seqDie x.owner) (x.part % 16)

/-- A sheaf as its move completes: location, tier and format switch together, and the space that it leaves stays in use for
the holds taken before (R292). -/
def Sheaf.switched (x : Sheaf) (loc now : Nat) : Sheaf :=
  let y := if x.tfmt = x.fmt then x else x.requant x.tfmt
  let old : OldSpace :=
    { nth := x.moves, tier := x.tier, loc := x.loc, lender := x.lender, recalled := x.recalled, holds := x.holds, rows := x.size }
  Sheaf.stamp { y with
    st := if x.target = 0 then .resident else if x.target = 1 then .lent else .demoted,
    tier := x.target, loc := loc, age := now, recalled := false, wantT0 := false,
    lender := if x.target = 1 then x.lender else 0, moves := x.moves + 1,
    olds := if x.holds = 0 then x.olds else old :: x.olds }

/-- The port by which the rows of a move leave their package: into CXL memory, or over an external link to a lender or back
(R289, R404). -/
def State.movePort (s : State) (x : Sheaf) (loc : Nat) : Option Nat :=
  let src := if x.tier = 1 then x.lender else seqDie x.owner
  if x.target = 2 then s.portOf src (256 * loc) else s.pullPort src (if x.target = 1 then x.lender else seqDie x.owner)

/-- SHEAF_MOVE_COMPLETE (R290 to R292): a move to T3 waits while the flash is full; a promotion whose read of T2 or T3 fails leaves
the sheaf where it is (R470) (DEDUCED, unsafe: log entry 56); tagged rows that leave the package are counted and lose their tags
(R404, R405) (DEDUCED, unsafe: log entry 36). -/
def execSheafMoveComplete (id : Nat) (s : State) : Out :=
  match s.sheaf id with
  | none => .next s
  | some x =>
    let again (s : State) : Out := .next (s.owe (.sheafMoveComplete id))
    if x.st ≠ .demoting ∧ x.st ≠ .promoting then .next s
    else if !s.mayMove x || (x.target == 3 && !s.flashFits x.size) then again s
    else if x.st = .promoting ∧ 2 ≤ x.tier ∧ Config.mediaError s.free then
      .next ((s.tickFree.dropNamed id).setSheaf id (some { x with st := .demoted, wantT0 := false, failed := true }))
    else
      let loc := s.newLoc x.target (if x.target = 1 then x.lender else seqDie x.owner)
      let port := s.movePort x loc
      let tags := (List.range x.size).map x.tag
      match s.leaveAll port (tags.drop x.out) x.out with
      | .wait s1 n | .capped s1 n => again (s1.setSheaf id (some { x with out := n }))
      | .all s1 =>
        let y := if port.isSome then { x with tags := [] } else x
        let s2 := (s1.tickFree.dropNamed id).setSheaf id (some { y.switched loc s.reftime with out := 0 })
        .next (if x.wantT0 then s2.promote id else s2)

/-- Give up one reference to a sheaf (R288, R292): at 0 it is released, and free when no hold remains. -/
def State.dropRef (s : State) (id : Nat) : State :=
  match s.sheaf id with
  | none => s
  | some x =>
    if 1 < x.refs then s.setSheaf id (some { x with refs := x.refs - 1 })
    else if x.holds = 0 then (s.dropNamed id).setSheaf id none
    else (s.dropNamed id).setSheaf id (some { x with refs := 0, st := .released, wantT0 := false })

/-- A reader takes a hold (R281, R290). -/
def State.hold (s : State) (id : Nat) : State := s.modSheaf id fun x => { x with holds := x.holds + 1, age := s.reftime }

/-- A hold that was taken after `n` moves goes, and the spaces left since then lose one (R290, R292). -/
def State.unhold (s : State) (id n : Nat) : State :=
  match s.sheaf id with
  | none => s
  | some x =>
    if x.holds ≤ 1 ∧ x.st = .released then s.setSheaf id none
    else
      let olds := (x.olds.map fun o => if n ≤ o.nth then { o with holds := o.holds - 1 } else o).filter fun o => o.holds != 0
      s.setSheaf id (some { x with holds := x.holds - 1, age := s.reftime, olds := olds })

/-- The holds of a command go. -/
def State.unholdAll (s : State) (held : List (Nat × Nat × Sheaf)) : State :=
  held.foldl (fun s y => s.unhold y.2.1 y.2.2.moves) s

/-! ### Lending (R291, R292) -/

/-- The agent of `State.passed` for the messages of lending between two dies. -/
def agentLend (lender borrower : Nat) : Nat := 2 ^ 44 + 1024 * lender + borrower

/-- A message of lending or recall, of the management class and for no partition, takes its units (R315, R476); one that has
not had them all arrives by a later event of the same firmware. -/
def State.lendServe (s : State) (lender borrower : Nat) : Bool × State :=
  s.serve (agentLend lender borrower) 0 noTask (s.wayTo .management lender borrower)

/-- LEND_GRANT (R291). -/
def execLendGrant (lender borrower frames : Nat) (s : State) : Out :=
  if !validDie lender || !validDie borrower then .fault .noSuchAgent
  else if !s.oneHop lender borrower then .next s
  else match s.lendServe lender borrower with
    | (false, s1) => .next s1
    | (true, s1) =>
      let k := lender * 1024 + borrower
      let grants := Assoc.set 0 s.modul.grants k (Assoc.get 0 s.modul.grants k + frames)
      .next { s1 with modul := { s1.modul with grants := grants } }

/-- The recall of its grant meets a sheaf (R292). -/
def State.recallSheaf (s : State) (id : Nat) (x : Sheaf) : State :=
  let v := s.sqcls (seqDie x.owner) (s.sheafClass id)
  match x.st with
  | .lent =>
    ((s.dropNamed id).setSheaf id (some { x with st := .demoting, target := 2, tfmt := tierFmt x v 2, recalled := true,
                                                 wantT0 := false })).owe (.sheafMoveComplete id)
  | .demoting =>
    if x.tier = 1 ∨ x.target = 1 then
      s.setSheaf id (some { x with target := 2, tfmt := tierFmt x v 2, recalled := true })
    else s
  | .promoting | .released => if x.tier = 1 then s.setSheaf id (some { x with recalled := true }) else s
  | _ => s

/-- The spaces of a recalled grant that holds keep in use go back to the lender as the holds go (R291). -/
def Sheaf.recallOlds (x : Sheaf) (lender : Nat) : Sheaf :=
  { x with olds := x.olds.map fun o => if o.tier = 1 ∧ o.lender = lender then { o with recalled := true } else o }

/-- A frame of a recalled grant that is set aside for an accepted append: its sheaf will be in T2. -/
def EngRun.recallPlaces (r : EngRun) (lender borrower : Nat) : EngRun :=
  if seqDie (bits r.d 23 0) = borrower then
    { r with places := r.places.map fun ps => ps.map fun p => if p = (1, lender) then (2, 0) else p }
  else r

/-- The grants of a lender to a borrower end, and the places that appends have there. -/
def State.endGrant (s : State) (lender borrower : Nat) : State :=
  { s with
    modul := { s.modul with grants := Assoc.set 0 s.modul.grants (lender * 1024 + borrower) 0 },
    banks := Assoc.mapVals Bank.zero (fun _ k =>
      k.setEng engWK ((k.eng engWK).map fun r => r.recallPlaces lender borrower)) s.banks }

/-- LEND_RECALL (R291): every sheaf that the borrower keeps in the recalled frames moves to T2. -/
def execLendRecall (lender borrower : Nat) (s : State) : Out :=
  if !validDie lender || !validDie borrower then .fault .noSuchAgent
  else match s.lendServe lender borrower with
  | (false, s1) => .next s1
  | (true, s0) =>
    .next (s0.sheaves.foldl (fun s p => match s.sheaf p.1 with
      | some x =>
        if seqDie x.owner ≠ borrower then s
        else
          let y := x.recallOlds lender
          let s2 := s.setSheaf p.1 (some y)
          if y.lender = lender then s2.recallSheaf p.1 y else s2
      | none => s) (s0.endGrant lender borrower))

/-! ### Info records (R297) -/

/-- The info record of layer l of sequence h. -/
def State.infoRecord (s : State) (h : Nat) (q : Seq) (l : Nat) : Row :=
  let x := q.layer l
  let shs := (x.list q.t).filterMap fun p => s.sheaf p.2
  let inTier (t : Nat) : Nat := (shs.filter fun y => y.tier == t).length
  BitVec.ofNat 2048 (h % 2 ^ 24 + at' (q.pcls % 4) 73 + at' (q.cls % 4) 75 + at' (q.sstate % 8) 77 + at' (q.part % 16) 80 +
    at' ((q.hdim - 1) % 512) 87 + at' (q.heads % 256) 96 + at' (q.toklog % 8) 105 + at' (q.stype % 16) 108 +
    at' (q.layers % 256) 112 + at' (x.caplog % 32) 123 + at' (x.len % 2 ^ 24) 152 +
    at' ((shs.filter fun y => decide (1 < y.refs)).length % 2 ^ 24) 200 + at' (inTier 0 % 2 ^ 24) 224 +
    at' (inTier 1 % 2 ^ 24) 248 + at' (inTier 2 % 2 ^ 24) 272 + at' (inTier 3 % 2 ^ 24) 296 +
    at' (q.wakeign % 2 ^ 32) 320 + at' (q.gen % 2 ^ 32) 352)

/-! ### Waking (R302 to R304) -/

/-- A wake reaches sequence h (R303): it starts stage 1, or is counted as ignored. The second result: it started. -/
def State.wake (s : State) (h : Nat) (q : Seq) (v : Word) : State × Bool :=
  if q.sstate = 1 ∧ BitVec.ofNat 32 v.toNat = q.wkey then
    ((s.setSeq h (some { q with sstate := 2 })).owe (.wakeStage1End h), true)
  else (s.setSeq h (some { q with wakeign := (q.wakeign + 1) % 2 ^ 32 }), false)

/-- WAKE_WRITE (R303): 8 bytes written to the wake address of a sequence reach its home. -/
def execWakeWrite (seq : Nat) (v : Word) (s : State) : Out :=
  .next (s.takeWin true seq v fun s =>
    match s.seq seq with
    | none => s
    | some q => (s.wake seq q v).1)

/-- The sheaves that stage 1 promotes: the continuation record and the last sheaf of every layer. -/
def Seq.stage1 (q : Seq) : List Nat :=
  (if q.contSheaf = 0 then [] else [q.contSheaf - 1]) ++
    (List.range q.layers).filterMap fun l =>
      let x := q.layer l
      if x.len = 0 then none else x.entry ((x.len - 1) / q.t)

/-- Whether a sheaf lies in T0 and stays there. -/
def State.inT0 (s : State) (id : Nat) : Bool :=
  match s.sheaf id with
  | some x => x.st == .resident
  | none => true

/-- WAKE_STAGE1_END (R303): once its sheaves are resident the class returns and the continuation task is launched; until
then their promotions are requested, when the wake reserve grants its frames. -/
def execWakeStage1End (seq : Nat) (s : State) : Out :=
  match s.seq seq with
  | none => .next s
  | some q =>
    let again := s.owe (.wakeStage1End seq)
    let die := seqDie seq
    if q.sstate ≠ 2 then .next s
    else match q.stage1.filter fun id => !s.inT0 id with
      | [] =>
        if 64 ≤ (s.die die).launchq.length || s.hostWrites then .next again
        else
          let s1 := s.setSeq seq (some { q with sstate := 3, cls := q.pcls })
          let s2 := s1.modDie die fun d => { d with launchq := d.launchq ++ [(mkBank die 127 0, q.part, q.cont)] }
          .next ((s2.owe (.launchProcess die)).owe (.wakeStage2End seq))
      | ids =>
        if Config.wakeReserve s.free then .next ((ids.foldl State.promote s.tickFree).owe (.wakeStage1End seq))
        else .next (s.tickFree.owe (.wakeStage1End seq))

/-- The sheaves of a sequence in the order of stage 2: descending index, layers ascending within each. -/
def Seq.stage2 (q : Seq) : List Nat :=
  let top := (List.range q.layers).foldl (fun n l => max n (ceilDiv (q.layer l).len q.t)) 0
  (List.range top).reverse.flatMap fun i => (List.range q.layers).filterMap fun l => (q.layer l).entry i

/-- WAKE_STAGE2_END (R303, R304): the next sheaf outside T0 is promoted; with none left the sequence is open. -/
def execWakeStage2End (seq : Nat) (s : State) : Out :=
  match s.seq seq with
  | none => .next s
  | some q =>
    if q.sstate ≠ 3 then .next s
    else match q.stage2.find? fun id => !s.inT0 id with
      | some id => .next ((s.promote id).owe (.wakeStage2End seq))
      | none => .next (s.setSeq seq (some { q with sstate := 0 }))

end Sys2Proof.Machine
end

