-- ==== Sys2Proof/Machine/Walker.lean ====
section
/-! DEFINITION. The walker: its commands at the sequencer, at a sequence's home and to their retirement (spec/14 R280 to
R282, R294 to R304, R309), and what the walker, the gleaner port and the collective port share. -/

namespace Sys2Proof.Machine

/-! ### Operand registers (R280, R294, R295) -/

def seqHandle (v : Word) : Nat := bits v 23 0
def seqLayer (v : Word) : Nat := bits v 55 48

/-- Reserved bits of a sequence register, and LAYER where the command does not use it. -/
def seqRegOk (v : Word) (layer : Bool) : Bool :=
  bits v 63 56 == 0 && bits v 47 24 == 0 && (layer || seqLayer v == 0)

def refH (v : Word) : Nat := bits v 47 44
def refOff (v : Word) : Nat := bits v 39 0
def refX (v : Word) : Nat := bits v 63 48

/-- Reserved bits of a memory reference, OFF a multiple of 256, and X where the command gives it no meaning. -/
def refOk (v : Word) (x : Bool) : Bool := bits v 43 40 == 0 && bits v 7 0 == 0 && (x || refX v == 0)

/-- An engine command with memory references (R43, R46, R48, R295): its tokens and operands, a range, its handles, its
queue. -/
def referCommand (s : State) (e : Nat) (x : SXWord) (op : EngOp) (ok : Bool) (range : Option Trap) (refs : List Word) : Out :=
  let d := s.reg x.d
  let a := s.reg x.a
  let b := s.reg x.b
  let c := s.reg x.c
  noSlot s fun s =>
    if !(pushOk e x.ext && popsOk e x.ext) || !ok then trapNow s illegalOperand
    else match range with
      | some t => trapNow s t
      | none => withHandles s (refs.map refH).eraseDups fun caps => queueFor s e 8 (.engine op d a b c caps) x.ext

/-- The sequence of a register, if the acting bank may name it. -/
def State.mySeq (s : State) (b : Nat) (v : Word) : Option Seq :=
  match s.seq (seqHandle v) with
  | some q => if q.part = (s.bank b).part ∧ s.dieExists (bankDie b) (seqDie (seqHandle v)) then some q else none
  | none => none

/-- Rows of a space that a bit names: 0 scratchpad, 1 cluster SRAM. -/
def spcRows (v : Word) : Nat := spaceRows (bit v 32)

/-! ### The walker's commands at the sequencer -/

/-- Rows that n tokens of E elements take in BF16. -/
def tokenRows (n e : Nat) : Nat := ceilDiv (n * e) 128

/-- Whether the source rows of an `SQAPP` lie in their space (DEDUCED, unsafe: log entry 55). -/
def appRangeOk (q : Option Seq) (a b : Word) : Bool :=
  match q with
  | some q =>
    let n := tokenRows (bits b 23 0) q.e
    decide (bits a 15 0 + n ≤ spcRows a) && decide (bits a 31 16 + n ≤ spcRows a)
  | none => true

/-- Whether STRIDE holds a header and the payload of a BF16 sheaf (DEDUCED, unsafe: log entry 55). -/
def strideOk (q : Option Seq) (a : Word) : Bool :=
  match q with
  | some q => decide (1 + payloadRows 0 (2 * q.t * q.e) ≤ bits a 31 16)
  | none => true

def rowRange : Trap := Trap.mk0 10 0

/-- `ATTNS` (R309). -/
def execAttns (x : SXWord) (s : State) : Out :=
  let d := s.reg x.d
  let a := s.reg x.a
  let b := s.reg x.b
  let ok := seqRegOk d true && bits a 63 33 == 0 && bits b 63 48 == 0 && decide (1 ≤ bits b 47 24) &&
    strideOk (s.mySeq s.cur d) a
  let inRange := decide (bits a 15 0 + bits b 47 24 * bits a 31 16 ≤ spcRows a)
  referCommand s engWK x .attns ok (if inRange then none else some rowRange) []

/-- `SQOPEN` (R296). -/
def execSqopen (x : SXWord) (s : State) : Out :=
  let d := s.reg x.d
  let a := s.reg x.a
  referCommand s engWK x .sqopen (refOk d false && bits a 63 6 == 0 && bits a 5 4 != 3) none [d]

/-- `SQAPP` (R298). -/
def execSqapp (x : SXWord) (s : State) : Out :=
  let d := s.reg x.d
  let a := s.reg x.a
  let b := s.reg x.b
  let ok := seqRegOk d true && bits a 63 33 == 0 && bits b 63 24 == 0 && decide (1 ≤ bits b 23 0) &&
    decide (bits b 23 0 ≤ 65535)
  referCommand s engWK x .sqapp ok (if appRangeOk (s.mySeq s.cur d) a b then none else some rowRange) []

/-- `SQFORK` (R299). -/
def execSqfork (x : SXWord) (s : State) : Out :=
  let d := s.reg x.d
  referCommand s engWK x .sqfork (refOk d false && seqRegOk (s.reg x.a) false && bits (s.reg x.b) 63 24 == 0) none [d]

/-- `SQTRUNC` (R300). -/
def execSqtrunc (x : SXWord) (s : State) : Out :=
  referCommand s engWK x .sqtrunc (seqRegOk (s.reg x.d) false && bits (s.reg x.a) 63 24 == 0) none []

/-- `SQPARK` (R302). -/
def execSqpark (x : SXWord) (s : State) : Out :=
  let a := s.reg x.a
  referCommand s engWK x .sqpark (seqRegOk (s.reg x.d) false && refOk a false && bits (s.reg x.b) 63 32 == 0) none [a]

/-- `SQWAKE` (R303). -/
def execSqwake (x : SXWord) (s : State) : Out := referCommand s engWK x .sqwake (seqRegOk (s.reg x.d) false) none []

/-- `SQCLOSE` (R301). -/
def execSqclose (x : SXWord) (s : State) : Out := referCommand s engWK x .sqclose (seqRegOk (s.reg x.d) false) none []

/-- `SQINFO` (R296). -/
def execSqinfo (x : SXWord) (s : State) : Out :=
  let d := s.reg x.d
  referCommand s engWK x .sqinfo (refOk d false && seqRegOk (s.reg x.a) true) none [d]

/-! ### Issued commands of the walker, the gleaner port and the collective port -/

/-- A command as it issues. -/
def newEng (c : Cmd) (op : EngOp) (d a b c' : Word) (caps : List HCap) : EngRun :=
  { op := op, d := d, a := a, b := b, c := c', caps := caps, pc := c.pc, ext := c.ext, accepted := false, len := 0,
    held := [], t := 0, heads := 0, hdim := 0, stype := 0, qrec := [], qbad := false, pins := [], fault := none, k := 0, tok := 0, acc := [],
    done := 0, poisoned := false, wait := 0, sent := false, trapped := false, parked := false, inst := 0, started := false, lands := [] }

/-- Whether issued commands of a bank go on: to retirement while it stops, ends or saves, except those that a save stops
(R308, R309, R311, R419, R422, R430). -/
def Bank.engGoes (k : Bank) (r : EngRun) : Bool :=
  !r.trapped && match k.pst with
    | .live => true
    | .saving => match r.op with
      | .attns | .attnd | .rdx => false
      | .coll | .ring | .plough => r.started
      | _ => true
    | _ => false

/-- The next command of bank k in engine e, if it could issue (R48). -/
def Bank.nextEng (k : Bank) (e : Nat) : Option EngRun :=
  if k.served && (k.eng e).isNone && k.faults.all (fun t => t.eng != e) then
    match k.cmdq e with
    | c :: _ =>
      match c.op with
      | .engine op d a b c' caps => if k.canIssue e c.ext then some (newEng c op d a b c' caps) else none
      | _ => none
    | [] => none
  else none

/-- Whether bank k has a command under way in engine e. -/
def Bank.engBusy (k : Bank) (e : Nat) : Bool :=
  match k.eng e with
  | some r => k.engGoes r
  | none => false

/-- Engine e takes bank b's next command when it may (R48, R358): none while it waits. -/
def State.issueEng (s : State) (b e : Nat) : Option (State × EngRun) :=
  let k := s.bank b
  let o := s.bank (otherBank b)
  match k.nextEng e with
  | none => none
  | some r =>
    if o.engBusy e || ((o.nextEng e).isSome && s.turnOf b e == b % 2) then none
    else
      let k1 := ((k.takePops e r.ext).setCmdq e ((k.cmdq e).drop 1)).setEng e (some r)
      some ((s.setBank b k1).takeTurn b e, r)

def State.putEng (s : State) (b e : Nat) (r : EngRun) : State := s.modBank b fun k => k.setEng e (some r)

/-- The ranges that an `ATTND` has done. -/
def EngRun.doneCount (r : EngRun) : Nat := ((List.range 1024).filter fun i => r.done.getLsbD i).length

/-- EPROG0 of a fault (R418). -/
def EngRun.progress (r : EngRun) (free : Word) : Word :=
  match r.op with
  | .attns | .rdx => BitVec.ofNat 64 r.k
  | .attnd => BitVec.ofNat 64 r.doneCount
  | .coll | .ring | .plough => 0
  | _ => free

/-- A command of engine e faults (R251, R295): its pins go, and it waits for the firmware's answer. -/
def State.failEng (s : State) (b e : Nat) (r : EngRun) (f : CopyFault) : State :=
  let addr : Word := match f.va with
    | some v => BitVec.ofInt 64 v
    | none => Config.faultAddr s.free
  let t : Trap :=
    { Trap.mk0 f.cls f.sub with
      walk := f.walk, eng := e, asyn := true, eaddr := addr, einfo := BitVec.ofNat 64 (r.pc.toNat % 2 ^ 56),
      prog0 := r.progress (Config.faultField s.free 2) }
  (s.tickFree.putEng b e { r with trapped := true, pins := [], fault := none }).raise b t

/-- A command of engine e retires (R47, R254, R281): holds and pins go, then its token and barrier; it waits while the
FIFO is full or a packet of its rows unchecked (R323). -/
def State.retireEng (s : State) (b e : Nat) (r : EngRun) : Option State :=
  if !(s.bank b).canPush e r.ext || s.tentFor (.eng b e) then none
  else
    let s1 := s.unholdAll r.held
    let s2 := s1.modBank b fun k => (k.retireTok e r.ext).setEng e none
    some ((s2.oweEngine b e).oweEngine (otherBank b) e)

/-- A command that could not retire is marked when only its token is held back (R11, R431). -/
def State.heldBack (s : State) (b e : Nat) (r : EngRun) : State :=
  if s.tentFor (.eng b e) then s else s.putEng b e { r with full := true }

/-! ### Memory references (R252, R280, R295) -/

/-- The virtual address of a reference. -/
def refVa (r : EngRun) (v : Word) : Int := capBase r.caps (refH v) + refOff v

/-- Engine e of bank b pins the pages of the addresses from va up to `stop`; of whole rows, the last one of global SRAM lies in one
page (R199). -/
def State.pinSpan (s : State) (b e part : Nat) (intent : BitVec 3) (whole : Bool) (stop : Int) :
    Nat → List Pin → Int → Pinning
  | 0, _, va => .fault { cmdFault 4 with va := some va } s
  | n + 1, pins, va =>
    if stop ≤ va then .ok pins s
    else match s.pinPage b e part pins va intent with
      | .ok p1 s1 =>
        match pinFor p1 va intent with
        | some p =>
          let next : Int := p.page + pageBytes p.size
          if whole && isGsram (leafFrame p.leaf * 65536) && decide (stop - next < 256) then .ok p1 s1
          else s1.pinSpan b e part intent whole stop n p1 next
        | none => .ok p1 s1
      | x => x

/-- Pin what a command reaches through its references: register, first byte past its OFF, bytes, rights. -/
def State.pinRefs (s : State) (b e part : Nat) (r : EngRun) (pins : List Pin) : List (Word × Nat × Nat × BitVec 3) → Pinning
  | [] => .ok pins s
  | (v, off, n, intent) :: rest =>
    let va := refVa r v + off
    if !rightsOk intent (capOf r.caps (refH v)).intent then .fault (walkFault 2 va) s
    else match s.pinSpan b e part intent (n % 256 == 0) (va + n) 1026 pins va with
      | .ok p1 s1 => s1.pinRefs b e part r p1 rest
      | x => x

/-- Read n bytes through pins, at their home (R210, R214). -/
def State.readPinned (s : State) (pins : List Pin) (va : Int) (n : Nat) (held : List Nat := []) : Carried × State :=
  s.engRead (pinnedParts pins 1 va n) held

/-- The rows of n bytes at an address, read so. -/
def State.readRows (s : State) (pins : List Pin) (va : Int) (n : Nat) (held : List Nat := []) : List Carried × State :=
  (List.range (n / 256)).foldl (fun (p : List Carried × State) (i : Nat) =>
    let x := p.2.readPinned pins (va + 256 * (i : Int)) 256 held
    (p.1 ++ [x.1], x.2)) ([], s)

/-- The homes, as addresses, and the units of reads of bank b through pins: addresses and lengths (R476). -/
def State.pinnedLegs (s : State) (b : Nat) (pins : List Pin) (xs : List (Int × Nat)) : List Nat × List Leg :=
  let ps := xs.flatMap fun x => pinnedParts pins 1 x.1 x.2
  (ps.map fun q => q.1, s.partLegs b ps)

/-- n bytes from an address on, row by row. -/
def rowSpans (va : Int) (n : Nat) : List (Int × Nat) := (List.range (n / 256)).map fun (i : Nat) => (va + 256 * (i : Int), 256)

/-- Engine e of bank b writes a row, or a part of one, that it carries through its pins. -/
def State.writeVia (s : State) (b e : Nat) (r : EngRun) (va : Int) (c : Carried) : State × EngRun :=
  let xs := c.data
  let w := (pinnedParts r.pins 2 va xs.length).foldl (fun (acc : State × Nat × List Byte) q =>
    let z := acc.1.engWrite b (acc.1.bank b).part q.1 q.2.2 (acc.2.2.take q.2.1) c (.eng b e)
    (z.1, acc.2.1 + z.2, acc.2.2.drop q.2.1)) (s, 0, xs)
  (w.1, { r with wait := r.wait + w.2.1 })

/-- Engine e of bank b writes a row through its pins. -/
def State.writePinned (s : State) (b e : Nat) (r : EngRun) (va : Int) (row : Row) (poison : Bool) (tag : BitVec 24) :
    State × EngRun :=
  s.writeVia b e r va { data := natLE 256 row.toNat, poison := poison, tag := tag, die := bankDie b, tent := 0 }

/-! ### What a home answers -/

/-- The home's answer to a command: it is done, with an info record to write; it waits; or it faults before any effect. -/
inductive Accept where
  | done (s : State) (row : Option Row)
  | wait (s : State)
  | fault (f : CopyFault) (s : Option State := none)

def seqFault (sub : Nat) : Accept := .fault (cmdFault sub)

/-- The sequence that a command names, or the bad-handle fault. -/
def withSeq (s : State) (b h : Nat) (f : Seq → Accept) : Accept :=
  match s.mySeq b (BitVec.ofNat 64 h) with
  | some q => f q
  | none => seqFault 10

/-- A changing command waits behind those that arrived before it (R279, R304). -/
def State.queueAt (s : State) (h b : Nat) (q : Seq) : State :=
  if b ∈ q.waiters then s else s.setSeq h (some { q with waiters := q.waiters ++ [b] })

/-- Whether bank b's command is the next that a sequence serves. -/
def Seq.turn (q : Seq) (b : Nat) : Bool :=
  match q.waiters with
  | [] => true
  | x :: _ => x == b

/-- A bank's command no longer waits at any sequence. -/
def State.leaveSeqs (s : State) (b : Nat) : State :=
  { s with seqs := Assoc.mapVals none (fun _ q => q.map fun x => { x with waiters := x.waiters.filter fun y => y != b }) s.seqs }

/-- A changing command on sequence h applies a step to it: GEN counts it, and no walker keeps a copy of its entries
(R287). -/
def State.changed (s : State) (h b : Nat) (q : Seq) : State :=
  (s.dropTab fun e => e.1 == h).setSeq h (some { q with gen := (q.gen + 1) % 2 ^ 32, waiters := q.waiters.filter fun x => x != b })

/-- Serve a changing command in arrival order, in states where R304 lets it be applied: `stops` lists the states in which
it faults. -/
def changing (s : State) (b h : Nat) (stops : List Nat) (f : Seq → Accept) : Accept :=
  withSeq s b h fun q =>
    if q.sstate ∈ stops then seqFault 11
    else if q.sstate = 2 || !q.turn b then .wait (s.queueAt h b q)
    else f q

/-! ### SQOPEN, SQINFO (R296) -/

/-- A die takes a sequence index (R279). -/
def State.takeIndex (s : State) (die : Nat) : Option (Nat × State) :=
  let d := s.die die
  if d.seqNext < 2 ^ 14 then some (d.seqNext, s.modDie die fun d => { d with seqNext := d.seqNext + 1 })
  else match d.seqFree with
    | i :: rest => some (i, s.modDie die fun d => { d with seqFree := rest })
    | [] => none

/-- The image and the launch record of the task of a bank. -/
def State.taskLaunch (s : State) (b : Nat) : Option Launch :=
  match ((s.die (bankDie b)).bind (s.bank b).bindRec).job with
  | some t => s.launchOf t
  | none => none

/-- `SQOPEN` at the issuing die. -/
def State.sqopen (s : State) (b : Nat) (r : EngRun) : Accept :=
  match s.taskLaunch b with
  | none => seqFault 12
  | some l =>
    let im := l.fixed
    let heads := hdr im 450 443
    let layers := if hdr im 471 464 = 0 then bits l.rcd 319 312 else hdr im 471 464
    if heads = 0 ∨ layers = 0 then seqFault 12
    else match s.takeIndex (bankDie b) with
      | none => seqFault 16
      | some (i, s1) =>
        let cap : Layer := { Layer.zero with caplog := bits r.a 3 0 }
        let q : Seq :=
          { part := (s.bank b).part, toklog := hdr im 442 440, heads := heads, hdim := hdr im 459 451 + 1,
            stype := hdr im 463 460, layers := layers, cls := bits r.a 5 4, pcls := (Config.freeClass s.free).toNat,
            sstate := 0, wkey := 0, cont := 0, contSheaf := 0, gen := 0, wakeign := 0,
            tabs := (List.range layers).foldl (fun m l => Assoc.set Layer.zero m l cap) [], waiters := [] }
        let h := bankDie b * 2 ^ 14 + i
        .done (s1.tickFree.setSeq h (some q)) (some (s1.infoRecord h q 0))

/-- Some entry of sheaves lo to lo + n - 1 of a layer fails its check (R285, R447). -/
def State.badEntry (s : State) (q : Seq) (l lo n : Nat) : Bool :=
  ((q.layer l).list q.t).any fun p =>
    decide (lo ≤ p.1) && decide (p.1 < lo + n) && match s.sheaf p.2 with
      | some y => y.chk != y.headCrc
      | none => false

/-- A walker that resolves such an entry stops (R447) (DEDUCED, safe: log entry 65). -/
def entryFault : CopyFault := { cmdFault 0 with cls := 8 }

/-- `SQINFO` at the home. -/
def State.sqinfo (s : State) (b : Nat) (r : EngRun) : Accept :=
  withSeq s b (seqHandle r.a) fun q =>
    if q.layers ≤ seqLayer r.a then seqFault 12
    else if s.badEntry q (seqLayer r.a) 0 (2 ^ 24) then .fault entryFault
    else .done s (some (s.infoRecord (seqHandle r.a) q (seqLayer r.a)))

/-! ### SQTRUNC, SQCLOSE, SQFORK, SQPARK, SQWAKE (R299 to R303) -/

/-- Cut layer l of a sequence to length len. -/
def State.cutLayer (p : State × Seq) (len l : Nat) : State × Seq :=
  let (s, q) := p
  let x := q.layer l
  if x.len ≤ len then p
  else
    let gone := (x.list q.t).filter fun y => decide (len ≤ y.1 * q.t)
    let s1 := gone.foldl (fun s y => s.dropRef y.2) s
    let x1 := gone.foldl (fun x y => x.setEntry y.1 0) x
    (s1, q.setLayer l { x1 with len := len })

def State.cut (s : State) (q : Seq) (len : Nat) : State × Seq := (List.range q.layers).foldl (fun p l => State.cutLayer p len l) (s, q)

/-- `SQTRUNC` at the home. -/
def State.sqtrunc (s : State) (b : Nat) (r : EngRun) : Accept :=
  let h := seqHandle r.d
  changing s b h [] fun q =>
    let (s1, q1) := s.cut q (bits r.a 23 0)
    .done (s1.changed h b q1) none

/-- `SQCLOSE` at the home. -/
def State.sqclose (s : State) (b : Nat) (r : EngRun) : Accept :=
  let h := seqHandle r.d
  changing s b h [] fun q =>
    let (s1, q1) := s.cut q 0
    let s2 := if q1.contSheaf = 0 then s1 else s1.dropRef (q1.contSheaf - 1)
    .done (((s2.dropTab fun e => e.1 == h).setSeq h none).modDie (seqDie h) fun d => { d with seqFree := d.seqFree ++ [h % 2 ^ 14] }) none

/-- The child's layer (R299). -/
def Layer.forked (x : Layer) (t p : Nat) : Layer :=
  (List.range (ceilDiv p t)).foldl (fun y i => match x.entry i with
    | some id => { y with ents := Assoc.set 0 y.ents i (id + 1) }
    | none => y) { Layer.zero with len := p, caplog := x.caplog }

/-- `SQFORK` at the home. -/
def State.sqfork (s : State) (b : Nat) (r : EngRun) : Accept :=
  let h := seqHandle r.a
  let p := bits r.b 23 0
  changing s b h [] fun q =>
    if (List.range q.layers).any fun l => decide ((q.layer l).len < p) then seqFault 12
    else match s.takeIndex (seqDie h) with
      | none => seqFault 16
      | some (i, s1) =>
        let cls := if q.sstate = 1 then 1 else q.cls
        let tabs := (List.range q.layers).foldl (fun m l => Assoc.set Layer.zero m l ((q.layer l).forked q.t p)) []
        let c : Seq := { q with cls := cls, pcls := (Config.freeClass s.free).toNat, sstate := 0, cont := 0, contSheaf := 0,
                                wkey := 0, gen := 0, wakeign := 0, tabs := tabs, waiters := [] }
        let h' := seqDie h * 2 ^ 14 + i
        let s2 := c.names.foldl (fun s id => s.modSheaf id fun x => { x with refs := x.refs + 1 }) s1
        let s3 := ((s2.setSeq h' (some c)).changed h b q).tickFree
        .done s3 (some (s3.infoRecord h' c 0))

/-- A new sheaf, or a continuation record (t = 0), in the tier where it is allocated, at its lender in T1. -/
def State.newSheaf (s : State) (q : Seq) (h l i : Nat) (place : Nat × Nat) : Sheaf :=
  let (tier, lender) := place
  { st := if tier = 0 then .resident else if tier = 1 then .lent else .demoted, tier := tier, target := 0, tfmt := 0,
    loc := s.newLoc tier (if tier = 1 then lender else seqDie h), ridx := s.freeRidx (seqDie h), chk := 0,
    fmt := 0, scales := 0, rows := [], bad := [], tags := [], t := q.t, e := q.e, nvalid := 0, index := i, layer := l,
    owner := h, part := q.part, refs := 1, holds := 0, age := s.reftime, recalled := false, lender := lender,
    wantT0 := false, moves := 0, olds := [] }

/-- `SQPARK` at the home (R290, R302, R304). -/
def State.sqpark (s : State) (b : Nat) (r : EngRun) : Accept :=
  let h := seqHandle r.d
  changing s b h [1, 2] fun q =>
    let (rec', s) := s.readPinned r.pins (refVa r r.a) 64
    if rec'.poison || r.qbad then .fault { cmdFault 0 with cls := 8, va := some (refVa r r.a) }
    else
      let s0 := if q.contSheaf = 0 then s else s.dropRef (q.contSheaf - 1)
      let id := s0.sheafNext
      let s1 : State :=
        { s0.tickFree.setSheaf id (some (Sheaf.stamp { s0.newSheaf q h 0 0 (0, 0) with t := 0, e := 0 })) with
          sheafNext := id + 1 }
      let q1 := { q with pcls := q.cls, cls := 3, sstate := 1, wkey := BitVec.ofNat 32 r.b.toNat,
                         cont := BitVec.ofNat 512 (leNat rec'.data), contSheaf := id + 1 }
      .done ((q1.names.foldl (fun s i => s.modSheaf i fun x => { x with age := s.reftime }) s1).changed h b q1) none

/-- `SQWAKE` at the home, after the changing commands that arrived before it: GEN counts it when it starts a wake. -/
def State.sqwake (s : State) (b : Nat) (r : EngRun) : Accept :=
  let h := seqHandle r.d
  withSeq s b h fun q =>
    if !q.turn b then .wait (s.queueAt h b q)
    else
      let s0 := s.setSeq h (some { q with waiters := q.waiters.filter fun x => x != b })
      match s0.wake h { q with waiters := q.waiters.filter fun x => x != b } r.a with
      | (s1, true) => .done (match s1.seq h with | some q1 => s1.changed h b q1 | none => s1) none
      | (s1, false) => .done s1 none

/-! ### SQAPP (R284, R286, R288, R293, R298) -/

/-- The source rows of an `SQAPP`: keys or values from a row on. -/
def State.appRow (s : State) (b part : Nat) (a : Word) (base i : Nat) : RowCell :=
  s.readCell (rowKey b (bit a 32) (base + i)) part

/-- Element k of the keys or values of an `SQAPP`. -/
def State.appCode (s : State) (b part : Nat) (a : Word) (base k : Nat) : Nat :=
  Num.elem 16 (s.appRow b part a base (k / 128)).data (k % 128)

/-- The last sheaf of a layer that a new token joins. -/
def Seq.lastOpen (q : Seq) (x : Layer) : Option Nat := if x.len % q.t = 0 then none else x.entry (x.len / q.t)

/-- The highest tier with room for a new sheaf of n rows, and its lender in T1; `taken` are places just set aside
(R292) (DESIGN CHOICE, unsafe: log entry 29). -/
def State.placeOne (s : State) (die n : Nat) (taken : List (Nat × Nat)) : Option (Nat × Nat) :=
  let room (t : Nat) : Bool := Config.tierHasRoom (s.free + taken.length) t n
  if room 0 then some (0, 0)
  else match s.freeLender die taken with
    | some l => some (1, l)
    | none =>
      if room 2 then some (2, 0)
      else if room 3 && s.flashFits (n * (1 + (taken.filter fun p => p.1 == 3).length)) then some (3, 0)
      else none

/-- Places for k new sheaves of n rows each. -/
def State.placeAll (s : State) (die n : Nat) : Nat → List (Nat × Nat) → Option (List (Nat × Nat))
  | 0, taken => some taken.reverse
  | k + 1, taken =>
    match s.placeOne die n taken with
    | some p => s.placeAll die n k (p :: taken)
    | none => none

/-- Room for a slab of 2^c entries that doubles until it holds index top (R286). -/
def State.slabRoom (s : State) (c top : Nat) : Bool :=
  (List.range 22).all fun i => decide (i < c) || decide (top < 2 ^ i) || Config.tierHasRoom (s.free + i) 4 (2 ^ (i + 1))

/-- The sheaf at index i of a layer after positions p to p + n - 1 are written from the source rows: `old` is the sheaf
that they join. Rows that came from another module have lost their tags (R404). -/
def State.appended (s : State) (b part : Nat) (a : Word) (p n : Nat) (q : Seq) (old fresh : Sheaf) : Sheaf :=
  let te := q.t * q.e
  let isNew (k : Nat) : Bool := decide (p ≤ fresh.pos k) && decide (fresh.pos k < p + n)
  let src (k : Nat) : Nat := (fresh.pos k - p) * q.e + k % q.e
  let base (k : Nat) : Nat := if k < te then bits a 15 0 else bits a 31 16
  let kept (k : Nat) : Bool := decide (fresh.pos k < p)
  let cell (k : Nat) : RowCell := s.appRow b part a (base k) (src k / 128)
  let gone := (s.pullPort (bankDie b) (seqDie fresh.owner)).isSome
  let x := fresh.putBf16
    (fun k => if isNew k then s.appCode b part a (base k) (src k) else if kept k then old.bf16Code k else 0)
    (fun k => if isNew k then (cell k).poison else kept k && old.elemBad k)
    (fun k => if isNew k then (if gone then 0 else (cell k).rtag) else if kept k then old.elemTag k else 0)
  let y := { x with nvalid := min q.t (p + n - fresh.index * q.t) }
  if y.full ∧ q.fmt ≠ 0 then y.requant q.fmt else y

/-- The last sheaf of a layer that a new token joins, as its entry is resolved: name and sheaf. -/
def State.joins (s : State) (q : Seq) (x : Layer) : Option (Nat × Sheaf) :=
  (q.lastOpen x).bind fun id => (s.sheaf id).map fun y => (id, y.resolved)

/-- An append copies its last sheaf instead of writing it in place (R288). -/
def Sheaf.copied (y : Sheaf) : Bool := decide (1 < y.refs) || y.fmt != 0

/-- An append as far as it has gone: the state, the layer, the places set aside for the sheaves still to come. -/
structure Appending where
  s : State
  x : Layer
  places : List (Nat × Nat)

/-- A new sheaf takes the next place and the entry of index i. -/
def Appending.add (g : Appending) (i : Nat) (z : Sheaf) : Appending :=
  { s := { g.s.tickFree.setSheaf g.s.sheafNext (some z.stamp) with sheafNext := g.s.sheafNext + 1 },
    x := g.x.setEntry i (g.s.sheafNext + 1), places := g.places.drop 1 }

/-- Put sheaf i of layer l after an append: written in place, or a new one; the old reference goes where it was copied. -/
def Appending.sheaf (s0 : State) (b part : Nat) (r : EngRun) (q : Seq) (l p n : Nat) (g : Appending) (i : Nat) : Appending :=
  let z0 := g.s.newSheaf q (seqHandle r.d) l i (g.places.headD (0, 0))
  match if i = p / q.t then s0.joins q (q.layer l) else none with
  | some (id, y) =>
    if !y.copied then
      { g with s := g.s.setSheaf id (some (s0.appended b part r.a p n q y { y with age := g.s.reftime }).stamp) }
    else
      let g1 := g.add i (s0.appended b part r.a p n q y z0)
      { g1 with s := g1.s.dropRef id }
  | none => g.add i (s0.appended b part r.a p n q z0 z0)

/-- The tags of the source rows of an `SQAPP`. -/
def State.appTags (s : State) (b part : Nat) (a : Word) (n : Nat) : List (BitVec 24) :=
  (List.range n).map (fun i => (s.appRow b part a (bits a 15 0) i).rtag) ++
    (List.range n).map fun i => (s.appRow b part a (bits a 31 16) i).rtag

/-- What an `SQAPP` needs set aside as it is accepted: room for its slab, reference counts and places for its new sheaves
(R286, R292). -/
def State.setAside (s : State) (q : Seq) (h l p n : Nat) : Option (List (Nat × Nat)) :=
  let top := (p + n - 1) / q.t
  let copies := match s.joins q (q.layer l) with
    | some (_, y) => b2n y.copied
    | none => 0
  let new := top + 1 - ceilDiv p q.t + copies
  if !s.slabRoom (q.layer l).caplog top || decide (2 ^ 20 < (s.ridxUsed (seqDie h)).length + new) then none
  else s.placeAll (seqDie h) (1 + payloadRows 0 (2 * q.t * q.e)) new []

/-- An accepted `SQAPP`: it waits until its last sheaf is resident and its slab has grown, and is applied as one step; a promotion
that it waited for and that failed is its media fault (R295, R470). -/
def State.append (s : State) (b : Nat) (r : EngRun) (q : Seq) (places : List (Nat × Nat)) : Accept :=
  let h := seqHandle r.d
  let l := seqLayer r.d
  let n := bits r.b 23 0
  let x := q.layer l
  let p := x.len
  let top := (p + n - 1) / q.t
  let waits (s : State) : Accept := .wait (s.queueAt h b ((s.seq h).getD q))
  let moving := (s.joins q x).filter fun y => y.2.st != .resident
  match moving with
  | some (id, y) => if y.failed && r.places.isSome then seqFault 14 else waits (s.promote id)
  | none =>
    if 2 ^ x.caplog ≤ top then
      if x.moved.isSome then waits s
      else waits ((s.setSeq h (some (q.setLayer l { x with caplog := x.caplog + 1, moved := some (0, []) }))).owe
        (.slabRelocationStep h l))
    else
      let g := (List.range (top + 1 - p / q.t)).foldl
        (fun g i => Appending.sheaf s b (s.bank b).part r q l p n g (p / q.t + i)) { s := s, x := x, places := places }
      .done (g.s.changed h b (q.setLayer l { g.x with len := p + n })) none

/-- `SQAPP` at the home: its source rows reach it, past the port's meter; every fault comes before any effect. -/
def State.sqapp (s : State) (b : Nat) (r : EngRun) : Accept :=
  let h := seqHandle r.d
  let l := seqLayer r.d
  let n := bits r.b 23 0
  withSeq s b h fun q0 =>
    if !appRangeOk (some q0) r.a r.b then seqFault 2
    else
      let tags := s.appTags b (s.bank b).part r.a (tokenRows n q0.e)
      match s.leaveAll (s.pullPort (bankDie b) (seqDie h)) (tags.drop r.qout) r.qout with
      | .capped s1 k => .fault (cmdFault 7) (some (s1.putEng b engWK { r with qout := k }))
      | .wait s1 k => .wait (s1.putEng b engWK { r with qout := k })
      | .all s1 =>
        let r1 := { r with qout := tags.length }
        changing (s1.putEng b engWK r1) b h [1] fun q =>
          let s2 := s1.putEng b engWK r1
          let p := (q.layer l).len
          if q.layers ≤ l ∨ 2 ^ 24 ≤ p + n then seqFault 12
          else match r.places with
            | some ps => s2.append b r1 q ps
            | none => if s2.badEntry q l (p / q.t) 1 then .fault entryFault else match s2.setAside q h l p n with
              | none => seqFault 13
              | some ps =>
                let r2 := { r1 with places := some ps }
                ({ s2 with free := s2.free + ps.length + 22 }.putEng b engWK r2).append b r2 q ps

/-! ### SHEAF_COMMAND_ACCEPT for the walker (R281, R282) -/

/-- The references that a walker command reaches. -/
def EngRun.refs (r : EngRun) : List (Word × Nat × Nat × BitVec 3) :=
  match r.op with
  | .sqopen | .sqfork | .sqinfo => [(r.d, 0, 256, 2)]
  | .sqpark => [(r.a, 0, 64, 1)]
  | _ => []

/-- Bank b takes a snapshot of layer l of sequence h: its length, and a hold on each sheaf from index lo on, n at most
(R281). -/
def State.snapshot (s : State) (b h : Nat) (q : Seq) (l lo n : Nat) (r : EngRun) : State × EngRun :=
  let x := q.layer l
  let ids := (x.list q.t).filter fun p => decide (lo ≤ p.1) && decide (p.1 < lo + n)
  let held := ids.filterMap fun p => (s.sheaf p.2).map fun y => (p.1, p.2, y.resolved)
  (ids.foldl (fun s p => s.hold p.2) (s.fillTab (bankCore b) h l (ids.map fun p => p.1)),
   { r with accepted := true, len := x.len, held := held, t := q.t, heads := q.heads, hdim := q.hdim, stype := q.stype })

/-- The home's answer to a walker command other than `ATTNS`. -/
def State.applyWalker (s : State) (b : Nat) (r : EngRun) : Accept :=
  match r.op with
  | .sqopen => s.sqopen b r
  | .sqinfo => s.sqinfo b r
  | .sqapp => s.sqapp b r
  | .sqfork => s.sqfork b r
  | .sqtrunc => s.sqtrunc b r
  | .sqpark => s.sqpark b r
  | .sqwake => s.sqwake b r
  | _ => s.sqclose b r

/-- A command of engine e of bank b reaches a sequence's home once the units of these reads, of its packet and of its service there
have started (R357, R476). A handle that names no die faults without the last two (R295). -/
def State.askHome (s : State) (b e home : Nat) (u : List Nat × List Leg) : Pulled :=
  s.engPull b e ((s.bank b).part % 16)
    (u.1, u.2 ++ if s.dieExists (bankDie b) home then s.wayTo .request (bankDie b) home ++ [.home home] else [])

/-- The home of a walker command. -/
def EngRun.home (r : EngRun) (b : Nat) : Nat :=
  match r.op with
  | .sqopen => bankDie b
  | .sqinfo | .sqfork => seqDie (seqHandle r.a)
  | _ => seqDie (seqHandle r.d)

/-- A walker command stands at its home with its pages pinned. -/
def State.applyAtHome (s : State) (b : Nat) (r : EngRun) : State :=
  if r.op = .attns then
    match s.mySeq b r.d with
    | none => s.failEng b engWK r (cmdFault 10)
    | some q =>
      if q.layers ≤ seqLayer r.d then s.failEng b engWK r (cmdFault 12)
      else if s.badEntry q (seqLayer r.d) (bits r.b 23 0) (bits r.b 47 24) then s.failEng b engWK r entryFault
      else
        let (s2, r2) := s.snapshot b (seqHandle r.d) q (seqLayer r.d) (bits r.b 23 0) (bits r.b 47 24) r
        (s2.putEng b engWK r2).owe (.walkerRetire b)
  else match (s.putEng b engWK { r with sent := true }).applyWalker b { r with sent := true } with
    | .fault f o =>
      let s1 := o.getD s
      (s1.leaveSeqs b).failEng b engWK { ((s1.bank b).eng engWK).getD r with places := none, sent := false, qbad := false } f
    | .wait s2 => s2.owe (.sheafCommandAccept b true)
    | .done s2' row =>
      let r1 := { r with places := none }
      let (s2, r2) := match if r.op = .sqinfo then s2'.seq (seqHandle r.a) else none with
        | some q => s2'.snapshot b (seqHandle r.a) q (seqLayer r.a) 0 (2 ^ 24) r1
        | none => (s2', { r1 with accepted := true })
      match row with
      | none => (s2.putEng b engWK r2).owe (.walkerRetire b)
      | some x =>
        let (s3, r3) := s2.writePinned b engWK r2 (refVa r r.d) x false 0
        (s3.putEng b engWK r3).owe (.walkerRetire b)

/-- A walker command is pinned and reaches the home; `sent`: it has reached it and waits there. -/
def State.acceptWalker (s : State) (b : Nat) (r : EngRun) : State :=
  let again (s : State) (pins : List Pin) : State :=
    (s.putEng b engWK { r with pins := pins, pinning := true }).owe (.sheafCommandAccept b true)
  match s.pinRefs b engWK (s.bank b).part r r.pins r.refs with
  | .fault f s1 => s1.failEng b engWK { r with pinning := false, sent := false } f
  | .wait pins s1 => again s1 pins
  | .ok pins s1 =>
    let reads := if r.op = .sqpark then s1.pinnedLegs b pins [(refVa r r.a, 64)] else ([], [])
    match if r.sent then .done [] s1 else s1.askHome b engWK (r.home b) reads with
    | .wait s2 => again s2 pins
    | .done held s2 => s2.applyAtHome b { r with pins := pins, pinning := false, sent := false, qbad := held != [] || r.qbad }

/-! ### WALKER_RETIRE (R282, R309) -/

/-- The rows of sheaf k of a stream, with poison and region tag. -/
def streamRows (r : EngRun) (k : Nat) : List (Row × Bool × BitVec 24) :=
  let stride := bits r.a 31 16
  let zero : Row × Bool × BitVec 24 := (0, false, 0)
  match r.held.find? fun y => y.1 == bits r.b 23 0 + k with
  | none => List.replicate stride zero
  | some (_, _, x) =>
    let body := (x.header, x.bad.contains 0, x.tag 0) ::
      (List.range (payloadRows x.fmt x.n)).map fun i => (x.rowUpTo r.len i, x.bad.contains (i + 1), x.tag (i + 1))
    (body ++ List.replicate stride zero).take stride

/-- One sheaf of a stream is delivered (R309): its rows leave the home's module in turn, then come. -/
def State.streamStep (s : State) (b : Nat) (r : EngRun) : State :=
  let rows := streamRows r r.k
  let home := seqDie (seqHandle r.d)
  let tier := match r.held.find? fun y => y.1 == bits r.b 23 0 + r.k with
    | some (_, _, x) => x.tier
    | none => 0
  let far := 2 ≤ tier && r.qout == 0
  let s0 := if far then s.tickFree else s
  let port := s0.pullPort home (bankDie b)
  let again (s : State) (n : Nat) : State := (s.putEng b engWK { r with qout := n }).owe (.walkerRetire b)
  if far && Config.mediaError s.free then s0.failEng b engWK r (cmdFault 14)
  else match s0.leaveAll port ((rows.drop r.qout).map fun y => y.2.2) r.qout with
    | .capped s1 _ => s1.failEng b engWK { r with qout := 0 } (cmdFault 7)
    | .wait s1 n => again s1 n
    | .all s1 =>
      match s1.engServe b engWK ((s.bank b).part % 16) [] (.home home :: s1.wayTo .response home (bankDie b)) with
      | (false, s2) => again s2 rows.length
      | (true, s2) =>
        let row := bits r.a 15 0 + r.k * bits r.a 31 16
        let s3 := ((List.range rows.length).zip rows).foldl (fun s p =>
          let tag := if port.isSome then 0 else p.2.2.2
          let c : Carried := { data := natLE 256 p.2.1.toNat, poison := p.2.2.1, tag := tag, die := home, tent := 0 }
          s.landCell (.eng b engWK) (s2.bank b).part (rowKey b (bit r.a 32) (row + p.1)) c) s2
        (s3.putEng b engWK { r with k := r.k + 1, qout := 0 }).owe (.walkerRetire b)

/-- WALKER_RETIRE (R282, R309). -/
def execWalkerRetire (b : Nat) (s : State) : Out :=
  if !validBank b then .fault .noSuchAgent
  else
    let k := s.bank b
    match k.eng engWK with
    | none => .next s
    | some r =>
      if !r.accepted || !k.engGoes r then .next s
      else if r.op = .attns ∧ r.k < bits r.b 47 24 then .next (s.streamStep b r)
      else if 0 < r.wait then .next s
      else match s.retireEng b engWK r with
        | some s1 => .next s1
        | none => .next ((s.heldBack b engWK r).owe (.walkerRetire b))

end Sys2Proof.Machine
end

