-- ==== Sys2Proof/Machine/Gleaner.lean ====
section
/-! DEFINITION. The gleaner port: decode attention and the indexed reduce (spec/09 R181 to R186, spec/14 R294, R295, R305 to
R311). -/

namespace Sys2Proof.Machine

/-! ### At the sequencer (R294, R295, R310) -/

/-- `ATTND` (R305). -/
def execAttnd (x : SXWord) (s : State) : Out :=
  let a := s.reg x.a
  let b := s.reg x.b
  referCommand s engGL x .attnd (seqRegOk (s.reg x.d) true && refOk a false && refOk b false) none [a, b]

def rdxType (d : Word) : Nat := bits d 63 60
def rdxWrows (d : Word) : Nat := bits d 59 56 + 1
def rdxMax (d : Word) : Bool := bits d 55 54 == 1

/-- The types that `RDX` sums. -/
def rdxTypeOk (t : Nat) : Bool := t == 1 || t == 3 || t == 4 || t == 9

/-- `RDX` (R310). -/
def execRdx (x : SXWord) (s : State) : Out :=
  let d := s.reg x.d
  let a := s.reg x.a
  let b := s.reg x.b
  let c := s.reg x.c
  let ok := refOk d true && refOk a false && refOk b true && refOk c true && rdxTypeOk (rdxType d) &&
    decide (bits d 55 54 ≤ 1) && bits d 53 48 == 0 && decide (1 ≤ refX b)
  referCommand s engGL x .rdx ok none [d, a, b, c]

/-! ### Status rows (R307) -/

/-- The output reference of a gleaner command. -/
def EngRun.out (r : EngRun) : Word := if r.op = .rdx then r.c else r.b

/-- A field of the query header (R305). -/
def EngRun.q (r : EngRun) (hi lo : Nat) : Nat := bits (r.qrec.headD 0) hi lo

def EngRun.rsz (r : EngRun) : Nat := r.q 111 104
def EngRun.start (r : EngRun) : Nat := r.q 63 32
def EngRun.heads' (r : EngRun) : Nat := r.heads * r.q 103 96

/-- NR: the number of ranges from START to the end position. -/
def EngRun.ranges (r : EngRun) : Nat :=
  if r.len ≤ r.start ∨ r.rsz = 0 ∨ r.t = 0 then 0 else ((r.len - 1) / r.t - r.start / r.t) / r.rsz + 1

/-- The status row. -/
def EngRun.statusRow (r : EngRun) (status : Nat) : Row :=
  if r.op = .rdx then BitVec.ofNat 2048 (status + at' (refX r.c) 64 + at' (r.k % 2 ^ 32) 128)
  else BitVec.ofNat 2048 (status + at' (r.q 127 112) 64 + at' (r.len % 2 ^ 32) 96 + at' (r.ranges % 2 ^ 32) 128 +
    at' r.done.toNat 1024)

/-- Write the status row of a gleaner command. -/
def State.putStatus (s : State) (b : Nat) (r : EngRun) (status : Nat) : State × EngRun :=
  s.writePinned b engGL r (refVa r r.out) (r.statusRow status) false 0

/-- Owe the retirement event of a gleaner command. -/
def State.oweGl (s : State) (b : Nat) (r : EngRun) : State := s.owe (if r.op = .rdx then .rdxRetire b else .attndRetire b)

/-- A gleaner command as a fault leaves it: one that its home has not accepted reads its query record again. -/
def EngRun.afterFault (r : EngRun) : EngRun := { r with pinning := false, qrec := if r.accepted then r.qrec else [] }

/-- A gleaner command faults: its status row is written first, when its page is pinned (R295, R307). -/
def State.stopGl (s : State) (b : Nat) (r : EngRun) (f : CopyFault) : State :=
  match pinFor r.pins (refVa r r.out) 2 with
  | none => s.failEng b engGL r.afterFault f
  | some _ =>
    let (s1, r1) := s.putStatus b r 2
    (s1.putEng b engGL { r1 with fault := some (f.cls, f.sub, f.walk, f.va), tok := 0, acc := [] }).oweGl b r

/-! ### SHEAF_COMMAND_ACCEPT (R281, R305, R310) -/

/-- Rows of a query head, and of a triple. -/
def queryRows (hdim : Nat) : Nat := ceilDiv hdim 128
def tripleRows (hdim : Nat) : Nat := 1 + ceilDiv hdim 64

/-- What is wrong with a query record for a sequence, its header read. -/
def EngRun.badRecord (r : EngRun) : Bool :=
  r.q 2047 128 != 0 || r.rsz == 0 || r.q 103 96 == 0 || decide (8 < r.q 103 96) || decide (1024 < r.ranges)

/-- A gleaner command goes on pinning and reading. -/
def State.waitGl (s : State) (b : Nat) (r : EngRun) (pins : List Pin) : State :=
  (s.putEng b engGL { r with pins := pins, pinning := true }).owe (.sheafCommandAccept b false)

/-- `ATTND`, its header read, pins what it reads and writes, reads its queries and is accepted; a status row of a fault after the
header has its TAG (R307). -/
def State.acceptQuery (s : State) (b : Nat) (r : EngRun) : State :=
  let part := (s.bank b).part
  match s.mySeq b r.d with
  | none => s.stopGl b r (cmdFault 10)
  | some q =>
    let len := (q.layer (seqLayer r.d)).len
    let r2 := { r with t := q.t, heads := q.heads, hdim := q.hdim }
    let last := if r2.q 95 64 = 0xFFFFFFFF then len else min (r2.q 95 64) len
    let r3 := { r2 with len := last }
    let lo := r3.start / q.t
    let n := if r3.ranges = 0 then 0 else (last - 1) / q.t + 1 - lo
    if q.layers ≤ seqLayer r.d then s.stopGl b r (cmdFault 12)
    else if r3.badRecord then s.stopGl b r3 { cmdFault 9 with va := some (refVa r r.a) }
    else if s.badEntry q (seqLayer r.d) lo n then s.stopGl b r3 entryFault
    else
      let nq := r3.heads' * queryRows q.hdim
      match s.pinRefs b engGL part r3 r.pins [(r.a, 256, 256 * nq, 1),
          (r.b, 0, 256 * (1 + r3.ranges * r3.heads' * tripleRows q.hdim), 2)] with
      | .fault f s1 => s1.stopGl b r3 f
      | .wait p1 s1 => s1.waitGl b r p1
      | .ok p1 s1 =>
        match s1.engPull b engGL part (s1.pinnedLegs b p1 (rowSpans (refVa r r.a + 256) (256 * nq))) with
        | .wait s2 => s2.waitGl b r p1
        | .done held s2 =>
          let (rows, s3) := s2.readRows p1 (refVa r r.a + 256) (256 * nq) held
          let (s4, r4) := s3.snapshot b (seqHandle r.d) q (seqLayer r.d) lo n r3
          (s4.putEng b engGL { r4 with len := last, pins := p1, pinning := false, qrec := r.qrec.take 1 ++ rows.map Carried.row,
                                       qbad := rows.any fun c => c.poison }).owe (.gleanerBlock b)

/-- `ATTND` pins its header and its status row, reaches its home and reads the header (R305). -/
def State.acceptAttnd (s : State) (b : Nat) (r : EngRun) : State :=
  match s.pinRefs b engGL (s.bank b).part r r.pins [(r.b, 0, 256, 2), (r.a, 0, 256, 1)] with
  | .fault f s1 => s1.failEng b engGL r.afterFault f
  | .wait pins s1 => s1.waitGl b r pins
  | .ok pins s1 =>
    let r1 := { r with pins := pins }
    if r.qrec ≠ [] then s1.acceptQuery b r1
    else match s1.askHome b engGL (seqDie (seqHandle r.d)) (s1.pinnedLegs b pins [(refVa r r.a, 256)]) with
      | .wait s2 => s2.waitGl b r pins
      | .done held s2 =>
        let (h, s3) := s2.readPinned pins (refVa r r.a) 256 held
        if h.poison then s3.stopGl b r1 { cmdFault 0 with cls := 8, va := some (refVa r r.a) }
        else s3.acceptQuery b { r1 with qrec := [h.row] }

/-- n bytes from an address, cut where rows end. -/
def byteSpans (va : Int) (n : Nat) : List (Int × Nat) :=
  (List.range (n / 256 + 2)).filterMap fun (i : Nat) =>
    let lo := max va ((va / 256 + i) * 256)
    let hi := min (va + n) ((va / 256 + i + 1) * 256)
    if lo < hi then some (lo, (hi - lo).toNat) else none

/-- The indices that an `RDX` reaches: from its first offset up to its largest, of those that are not poisoned (R311). -/
def indexSpan (xs : List Carried) : Nat × Nat :=
  let ys := (xs.filter fun c => !c.poison).map fun c => leNat c.data
  (ys.headD 0, ys.foldl max 0)

/-- The bag offsets of an `RDX`, as bytes with the poison of their rows. -/
def State.bagOffsets (s : State) (pins : List Pin) (r : EngRun) (held : List Nat) : List Carried × State :=
  (List.range (refX r.b + 1)).foldl (fun (p : List Carried × State) (i : Nat) =>
    let x := p.2.readPinned pins (refVa r r.b + 4 * (i : Int)) 4 held
    (p.1 ++ [x.1], x.2)) ([], s)

/-- `RDX` pins its output, its bag offsets and, by them, its indices, and the first entry of its table. -/
def State.pinRdx (s : State) (b : Nat) (r : EngRun) : Pinning :=
  let part := (s.bank b).part
  let orow := rdxWrows r.d * 32 / Num.widthOf (rdxType r.d)
  match s.pinRefs b engGL part r (if r.pinning then r.pins else [])
      [(r.c, 0, 256 * (1 + refX r.b * orow), 2), (r.d, 0, 256 * rdxWrows r.d, 1), (r.b, 0, 4 * (refX r.b + 1), 1)] with
  | .ok pins s1 =>
    match s1.engPull b engGL part (s1.pinnedLegs b pins (byteSpans (refVa r r.b) (4 * (refX r.b + 1)))) with
    | .wait s2 => .wait pins s2
    | .done held s2 =>
      let (xs, s3) := s2.bagOffsets pins r held
      let (lo, hi) := indexSpan xs
      s3.pinRefs b engGL part r pins [(r.a, 4 * lo, 4 * (hi - lo), 1)]
  | x => x

/-- `RDX` is accepted with its pages. -/
def State.acceptRdx (s : State) (b : Nat) (r : EngRun) : State :=
  match s.pinRdx b r with
  | .fault f s1 => s1.failEng b engGL r.afterFault f
  | .wait pins s1 => s1.waitGl b r pins
  | .ok pins s1 => (s1.putEng b engGL { r with pins := pins, pinning := false, accepted := true }).owe (.rdxRetire b)

/-- SHEAF_COMMAND_ACCEPT (R281): engine WK or GL of bank b takes its next command, which pins its pages and reaches its home;
one that waits tries again. -/
def execSheafCommandAccept (b : Nat) (walker : Bool) (s : State) : Out :=
  if !validBank b then .fault .noSuchAgent
  else
    let e := if walker then engWK else engGL
    let k := s.bank b
    let accept (s : State) (r : EngRun) : State :=
      if walker then s.acceptWalker b r else if r.op = .rdx then s.acceptRdx b r else s.acceptAttnd b r
    match k.eng e with
    | some r =>
      .next (if r.accepted || r.fault.isSome || !k.engGoes r then s
        else if s.packets != [] then s.owe (.sheafCommandAccept b walker) else accept s r)
    | none =>
      if s.packets != [] then .next (if (k.cmdq e).isEmpty then s else s.owe (.sheafCommandAccept b walker))
      else if !k.served || (k.cmdq e).isEmpty then .next s
      else match s.issueEng b e with
        | some (s1, r) => .next (accept s1 r)
        | none => .next (s.owe (.sheafCommandAccept b walker))

/-- A command that a save or a fault stopped pins its pages again. -/
def State.repin (s : State) (b : Nat) (r : EngRun) : Pinning :=
  if r.pins ≠ [] ∧ !r.pinning then .ok r.pins s
  else if r.op = .rdx then s.pinRdx b r
  else s.pinRefs b engGL (s.bank b).part r r.pins [(r.a, 0, 256 * (1 + r.heads' * queryRows r.hdim), 1),
    (r.b, 0, 256 * (1 + r.ranges * r.heads' * tripleRows r.hdim), 2)]

/-! ### GLEANER_BLOCK (R186) -/

/-- The empty triple of a range (R182). -/
def emptyTriple (hdim range : Nat) : List Row :=
  tripleHeader 0xFF800000 0 0 0 0 false range 0 0 :: List.replicate (ceilDiv hdim 64) 0

/-- The NaN triple that a block gives (R182, R186). -/
def nanTriple (hdim n : Nat) (h : Row) : List Row :=
  tripleHeader nan32 nan32 0 (Num.lane h 3) (satSum (Num.lane h 4) n) (bit h 160) (Num.lane h 6) nan32 nan32 ::
    (List.range (ceilDiv hdim 64)).map fun r => Num.mkRow 32 64 fun i => if 64 * r + i < hdim then nan32 else 0

/-- A sum of exact values, from +0 (DESIGN CHOICE, unsafe: log entry 69). -/
def sumFV (xs : List Num.FV) : Num.FV := xs.foldl (Num.add .rne) (.fin false 0 0)

/-- Update a triple with one block: the tokens' scores and values (R186) (DEDUCED, unsafe: log entry 31). -/
def gleanBlock (hdim : Nat) (tr : List Row) (scores : List Nat) (val : Nat → Nat → Num.FV) : List Row :=
  let h := tr.headD 0
  let n := scores.length
  let m := Num.lane h 0
  let special (x : Nat) : Bool := (fv32 x).isNaN || fv32 x == .inf false
  if special m || scores.any special then nanTriple hdim n h
  else
    let mb := scores.foldl (minMaxF Num.f32 true) 0xFF800000
    let m' := minMaxF Num.f32 true m mb
    let ps := scores.map fun x => fv32 (Num.prob x m')
    let pmax := Num.maxAbs ps
    let sg : Int := if pmax.isZero then 0 else Num.log2FV pmax - 7
    let qs := ps.map fun p => Num.round Num.e4m3 .rne true (p.scale (-sg))
    let bigP := qs.map fun q => (Num.value Num.e4m3 q).scale sg
    let c := fv32 (Num.prob m m')
    let l := Num.add .rne (Num.mul c (tripleL h)) (sumFV bigP)
    let pr := normPair l
    let flushed := (qs.filter fun q => q == 0).length
    let acc (d : Nat) : Nat :=
      Num.round Num.f32 .rne false (Num.add .rne (Num.mul c (fv32 (Num.lane (tr.getD (1 + d / 64) 0) (d % 64))))
        (sumFV ((List.range n).map fun i => Num.mul (bigP.getD i .nan) (val i d))))
    tripleHeader m' pr.1 pr.2 (satSum (Num.lane h 3) flushed) (satSum (Num.lane h 4) n) (bit h 160) (Num.lane h 6)
        (Num.lane h 8) (Num.lane h 9) ::
      (List.range (ceilDiv hdim 64)).map fun r => Num.mkRow 32 64 fun i => if 64 * r + i < hdim then acc (64 * r + i) else 0

/-- The positions of range k: first and one past the last (DEDUCED, unsafe: log entry 31). -/
def EngRun.span (r : EngRun) (k : Nat) : Nat × Nat :=
  let i := r.start / r.t + k * r.rsz
  (max r.start (i * r.t), min r.len ((i + r.rsz) * r.t))

/-- The sheaf that holds a position. -/
def EngRun.sheafAt (r : EngRun) (pos : Nat) : Option Sheaf :=
  (r.held.find? fun y => y.1 == pos / r.t).map fun y => y.2.2

/-- Key (v = 0) or value (v = 1) element d of head hk at a position. -/
def EngRun.elem (r : EngRun) (v hk pos d : Nat) : Num.FV :=
  match r.sheafAt pos with
  | some x => x.val (v * (x.t * x.e) + pos % r.t * x.e + hk * r.hdim + d)
  | none => .fin false 0 0

/-- Element d of query j. -/
def EngRun.query (r : EngRun) (j d : Nat) : Num.FV :=
  Num.value Num.bf16 (Num.elem 16 (r.qrec.getD (1 + j * queryRows r.hdim + d / 128) 0) (d % 128))

/-- The score of a position for query j (R186). -/
def EngRun.score (r : EngRun) (j pos : Nat) : Nat :=
  let dot := sumFV ((List.range r.hdim).map fun d => Num.mul (r.query j d) (r.elem 0 (j / r.q 103 96) pos d))
  Num.round Num.f32 .rne false (Num.mul (fv32 (r.q 31 0)) dot)

/-- The triples of the present range after the block of n tokens from position pos. -/
def EngRun.afterBlock (r : EngRun) (pos n : Nat) : List Row :=
  let tr := tripleRows r.hdim
  (List.range r.heads').flatMap fun j =>
    let old := if r.tok = 0 then emptyTriple r.hdim r.k else (r.acc.drop (j * tr)).take tr
    gleanBlock r.hdim old ((List.range n).map fun i => r.score j (pos + i))
      fun i d => r.elem 1 (j / r.q 103 96) (pos + i) d

/-- The die whose gleaners serve a held sheaf, and whose slots they use: its lender's while its entry says T1, its owner's
otherwise (R291, R357). -/
def State.gleanDie (s : State) (id : Nat) (x : Sheaf) : Nat :=
  match s.sheaf id with
  | some y => if x.tier = 1 ∧ y.tier = 1 then x.lender else seqDie x.owner
  | none => seqDie x.owner

/-- The die that serves the next block of a gleaner command. -/
def EngRun.blockDie (s : State) (b : Nat) (r : EngRun) : Nat :=
  match r.held.find? fun y => y.1 == ((r.span r.k).1 + r.tok) / r.t with
  | some y => s.gleanDie y.2.1 y.2.2
  | none => bankDie b

/-- Bank c has a gleaner block that could start on a die now. -/
def State.blockReady (s : State) (c die : Nat) : Bool :=
  match (s.bank c).eng engGL with
  | some r =>
    r.op == .attnd && r.accepted && r.fault.isNone && !r.sent && r.pins != [] && !r.pinning && (s.bank c).engGoes r &&
    decide (r.k < r.ranges) && r.blockDie s c == die
  | none => false

/-- A block of another task of the partition goes before bank b's on a die (R357). -/
def State.blockWaits (s : State) (b die : Nat) : Bool := s.banks.any fun p => s.before die p.1 b && s.blockReady p.1 die

/-- The gleaner that takes a block: one of the 16 of the sheaf's stack that no lasting fault has retired (R15, R306, R450). -/
def State.gleanerOf (s : State) (die stack : Nat) : Nat :=
  let ok := (List.range 16).filter fun g => Assoc.get 0 (s.die die).spares (5 * 2 ^ 16 + 16 * stack + g) == 0
  16 * stack + ok.getD (Config.gleaner s.free % max 1 ok.length) 0

/-- Write rows from row number `at'` of the output on. -/
def State.putOut (s : State) (b : Nat) (r : EngRun) (at' : Nat) (rows : List Row) (poison : Bool) : State × EngRun :=
  ((List.range rows.length).zip rows).foldl (fun (p : State × EngRun) x =>
    p.1.writePinned b engGL p.2 (refVa r r.out + 256 * (at' + x.1)) x.2 poison 0) (s, r)

/-- A sheaf of T2 or T3 is fetched into the staging window of gleaner g of a die: header and payload from row 0 on (R15, R306). -/
def State.stage (s : State) (die g : Nat) (x : Sheaf) : State :=
  { s with glSram := (List.range x.size).foldl (fun m i =>
      Assoc.set RowCell.zero m ((32 * die + g) * 512 + i % 512)
        { data := if i = 0 then x.header else x.row (i - 1), poison := x.bad.contains i, ptag := ptagOf x.part, rtag := x.tag i,
          tent := 0 }) s.glSram }

/-- The staged rows of a gleaner's window, as far as they belong to a sheaf, are poisoned. -/
def State.stagedBad (s : State) (die g : Nat) (x : Sheaf) : Bool :=
  (List.range x.size).any fun i => (Assoc.get RowCell.zero s.glSram ((32 * die + g) * 512 + i % 512)).poison

/-- The units of a block: its command's packet to the die that serves it, the block, the answer (R357). -/
def State.blockLegs (s : State) (b die : Nat) : List Leg :=
  s.wayTo .request (bankDie b) die ++ [.home die] ++ s.wayTo .response die (bankDie b)

/-- One block of the present range; after its last the triples are written. -/
def State.gleanStep (s : State) (b : Nat) (r0 : EngRun) : State :=
  let (lo, hi) := r0.span r0.k
  let pos := lo + r0.tok
  let n := min 64 (hi - pos)
  let range := r0.held.filter fun y => decide (lo / r0.t ≤ y.1) && decide (y.1 ≤ (hi - 1) / r0.t)
  let far := r0.tok == 0 && range.any fun y => decide (2 ≤ y.2.2.tier)
  let die := r0.blockDie s b
  if s.blockWaits b die then s.owe (.gleanerBlock b)
  else match s.engServe b engGL ((s.bank b).part % 16) [] (s.blockLegs b die) with
  | (false, s1) => s1.owe (.gleanerBlock b)
  | (true, s1) =>
    if far && Config.mediaError s1.free then s1.tickFree.stopGl b r0 (cmdFault 14)
    else
      let sheaf := r0.sheafAt pos
      let g := s1.gleanerOf die ((sheaf.map Sheaf.stack).getD 0)
      let r := { r0 with gleaner := g }
      let (s2, bad) := match sheaf.filter fun x => 2 ≤ x.tier with
        | some x => let s2 := s1.tickFree.stage die g x; (s2, s2.stagedBad die g x)
        | none => (s1.tickFree, false)
      let acc := r.afterBlock pos n
      if pos + n < hi then (s2.putEng b engGL { r with acc := acc, tok := r.tok + n }).owe (.gleanerBlock b)
      else
        let poison := r.qbad || bad || range.any fun y => y.2.2.bad != []
        let tr := tripleRows r.hdim
        let (s3, r1) := s2.putOut b r (1 + r.k * r.heads' * tr) acc poison
        (s3.putEng b engGL { r1 with sent := true, acc := [], tok := 0, poisoned := r.poisoned || poison }).owe (.attndRetire b)

/-- GLEANER_BLOCK (R186, R306). -/
def execGleanerBlock (b : Nat) (s : State) : Out :=
  if !validBank b then .fault .noSuchAgent
  else
    let k := s.bank b
    match k.eng engGL with
    | none => .next s
    | some r =>
      if r.op ≠ .attnd ∨ !r.accepted ∨ r.fault.isSome ∨ r.sent ∨ !k.engGoes r then .next s
      else match s.repin b r with
        | .fault f s1 => .next (s1.failEng b engGL r.afterFault f)
        | .wait pins s1 => .next ((s1.putEng b engGL { r with pins := pins, pinning := true }).owe (.gleanerBlock b))
        | .ok pins s1 =>
          let r1 := { r with pins := pins, pinning := false }
          let s2 := s1.putEng b engGL r1
          .next (if r1.ranges ≤ r1.k then s2.owe (.attndRetire b) else s2.gleanStep b r1)

/-! ### ATTND_RETIRE (R307, R308) -/

/-- The end of a gleaner command whose rows all stand: its status row, then its token. -/
def State.endGl (s : State) (b : Nat) (r : EngRun) : State :=
  if !r.sent then
    let (s1, r1) := s.putStatus b r (b2n r.poisoned)
    (s1.putEng b engGL { r1 with sent := true }).oweGl b r
  else match s.retireEng b engGL r with
    | some s1 => s1
    | none => (s.heldBack b engGL r).oweGl b r

/-- A gleaner command that has written its status row at a fault raises it. -/
def State.raiseGl (s : State) (b : Nat) (r : EngRun) (f : Nat × Nat × Nat × Option Int) : State :=
  s.failEng b engGL r.afterFault { cls := f.1, sub := f.2.1, walk := f.2.2.1, va := f.2.2.2 }

/-- ATTND_RETIRE (R307, R308): a range whose triples are performed is done; after the last the status row is written and the
command retires. -/
def execAttndRetire (b : Nat) (s : State) : Out :=
  if !validBank b then .fault .noSuchAgent
  else
    let k := s.bank b
    match k.eng engGL with
    | none => .next s
    | some r =>
      if r.op ≠ .attnd ∨ r.trapped ∨ 0 < r.wait then .next s
      else match r.fault with
        | some f => .next (s.raiseGl b r f)
        | none =>
          if !r.accepted then .next s
          else if r.sent ∧ r.k < r.ranges then
            .next ((s.putEng b engGL { r with done := r.done ||| BitVec.ofNat 1024 (2 ^ r.k), k := r.k + 1, sent := false }).owe
              (.gleanerBlock b))
          else if !k.engGoes r then .next s
          else if r.k < r.ranges then .next (s.owe (.gleanerBlock b))
          else .next (s.endGl b r)

/-! ### RDX_RETIRE (R310, R311) -/

/-- Read rows of a table, cut at rows, by walks of their own, in the HBM of the issuing die (R295). -/
def State.readWalked (s : State) (b : Nat) (caps : List HCap) (v : Word) (va : Int) (n : Nat) :
    Except (CopyFault × State) (Carried × State) :=
  if !rightsOk 1 (capOf caps (refH v)).intent then .error (walkFault 2 va, s)
  else
    (byteSpans va n).foldl (fun (acc : Except (CopyFault × State) (Carried × State)) p => match acc with
      | .error x => .error x
      | .ok (c, s) =>
        match s.engWalk b (s.bank b).part p.1 1 with
        | .error (cause, s1) => .error (walkFault cause p.1, s1)
        | .ok (x, s1) =>
          let pa := leafPa x.leaf x.size p.1.toNat
          if !(isHbm pa && paDie pa == bankDie b) then .error ({ cmdFault 15 with va := some p.1 }, s1)
          else
            let d := s1.engRead [(pa, p.2, leafKey x.leaf)]
            .ok ({ c with data := c.data ++ d.1.data, poison := c.poison || d.1.poison }, d.2))
      (.ok ({ data := [], poison := false, tag := 0, die := 0, tent := 0 }, s))

/-- The units of such a read: each walk, and the burst of each row (R476). -/
def State.walkedLegs (s : State) (b : Nat) (va : Int) (n : Nat) : List Leg :=
  (byteSpans va n).flatMap fun p =>
    s.engLegs b (s.bank b).part p.1 ++
    match s.engWalk b (s.bank b).part p.1 1 with
    | .ok (x, _) => s.readLegs (bankDie b) (leafPa x.leaf x.size p.1.toNat)
    | .error _ => []

/-- The accumulator before the first row (R310). -/
def rdxInit (d : Word) : Nat :=
  if rdxMax d then (if rdxType d = 9 then 2 ^ 31 else 0xFF800000) else 0

/-- One element joins an accumulator. -/
def rdxAdd (d : Word) (acc x : Nat) : Nat :=
  let v := Num.valOf (rdxType d) x
  if rdxType d = 9 then
    if rdxMax d then (if Num.intVal 9 acc < Num.intVal 9 x then x else acc) else (acc + x) % 2 ^ 32
  else if rdxMax d then minMaxF Num.f32 true acc (Num.round Num.f32 .rne false v)
  else Num.round Num.f32 .rne false (Num.add .rne (fv32 acc) v)

/-- The accumulator rows of a bag after one table entry, given as its bytes (DEDUCED, unsafe: log entry 56). -/
def rdxEntry (d : Word) (acc : List Row) (xs : List Byte) : List Row :=
  let w := Num.widthOf (rdxType d)
  let v := leNat xs
  (List.range (rdxWrows d * 32 / w)).map fun r => Num.mkRow 32 64 fun i =>
    rdxAdd d (Num.lane (acc.getD r 0) i) (v / 2 ^ (w * (64 * r + i)) % 2 ^ w)

/-- A 32-bit number that steers an `RDX`: class 8 from a poisoned row (R447). -/
def steer (c : Carried) (va : Int) : Except CopyFault Nat :=
  if c.poison then .error { cmdFault 0 with cls := 8, va := some va } else .ok (leNat c.data)

/-- Read offset i of the bags (DEDUCED, unsafe: log entry 56). -/
def State.bagOffset (s : State) (r : EngRun) (held : List Nat) (i : Nat) : Except CopyFault Nat :=
  let va := refVa r r.b + 4 * i
  steer (s.readPinned r.pins va 4 held).1 va

/-- Where index i lies. -/
def EngRun.indexVa (r : EngRun) (i : Nat) : Int := refVa r r.a + 4 * i

/-- Where entry v of the table lies. -/
def EngRun.entryVa (r : EngRun) (v : Nat) : Int := refVa r r.d + 256 * (rdxWrows r.d * v)

/-- The reads through pins of the present step of an `RDX`, as addresses with lengths, and the table entry that it reads. -/
def State.bagReads (s : State) (r : EngRun) : List (Int × Nat) × Option Nat :=
  let offs := [(refVa r r.b + 4 * r.k, 4), (refVa r r.b + 4 * (r.k + 1), 4)]
  match s.bagOffset r [] r.k, s.bagOffset r [] (r.k + 1) with
  | .ok lo, .ok hi =>
    if lo + r.tok < hi then
      let va := r.indexVa (lo + r.tok)
      (offs ++ [(va, 4)], (steer (s.readPinned r.pins va 4).1 va).toOption)
    else (offs, none)
  | _, _ => (offs, none)

/-- The homes and the units of the present step of an `RDX` (R476). -/
def State.bagLegs (s : State) (b : Nat) (r : EngRun) : List Nat × List Leg :=
  let x := s.bagReads r
  let u := s.pinnedLegs b r.pins x.1
  (u.1, u.2 ++ (match x.2 with
    | some v => s.walkedLegs b (r.entryVa v) (256 * rdxWrows r.d)
    | none => []) ++ [.home (bankDie b)])

/-- The rows that such a step reads are poisoned where they lie if they fail (R445). -/
def State.bagSpoil (s : State) (r : EngRun) : State :=
  ((s.bagReads r).1.flatMap fun x => pinnedParts r.pins 1 x.1 x.2).foldl (fun s q => s.spoil q.1 q.2.2) s

/-- The next table entry of a bag, or its end: the state and the command as they then are. -/
def State.bagStep (s : State) (b : Nat) (r : EngRun) (held : List Nat) : Except (CopyFault × State) State :=
  match s.bagOffset r held r.k, s.bagOffset r held (r.k + 1) with
  | .error f, _ => .error (f, s)
  | _, .error f => .error (f, s)
  | .ok lo, .ok hi =>
    if hi < lo then .error ({ cmdFault 9 with va := some (refVa r r.b + 4 * (r.k + 1)) }, s)
    else
      let orow := rdxWrows r.d * 32 / Num.widthOf (rdxType r.d)
      let acc := if r.tok = 0 then List.replicate orow (Num.mkRow 32 64 fun _ => rdxInit r.d) else r.acc
      if lo + r.tok < hi then
        let va := r.indexVa (lo + r.tok)
        match steer (s.readPinned r.pins va 4 held).1 va with
        | .error f => .error (f, s)
        | .ok v =>
          match s.readWalked b r.caps r.d (r.entryVa v) (256 * rdxWrows r.d) with
          | .error x => .error x
          | .ok (e, s1) =>
            .ok ((s1.putEng b engGL { r with acc := rdxEntry r.d acc e.data, tok := r.tok + 1,
                                             qbad := (decide (0 < r.tok) && r.qbad) || e.poison }).owe (.rdxRetire b))
      else
        let poison := decide (0 < r.tok) && r.qbad
        let (s1, r1) := s.putOut b r (1 + r.k * orow) acc poison
        .ok ((s1.putEng b engGL { r1 with sent := true, acc := [], tok := 0, poisoned := r.poisoned || poison }).owe (.rdxRetire b))

/-- RDX_RETIRE (R310, R311): the next entry of the present bag is taken; a bag whose rows are performed is complete; after the
last the status row is written and the command retires. -/
def execRdxRetire (b : Nat) (s : State) : Out :=
  if !validBank b then .fault .noSuchAgent
  else
    let k := s.bank b
    match k.eng engGL with
    | none => .next s
    | some r =>
      if r.op ≠ .rdx ∨ r.trapped ∨ 0 < r.wait then .next s
      else match r.fault with
        | some f => .next (s.raiseGl b r f)
        | none =>
          let bags := refX r.b
          if !r.accepted then .next s
          else if r.sent ∧ r.k < bags then
            .next ((s.putEng b engGL { r with k := r.k + 1, sent := false }).owe (.rdxRetire b))
          else if !k.engGoes r then .next s
          else if s.packets != [] then .next (s.owe (.rdxRetire b))
          else match s.repin b r with
            | .fault f s1 => .next (s1.failEng b engGL r.afterFault f)
            | .wait pins s1 => .next ((s1.putEng b engGL { r with pins := pins, pinning := true }).owe (.rdxRetire b))
            | .ok pins s1 =>
              let r1 := { r with pins := pins, pinning := false }
              let s2 := s1.putEng b engGL r1
              if bags ≤ r1.k then .next (s2.endGl b r1)
              else match s2.engPull b engGL (k.part % 16) (s2.bagLegs b r1) with
                | .wait s3 => .next (s3.owe (.rdxRetire b))
                | .done held s3 =>
                  match (s3.bagSpoil r1).bagStep b r1 held with
                  | .error (f, s4) => .next (s4.stopGl b r1 f)
                  | .ok s4 => .next s4

end Sys2Proof.Machine
end

