-- ==== Sys2Proof/Machine/Collective.lean ====
section
/-! DEFINITION. The collective port: `COLL`, `RING` and `PLOUGH` (spec/15 R328 to R344). -/

namespace Sys2Proof.Machine

/-! ### Groups (R328 to R330) -/

def grpGid (g : Word) : Nat := bits g 15 0
def grpRoot (g : Word) : Nat := bits g 25 16
def grpBase (g : Word) : Nat := bits g 49 40

/-- The extent of each dimension. -/
def grpExts (g : Word) : List Nat := (List.range 5).map fun d => 2 ^ bits g (31 + 2 * d) (30 + 2 * d)

/-- The members, by ascending die number: dimension 0 varies fastest. -/
def grpDies (g : Word) : Option (List Nat) := dieSet (grpBase g) (bits g 39 30)

/-- Reserved bits, extents, membership of the issuing die and ROOT. -/
def grpOk (die : Nat) (g : Word) (broadcast : Bool) : Bool :=
  bits g 63 50 == 0 && bits g 29 26 == 0 &&
  match grpDies g with
  | some ds => ds.contains die && (if broadcast then ds.contains (grpRoot g) else grpRoot g == 0)
  | none => false

/-- The snake rank over dimensions, highest first: extent and relative coordinate of each (R330). -/
def snake : List (Nat × Nat) → Nat → Nat
  | [], r => r
  | (e, c) :: rest, r => snake rest (r * e + if r % 2 = 1 then e - 1 - c else c)

/-- The rank of a member. -/
def grpRank (g : Word) (die : Nat) : Nat :=
  let c (n d : Nat) : Nat := n / 4 ^ d % 4
  snake ((List.range 5).reverse.map fun d => ((grpExts g).getD d 1, c die d - c (grpBase g) d)) 0

/-- The members by rank. -/
def grpRanked (g : Word) : List Nat :=
  let ds := (grpDies g).getD []
  (List.range ds.length).map fun k => (ds.find? fun d => grpRank g d == k).getD 0

def EngRun.grp (r : EngRun) : Word := if r.op = .plough then r.a else r.c
def EngRun.gid (r : EngRun) : Nat := grpGid r.grp

/-! ### At the sequencer (R331, R335, R339) -/

def collCount (c : Word) : Nat := bits c 63 32
def collType (c : Word) : Nat := bits c 15 12
def collRed (c : Word) : Nat := bits c 10 8
def collOp (c : Word) : Nat := bits c 2 0

/-- B: the bytes of a block. -/
def collBytes (c : Word) : Nat := collCount c * (if collType c = 0 then 8 else Num.widthOf (collType c)) / 8

/-- Whether OP reduces. -/
def collFolds (c : Word) : Bool := collOp c == 0 || collOp c == 2

/-- The control word. -/
def collOk (c : Word) : Bool :=
  let t := collType c
  bits c 31 16 == 0 && bits c 11 11 == 0 && bits c 7 3 == 0 && decide (collOp c ≤ 4) && decide (1 ≤ collCount c) &&
  (if collFolds c then
    (t == 1 || t == 2 || t == 3 || t == 9 || t == 10 || t == 13 || t == 14) && decide (collRed c ≤ (if Num.isF t then 2 else 5))
   else t == 0 && collRed c == 0) &&
  collBytes c % 256 == 0

/-- `COLL` (R331). -/
def execColl (x : SXWord) (s : State) : Out :=
  let d := s.reg x.d
  let a := s.reg x.a
  let b := s.reg x.b
  let ok := refOk d false && refOk a false && collOk b && grpOk (bankDie s.cur) (s.reg x.c) (collOp b == 4)
  referCommand s engCL x .coll ok none [d, a]

/-- `RING` (R335). -/
def execRing (x : SXWord) (s : State) : Out :=
  let d := s.reg x.d
  let a := s.reg x.a
  let ok := refOk d false && refOk a false && seqRegOk (s.reg x.b) true && grpOk (bankDie s.cur) (s.reg x.c) false
  referCommand s engCL x .ring ok none [d, a]

/-- `PLOUGH` (R339). -/
def execPlough (x : SXWord) (s : State) : Out :=
  let d := s.reg x.d
  referCommand s engCL x .plough (refOk d true && grpOk (bankDie s.cur) (s.reg x.a) false) none [d]

/-! ### What members share -/

/-- The issued commands of instance n of a GID: bank and command. -/
def State.instRuns (s : State) (gid n : Nat) : List (Nat × EngRun) :=
  s.banks.filterMap fun p =>
    match p.2.eng engCL with
    | some r => if r.gid = gid ∧ r.inst = n then some (p.1, r) else none
    | none => none

/-- The member of a group at a rank, among some commands. -/
def memberAt (g : Word) (runs : List (Nat × EngRun)) (k : Nat) : Option (Nat × EngRun) :=
  let die := (grpRanked g).getD k 0
  runs.find? fun p => bankDie p.1 == die && p.2.grp == g

/-- Two ranges of addresses share a byte. -/
def clash (va1 : Int) (n1 : Nat) (va2 : Int) (n2 : Nat) : Bool :=
  decide (0 < n1) && decide (0 < n2) && decide (va1 < va2 + n2) && decide (va2 < va1 + n1)

def Land.row (die : Nat) (va : Int) (row : Row) (poison : Bool) : Land :=
  { die := die, way := [], frm := die, va := va, data := natLE 256 row.toNat, poison := poison, tag := 0, tent := 0 }

/-- The next write of a started collective: it goes from where it lies to the member that reads it, to the member that writes
it, over links in its partition's slots, and from there to its home, past the meter of every port (R357, R404, R406); `again`
tries once more. -/
def State.landStep (s : State) (b : Nat) (r : EngRun) (again : Instr) : State :=
  let capped (l : Land) : State := s.failEng b engCL r { cmdFault 7 with va := some l.va }
  match r.lands with
  | [] => s
  | l :: rest =>
    match l.way with
    | n :: way =>
      let legs := (s.wayTo .request l.die n).drop l.hop
      let k := s.strides (b + 1) ((s.bank b).part % 16) legs
      let port := s.pullPort l.die n
      if k < legs.length then (s.putEng b engCL { r with lands := { l with hop := l.hop + k } :: rest }).owe again
      else match s.egress port l.tag with
        | .capped => capped l
        | .wait s1 => s1.owe again
        | .ok s1 =>
          (s1.putEng b engCL
            { r with lands := { l with die := n, way := way, hop := 0, tag := if port.isSome then 0 else l.tag } :: rest }).owe again
    | [] =>
      let port := match pinnedParts r.pins 2 l.va l.data.length with
        | (pa, _) :: _ => s.portOf l.die pa
        | [] => none
      match s.egress port l.tag with
      | .capped => capped l
      | .wait s1 => s1.owe again
      | .ok s1 =>
        let (s2, r1) := s1.writeVia b engCL r l.va
          { data := l.data, poison := l.poison, tag := l.tag, die := l.frm, tent := l.tent, chk := l.chk }
        (s2.putEng b engCL { r1 with lands := rest, poisoned := r1.poisoned || l.poison }).owe again

/-! ### COLL (R332 to R334) -/

/-- Whether rank k's source is read. -/
def EngRun.reads (r : EngRun) (die : Nat) : Bool := collOp r.b != 4 || die == grpRoot r.grp

/-- The number of members. -/
def EngRun.p (r : EngRun) : Nat := ((grpDies r.grp).getD []).length

/-- Bytes of the source and of the destination. -/
def EngRun.srcBytes (r : EngRun) : Nat :=
  collBytes r.b * (if collOp r.b = 2 ∨ collOp r.b = 3 then r.p else 1)

def EngRun.dstBytes (r : EngRun) : Nat :=
  collBytes r.b * (if collOp r.b = 1 ∨ collOp r.b = 3 then r.p else 1)

/-- The references that a `COLL` pins. -/
def collRefs (r : EngRun) (die : Nat) : List (Word × Nat × Nat × BitVec 3) :=
  (if r.reads die then [(r.a, 0, r.srcBytes, 1)] else []) ++ [(r.d, 0, r.dstBytes, 2)]

/-- An overlap that R332 does not allow. -/
def collOverlap (r : EngRun) (die : Nat) : Bool :=
  let va := refVa r r.a
  let vd := refVa r r.d
  r.reads die && clash va r.srcBytes vd r.dstBytes && !((collOp r.b == 0 || collOp r.b == 4) && va == vd)

/-- Fold each dimension in turn, the first fastest (R333). -/
def foldDims (f : Nat → Nat → Nat) : List Nat → List Nat → List Nat
  | [], vs => vs
  | e :: es, vs => foldDims f es ((List.range (vs.length / e)).map fun i => foldElems f ((vs.drop (e * i)).take e))

/-- The fold of one element's values over the members (R333); a NaN that it delivers is canonical (R109). -/
def collFold (t red : Nat) (exts vs : List Nat) : Nat :=
  if red = 0 && Num.isF t then
    let add (x y : Nat) : Nat := Num.round Num.f32 .rne false (Num.add .rne (fv32 x) (fv32 y))
    let x := (foldDims add exts (vs.map fun v => Num.round Num.f32 .rne false (Num.valOf t v))).headD 0
    Num.round ((Num.fmtOf t).getD Num.f32) .rne false (fv32 x)
  else
    let x := (foldDims (reduceOp t red) exts vs).headD 0
    if Num.isF t && (Num.valOf t x).isNaN then Num.nanCode ((Num.fmtOf t).getD Num.f32) else x

/-- The fold of the members' rows. -/
def collFoldRow (t red : Nat) (exts : List Nat) (rows : List Row) : Row :=
  let w := Num.widthOf t
  Num.mkRow w (2048 / w) fun i => collFold t red exts (rows.map fun x => Num.elem w x i)

/-- Rows of the members' sources, by ascending die. -/
abbrev Sources := List (Nat × List Carried)

/-- The fold of every member's rows from row `lo` on, n of them. -/
def collFolded (r : EngRun) (src : Sources) (die lo n : Nat) : List Land :=
  (List.range n).map fun (i : Nat) =>
    let cs := src.map fun p => p.2.getD (lo + i) zeroRow
    { Land.row die (refVa r r.d + 256 * (i : Int))
        (collFoldRow (collType r.b) (collRed r.b) (grpExts r.grp) (cs.map Carried.row)) (cs.any fun c => c.poison) with
      tent := (cs.map Carried.tent).foldl max 0 }

/-- Rows that are tentative on different packets would be folded into one (R323). -/
def foldMixed (r : EngRun) (src : Sources) : Bool :=
  collFolds r.b && (List.range (r.srcBytes / 256)).any fun i =>
    decide (1 < ((src.map fun p => (p.2.getD i zeroRow).tent).filter fun t => t != 0).eraseDups.length)

/-- Rows that move as they are, from the member on a die to place `at0` of the destination of the member on `me`. -/
def collMoved (r : EngRun) (me die at0 : Nat) (cs : List Carried) : List Land :=
  ((List.range cs.length).zip cs).map fun p =>
    { die := p.2.die, way := [die, me], frm := p.2.die, va := refVa r r.d + 256 * ((at0 + p.1 : Nat) : Int), data := p.2.data, poison := p.2.poison,
      tag := p.2.tag, tent := p.2.tent, chk := p.2.chk }

/-- The first dimension in which a group folds, and the die to which a member's values go in it (R333). -/
def foldTo (g : Word) (die : Nat) : Nat :=
  match [0, 1, 2, 3, 4].find? fun d => decide (1 < (grpExts g).getD d 1) with
  | some d => setCoord die d (coord (grpBase g) d)
  | none => die

/-- The rows that a reduction folds leave packages, with their tags, towards the members that fold them: the die of each row's
member, the port, the tag (R403, R404) (DEDUCED, unsafe: log entry 36). -/
def State.foldTolls (s : State) (g : Word) (src : Sources) : List (Nat × Nat × BitVec 24) :=
  src.flatMap fun p => p.2.filterMap fun c =>
    match s.pullPort c.die p.1 with
    | some port => some (p.1, port, c.tag)
    | none => (s.pullPort p.1 (foldTo g p.1)).map fun port => (p.1, port, c.tag)

/-- What paying for rows that leave comes to: all have left; the next waits; or that of a die may not leave. -/
inductive Paid where
  | all (s : State)
  | wait (s : State) (n : Nat)
  | capped (s : State) (n die : Nat)

/-- Rows leave in turn, n before (R405, R406). -/
def State.payTolls (s : State) : List (Nat × Nat × BitVec 24) → Nat → Paid
  | [], _ => .all s
  | (die, port, tag) :: ts, n =>
    match s.egress (some port) tag with
    | .ok s1 => s1.payTolls ts (n + 1)
    | .wait s1 => .wait s1 n
    | .capped => .capped s n die

/-- What the member on a die writes (R332). -/
def collLands (r : EngRun) (src : Sources) (die : Nat) : List Land :=
  let n := collBytes r.b / 256
  let k := grpRank r.grp die
  match collOp r.b with
  | 0 => collFolded r src die 0 n
  | 1 => src.flatMap fun p => collMoved r die p.1 (grpRank r.grp p.1 * n) p.2
  | 2 => collFolded r src die (k * n) n
  | 3 => src.flatMap fun p => collMoved r die p.1 (grpRank r.grp p.1 * n) ((p.2.drop (k * n)).take n)
  | _ => (src.filter fun p => p.1 == grpRoot r.grp).flatMap fun p => collMoved r die p.1 0 p.2

/-! ### RING (R335 to R338) -/

def EngRun.tstart (r : EngRun) : Nat := r.q 191 128
def EngRun.stept (r : EngRun) : Nat := r.q 223 192
def EngRun.final (r : EngRun) : Nat := r.tstart + r.q 255 224

/-- What is wrong with a `RING`'s query record, its header read. -/
def EngRun.badRing (r : EngRun) : Bool :=
  r.q 2047 256 != 0 || r.rsz == 0 || r.q 103 96 == 0 || decide (8 < r.q 103 96) || decide (1024 < r.ranges) ||
  r.stept == 0 || decide (r.q 255 224 < r.p * r.stept)

/-- The rows of the member's output before its status row counts as one: three, J results, P slots of J (R337). -/
def EngRun.ringRows (r : EngRun) : Nat := 3 + (1 + r.p) * r.heads' * tripleRows r.hdim

/-- The references that a `RING` pins once its header is known. -/
def ringRefs (r : EngRun) : List (Word × Nat × Nat × BitVec 3) :=
  [(r.a, 0, 256 * (1 + r.heads' * queryRows r.hdim), 1), (r.d, 0, 256 * r.ringRows, 2)]

/-- Merge two triples of the same query (R184). -/
def mergeTriple (hdim : Nat) (x y : List Row) : List Row :=
  let h := mergeHeader (x.headD 0) (y.headD 0)
  h :: (List.range (ceilDiv hdim 64)).map fun r => Num.mkRow 32 64 fun i =>
    if 64 * r + i < hdim then
      mergeAcc (Num.lane h 8) (Num.lane h 9) (Num.lane (x.getD (1 + r) 0) i) (Num.lane (y.getD (1 + r) 0) i)
    else 0

/-- Merge triples of several queries, query by query. -/
def mergeTriples (hdim n : Nat) (x y : List Row) : List Row :=
  let tr := tripleRows hdim
  (List.range n).flatMap fun j => mergeTriple hdim ((x.drop (j * tr)).take tr) ((y.drop (j * tr)).take tr)

/-- Change every header of the triples of several queries. -/
def mapHeaders (hdim n : Nat) (f : Row → Row) (x : List Row) : List Row :=
  let tr := tripleRows hdim
  (List.range n).flatMap fun j => f (x.getD (j * tr) 0) :: ((x.drop (j * tr + 1)).take (tr - 1))

/-- The empty triples of n queries. -/
def emptyTriples (hdim n range : Nat) : List Row := (List.range n).flatMap fun _ => emptyTriple hdim range

/-- The triples of range k (R186). -/
def EngRun.rangeTriples (r : EngRun) (k : Nat) : List Row :=
  let (lo, hi) := r.span k
  (List.range (ceilDiv (hi - lo) 64)).foldl (fun acc i =>
    EngRun.afterBlock { r with k := k, tok := 64 * i, acc := acc } (lo + 64 * i) (min 64 (hi - lo - 64 * i)))
    (emptyTriples r.hdim r.heads' k)

/-- The triples of shard k for an owner's queries: ranges merged in ascending order, RANGE set to k (R336). -/
def shardTriples (shard owner : EngRun) (k : Nat) : List Row :=
  let r := { shard with qrec := shard.qrec.headD 0 :: owner.qrec.drop 1 }
  let n := r.heads'
  match (List.range r.ranges).map r.rangeTriples with
  | [] => emptyTriples r.hdim n k
  | t :: ts => mapHeaders r.hdim n (fun h => setBits h 223 192 k) (ts.foldl (mergeTriples r.hdim n) t)

/-- Lands of rows from row `at0` of the output on; they stand at the owner's die and come from another (R322). -/
def outLands (r : EngRun) (die frm at0 : Nat) (rows : List Row) (poison : Bool) : List Land :=
  ((List.range rows.length).zip rows).map fun p =>
    { Land.row die (refVa r r.d + 256 * ((at0 + p.1 : Nat) : Int)) p.2 poison with frm := frm }

def Inst.has (i : Inst) (owner shard : Nat) : Bool := i.slots.any fun x => x.owner == owner && x.shard == shard

/-- Whether a shard's triples have reached an owner, in time or not. -/
def Inst.delivered (i : Inst) (owner shard : Nat) : Bool := i.has owner shard || i.disc.contains (owner, shard)

/-- The slots of an owner, by ascending shard. -/
def Inst.present (i : Inst) (p owner : Nat) : List Slab :=
  (List.range p).filterMap fun k => i.slots.find? fun x => x.owner == owner && x.shard == k

/-- A row with one bit for each of some numbers. -/
def bitRow (ks : List Nat) : Row := BitVec.ofNat 2048 ((ks.map fun k => 2 ^ k).foldl Nat.lor 0)

def Inst.lates (i : Inst) (owner : Nat) : List Nat := (i.late.filter fun x => x.1 == owner).map fun x => x.2

/-- The results that an owner merges (R338). -/
def ringResults (r : EngRun) (ps : List Slab) : List Row :=
  let n := r.heads'
  let whole := decide (ps.length = r.p)
  let rows := match ps with
    | [] => emptyTriples r.hdim n 0
    | x :: xs => xs.foldl (fun acc y => mergeTriples r.hdim n acc y.rows) x.rows
  if whole then rows else mapHeaders r.hdim n (fun h => setBits h 160 160 1) rows

/-- The status row of an owner (R337). -/
def ringStatus (r : EngRun) (i : Inst) (owner : Nat) : Row :=
  let ps := i.present r.p owner
  BitVec.ofNat 2048 (b2n (ps.any fun x => x.poison) + at' (b2n (decide (ps.length < r.p))) 1 +
    at' (i.lates owner).length 32 + at' (r.p - ps.length) 48 + at' (i.disc.filter fun x => x.1 == owner).length 64 +
    at' (r.q 127 112) 112)

/-- Replace the instance at place j. -/
def State.setInst (s : State) (j : Nat) (i : Inst) : State := { s with insts := s.insts.set j i }

/-- Owner b merges: its results, PRESENT and LATE are to be written (R338). -/
def State.mergeOwner (s : State) (j : Nat) (i : Inst) (owner b : Nat) (r : EngRun) : State :=
  let ps := i.present r.p owner
  let die := bankDie b
  let poison := ps.any fun x => x.poison
  let ls := outLands r die die 3 (ringResults r ps) poison ++
    outLands r die die 1 [bitRow (ps.map fun x => x.shard), bitRow (i.lates owner)] false
  ((s.setInst j { i with merged := i.merged ++ [owner] }).putEng b engCL { r with lands := r.lands ++ ls }).owe (.collectiveRetire b)

/-- The instance of a `RING` that a member belongs to: its place. -/
def State.instOf (s : State) (r : EngRun) : Option Nat :=
  s.insts.findIdx? fun i => i.gid == r.gid && i.nth == r.inst && i.grp == r.grp

/-- The owner whose block a shard serves next: the block of owner o comes at step (k - o) mod P. -/
def Inst.nextOwner (i : Inst) (p k : Nat) : Option Nat :=
  ((List.range p).map fun st => (k + p - st) % p).find? fun o => !i.delivered o k

/-- Owe the arrival that shard b works on. -/
def State.oweArrival (s : State) (i : Inst) (p k : Nat) : State :=
  match i.nextOwner p k with
  | some o => s.owe (.ringTripleArrival i.gid i.nth o k)
  | none => s

/-- A triple of shard k reaches an owner (R336 to R338). -/
def State.ringArrive (s : State) (j : Nat) (i : Inst) (owner k : Nat) (shardRun : Nat × EngRun) (ownerRun : Option (Nat × EngRun)) :
    State :=
  let bk := shardRun.1
  let rk := shardRun.2
  let discard (s : State) (i : Inst) : State :=
    let s1 := s.setInst j { i with disc := i.disc ++ [(owner, k)] }
    let s2 := match ownerRun with
      | some (bo, _) =>
        (s1.modBank bo fun x => x.setEng engCL ((x.eng engCL).map fun (r : EngRun) => { r with sent := false })).owe (.collectiveRetire bo)
      | none => s1
    s2.owe (.collectiveRetire bk)
  if owner ∈ i.merged then discard s i
  else match ownerRun with
    | none => discard s i
    | some (bo, ro) =>
      if rk.final < s.reftime then
        discard (s.mergeOwner j i owner bo ro) { i with merged := i.merged ++ [owner] }
      else
        let step := (k + rk.p - owner) % rk.p
        let late := decide (rk.tstart + (step + 1) * rk.stept - 1 < s.reftime)
        let far := rk.held.any fun y => decide (2 ≤ y.2.2.tier)
        let s0 := if far then s.tickFree else s
        let poison := (far && Config.mediaError s.free) || ro.qbad || rk.held.any fun y => y.2.2.bad != []
        let rows := shardTriples rk ro k
        let x : Slab := { owner := owner, shard := k, rows := rows, poison := poison }
        let i1 := { i with slots := i.slots ++ [x], late := if late then i.late ++ [(owner, k)] else i.late }
        let tr := tripleRows ro.hdim
        let ls := outLands ro (bankDie bo) (bankDie bk) (3 + (1 + k) * ro.heads' * tr) rows poison
        (((s0.setInst j i1).putEng bo engCL { ro with lands := ro.lands ++ ls }).owe (.collectiveRetire bo)).owe (.collectiveRetire bk)

/-- The port by which an owner's query block leaves the package on its way round the ring to shard k, if it leaves on the last
hop with its tags (R336, R404). -/
def State.ringPort (s : State) (r : EngRun) (owner k : Nat) : Option Nat :=
  let die (i : Nat) : Nat := (grpRanked r.grp).getD ((owner + i) % r.p) 0
  let hop (i : Nat) : Option Nat := s.portOf (die i) (at' (die (i + 1)) 37)
  let n := (k + r.p - owner) % r.p
  if n = 0 || (List.range (n - 1)).any fun i => (hop i).isSome then none else hop (n - 1)

/-- The units of a block on its way from its owner to a shard, of the shard's gleaners, and of the triples (R357)
(DEDUCED, unsafe: log entry 66). -/
def State.ringLegs (s : State) (bo bk : Nat) : List Leg :=
  s.wayTo .request (bankDie bo) (bankDie bk) ++ [.home (bankDie bk)] ++ s.wayTo .request (bankDie bk) (bankDie bo)

/-- RING_TRIPLE_ARRIVAL (R336 to R338, R406): the triples that a shard has computed for an owner's query block arrive. -/
def execRingTripleArrival (gid nth owner shard : Nat) (s : State) : Out :=
  let runs := (s.instRuns gid nth).filter fun p => p.2.started && p.2.op == .ring
  let open' (i : Inst) : Bool :=
    i.gid == gid && i.nth == nth && !i.delivered owner shard && (memberAt i.grp runs shard).isSome &&
    decide (owner < (grpRanked i.grp).length) && decide (shard < (grpRanked i.grp).length)
  match s.insts.findIdx? open' with
  | none => .next s
  | some j =>
    match s.insts[j]? with
    | none => .next s
    | some i =>
      match memberAt i.grp runs shard with
      | none => .next s
      | some (bk, rk) =>
        let again := s.owe (.ringTripleArrival gid nth owner shard)
        let run := memberAt i.grp runs owner
        if s.reftime < rk.tstart then .next again
        else if rk.final < s.reftime || i.merged.contains owner then .next (s.ringArrive j i owner shard (bk, rk) run)
        else match run with
          | some (bo, ro) =>
            let hold (s : State) (n : Nat) : State :=
              (s.putEng bo engCL { ro with qout := n }).owe (.ringTripleArrival gid nth owner shard)
            if ro.trapped then .next again
            else match s.leaveAll (s.ringPort ro owner shard) (ro.qtags.drop ro.qout) ro.qout with
              | .wait s1 n => .next (hold s1 n)
              | .capped s1 n =>
                .next ((hold s1 n).failEng bo engCL { ro with qout := n }
                  { cmdFault 7 with va := some (refVa ro ro.a + 256 * (1 + (n : Int))) })
              | .all s1 =>
                match s1.serve (agentEng bk engCL) (bk + 1) ((s.bank bk).part % 16) (s1.ringLegs bo bk) with
                | (false, s2) => .next (hold s2 ro.qtags.length)
                | (true, s2) =>
                  let ro1 := { ro with qout := 0 }
                  .next ((s2.putEng bo engCL ro1).ringArrive j i owner shard
                    (bk, if bk = bo then ro1 else rk) (some (bo, ro1)))
          | none => .next (s.ringArrive j i owner shard (bk, rk) run)

/-- RING_FINAL_TIMEOUT (R338): at TSTART + FINALT an owner merges what has come. -/
def execRingFinalTimeout (gid nth owner : Nat) (s : State) : Out :=
  let runs := (s.instRuns gid nth).filter fun p => p.2.started && p.2.op == .ring
  let due (i : Inst) : Bool :=
    i.gid == gid && i.nth == nth && !i.merged.contains owner &&
    match memberAt i.grp runs owner with
    | some (_, r) => decide (owner < r.p) && decide (r.final ≤ s.reftime)
    | none => false
  match s.insts.findIdx? due with
  | none => .next s
  | some j =>
    match s.insts[j]? with
    | none => .next s
    | some i =>
      match memberAt i.grp runs owner with
      | none => .next s
      | some (b, r) => .next (runs.foldl (fun s p => s.owe (.collectiveRetire p.1)) (s.mergeOwner j i owner b r))

/-! ### PLOUGH: its descriptor (R339) -/

def EngRun.desc (r : EngRun) (hi lo : Nat) : Nat := bits (r.qrec.headD 0) hi lo

/-- A memory reference of the descriptor. -/
def EngRun.descRef (r : EngRun) (lo : Nat) : Word := BitVec.ofNat 64 (r.desc (lo + 63) lo)

def EngRun.recBytes (r : EngRun) : Nat := 2 ^ (r.desc 14 12 + 4)
def EngRun.nrec (r : EngRun) : Nat := r.desc 703 672
def EngRun.rcap (r : EngRun) : Nat := r.desc 735 704
def EngRun.hcap (r : EngRun) : Nat := r.desc 767 736
def EngRun.nax (r : EngRun) : Nat := r.desc 17 16
def EngRun.lmode (r : EngRun) : Nat := r.desc 19 18
def EngRun.loff (r : EngRun) : Nat := r.desc 71 64
def EngRun.aoff (r : EngRun) (a : Nat) : Nat := r.desc (79 + 8 * a) (72 + 8 * a)

/-- Bytes of a load field. -/
def EngRun.loadBytes (r : EngRun) : Nat := if r.lmode = 1 then 2 else if r.lmode = 2 then 4 else 0

/-- The five references: where each stands in the descriptor. -/
def ploughRefs : List Nat := [768, 832, 896, 960, 1024]

/-- Codes, offsets and references that the descriptor may hold (DEDUCED, unsafe: log entry 33). -/
def ploughOk (k : Bank) (r : EngRun) : Bool :=
  let size := r.recBytes
  decide (r.desc 14 12 ≤ 4) && decide (1 ≤ r.nax) && r.lmode != 3 &&
  ((List.range r.nax).all fun a => r.aoff a % 4 == 0 && decide (r.aoff a + 4 ≤ size)) &&
  (r.loadBytes == 0 || (r.loff % r.loadBytes == 0 && decide (r.loff + r.loadBytes ≤ size))) &&
  ploughRefs.all fun lo => refOk (r.descRef lo) false && (k.handle (refH (r.descRef lo))).st != .invalid

/-- BASE and INTENT of the handles that the descriptor names, as they stand (R388). -/
def descCaps (k : Bank) (r : EngRun) : List HCap :=
  (ploughRefs.map fun lo => refH (r.descRef lo)).eraseDups.map fun h =>
    { h := 16 + h, base := (k.handle h).base, intent := (k.handle h).intent }

/-- The command as its descriptor's references see it. -/
def EngRun.inner (r : EngRun) : EngRun :=
  { r with caps := (r.caps.filter fun c => decide (16 ≤ c.h)).map fun c => { c with h := c.h - 16 } }

/-- The address of a reference of the descriptor. -/
def EngRun.descVa (r : EngRun) (lo : Nat) : Int := refVa r.inner (r.descRef lo)

/-- N of a ring header, for its span. -/
def ringSpan (h : Nat) : Nat := if 1 ≤ h % 32 ∧ h % 32 ≤ 16 then 64 + 32 * 2 ^ (h % 32) else 64

/-- The spans of the five areas; `ring`: that of the ring. -/
def ploughSpans (r : EngRun) (ring : Nat) : List (Int × Nat) :=
  [(r.descVa 768, r.nrec * r.recBytes), (r.descVa 832, r.rcap * r.recBytes), (r.descVa 896, r.hcap * r.recBytes),
   (r.descVa 1024, 32 * r.p), (r.descVa 960, ring)]

/-- Some two of the spans overlap. -/
def spansClash : List (Int × Nat) → Bool
  | [] => false
  | x :: xs => xs.any (fun y => clash x.1 x.2 y.1 y.2) || spansClash xs

/-- What a `PLOUGH` pins through its descriptor. -/
def ploughPins (r : EngRun) : List (Word × Nat × Nat × BitVec 3) :=
  [(r.descRef 768, 0, r.nrec * r.recBytes, 3), (r.descRef 832, 0, r.rcap * r.recBytes, 2),
   (r.descRef 896, 0, r.hcap * r.recBytes, 2), (r.descRef 1024, 0, 32 * r.p, 2), (r.descRef 960, 0, 64, 2)]

/-- The ring of a `PLOUGH`: its header's physical address, the end of its page, its key id. -/
def ploughRing (r : EngRun) : Option (Nat × Nat × Nat) :=
  (pinFor r.pins (r.descVa 960) 2).map fun p =>
    (leafPa p.leaf p.size (r.descVa 960).toNat, leafFrame p.leaf * 65536 + pageBytes p.size, leafKey p.leaf)

/-- LOG2N and the rest of the ring header, read at its home. -/
def State.ringHead (s : State) (r : EngRun) : Nat :=
  match ploughRing r with
  | some (pa, _, key) => leNat (s.engBytes pa 64 key).data
  | none => 0

/-! ### Keys, furrows and places (R340 to R342) -/

/-- Bit b of axis i, interleaved. -/
def morton (x : List Nat) : Nat :=
  let n := x.length
  ((List.range 21).flatMap fun b => (List.range n).map fun i =>
    b2n (Nat.testBit (x.getD i 0) b) * 2 ^ (n * b + n - 1 - i)).foldl (fun a b => a + b) 0

/-- One round of the transposition: Q = 2^q over axes i. -/
def hilbertRound (q : Nat) (x : List Nat) (i : Nat) : List Nat :=
  let p := 2 ^ q - 1
  if Nat.testBit (x.getD i 0) q then x.set 0 (x.getD 0 0 ^^^ p)
  else
    let t := (x.getD 0 0 ^^^ x.getD i 0) &&& p
    let y := x.set 0 (x.getD 0 0 ^^^ t)
    y.set i (y.getD i 0 ^^^ t)

/-- Skilling's transposition, then Morton (R340). -/
def hilbert (x : List Nat) : Nat :=
  let n := x.length
  let qs := (List.range 20).map fun j => 20 - j
  let x1 := qs.foldl (fun x q => (List.range n).foldl (hilbertRound q) x) x
  let x2 := (List.range (n - 1)).foldl (fun x i => x.set (i + 1) (x.getD (i + 1) 0 ^^^ x.getD i 0)) x1
  let t := qs.foldl (fun t q => if Nat.testBit (x2.getD (n - 1) 0) q then t ^^^ (2 ^ q - 1) else t) 0
  morton (x2.map fun v => v ^^^ t)

/-- A record on its way: the rank that held it, its index, key, load and contents. -/
structure Plant where
  rank : Nat
  index : Nat
  key : Nat
  load : Nat
  c : Carried
  deriving DecidableEq, Repr

/-- The records of a member. -/
def State.plants (s : State) (k : Nat) (r : EngRun) : List Plant :=
  let num (c : Carried) (off n : Nat) : Nat := leNat ((c.data.drop off).take n)
  (List.range r.nrec).map fun i =>
    let c := (s.readPinned r.pins (r.descVa 768 + (i * r.recBytes : Nat)) r.recBytes).1
    let xs := (List.range r.nax).map fun a => num c (r.aoff a) 4 % 2 ^ 21
    { rank := k, index := i, key := if r.desc 15 15 = 1 then hilbert xs else morton xs,
      load := if r.loadBytes = 0 then 1 else num c r.loff r.loadBytes, c := c }

/-- The load of a record: 1 when the total is 0. -/
def loadOf (tot : Nat) (x : Plant) : Nat := if tot = 0 then 1 else x.load

def sumNat (xs : List Nat) : Nat := xs.foldl (fun a b => a + b) 0

/-- K_f: the least key k with P W(k) at least f Ltot (R341). -/
def furrowStart (xs : List Plant) (p f : Nat) : Nat :=
  let tot := sumNat (xs.map fun x => x.load)
  let ltot := sumNat (xs.map (loadOf tot))
  let upTo (key : Nat) : Nat := sumNat ((xs.filter fun x => decide (x.key ≤ key)).map (loadOf tot))
  if f = 0 then 0
  else match ((xs.filter fun x => decide (f * ltot ≤ p * upTo x.key)).map fun x => x.key).min? with
    | some key => key + 1
    | none => 0

/-- The furrow of a key. -/
def furrowOf (starts : List Nat) (key : Nat) : Nat :=
  ((List.range starts.length).filter fun f => decide (starts.getD f 0 ≤ key)).foldl max 0

/-- Where the records of a receiver go, in their order: its receive area, its headland, refused. -/
def incoming (xs : List Plant) (starts : List Nat) (k : Nat) (r : EngRun) : List Plant × List Plant × List Plant :=
  let mine := xs.filter fun x => furrowOf starts x.key == k
  (mine.take r.rcap, (mine.drop r.rcap).take r.hcap, mine.drop (r.rcap + r.hcap))

/-- Records in a row from an address on. -/
def plantLands (dies : List Nat) (die : Nat) (va : Int) (size : Nat) (xs : List Plant) : List Land :=
  ((List.range xs.length).zip xs).map fun p =>
    { die := p.2.c.die, way := [dies.getD p.2.rank 0, die], frm := p.2.c.die, va := va + (p.1 * size : Nat),
      data := p.2.c.data, poison := p.2.c.poison, tag := p.2.c.tag, tent := p.2.c.tent, chk := p.2.c.chk }

/-- What the exchange of counts fixes for one member (R342, R343). -/
structure Furrow where
  klo : Nat
  recv : List Plant
  headin : List Plant
  refused : Nat
  rhead : List Plant
  kept : List Plant
  nrec : Nat
  deriving DecidableEq, Repr

/-- The placement of every record: members by rank (DEDUCED, unsafe: log entry 33). -/
def furrows (xs : List Plant) (runs : List EngRun) : List Furrow :=
  let p := runs.length
  let starts := (List.range p).map (furrowStart xs p)
  let ins := ((List.range p).zip runs).map fun q => incoming xs starts q.1 q.2
  let refused := ins.flatMap fun x => x.2.2
  ((List.range p).zip (runs.zip ins)).map fun (k, r, i) =>
    let own := xs.filter fun x => x.rank == k && refused.contains x
    let room := r.hcap - i.2.1.length
    { klo := starts.getD k 0, recv := i.1, headin := i.2.1, refused := i.2.2.length, rhead := own.take room,
      kept := own.drop room, nrec := r.nrec }

/-- An entry of the count table (R343). -/
def Furrow.entry (f : Furrow) : Nat :=
  f.nrec + at' f.kept.length 32 + at' f.rhead.length 64 + at' f.refused 96 + at' f.headin.length 128 +
    at' f.recv.length 160 + at' f.klo 192

/-- The rows of the count table. -/
def tableLands (die : Nat) (va : Int) (fs : List Furrow) : List Land :=
  (List.range (ceilDiv fs.length 8)).map fun (i : Nat) =>
    { die := die, way := [], frm := die, va := va + 256 * (i : Int), data := ((fs.drop (8 * i)).take 8).flatMap fun f => natLE 32 f.entry, poison := false,
      tag := 0, tent := 0 }

/-- What a member writes: its records, then the table. -/
def ploughLands (dies : List Nat) (die : Nat) (r : EngRun) (fs : List Furrow) (f : Furrow) : List Land :=
  let n := r.recBytes
  plantLands dies die (r.descVa 832) n f.recv ++ plantLands dies die (r.descVa 896) n (f.headin ++ f.rhead) ++
    plantLands dies die (r.descVa 768) n f.kept ++ tableLands die (r.descVa 1024) fs

/-- The completion record of a member (R343), less TIME, PH and the poison bit of STATUS. -/
def ploughRecord (b : Nat) (r : EngRun) (f : Furrow) (anyRefused : Bool) : BitVec 256 :=
  ringRecord f.recv.length f.headin.length (refX r.d) (4 * b2n anyRefused) 2 (bankDie b) (coreNum b) (b % 2) |||
    BitVec.ofNat 256 (at' (f.refused % 2 ^ 32) 38 + at' (f.kept.length % 2 ^ 32) 6)

/-- Where a member's records lie. -/
def EngRun.recordSpans (r : EngRun) : List (Int × Nat) :=
  (List.range r.nrec).map fun (i : Nat) => (r.descVa 768 + (i * r.recBytes : Nat), r.recBytes)

/-- Reads of members through their pins have been made: a row that fails its check is poisoned where it lies (R445). -/
def State.spoilParts (s : State) (ps : List (Nat × Nat × Nat)) : State := ps.foldl (fun s q => s.spoil q.1 q.2.2) s

/-- PLOUGH_COUNT_EXCHANGE (R340 to R342): the members' records are read, once the units of the reads have started, and every
placement is fixed. -/
def execPloughCountExchange (gid nth : Nat) (s : State) : Out :=
  let runs := (s.instRuns gid nth).filter fun p => p.2.started && p.2.op == .plough && !p.2.sent && p.2.pins != [] &&
    !p.2.pinning
  let whole (g : Word) : Bool := (List.range (grpRanked g).length).all fun k => (memberAt g runs k).isSome
  match runs.find? fun p => whole p.2.grp with
  | none => .next s
  | some (b0, r0) =>
    let dies := grpRanked r0.grp
    let ms := (List.range dies.length).filterMap (memberAt r0.grp runs)
    let reads (p : Nat × EngRun) : List (Nat × Nat × Nat) := p.2.recordSpans.flatMap fun x => pinnedParts p.2.pins 1 x.1 x.2
    match s.serve (agentEng b0 engCL) (b0 + 1) ((s.bank b0).part % 16) (ms.flatMap fun p => s.partLegs p.1 (reads p)) with
    | (false, s1) => .next (s1.owe (.ploughCountExchange gid nth))
    | (true, s1) =>
    let s := s1.spoilParts (ms.flatMap reads)
    let xs := ((List.range ms.length).zip ms).flatMap fun p => s.plants p.1 p.2.2
    let fs := furrows xs (ms.map fun p => p.2)
    let refused := fs.any fun f => decide (0 < f.refused)
    .next ((ms.zip fs).foldl (fun s p =>
      let b := p.1.1
      let r := p.1.2
      let rec' := (ploughRecord b r p.2 refused).zeroExtend 2048
      (s.putEng b engCL { r with sent := true, lands := ploughLands dies (bankDie b) r fs p.2, qrec := r.qrec.take 1 ++ [rec'] }).owe
        (.ploughRetire b)) s)

/-! ### Issue: what a member does before its instance starts (R329, R332, R335, R339) -/

/-- A command is ready for its instance (DEDUCED, unsafe: log entry 32). -/
def State.joined (s : State) (b : Nat) (r : EngRun) : State :=
  (s.putEng b engCL { r with accepted := true }).owe (.collectiveInstanceStart r.gid r.inst)

/-- A command as a fault leaves it before its instance starts: it checks, reads and pins again. -/
def EngRun.anew (r : EngRun) : EngRun :=
  { r with caps := r.caps.filter fun c => decide (c.h < 16), qrec := [], pinning := false, pins := [] }

/-- A command goes on pinning and reading. -/
def State.waitColl (s : State) (b : Nat) (r : EngRun) (pins : List Pin) : State :=
  (s.putEng b engCL { r with pins := pins, pinning := true }).owe (.collectiveRetire b)

/-- A `COLL` checks its ranges and pins. -/
def State.acceptColl (s : State) (b : Nat) (r : EngRun) : State :=
  if collOverlap r (bankDie b) then s.failEng b engCL r.anew (cmdFault 9)
  else match s.pinRefs b engCL (s.bank b).part r r.pins (collRefs r (bankDie b)) with
    | .fault f s1 => s1.failEng b engCL r.anew f
    | .wait pins s1 => s1.waitColl b r pins
    | .ok pins s1 => s1.joined b { r with pins := pins, pinning := false }

/-- A `RING`, its header read, reads its queries, once they are final (R323), pins, and takes the snapshot of its shard. -/
def State.acceptShard (s : State) (b : Nat) (r : EngRun) : State :=
  let part := (s.bank b).part
  match s.mySeq b r.b with
  | none => s.failEng b engCL r.anew (cmdFault 10)
  | some q =>
    let len := (q.layer (seqLayer r.b)).len
    let r2 := { r with t := q.t, heads := q.heads, hdim := q.hdim }
    let r3 := { r2 with len := if r2.q 95 64 = 0xFFFFFFFF then len else min (r2.q 95 64) len }
    let lo := r3.start / q.t
    let n := if r3.ranges = 0 then 0 else (r3.len - 1) / q.t + 1 - lo
    if q.layers ≤ seqLayer r.b then s.failEng b engCL r.anew (cmdFault 12)
    else if r3.badRing then s.failEng b engCL r.anew { cmdFault 9 with va := some (refVa r r.a) }
    else if s.badEntry q (seqLayer r.b) lo n then s.failEng b engCL r.anew entryFault
    else match s.pinRefs b engCL part r3 r.pins (ringRefs r3) with
      | .fault f s1 => s1.failEng b engCL r.anew f
      | .wait p2 s1 => s1.waitColl b r p2
      | .ok p2 s1 =>
        let nq := r3.heads' * queryRows q.hdim
        match s1.engPull b engCL part (s1.pinnedLegs b p2 (rowSpans (refVa r r.a + 256) (256 * nq))) with
        | .wait s2 => s2.waitColl b r p2
        | .done held s2 =>
          let (rows, s3) := s2.readRows p2 (refVa r r.a + 256) (256 * nq) held
          if rows.any fun c => c.tent != 0 then s3.waitColl b r p2
          else
            let (s4, r4) := s3.snapshot b (seqHandle r.b) q (seqLayer r.b) lo n r3
            s4.joined b { r4 with len := r3.len, pins := p2, pinning := false, qrec := r.qrec.take 1 ++ rows.map Carried.row,
                                  qbad := rows.any (fun c => c.poison),
                                  qtags := rows.map fun c => if (s.pullPort c.die (bankDie b)).isSome then 0 else c.tag }

/-- A `RING` pins its header, reaches the home of its sequence and reads the header (R335). -/
def State.acceptRing (s : State) (b : Nat) (r : EngRun) : State :=
  match s.pinRefs b engCL (s.bank b).part r r.pins [(r.a, 0, 256, 1)] with
  | .fault f s1 => s1.failEng b engCL r.anew f
  | .wait pins s1 => s1.waitColl b r pins
  | .ok pins s1 =>
    let r1 := { r with pins := pins }
    if r.qrec ≠ [] then s1.acceptShard b r1
    else match s1.askHome b engCL (seqDie (seqHandle r.b)) (s1.pinnedLegs b pins [(refVa r r.a, 256)]) with
      | .wait s2 => s2.waitColl b r pins
      | .done held s2 =>
        let (h, s3) := s2.readPinned pins (refVa r r.a) 256 held
        if h.tent ≠ 0 then s3.waitColl b r pins
        else if h.poison then s3.failEng b engCL r.anew { cmdFault 0 with cls := 8, va := some (refVa r r.a) }
        else s3.acceptShard b { r1 with qrec := [h.row] }

/-- A `PLOUGH`, its descriptor read and the handles that it names captured, pins. -/
def State.acceptFields (s : State) (b : Nat) (r : EngRun) : State :=
  let part := (s.bank b).part
  match s.pinRefs b engCL part r.inner r.pins (ploughPins r) with
  | .fault f s1 => s1.failEng b engCL r.anew f
  | .wait pins s1 => s1.waitColl b r pins
  | .ok pins s1 =>
    let r3 := { r with pins := pins, pinning := false }
    match s1.engPull b engCL part (s1.pinnedLegs b pins [(r3.descVa 960, 64)]) with
    | .wait s2 => s2.waitColl b r pins
    | .done _ s2 =>
      if spansClash (ploughSpans r3 (ringSpan (s2.ringHead r3))) then
        s2.failEng b engCL r.anew { cmdFault 9 with va := some (refVa r r.d) }
      else s2.joined b r3

/-- A `PLOUGH` pins and reads its descriptor, once it is final (R323, R339). -/
def State.acceptPlough (s : State) (b : Nat) (r : EngRun) : State :=
  let part := (s.bank b).part
  if r.qrec ≠ [] then s.acceptFields b r
  else match s.pinRefs b engCL part r r.pins [(r.d, 0, 256, 1)] with
    | .fault f s1 => s1.failEng b engCL r.anew f
    | .wait pins s1 => s1.waitColl b r pins
    | .ok p1 s1 =>
      match s1.engPull b engCL part (s1.pinnedLegs b p1 [(refVa r r.d, 256)]) with
      | .wait s2 => s2.waitColl b r p1
      | .done held s2 =>
        let (h, s3) := s2.readPinned p1 (refVa r r.d) 256 held
        let r1 := { r with qrec := [h.row], pins := [] }
        let bad := some (refVa r r.d)
        if h.tent ≠ 0 then s3.waitColl b r p1
        else if h.poison then s3.failEng b engCL r.anew { cmdFault 0 with cls := 8, va := bad }
        else if !ploughOk (s3.bank b) r1 then s3.failEng b engCL r.anew { cmdFault 9 with va := bad }
        else s3.acceptFields b { r1 with caps := r1.caps ++ descCaps (s3.bank b) r1 }

/-- An issued command checks, reads and pins what it needs before its instance starts. -/
def State.acceptCollective (s : State) (b : Nat) (r : EngRun) : State :=
  if ((grpDies r.grp).getD []).any fun d => !s.dieExists (bankDie b) d then
    s.failEng b engCL r.anew { cmdFault 3 with walk := 6 }
  else match r.op with
    | .coll => s.acceptColl b r
    | .ring => s.acceptRing b r
    | _ => s.acceptPlough b r

/-- The collective port of bank b takes its next command: it is the next of its GID on its die (R329). -/
def State.issueCollective (s : State) (b : Nat) : Option (State × EngRun) :=
  match s.issueEng b engCL with
  | none => none
  | some (s1, r) =>
    let n := Assoc.get 0 (s1.die (bankDie b)).gidCount r.gid
    let r1 := { r with inst := n }
    some ((s1.modDie (bankDie b) fun d => { d with gidCount := Assoc.set 0 d.gidCount r.gid (n + 1) }).putEng b engCL r1, r1)

/-- A later command of the same GID moves up when r leaves the count of its die. -/
def Bank.countDown (k : Bank) (here : Bool) (r : EngRun) : Bank :=
  match k.eng engCL with
  | some x =>
    if here && x.gid == r.gid && decide (r.inst < x.inst) && !x.started then k.setEng engCL (some { x with inst := x.inst - 1 })
    else k
  | none => k

/-- A save or the end of a task turns a member back before its instance starts: its command is the next of its queue
again, with its pops restored, and its place in the count goes (R329). -/
def State.unissue (s : State) (b : Nat) : State :=
  match (s.bank b).eng engCL with
  | none => s
  | some r =>
    if r.started then s
    else
      let c : Cmd := { op := .engine r.op r.d r.a r.b r.c (r.caps.filter fun c => decide (c.h < 16)), pc := r.pc, ext := r.ext }
      let s1 := s.unholdAll r.held
      let s2 := s1.modDie (bankDie b) fun d =>
        { d with gidCount := Assoc.set 0 d.gidCount r.gid (Assoc.get 0 d.gidCount r.gid - 1) }
      let s3 : State := { s2 with banks := Assoc.mapVals Bank.zero (fun i k => k.countDown (bankDie i == bankDie b) r) s2.banks }
      s3.modBank b fun k => ((k.givePops engCL r.ext).setCmdq engCL (c :: k.cmdq engCL)).setEng engCL none

/-! ### COLLECTIVE_INSTANCE_START (R329) -/

/-- The fields that members compare. -/
def EngRun.compared (r : EngRun) : List Nat :=
  match r.op with
  | .coll => [r.b.toNat, r.c.toNat]
  | .ring => [r.c.toNat, r.q 31 0, r.q 111 96, r.q 255 128, r.heads, r.hdim, r.stype]
  | _ => [r.a.toNat, r.desc 19 12, r.desc 95 64]

/-- The members' sources, by ascending die. -/
def State.sources (s : State) (ms : List (Nat × EngRun)) : Sources :=
  match ms with
  | [] => []
  | (_, r0) :: _ =>
    ((grpDies r0.grp).getD []).filterMap fun die =>
      (ms.find? fun p => bankDie p.1 == die).map fun p =>
        (die, if p.2.reads die then (s.readRows p.2.pins (refVa p.2 p.2.a) p.2.srcBytes).1 else [])

/-- Where the members' sources lie. -/
def sourceParts (ms : List (Nat × EngRun)) : List (Nat × List (Nat × Nat × Nat)) :=
  ms.map fun p => (p.1, if p.2.op == .coll && p.2.reads (bankDie p.1) then
    (rowSpans (refVa p.2 p.2.a) p.2.srcBytes).flatMap fun x => pinnedParts p.2.pins 1 x.1 x.2 else [])

/-- An instance starts: its members by rank (DEDUCED, unsafe: log entry 32). -/
def State.startInstance (s : State) (ms : List (Nat × EngRun)) : State :=
  match ms with
  | [] => s
  | (_, r0) :: _ =>
    let all (s : State) (f : Nat → EngRun → EngRun) : State :=
      ms.foldl (fun s p => (s.putEng p.1 engCL { f p.1 p.2 with started := true }).owe (.collectiveRetire p.1)) s
    match r0.op with
    | .coll =>
      let src := s.sources ms
      all s fun b r => { r with lands := collLands r src (bankDie b) }
    | .ring =>
      let i : Inst := { gid := r0.gid, nth := r0.inst, grp := r0.grp, slots := [], late := [], merged := [], disc := [] }
      all { s with insts := s.insts ++ [i] } fun _ r => r
    | _ => (all s fun _ r => r).owe (.ploughCountExchange r0.gid r0.inst)

/-- A member of an instance whose members differ faults: its holds go, and it will read its record again. -/
def State.mismatch (s : State) (p : Nat × EngRun) : State :=
  (s.unholdAll p.2.held).failEng p.1 engCL { p.2.anew with accepted := false, held := [] } (cmdFault 8)

/-- The agent of `State.passed` for the rows that a reduction's members send away. -/
def agentTolls (b : Nat) : Nat := 2 ^ 61 + b

/-- The members agree: their sources are read once the units of the reads have started and the rows that they fold elsewhere have
left; a member whose row may not leave faults (R404 to R406, R476); then the instance starts. -/
def State.beginInstance (s : State) (ms : List (Nat × EngRun)) (b0 : Nat) (r0 : EngRun) : State :=
  let again (s : State) : State := s.owe (.collectiveInstanceStart r0.gid r0.inst)
  let parts := sourceParts ms
  let paid := Assoc.get 0 s.passed (agentTolls b0)
  let tolls := if r0.op == .coll && collFolds r0.b then s.foldTolls r0.grp (s.sources ms) else []
  match s.payTolls (tolls.drop paid) paid with
  | .wait s1 n => again { s1 with passed := Assoc.set 0 s1.passed (agentTolls b0) n }
  | .capped s1 n die =>
    match ms.find? fun p => bankDie p.1 == die with
    | some p =>
      ({ s1 with passed := Assoc.set 0 s1.passed (agentTolls b0) n } : State).failEng p.1 engCL
        { p.2.anew with accepted := false } { cmdFault 7 with va := some (refVa p.2 p.2.a) }
    | none => s1
  | .all s1 =>
    match s1.serve (agentEng b0 engCL) (b0 + 1) ((s.bank b0).part % 16) (parts.flatMap fun p => s1.partLegs p.1 p.2) with
    | (false, s2) => again { s2 with passed := Assoc.set 0 s2.passed (agentTolls b0) tolls.length }
    | (true, s2) =>
      let s3 : State := { s2 with passed := Assoc.del s2.passed (agentTolls b0) }
      (s3.startInstance ms).spoilParts (parts.flatMap fun p => p.2)

/-- COLLECTIVE_INSTANCE_START (R329): with every member issued, their fields are compared; then the first row may move. A
reduction whose rows are tentative on different packets waits (DEDUCED, safe: log entry 34). -/
def execCollectiveInstanceStart (gid nth : Nat) (s : State) : Out :=
  let runs := (s.instRuns gid nth).filter fun p => p.2.accepted && !p.2.started && (s.bank p.1).engGoes p.2 &&
    (s.bank p.1).pst == .live
  let at0 (die : Nat) : Option (Nat × EngRun) := runs.find? fun p => bankDie p.1 == die
  match runs.find? fun p => (grpRanked p.2.grp).all fun die => (at0 die).isSome with
  | none => .next s
  | some (b0, r0) =>
    let ms := (grpRanked r0.grp).filterMap at0
    let same := ms.all fun p => p.2.op == r0.op && p.2.compared == r0.compared && (s.bank p.1).part == (s.bank b0).part
    let mixed := r0.op == .coll && foldMixed r0 (s.sources ms)
    .next (if !same then ms.foldl State.mismatch s
           else if mixed then s.owe (.collectiveInstanceStart gid nth)
           else s.beginInstance ms b0 r0)

/-! ### COLLECTIVE_RETIRE and PLOUGH_RETIRE (R329, R334, R338, R343) -/

/-- The references of a started command, to pin again after a fault. -/
def State.repinColl (s : State) (b : Nat) (r : EngRun) : Pinning :=
  if r.pins ≠ [] ∧ !r.pinning then .ok r.pins s
  else
    let part := (s.bank b).part
    match r.op with
    | .coll => s.pinRefs b engCL part r r.pins (collRefs r (bankDie b))
    | .ring => s.pinRefs b engCL part r r.pins (ringRefs r)
    | _ => s.pinRefs b engCL part r.inner r.pins (ploughPins r)

/-- A command retires, or tries again when its FIFO has room. -/
def State.endColl (s : State) (b : Nat) (r : EngRun) (again : Instr) : State :=
  match s.retireEng b engCL r with
  | some s1 => s1
  | none => (s.heldBack b engCL r).owe again

/-- The instances of rings that still have a member. -/
def State.sweepInsts (s : State) : State :=
  { s with insts := s.insts.filter fun i => (s.instRuns i.gid i.nth).any fun p => p.2.started && p.2.grp == i.grp }

/-- A `RING` whose writes so far are performed (R338). -/
def State.ringStep (s : State) (b : Nat) (r : EngRun) : State :=
  match s.instOf r with
  | none => s
  | some j =>
    match s.insts[j]? with
    | none => s
    | some i =>
      let k := grpRank r.grp (bankDie b)
      if !i.merged.contains k then
        if (i.present r.p k).length = r.p then s.mergeOwner j i k b r else s.oweArrival i r.p k
      else if !r.sent then
        (s.putEng b engCL { r with sent := true, lands := [Land.row (bankDie b) (refVa r r.d) (ringStatus r i k) false] }).owe
          (.collectiveRetire b)
      else if (i.nextOwner r.p k).isNone || decide (r.final ≤ s.reftime) then (s.endColl b r (.collectiveRetire b)).sweepInsts
      else s.oweArrival i r.p k

/-- COLLECTIVE_RETIRE: the collective port of bank b takes its next command; a started `COLL` or `RING` writes its next row,
and retires when all it writes is performed. -/
def execCollectiveRetire (b : Nat) (s : State) : Out :=
  if !validBank b then .fault .noSuchAgent
  else
    let k := s.bank b
    match k.eng engCL with
    | none =>
      if !k.served || (k.cmdq engCL).isEmpty then .next s
      else match s.issueCollective b with
        | some (s1, r) => .next (s1.acceptCollective b r)
        | none => .next (s.owe (.collectiveRetire b))
    | some r =>
      if !k.engGoes r then .next s
      else if !r.accepted then .next (s.acceptCollective b r)
      else if !r.started then .next (s.owe (.collectiveInstanceStart r.gid r.inst))
      else if r.op = .plough then .next (s.owe (.ploughRetire b))
      else match s.repinColl b r with
        | .fault f s1 => .next (s1.failEng b engCL { r with pinning := false } f)
        | .wait pins s1 => .next (s1.waitColl b r pins)
        | .ok pins s0 =>
          let r1 := { r with pins := pins, pinning := false }
          let s1 := s0.putEng b engCL r1
          if r1.lands ≠ [] then .next (s1.landStep b r1 (.collectiveRetire b))
          else if 0 < r1.wait then .next s1
          else if r1.op = .ring then .next (s1.ringStep b r1)
          else .next (s1.endColl b r1 (.collectiveRetire b))

/-- The record that a `PLOUGH` appends. -/
def EngRun.ploughRec (r : EngRun) : BitVec 256 :=
  let x := BitVec.ofNat 256 (r.qrec.getD 1 0).toNat
  setBits x 96 96 (b2n r.poisoned)

/-- PLOUGH_RETIRE (R342, R343): records and table are written, then the completion record; then the command retires. -/
def execPloughRetire (b : Nat) (s : State) : Out :=
  if !validBank b then .fault .noSuchAgent
  else
    let k := s.bank b
    match k.eng engCL with
    | none => .next s
    | some r =>
      if r.op ≠ .plough ∨ !r.started ∨ !k.engGoes r then .next s
      else match s.repinColl b r with
        | .fault f s1 => .next (s1.failEng b engCL { r with pinning := false } f)
        | .wait pins s1 => .next (s1.waitColl b r pins)
        | .ok pins s0 =>
          let r1 := { r with pins := pins, pinning := false }
          let s1 := s0.putEng b engCL r1
          if !r1.sent then .next (s1.owe (.ploughCountExchange r1.gid r1.inst))
          else if r1.lands ≠ [] then .next (s1.landStep b r1 (.ploughRetire b))
          else if 0 < r1.wait then .next s1
          else if s1.tentFor (.eng b engCL) then .next (s1.owe (.ploughRetire b))
          else if r1.k = 0 then
            match ploughRing r1 with
            | some (pa, limit, key) =>
              .next ((s1.putEng b engCL { r1 with k := 1, wait := 1 }).askRing pa limit key k.part r1.ploughRec (.eng b engCL))
            | none => .next s1
          else .next (s1.endColl b r1 (.ploughRetire b))

end Sys2Proof.Machine
end

