-- ==== Sys2Proof/Machine/Fabric.lean ====
section
/-! DEFINITION. The fabric: link failures and tentative rows (spec/15 R321 to R323), page migration (R325 to R327), the
reference-time beacon (R327); and the array-sharing mode of a cluster (spec/08 R177). -/

namespace Sys2Proof.Machine

/-! ### Link tags (R321 to R323) -/

def State.packet (s : State) (p : Nat) : Option Packet := Assoc.get none s.packets p

def State.setPacket (s : State) (p : Nat) (x : Option Packet) : State := { s with packets := Assoc.set none s.packets p x }

/-- The memory row that a packet writes, as memory now names it. -/
def State.packetRow (s : State) (x : Packet) : Nat := s.frameOf x.pa / 256

/-- A bulk write that brings the packet's own row. -/
def State.ownBulk (s : State) (p : Nat) (x : Packet) (y : Bulk) : Bool :=
  y.tent == p + 1 && x.into.isNone && !x.sram && s.frameOf y.pa == s.frameOf x.pa

/-- The packet's own row stands, tentative; one in a queue entry or in the instruction buffer is not seen before it is final. -/
def State.landed (s : State) (p : Nat) (x : Packet) : Bool :=
  if x.into.isSome then false
  else if x.sram then (s.cell x.pa).tent == p + 1 else (s.rowMeta (x.pa / 256)).tent == p + 1

/-- Poison of the packet's own row. -/
def State.packetPoison (s : State) (x : Packet) : Bool :=
  if x.sram then (s.cell x.pa).poison else (s.rowMeta (x.pa / 256)).poison

/-- Write the packet's own row, with its poison and its mark. -/
def State.putOwn (s : State) (x : Packet) (xs : List Byte) (poison : Bool) (tent : Nat) : State :=
  if x.sram then s.setCell x.pa { s.cell x.pa with data := BitVec.ofNat 2048 (leNat xs), poison := poison, tent := tent }
  else
    let s1 := s.setBytes x.pa xs
    s1.setRowMeta (x.pa / 256) { s1.rowMeta (x.pa / 256) with poison := poison, tent := tent }

/-- The entries of queue q that are tentative on packet p are filled, but for the entry `own`, and what stands behind them is
published (R229, R323). -/
def Queue.settle (q p : Nat) (own : Option Nat) (poison : Bool) (x : Queue) : Queue :=
  let ended (i : Nat) (e : QSlot) : QSlot :=
    if e.tent = p + 1 ∧ own ≠ some i then { e with tent := 0, filled := true, poison := e.poison || poison } else e
  ({ x with slots := Assoc.mapVals QSlot.zero ended x.slots } : Queue).publish q 16

/-- The rows of the instruction buffer that are tentative on packet p may be issued, but for the row `own` (R323). -/
def Bank.settleBuf (k : Bank) (p : Nat) (own : Option Nat) (poison : Bool) : Bank :=
  let ended (x : Nat × Nat) : Bool := x.2 == p + 1 && own != some x.1
  { k with itent := k.itent.filter fun x => !ended x,
           ibad := k.ibad ++ if poison then ((k.itent.filter ended).map fun x => x.1).filter fun r => !k.ibad.contains r else [] }

/-- What is tentative on packet p in bank b's queues and in its instruction buffer becomes final; with `poison` that is what was
moved on, the packet's own row waiting for it to come again. -/
def Bank.settle (k : Bank) (b p : Nat) (x : Packet) (poison : Bool) : Bank :=
  let own (q : Nat) : Option Nat :=
    match x.into with
    | some (b', q', i) => if poison ∧ b' = b ∧ q' = q then some (if q < 8 then i % qCap q else i) else none
    | none => none
  ({ k with queues := Assoc.mapVals Queue.zero (fun q z => z.settle q p (own q) poison) k.queues } : Bank).settleBuf p (own 8) poison

/-- The rows moved on while the packet was unchecked, those on their way too, become final, poisoned or as they are (R323). -/
def State.moved (s : State) (p : Nat) (x : Packet) (poison : Bool) : State :=
  let own (sram : Bool) (k : Nat) : Bool :=
    x.into.isNone && x.sram == sram && k == (if sram then x.pa else s.packetRow x)
  let land (l : Land) : Land := if l.tent = p + 1 then { l with tent := 0, poison := l.poison || poison } else l
  { s with
    banks := Assoc.mapVals Bank.zero (fun b k =>
      (k.setEng engCL ((k.eng engCL).map fun r => { r with lands := r.lands.map land })).settle b p x poison) s.banks,
    memMeta := Assoc.mapVals RowMeta.zero (fun k m =>
      if m.tent = p + 1 ∧ own false k = false then { m with tent := 0, poison := m.poison || poison } else m) s.memMeta,
    sram := Assoc.mapVals RowCell.zero (fun k c =>
      if c.tent = p + 1 ∧ own true k = false then { c with tent := 0, poison := c.poison || poison } else c) s.sram,
    bulk := s.bulk.map fun y =>
      if y.tent = p + 1 ∧ s.ownBulk p x y = false then { y with tent := 0, poison := y.poison || poison } else y }

/-- A command reports poisoned rows. -/
def State.reportPoison (s : State) (w : Who) : State :=
  match w with
  | .copy b => s.modBank b fun k => { k with copy := k.copy.map fun c => { c with poisoned := true } }
  | .eng b e => s.modBank b fun k => k.setEng e ((k.eng e).map fun r => { r with poisoned := true })
  | _ => s

/-- A command that waited for a packet tries to end. -/
def State.oweEnd (s : State) (w : Who) : State :=
  match w with
  | .copy b => s.owe (.copyRetire b)
  | .eng b 3 => s.owe (.walkerRetire b)
  | .eng b 4 => (s.owe (.attndRetire b)).owe (.rdxRetire b)
  | .eng b _ => (s.owe (.collectiveRetire b)).owe (.ploughRetire b)
  | _ => s

/-- LINK_TAG_FAIL (R322, R323): a tag of the packet fails: what it has written becomes poisoned, and it comes again; what
was moved on stays poisoned (DEDUCED, safe: log entry 34). -/
def execLinkTagFail (pkt : Nat) (s : State) : Out :=
  match s.packet pkt with
  | none => .next s
  | some x =>
    let y := { x with failed := true, was := if x.failed then x.was else s.packetPoison x, movers := [] }
    let junk := (List.range x.data.length).map fun i => Config.poisonByte (256 * s.free + i)
    let s1 := if s.landed pkt x then s.tickFree.putOwn x junk true (pkt + 1) else s
    let s2 := x.movers.foldl (fun s w => s.reportPoison w) (s1.moved pkt x true)
    .next (x.movers.foldl (fun s w => s.oweEnd w) (s2.setPacket pkt (some y)))

/-- The packet's final tag may pass: its row stands. -/
def State.packetReady (s : State) (pkt : Nat) (x : Packet) : Bool := s.bulk.all fun y => !s.ownBulk pkt x y

/-- PACKET_FINAL (R322): the tag passes at the last hop, of the packet or of its replay: its rows are final
(DEDUCED, safe: log entry 34). -/
def execPacketFinal (pkt : Nat) (s : State) : Out :=
  match s.packet pkt with
  | none => .next s
  | some x =>
    if !s.packetReady pkt x then .next s
    else
      let s1 := if !s.landed pkt x then s
        else if x.failed then s.putOwn x x.data x.was 0
        else if x.sram then s.setCell x.pa { s.cell x.pa with tent := 0 }
        else s.setRowMeta (x.pa / 256) { s.rowMeta (x.pa / 256) with tent := 0 }
      .next ((x.who :: x.movers).foldl (fun s w => s.oweEnd w) ((s1.moved pkt x false).setPacket pkt none))

/-! ### Page migration (R325 to R327) -/

/-- Copy one row from a frame to another, as the agents of its partition read it. -/
def State.copyRow (s : State) (src dst : Nat) : State :=
  let m := s.rowMeta (src / 256)
  let xs := s.bytes src 256
  (s.putRaw dst xs).setRowMeta (dst / 256) { m with cipher := false }

/-- Copy rows of a migrating page (DEDUCED, unsafe: log entry 35). -/
def State.copyRows (s : State) (m : Migr) (rows : List Nat) : State :=
  rows.foldl (fun s r => s.copyRow (r * 256) (m.new + (r * 256 - m.old))) s

/-- The rows of a page that hold anything, in its old frame or in its new one. -/
def State.pageRows (s : State) (m : Migr) : List Nat :=
  let inOld (pa : Nat) : Bool := decide (m.old ≤ pa) && decide (pa < m.old + m.size)
  let inNew (pa : Nat) : Bool := decide (m.new ≤ pa) && decide (pa < m.new + m.size)
  let pas := (s.mem.map fun p => p.1) ++ (s.memMeta.map fun p => p.1 * 256)
  ((pas.filter inOld).map (fun pa => pa / 256) ++
    (pas.filter inNew).map fun pa => (m.old + (pa - m.new)) / 256).eraseDups

/-- A frame of device memory that may migrate. -/
def frameOk (pa size : Nat) : Bool := isCached pa && pa % size == 0 && decide (pa < 2 ^ 52)

/-- MIGRATION_REGISTER_WRITE (R325): the firmware moves a page of 64 KiB (`size` 0) or 64 MiB (`size` 1) to a new frame. The
copy pass reads every row; a row written after that is copied again (DEDUCED, unsafe: log entry 35). -/
def execMigrationRegisterWrite (old new size : Nat) (s : State) : Out :=
  let n := pageBytes size
  let apart (m : Migr) : Bool :=
    [m.old, m.new].all fun a => [old, new].all fun b => decide (b + n ≤ a) || decide (a + m.size ≤ b)
  if 1 < size ∨ !frameOk old n ∨ !frameOk new n ∨ old = new ∨ !s.migr.all apart then .next s
  else
    let m : Migr := { old := old, new := new, size := n, phase := 0, dirty := [], since := 0 }
    .next (({ s.copyRows m (s.pageRows m) with migr := s.migr ++ [m] } : State).owe (.copyPassEnd old))

/-- Change the migration of a page. -/
def State.setMigr (s : State) (page : Nat) (f : Migr → Migr) : State :=
  { s with migr := s.migr.map fun m => if m.old = page then f m else m }

/-- The migration of a page in a phase. -/
def State.migrAt (s : State) (page phase : Nat) : Option Migr := s.migr.find? fun m => m.old == page && m.phase == phase

/-- A pinned page lies in a frame (R252). -/
def Migr.pinned (m : Migr) (p : Pin) : Bool :=
  let a := leafFrame p.leaf * 65536
  decide (a < m.old + m.size) && decide (m.old < a + pageBytes p.size)

/-- A command pins the page. -/
def State.pinsPage (s : State) (m : Migr) : Bool :=
  s.banks.any fun p =>
    (match p.2.copy with
     | some c => c.pins.any m.pinned
     | none => false) ||
    p.2.engs.any fun e => match e.2 with
      | some r => r.pins.any m.pinned
      | none => false

/-- The directory entries of the page. -/
def State.pageDirs (s : State) (m : Migr) : List (Nat × Dir) :=
  s.dirs.filter fun p => decide (m.old ≤ 64 * p.1) && decide (64 * p.1 < m.old + m.size)

/-- Recall every copy of every line of the page that nothing else holds busy. -/
def State.recallPage (s : State) (m : Migr) : State :=
  (s.pageDirs m).foldl (fun s p =>
    let d := s.dir p.1
    if d.busy = none ∧ (d.owner ≠ none ∨ d.sharers ≠ []) then
      s.recall p.1 .recall d.owner (d.targets.filter fun c => d.owner != some c)
    else s) s

/-- No line of the page has a copy in a cache or a request under way. -/
def State.pageQuiet (s : State) (m : Migr) : Bool :=
  (s.pageDirs m).all fun p => p.2.busy == none && p.2.owner == none && p.2.sharers == []

/-- COPY_PASS_END (R325): with the copy pass done and no pin left, the home recalls every line of the page. -/
def execCopyPassEnd (page : Nat) (s : State) : Out :=
  match s.migrAt page 0 with
  | none => .next s
  | some m =>
    if s.pinsPage m then .next (s.owe (.copyPassEnd page))
    else .next (((s.setMigr page fun m => { m with phase := 1 }).recallPage m).owe (.recallComplete page))

/-- RECALL_COMPLETE (R325): the last reply has come. -/
def execRecallComplete (page : Nat) (s : State) : Out :=
  match s.migrAt page 1 with
  | none => .next s
  | some m =>
    if s.pageQuiet m then .next ((s.setMigr page fun m => { m with phase := 2 }).owe (.recopyEnd page))
    else .next ((s.recallPage m).owe (.recallComplete page))

/-- RECOPY_END (R325): the rows written since the copy pass have been copied again, and the page is forwarded; the new home
starts with every directory entry of it in I. -/
def execRecopyEnd (page : Nat) (s : State) : Out :=
  match s.migrAt page 2 with
  | none => .next s
  | some m =>
    let s1 := s.copyRows m m.dirty
    let old (p : Nat × Dir) : Bool := decide (m.new ≤ 64 * p.1) && decide (64 * p.1 < m.new + m.size)
    .next (({ s1 with dirs := s1.dirs.filter fun p => !old p } : State).setMigr page fun m => { m with phase := 3, dirty := [] })

/-- MIGRATION_GRACE_END (R325, R327): 65,536 reference ticks after the page's `SHOOT` it leaves the table. -/
def execMigrationGraceEnd (page : Nat) (s : State) : Out :=
  match s.migrAt page 4 with
  | none => .next s
  | some m => if s.reftime < m.since + 65536 then .next s else .next { s with migr := s.migr.filter fun x => x.old != page }

/-- REFTIME_BEACON (R327): the beacon keeps the dies' reference times within one tick of each other
(DESIGN CHOICE, unsafe: log entry 2) (DESIGN CHOICE, safe: log entry 60). -/
def execReftimeBeacon (ticks : Nat) (s : State) : Out :=
  if s.reftime < ticks ∧ ticks ≤ s.reftime + 1 then .next { s with reftime := ticks } else .next s

/-! ### Sharing the arrays of a cluster (R177) -/

/-- The value that a write gives to ACMODE: a MODE of 3 leaves MODE as it is, and reserved bits read zero (R5). -/
def acmodeValue (old v : Word) : Word :=
  let m := if bits v 1 0 = 3 then bits old 1 0 else bits v 1 0
  BitVec.ofNat 64 (at' (bits v 17 4) 4 + m)

/-- Every loop engine of a cluster is idle. -/
def State.loopsIdle (s : State) (cl : Nat) : Bool :=
  s.banks.all fun p => bankCluster p.1 != cl || (p.2.block == none && p.2.arr == [])

/-- ACMODE_WRITE (R177): the firmware writes the register; the write waits until the cluster's loop engines are idle. -/
def execAcmodeWrite (cl : Nat) (v : Word) (s : State) : Out :=
  if !validCluster cl then .fault .noSuchAgent
  else
    let old := (s.cluster cl).acnext.getD (s.cluster cl).acmode
    .next (s.modCluster cl fun c => { c with acnext := some (acmodeValue old v) })

/-- ACMODE_TAKE_EFFECT (R177): every loop engine of the cluster is idle, and the write takes effect. -/
def execAcmodeTakeEffect (cl : Nat) (s : State) : Out :=
  if !validCluster cl then .fault .noSuchAgent
  else match (s.cluster cl).acnext with
    | none => .next s
    | some v =>
      if s.loopsIdle cl then .next (s.modCluster cl fun c => { c with acmode := v, acnext := none }) else .next s

end Sys2Proof.Machine
end

