-- ==== Sys2Proof/Machine/Recovery.lean ====
section
/-! DEFINITION. Ending a task (spec/20 R422), saving and restoring a bank (spec/21 R429 to R440), the debugger (R441 to
R443), and the counting of corrected errors (R449, R450). -/

namespace Sys2Proof.Machine

/-! ### Ending a task (R421, R422) -/

/-- An engine command of an ending bank: one whose rows move or which a home has accepted runs to retirement; one that a
fault stopped goes. -/
def EngRun.endsNow (r : EngRun) : Bool := r.trapped || r.parked

/-- What an ending bank still waits for (R361, R422). -/
def State.ending (s : State) (b : Nat) : Bool :=
  let k := s.bank b
  !(k.quiet && k.pend.isNone && k.arr.isEmpty && (k.engs.all fun p => p.2.isNone) &&
    (match k.copy with
     | some r => r.trapped && r.wait == 0
     | none => true) && !s.transforming b)

/-- The bank's sequencer, queued commands, block and copy stop. -/
def Bank.endTask (k : Bank) : Bank :=
  { k with
    run := .ending, pst := .live, wait := .none, slot := none, cmds := [], faults := [], tokens := [], tokp := [], block := none,
    copy := k.copy.map fun r =>
      if r.mc && r.started && !r.trapped then r else { r with trapped := true, pins := [], started := false },
    edits := [],
    engs := k.engs.filter fun p => match p.2 with
      | some r => !r.endsNow
      | none => false }

/-- The commands of a bank that end at once give up their holds and their places. -/
def State.dropCommands (s : State) (b : Nat) : State :=
  let s1 := (s.dropKeyReq b).unissue b
  let gone := (s1.bank b).engs.filterMap fun p => match p.2 with
    | some r => if r.endsNow then some r else none
    | none => none
  let s2 := gone.foldl (fun s r => s.unholdAll r.held) s1
  let waits := gone.any fun r => !r.accepted
  let s3 := if waits then s2.leaveSeqs b else s2
  s3.modCluster (bankCluster b) fun c => { c with lanes := c.lanes.filter fun p => p.2.b != b }

/-- What an ending bank's commands left when they faulted goes; no trap is taken any more (R422). -/
def State.sweep (s : State) (b : Nat) : State :=
  if (s.bank b).run = .ending then (s.dropCommands b).modBank b Bank.endTask else s

/-- One bank of a task ends. -/
def State.endBank (s : State) (b : Nat) : State :=
  let s1 := (s.dropCommands b).modBank b Bank.endTask
  ({ s1 with saved := Assoc.set none s1.saved b none } : State).rouse b

/-- A task ends on every core of its plot that has not retired (R422) (DEDUCED, unsafe: log entry 59). -/
def State.endTask (s : State) (die rec : Nat) : State :=
  let x := (s.die die).bind rec
  let ids := x.started.filter fun b => !x.finished.contains b
  ((ids.foldl State.endBank s).modBind die rec fun y => { y with ended := true }).owe (.taskEndComplete die rec)

/-- BCTL_END_TASK (R421, R422) (DEDUCED, unsafe: log entry 59). -/
def execBctlEndTask (b : Nat) (s : State) : Out :=
  if !validBank b then .fault .noSuchAgent
  else
    let k := s.bank b
    match k.run with
    | .idle | .ending => .next s
    | _ => .next (s.endTask (bankDie b) k.bindRec)

/-- TASK_END_COMPLETE (R422): every access and every command of the task that runs to its end has ended; the record empties
and the launch counts the task. -/
def execTaskEndComplete (die rec : Nat) (s : State) : Out :=
  if !validDie die || 63 < rec then .fault .noSuchAgent
  else
    let x := (s.die die).bind rec
    if !x.ended then .next s
    else
      let ids := x.started.filter fun b => !x.finished.contains b
      let s1 := ids.foldl State.sweep s
      if ids.any fun b => s1.ending b then .next (s1.owe (.taskEndComplete die rec)) else .next (s1.taskDone die rec)

/-! ### PCTL and the save (R429 to R431, R437) -/

/-- AREA of PCTL: a physical address (DEDUCED, unsafe: log entry 37). -/
def pctlArea (v : Word) : Nat := bits v 51 12 * 4096

/-- A save area lies in HBM of the core's own die (DEDUCED, unsafe: log entry 37). -/
def areaOk (b area : Nat) : Bool :=
  isHbm area && paDie area == bankDie b && decide (area % 2 ^ 37 + 0x20000 ≤ 0x1DCD650000) && decide (area < 2 ^ 47)

/-- A task holds the bank. -/
def Bank.holdsTask (k : Bank) : Bool :=
  match k.run with
  | .live | .entering _ | .stopping _ _ _ | .stopped _ => true
  | _ => false

/-- The boundary of a save: a waiting instruction counts as not executed, and collectives that have not started return to
their queue (R329, R430). -/
def State.saveBoundary (s : State) (b : Nat) : State :=
  ((s.dropKeyReq b).unissue b).modBank b fun k => { k with wait := .none, tokp := k.tokp }

/-- PCTL_SAVE (R429, R430): CMD 1 starts a save of a bank that a task holds. -/
def execPctlSave (b : Nat) (v : Word) (s : State) : Out :=
  if !validBank b then .fault .noSuchAgent
  else
    let s1 := s.modBank b fun k => { k with area := pctlArea v }
    let k := s.bank b
    if bits v 1 0 ≠ 1 ∨ k.pst ≠ .live ∨ !k.holdsTask ∨ !areaOk b (pctlArea v) then .next s1
    else
      let s2 := s1.modBank b fun k => { k with pst := .saving, lastEnd := s.reftime }
      .next ((if k.slot.isNone then s2.saveBoundary b else s2).owe (.saveComplete b))

/-- A gleaner command whose present range or bag has been performed counts it (R307, R311). -/
def EngRun.counted (r : EngRun) : EngRun :=
  if r.sent ∧ r.k < (if r.op = .rdx then refX r.b else r.ranges) then
    { r with done := if r.op = .rdx then r.done else r.done ||| BitVec.ofNat 1024 (2 ^ r.k), k := r.k + 1, sent := false }
  else r

/-- What a save makes of a stopped command: its pins go; a gleaner command reports STATUS 2 unless its last status row stands, and
its present range or bag will be written again, whole (R307, R308, R311). -/
def State.parkEng (s : State) (b e : Nat) : State :=
  match (s.bank b).eng e with
  | none => s
  | some r =>
    let stops := r.op = .attns ∨ r.op = .attnd ∨ r.op = .rdx
    if !stops || r.trapped || r.parked || r.full || 0 < r.wait || r.fault.isSome then s
    else
      let r1 := { (if e = engGL ∧ r.accepted then r.counted else r) with parked := true, pinning := false, tok := 0, acc := [] }
      if e = engGL ∧ r.pins ≠ [] ∧ !r.pinning ∧ r.accepted ∧ !r1.sent then
        let p := s.putStatus b r1 2
        p.1.putEng b e p.2
      else s.putEng b e { r1 with pins := [] }

/-- A copy at a row boundary releases its pins; a multicast runs on (R256). -/
def Bank.parkCopy (k : Bank) : Bank :=
  { k with copy := k.copy.map fun r => if r.mc || 0 < r.wait then r else { r with pins := [], started := false } }

/-- A command that a save lets stand: stopped, or finished with its token held back by a full FIFO (R431). -/
def EngRun.parkedOk (r : EngRun) : Bool := r.wait == 0 && (r.trapped || r.parked || r.full)

/-- A block that a save lets stand: registered, to be restarted after its watchdog, or finished with its token held back by a
full FIFO (R430, R431, R439). -/
def Bank.blockStands (k : Bank) (x : Block) : Bool :=
  x.rst.isSome || x.again || (x.phase == .finished && !x.trapped && !k.canPush engLE x.ext)

/-- A copy that a save lets stand: at a row boundary, a multicast only when it has faulted or its token is held back by a full
FIFO (R256, R431). -/
def Bank.copyStands (k : Bank) (r : CopyRun) : Bool :=
  r.wait == 0 && (!r.mc || r.trapped ||
    (decide (pointCount r.recD ≤ r.n) && (!ctlREC r.b || r.recAsked) && !k.canPush engCP r.ext))

/-- Every row of the table of R430 has reached its end. -/
def State.saveReady (s : State) (b : Nat) : Bool :=
  let k := s.bank b
  k.slot.isNone && k.quiet && k.pend.isNone && k.arr.isEmpty && !s.transforming b &&
  k.itent.isEmpty && (k.queues.all fun q => q.2.slots.all fun e => e.2.tent == 0) &&
  (match k.run with
   | .live | .stopped _ => true
   | _ => false) &&
  (match k.block with
   | some x => k.blockStands x
   | none => true) &&
  (match k.copy with
   | some r => k.copyStands r
   | none => true) &&
  k.engs.all fun p => match p.2 with
    | some r => r.parkedOk
    | none => true

/-- A registered block goes back to its checkpoint (R436 to R438): the heads of `dq0` to `dq3`, and its level-0 point, whose
first bundle is RLBL. A block that has had no checkpoint yet, or whose points are all done, stays as it is. -/
def Bank.rollback (k : Bank) : Bank :=
  match k.block with
  | none => k
  | some x =>
    match x.rst with
    | none => k
    | some r =>
      if !x.marked || x.phase == .finished then k
      else
        let k1 := (List.range 4).foldl (fun k q => k.setQueue q { k.queue q with head := Assoc.get 0 x.hc q }) k
        let y := { x with lx := Assoc.set 0 [] 0 (Assoc.get 0 x.lx 0), first := bits r 9 0, host := none }
        { k1 with block := some (walkNest k1 nestFuel y (.enter (if x.ix 0 = 0 then 0 else 1) 1)) }

/-- A register file with the live-in entries of a kind only. -/
def keepLive (r : Option (BitVec 512)) (kind : Nat) (m : Assoc VReg) : Assoc VReg :=
  match r with
  | none => []
  | some x => m.filter fun p => (List.range 16).any fun i => liveIn x i == (kind, p.1)

/-- What a save discards of the loop engine (R430, R437, R438). -/
def Bank.discard (k : Bank) : Bank :=
  let r := k.block.bind fun x => x.rst
  { k with vregs := keepLive r 1 k.vregs, oregs := keepLive r 2 k.oregs, latches := [], stale := 0, masks := [], tiles := [],
           leWait := none }

/-- Handles that were valid or pending become stale (R432). -/
def Bank.staleHandles (k : Bank) : Bank :=
  { k with handles := Assoc.mapVals Handle.zero (fun _ h =>
      if h.st = .valid ∨ h.st = .pending then { h with st := .stale } else h) k.handles }

/-- Pins of stopped gleaner commands go once their status row stands. -/
def Bank.unpin (k : Bank) : Bank :=
  { k with engs := k.engs.map fun p => (p.1, p.2.map fun r => { r with pins := [] }) }

/-- The rows of a save area that the model takes from free values: all of them under a save key, the device-defined regions
otherwise (R433, R440). -/
def fixedRows (sealedSave : Bool) : List Nat :=
  if sealedSave then List.range 512 else [12, 13] ++ (List.range 384).map fun i => 128 + i

/-- The record of the trap ring that ends a save or a restore (R429). -/
def State.pctlRecord (s : State) (b sub : Nat) : State :=
  let k := s.bank b
  s.askTrapRing (bankDie b) (trapRecord s.counter k.pc.toNat 0 sub 0 0 k.bindRec (bankDie b) (coreNum b) (b % 2) 4 false) .nobody

/-- The context goes into its save area. -/
def State.finishSave (s : State) (b : Nat) : State :=
  let k := { ((s.bank b).rollback.discard.unpin) with pst := .saved }
  let x : Saved := { base := s.free, sealedSave := k.sealedSeen }
  let s1 : State := { (s.setBank b k) with saved := Assoc.set none s.saved b (some x), free := s.free + 1 }
  let s2 := if k.sealedSeen then s1 else s1.writeArea b
  (s2.putAreaRows k.area ((fixedRows k.sealedSeen).map fun r => (r, Config.areaRow s.free r, false))).pctlRecord b 1

/-- SAVE_COMPLETE (R430): the drain goes on; at its end the context is saved. -/
def execSaveComplete (b : Nat) (s : State) : Out :=
  if !validBank b then .fault .noSuchAgent
  else
    let k := s.bank b
    if k.pst ≠ .saving then .next s
    else if k.slot.isSome ∨ k.pend.isSome then .next (s.owe (.saveComplete b))
    else
      let s1 := (((s.saveBoundary b).modBank b Bank.parkCopy).parkEng b engWK).parkEng b engGL
      if s1.saveReady b then .next (s1.finishSave b) else .next (s1.owe (.saveComplete b))

/-! ### The block watchdog (R439) -/

/-- LIMIT of WDCTL: 0 counts as 1. -/
def State.wdLimit (s : State) (die : Nat) : Nat := max 1 (((s.die die).wdctl.getD 100000).toNat)

/-- An unregistered block of a saving bank has used up its time, a fault having stopped it or not. -/
def State.watchdogDue (s : State) (b : Nat) : Bool :=
  let k := s.bank b
  k.pst == .saving && decide (k.lastEnd + s.wdLimit (bankDie b) ≤ s.reftime) && k.slot.isNone && k.pend.isNone &&
  (match k.run with
   | .live | .stopped _ => true
   | _ => false) &&
  match k.block with
  | some x => x.rst.isNone && !x.again && k.arr == []
  | none => false

/-- A block that starts again from its first point. -/
def Bank.again (k : Bank) (x : Block) : Block :=
  let y := { x with lx := [], bnd := [], first := x.start, idx := x.start, host := none, home := false, trapped := true, again := true }
  walkNest k nestFuel y (.enter 0 0)

/-- BLOCK_WATCHDOG (R439): the block's state is discarded, and the bank takes class 18; a bank that holds a record keeps the
trap waiting. -/
def execBlockWatchdog (b : Nat) (s : State) : Out :=
  if !validBank b then .fault .noSuchAgent
  else if !s.watchdogDue b then .next s
  else
    let k := s.bank b
    match k.block with
    | none => .next s
    | some x =>
      let t := leTrap x x.idx 0 18 0 0 false
      let k1 := { k with block := some (k.again x) }
      match k.run with
      | .stopped _ => .next (s.setBank b { k1 with faults := k1.faults ++ [t] })
      | _ =>
        let r := makeRecord k k.insn t
        .next (s.setBank b { k1 with run := .stopped k.hmode, wait := .none, sys := if k.hmode then k.sys else r,
                                     trapAt := s.counter, report := some r })

/-! ### The restore (R432, R438, R440) -/

/-- PCTL_RESTORE (R429): CMD 2 restores a saved bank, from an area of its own die (DEDUCED, unsafe: log entry 37). -/
def execPctlRestore (b : Nat) (v : Word) (s : State) : Out :=
  if !validBank b then .fault .noSuchAgent
  else
    let s1 := s.modBank b fun k => { k with area := pctlArea v }
    if bits v 1 0 ≠ 2 ∨ (s.bank b).pst ≠ .saved ∨ !areaOk b (pctlArea v) then .next s1
    else .next ((s1.modBank b fun k => { k with pst := .restoring }).owe (.restoreComplete b))

/-- A row of the area holds what may not be edited: in row 0 all but the PC, in row 3 the mailboxes and bound sources, in the
others nothing (R440). -/
def fixedPart (r v : Nat) : Nat := if r = 0 then v / 2 ^ 64 else if r = 3 then v % 2 ^ 896 else 0

/-- The regions that must come back unchanged have done so, and no row of registers is poisoned (R440, R447)
(DESIGN CHOICE, unsafe: log entry 24). -/
def State.areaIntact (s : State) (b : Nat) (x : Saved) : Bool :=
  let k := s.bank b
  areaOk b k.area &&
  ((fixedRows x.sealedSave).all fun r => s.areaRow k.area r == ((Config.areaRow x.base r).toNat, false)) &&
  (x.sealedSave ||
    (((s.readArea b).areaRows b (s.hasRights b)).all fun p =>
      fixedPart p.1 (s.areaRow k.area p.1).1 == fixedPart p.1 p.2.1.toNat) &&
    (List.range 12).all fun r => !(s.areaRow k.area r).2)

/-- An event or a window access on its way names the task of bank b (R376). -/
def State.arriving (s : State) (b : Nat) : Bool :=
  (s.events.any fun e => s.taskBank (bits e.target 22 13) (bits e.target 12 7) (bits e.target 6 0) e.part == some b) ||
  s.gsram.any fun g => !isGsram g.pa && s.barrierBank g.b g.pa == some b

/-- RESTORE_COMPLETE (R376, R432, R440): once nothing is on its way to the saved context, every saved item is back, or the task
ends. -/
def execRestoreComplete (b : Nat) (s : State) : Out :=
  if !validBank b then .fault .noSuchAgent
  else
    let k := s.bank b
    match k.pst, Assoc.get none s.saved b with
    | .restoring, some x =>
      if s.arriving b then .next (s.owe (.restoreComplete b))
      else if !s.areaIntact b x then .next (s.endTask (bankDie b) k.bindRec)
      else
        let k1 := if x.sealedSave then k else s.readArea b
        let k2 := { k1.staleHandles with pst := .live, report := none,
                                         engs := k1.engs.map fun p => (p.1, p.2.map fun r => { r with parked := false }) }
        let s1 : State := { (s.setBank b k2) with saved := Assoc.set none s.saved b none }
        let s2 := match k2.run, k1.report with
          | .stopped d, some r => s1.reportStop b r d
          | _, _ => s1
        .next ((s2.pctlRecord b 2).rouse b)
    | _, _ => .next s

/-- SAVED_CONTEXT_ARRIVAL (R376, R431): what arrives for a saved task is applied to its context in the save area. -/
def execSavedContextArrival (b : Nat) (s : State) : Out :=
  if !validBank b then .fault .noSuchAgent
  else if (s.bank b).pst = .saved then .next (s.arrive b fun k => k) else .next s

/-! ### The debugger (R441 to R443) -/

/-- A bank that has translated a sealed page refuses the debugger (R433, R441) (DEDUCED, unsafe: log entry 38). -/
def State.coversCore (s : State) (c : Nat) : Bool := (s.bank (2 * c)).sealedSeen || (s.bank (2 * c + 1)).sealedSeen

/-- The kind of a target of the debug port: 0 a core, and on the I/O die, number 1,023, the management core and the security
processor, 126 and 127 of it (R407) (DEDUCED, unsafe: log entry 38). -/
def debugTarget (core : Nat) : Option Nat :=
  if validCore core then some 0
  else if core = 1023 * 128 + 126 then some 1
  else if core = 1023 * 128 + 127 then some 2
  else none

/-- DEBUG_ATTACH (R407, R441): the attach to a core or a processor is logged (DEDUCED, unsafe: log entry 38). -/
def execDebugAttach (core : Nat) (s : State) : Out :=
  match debugTarget core with
  | none => .fault .noSuchAgent
  | some kind =>
  if kind ≠ 0 then
    let detail : BitVec 256 := BitVec.ofNat 256 ((Config.debugKind kind).toNat + at' 1023 8 + at' (core % 128) 18)
    .next (({ s with modul := { s.modul with attached := (core % 128) :: s.modul.attached.filter fun n => n != core % 128 } } :
      State).logEvent 6 1023 0 0 detail)
  else if s.coversCore core then .next s
  else
    let detail : BitVec 256 := BitVec.ofNat 256 ((Config.debugKind 0).toNat + at' (coreDie core) 8 + at' (core % 128) 18)
    .next ((s.modCore core fun c => { c with attached := true }).logEvent 6 (coreDie core) 0 0 detail)

/-- Whether the debugger reaches bank b. -/
def State.debugs (s : State) (b : Nat) : Bool := (s.core (bankCore b)).attached && !(s.bank b).sealedSeen

/-- DEBUG_HALT_REQUEST (R442): the bank halts at its next boundary, before the instruction there issues. No engine's command has
trapped and no word executes: ASYNC is 0 and RESTART 0 (R414), and resumption goes on at ENPC, which is the boundary
(DEDUCED, unsafe: log entry 38). -/
def execDebugHaltRequest (b : Nat) (s : State) : Out :=
  if !validBank b then .fault .noSuchAgent
  else if s.debugs b ∧ (s.bank b).run = .live ∧ (s.bank b).pst = .live then
    .next (s.raise b { Trap.mk0 17 0 with restart := false, edge := true })
  else .next s

/-- A debugger's write of system register n: every field of the register but its reserved ones; RIGHTS is computed (R417,
R441). -/
def Bank.pokeSys (k : Bank) (n : Nat) (v : Word) : Bank :=
  let r := k.sys
  let put (x : SysRegs) : Bank := { k with sys := x }
  match n with
  | 0x000 => put { r with fstat := setBits (setBits (setBits v 63 32 0) 28 28 0) 23 23 0 }
  | 0x001 => put { r with epc := v }
  | 0x002 => put { r with enpc := v }
  | 0x004 => put { r with eaddr := v }
  | 0x005 => put { r with einfo := v }
  | 0x006 => put { r with eprog0 := v }
  | 0x007 => put { r with eprog1 := v }
  | 0x008 => put { r with eprog2 := v }
  | 0x009 => put { r with eprog3 := v }
  | 0x00F => put { r with einsn := v }
  | n => k.writeSys n v

/-- Write an item of a halted bank (R443); the number of the bank is its place, which no write changes
(DESIGN CHOICE, unsafe: log entry 24). -/
def Bank.debugWrite (k : Bank) (item : DebugItem) : Bank :=
  let clean (v : Row) : VReg := { VReg.zero with row := v }
  match item with
  | .handle h v =>
    if 15 < h then k
    else k.setHandle h { k.handle h with base := BitVec.ofNat 56 (bits v 63 0), intent := BitVec.ofNat 3 (bits v 127 64),
                                         gen := BitVec.ofNat 16 (bits v 191 128) }
  | .ad n v => if 15 < n then k else k.putAd n v
  | .layoutSlot n v => if 7 < n then k else k.putLayout n v
  | .queueRow q i v =>
    if 7 < q ∨ qCap q ≤ i then k
    else k.setQueue q ((k.queue q).setSlot q i { (k.queue q).slot q i with row := v, poison := false, chk := 0 })
  | .sreg n v => if 31 < n then k else k.setReg (BitVec.ofNat 5 n) v
  | .sysreg n v => k.pokeSys n v
  | .vreg n v => if 63 < n then k else { k with vregs := Assoc.set VReg.zero k.vregs n (clean v) }
  | .oreg n v => if 7 < n then k else { k with oregs := Assoc.set VReg.zero k.oregs n (clean v) }
  | .latch n v => if 5 < n then k else { k with latches := Assoc.set VReg.zero k.latches n (clean v) }
  | .mask n v => if n = 0 ∨ 7 < n then k else { k with masks := Assoc.set Mask.zero k.masks n { Mask.zero with bits := v } }
  | .spadRow _ _ => k
  | .barrier n v => if 63 < n then k else k.setCbar n v
  | .mbox n v => if 7 < n then k else { k with mbox := Assoc.set 0 k.mbox n v }
  | .bound n q v =>
    if 5 < n then k
    else { k with lbs := Assoc.set (.value 0) k.lbs n (if q then .queue (v % 4) else .value (v % 2 ^ 24)) }
  | .event v => { k with event := v }
  | .pc _ | .hmode _ | .tokens _ _ | .qhead _ _ | .qtail _ _ | .qrsv _ _ | .qcheck _ _ => k.debugLate item
  | .bindRec v => { k with bindRec := v % 64 }
  | .tile a i j v =>
    if 127 < i ∨ 127 < j then k
    else k.setTile a { k.tile a with elems := Assoc.set 0 (k.tile a).elems (i * 128 + j) v }
  | .edge a rows cols => k.setTile a { k.tile a with cutRows := 128 - rows, cutCols := 128 - cols }
  | .vtags n v => if 63 < n then k else { k with vregs := Assoc.set VReg.zero k.vregs n { k.vreg n with tags := v } }
  | .otags n v => if 7 < n then k else { k with oregs := Assoc.set VReg.zero k.oregs n { k.oreg n with tags := v } }
  | .spadRead _ => k
  | .taint n v => if n = 0 ∨ 7 < n then k else { k with masks := Assoc.set Mask.zero k.masks n { k.lmask n with taint := v } }

/-- The debugger writes an item of a halted bank (R443). -/
def Bank.debugPut (k : Bank) (item : DebugItem) : Bank :=
  match item with
  | .pc _ | .hmode _ | .tokens _ _ | .qhead _ _ | .qtail _ _ | .qrsv _ _ | .qcheck _ _ => { k with edits := k.edits ++ [item] }
  | _ => k.debugWrite item

/-- The debugger reads a scratchpad row of a halted bank: a tagged row leaves by the debug port, number 5, loses its tag, and is
poisoned zeros where a cap holds it back; while the port waits nothing is read (R404 to R406). -/
def State.debugRead (s : State) (b r : Nat) : State :=
  let c := s.readCell (spadKey (bankCore b) r) (s.bank b).part
  let give (s : State) (data : Row) (poison : Bool) : State :=
    { s with modul := { s.modul with debugged := (b * 8192 + r, data, poison) :: s.modul.debugged } }
  match s.egress (some 5) c.rtag with
  | .ok s1 => give s1 c.data c.poison
  | .wait s1 => s1
  | .capped => give s 0 true

/-- A write of the debugger to the editable regions of a saved bank (R440, R443): the program counter, the registers as R417 lets
software write them, and of the `v` and `o` registers the live-ins of a registered block, whose tags are no part of their rows. -/
def Bank.areaWrite (k : Bank) (item : DebugItem) : Bank :=
  let live (kind n : Nat) : Bool :=
    match k.block.bind fun x => x.rst with
    | some r => (List.range 16).any fun i => liveIn r i == (kind, n)
    | none => false
  match item with
  | .pc v =>
    let stopped : Bool := match k.run with
      | .stopped _ => true
      | _ => false
    { k with pc := v, edits := k.edits ++ if stopped then [item] else [] }
  | .sysreg n v => k.writeSys n v
  | .vreg n v =>
    if live 1 n then { k with vregs := Assoc.set VReg.zero k.vregs n { k.vreg n with row := v, poison := false } } else k
  | .oreg n v =>
    if live 2 n then { k with oregs := Assoc.set VReg.zero k.oregs n { k.oreg n with row := v, poison := false } } else k
  | .handle _ _ | .ad _ _ | .layoutSlot _ _ | .queueRow _ _ _ | .sreg _ _ | .tokens _ _ | .qhead _ _ | .qtail _ _ | .qrsv _ _
  | .qcheck _ _ | .barrier _ _ => k.debugWrite item
  | _ => k

/-- DEBUG_WINDOW_WRITE (R440, R441, R443): a register, image or row of a halted bank, or of the save area of a saved one, with a
new check value. -/
def execDebugWindowWrite (b : Nat) (item : DebugItem) (s : State) : Out :=
  if !validBank b then .fault .noSuchAgent
  else
    let k := s.bank b
    if k.pst = .saved then .next (if s.debugs b then s.arrive b fun k => k.areaWrite item else s)
    else match k.run with
    | .stopped _ =>
      if !s.debugs b || k.pst != .live then .next s
      else match item with
        | .spadRead r => .next (if r < spadRows then s.debugRead b r else s)
        | .spadRow r v =>
          .next (if r < spadRows then s.writeCell (spadKey (bankCore b) r) k.part v false 0 else s)
        | _ => .next (s.setBank b (k.debugPut item))
    | _ => .next s

/-! ### Corrected errors (R449, R450) -/

/-- The window of the present reference time. -/
def State.rasWindow (s : State) : Nat := s.reftime / 2 ^ 20

/-- THRESH of a die: 0 counts as 1. -/
def Die.thresh (d : Die) : Nat := max 1 ((d.rascfg.getD 4).toNat)

/-- The spares of a resource before any is used: 4, 16 or 8 rows of an SRAM bank, a lane, two columns, a cluster (R450)
(DESIGN CHOICE, unsafe: log entry 39). -/
def spareTotal (kind idx : Nat) : Nat :=
  let f := Config.spareCount (kind * 2 ^ 16 + idx)
  match kind with
  | 1 => [4, 16, 8].getD (f % 3) 4
  | 3 | 6 => 1
  | 4 => 2
  | _ => f

/-- The spares of a resource that are left: of a gleaner the others of its stack that no fault has retired (R450). -/
def State.spareLeft (s : State) (die kind idx : Nat) : Nat :=
  let used (i : Nat) : Nat := Assoc.get 0 (s.die die).spares (kind * 2 ^ 16 + i)
  if kind = 5 then
    if used idx ≠ 0 then 0
    else (((List.range 16).map fun g => 16 * (idx / 16) + g).filter fun g => g != idx && used g == 0).length
  else spareTotal kind idx - used idx

/-- The structure that takes a lasting fault for which a resource has no spare left: the cluster of an SRAM bank, then the die; of
a bank of a gleaner, which has 8 spare rows, of an HBM row and of a gleaner the die. A link lane goes on at half width and an
array column in its pair (R450) (DESIGN CHOICE, unsafe: log entry 39). -/
def faultPasses (kind idx : Nat) : Option (Nat × Nat) :=
  match kind with
  | 1 => some (if spareTotal 1 idx = 8 then (7, 0) else (6, Config.bankCluster idx % 14))
  | 2 | 5 | 6 => some (7, 0)
  | _ => none

/-- The resource that absorbs a lasting fault of this one, with the steps left to look. -/
def State.absorber (s : State) (die : Nat) : Nat → Nat → Nat → Option (Nat × Nat)
  | 0, _, _ => none
  | n + 1, kind, idx =>
    if 0 < s.spareLeft die kind idx then some (kind, idx)
    else match faultPasses kind idx with
      | some (k, i) => s.absorber die n k i
      | none => none

/-- No task holds a core of a cluster, for kind 6, or of a die (R450). -/
def State.plotsIdle (s : State) (die kind idx : Nat) : Bool :=
  s.banks.all fun p =>
    p.2.run == .idle || (if kind = 6 then bankCluster p.1 != 16 * die + idx else bankDie p.1 != die)

/-- A resource is remapped to a spare, and a record of kind 5 appended (R449). -/
def State.takeSpare (s : State) (die kind idx : Nat) : State :=
  let key := kind * 2 ^ 16 + idx
  let s1 := s.modDie die fun d => { d with spares := Assoc.set 0 d.spares key (Assoc.get 0 d.spares key + 1) }
  s1.askTrapRing die (trapRecord s.counter idx kind (if kind = 5 then s.spareLeft die 5 idx else s1.spareLeft die kind idx)
    0 0 0 die 0 0 5 false) .nobody

/-- A lasting fault: the resource that absorbs it is remapped, a cluster or a die only once its plots are idle; where nothing
absorbs it, the device goes on as it is (R449, R450) (DESIGN CHOICE, unsafe: log entry 39). -/
def State.remap (s : State) (die kind idx : Nat) : State :=
  let s1 := s.modDie die fun d => { d with ras := Assoc.set 0 d.ras (kind * 2 ^ 16 + idx) 0 }
  match s1.absorber die 3 kind idx with
  | none => s1
  | some (k, i) =>
    if k < 6 ∨ s1.plotsIdle die k i then s1.takeSpare die k i
    else s1.modDie die fun d => { d with remaps := (d.remaps.filter fun x => x != (k, i)) ++ [(k, i)] }

/-- The remaps of a die that wait for its plots are tried again. -/
def State.retryRemaps (s : State) (die : Nat) : State :=
  if (s.die die).remaps = [] then s
  else ((s.die die).remaps).foldl (fun s x => s.remap die x.1 x.2) (s.modDie die fun d => { d with remaps := [] })

/-- A die's counts belong to the present window. -/
def State.freshRas (s : State) (die : Nat) : State :=
  if (s.die die).rasWin = s.rasWindow then s else s.modDie die fun d => { d with ras := [], rasWin := s.rasWindow }

/-- Resources of a kind that a die numbers: SRAM banks and HBM rows in 16 bits, the lanes of ten links in 16 bits, 128 columns
of each of 104 arrays, 32 gleaners, 14 physical clusters, the die itself (R8, R15, R450) (DESIGN CHOICE, unsafe: log entry 39). -/
def rasCount (kind : Nat) : Nat :=
  match kind with
  | 1 | 2 | 3 => 2 ^ 16
  | 4 => 104 * 128
  | 5 => 32
  | 6 => 14
  | 7 => 1
  | _ => 0

/-- CORRECTED_ERROR (R449, R450): a resource of kind 1 to 7 counts one; at THRESH it is remapped. -/
def execCorrectedError (die kind idx : Nat) (s : State) : Out :=
  if !validDie die || rasCount kind ≤ idx then .fault .noSuchAgent
  else
    let s1 := (s.freshRas die).retryRemaps die
    let key := kind * 2 ^ 16 + idx
    let n := Assoc.get 0 (s1.die die).ras key + 1
    if (s1.die die).thresh ≤ n then .next (s1.remap die kind idx)
    else .next (s1.modDie die fun d => { d with ras := Assoc.set 0 d.ras key n })

/-- RAS_WINDOW_END (R449, R450): the counts start afresh in a new window, and remaps that wait are tried again. -/
def execRasWindowEnd (die : Nat) (s : State) : Out :=
  if !validDie die then .fault .noSuchAgent else .next ((s.freshRas die).retryRemaps die)

end Sys2Proof.Machine
end

