-- ==== Sys2Proof/Machine/Module.lean ====
section
/-! DEFINITION. The module in its host (spec/25 R467 to R475): reads and writes by the host and by CXL devices (R217),
configuration registers, the power limit, and bring-up. -/

namespace Sys2Proof.Machine

/-! ### Host and CXL reads (R217, R274) -/

/-- A line with its data and the poison of its row. -/
abbrev GotLine := Nat × BitVec 512 × Bool

/-- A line as memory gives it to a read, under key id 0 (R398). -/
def State.lineHome? (s : State) (key l : Nat) : GotLine :=
  let r := s.readHome (64 * l) 64 key
  (l, BitVec.ofNat 512 (leNat r.1), r.2)

/-- Take the owners' answers that have arrived for the lines asked (R270, R318). -/
def State.takePeeks (s : State) (key : Nat) (got : List GotLine) : List Nat → State × List GotLine
  | [] => (s, got)
  | l :: ls =>
    match (s.net.find? fun m => m.line == l && m.kind == .peekData).map fun m => s.takeMsg m.core l .peekData with
    | some (.got m i) =>
      let s1 : State := { s with net := s.net.eraseIdx i }
      let s2 := (s1.modDir l fun d => { d with busy := none, need := 0 }).finishPut l
      let h := s.lineHome? key l
      s2.takePeeks key (got ++ [if s.keyFits (64 * l) key then (l, s.given m, h.2.2) else h]) ls
    | some (.behind s1) => s1.takePeeks key got ls
    | _ => s.takePeeks key got ls

/-- Serve the lines of a read in its turn: a line that waits behind another message is left; a line of an engine-visible page or
without an owner comes from memory; another's owner is asked (R272, R274, R277). `arr`: the read's place. -/
def State.readLines (s : State) (arr key : Nat) (asked : List Nat) (got : List GotLine) : List Nat → State × List Nat × List GotLine
  | [] => (s, asked, got)
  | l :: ls =>
    let d := s.dir l
    if l ∈ asked || d.busy ≠ none || s.tentAt (64 * l) || s.ahead arr [l] then s.readLines arr key asked got ls
    else match d.owner, d.ev with
      | some o, false =>
        let s0 := s.modDir l fun d => { d with b := 0, capped := false }
        let s1 := (s0.toCache o l .peek 0 d.ev).modDir l fun d => { d with busy := some .read, need := 1 }
        s1.readLines arr key (asked ++ [l]) got ls
      | _, _ => s.readLines arr key asked (got ++ [s.lineHome? key l]) ls

/-- The egress port of a reader from outside (R404). -/
def Who.port (w : Who) : Option Nat :=
  match w with
  | .host => some 0
  | .cxl p => some (1 + p)
  | _ => none

/-- What the ports find for the rows of a read: those that have left, with those that a cap holds back, and whether all. -/
structure Leaving where
  s : State
  out : List (Nat × Bool)
  all : Bool

/-- The tagged rows of a read leave in turn through the reader's port; `out`: those before (R404 to R406). -/
def State.leave (s : State) (w : Who) (out : List (Nat × Bool)) : List Nat → Leaving
  | [] => { s := s, out := out, all := true }
  | r :: rs =>
    if out.any fun p => p.1 == r then s.leave w out rs
    else match s.egress w.port (s.readTag (256 * r)) with
      | .ok s1 => s1.leave w (out ++ [(r, false)]) rs
      | .wait s1 => { s := s1, out := out, all := false }
      | .capped => s.leave w (out ++ [(r, true)]) rs

/-- The byte at pa among the lines that a read has. -/
def gotByte (got : List GotLine) (pa : Nat) : Byte :=
  match got.find? fun g => g.1 == pa / 64 with
  | some g => lineByte g.2.1 pa
  | none => 0

/-- The completion of a read (R402, R406, R446): rows that a cap holds back are zero and poisoned. -/
def readReply (x : Bulk) (got : List GotLine) (capped : List Nat) : Reply :=
  .data ((List.range x.len).map fun j => if (x.pa + j) / 256 ∈ capped then 0 else gotByte got (x.pa + j))
    ((got.any fun g => g.2.2) || capped != [])

/-- BULK_READ (R217, R272, R274): read i arrives at its home, takes each line in its turn from its owner or from memory, and its
tagged rows leave through the reader's port; a sealed region aborts it (R402). The host's reads follow its writes. -/
def execBulkRead (i : Nat) (s : State) : Out :=
  match s.bulk[i]? with
  | none => .next s
  | some x0 =>
    let x := { x0 with pa := s.frameOf x0.pa, arr := s.arrNum x0.arr }
    let again (s : State) (y : Bulk) : Out := .next (({ s with bulk := s.bulk.set i y } : State).owe (.bulkRead i))
    let done (s : State) (r : Reply) : Out :=
      .next ((({ s with bulk := s.bulk.eraseIdx i } : State).reply x.who r).bulkTurn i)
    if x.data ≠ [] then .next (s.owe (.bulkWrite i))
    else if x0.arr == 0 && !s.arrives (s.bulkFoot x0) then again s { x0 with hop := x0.hop + s.stride (s.bulkFoot x0) }
    else if s.hostBehind i x0 || (x0.served == [] && s.burstWaits x0.who.cause x.pa) then .next (s.owe (.bulkRead i))
    else if (rowNums x.pa x.len).any fun r => (s.regionOf (256 * r)).isSome then done s .abort
    else
      let s0 := s.countArr x0.arr
      let ls := linesOf x.pa x.len
      let (s1, got1) := s0.takePeeks x.key x.got (x.served.filter fun l => !(x.got.any fun g => g.1 == l))
      let (s2, asked, got) := s1.readLines x.arr x.key x.served got1 (ls.filter fun l => !(got1.any fun g => g.1 == l))
      let y := { x0 with arr := x.arr, served := asked, got := got }
      if ls.all fun l => got.any fun g => g.1 == l then
        let z := s2.leave x.who x0.out (rowNums x.pa x.len)
        if z.all then done z.s (readReply x got ((z.out.filter fun p => p.2).map fun p => p.1))
        else again z.s { y with out := z.out }
      else again s2 y

/-! ### BAR4 and the CXL ports (R467, R469) -/

/-- Device memory that an access from outside may name, as the module's own die 0 sees holes (R195, R312)
(DEDUCED, unsafe: log entry 40) (DESIGN CHOICE, unsafe: log entry 41). -/
def State.memoryAt (s : State) (pa n : Nat) : Bool :=
  decide (pa + max n 1 ≤ 2 ^ 52) && (rowNums pa (max n 1)).all fun r =>
    let a := max pa (256 * r)
    let z := min (pa + max n 1 - 1) (256 * r + 255)
    isCached a && !s.inHole 0 a && !s.inHole 0 z && !s.noDie 0 a

/-- A write from outside goes to the homes of its rows; a whole row comes by a packet, by which it is tentative (R322). -/
def State.ioWrite (s : State) (w : Who) (pa : Nat) : Nat → List Byte → State
  | 0, _ => s
  | _, [] => s
  | n + 1, xs =>
    let room := 256 - pa % 256
    let ys := xs.take room
    let (tent, s1) := if ys.length = 256 then s.newPacket w false pa ys else (0, s)
    (s1.askTent pa ys 0 false 0 w tent 0).ioWrite w (pa + room) n (xs.drop room)

/-- A read from outside, under key id 0 (R398). -/
def State.ioRead (s : State) (w : Who) (pa n : Nat) : State :=
  let x : Bulk := { pa := pa, data := [], len := n, poison := false, rtag := 0, key := 0, who := w, served := [],
                    got := [], tent := 0, no := s.nextNo }
  ({ s with bulk := s.bulk ++ [x], sends := s.nextNo } : State).owe (.bulkRead s.bulk.length)

/-- An access from outside to device memory or to the wake window: a write of `data`, or where that is empty a read of
`len` bytes (R303, R467) (DESIGN CHOICE, unsafe: log entry 41). -/
def State.outside (s : State) (w : Who) (pa : Nat) (data : List Byte) (len : Nat) : State :=
  if isWakeWin pa && decide (pa < 2 ^ 52) then
    if data.length = 8 then
      if pa % 256 = 0 then
        s.sendWin { b := none, host := w == .host, wake := true, n := pa / 256 % 2 ^ 24, v := BitVec.ofNat 64 (leNat data), pa := pa }
      else s
    else s.reply w .unsupported
  else if data = [] then if s.memoryAt pa len then s.ioRead w pa len else s.reply w .unsupported
  else if s.memoryAt pa data.length then s.ioWrite w pa data.length data
  else s.reply w .unsupported

/-- An access of the host through BAR0 at offset o: a write of bytes 0 to 3 or 0 to 7 of each 64 goes to the notify register of a
queue, other bytes are reserved, and a read gives zeros (R346, R467) (DESIGN CHOICE, unsafe: log entry 41). -/
def State.bar0 (s : State) (o : Nat) (data : List Byte) (len : Nat) : State :=
  if 0x10000 ≤ o then (if data = [] then s.reply .host .unsupported else s)
  else if data = [] then s.reply .host (.data (List.replicate len 0) false)
  else if o % 64 = 0 ∧ (data.length = 4 ∨ data.length = 8) then
    s.sendWin { b := none, host := true, wake := false, n := o / 64, v := BitVec.ofNat 64 (leNat data), pa := 0 }
  else s

/-- HOST_MEMORY_ACCESS (R467, R474): a TLP through BAR4 at offset `off`, from 2^52 on through BAR0
(DEDUCED, unsafe: log entry 40) (DESIGN CHOICE, unsafe: log entry 41). -/
def execHostMemoryAccess (off : Nat) (data : List Byte) (len : Nat) (s : State) : Out :=
  if s.modul.ready then .next (if 2 ^ 52 ≤ off then s.bar0 (off - 2 ^ 52) data len else s.outside .host off data len)
  else .next (if data = [] then s.reply .host .abort else s)

/-- CXL_DEVICE_ACCESS (R217, R469): a device behind an attached port reads or writes. -/
def execCxlDeviceAccess (port addr : Nat) (data : List Byte) (len : Nat) (s : State) : Out :=
  if 3 < port then .fault .noSuchAgent
  else if bit (Assoc.get 0 (s.die 0).cxl port) 63 then .next (s.outside (.cxl port) addr data len)
  else .next s

/-! ### The power limit (R471) -/

/-- LIMIT of PWRLIM. -/
def Module.limit (m : Module) : Nat := (m.pwrlim.getD 9600).toNat

/-- PWRLIM_WRITE (R471, R474): a value outside 2,400 to 9,600 W leaves LIMIT unchanged (DEDUCED, unsafe: log entry 61). -/
def execPwrlimWrite (v : Word) (s : State) : Out :=
  let w := bits v 15 0
  if !s.modul.ready ∨ w < 2400 ∨ 9600 < w then .next s
  else .next { s with modul := { s.modul with pwrlim := some (BitVec.ofNat 16 w) } }

/-! ### Configuration registers (R4, R5) -/

/-- The value of QCTL (R345). -/
def HostQ.qctl (x : HostQ) : Word :=
  BitVec.ofNat 64 (at' (x.head % 2 ^ 32) 16 + at' (x.part % 16) 12 + at' (b2n x.err) 9 + at' (b2n x.enable) 8 + x.log2n % 32)

/-- The value of KSLOT[k] of a die (R397). -/
def State.kslot (s : State) (die k : Nat) : Word :=
  let x := s.keySlot die k
  if x.state = 0 then 0
  else BitVec.ofNat 64 (at' (x.part % 16) 20 + at' (x.state % 4) 16 + bits x.blob 15 0)

/-- The value of MSTAT (R473). -/
def Module.mstat (m : Module) : Word :=
  BitVec.ofNat 64 (at' (m.cfgoff % 65536) 32 + at' (m.epoch % 65536) 16 + at' (m.stage % 256) 8 + at' (b2n m.fuseout) 2 +
    at' (b2n m.fail) 1 + b2n m.ready)

/-- A new root of a partition (R381): it waits for a `SHOOT` of every page, but while the firmware brings the module up
(DEDUCED, unsafe: log entry 20) (DESIGN CHOICE, safe: log entry 25). -/
def State.writeRoot (s : State) (die p : Nat) (v : Word) : State :=
  let old := Assoc.get 0 (s.die die).ptroot p
  let new := BitVec.ofNat 64 (at' (bits v 51 13) 13 + bits v 0 0)
  let s1 := s.modDie die fun d =>
    { d with ptroot := Assoc.set 0 d.ptroot p new,
             rootNow := if s.modul.ready then d.rootNow else Assoc.set 0 d.rootNow p new }
  if old = new then s1
  else s1.logEvent 8 die p 0 (BitVec.ofNat 256 ((Config.registerNumber 0 p).toNat + at' old.toNat 16 + at' new.toNat 80))

/-- SQCLS1 to SQCLS3 after a write (R289): a format code of 3 leaves its field. -/
def sqclsValue (old v : Word) : Word :=
  let fmt (lo : Nat) : Nat := if bits v (lo + 1) lo = 3 then bits old (lo + 1) lo else bits v (lo + 1) lo
  BitVec.ofNat 64 (at' (bits v 63 24) 24 + at' (fmt 6) 6 + at' (fmt 4) 4 + bits v 0 0)

/-- QCTL after a write (R345). -/
def HostQ.written (x : HostQ) (v : Word) : HostQ :=
  let lg := bits v 4 0
  { x with part := bits v 15 12, err := x.err && !bit v 9, enable := bit v 8 && decide (1 ≤ lg) && decide (lg ≤ 16), log2n := lg }

/-- A write of QCTL: a change of PART is logged (R407) (DEDUCED, unsafe: log entry 62). -/
def State.writeQctl (s : State) (q : Nat) (v : Word) : State :=
  let x := s.hostQueue q
  let y := x.written v
  let s1 := s.updateQueue q y
  if y.part = x.part then s1
  else s1.logEvent 8 1023 y.part 0
    (BitVec.ofNat 256 ((Config.registerNumber 2 q).toNat + at' x.qctl.toNat 16 + at' y.qctl.toNat 80))

/-- A system register that the firmware writes while the bank is stopped: RESTART, ETGT, TVEC or TMASK (R417)
(DEDUCED, unsafe: log entry 62). -/
def State.writeStopped (s : State) (b n : Nat) (v : Word) : State :=
  match (s.bank b).run with
  | .stopped _ =>
    if (s.bank b).pst = .live ∧ n ∈ [0x000, 0x003, 0x00C, 0x00D] then s.modBank b fun k => k.writeSys n v else s
  | _ => s

/-- A write of the capacity behind a CXL port: it comes into force by a shootdown where it takes memory away, but while the firmware
brings the module up (R195, R469) (DEDUCED, unsafe: log entry 20). -/
def State.writeCxl (s : State) (die e : Nat) (v : Word) : State :=
  let new := BitVec.ofNat 64 (at' (bits v 63 63) 63 + bits v 40 0)
  let s1 := s.modDie die fun d => { d with cxl := Assoc.set 0 d.cxl e new }
  if s.modul.ready then s1.takeCxl false die e else s1.modDie die fun d => { d with cxlNow := Assoc.set 0 d.cxlNow e new }

/-- The tables that the firmware writes in STAGE 7 (R472). -/
def inStage7 (reg : CfgReg) : Bool :=
  match reg with
  | .ptroot _ | .sqcls _ | .tcfg | .qbase _ | .qctl _ | .relabel _ | .extents | .hostbase => true
  | _ => false

/-- CONFIG_REGISTER_WRITE (R4, R472): the writable fields of a configuration register take the value, before READY those of
STAGE 7 in that stage only (DEDUCED, unsafe: log entry 26); a number past the last register of its kind names no register
(DESIGN CHOICE, unsafe: log entry 27) (DESIGN CHOICE, unsafe: log entry 28). -/
def execConfigRegisterWrite (die : Nat) (reg : CfgReg) (v : Word) (s : State) : Out :=
  if !validDie die then .fault .noSuchAgent
  else if inStage7 reg && !s.modul.tablesOpen then .next s
  else match reg with
    | .ptroot p => .next (if 15 < p then s else s.writeRoot die p v)
    | .sqcls c =>
      .next (if c = 0 ∨ 3 < c then s
        else s.modDie die fun d => { d with sqcls := Assoc.set none d.sqcls c (some (sqclsValue (s.sqcls die c) v)) })
    | .tcfg => .next (s.modDie die fun d => { d with tcfg := BitVec.ofNat 64 (bits v 61 0) })
    | .wdctl => .next (s.modDie die fun d => { d with wdctl := some (BitVec.ofNat 32 (bits v 31 0)) })
    | .rascfg => .next (s.modDie die fun d => { d with rascfg := some (BitVec.ofNat 8 (bits v 7 0)) })
    | .chkey cl =>
      .next (if 12 < cl then s else s.modCluster (die * 16 + cl) fun c => { c with chkey := BitVec.ofNat 64 (bits v 15 0) })
    | .qbase q =>
      .next (if 1023 < q then s else s.updateQueue q { s.hostQueue q with base := BitVec.ofNat 64 (bits v 55 0) })
    | .qctl q => .next (if 1023 < q then s else s.writeQctl q v)
    | .relabel n =>
      .next (if 1023 < n then s
        else s.modDie die fun d =>
          { d with relabel := Assoc.set none d.relabel n (some (BitVec.ofNat 16 (at' (bits v 15 15) 15 + bits v 9 0))) })
    | .extents => .next (s.modDie die fun d => { d with extents := BitVec.ofNat 64 (bits v 5 0) })
    | .cxl m p =>
      .next (if 63 < m ∨ 3 < p then s else s.writeCxl die (4 * m + p) v)
    | .hostbase => .next { s with modul := { s.modul with hostbase := v } }
    | .lognonce i =>
      .next (if 3 < i ∨ !s.modul.ready then s
        else { s with modul := { s.modul with lognonce := Assoc.set 0 s.modul.lognonce i v } })
    | .kslot _ | .mstat => .next s
    | .bankReg b n => if validBank b ∧ bankDie b = die then .next (s.writeStopped b n v) else .fault .noSuchAgent

/-! ### Bring-up (R472 to R474) -/

/-- A package reset: every task ends, every register and SRAM is at reset, and bring-up runs from STAGE 1. What lies in
HBM, CXL memory and host memory, the fuses and the log stay (DEDUCED, unsafe: log entry 26). -/
def State.packageReset (s : State) : State :=
  { State.reset with
    agenda := s.agenda, free := s.free, mem := s.mem, memMeta := s.memMeta, hostMem := s.hostMem,
    modul := { Module.zero with stage := 1, fuseout := s.modul.fuseout, epoch := s.modul.epoch, svnmin := s.modul.svnmin,
                                log := s.modul.log,
                                checkpoints := s.modul.checkpoints, reports := s.modul.reports,
                                replies := s.modul.replies } }

/-- POWER_ON (R472) (DEDUCED, unsafe: log entry 26). -/
def execPowerOn (s : State) : Out := .next s.packageReset

/-- PERST_DEASSERT (R472, R474). -/
def execPerstDeassert (s : State) : Out := .next s.packageReset

/-- HOT_RESET (R474). -/
def execHotReset (s : State) : Out := .next s.packageReset

/-- Append an entry of the security processor's own (R407). -/
def State.appendOwn (s : State) (ty : Nat) (detail : BitVec 256) : State :=
  { s with modul := s.modul.append { ty := ty, die := 1023, part := 0, key := 0, detail := detail, time := s.reftime,
                                     epoch := s.modul.epoch, seq := 0, prev := 0 } }

/-- STAGE 1 (R409): one epoch fuse is blown and the epoch starts; with none left, the log has ended
(DEDUCED, safe: log entry 63). -/
def State.startEpoch (s : State) : State :=
  if 4096 ≤ s.modul.epoch then { s with modul := { s.modul with fuseout := true } }
  else ({ s with modul := { s.modul with epoch := s.modul.epoch + 1 } } : State).appendOwn 10 0

/-- The type-7 entry of firmware image i (R407, R411) (DEDUCED, safe: log entry 63). -/
def State.logFirmware (s : State) (i : Nat) : State :=
  s.appendOwn 7 (BitVec.ofNat 256 (bits (Config.firmwareHash i) 511 272 + at' (Config.firmwareSvn i).toNat 240))

/-- The security processor may run firmware image i: its SVN is at least SVNMIN; its signature is part of the step's outcome
(R411). -/
def State.svnOk (s : State) (i : Nat) : Bool := decide (s.modul.svnmin ≤ (Config.firmwareSvn i).toNat)

/-- Image i runs: its entry stands, and it may raise SVNMIN, which nothing lowers (R411). -/
def State.runFirmware (s : State) (i : Nat) : State :=
  let s1 := s.logFirmware i
  { s1 with modul := { s1.modul with svnmin := max s.modul.svnmin (Config.svnRaise i).toNat } }

/-- The firmware image that a stage verifies. -/
def stageImage (n : Nat) : Option Nat := if n = 2 then some 0 else if n = 4 then some 1 else none

/-- STAGE 3 (R397, R398): the key of key id 0 is new, so that no row of CXL memory written under the one before passes its
check. -/
def State.drawKeys (s : State) : State :=
  let rows := ((s.mem.map fun (p : Host.Cell) => p.1 / 256) ++ s.memMeta.map fun p => p.1).eraseDups.filter fun r =>
    isCxl (256 * r) && (s.rowMeta r).key == 0
  rows.foldl (fun s r => s.setRowMeta r { s.rowMeta r with key := 8192 + s.modul.epoch }) s

/-- STAGE 6 (R472): every HBM row is zero under key id 0, and every directory entry is in I. -/
def State.zeroHbm (s : State) : State :=
  { s with mem := s.mem.filter fun (p : Host.Cell) => !isHbm p.1, memMeta := s.memMeta.filter fun (p : Nat × RowMeta) => !isHbm (256 * p.1),
           dirs := s.dirs.filter fun (p : Nat × Dir) => !isHbm (64 * p.1) }

/-- What the stage that ends has done (R472). -/
def State.stageWork (s : State) (n : Nat) : State :=
  match n with
  | 1 => s.startEpoch
  | 2 => s.runFirmware 0
  | 3 => s.drawKeys
  | 4 => s.runFirmware 1
  | 6 => s.zeroHbm
  | 7 => { s with modul := { s.modul with cfgoff := Config.cfgOff.toNat } }
  | _ => s

/-- BRING_UP_STAGE_END (R472, R473): the running stage ends and the next begins, or the step has failed. -/
def execBringUpStageEnd (ok : Bool) (s : State) : Out :=
  let m := s.modul
  if m.stage = 0 ∨ 7 < m.stage ∨ m.fail then .next s
  else if !ok || (stageImage m.stage).any fun i => !s.svnOk i then .next { s with modul := { m with fail := true } }
  else
    let s1 := s.stageWork m.stage
    .next { s1 with modul := { s1.modul with stage := m.stage + 1 } }

/-- READY_SET (R472, R474): the device accepts host work. -/
def execReadySet (s : State) : Out :=
  if s.modul.stage = 8 ∧ !s.modul.fail then .next { s with modul := { s.modul with ready := true } } else .next s

end Sys2Proof.Machine
end

