-- ==== Sys2Proof/Machine/Scalar.lean ====
section
/-! DEFINITION. The sequencer's integer words (spec/06 R123 to R128): each reads its sources, writes one register and
advances. -/

namespace Sys2Proof.Machine

/-- Write `s`d and complete. -/
def result (s : State) (d : BitVec 5) (v : Word) : Out := finish (s.setReg d v)

/-! ### Results (R125, R126) -/

def mulHigh (a b : Word) : Word := BitVec.ofInt 64 (a.toInt * b.toInt / (2 ^ 64 : Nat))
def mulHighZ (a b : Word) : Word := BitVec.ofNat 64 (a.toNat * b.toNat / 2 ^ 64)

/-- Signed quotient, toward zero; all ones for a divisor of zero (R126). -/
def quotS (a b : Word) : Word := if b = 0 then BitVec.allOnes 64 else BitVec.ofInt 64 (Int.tdiv a.toInt b.toInt)
def quotZ (a b : Word) : Word := if b = 0 then BitVec.allOnes 64 else BitVec.ofNat 64 (a.toNat / b.toNat)

/-- Signed remainder with the sign of the dividend; the dividend for a divisor of zero (R126). -/
def remS (a b : Word) : Word := if b = 0 then a else BitVec.ofInt 64 (Int.tmod a.toInt b.toInt)
def remZ (a b : Word) : Word := if b = 0 then a else BitVec.ofNat 64 (a.toNat % b.toNat)

/-- A shift count: the low six bits (R127). -/
def count (b : Word) : Nat := b.toNat % 64

/-- The 128-bit value a:b shifted right (R125). -/
def funnel (a b c : Word) : Word := BitVec.ofNat 64 ((a.toNat * 2 ^ 64 + b.toNat) / 2 ^ count c)

/-- Leading zero bits among the n low bits of x. -/
def clzGo (x : Nat) : Nat → Nat
  | 0 => 0
  | n + 1 => if Nat.testBit x n then 0 else clzGo x n + 1

/-- Trailing zero bits of x from bit k, n bits left. -/
def ctzGo (x : Nat) : Nat → Nat → Nat
  | 0, _ => 0
  | n + 1, k => if Nat.testBit x k then 0 else ctzGo x n (k + 1) + 1

def popGo (x : Nat) : Nat → Nat
  | 0 => 0
  | n + 1 => popGo x n + b2n (Nat.testBit x n)

/-! ### The integer group (R125) -/

/-- `ADD` (R125). -/
def execAdd (d a b : BitVec 5) (s : State) : Out := result s d (s.reg a + s.reg b)

/-- `SUB` (R125). -/
def execSub (d a b : BitVec 5) (s : State) : Out := result s d (s.reg a - s.reg b)

/-- `MUL` (R125). -/
def execMul (d a b : BitVec 5) (s : State) : Out := result s d (s.reg a * s.reg b)

/-- `MULH` (R125). -/
def execMulh (d a b : BitVec 5) (s : State) : Out := result s d (mulHigh (s.reg a) (s.reg b))

/-- `MULHZ` (R125). -/
def execMulhz (d a b : BitVec 5) (s : State) : Out := result s d (mulHighZ (s.reg a) (s.reg b))

/-- `DIV` (R126). -/
def execDiv (d a b : BitVec 5) (s : State) : Out := result s d (quotS (s.reg a) (s.reg b))

/-- `DIVZ` (R126). -/
def execDivz (d a b : BitVec 5) (s : State) : Out := result s d (quotZ (s.reg a) (s.reg b))

/-- `REM` (R126). -/
def execRem (d a b : BitVec 5) (s : State) : Out := result s d (remS (s.reg a) (s.reg b))

/-- `REMZ` (R126). -/
def execRemz (d a b : BitVec 5) (s : State) : Out := result s d (remZ (s.reg a) (s.reg b))

/-- `AND` (R125). -/
def execAnd (d a b : BitVec 5) (s : State) : Out := result s d (s.reg a &&& s.reg b)

/-- `OR` (R125). -/
def execOr (d a b : BitVec 5) (s : State) : Out := result s d (s.reg a ||| s.reg b)

/-- `XOR` (R125). -/
def execXor (d a b : BitVec 5) (s : State) : Out := result s d (s.reg a ^^^ s.reg b)

/-- `ANDN` (R125). -/
def execAndn (d a b : BitVec 5) (s : State) : Out := result s d (s.reg a &&& ~~~(s.reg b))

/-- `SHL` (R125, R127). -/
def execShl (d a b : BitVec 5) (s : State) : Out := result s d (s.reg a <<< count (s.reg b))

/-- `SHR` (R125, R127). -/
def execShr (d a b : BitVec 5) (s : State) : Out := result s d (s.reg a >>> count (s.reg b))

/-- `SRA` (R125, R127). -/
def execSra (d a b : BitVec 5) (s : State) : Out := result s d ((s.reg a).sshiftRight (count (s.reg b)))

/-- `ROT` (R125, R127). -/
def execRot (d a b : BitVec 5) (s : State) : Out := result s d ((s.reg a).rotateLeft (count (s.reg b)))

/-- `FSH` (R125, R127). -/
def execFsh (d a b c : BitVec 5) (s : State) : Out := result s d (funnel (s.reg a) (s.reg b) (s.reg c))

/-- `CLZ` (R125). -/
def execClz (d a : BitVec 5) (s : State) : Out := result s d (BitVec.ofNat 64 (clzGo (s.reg a).toNat 64))

/-- `CTZ` (R125). -/
def execCtz (d a : BitVec 5) (s : State) : Out := result s d (BitVec.ofNat 64 (ctzGo (s.reg a).toNat 64 0))

/-- `POPC` (R125). -/
def execPopc (d a : BitVec 5) (s : State) : Out := result s d (BitVec.ofNat 64 (popGo (s.reg a).toNat 64))

/-- `MIN` (R125). -/
def execMin (d a b : BitVec 5) (s : State) : Out :=
  result s d (if (s.reg b).slt (s.reg a) then s.reg b else s.reg a)

/-- `MAX` (R125). -/
def execMax (d a b : BitVec 5) (s : State) : Out :=
  result s d (if (s.reg a).slt (s.reg b) then s.reg b else s.reg a)

/-- `MINZ` (R125). -/
def execMinz (d a b : BitVec 5) (s : State) : Out :=
  result s d (if (s.reg b).ult (s.reg a) then s.reg b else s.reg a)

/-- `MAXZ` (R125). -/
def execMaxz (d a b : BitVec 5) (s : State) : Out :=
  result s d (if (s.reg a).ult (s.reg b) then s.reg b else s.reg a)

/-- `CMP.cc` (R34, R125). -/
def execCmp (d a b : BitVec 5) (cc : BitVec 3) (s : State) : Out :=
  result s d (flag (cond cc (s.reg a) (s.reg b)))

/-- `SEL` (R125). -/
def execSel (d a b c : BitVec 5) (s : State) : Out :=
  result s d (if s.reg c ≠ 0 then s.reg a else s.reg b)

/-! ### Immediate and address words (R124) -/

/-- `ADDI` (R124). -/
def execAddi (d a : BitVec 5) (imm : BitVec 12) (s : State) : Out := result s d (s.reg a + immS imm)

/-- `ANDI` (R124). -/
def execAndi (d a : BitVec 5) (imm : BitVec 12) (s : State) : Out := result s d (s.reg a &&& immZ imm)

/-- `ORI` (R124). -/
def execOri (d a : BitVec 5) (imm : BitVec 12) (s : State) : Out := result s d (s.reg a ||| immZ imm)

/-- `XORI` (R124). -/
def execXori (d a : BitVec 5) (imm : BitVec 12) (s : State) : Out := result s d (s.reg a ^^^ immZ imm)

/-- `LUI` (R124). -/
def execLui (d : BitVec 5) (imm : BitVec 20) (s : State) : Out := result s d (immU imm)

/-- `ADDPC` (R124): the address of the word itself, in a delay slot too. -/
def execAddpc (d : BitVec 5) (imm : BitVec 20) (s : State) : Out := result s d (s.me.pc + immU imm)

end Sys2Proof.Machine
end

