-- ==== Sys2Proof/Machine/Dispatch.lean ====
section
/-! DEFINITION. exec: one arm for each operation and event, each one call of its meaning. -/

namespace Sys2Proof.Machine

/-- The effect of one operation or event (DESIGN CHOICE, safe: log entry 3). -/
def exec (i : Instr) (s : State) : Host.Outcome State Fault Refusal :=
  match i with
  | .add d a b => Sys2Proof.Machine.execAdd d a b s
  | .sub d a b => Sys2Proof.Machine.execSub d a b s
  | .mul d a b => Sys2Proof.Machine.execMul d a b s
  | .mulh d a b => Sys2Proof.Machine.execMulh d a b s
  | .mulhz d a b => Sys2Proof.Machine.execMulhz d a b s
  | .div d a b => Sys2Proof.Machine.execDiv d a b s
  | .divz d a b => Sys2Proof.Machine.execDivz d a b s
  | .rem d a b => Sys2Proof.Machine.execRem d a b s
  | .remz d a b => Sys2Proof.Machine.execRemz d a b s
  | .and d a b => Sys2Proof.Machine.execAnd d a b s
  | .or d a b => Sys2Proof.Machine.execOr d a b s
  | .xor d a b => Sys2Proof.Machine.execXor d a b s
  | .andn d a b => Sys2Proof.Machine.execAndn d a b s
  | .shl d a b => Sys2Proof.Machine.execShl d a b s
  | .shr d a b => Sys2Proof.Machine.execShr d a b s
  | .sra d a b => Sys2Proof.Machine.execSra d a b s
  | .rot d a b => Sys2Proof.Machine.execRot d a b s
  | .fsh d a b c => Sys2Proof.Machine.execFsh d a b c s
  | .clz d a => Sys2Proof.Machine.execClz d a s
  | .ctz d a => Sys2Proof.Machine.execCtz d a s
  | .popc d a => Sys2Proof.Machine.execPopc d a s
  | .min d a b => Sys2Proof.Machine.execMin d a b s
  | .max d a b => Sys2Proof.Machine.execMax d a b s
  | .minz d a b => Sys2Proof.Machine.execMinz d a b s
  | .maxz d a b => Sys2Proof.Machine.execMaxz d a b s
  | .cmp d a b cc => Sys2Proof.Machine.execCmp d a b cc s
  | .sel d a b c => Sys2Proof.Machine.execSel d a b c s
  | .addi d a imm => Sys2Proof.Machine.execAddi d a imm s
  | .andi d a imm => Sys2Proof.Machine.execAndi d a imm s
  | .ori d a imm => Sys2Proof.Machine.execOri d a imm s
  | .xori d a imm => Sys2Proof.Machine.execXori d a imm s
  | .lui d imm => Sys2Proof.Machine.execLui d imm s
  | .addpc d imm => Sys2Proof.Machine.execAddpc d imm s
  | .b a b cc off => Sys2Proof.Machine.execB a b cc off s
  | .j off => Sys2Proof.Machine.execJ off s
  | .jal d off => Sys2Proof.Machine.execJal d off s
  | .jr d a => Sys2Proof.Machine.execJr d a s
  | .ld d h t off => Sys2Proof.Machine.execLd d h t off s
  | .lda d h t off => Sys2Proof.Machine.execLda d h t off s
  | .st a h t off => Sys2Proof.Machine.execSt a h t off s
  | .stl a h t off => Sys2Proof.Machine.execStl a h t off s
  | .ldm d h n off => Sys2Proof.Machine.execLdm d h n off s
  | .stm a h n off => Sys2Proof.Machine.execStm a h n off s
  | .atom d h b op sz off => Sys2Proof.Machine.execAtom d h b op sz off s
  | .cas d h b sz off => Sys2Proof.Machine.execCas d h b sz off s
  | .fence h => Sys2Proof.Machine.execFence h s
  | .fenceIfetch h => Sys2Proof.Machine.execFenceIfetch h s
  | .ldq q h n off => Sys2Proof.Machine.execLdq q h n off s
  | .xlate a h intent => Sys2Proof.Machine.execXlate a h intent s
  | .hdrop h => Sys2Proof.Machine.execHdrop h s
  | .hinfo d h k => Sys2Proof.Machine.execHinfo d h k s
  | .keyld a h off => Sys2Proof.Machine.execKeyld a h off s
  | .qpush a q => Sys2Proof.Machine.execQpush a q s
  | .qpop d q => Sys2Proof.Machine.execQpop d q s
  | .qadvHead q n => Sys2Proof.Machine.execQadvHead q n s
  | .qadvTail q n => Sys2Proof.Machine.execQadvTail q n s
  | .qlvl d q => Sys2Proof.Machine.execQlvl d q s
  | .lnset lv bsrc sel => Sys2Proof.Machine.execLnset lv bsrc sel s
  | .adset n h off => Sys2Proof.Machine.execAdset n h off s
  | .layout k h off => Sys2Proof.Machine.execLayout k h off s
  | .mblk h off => Sys2Proof.Machine.execMblk h off s
  | .waitAny d a b n => Sys2Proof.Machine.execWaitAny d a b n s
  | .waitAll d a b n => Sys2Proof.Machine.execWaitAll d a b n s
  | .sev a => Sys2Proof.Machine.execSev a s
  | .retire => Sys2Proof.Machine.execRetire s
  | .yield => Sys2Proof.Machine.execYield s
  | .time d k => Sys2Proof.Machine.execTime d k s
  | .cbarr n => Sys2Proof.Machine.execCbarr n s
  | .cbset a b n => Sys2Proof.Machine.execCbset a b n s
  | .cbadd a n => Sys2Proof.Machine.execCbadd a n s
  | .launch h off => Sys2Proof.Machine.execLaunch h off s
  | .phase k => Sys2Proof.Machine.execPhase k s
  | .trap k => Sys2Proof.Machine.execTrap k s
  | .eret => Sys2Proof.Machine.execEret s
  | .halt => Sys2Proof.Machine.execHalt s
  | .bkpt => Sys2Proof.Machine.execBkpt s
  | .shoot a => Sys2Proof.Machine.execShoot a s
  | .keydrop a => Sys2Proof.Machine.execKeydrop a s
  | .srd d n => Sys2Proof.Machine.execSrd d n s
  | .swr a n => Sys2Proof.Machine.execSwr a n s
  | .run x => Sys2Proof.Machine.execRun x s
  | .cpy x => Sys2Proof.Machine.execCpy x s
  | .xform x => Sys2Proof.Machine.execXform x s
  | .attns x => Sys2Proof.Machine.execAttns x s
  | .sqopen x => Sys2Proof.Machine.execSqopen x s
  | .sqapp x => Sys2Proof.Machine.execSqapp x s
  | .sqfork x => Sys2Proof.Machine.execSqfork x s
  | .sqtrunc x => Sys2Proof.Machine.execSqtrunc x s
  | .sqpark x => Sys2Proof.Machine.execSqpark x s
  | .sqwake x => Sys2Proof.Machine.execSqwake x s
  | .sqclose x => Sys2Proof.Machine.execSqclose x s
  | .sqinfo x => Sys2Proof.Machine.execSqinfo x s
  | .attnd x => Sys2Proof.Machine.execAttnd x s
  | .rdx x => Sys2Proof.Machine.execRdx x s
  | .coll x => Sys2Proof.Machine.execColl x s
  | .ring x => Sys2Proof.Machine.execRing x s
  | .plough x => Sys2Proof.Machine.execPlough x s
  | .tokp x => Sys2Proof.Machine.execTokp x s
  | .vnop => Sys2Proof.Machine.execVnop s
  | .vbrk w => Sys2Proof.Machine.execVbrk w s
  | .vend w => Sys2Proof.Machine.execVend w s
  | .vtripMrg w => Sys2Proof.Machine.execVtripMrg w s
  | .vtripAcc w => Sys2Proof.Machine.execVtripAcc w s
  | .vtripProb w => Sys2Proof.Machine.execVtripProb w s
  | .vmask w => Sys2Proof.Machine.execVmask w s
  | .vadd w => Sys2Proof.Machine.execVadd w s
  | .vsub w => Sys2Proof.Machine.execVsub w s
  | .vmul w => Sys2Proof.Machine.execVmul w s
  | .vfma w => Sys2Proof.Machine.execVfma w s
  | .vfms w => Sys2Proof.Machine.execVfms w s
  | .vmin w => Sys2Proof.Machine.execVmin w s
  | .vmax w => Sys2Proof.Machine.execVmax w s
  | .vabs w => Sys2Proof.Machine.execVabs w s
  | .vneg w => Sys2Proof.Machine.execVneg w s
  | .vrcp w => Sys2Proof.Machine.execVrcp w s
  | .vrsq w => Sys2Proof.Machine.execVrsq w s
  | .vexp w => Sys2Proof.Machine.execVexp w s
  | .vexpSub w => Sys2Proof.Machine.execVexpSub w s
  | .vtab w => Sys2Proof.Machine.execVtab w s
  | .vtload w => Sys2Proof.Machine.execVtload w s
  | .vcvt w => Sys2Proof.Machine.execVcvt w s
  | .vqnt w => Sys2Proof.Machine.execVqnt w s
  | .vdqnt w => Sys2Proof.Machine.execVdqnt w s
  | .vand w => Sys2Proof.Machine.execVand w s
  | .vor w => Sys2Proof.Machine.execVor w s
  | .vxor w => Sys2Proof.Machine.execVxor w s
  | .vnot w => Sys2Proof.Machine.execVnot w s
  | .vshl w => Sys2Proof.Machine.execVshl w s
  | .vshr w => Sys2Proof.Machine.execVshr w s
  | .vsra w => Sys2Proof.Machine.execVsra w s
  | .vfsh w => Sys2Proof.Machine.execVfsh w s
  | .vclz w => Sys2Proof.Machine.execVclz w s
  | .vpopc w => Sys2Proof.Machine.execVpopc w s
  | .vpackWrap w => Sys2Proof.Machine.execVpackWrap w s
  | .vpackClamp w => Sys2Proof.Machine.execVpackClamp w s
  | .vpackBits w => Sys2Proof.Machine.execVpackBits w s
  | .vunpackLo w => Sys2Proof.Machine.execVunpackLo w s
  | .vunpackHi w => Sys2Proof.Machine.execVunpackHi w s
  | .vunpackBits w => Sys2Proof.Machine.execVunpackBits w s
  | .vcmp w => Sys2Proof.Machine.execVcmp w s
  | .vsel w => Sys2Proof.Machine.execVsel w s
  | .vcommit w => Sys2Proof.Machine.execVcommit w s
  | .vred w => Sys2Proof.Machine.execVred w s
  | .vscan w => Sys2Proof.Machine.execVscan w s
  | .vgmax w => Sys2Proof.Machine.execVgmax w s
  | .vperm w => Sys2Proof.Machine.execVperm w s
  | .vbcast w => Sys2Proof.Machine.execVbcast w s
  | .viota w => Sys2Proof.Machine.execViota w s
  | .vrotm w => Sys2Proof.Machine.execVrotm w s
  | .vld w => Sys2Proof.Machine.execVld w s
  | .vldIdx w => Sys2Proof.Machine.execVldIdx w s
  | .vst w => Sys2Proof.Machine.execVst w s
  | .vstIdx w => Sys2Proof.Machine.execVstIdx w s
  | .vstmBits w => Sys2Proof.Machine.execVstmBits w s
  | .vstmRng w => Sys2Proof.Machine.execVstmRng w s
  | .vxq w => Sys2Proof.Machine.execVxq w s
  | .vmov w => Sys2Proof.Machine.execVmov w s
  | .mma w => Sys2Proof.Machine.execMma w s
  | .mmax w => Sys2Proof.Machine.execMmax w s
  | .mzero w => Sys2Proof.Machine.execMzero w s
  | .mload w => Sys2Proof.Machine.execMload w s
  | .mstore w => Sys2Proof.Machine.execMstore w s
  | .mrow w => Sys2Proof.Machine.execMrow w s
  | .medge w => Sys2Proof.Machine.execMedge w s
  | .mtrans w => Sys2Proof.Machine.execMtrans w s
  | .bundleIssue b => Sys2Proof.Machine.execBundleIssue b s
  | .blockStart b => Sys2Proof.Machine.execBlockStart b s
  | .loopBoundPop b => Sys2Proof.Machine.execLoopBoundPop b s
  | .blockRetire b => Sys2Proof.Machine.execBlockRetire b s
  | .blockMigrate b => Sys2Proof.Machine.execBlockMigrate b s
  | .blockMigrateReturn b => Sys2Proof.Machine.execBlockMigrateReturn b s
  | .mwordComplete b => Sys2Proof.Machine.execMwordComplete b s
  | .copyStart b => Sys2Proof.Machine.execCopyStart b s
  | .copyRetire b => Sys2Proof.Machine.execCopyRetire b s
  | .multicastRowLand b => Sys2Proof.Machine.execMulticastRowLand b s
  | .transformStart cl eng part => Sys2Proof.Machine.execTransformStart cl eng part s
  | .transformRetire cl eng => Sys2Proof.Machine.execTransformRetire cl eng s
  | .completionRecordAppend n => Sys2Proof.Machine.execCompletionRecordAppend n s
  | .sheafCommandAccept b walker => Sys2Proof.Machine.execSheafCommandAccept b walker s
  | .slabRelocationStep seq layer => Sys2Proof.Machine.execSlabRelocationStep seq layer s
  | .walkerRetire b => Sys2Proof.Machine.execWalkerRetire b s
  | .gleanerBlock b => Sys2Proof.Machine.execGleanerBlock b s
  | .attndRetire b => Sys2Proof.Machine.execAttndRetire b s
  | .rdxRetire b => Sys2Proof.Machine.execRdxRetire b s
  | .collectiveInstanceStart gid nth => Sys2Proof.Machine.execCollectiveInstanceStart gid nth s
  | .collectiveRetire b => Sys2Proof.Machine.execCollectiveRetire b s
  | .ringTripleArrival gid nth owner shard => Sys2Proof.Machine.execRingTripleArrival gid nth owner shard s
  | .ringFinalTimeout gid nth owner => Sys2Proof.Machine.execRingFinalTimeout gid nth owner s
  | .ploughCountExchange gid nth => Sys2Proof.Machine.execPloughCountExchange gid nth s
  | .ploughRetire b => Sys2Proof.Machine.execPloughRetire b s
  | .launchProcess die => Sys2Proof.Machine.execLaunchProcess die s
  | .notifyRegisterWrite q v => Sys2Proof.Machine.execNotifyRegisterWrite q v s
  | .mapperQueueMap slot => Sys2Proof.Machine.execMapperQueueMap slot s
  | .mapperRecordTake slot => Sys2Proof.Machine.execMapperRecordTake slot s
  | .bindRecordWrite die rec v => Sys2Proof.Machine.execBindRecordWrite die rec v s
  | .taskStart die rec => Sys2Proof.Machine.execTaskStart die rec s
  | .phaseRendezvous die rec => Sys2Proof.Machine.execPhaseRendezvous die rec s
  | .retireComplete b => Sys2Proof.Machine.execRetireComplete b s
  | .pslotWrite die part v => Sys2Proof.Machine.execPslotWrite die part v s
  | .frameBoundary die => Sys2Proof.Machine.execFrameBoundary die s
  | .serviceUnitStart die res part len => Sys2Proof.Machine.execServiceUnitStart die res part len s
  | .acmodeWrite cl v => Sys2Proof.Machine.execAcmodeWrite cl v s
  | .acmodeTakeEffect cl => Sys2Proof.Machine.execAcmodeTakeEffect cl s
  | .waitConditionMet b => Sys2Proof.Machine.execWaitConditionMet b s
  | .waitTimeout b => Sys2Proof.Machine.execWaitTimeout b s
  | .eventArrival n => Sys2Proof.Machine.execEventArrival n s
  | .barrierWindowAccess n => Sys2Proof.Machine.execBarrierWindowAccess n s
  | .homeAtomic n => Sys2Proof.Machine.execHomeAtomic n s
  | .storeAck b n => Sys2Proof.Machine.execStoreAck b n s
  | .loadDataReturn b => Sys2Proof.Machine.execLoadDataReturn b s
  | .ldqRowArrival b n => Sys2Proof.Machine.execLdqRowArrival b n s
  | .pageWalkComplete b h => Sys2Proof.Machine.execPageWalkComplete b h s
  | .shootDieArrival b die => Sys2Proof.Machine.execShootDieArrival b die s
  | .shootComplete b => Sys2Proof.Machine.execShootComplete b s
  | .keyRequestServe die => Sys2Proof.Machine.execKeyRequestServe die s
  | .accessLogAppend => Sys2Proof.Machine.execAccessLogAppend s
  | .logreqWrite v => Sys2Proof.Machine.execLogreqWrite v s
  | .attestationRequest nonce => Sys2Proof.Machine.execAttestationRequest nonce s
  | .egressCreditRequest port die key => Sys2Proof.Machine.execEgressCreditRequest port die key s
  | .wakeWrite seq v => Sys2Proof.Machine.execWakeWrite seq v s
  | .wakeStage1End seq => Sys2Proof.Machine.execWakeStage1End seq s
  | .wakeStage2End seq => Sys2Proof.Machine.execWakeStage2End seq s
  | .sheafAgeThreshold id => Sys2Proof.Machine.execSheafAgeThreshold id s
  | .sheafMoveComplete id => Sys2Proof.Machine.execSheafMoveComplete id s
  | .lendGrant lender borrower frames => Sys2Proof.Machine.execLendGrant lender borrower frames s
  | .lendRecall lender borrower => Sys2Proof.Machine.execLendRecall lender borrower s
  | .cohGetS core line => Sys2Proof.Machine.execCohGetS core line s
  | .cohGetX core line => Sys2Proof.Machine.execCohGetX core line s
  | .cohUpg core line => Sys2Proof.Machine.execCohUpg core line s
  | .cohPut core line => Sys2Proof.Machine.execCohPut core line s
  | .cohAck core line => Sys2Proof.Machine.execCohAck core line s
  | .cohDO core line => Sys2Proof.Machine.execCohDO core line s
  | .cohDS core line => Sys2Proof.Machine.execCohDS core line s
  | .cohDW core line => Sys2Proof.Machine.execCohDW core line s
  | .cohDX core line => Sys2Proof.Machine.execCohDX core line s
  | .writeThrough core line => Sys2Proof.Machine.execWriteThrough core line s
  | .bulkWrite n => Sys2Proof.Machine.execBulkWrite n s
  | .bulkRead n => Sys2Proof.Machine.execBulkRead n s
  | .cohDataS core line => Sys2Proof.Machine.execCohDataS core line s
  | .cohDataE core line => Sys2Proof.Machine.execCohDataE core line s
  | .cohDataX core line => Sys2Proof.Machine.execCohDataX core line s
  | .cohGrant core line => Sys2Proof.Machine.execCohGrant core line s
  | .cohFwdS core line => Sys2Proof.Machine.execCohFwdS core line s
  | .cohFwdX core line => Sys2Proof.Machine.execCohFwdX core line s
  | .cohInv core line => Sys2Proof.Machine.execCohInv core line s
  | .cohPeek core line => Sys2Proof.Machine.execCohPeek core line s
  | .cohPutAck core line => Sys2Proof.Machine.execCohPutAck core line s
  | .cacheFill core line => Sys2Proof.Machine.execCacheFill core line s
  | .linkTagFail pkt => Sys2Proof.Machine.execLinkTagFail pkt s
  | .packetFinal pkt => Sys2Proof.Machine.execPacketFinal pkt s
  | .refusal src => Sys2Proof.Machine.execRefusal src s
  | .reissue src => Sys2Proof.Machine.execReissue src s
  | .migrationRegisterWrite old new size => Sys2Proof.Machine.execMigrationRegisterWrite old new size s
  | .copyPassEnd page => Sys2Proof.Machine.execCopyPassEnd page s
  | .recallComplete page => Sys2Proof.Machine.execRecallComplete page s
  | .recopyEnd page => Sys2Proof.Machine.execRecopyEnd page s
  | .migrationGraceEnd page => Sys2Proof.Machine.execMigrationGraceEnd page s
  | .reftimeBeacon ticks => Sys2Proof.Machine.execReftimeBeacon ticks s
  | .asyncTrapTaken b => Sys2Proof.Machine.execAsyncTrapTaken b s
  | .handlerEntry b => Sys2Proof.Machine.execHandlerEntry b s
  | .bankStopDrainEnd b => Sys2Proof.Machine.execBankStopDrainEnd b s
  | .bctlResume b => Sys2Proof.Machine.execBctlResume b s
  | .bctlEndTask b => Sys2Proof.Machine.execBctlEndTask b s
  | .bctlEnterHandler b => Sys2Proof.Machine.execBctlEnterHandler b s
  | .taskEndComplete die rec => Sys2Proof.Machine.execTaskEndComplete die rec s
  | .pctlSave b v => Sys2Proof.Machine.execPctlSave b v s
  | .pctlRestore b v => Sys2Proof.Machine.execPctlRestore b v s
  | .saveComplete b => Sys2Proof.Machine.execSaveComplete b s
  | .restoreComplete b => Sys2Proof.Machine.execRestoreComplete b s
  | .blockWatchdog b => Sys2Proof.Machine.execBlockWatchdog b s
  | .savedContextArrival b => Sys2Proof.Machine.execSavedContextArrival b s
  | .debugAttach core => Sys2Proof.Machine.execDebugAttach core s
  | .debugHaltRequest b => Sys2Proof.Machine.execDebugHaltRequest b s
  | .debugWindowWrite b item => Sys2Proof.Machine.execDebugWindowWrite b item s
  | .correctedError die kind idx => Sys2Proof.Machine.execCorrectedError die kind idx s
  | .rasWindowEnd die => Sys2Proof.Machine.execRasWindowEnd die s
  | .hostMemoryAccess off data len => Sys2Proof.Machine.execHostMemoryAccess off data len s
  | .cxlDeviceAccess port addr data len => Sys2Proof.Machine.execCxlDeviceAccess port addr data len s
  | .pwrlimWrite v => Sys2Proof.Machine.execPwrlimWrite v s
  | .configRegisterWrite die reg v => Sys2Proof.Machine.execConfigRegisterWrite die reg v s
  | .powerOn => Sys2Proof.Machine.execPowerOn s
  | .perstDeassert => Sys2Proof.Machine.execPerstDeassert s
  | .hotReset => Sys2Proof.Machine.execHotReset s
  | .bringUpStageEnd ok => Sys2Proof.Machine.execBringUpStageEnd ok s
  | .readySet => Sys2Proof.Machine.execReadySet s
  | .bundleCopyComplete b => Sys2Proof.Machine.execBundleCopyComplete b s
  | .globalSramHomeAccess n => Sys2Proof.Machine.execGlobalSramHomeAccess n s
  | .pairedWindowStart b => Sys2Proof.Machine.execPairedWindowStart b s
  | .meterCreditAgeOut die key => Sys2Proof.Machine.execMeterCreditAgeOut die key s

end Sys2Proof.Machine
end

