-- ==== Sys2Proof/Machine/Place.lean ====
section
/-! DEFINITION. Fetching and issuing the next word of a bank's sequencer (spec/02 R60, R63), the choice of who moves next
(spec/16 R358), the passing of time (spec/01 R17), and placing one instruction where the next step fetches it. -/

namespace Sys2Proof.Machine

/-! ### Time -/

/-- n cycles pass; a reference tick is 19 cycles (R3) (DESIGN CHOICE, unsafe: log entry 2). -/
def State.advance (n : Nat) (s : State) : State :=
  { s with counter := s.counter + n, reftime := max s.reftime ((s.counter + n) / 19) }

/-- A cycle ends: every waiting bank samples (R365, R367); then n cycles pass, and the frame boundaries among them take effect
(R354, R356). -/
def State.cycle (n : Nat) (s : State) : State := (s.sampleAll.advance n).frames

/-! ### The sequencer -/

/-- Whether bank k's sequencer is ready to issue (R358): a task runs, nothing is waited for, and no engine's fault stands
at its boundary; a fault waits while a handler's record is unanswered (R415). A save lets the word in a branch's slot
execute first (R430). -/
def Bank.ready (k : Bank) : Bool :=
  k.run == .live && (k.pst == .live || (k.pst == .saving && k.slot.isSome)) && k.pend.isNone && k.wait == .none &&
  (k.dueFault.isNone || k.slot.isSome)

/-- Bank b acts, and its core's turn is taken (R358, R377). -/
def State.actAs (s : State) (b : Nat) : State :=
  let s1 := (s.modBank b fun k => { k with yielded := false }).modBank (otherBank b) fun k => { k with yielded := false }
  { s1.modCore (bankCore b) fun c => { c with turn := 1 + b % 2 } with cur := b }

/-- What the fetch of an instruction comes to: its trap, a wait, or its word, with the state after it. -/
inductive FetchedInsn where
  | trap (t : Trap) (s : State)
  | wait (s : State)
  | word (w : Nat) (s : State)

/-- The word at bank b's program counter, in [31:0], with its extension word in [63:32] when it is the head of a double
word (R43), or the trap of a fetch fault on either word (R60) (DEDUCED, safe: log entry 18). -/
def State.fetchInsn (s : State) (b : Nat) : FetchedInsn :=
  let pc := (s.bank b).pc
  match s.fetchWord b pc with
  | .trap t s1 => .trap t s1
  | .wait s1 => .wait s1
  | .word w s1 =>
    if isSXHead w.toNat then
      match s1.fetchWord b (pc + 4) with
      | .trap t s2 => .trap t s2
      | .wait s2 => .wait s2
      | .word x s2 => .word (w.toNat + x.toNat * 2 ^ 32) s2
    else .word w.toNat s1

/-- Bank b's word, in the register that its trap would save. -/
def State.holding (s : State) (b w : Nat) : State := s.modBank b fun k => { k with insn := BitVec.ofNat 64 w }

/-- The state in which bank b's fetched word executes. -/
def State.issued (s : State) (b w : Nat) : State := (s.actAs b).holding b w

/-- The state in which bank b's word tries to issue without taking a turn. -/
def State.tried (s : State) (b w : Nat) : State := { s.holding b w with cur := b }

/-- A word stalls: it has not issued, and its bank stands where it stood (R235, R358). -/
def stalled (b : Nat) (s : State) (o : Out) : Bool :=
  match o with
  | .next t =>
    let k := s.bank b
    let x := t.bank b
    x.pc == k.pc && x.slot == k.slot && x.run == k.run && x.wait == k.wait && x.pend == k.pend && x.hmode == k.hmode &&
    x.tokp == k.tokp
  | _ => false

/-- Bank b's word stalls, or is still being fetched (R358) (DEDUCED, unsafe: log entry 14). -/
def State.stalls (s : State) (b : Nat) : Bool :=
  match s.fetchInsn b with
  | .wait _ => true
  | .trap _ _ => false
  | .word w s1 =>
    match decodeFetch w with
    | none => false
    | some i => stalled b s1 (exec i (s1.issued b w))

/-- Whether bank b's sequencer may issue now: ready, and where the core's other bank is ready too and does not stall, that one
issued last and b has not yielded to it (R358, R377). -/
def State.mayIssue (s : State) (b : Nat) : Bool :=
  let k := s.bank b
  let o := s.bank (otherBank b)
  k.ready && !(o.ready && ((s.core (bankCore b)).turn == 1 + b % 2 || (k.yielded && !o.yielded)) && !s.stalls (otherBank b))

/-- The sequencer of bank b issues the word at its program counter, when it is that bank's turn (R358): a fetch fault and an
encoding that is no instruction trap first (R60) (DEDUCED, safe: log entry 18). A word that stalls takes no turn. -/
def seqStep (b : Nat) (s : State) : Out :=
  if !validBank b then .fault .noSuchAgent
  else if !s.mayIssue b then .next s
  else match s.fetchInsn b with
    | .wait s1 => .next { s1 with cur := b }
    | .trap t s1 => .next ((s1.issued b 0).takeTrap b t)
    | .word w s1 =>
      match decodeFetch w with
      | none => .next ((s1.issued b w).takeTrap b illegalInstruction)
      | some i =>
        let o := exec i (s1.issued b w)
        if stalled b s1 o then exec i (s1.tried b w) else o

/-! ### Who moves next -/

/-- The next bank that may issue, after the one that acted last. -/
def State.nextBank (s : State) : Option Nat :=
  let ids := (s.banks.map fun p => p.1).filter fun b => s.mayIssue b
  match ids.find? fun b => s.cur < b with
  | some b => some b
  | none => ids.head?

/-! ### What time or a quiet unit brings about -/

/-- A packet whose row has landed gets its final tag (R322). -/
def duePacket (s : State) : Option Out :=
  (s.packets.find? fun p => match p.2 with
    | some x => s.packetReady p.1 x
    | none => false).map fun p => execPacketFinal p.1 s

/-- A block of a saving bank has used up its time (R439). -/
def dueWatchdog (s : State) : Option Out :=
  (s.banks.find? fun p => s.watchdogDue p.1).map fun p => execBlockWatchdog p.1 s

/-- A write of ACMODE finds its loop engines idle (R177). -/
def dueAcmode (s : State) : Option Out :=
  (s.clusters.find? fun p => p.2.acnext.isSome && s.loopsIdle p.1).map fun p => execAcmodeTakeEffect p.1 s

/-- The grace period of a migrated page has passed (R327). -/
def dueGrace (s : State) : Option Out :=
  (s.migr.find? fun m => m.phase == 4 && decide (m.since + 65536 ≤ s.reftime)).map fun m => execMigrationGraceEnd m.old s

/-- A `RING` reaches an owner's final deadline (R338). -/
def dueRing (s : State) : Option Out :=
  s.insts.findSome? fun i =>
    let runs := (s.instRuns i.gid i.nth).filter fun p => p.2.started && p.2.op == .ring
    ((List.range (grpRanked i.grp).length).find? fun o =>
      !i.merged.contains o && match memberAt i.grp runs o with
        | some (_, r) => decide (o < r.p) && decide (r.final ≤ s.reftime)
        | none => false).map fun o => execRingFinalTimeout i.gid i.nth o s

/-- A meter can grant credit to a port that waits (R405). -/
def dueCredit (s : State) : Option Out :=
  s.dies.findSome? fun p =>
    (p.2.keys.find? fun k => k.2.waiting.any fun port => match s.draw port p.1 k.1 with
      | .ok _ => true
      | _ => false).map fun k => execMeterCreditAgeOut p.1 k.1 s

/-- A sheaf has reached its age (R290). -/
def dueAge (s : State) : Option Out :=
  (s.sheaves.find? fun p => match p.2 with
    | some x => s.ageReached p.1 x
    | none => false).map fun p => execSheafAgeThreshold p.1 s

/-- A window of corrected errors has ended, or the plots that a remap waits for are idle (R449, R450). -/
def dueRas (s : State) : Option Out :=
  (s.dies.find? fun p => (p.2.ras != [] && p.2.rasWin != s.rasWindow) || p.2.remaps.any fun x => s.plotsIdle p.1 x.1 x.2).map
    fun p => execRasWindowEnd p.1 s

/-- The next event that time or a quiet unit brings about. -/
def dueStep (s : State) : Option Out :=
  [duePacket, dueWatchdog, dueAcmode, dueGrace, dueRing, dueCredit, dueAge, dueRas].findSome? fun f => f s

/-- The next step of bring-up (R472); nothing once READY is set or bring-up has failed
(DESIGN CHOICE, safe: log entry 12). -/
def bringUp (s : State) : Out :=
  if s.modul.ready || s.modul.fail then .next s
  else if s.modul.stage = 0 then execPowerOn s
  else if s.modul.stage < 8 then execBringUpStageEnd true s
  else execReadySet s

/-- The sequencers and the owed events, by turns; with neither, bring-up. -/
def turnStep (s : State) : Out :=
  match s.pending, s.nextBank with
  | [], none => bringUp s
  | [], some b => seqStep b s
  | i :: rest, none => exec i { s with pending := rest }
  | i :: rest, some b => if s.counter % 2 = 1 then exec i { s with pending := rest } else seqStep b s

/-- With no move chosen from outside: first what is due, then the agents by turns (DESIGN CHOICE, unsafe: log entry 1). -/
def autoStep (s : State) : Out :=
  match dueStep s with
  | some o => o
  | none => turnStep s

/-! ### Messages that arrive in one cycle (R272) -/

/-- The source of the message that an event of a home names. -/
def State.arrivalSrc (s : State) (i : Instr) : Option Nat :=
  match i with
  | .cohGetS c _ | .cohGetX c _ | .cohUpg c _ | .writeThrough c _ => some (srcCore c)
  | .bulkWrite n | .bulkRead n => (s.bulk[n]?).map fun x => x.who.src
  | .homeAtomic n => (s.atomics[n]?).map fun r => srcCore (bankCore r.b)
  | .completionRecordAppend n => (s.rings[n]?).map fun q => q.who.src
  | _ => none

/-- A request of core c for a line arrives at its home. -/
def State.arriveNet (s : State) (c l : Nat) (k : MKind) : State :=
  match s.takeMsg c l k with
  | .got m n => { s.countArr m.arr with net := s.net.set n { m with arr := s.arrNum m.arr } }
  | _ => s

/-- The message that an event of a home names arrives there, and waits for its turn. -/
def State.arriveAt (s : State) (i : Instr) : State :=
  let s1 : State := match i with
    | .cohGetS c l => s.arriveNet c l .getS
    | .cohGetX c l => s.arriveNet c l .getX
    | .cohUpg c l => s.arriveNet c l .upg
    | .writeThrough c l => s.arriveNet c l (.wthru 0 0 0)
    | .bulkWrite n | .bulkRead n =>
      match s.bulk[n]? with
      | some x =>
        if x.arr == 0 && !s.arrives (s.bulkFoot x) then s
        else { s.countArr x.arr with bulk := s.bulk.set n { x with arr := s.arrNum x.arr } }
      | none => s
    | .homeAtomic n =>
      match s.atomics[n]? with
      | some r =>
        if r.arr ≠ 0 ∨ !s.arrives (s.atomicFoot r) then s
        else match s.seatAtomic r.b r.pa r.refused with
          | .later => s
          | .refused s1 m => { s1 with atomics := s1.atomics.set n { r with refused := m } }
          | .accepted s1 m => { s1 with atomics := s1.atomics.set n { r with arr := m } }
      | none => s
    | .completionRecordAppend n =>
      match s.rings[n]? with
      | some q =>
        if q.arr == 0 && !s.arrives (s.ringFoot q) then s
        else { s.countArr q.arr with rings := s.rings.set n { q with arr := s.arrNum q.arr } }
      | none => s
    | _ => s
  s1.owe i

/-- Insert an event after those of lower or equal sources. -/
def insertBySource (n : Nat) (i : Instr) : List (Nat × Instr) → List (Nat × Instr)
  | [] => [(n, i)]
  | x :: xs => if x.1 ≤ n then x :: insertBySource n i xs else (n, i) :: x :: xs

/-- Messages arrive in one cycle, in the order of their sources (R272). -/
def State.arriveTogether (s : State) (is : List Instr) : State :=
  let xs := is.foldl (fun acc i => match s.arrivalSrc i with
    | some n => insertBySource n i acc
    | none => acc) []
  xs.foldl (fun s x => s.arriveAt x.2) s

/-- n bytes that an uncorrectable error leaves: free values. -/
def State.junk (s : State) (n : Nat) : List Byte := (List.range n).map fun i => Config.poisonByte (256 * s.free + i)

/-- An uncorrectable error destroys what has a poison bit: its bytes are free values, the check value that it carries stays, and it
is poisoned (R445) (DEDUCED, unsafe: log entry 75). -/
def State.upset (s : State) (x : Spot) : State :=
  let xs := s.junk 256
  let row : Row := BitVec.ofNat 2048 (leNat xs)
  let s1 := s.tickFree
  let cell (c : RowCell) : RowCell := { c with data := row, poison := true, chk := c.check ^^^ rowCheck row }
  let reg (r : VReg) : VReg := { r with row := row, poison := true }
  match x with
  | .mem n =>
    if isCached (256 * n) then
      let s2 := s1.setBytes (256 * n) xs
      let c := (s1.settle n).rowChk n
      s2.setRowMeta n { s2.rowMeta n with poison := true, chk := c ^^^ rowCheck row }
    else s
  | .sram key => s1.setCell key (cell (s.cell key))
  | .gleaner key => { s1 with glSram := Assoc.set RowCell.zero s.glSram key (cell (Assoc.get RowCell.zero s.glSram key)) }
  | .vreg b i => s1.modBank b fun k => { k with vregs := Assoc.set VReg.zero k.vregs i (reg (k.vreg i)) }
  | .oreg b i => s1.modBank b fun k => { k with oregs := Assoc.set VReg.zero k.oregs i (reg (k.oreg i)) }
  | .tile b i =>
    let elem (n : Nat) : BitVec 32 := BitVec.ofNat 32 (leNat ((List.range 4).map fun j => Config.poisonByte (256 * s.free + 4 * n + j)))
    let elems := (List.range tileSize).filterMap fun n => if elem n = 0 then none else some (n, elem n)
    ({ s with free := s.free + 256 } : State).modBank b fun k =>
      k.setTile (i != 0) { k.tile (i != 0) with elems := elems, poison := true }
  | .entry b q p =>
    s1.modBank b fun k =>
      let e := (k.queue q).slot q p
      k.setQueue q ((k.queue q).setSlot q p { e with row := row, poison := true, chk := e.check ^^^ rowCheck row })

/-- Whether an operation is an event, not an instruction word. -/
def isEvent (i : Instr) : Bool := (encode i).isNone

/-- One move (R196, R272, R358): the next of the agenda, or the machine's own (DESIGN CHOICE, unsafe: log entry 1). -/
def move (s : State) : Out :=
  match s.agenda with
  | [] => autoStep (s.cycle 1)
  | .seq b :: rest => seqStep b { s.cycle 1 with agenda := rest }
  | .ev i :: rest => if isEvent i then exec i { s.cycle 1 with agenda := rest } else .next { s.cycle 1 with agenda := rest }
  | .together is :: rest => .next ({ s.cycle 1 with agenda := rest }.arriveTogether is)
  | .tick n :: rest => .next { s.cycle n with agenda := rest }
  | .upset x :: rest => .next ({ s.cycle 1 with agenda := rest }.upset x)

/-! ### Placing an instruction -/

/-- The device physical address at which `withFetchWord` places a word, and its virtual address. -/
def placePa : Nat := 0x10000
def placeVa : Word := 0x10000

/-- Write bytes to memory under key id 0 with clean rows, no cache holding them. -/
def State.place (s : State) (pa : Nat) (xs : List Byte) : State :=
  let s1 := (s.setBytes pa xs).setRowMeta (pa / 256) RowMeta.zero
  { s1 with dirs := Assoc.del s1.dirs (pa / 64) }

/-- Bank 0 of core 0 of die 0 ready to issue at `placeVa`, through a page of its partition's tables (R381, R383). -/
def State.placeBank (s : State) : State :=
  let part := (s.bank 0).part
  let s1 := s.modBank 0 fun k =>
    { k with run := .live, pst := .live, pc := placeVa, slot := none, pend := none, wait := .none, faults := [] }
  let s2 := s1.modDie 0 fun d =>
    { d with ptroot := Assoc.set 0 d.ptroot part 0x2001, rootNow := Assoc.set 0 d.rootNow part 0x2001,
             relabel := Assoc.set none d.relabel 0 (some 0x8000) }
  let s3 := s2.modCore 0 fun c => { c with icache := [], tlb := [], lines := [] }
  let entry (t : Nat) : List Byte := natLE 8 (t / 8192 * 2 ^ 21 + 1)
  (((s3.place 0x2000 (entry 0x4000)).place 0x4000 (entry 0x6000)).place 0x6000 (entry 0x8000)).place 0x8008
    (natLE 8 (placePa / 65536 * 2 ^ 24 + 0x23))

/-- A block of bank 0 whose next bundle is `w`. -/
def State.placeBundle (s : State) (w : Nat) : State :=
  s.placeBank.modBank 0 fun k =>
    { k with
      ibuf := Assoc.set 0 k.ibuf 0 (BitVec.ofNat 384 w), copied := true, arr := [],
      block := some { start := 0, depth := 0, first := 0, idx := 0, phase := .issue, trapped := false, lx := [], bnd := [],
                      brk := 6, sregs := [], frm := 0, hkey := 0, pc := placeVa, rst := none, hc := [], host := none,
                      ext := { push := 0, popa := 7, popb := 7, popc := 7, sig := false, scb := 0, wt := false, wcb := 0 } } }

/-- Core 0 holds the translation and the line of the word at `placeVa`, so that its fetch takes no unit of service (R64, R476). -/
def State.placeLine (s : State) : State :=
  let x : Xlat := { part := (s.bank 0).part, page := placeVa.toNat, size := 0, leaf := BitVec.ofNat 64 (placePa / 65536 * 2 ^ 24 + 0x23) }
  s.modCore 0 fun c => { c with tlb := [x], icache := Assoc.set none [] (placePa / 64) (some (s.lineNow 0 0 placePa)) }

/-- The instruction of nbits bits w where the next step takes it: a word of the sequencer at bank 0's program counter, a
V-word or M-word in the bundle that bank 0's loop engine issues next (DESIGN CHOICE, safe: log entry 12). -/
def placeWord (s : State) (nbits w : Nat) : State :=
  let v := w % 2 ^ nbits
  if nbits ≤ 64 then { (s.placeBank.place placePa (natLE 64 v)).placeLine with agenda := [.seq 0], pending := [] }
  else if nbits ≤ 96 then { s.placeBundle v with agenda := [.ev (.bundleIssue 0)], pending := [] }
  else { s.placeBundle (v * 2 ^ 192) with agenda := [.ev (.bundleIssue 0)], pending := [] }

end Sys2Proof.Machine
end

