-- ==== Sys2Proof/Machine/Step.lean ====
section
/-! DEFINITION. One step of the system, and the placing of one instruction for it. -/

namespace Sys2Proof.Machine

/-- One step: one move of one agent (notes/assumptions/1). -/
def step (s : State) : Host.Outcome State Fault Refusal := move s

/-- The state with that instruction where the next step takes it. -/
def State.withFetchWord (s : State) (nbits w : Nat) : State := placeWord s nbits w

end Sys2Proof.Machine
end

