-- ==== Sys2Proof/Safety.lean ====
section
/-! DEFINITION. What the claims call a sound state: memories in canonical form, time in order, an existing bank acting. -/

namespace Sys2Proof.Machine

/-- A byte memory in canonical form: addresses strictly rising, no entry zero. -/
def Memory.wf (m : List Host.Cell) : Bool := Assoc.wf 0 m

/-- Device memory and host memory are in canonical form. -/
def State.memWf (s : State) : Bool := Memory.wf s.mem && Memory.wf s.hostMem

/-- The invariant of every step: memories in canonical form, the reference time (R3) no earlier than the counter gives, and
an acting bank that exists (R8, R10). -/
def State.Inv (s : State) : Prop := s.memWf = true ∧ s.counter / 19 ≤ s.reftime ∧ validBank s.cur = true

end Sys2Proof.Machine
end

