-- ==== Sys2Proof/Certificates/Slice0/Obligations.lean ====
section
/-! DEFINITION. The statements about the model: what each instruction and each event does, what it leaves unchanged, where
it completes, where it traps, and what the machine keeps. -/

namespace Sys2Proof.Says

open Sys2Proof.Machine

/-! ### Words that the statements share -/

/-- Of the whole state, t differs from s at most in the acting bank. -/
def OnlyMe (s t : State) : Prop :=
  (∀ b, b ≠ s.cur → t.bank b = s.bank b) ∧ { t with banks := s.banks } = s

/-- Of the acting bank, t differs from s at most in general registers, program counter and delay slot. -/
def OnlyRegs (s t : State) : Prop :=
  { t.me with regs := s.me.regs, pc := s.me.pc, slot := s.me.slot } = s.me

/-- Every byte of device memory reads in t as in s. -/
def SameMemory (s t : State) : Prop := ∀ a, t.byte a = s.byte a

/-- The sequencer has gone on past a word of n bytes, or to where its branch leads when the word stands in a delay
slot (R79, R80). -/
def GoesOn (n : Nat) (s t : State) : Prop :=
  t.me.slot = none ∧
  t.me.pc = match s.me.slot with
    | none => s.me.pc + BitVec.ofNat 64 n
    | some x => if x.taken then x.target else x.branch + 8

/-- Of the general registers, `s`d alone holds a new value v; `s0` is never written (R30). -/
def Sets (d : BitVec 5) (v : Word) (s t : State) : Prop := ∀ r, t.reg r = if r = d ∧ r ≠ 0 then v else s.reg r

/-- A word of 4 bytes that writes v to `s`d completes with no other effect: registers, program counter, and the frame. -/
def Writes (i : Instr) (s : State) (d : BitVec 5) (v : Word) : Prop :=
  ∃ t, exec i s = .next t ∧ Sets d v s t ∧ GoesOn 4 s t ∧ OnlyRegs s t ∧ OnlyMe s t ∧ SameMemory s t

/-- The conditions of R34, over exact numbers. -/
def Holds (cc : BitVec 3) (a b : Word) : Prop :=
  match cc.toNat with
  | 0 => a = b
  | 1 => a ≠ b
  | 2 => a.toInt < b.toInt
  | 3 => b.toInt ≤ a.toInt
  | 4 => a.toNat < b.toNat
  | 5 => b.toNat ≤ a.toNat
  | 6 => a &&& b ≠ 0
  | _ => a &&& b = 0

/-- The number of leading zero bits of a. -/
def LeadingZeros (a : Word) (n : Nat) : Prop :=
  n ≤ 64 ∧ (∀ i, 64 - n ≤ i → i < 64 → a.getLsbD i = false) ∧ (n < 64 → a.getLsbD (63 - n) = true)

/-- The number of trailing zero bits of a. -/
def TrailingZeros (a : Word) (n : Nat) : Prop :=
  n ≤ 64 ∧ (∀ i, i < n → a.getLsbD i = false) ∧ (n < 64 → a.getLsbD n = true)

/-- As `OnlyMe`, but for the events that the machine still owes. -/
def OnlyMeOwing (s t : State) : Prop :=
  (∀ b, b ≠ s.cur → t.bank b = s.bank b) ∧ { t with banks := s.banks, pending := s.pending } = s

/-- The fault record r of a synchronous trap of class c and sub-code u that bank k takes (R83, R415, R417): in the slot of
a taken branch it names the branch, its target and DS 1; elsewhere the word at the program counter. -/
def Record (k : Bank) (c u : Nat) (restart : Bool) (r : SysRegs) : Prop :=
  bits r.fstat 7 0 = c ∧ bits r.fstat 15 8 = u ∧ bits r.fstat 22 20 = 0 ∧ bit r.fstat 25 = restart ∧
  bit r.fstat 26 = false ∧ bit r.fstat 27 = false ∧
  (match k.slot with
   | some x =>
     if x.taken then bit r.fstat 24 = true ∧ r.epc = x.branch ∧ r.enpc = x.branch + 4 ∧ r.etgt = x.target
     else bit r.fstat 24 = false ∧ r.epc = k.pc ∧ r.enpc = k.pc + BitVec.ofNat 64 (insnLen k.insn) ∧ r.etgt = 0
   | none =>
     bit r.fstat 24 = false ∧ r.epc = k.pc ∧ r.enpc = k.pc + BitVec.ofNat 64 (insnLen k.insn) ∧ r.etgt = 0) ∧
  r.einsn = (if insnLen k.insn = 8 then k.insn else k.insn &&& 0xFFFFFFFF) ∧
  r.tvec = k.sys.tvec ∧ r.tmask = k.sys.tmask ∧ r.escr0 = k.sys.escr0 ∧ r.escr1 = k.sys.escr1 ∧ r.fpc = k.sys.fpc ∧
  r.hkey = k.sys.hkey

/-- The acting bank has taken a synchronous trap (R416, R419): with bit c of TMASK set, TVEC not zero, no handler running
and c not 17, it has entered its handler with the record; otherwise it is stopping, and in handler mode the record still
holds the first trap. No register, no other bank, no memory has changed. -/
def Trapped (c u : Nat) (restart : Bool) (s t : State) : Prop :=
  ∃ r, Record s.me c u restart r ∧
    (if bit s.me.sys.tmask c = true ∧ s.me.sys.tvec ≠ 0 ∧ s.me.hmode = false ∧ c ≠ 17 then
       t.me.run = .live ∧ t.me.sys = r ∧ t.me.hmode = true ∧ t.me.slot = none ∧
       t.me.pc = BitVec.ofNat 64 (bits s.me.sys.tvec 55 2 * 4)
     else t.me.run = .stopping (if s.me.hmode then s.me.sys else r) r s.me.hmode ∧ t.me.sys = s.me.sys ∧
       t.me.hmode = s.me.hmode ∧ t.me.pc = s.me.pc ∧ t.me.trapAt = s.counter) ∧
    (∀ q, t.reg q = s.reg q) ∧ t.me.handles = s.me.handles ∧ t.me.queues = s.me.queues ∧ t.me.cmds = s.me.cmds ∧
    t.me.posts = s.me.posts ∧ (∀ b, b ≠ s.cur → t.bank b = s.bank b) ∧ SameMemory s t ∧ t.sram = s.sram ∧ t.cur = s.cur

/-- i takes a synchronous trap with RESTART 1, before any effect. -/
def Traps (i : Instr) (s : State) (c u : Nat) : Prop := ∃ t, exec i s = .next t ∧ Trapped c u true s t

/-- i waits: it has no effect and counts as not executed (R235). -/
def Waits (i : Instr) (s : State) : Prop := exec i s = .next s

/-- The access of a word that reaches memory through a handle (R219): handle, offset, bytes, width of its alignment, and
the rights that it needs. -/
inductive Access : Instr → Nat → Nat → Nat → Nat → BitVec 3 → Prop
  | ld (d : BitVec 5) (h t : BitVec 4) (off : BitVec 12) :
      Access (.ld d h t off) h.toNat (off.toNat * typeBytes t) (typeBytes t) (typeBytes t) 1
  | lda (d : BitVec 5) (h t : BitVec 4) (off : BitVec 12) :
      Access (.lda d h t off) h.toNat (off.toNat * typeBytes t) (typeBytes t) (typeBytes t) 1
  | st (a : BitVec 5) (h t : BitVec 4) (off : BitVec 12) :
      Access (.st a h t off) h.toNat (off.toNat * typeBytes t) (typeBytes t) (typeBytes t) 2
  | stl (a : BitVec 5) (h t : BitVec 4) (off : BitVec 12) :
      Access (.stl a h t off) h.toNat (off.toNat * typeBytes t) (typeBytes t) (typeBytes t) 2
  | ldm (d : BitVec 5) (h : BitVec 4) (n : BitVec 3) (off : BitVec 12) (fits : d.toNat + n.toNat ≤ 31) :
      Access (.ldm d h n off) h.toNat (off.toNat * 8) (8 * (n.toNat + 1)) 8 1
  | stm (a : BitVec 5) (h : BitVec 4) (n : BitVec 3) (off : BitVec 12) (fits : a.toNat + n.toNat ≤ 31) :
      Access (.stm a h n off) h.toNat (off.toNat * 8) (8 * (n.toNat + 1)) 8 2
  | atom (d : BitVec 5) (h : BitVec 4) (b : BitVec 5) (op : BitVec 4) (sz : Bool) (off : BitVec 7) :
      Access (.atom d h b op sz off) h.toNat (off.toNat * if sz then 8 else 4) (if sz then 8 else 4)
        (if sz then 8 else 4) 3
  | cas (d : BitVec 5) (h : BitVec 4) (b : BitVec 5) (sz : Bool) (off : BitVec 7) :
      Access (.cas d h b sz off) h.toNat (off.toNat * if sz then 8 else 4) (if sz then 8 else 4) (if sz then 8 else 4) 3
  | ldq (q : BitVec 5) (h n : BitVec 4) (off : BitVec 12) (legal : q.toNat ≤ 3) :
      Access (.ldq q h n off) h.toNat (off.toNat * 256) (256 * (n.toNat + 1)) 256 1
  | adset (n : BitVec 5) (h : BitVec 4) (off : BitVec 12) (legal : n.toNat ≤ 15) :
      Access (.adset n h off) h.toNat (off.toNat * 32) 32 32 1
  | layout (k : BitVec 5) (h : BitVec 4) (off : BitVec 12) (legal : k.toNat ≤ 7) :
      Access (.layout k h off) h.toNat (off.toNat * 64) 64 64 1
  | mblk (h : BitVec 4) (off : BitVec 12) : Access (.mblk h off) h.toNat (off.toNat * 64) 64 64 1
  | launch (h : BitVec 4) (off : BitVec 12) : Access (.launch h off) h.toNat (off.toNat * 64) 64 64 1

/-- The w bytes at byte `off` of a line, extended as type t says (R35, R220). -/
def Extended (t : BitVec 4) (line : BitVec 512) (off : Nat) : Word :=
  let v := (line >>> (8 * off)).setWidth (8 * typeBytes t)
  if t.toNat ≤ 10 then v.signExtend 64 else v.setWidth 64

/-- No store of the core's other bank to n bytes at pa stands between its line and its home, and no release whose scope has
yet to see what it releases stands on their line (R198, R202). -/
def Visible (s : State) (b pa n : Nat) : Prop :=
  s.throughAhead b pa n = false ∧ s.unreleased (some b) (.core (b / 2)) pa = false

/-- Bank b's core holds the line of a physical address in a state that a load may read, and its row is clean and was
written under the keys of the leaf. -/
def Held (s : State) (b pa : Nat) (leaf : BitVec 64) : Prop :=
  isCached pa = true ∧ ((s.core (b / 2)).line (pa / 64)).st.loadHits = true ∧ (s.rowMeta (pa / 256)).poison = false ∧
  s.keyFits pa (leafKey leaf) = true ∧ ((s.core (b / 2)).line (pa / 64)).poison = false

/-- The line of a physical address in bank b's cache. -/
def LineOf (s : State) (b pa : Nat) : BitVec 512 := ((s.core (b / 2)).line (pa / 64)).data

/-- Of the whole state, t differs from s at most in the acting bank, in the time stamps of lines of its core's cache, and
in owed events. -/
def OnlyMeAndStamps (s t : State) : Prop :=
  (∀ b, b ≠ s.cur → t.bank b = s.bank b) ∧
  (∀ c l, (t.core c).line l = { (s.core c).line l with used := ((t.core c).line l).used }) ∧
  (∀ c, t.core c = { s.core c with lines := (t.core c).lines }) ∧
  { t with banks := s.banks, cores := s.cores, pending := s.pending } = s

/-- A command of the copy sequencer, the walker, the gleaner port or the collective port whose operand registers pass the
checks of its rule at the sequencer (R243, R251, R295, R296, R305, R310, R331, R334, R340): its engine, its head, its
operation and the handles that it uses, in the order of their use. -/
inductive Command (s : State) : Instr → Nat → SXWord → EngOp → List Nat → Prop
  | cpy (x : SXWord) (ok : s.cpyOk x (s.reg x.d) (s.reg x.a) (s.reg x.b) (s.reg x.c) = true) :
      Command s (.cpy x) 2 x .cpy (cpyHandles (s.reg x.d) (s.reg x.a) (s.reg x.b) (s.reg x.c))
  | attns (x : SXWord) (d : seqRegOk (s.reg x.d) true = true) (a : bits (s.reg x.a) 63 33 = 0)
      (b : bits (s.reg x.b) 63 48 = 0) (n : 1 ≤ bits (s.reg x.b) 47 24)
      (st : strideOk (s.mySeq s.cur (s.reg x.d)) (s.reg x.a) = true)
      (rows : bits (s.reg x.a) 15 0 + bits (s.reg x.b) 47 24 * bits (s.reg x.a) 31 16 ≤ spcRows (s.reg x.a)) :
      Command s (.attns x) 3 x .attns []
  | sqopen (x : SXWord) (d : refOk (s.reg x.d) false = true) (a : bits (s.reg x.a) 63 6 = 0)
      (c : bits (s.reg x.a) 5 4 ≠ 3) : Command s (.sqopen x) 3 x .sqopen [refH (s.reg x.d)]
  | sqapp (x : SXWord) (d : seqRegOk (s.reg x.d) true = true) (a : bits (s.reg x.a) 63 33 = 0)
      (b : bits (s.reg x.b) 63 24 = 0) (n : 1 ≤ bits (s.reg x.b) 23 0) (m : bits (s.reg x.b) 23 0 ≤ 65535)
      (rows : appRangeOk (s.mySeq s.cur (s.reg x.d)) (s.reg x.a) (s.reg x.b) = true) : Command s (.sqapp x) 3 x .sqapp []
  | sqfork (x : SXWord) (d : refOk (s.reg x.d) false = true) (a : seqRegOk (s.reg x.a) false = true)
      (b : bits (s.reg x.b) 63 24 = 0) : Command s (.sqfork x) 3 x .sqfork [refH (s.reg x.d)]
  | sqtrunc (x : SXWord) (d : seqRegOk (s.reg x.d) false = true) (a : bits (s.reg x.a) 63 24 = 0) :
      Command s (.sqtrunc x) 3 x .sqtrunc []
  | sqpark (x : SXWord) (d : seqRegOk (s.reg x.d) false = true) (a : refOk (s.reg x.a) false = true)
      (b : bits (s.reg x.b) 63 32 = 0) : Command s (.sqpark x) 3 x .sqpark [refH (s.reg x.a)]
  | sqwake (x : SXWord) (d : seqRegOk (s.reg x.d) false = true) : Command s (.sqwake x) 3 x .sqwake []
  | sqclose (x : SXWord) (d : seqRegOk (s.reg x.d) false = true) : Command s (.sqclose x) 3 x .sqclose []
  | sqinfo (x : SXWord) (d : refOk (s.reg x.d) false = true) (a : seqRegOk (s.reg x.a) true = true) :
      Command s (.sqinfo x) 3 x .sqinfo [refH (s.reg x.d)]
  | attnd (x : SXWord) (d : seqRegOk (s.reg x.d) true = true) (a : refOk (s.reg x.a) false = true)
      (b : refOk (s.reg x.b) false = true) :
      Command s (.attnd x) 4 x .attnd ([refH (s.reg x.a), refH (s.reg x.b)].eraseDups)
  | rdx (x : SXWord) (d : refOk (s.reg x.d) true = true) (a : refOk (s.reg x.a) false = true)
      (b : refOk (s.reg x.b) true = true) (c : refOk (s.reg x.c) true = true) (ty : rdxTypeOk (bits (s.reg x.d) 63 60) = true)
      (op : bits (s.reg x.d) 55 54 ≤ 1) (z : bits (s.reg x.d) 53 48 = 0) (n : 1 ≤ refX (s.reg x.b)) :
      Command s (.rdx x) 4 x .rdx
        ([refH (s.reg x.d), refH (s.reg x.a), refH (s.reg x.b), refH (s.reg x.c)].eraseDups)
  | coll (x : SXWord) (d : refOk (s.reg x.d) false = true) (a : refOk (s.reg x.a) false = true)
      (b : collOk (s.reg x.b) = true) (g : grpOk (s.cur / 256) (s.reg x.c) (bits (s.reg x.b) 2 0 == 4) = true) :
      Command s (.coll x) 5 x .coll ([refH (s.reg x.d), refH (s.reg x.a)].eraseDups)
  | ring (x : SXWord) (d : refOk (s.reg x.d) false = true) (a : refOk (s.reg x.a) false = true)
      (b : seqRegOk (s.reg x.b) true = true) (g : grpOk (s.cur / 256) (s.reg x.c) false = true) :
      Command s (.ring x) 5 x .ring ([refH (s.reg x.d), refH (s.reg x.a)].eraseDups)
  | plough (x : SXWord) (d : refOk (s.reg x.d) true = true) (g : grpOk (s.cur / 256) (s.reg x.a) false = true) :
      Command s (.plough x) 5 x .plough [refH (s.reg x.d)]

/-- The operation of an engine-setting word, from operands that are legal (R39, R88, R93, R246, R435), and the state after the
word has read its record: the record is clean, and its read waits for nothing (R198, R203, R323). -/
inductive Setting (s : State) : Instr → Nat → CmdOp → State → Prop
  | lnsetReg (lv : BitVec 3) (r : BitVec 5) (ok : (s.reg r).toNat < 2 ^ 24) :
      Setting s (.lnset lv 0 r) 1 (.lnset lv.toNat (.value (s.reg r).toNat)) s
  | lnsetMbox (lv : BitVec 3) (n : BitVec 5) (legal : n.toNat < 8) (ok : (Assoc.get 0 s.me.mbox n.toNat).toNat < 2 ^ 24) :
      Setting s (.lnset lv 1 n) 1 (.lnset lv.toNat (.value (Assoc.get 0 s.me.mbox n.toNat).toNat)) s
  | lnsetQueue (lv : BitVec 3) (q : BitVec 5) (legal : q.toNat < 4) :
      Setting s (.lnset lv 2 q) 1 (.lnset lv.toNat (.queue q.toNat)) s
  | adset (n : BitVec 5) (h : BitVec 4) (off : BitVec 12) (x : Acc) (xs : List Byte) (u : State) (legal : n.toNat ≤ 15)
      (acc : s.access s.cur h.toNat (off.toNat * 32) 32 32 1 = .ok x) (own : s.readWaits s.cur x.pa 32 = false)
      (rd : s.readThrough s.cur x 32 = .got xs none u) (ok : descOk (BitVec.ofNat 256 (leNat xs)) = true) :
      Setting s (.adset n h off) 1 (.adset n.toNat (BitVec.ofNat 256 (leNat xs))) u
  | mblk (h : BitVec 4) (off : BitVec 12) (x : Acc) (xs : List Byte) (u : State)
      (acc : s.access s.cur h.toNat (off.toNat * 64) 64 64 1 = .ok x) (own : s.readWaits s.cur x.pa 64 = false)
      (rd : s.readThrough s.cur x 64 = .got xs none u) (ok : restartOk (BitVec.ofNat 512 (leNat xs)) = true) :
      Setting s (.mblk h off) 1 (.mblk (BitVec.ofNat 512 (leNat xs))) u
  | layout (k : BitVec 5) (h : BitVec 4) (off : BitVec 12) (x : Acc) (xs : List Byte) (u : State) (legal : k.toNat ≤ 7)
      (acc : s.access s.cur h.toNat (off.toNat * 64) 64 64 1 = .ok x) (own : s.readWaits s.cur x.pa 64 = false)
      (rd : s.readThrough s.cur x 64 = .got xs none u) (ok : layoutOk (BitVec.ofNat 512 (leNat xs)) = true) :
      Setting s (.layout k h off) 2 (.layout k.toNat (BitVec.ofNat 512 (leNat xs))) u

/-- i completes by appending one command to the queue of engine e, past a word of n bytes, and, after the read of its record,
which leaves u, does nothing else. -/
def Queues (i : Instr) (s u : State) (e n : Nat) (op : CmdOp) (ext : Ext) : Prop :=
  ∃ t, exec i s = .next t ∧ t.me.cmdq e = s.me.cmdq e ++ [{ op := op, pc := s.me.pc, ext := ext }] ∧
    (∀ j, j ≠ e → t.me.cmdq j = s.me.cmdq j) ∧ GoesOn n s t ∧
    { t.me with cmds := s.me.cmds, pc := s.me.pc, slot := s.me.slot } = s.me ∧ OnlyMeOwing u t ∧ u.banks = s.banks ∧
    u.cur = s.cur ∧ u.sram = s.sram ∧ SameMemory s t

/-- The mask HELD of R366 for the conditions of a `WAIT` of bank b that names no line: bit i says whether condition i
holds. -/
def HeldMask (s : State) (b : Nat) (cs : List (BitVec 16)) (h : Nat) : Prop :=
  h < 2 ^ cs.length ∧ ∀ (i : Nat) c, cs[i]? = some c → Nat.testBit h i = s.condHolds b i c []

/-- Whether a `WAIT` returns on a mask: all conditions, or any. -/
def Enough (all : Bool) (cs : List (BitVec 16)) (h : Nat) : Prop := if all then h = 2 ^ cs.length - 1 else h ≠ 0

/-- The bank after its `WAIT` has returned v (R365): past the word, waiting no more, the event latch cleared where an event
condition held. -/
def Returned (k : Bank) (d v : Nat) (clear : Bool) : Bank :=
  { (k.setReg (BitVec.ofNat 5 d) (BitVec.ofNat 64 v)).advance 4 with wait := .none, event := k.event && !clear }

/-- Whether the conditions of a `WAIT` name the event latch. -/
def namesEvent (cs : List (BitVec 16)) : Bool := cs.any fun c => condKind c == 6

/-- The V-words that compute one result row from their operands: opcode, fields, the function of the row and its tags, the
table that they read, whether that table is poisoned, and the index added to their row (spec/06, spec/07, spec/11). -/
inductive Plain (s : State) (x : Block) : Instr → Nat → VWord → (VIn → VRes) → VTable → Bool → Int → Prop
  | vtripMrg (w : VWord) : Plain s x (.vtripMrg w) 0x03 w evalVtripMrg .none false 0
  | vtripAcc (w : VWord) : Plain s x (.vtripAcc w) 0x03 w evalVtripAcc .none false 0
  | vtripProb (w : VWord) : Plain s x (.vtripProb w) 0x03 w evalVtripProb .none false 0
  | vadd (w : VWord) : Plain s x (.vadd w) 0x10 w evalVadd .none false 0
  | vsub (w : VWord) : Plain s x (.vsub w) 0x11 w evalVsub .none false 0
  | vmul (w : VWord) : Plain s x (.vmul w) 0x12 w evalVmul .none false 0
  | vfma (w : VWord) : Plain s x (.vfma w) 0x13 w evalVfma .none false 0
  | vfms (w : VWord) : Plain s x (.vfms w) 0x14 w evalVfms .none false 0
  | vmin (w : VWord) : Plain s x (.vmin w) 0x15 w evalVmin .none false 0
  | vmax (w : VWord) : Plain s x (.vmax w) 0x16 w evalVmax .none false 0
  | vabs (w : VWord) : Plain s x (.vabs w) 0x17 w evalVabs .none false 0
  | vneg (w : VWord) : Plain s x (.vneg w) 0x18 w evalVneg .none false 0
  | vrcp (w : VWord) : Plain s x (.vrcp w) 0x19 w evalVrcp .none false 0
  | vrsq (w : VWord) : Plain s x (.vrsq w) 0x1A w evalVrsq .none false 0
  | vexp (w : VWord) : Plain s x (.vexp w) 0x1B w evalVexp .none false 0
  | vexpSub (w : VWord) : Plain s x (.vexpSub w) 0x1B w evalVexpSub .none false 0
  | vtabBuiltin (w : VWord) (k : w.fx.toNat < 16) : Plain s x (.vtab w) 0x20 w evalVtab (.builtin w.fx.toNat) false 0
  | vtabBound (w : VWord) (k : 16 ≤ w.fx.toNat) (t : TBind)
      (bound : Assoc.get none s.me.tabs (w.fx.toNat - 16) = some t)
      (free : ∀ i, i < 12 → s.inUse (rowKey s.cur t.cluster (t.row + 1 + i)) = false) :
      Plain s x (.vtab w) 0x20 w evalVtab (.bound t.hdr ((coefRows s s.cur t).map VReg.row))
        (t.poison || (coefRows s s.cur t).any VReg.poison) 0
  | vcvt (w : VWord) : Plain s x (.vcvt w) 0x22 w evalVcvt .none false 0
  | vqnt (w : VWord) : Plain s x (.vqnt w) 0x23 w evalVqnt .none false 0
  | vdqnt (w : VWord) : Plain s x (.vdqnt w) 0x24 w evalVdqnt .none false 0
  | vand (w : VWord) : Plain s x (.vand w) 0x30 w evalVand .none false 0
  | vor (w : VWord) : Plain s x (.vor w) 0x31 w evalVor .none false 0
  | vxor (w : VWord) : Plain s x (.vxor w) 0x32 w evalVxor .none false 0
  | vnot (w : VWord) : Plain s x (.vnot w) 0x33 w evalVnot .none false 0
  | vshl (w : VWord) : Plain s x (.vshl w) 0x34 w evalVshl .none false 0
  | vshr (w : VWord) : Plain s x (.vshr w) 0x35 w evalVshr .none false 0
  | vsra (w : VWord) : Plain s x (.vsra w) 0x36 w evalVsra .none false 0
  | vfsh (w : VWord) : Plain s x (.vfsh w) 0x37 w evalVfsh .none false 0
  | vclz (w : VWord) : Plain s x (.vclz w) 0x38 w evalVclz .none false 0
  | vpopc (w : VWord) : Plain s x (.vpopc w) 0x39 w evalVpopc .none false 0
  | vpackWrap (w : VWord) : Plain s x (.vpackWrap w) 0x3A w evalVpackWrap .none false 0
  | vpackClamp (w : VWord) : Plain s x (.vpackClamp w) 0x3A w evalVpackClamp .none false 0
  | vpackBits (w : VWord) : Plain s x (.vpackBits w) 0x3A w evalVpackBits .none false 0
  | vunpackLo (w : VWord) : Plain s x (.vunpackLo w) 0x3B w evalVunpackLo .none false 0
  | vunpackHi (w : VWord) : Plain s x (.vunpackHi w) 0x3B w evalVunpackHi .none false 0
  | vunpackBits (w : VWord) : Plain s x (.vunpackBits w) 0x3B w evalVunpackBits .none false 0
  | vcmp (w : VWord) : Plain s x (.vcmp w) 0x40 w evalVcmp .none false 0
  | vsel (w : VWord) : Plain s x (.vsel w) 0x41 w evalVsel .none false 0
  | vred (w : VWord) : Plain s x (.vred w) 0x50 w evalVred .none false 0
  | vscan (w : VWord) : Plain s x (.vscan w) 0x51 w evalVscan .none false 0
  | vgmax (w : VWord) : Plain s x (.vgmax w) 0x52 w evalVgmax .none false 0
  | vperm (w : VWord) : Plain s x (.vperm w) 0x53 w evalVperm .none false 0
  | vbcast (w : VWord) : Plain s x (.vbcast w) 0x54 w evalVbcast .none false 0
  | viota (w : VWord) : Plain s x (.viota w) 0x55 w evalViota .none false 0
  | vrotm (w : VWord) : Plain s x (.vrotm w) 0x56 w evalVrotm .none false 0
  | vld (w : VWord) : Plain s x (.vld w) 0x60 w evalCopy .none false 0
  | vst (w : VWord) : Plain s x (.vst w) 0x61 w evalCopy .none false 0
  | vmov (w : VWord) : Plain s x (.vmov w) 0x64 w evalVmov .none false 0
  | vldIdx (w : VWord) (ix : VReg) (rd : s.readOpnd s.cur x (opnd w.b) 0 = .ok ix) (clean : ix.poison = false) :
      Plain s x (.vldIdx w) 0x60 w (fun v => (v.a.row, if ix.tags.getLsbD 0 then BitVec.allOnes 64 else v.a.tags)) .none
        false (ix.row.setWidth 32).toInt
  | vstIdx (w : VWord) (ix : VReg) (rd : s.readOpnd s.cur x (opnd w.b) 0 = .ok ix) (clean : ix.poison = false)
      (untagged : ix.tags.getLsbD 0 = false) :
      Plain s x (.vstIdx w) 0x61 w evalCopy .none false (ix.row.setWidth 32).toInt

/-- The acting bank's block x may issue its next bundle, no array word holds it back, and the word of that opcode with
fields w names no forbidden operand and its iteration qualifier holds. -/
def Issues (s : State) (x : Block) (opc : Nat) (w : VWord) : Prop :=
  s.issuing s.cur = some x ∧ s.me.arrayWrites = false ∧ vForbidden opc w = false ∧ x.qual w.fi w.li w.flv = true

/-- A result that is being written: the row, its lane tags, the lanes written, the cause of its first deferred fault, whether it
is poisoned, and whether a row takes it whole (R129, R448). -/
structure Made where
  row : Row
  tags : BitVec 64
  lanes : BitVec 64
  cause : Nat
  poison : Bool
  whole : Bool

/-- What a word makes from operands o read under its mask m (R96, R97, R129, R147): the function's row and tags; a row of
zeros with every lane tagged where PS let it read out of range. -/
def makes (x : Block) (opc : Nat) (w : VWord) (f : VIn → VRes) (tab : VTable) (bad : Bool) (o : Ops3) (m : Mask) : Made :=
  let p : Ops3 := { a := taintBy m o.a, b := taintBy m o.b, d := taintBy m o.d, spec := o.spec }
  let res := f (vIn x w p m tab)
  { row := if o.spec = 0 then res.1 else 0
    tags := if o.spec = 0 then res.2 else BitVec.allOnes 64
    lanes := if opc = 0x41 ∨ opc = 0x42 then BitVec.allOnes 64 else m.bits
    cause := if o.spec = 0 then firstCause p else o.spec
    poison := o.a.poison || o.b.poison || o.d.poison || bad || m.poison
    whole := opc == 0x41 || opc == 0x42 || w.msk == 0 }

/-- A vector register, operand register or latch after a result is written to it. -/
def written (r : VReg) (z : Made) : VReg := r.write z.row z.tags z.lanes z.cause z.poison

/-- D takes the result: a register always; a row that is in range and not in use, and a queue slot that is free, when no
tagged lane would be written (R51, R98, R228). `e`: the index of `VST.idx`. -/
def Takes (s : State) (x : Block) (w : VWord) (e : Int) (z : Made) : Prop :=
  match opnd w.d with
  | .queue q _ j => (s.me.queue q).tail + j < (s.me.queue q).head + qCap q ∧ z.tags &&& z.lanes = 0
  | .ad n off => (∃ key, s.freeKey (descKey s.cur s.me x n (off + e)) = .ok key) ∧ z.tags &&& z.lanes = 0
  | _ => True

/-- What D holds afterwards, and what else of that kind is unchanged. -/
def Given (s t : State) (x : Block) (w : VWord) (e : Int) (z : Made) : Prop :=
  (∀ i, t.me.vreg i = if opnd w.d = .v i then written (s.me.vreg i) z else s.me.vreg i) ∧
  (∀ i, t.me.oreg i = if opnd w.d = .o i then written (s.me.oreg i) z else s.me.oreg i) ∧
  (match opnd w.d with
   | .ad n off => ∀ key, s.freeKey (descKey s.cur s.me x n (off + e)) = .ok key →
      t.sram = (s.putRow s.cur key z.row (if z.whole then none else some (laneBytes z.lanes)) z.poison).sram
   | _ => t.sram = s.sram) ∧
  (match opnd w.d with
   | .queue q adv j =>
     let e := (s.me.queue q).slot q ((s.me.queue q).tail + j)
     let new := mergeLanes e.row z.row z.lanes
     (t.me.queue q).slot q ((s.me.queue q).tail + j) =
       { row := if q < 6 then new else (new.setWidth 64).setWidth 2048,
         poison := z.poison || (z.lanes != BitVec.allOnes 64 && e.poison), filled := true } ∧
     (t.me.queue q).tail = (s.me.queue q).tail + if adv then 1 else 0
   | _ => True)

/-- How many of a word's queue sources with ADV name queue q: that many rows leave it (R59, R228). -/
def leaves (opc : Nat) (w : VWord) (q : Nat) : Nat :=
  match vForm opc w.ty.toNat w.fx.toNat with
  | none => 0
  | some f =>
    let one (use : Bool) (o : BitVec 22) : Nat :=
      match opnd o with
      | .queue p true _ => if use ∧ p = q then 1 else 0
      | _ => 0
    one f.a w.a + one f.b w.b

/-- The partial sums of R150 after some rounds of its pairwise tree, each rounded to FP32. -/
def partials (v : Nat → Sys2Proof.Num.FV) : Nat → Nat → Sys2Proof.Num.FV
  | 0, j => v j
  | n + 1, j => Sys2Proof.Num.value Sys2Proof.Num.f32
      (Sys2Proof.Num.round Sys2Proof.Num.f32 .rne false (Sys2Proof.Num.add .rne (partials v n (2 * j)) (partials v n (2 * j + 1))))

/-- The sum that R151 carries past element j, rounded to FP32. -/
def running (v : Nat → Sys2Proof.Num.FV) : Nat → Sys2Proof.Num.FV
  | 0 => v 0
  | j + 1 => Sys2Proof.Num.value Sys2Proof.Num.f32
      (Sys2Proof.Num.round Sys2Proof.Num.f32 .rne false (Sys2Proof.Num.add .rne (running v j) (v (j + 1))))

/-- The exact value of an integer element under its type. -/
def integer (i : VIn) (x : Nat) : Int := if i.ty ≤ 10 then sgn i.w x else x

/-- r combines elements e 0 to e m by an operation of R149 that is no floating-point add: min and max of a floating-point type by
R142, the others of an integer type. -/
def Combined (i : VIn) (op : Nat) (e : Nat → Nat) (m r : Nat) : Prop :=
  let bitOf (f : Bool → Nat → Bool) : Prop := ∀ b, Nat.testBit r b = (List.range (m + 1)).foldl (fun x j => f x (Nat.testBit (e j) b |>.toNat)) (op == 3)
  if i.ty ≤ 3 then
    ((∀ j, j ≤ m → (i.val (e j)).isNaN = true) → r = Sys2Proof.Num.nanCode i.fmt) ∧
    ((∃ j, j ≤ m ∧ (i.val (e j)).isNaN = false) → ∃ j, j ≤ m ∧ (i.val (e j)).isNaN = false ∧ r = e j ∧
      ∀ k, k ≤ m → (i.val (e k)).isNaN = false →
        let o := Sys2Proof.Num.cmp (i.val (e j)) (i.val (e k))
        if op = 1 then o ≠ .gt ∧ (o = .eq → Nat.testBit (e k) (i.w - 1) = true → Nat.testBit (e j) (i.w - 1) = true)
        else o ≠ .lt ∧ (o = .eq → Nat.testBit (e j) (i.w - 1) = true → Nat.testBit (e k) (i.w - 1) = true))
  else match op with
    | 0 => r = ((List.range (m + 1)).map e).sum % 2 ^ i.w
    | 1 => (∃ j, j ≤ m ∧ r = e j) ∧ ∀ j, j ≤ m → integer i r ≤ integer i (e j)
    | 2 => (∃ j, j ≤ m ∧ r = e j) ∧ ∀ j, j ≤ m → integer i (e j) ≤ integer i r
    | 3 => bitOf fun x y => x && y == 1
    | 4 => bitOf fun x y => x || y == 1
    | _ => bitOf fun x y => x != (y == 1)

/-- Of the acting bank, t differs from s at most in the registers, queues and block of the loop engine; of the rest of the
state, at most in SRAM rows. -/
def OnlyLoopEngine (s t : State) : Prop :=
  { t.me with vregs := s.me.vregs, oregs := s.me.oregs, latches := s.me.latches, stale := s.me.stale,
              queues := s.me.queues, masks := s.me.masks, tabs := s.me.tabs, arr := s.me.arr, block := s.me.block } = s.me ∧
  (∀ b, b ≠ s.cur → t.bank b = s.bank b) ∧ { t with banks := s.banks, sram := s.sram } = s

/-- An M-word whose operands can be read, with the array operation that it becomes (R163, R164, R167, R170 to R175). -/
inductive Joins (s : State) (x : Block) : Instr → Nat → MWord → ArrOp → Prop
  | mma (w : MWord) (a b : List VReg) (room : s.me.arr.length < 3)
      (ga : fetchSpec s s.cur x w.aspec ((w.kst.toNat + 1) * rowsPerStep w.fmta.toNat)
        (fun sh => stepRows sh (w.kst.toNat + 1) (rowsPerStep w.fmta.toNat)) = .got a)
      (gb : fetchSpec s s.cur x w.bspec ((w.kst.toNat + 1) * rowsPerStep w.fmta.toNat)
        (fun sh => stepRows sh (w.kst.toNat + 1) (rowsPerStep w.fmta.toNat)) = .got b) :
      Joins s x (.mma w) 1 w (arrOp 1 w a b [] [])
  | mmax (w : MWord) (a b c : List VReg) (room : s.me.arr.length < 3)
      (ga : fetchSpec s s.cur x w.aspec ((w.kst.toNat + 1) * rowsPerStep w.fmta.toNat)
        (fun sh => stepRows sh (w.kst.toNat + 1) (rowsPerStep w.fmta.toNat)) = .got a)
      (gb : fetchSpec s s.cur x w.bspec ((w.kst.toNat + 1) * rowsPerStep w.fmta.toNat)
        (fun sh => stepRows sh (w.kst.toNat + 1) (rowsPerStep w.fmta.toNat)) = .got b)
      (gc : fetchScales s s.cur x w = .got c) : Joins s x (.mmax w) 2 w (arrOp 2 w a b c [])
  | mzero (w : MWord) (room : s.me.arr.length < 3) : Joins s x (.mzero w) 3 w (arrOp 3 w [] [] [] [])
  | mload (w : MWord) (a : List VReg) (room : s.me.arr.length < 3)
      (ga : fetchSpec s s.cur x w.aspec 256 (fun sh => tileRows sh 2) = .got a) : Joins s x (.mload w) 4 w (arrOp 4 w a [] [] [])
  | mstore (w : MWord) (ks : List Nat) (done : s.me.arr = [])
      (ga : s.storeKeys s.cur x w (s.me.tile w.acc) (if w.fmta = 1 then 2 else 1) = .rows ks)
      (clean : (s.me.tile w.acc).taint = false) : Joins s x (.mstore w) 5 w (arrOp 5 w [] [] [] ks)
  | mrow (w : MWord) (done : s.me.arr = []) : Joins s x (.mrow w) 6 w (arrOp 6 w [] [] [] [])
  | medge (w : MWord) (room : s.me.arr.length < 3) : Joins s x (.medge w) 7 w (arrOp 7 w [] [] [] [])
  | mtransReg (w : MWord) (a : List VReg) (room : s.me.arr.length < 3)
      (ga : fetchSpec s s.cur x w.aspec (transRows w) (fun sh => stepRows sh 1 (transRows w)) = .got a)
      (reg : specSrc w.bspec = 0) : Joins s x (.mtrans w) 8 w (arrOp 8 w a [] [] [])
  | mtransRows (w : MWord) (a : List VReg) (ks : List Nat) (room : s.me.arr.length < 3)
      (ga : fetchSpec s s.cur x w.aspec (transRows w) (fun sh => stepRows sh 1 (transRows w)) = .got a)
      (rows : specSrc w.bspec ≠ 0) (gb : gatherSpec s s.cur x w.bspec (fun sh => stepRows sh 1 (transRows w)) = .rows ks)
      (clean : ∀ r ∈ a, r.tags = 0) : Joins s x (.mtrans w) 8 w (arrOp 8 w a [] [] ks)

/-- The scale codes of element (i, j) in step t: those of the step's scale row for `MMAX`, 127 for `MMA` (R165, R167). -/
def scales (o : ArrOp) (t i j : Nat) : Nat × Nat :=
  let row := o.srows.getD t 0
  if o.mop = 2 then (Sys2Proof.Num.elem 8 row i, Sys2Proof.Num.elem 8 row (128 + j)) else (127, 127)

/-- The k-th value of step t for lane index i of an operand's rows, by the table of R160. -/
def operand (fmt : Nat) (rows : List Row) (t i k : Nat) : Sys2Proof.Num.FV :=
  let e (w q n : Nat) : Nat := Sys2Proof.Num.elem w (rows.getD q 0) n
  match fmt with
  | 2 => Sys2Proof.Num.value Sys2Proof.Num.f16 (e 16 (8 * t + k) i)
  | 3 => Sys2Proof.Num.value Sys2Proof.Num.bf16 (e 16 (8 * t + k) i)
  | 4 => Sys2Proof.Num.value Sys2Proof.Num.e4m3 (e 8 (16 * t + k / 2) (i + 128 * (k % 2)))
  | 5 => Sys2Proof.Num.value Sys2Proof.Num.e5m2 (e 8 (16 * t + k / 2) (i + 128 * (k % 2)))
  | _ => Sys2Proof.Num.value Sys2Proof.Num.e2m1 (e 4 (8 * t + k / 4) (i + 128 * (k % 4)))

/-- p is the block sum of step t at element (i, j): a special case, in the order of R166, or the exact sum of the exact products,
scaled, rounded once to FP32 (R165). -/
def BlockSum (o : ArrOp) (t i j p : Nat) : Prop :=
  let ks := List.range (if o.w.fmta.toNat = 2 ∨ o.w.fmta.toNat = 3 then 8 else 32)
  let a (k : Nat) : Sys2Proof.Num.FV := operand o.w.fmta.toNat o.arows t i k
  let b (k : Nat) : Sys2Proof.Num.FV := operand o.w.fmtb.toNat o.brows t j k
  let prod (k : Nat) : Sys2Proof.Num.FV := Sys2Proof.Num.mul (a k) (b k)
  let inf (x : Sys2Proof.Num.FV) : Bool := x == .inf false || x == .inf true
  let sc := scales o t i j
  let sum := (ks.map prod).foldl (Sys2Proof.Num.add .rne) (.fin false 0 0)
  if sc.1 = 255 ∨ sc.2 = 255 then p = 0x7FC00000
  else if ks.any fun k => (a k).isNaN || (b k).isNaN then p = 0x7FC00000
  else if ks.any fun k => ((a k).isZero && inf (b k)) || (inf (a k) && (b k).isZero) then p = 0x7FC00000
  else if (ks.any fun k => prod k == .inf false) && ks.any fun k => prod k == .inf true then p = 0x7FC00000
  else if ks.any fun k => prod k == .inf false then p = 0x7F800000
  else if ks.any fun k => prod k == .inf true then p = 0xFF800000
  else if sum.isZero then p = 0
  else p = Sys2Proof.Num.round Sys2Proof.Num.f32 .rne false (sum.scale ((sc.1 : Int) - 127 + ((sc.2 : Int) - 127)))

/-- The loop engine has stopped bank b's block x, at bundle `idx`, with a fault of class c and sub-code u that waits for the
sequencer (R61, R418). -/
def BlockStops (s t : State) (b : Nat) (x : Block) (idx c u : Nat) : Prop :=
  (t.bank b).block = some { x with trapped := true } ∧ ∃ f, (t.bank b).faults = (s.bank b).faults ++ [f] ∧ f.cls = c ∧ f.sub = u ∧
    f.eng = 1 ∧ f.asyn = true ∧ f.defer = false ∧ f.prog0 = BitVec.ofNat 64 (idx % 1024)

/-- Of the whole state, t differs from s at most in bank b and in owed events. -/
def OnlyBankOwing (b : Nat) (s t : State) : Prop :=
  (∀ c, c ≠ b → t.bank c = s.bank c) ∧ { t with banks := s.banks, pending := s.pending } = s

/-- Of the whole state, t differs from s at most in bank b, in owed events and in the stamps by which the banks of a core
take turns in its engines (R358). -/
def OnlyBankAndTurns (b : Nat) (s t : State) : Prop :=
  (∀ c, c ≠ b → t.bank c = s.bank c) ∧ (∀ c, t.core c = { s.core c with engTurn := (t.core c).engTurn }) ∧
  { t with banks := s.banks, cores := s.cores, pending := s.pending } = s

/-- A request to append a record of a task's partition that `who` waits for (R259). -/
def append (pa limit key part : Nat) (rcd : BitVec 256) (who : Who) : RingReq :=
  { pa := pa, limit := limit, key := key, part := part, rcd := rcd, who := who, served := [] }

/-- m is the oldest message of a core, a line and a kind, and next to be served: nothing that goes its way stands before it,
about its line or on the way like itself, and where it is still on its way it arrives now (R270, R318, R357). -/
def Oldest (s : State) (core line : Nat) (k : MKind) (m : Msg) : Prop :=
  validCore core = true ∧ ∃ i, s.net.findIdx? (fun x => x.named core line k) = some i ∧ s.net[i]? = some m ∧
    (∀ x ∈ s.net.take i, x.sameWay m = true → x.line ≠ m.line ∧ (m.arr ≠ 0 ∨ x.arr ≠ 0)) ∧
    (m.arr = 0 → s.arrives (s.msgFoot m) = true)

/-- Messages sent one after the other, with their numbers in the order of sending (R318). -/
def numbered (s : State) (xs : List Msg) : List Msg := xs.mapIdx fun i m => { m with no := s.sends + 1 + i }

/-- The message has been taken and the messages xs have been sent after all others, in their order. -/
def Sends (s t : State) (core line : Nat) (k : MKind) (xs : List Msg) : Prop :=
  t.net = s.net.eraseP (fun x => x.named core line k) ++ numbered s xs ∧ t.sends = s.sends + xs.length

/-- A message about a line without data, for the bank that b names (R270, R476). -/
def Note (k : MKind) (core line : Nat) (ev : Bool) (b : Nat) : Msg :=
  { kind := k, core := core, line := line, data := 0, ev := ev, b := b }

/-- The home of a line takes message m of a core now: its page is not migrating, its entry is not busy, no row is tentative,
none of the core's requests to that home is refused, no message that arrived before waits for the line, and the burst for
m's bank may start (R272, R323, R325, R326, R357, R476). -/
def Open (s : State) (core line : Nat) (m : Msg) : Prop :=
  s.refuses (64 * line) = false ∧ s.isRefused core (lineHome line) .request = false ∧ (∀ a, s.frameOf a = a) ∧
  (s.dir line).busy = none ∧ s.packets = [] ∧ s.ahead (s.arrNum m.arr) [line] = false ∧ s.burstWaits m.b (64 * line) = false

/-- The row of a line may leave its home for a core; `capped`: a port holds it back, and zeros go with poison (R406). -/
def Leaves (s : State) (core line : Nat) (capped : Bool) : Prop :=
  if capped then s.pullEgress core (64 * line) = .capped else ∃ u, s.pullEgress core (64 * line) = .ok u

/-- The value `new` that an atomic of operation `op` leaves in w bytes that held `old`, by its operand v and the expected value e
(R223, R224): sum, and, or, exclusive or, lesser and greater of the signed and of the unsigned numbers, exchange, and
compare-and-exchange. -/
def AtomicGives (op w old v e new : Nat) : Prop :=
  let signed (x : Nat) : Int := if x < 2 ^ (8 * w - 1) then x else (x : Int) - 2 ^ (8 * w)
  let picks (le : Nat → Nat → Prop) : Prop := (new = old ∨ new = v) ∧ le new old ∧ le new v
  match op with
  | 0 => new = (old + v) % 2 ^ (8 * w)
  | 1 => ∀ i, Nat.testBit new i = (Nat.testBit old i && Nat.testBit v i)
  | 2 => ∀ i, Nat.testBit new i = (Nat.testBit old i || Nat.testBit v i)
  | 3 => ∀ i, Nat.testBit new i = (Nat.testBit old i != Nat.testBit v i)
  | 4 => picks fun x y => signed x ≤ signed y
  | 5 => picks fun x y => signed y ≤ signed x
  | 6 => picks fun x y => x ≤ y
  | 7 => picks fun x y => y ≤ x
  | 8 => new = v
  | _ => new = if old = e then v else old

/-- Only the entry of a line has changed: no other entry, no cache, no bank, no SRAM row. -/
def OnlyEntry (s t : State) (line : Nat) : Prop :=
  (∀ l, l ≠ line → t.dir l = s.dir l) ∧ t.cores = s.cores ∧ t.banks = s.banks ∧ t.sram = s.sram

/-- The line at its home holds data, and no other byte of memory has changed. -/
def HomeHolds (s t : State) (line : Nat) (data : BitVec 512) : Prop :=
  t.bytes (64 * line) 64 = natLE 64 data.toNat ∧ ∀ a, a / 64 ≠ line → t.byte a = s.byte a

/-- Only one line of one core's cache has changed: no other line, no entry, no memory, no SRAM row. -/
def OnlyCacheLine (s t : State) (core line : Nat) : Prop :=
  (∀ c l, ¬(c = core ∧ l = line) → t.line c l = s.line c l) ∧ t.dirs = s.dirs ∧ t.mem = s.mem ∧ t.sram = s.sram

/-- Of the whole state, t differs from s at most in bank b. -/
def OnlyBank (b : Nat) (s t : State) : Prop := (∀ c, c ≠ b → t.bank c = s.bank c) ∧ { t with banks := s.banks } = s

/-- Where a bank goes on from the record f that it holds (R427): at an asynchronous trap's boundary, in the slot of a taken
branch or past it, or at or past the word. -/
def GoesBack (r : SysRegs) (k : Bank) : Prop :=
  if bit r.fstat 26 = true then k.pc = r.epc ∧ k.slot = none
  else if bit r.fstat 24 = true then
    if bit r.fstat 25 = true then k.pc = r.epc + 4 ∧ k.slot = some { branch := r.epc, target := r.etgt, taken := true }
    else k.pc = r.etgt ∧ k.slot = none
  else k.pc = (if bit r.fstat 25 = true then r.epc else r.enpc) ∧ k.slot = none

/-- A die with a trap ring appends one record to it, of class c, sub-code u, pc e, kind n and the given TIME, for `who`; a die
without one appends none (R420). -/
def RingGets (s t : State) (die c u e n time : Nat) (double : Bool) (who : Who) : Prop :=
  let pa := bits (s.die die).tcfg 61 16 * 64
  if pa = 0 then t.rings = s.rings
  else ∃ q : BitVec 256, t.rings = s.rings ++ [{ append pa ((pa / 65536 + 1) * 65536) 0 noTask q who with no := s.sends + 1 }] ∧
    bits q 255 192 = time % 2 ^ 64 ∧ bits q 191 136 = e % 2 ^ 56 ∧ bits q 135 128 = c ∧ bits q 127 120 = u ∧
    bit q 115 = double ∧ bits q 95 92 = n

/-- The little-endian number in n bytes of memory. -/
def number (s : State) (pa n : Nat) : Nat := leNat (s.bytes pa n)

/-- The save area of bank b in memory holds the pc and the general registers of k (R440). -/
def AreaHolds (t : State) (area : Nat) (k : Bank) : Prop :=
  number t area 8 = k.pc.toNat ∧ ∀ r : BitVec 5, number t (area + 256 + 8 * r.toNat) 8 = (k.reg r).toNat

/-- The context of bank c: that of a saved bank is what its save area holds (R431, R440). -/
def context (s : State) (c : Nat) : Bank :=
  if ((s.bank c).pst = .saved ∨ (s.bank c).pst = .restoring) ∧ (s.bank c).sealedSeen = false then s.readArea c else s.bank c

/-- The save areas of saved contexts are whole rows, and no two overlap. -/
def AreasApart (s : State) : Prop :=
  s.migr = [] ∧ (∀ c, (s.bank c).area % 256 = 0) ∧ ∀ c d, c ≠ d → (s.bank c).pst ≠ .live → (s.bank d).pst ≠ .live →
    (s.bank c).area + 0x20000 ≤ (s.bank d).area ∨ (s.bank d).area + 0x20000 ≤ (s.bank c).area

/-- No byte of memory changes but in the save area of a saved context. -/
def OnlyAreas (s t : State) : Prop :=
  ∀ a, (∀ c, (s.bank c).pst ≠ .live → ¬((s.bank c).area ≤ a ∧ a < (s.bank c).area + 0x20000)) → t.byte a = s.byte a

/-- Handle h of bank c, revoked: stale with the next GEN where it was valid on a page that `hit` picks or, with `pending`, still
waited for its walk; in a saved context too (R392, R401). -/
def Revokes (s t : State) (c h : Nat) (pending : Prop) (hit : Handle → Prop) : Prop :=
  let x := (context s c).handle h
  (((x.st = .valid ∧ hit x) ∨ (x.st = .pending ∧ pending)) → (t.bank c).handle h = { x with st := .stale, gen := x.gen + 1 }) ∧
  (¬((x.st = .valid ∧ hit x) ∨ (x.st = .pending ∧ pending)) → (t.bank c).handle h = x)

/-- A shootdown with operand `arg` concerns a translation of a page of that partition, start and size (R391). -/
def Shot (arg : Word) (part page size : Nat) : Prop :=
  let lo := bits arg 55 16 * 65536
  part = bits arg 63 60 ∧
    if bits arg 59 58 = 3 then page < 2 ^ 56 else page < lo + pageBytes (bits arg 59 58) ∧ lo < page + pageBytes size

/-- Bank b has taken a synchronous trap of class c and sub-code u with RESTART 1, in its handler or stopping (R416). -/
def BankTrapped (s t : State) (b c u : Nat) : Prop :=
  let k := s.bank b
  ∃ r, Record k c u true r ∧
    if bit k.sys.tmask c = true ∧ k.sys.tvec ≠ 0 ∧ k.hmode = false then
      t.bank b = { k with run := .live, sys := r, hmode := true, slot := none, wait := .none,
                          pc := BitVec.ofNat 64 (bits k.sys.tvec 55 2 * 4) }
    else t.bank b = { k with run := .stopping (if k.hmode then k.sys else r) r k.hmode, slot := none, wait := .none,
                             trapAt := s.counter }

/-- A sheaf after n references to it are given up (R288, R292, R300, R301): with none left it is free, or released while holds
remain. -/
def gaveUp (x : Option Sheaf) (n : Nat) : Option Sheaf :=
  x.bind fun y =>
    if n = 0 then some y
    else if n < y.refs then some { y with refs := y.refs - n }
    else if y.holds = 0 then none
    else some { y with refs := 0, st := .released, wantT0 := false }

/-- A sheaf after n readers have taken a hold on it at reference time `now` (R281, R290). -/
def tookHolds (now n : Nat) (x : Option Sheaf) : Option Sheaf :=
  x.map fun y => if n = 0 then y else { y with holds := y.holds + n, age := now }

/-- Bank b's walker command r stands at its home, in state u: its pages are pinned, and the units of its reads, of its packet and
of its service have started; the ports hold back the rows `held` (R252, R281, R357). -/
def Reaches (s : State) (b : Nat) (r : EngRun) (pins : List Pin) (held : List Nat) (u : State) : Prop :=
  ∃ s1, s.pinRefs b 3 (s.bank b).part r r.pins r.refs = .ok pins s1 ∧
    if r.sent = true then held = [] ∧ u = s1
    else s1.askHome b 3 (r.home b) (if r.op = .sqpark then s1.pinnedLegs b pins [(refVa r r.a, 64)] else ([], [])) = .done held u

/-- t is the state after bank b's served walker command r has written one row to its OUT reference, and goes on to its retirement;
before that write memory and SRAM were those of u (R296). -/
def Records (u t : State) (b : Nat) (r : EngRun) (row : Row) : Prop :=
  ∃ (z w : State) (y : EngRun), z.seqs = t.seqs ∧ z.sheaves = t.sheaves ∧ z.mem = u.mem ∧ z.sram = u.sram ∧
    z.writePinned b 3 r (refVa r r.d) row false 0 = (w, y) ∧ t = (w.putEng b 3 y).owe (.walkerRetire b)

/-- Bank b has gone on past its waiting word of 4 bytes, and no other bank has changed. -/
def BankGoesOn (s t : State) (b : Nat) : Prop :=
  t.bank b = { (s.bank b).advance 4 with wait := .none } ∧ ∀ c, c ≠ b → t.bank c = s.bank c

/-- The host or a device gets one completion, and nothing else changes. -/
def Answers (s t : State) (r : Reply) : Prop :=
  t.modul.replies = s.modul.replies ++ [r] ∧ { t with modul := { t.modul with replies := s.modul.replies } } = s

end Sys2Proof.Says

open Sys2Proof Sys2Proof.Machine Sys2Proof.Says

/-! ### The sequencer's integer words (spec/06) -/

/-- R123, R125: `ADD` to `SEL` but for the divisions: each writes the result that the table of R125 gives to `s`DST and
has no other effect, for every state and every operand. Sources are read before the result is written. R124: the immediate and address words, each immediate extended as its row of the table says; `ADDPC` adds to the
address of the word itself, in a delay slot too. -/
def Obligations.IntegerAndImmediateWordsWriteOneResult : Prop :=
  (∀ (s : State) (d a b c : BitVec 5),
     let x := s.reg a
     let y := s.reg b
     let z := s.reg c
     Writes (.add d a b) s d (x + y) ∧
     Writes (.sub d a b) s d (x - y) ∧
     Writes (.mul d a b) s d (x * y) ∧
     Writes (.mulh d a b) s d ((x.signExtend 128 * y.signExtend 128).extractLsb' 64 64) ∧
     Writes (.mulhz d a b) s d ((x.setWidth 128 * y.setWidth 128).extractLsb' 64 64) ∧
     Writes (.and d a b) s d (x &&& y) ∧
     Writes (.or d a b) s d (x ||| y) ∧
     Writes (.xor d a b) s d (x ^^^ y) ∧
     Writes (.andn d a b) s d (x &&& ~~~y) ∧
     (∃ v, v.toInt = min x.toInt y.toInt ∧ Writes (.min d a b) s d v) ∧
     (∃ v, v.toInt = max x.toInt y.toInt ∧ Writes (.max d a b) s d v) ∧
     (∃ v, v.toNat = Nat.min x.toNat y.toNat ∧ Writes (.minz d a b) s d v) ∧
     (∃ v, v.toNat = Nat.max x.toNat y.toNat ∧ Writes (.maxz d a b) s d v) ∧
     (∃ n, LeadingZeros x n ∧ Writes (.clz d a) s d (BitVec.ofNat 64 n)) ∧
     (∃ n, TrailingZeros x n ∧ Writes (.ctz d a) s d (BitVec.ofNat 64 n)) ∧
     Writes (.popc d a) s d (BitVec.ofNat 64 ((List.range 64).countP fun i => x.getLsbD i)) ∧
     (∀ cc, (Holds cc x y → Writes (.cmp d a b cc) s d 1) ∧ (¬ Holds cc x y → Writes (.cmp d a b cc) s d 0)) ∧
     (z ≠ 0 → Writes (.sel d a b c) s d x) ∧ (z = 0 → Writes (.sel d a b c) s d y)) ∧
  (∀ (s : State) (d a : BitVec 5) (i : BitVec 12) (u : BitVec 20),
     let x := s.reg a
     Writes (.addi d a i) s d (x + i.signExtend 64) ∧
     Writes (.andi d a i) s d (x &&& i.setWidth 64) ∧
     Writes (.ori d a i) s d (x ||| i.setWidth 64) ∧
     Writes (.xori d a i) s d (x ^^^ i.setWidth 64) ∧
     Writes (.lui d u) s d (u.signExtend 64 * 4096) ∧
     Writes (.addpc d u) s d (s.me.pc + u.signExtend 64 * 4096))

/-- R127: every shift, rotate and funnel shift takes its count modulo 64, from the low six bits of the count register,
and the other 58 bits change nothing; with the results of R125. -/
def Obligations.ShiftsTakeTheirCountModulo64 : Prop :=
  ∀ (s : State) (d a b c : BitVec 5),
    let x := s.reg a
    let y := s.reg b
    let n := y.toNat % 64
    let m := (s.reg c).toNat % 64
    Writes (.shl d a b) s d (x <<< n) ∧
    Writes (.shr d a b) s d (x >>> n) ∧
    Writes (.sra d a b) s d (x.sshiftRight n) ∧
    Writes (.rot d a b) s d ((x <<< n) ||| (x >>> (64 - n))) ∧
    Writes (.fsh d a b c) s d (((x ++ y) >>> m).setWidth 64) ∧
    (n = 0 → Writes (.shl d a b) s d x ∧ Writes (.shr d a b) s d x ∧ Writes (.sra d a b) s d x ∧
      Writes (.rot d a b) s d x) ∧
    (m = 0 → Writes (.fsh d a b c) s d y) ∧
    (b = a → Writes (.fsh d a b c) s d (x.rotateRight m))

/-- R126: `DIV`, `DIVZ`, `REM`, `REMZ` on every operand pair: division by zero, the one overflow case, and otherwise the
exact quotient toward zero; and a = q × b + r modulo 2^64 throughout. -/
def Obligations.DivisionTruncatesTowardZero : Prop :=
  ∀ (s : State) (d a b : BitVec 5),
    let x := s.reg a
    let y := s.reg b
    (∃ q r : Word, Writes (.div d a b) s d q ∧ Writes (.rem d a b) s d r ∧ x = q * y + r ∧
      (y = 0 → q = BitVec.allOnes 64 ∧ r = x) ∧
      (x = BitVec.intMin 64 → y = BitVec.allOnes 64 → q = BitVec.intMin 64 ∧ r = 0) ∧
      (y ≠ 0 → ¬ (x = BitVec.intMin 64 ∧ y = BitVec.allOnes 64) →
        q.toInt = Int.tdiv x.toInt y.toInt ∧ r.toInt = x.toInt - q.toInt * y.toInt)) ∧
    (∃ q r : Word, Writes (.divz d a b) s d q ∧ Writes (.remz d a b) s d r ∧ x = q * y + r ∧
      (y = 0 → q = BitVec.allOnes 64 ∧ r = x) ∧
      (y ≠ 0 → q.toNat = x.toNat / y.toNat ∧ r.toNat = x.toNat - q.toNat * y.toNat))

/-! ### Control flow, traps and system words (spec/04, spec/20) -/

/-- R79, R80: outside a slot, when the slot's word can issue at once (R82), `B.cc`, `J`, `JAL` and `JR` complete: the
sequencer stands at pc + 4 and its slot leads to the target when the branch is taken, to pc + 8 when it is not; the link
is pc + 8. The slot keeps what was prepared for its word, a `LAUNCH`'s record. Nothing else changes. `JR` to an address that is no multiple of 4 is an illegal operand, with no link and no
slot. -/
def Obligations.BranchesLeaveThroughTheirSlot : Prop :=
  ∀ (s : State), s.me.slot = none → s.slotWait (s.me.pc + 4) = none →
    (∀ (a b : BitVec 5) (cc : BitVec 3) (off : BitVec 13), ∃ t taken, exec (.b a b cc off) s = .next t ∧
      (taken = true ↔ Holds cc (s.reg a) (s.reg b)) ∧ t.me.pc = s.me.pc + 4 ∧
      t.me.slot = some { branch := s.me.pc, target := s.me.pc + off.signExtend 64 * 4, taken := taken,
                         prep := s.slotPrep (s.me.pc + 4) } ∧
      (∀ r, t.reg r = s.reg r) ∧ OnlyRegs s t ∧ OnlyMe s t ∧ SameMemory s t) ∧
    (∀ (off : BitVec 21), ∃ t, exec (.j off) s = .next t ∧ t.me.pc = s.me.pc + 4 ∧
      t.me.slot = some { branch := s.me.pc, target := s.me.pc + off.signExtend 64 * 4, taken := true,
                         prep := s.slotPrep (s.me.pc + 4) } ∧
      (∀ r, t.reg r = s.reg r) ∧ OnlyRegs s t ∧ OnlyMe s t ∧ SameMemory s t) ∧
    (∀ (d : BitVec 5) (off : BitVec 21), ∃ t, exec (.jal d off) s = .next t ∧ t.me.pc = s.me.pc + 4 ∧
      t.me.slot = some { branch := s.me.pc, target := s.me.pc + off.signExtend 64 * 4, taken := true,
                         prep := s.slotPrep (s.me.pc + 4) } ∧
      Sets d (s.me.pc + 8) s t ∧ OnlyRegs s t ∧ OnlyMe s t ∧ SameMemory s t) ∧
    (∀ (d a : BitVec 5), (s.reg a).toNat % 4 = 0 → ∃ t, exec (.jr d a) s = .next t ∧ t.me.pc = s.me.pc + 4 ∧
      t.me.slot = some { branch := s.me.pc, target := s.reg a, taken := true,
                         prep := s.slotPrep (s.me.pc + 4) } ∧
      Sets d (s.me.pc + 8) s t ∧ OnlyRegs s t ∧ OnlyMe s t ∧ SameMemory s t) ∧
    (∀ (d a : BitVec 5), (s.reg a).toNat % 4 ≠ 0 → s.me.run = .live → Traps (.jr d a) s 3 0)

/-- R81: in a delay slot `B`, `J`, `JAL`, `JR`, `ERET`, `RETIRE`, `YIELD`, `HALT`, `TRAP`, `WAIT` and every SX double word
take the illegal-instruction trap before any effect; the record is that of R83. -/
def Obligations.SlotsRefuseTransfersAndDoubleWords : Prop :=
  ∀ (s : State), s.me.run = .live → s.me.slot ≠ none →
    (∀ a b cc off, Traps (.b a b cc off) s 1 0) ∧ (∀ off, Traps (.j off) s 1 0) ∧ (∀ d off, Traps (.jal d off) s 1 0) ∧
    (∀ d a, Traps (.jr d a) s 1 0) ∧ Traps .eret s 1 0 ∧ Traps .retire s 1 0 ∧ Traps .yield s 1 0 ∧ Traps .halt s 1 0 ∧
    (∀ k, Traps (.trap k) s 1 0) ∧ (∀ d a b n, Traps (.waitAny d a b n) s 1 0 ∧ Traps (.waitAll d a b n) s 1 0) ∧
    ∀ x : SXWord,
      Traps (.run x) s 1 0 ∧ Traps (.cpy x) s 1 0 ∧ Traps (.xform x) s 1 0 ∧ Traps (.attns x) s 1 0 ∧
      Traps (.sqopen x) s 1 0 ∧ Traps (.sqapp x) s 1 0 ∧ Traps (.sqfork x) s 1 0 ∧ Traps (.sqtrunc x) s 1 0 ∧
      Traps (.sqpark x) s 1 0 ∧ Traps (.sqwake x) s 1 0 ∧ Traps (.sqclose x) s 1 0 ∧ Traps (.sqinfo x) s 1 0 ∧
      Traps (.attnd x) s 1 0 ∧ Traps (.rdx x) s 1 0 ∧ Traps (.coll x) s 1 0 ∧ Traps (.ring x) s 1 0 ∧
      Traps (.plough x) s 1 0 ∧ Traps (.tokp x) s 1 0

/-- R424, R425, R426: with system rights `TRAP k` takes a trap of class 15 with sub-code k, `BKPT` one of class 16, in a
slot too, and `HALT` one of class 17, which always stops the bank; each with RESTART 0. -/
def Obligations.TrapWordsTakeTheirTrap : Prop :=
  ∀ (s : State), s.me.run = .live → s.hasRights s.cur = true →
    (∃ t, exec .bkpt s = .next t ∧ Trapped 16 0 false s t) ∧
    (s.me.slot = none →
      (∀ k, ∃ t, exec (.trap k) s = .next t ∧ Trapped 15 k.toNat false s t) ∧
      (∃ t, exec .halt s = .next t ∧ Trapped 17 0 false s t ∧ ∃ r rep dbl, t.me.run = .stopping r rep dbl))

/-- R32, R60, R413, R428: without system rights every privileged word takes the privileged-instruction trap before any
effect; a bank holds them exactly when its partition's bit of SYSPART is set or it is in handler mode. -/
def Obligations.PrivilegedWordsTrapWithoutRights : Prop :=
  (∀ (s : State) (b : Nat), (s.bank b).part < 16 →
    (s.hasRights b = true ↔ bit (s.die (b / 256)).tcfg (s.bank b).part = true ∨ (s.bank b).hmode = true)) ∧
  (∀ (s : State), s.me.run = .live → s.hasRights s.cur = false →
    Traps .bkpt s 2 0 ∧ (∀ a, Traps (.shoot a) s 2 0) ∧ (∀ a, Traps (.keydrop a) s 2 0) ∧
    (∀ a h off, Traps (.keyld a h off) s 2 0) ∧
    (∀ d n, n.toNat ≤ 0x011 → Traps (.srd d n) s 2 0) ∧ (∀ a n, n.toNat ≤ 0x011 → Traps (.swr a n) s 2 0) ∧
    (s.me.slot = none → Traps .eret s 2 0 ∧ Traps .halt s 2 0 ∧ ∀ k, Traps (.trap k) s 2 0))

/-- R427: `ERET` in handler mode leaves it, makes every faulted handle stale, clears CLASS and goes on where the record
says, what a debugger has written for the resumption apart (R443); registers, other banks and memory stay. Outside handler
mode, with rights, it takes the illegal-operand trap. -/
def Obligations.EretReturnsFromItsRecord : Prop :=
  ∀ (s : State), s.me.slot = none →
    let f := s.me.sys.fstat
    (s.me.hmode = true → s.me.edits = [] → ∃ t, exec .eret s = .next t ∧ t.me.hmode = false ∧ t.me.run = .live ∧
      bits t.me.sys.fstat 7 0 = 0 ∧ (∀ i, 8 ≤ i → bit t.me.sys.fstat i = bit f i) ∧
      (∀ h, (t.me.handle h).st = if (s.me.handle h).st = .faulted then .stale else (s.me.handle h).st) ∧
      (if bit f 26 = true then t.me.pc = s.me.sys.epc ∧ t.me.slot = none
       else if bit f 24 = true then
         if bit f 25 = true then t.me.pc = s.me.sys.epc + 4 ∧
           t.me.slot = some { branch := s.me.sys.epc, target := s.me.sys.etgt, taken := true }
         else t.me.pc = s.me.sys.etgt ∧ t.me.slot = none
       else t.me.pc = (if bit f 25 = true then s.me.sys.epc else s.me.sys.enpc) ∧ t.me.slot = none) ∧
      (∀ r, t.reg r = s.reg r) ∧ OnlyMeOwing s t ∧ SameMemory s t) ∧
    (s.me.run = .live → s.me.hmode = false → s.hasRights s.cur = true → Traps .eret s 3 0)

/-- R417, R428: with system rights `SRD` writes the register of its number to dst and `SWR` writes the fields whose access
allows it; read-only registers and fields keep their value. A number outside the table is class 1, with rights or
without. -/
def Obligations.SystemRegistersReadAndWrite : Prop :=
  ∀ (s : State),
    (s.hasRights s.cur = true → ∀ d : BitVec 5,
      let r := s.me.sys
      Writes (.srd d 0x000) s d r.fstat ∧ Writes (.srd d 0x001) s d r.epc ∧ Writes (.srd d 0x002) s d r.enpc ∧
      Writes (.srd d 0x003) s d r.etgt ∧ Writes (.srd d 0x004) s d r.eaddr ∧ Writes (.srd d 0x005) s d r.einfo ∧
      Writes (.srd d 0x006) s d r.eprog0 ∧ Writes (.srd d 0x007) s d r.eprog1 ∧ Writes (.srd d 0x008) s d r.eprog2 ∧
      Writes (.srd d 0x009) s d r.eprog3 ∧ Writes (.srd d 0x00A) s d r.escr0 ∧ Writes (.srd d 0x00B) s d r.escr1 ∧
      Writes (.srd d 0x00C) s d r.tvec ∧ Writes (.srd d 0x00D) s d r.tmask ∧
      Writes (.srd d 0x00E) s d (if s.me.hmode then 3 else 1) ∧ Writes (.srd d 0x00F) s d r.einsn ∧
      Writes (.srd d 0x010) s d r.fpc ∧ Writes (.srd d 0x011) s d r.hkey) ∧
    (s.hasRights s.cur = true → ∀ (a : BitVec 5) (n : BitVec 12), n.toNat ≤ 0x011 →
      let r := s.me.sys
      let v := s.reg a
      ∃ t, exec (.swr a n) s = .next t ∧ GoesOn 4 s t ∧ OnlyMe s t ∧ SameMemory s t ∧
        { t.me with sys := s.me.sys, pc := s.me.pc, slot := s.me.slot } = s.me ∧
        (∀ i, bit t.me.sys.fstat i = if n = 0x000 ∧ i = 25 then bit v 25 else bit r.fstat i) ∧
        t.me.sys.etgt = (if n = 0x003 then v else r.etgt) ∧ t.me.sys.escr0 = (if n = 0x00A then v else r.escr0) ∧
        t.me.sys.escr1 = (if n = 0x00B then v else r.escr1) ∧ t.me.sys.tvec = (if n = 0x00C then v else r.tvec) ∧
        t.me.sys.tmask = (if n = 0x00D then v else r.tmask) ∧
        t.me.sys.fpc = (if n = 0x010 then v &&& 3 else r.fpc) ∧
        t.me.sys.hkey = (if n = 0x011 then v &&& 0xFFFF else r.hkey) ∧
        { t.me.sys with fstat := r.fstat, etgt := r.etgt, escr0 := r.escr0, escr1 := r.escr1, tvec := r.tvec,
                        tmask := r.tmask, fpc := r.fpc, hkey := r.hkey } = r) ∧
    (s.me.run = .live → ∀ (d a : BitVec 5) (n : BitVec 12), 0x011 < n.toNat →
      Traps (.srd d n) s 1 0 ∧ Traps (.swr a n) s 1 0)

/-! ### Handles and queues (spec/18, spec/11) -/

/-- R37, R386, R389: `XLATE` and `HDROP` complete on every state. `XLATE` sets BASE and INTENT, adds 1 to GEN and leaves the
handle valid with the page's translation where the core's translation cache grants every right of the intent, and
pending otherwise; an intent of 0 is an illegal operand. `HDROP` leaves the handle invalid with GEN one higher. No other
handle, no register, no memory changes. `HINFO` (R390) writes its words to dst and changes nothing else; words
1 and 2 wait while the handle is pending or stale, and a stale handle walks again for them. R384, R386: a walk that a pending
handle waits for ends, once its reads have had their units of service (R476; the units are the model's choice, log entry 66),
with the handle valid and the walk's translation, kept in the core's translation cache, or faulted with the walk's cause; a
handle that is not pending discards it, as the handle of a bank that is saved or being restored does, which walks again. -/
def Obligations.HandlesAreMadeWalkedDroppedAndRead : Prop :=
  (∀ (s : State) (a : BitVec 5) (h : BitVec 4) (w : BitVec 3),
     let x := s.me.handle h.toNat
     let va := (s.reg a).toNat
     let hit := (s.core (s.cur / 2)).cached s.me.part va
     (w ≠ 0 → ∃ t, exec (.xlate a h w) s = .next t ∧ GoesOn 4 s t ∧
       (t.me.handle h.toNat).base = (s.reg a).setWidth 56 ∧ (t.me.handle h.toNat).intent = w ∧
       (t.me.handle h.toNat).gen = x.gen + 1 ∧
       ((∃ e, va < 2 ^ 56 ∧ hit = some e ∧ w &&& ~~~ (leafRights e.leaf) = 0 ∧ (t.me.handle h.toNat).st = .valid ∧
           (t.me.handle h.toNat).page = e.page ∧ (t.me.handle h.toNat).size = e.size ∧ (t.me.handle h.toNat).leaf = e.leaf) ∨
         ((∀ e, hit = some e → 2 ^ 56 ≤ va ∨ w &&& ~~~ (leafRights e.leaf) ≠ 0) ∧
           (t.me.handle h.toNat).st = .pending ∧ (.pageWalkComplete s.cur h.toNat) ∈ t.pending)) ∧
       (∀ j, j ≠ h.toNat → t.me.handle j = s.me.handle j) ∧
       { t.me with handles := s.me.handles, pc := s.me.pc, slot := s.me.slot } = s.me ∧ OnlyMeOwing s t ∧ SameMemory s t) ∧
     (w = 0 → s.me.run = .live → Traps (.xlate a h w) s 3 0) ∧
     (∃ t, exec (.hdrop h) s = .next t ∧ GoesOn 4 s t ∧ (t.me.handle h.toNat).st = .invalid ∧
       (t.me.handle h.toNat).gen = x.gen + 1 ∧ (∀ j, j ≠ h.toNat → t.me.handle j = s.me.handle j) ∧
       { t.me with handles := s.me.handles, pc := s.me.pc, slot := s.me.slot } = s.me ∧ OnlyMe s t ∧ SameMemory s t)) ∧
  (∀ (s : State) (d : BitVec 5) (h : BitVec 4),
     let x := s.me.handle h.toNat
     Writes (.hinfo d h 0) s d (if x.st = .invalid then 0 else x.base.setWidth 64) ∧
     Writes (.hinfo d h 3) s d (x.gen.setWidth 64) ∧
     Writes (.hinfo d h 4) s d (BitVec.ofNat 64 (match x.st with
       | .invalid => 0
       | .pending => 1
       | .valid => 2
       | .faulted => 3 + 256 * x.cause
       | .stale => 4)) ∧
     (x.st = .valid → x.page < 2 ^ 56 → x.page % 65536 = 0 → x.size ≤ 2 →
       (∃ v, Writes (.hinfo d h 1) s d v ∧ bits v 55 16 * 65536 = x.page ∧ bits v 1 0 = x.size ∧ bits v 15 2 = 0 ∧
         bits v 63 56 = 0) ∧
       (∃ v, Writes (.hinfo d h 2) s d v ∧ bits v 59 24 = (if s.hasRights s.cur then bits x.leaf 59 24 else 0) ∧
         bits v 23 6 = bits x.leaf 23 6 ∧ bit v 3 = (bit x.leaf 3 && bit x.intent 0) ∧
         bit v 4 = (bit x.leaf 4 && bit x.intent 1) ∧ bit v 5 = (bit x.leaf 5 && bit x.intent 2) ∧ bits v 2 0 = 0 ∧
         bits v 63 60 = 0)) ∧
     (x.st = .invalid ∨ x.st = .faulted → Writes (.hinfo d h 1) s d 0 ∧ Writes (.hinfo d h 2) s d 0) ∧
     (x.st = .pending → Waits (.hinfo d h 1) s ∧ Waits (.hinfo d h 2) s) ∧
     (x.st = .stale → ∀ k : BitVec 5, k = 1 ∨ k = 2 → ∃ t, exec (.hinfo d h k) s = .next t ∧
       (t.me.handle h.toNat).st = .pending ∧ (t.me.handle h.toNat).gen = x.gen ∧ t.me.pc = s.me.pc ∧
       (∀ r, t.reg r = s.reg r))) ∧
  (∀ (s : State) (b h : Nat), validBank b = true →
     let x := (s.bank b).handle h
     let walks := x.st = .pending ∧ ((s.bank b).pst = .live ∨ (s.bank b).pst = .saving)
     let units := s.serve (agentWalk b h) (b + 1) ((s.bank b).part % 16) (s.walkLegs (b / 256) (s.bank b).part x.page)
     (walks → units.1 = false → ∃ t, exec (.pageWalkComplete b h) s = .next t ∧ t.banks = s.banks ∧
       (.pageWalkComplete b h) ∈ t.pending ∧ t.cores = s.cores ∧ t.mem = s.mem ∧ t.sram = s.sram) ∧
     (walks → units.1 = true → ∀ e, s.walk (b / 256) (s.bank b).part x.page x.intent = .ok e →
       ∃ t, exec (.pageWalkComplete b h) s = .next t ∧ ((t.bank b).handle h).st = .valid ∧
         ((t.bank b).handle h).page = e.page ∧ ((t.bank b).handle h).size = e.size ∧ ((t.bank b).handle h).leaf = e.leaf ∧
         ((t.bank b).handle h).base = x.base ∧ ((t.bank b).handle h).gen = x.gen ∧ e ∈ (t.core (b / 2)).tlb ∧
         (∀ j, j ≠ h → (t.bank b).handle j = (s.bank b).handle j) ∧ (∀ c, c ≠ b → t.bank c = s.bank c) ∧
         t.mem = s.mem ∧ t.sram = s.sram) ∧
     (walks → units.1 = true → ∀ c, s.walk (b / 256) (s.bank b).part x.page x.intent = .error c →
       ∃ t, exec (.pageWalkComplete b h) s = .next t ∧ ((t.bank b).handle h).st = .faulted ∧
         ((t.bank b).handle h).cause = c ∧ ((t.bank b).handle h).base = x.base ∧
         (∀ j, j ≠ h → (t.bank b).handle j = (s.bank b).handle j) ∧ (∀ c, c ≠ b → t.bank c = s.bank c) ∧
         t.cores = s.cores ∧ t.mem = s.mem ∧ t.sram = s.sram) ∧
     (¬walks → exec (.pageWalkComplete b h) s = .next s))

/-- R231, R232, R233, R234: the queue words. `QPUSH` and `QADV.tail` reserve and fill on queues 0 to 3 when there is room,
and publish at once when nothing earlier is unpublished, while behind unpublished slots the filled ones stay unpublished;
`QPOP` and `QADV.head` take from queues 4 to 7 when enough is
published; `QLVL` samples. A word that finds no room or too few rows waits; a poisoned row is not popped and traps. -/
def Obligations.QueueWordsReserveFillAndTake : Prop :=
  ∀ (s : State) (r : BitVec 5) (q n : BitVec 4),
    let x := s.me.queue q.toNat
    (q.toNat ≤ 3 → s.me.canReserve q.toNat 1 = true → ∃ t, exec (.qpush r q) s = .next t ∧ GoesOn 4 s t ∧
      (t.me.queue q.toNat).rsv = x.rsv + 1 ∧ (t.me.queue q.toNat).head = x.head ∧
      (x.tail = x.rsv → (t.me.queue q.toNat).tail = x.tail + 1) ∧
      (x.head ≤ x.tail → x.tail < x.rsv → x.rsv < x.head + 16 → (x.slot q.toNat x.tail).filled = false →
        (t.me.queue q.toNat).tail = x.tail) ∧
      (t.me.queue q.toNat).slot q.toNat x.rsv = { row := (s.reg r).setWidth 2048, poison := false, filled := true } ∧
      (∀ p, p % 16 ≠ x.rsv % 16 → (t.me.queue q.toNat).slot q.toNat p = x.slot q.toNat p) ∧
      (∀ j, j ≠ q.toNat → t.me.queue j = s.me.queue j) ∧
      { t.me with queues := s.me.queues, pc := s.me.pc, slot := s.me.slot } = s.me ∧ OnlyMe s t ∧ SameMemory s t) ∧
    (q.toNat ≤ 3 → s.me.canReserve q.toNat 1 = false → Waits (.qpush r q) s) ∧
    (q.toNat ≤ 3 → s.me.canReserve q.toNat (n.toNat + 1) = true → ∃ t, exec (.qadvTail q n) s = .next t ∧ GoesOn 4 s t ∧
      (t.me.queue q.toNat).rsv = x.rsv + n.toNat + 1 ∧ (t.me.queue q.toNat).head = x.head ∧
      (x.tail = x.rsv → (t.me.queue q.toNat).tail = x.tail + n.toNat + 1) ∧
      (∀ p, ((t.me.queue q.toNat).slot q.toNat p).row = (x.slot q.toNat p).row ∧
        ((t.me.queue q.toNat).slot q.toNat p).poison = (x.slot q.toNat p).poison ∧
        ((t.me.queue q.toNat).slot q.toNat p).chk = (x.slot q.toNat p).chk) ∧
      (∀ i, i ≤ n.toNat → ((t.me.queue q.toNat).slot q.toNat (x.rsv + i)).filled = true) ∧
      (∀ p, (∀ i, i ≤ n.toNat → p % 16 ≠ (x.rsv + i) % 16) → (t.me.queue q.toNat).slot q.toNat p = x.slot q.toNat p) ∧
      (x.head ≤ x.tail → x.tail < x.rsv → x.rsv + n.toNat < x.head + 16 → (x.slot q.toNat x.tail).filled = false →
        (t.me.queue q.toNat).tail = x.tail) ∧
      (∀ j, j ≠ q.toNat → t.me.queue j = s.me.queue j) ∧
      { t.me with queues := s.me.queues, pc := s.me.pc, slot := s.me.slot } = s.me ∧ OnlyMe s t ∧ SameMemory s t) ∧
    (q.toNat ≤ 3 → s.me.canReserve q.toNat (n.toNat + 1) = false → Waits (.qadvTail q n) s) ∧
    (4 ≤ q.toNat → q.toNat ≤ 7 → x.head < x.tail → (x.slot q.toNat x.head).poison = false →
      ∃ t, exec (.qpop r q) s = .next t ∧ GoesOn 4 s t ∧ Sets r ((x.slot q.toNat x.head).row.setWidth 64) s t ∧
        t.me.queue q.toNat = { x with head := x.head + 1 } ∧ (∀ j, j ≠ q.toNat → t.me.queue j = s.me.queue j) ∧
        { t.me with queues := s.me.queues, regs := s.me.regs, pc := s.me.pc, slot := s.me.slot } = s.me ∧
        OnlyMe s t ∧ SameMemory s t) ∧
    (4 ≤ q.toNat → q.toNat ≤ 7 → x.head < x.tail → (x.slot q.toNat x.head).poison = true → s.me.run = .live →
      Traps (.qpop r q) s 8 0) ∧
    (4 ≤ q.toNat → q.toNat ≤ 7 → x.tail ≤ x.head → Waits (.qpop r q) s) ∧
    (4 ≤ q.toNat → q.toNat ≤ 7 → x.head + n.toNat + 1 ≤ x.tail → ∃ t, exec (.qadvHead q n) s = .next t ∧ GoesOn 4 s t ∧
        t.me.queue q.toNat = { x with head := x.head + n.toNat + 1 } ∧ (∀ j, j ≠ q.toNat → t.me.queue j = s.me.queue j) ∧
        { t.me with queues := s.me.queues, pc := s.me.pc, slot := s.me.slot } = s.me ∧ OnlyMe s t ∧ SameMemory s t) ∧
    (4 ≤ q.toNat → q.toNat ≤ 7 → x.head ≤ x.tail → x.tail < x.head + n.toNat + 1 → Waits (.qadvHead q n) s) ∧
    (q.toNat ≤ 7 → x.head ≤ x.tail → x.tail ≤ x.rsv → x.rsv ≤ x.head + 32 → (q.toNat ≤ 5 → x.rsv ≤ x.head + 16) →
      ∃ v, Writes (.qlvl r q) s r v ∧ bits v 7 0 = x.tail - x.head ∧
        bits v 15 8 = (if q.toNat ≤ 3 then x.rsv - x.tail else 0) ∧
        bits v 23 16 = (if q.toNat ≤ 3 then 16 - (x.rsv - x.head)
          else if q.toNat ≤ 5 then 16 - (x.tail - x.head) else 32 - (x.tail - x.head)) ∧ bits v 63 24 = 0) ∧
    (s.me.run = .live → (3 < q.toNat → Traps (.qpush r q) s 3 0 ∧ Traps (.qadvTail q n) s 3 0) ∧
      (q.toNat < 4 ∨ 7 < q.toNat → Traps (.qpop r q) s 3 0 ∧ Traps (.qadvHead q n) s 3 0) ∧
      (7 < q.toNat → Traps (.qlvl r q) s 3 0))

/-! ### Accesses of the sequencer (spec/11) -/

/-- R219: the checks of an access come in their order, each before any effect: an invalid handle traps (5), a pending one
waits, a stale one walks again and waits, a faulted one and a missing right are page faults (4), a byte beyond the
handle's page is a bounds trap (6), an address that is no multiple of the width is a misaligned access (7). Registers past `s31` (`LDM`, `STM`) and a queue other than 0 to 3
(`LDQ`) are illegal operands (3) before all of these (R222, R38). A `LAUNCH` whose branch has read its record (R82) makes
no access of its own. `KEYLD` with system rights and a legal key id makes the checks for 576 bytes aligned to 64 (R400).
`FENCE` and `FENCE.ifetch` make those of the handle's state alone (R226). -/
def Obligations.AccessChecksComeInTheirOrder : Prop :=
  (∀ (s : State) (d q : BitVec 5) (h k : BitVec 4) (n : BitVec 3) (off : BitVec 12), s.me.run = .live →
    (31 < d.toNat + n.toNat → Traps (.ldm d h n off) s 3 0 ∧ Traps (.stm d h n off) s 3 0) ∧
    (3 < q.toNat → Traps (.ldq q h k off) s 3 0)) ∧
  (∀ (s : State) (i : Instr) (h : BitVec 4), i = .fence h ∨ i = .fenceIfetch h → s.me.run = .live →
    let x := s.me.handle h.toNat
    (x.st = .invalid → Traps i s 5 0) ∧ (x.st = .pending → Waits i s) ∧ (x.st = .faulted → Traps i s 4 0) ∧
    (x.st = .stale → ∃ t, exec i s = .next t ∧ (t.me.handle h.toNat).st = .pending ∧ (t.me.handle h.toNat).gen = x.gen ∧
      t.me.pc = s.me.pc ∧ (∀ r, t.reg r = s.reg r) ∧ OnlyMeOwing s t ∧ SameMemory s t)) ∧
  (∀ (s : State) (i : Instr) (h off n w : Nat) (need : BitVec 3),
    (Access i h off n w need ∨
      ∃ (a : BitVec 5) (g : BitVec 4) (o : BitVec 12), i = .keyld a g o ∧ h = g.toNat ∧ off = o.toNat * 64 ∧ n = 576 ∧ w = 64 ∧
        need = 1 ∧ s.hasRights s.cur = true ∧ s.reg a ≠ 0 ∧ (s.reg a).toNat < 2 ^ 13) → s.me.run = .live →
    (∀ sl, s.me.slot = some sl → sl.prep = .none) →
    let x := s.me.handle h
    let va := x.base.toNat + off
    let stop := x.page + 2 ^ (16 + 10 * x.size)
    (x.st = .invalid → Traps i s 5 0) ∧ (x.st = .pending → Waits i s) ∧ (x.st = .faulted → Traps i s 4 0) ∧
    (x.st = .stale → ∃ t, exec i s = .next t ∧ (t.me.handle h).st = .pending ∧ (t.me.handle h).gen = x.gen ∧
      t.me.pc = s.me.pc ∧ (∀ r, t.reg r = s.reg r) ∧ OnlyMeOwing s t ∧ SameMemory s t) ∧
    (x.st = .valid →
      (need &&& ~~~ x.intent ≠ 0 → Traps i s 4 0) ∧
      (need &&& ~~~ x.intent = 0 → stop < va + n → Traps i s 6 0) ∧
      (need &&& ~~~ x.intent = 0 → va + n ≤ stop → va % w ≠ 0 → Traps i s 7 0)))

/-- R220, R222: a load whose line the core's cache holds, its row clean, completes: `LD` and `LDA` write the addressed
bytes, extended as their type says, `LDM` the registers REG to REG + n − 1 from consecutive words. `s0` is never written.
Nothing else changes but the line's time stamp. R220, R221, R273: `LD` and `LDA` of a line that the cache does not hold ask
its home for a copy and hold the bank at the word with the load's address, width and extension; a load of a poisoned row takes
the poison trap and its destination keeps its value. Behind a fence that the bank has passed early a load waits (R207; that a
fence is passed early is the model's choice, log entry 71). When the data of a bank's
outstanding load or atomic has come, its last word is written to its register, extended, and the bank goes on past the
word; nothing else changes. -/
def Obligations.LoadsCompleteOrWaitForTheirData : Prop :=
  (∀ (s : State) (d : BitVec 5) (h t : BitVec 4) (n : BitVec 3) (off : BitVec 12) (x : Acc), s.me.fencing = false →
     (accessType t = true → s.access s.cur h.toNat (off.toNat * typeBytes t) (typeBytes t) (typeBytes t) 1 = .ok x →
       s.loadBehind s.cur x.pa (typeBytes t) = false → x.pa % typeBytes t = 0 → Held s s.cur x.pa x.leaf →
       Visible s s.cur x.pa (typeBytes t) →
       ∀ i, i = Instr.ld d h t off ∨ i = Instr.lda d h t off → ∃ u, exec i s = .next u ∧
         Sets d (Extended t (LineOf s s.cur x.pa) (x.pa % 64)) s u ∧ GoesOn 4 s u ∧ u.me.pend = none ∧
         { u.me with regs := s.me.regs, pc := s.me.pc, slot := s.me.slot, pend := s.me.pend } = s.me ∧
         OnlyMeAndStamps s u ∧ SameMemory s u) ∧
     (d.toNat + n.toNat ≤ 31 → s.access s.cur h.toNat (off.toNat * 8) (8 * (n.toNat + 1)) 8 1 = .ok x →
       s.loadBehind s.cur x.pa ((n.toNat + 1) * 8) = false → x.pa % 8 = 0 →
       (∀ j, j ≤ n.toNat → Held s s.cur (x.pa + 8 * j) x.leaf ∧ Visible s s.cur (x.pa + 8 * j) 8) →
       ∃ u, exec (.ldm d h n off) s = .next u ∧
         (∀ r : BitVec 5, u.reg r = if r ≠ 0 ∧ d.toNat ≤ r.toNat ∧ r.toNat ≤ d.toNat + n.toNat then
             Extended 14 (LineOf s s.cur (x.pa + 8 * (r.toNat - d.toNat))) ((x.pa + 8 * (r.toNat - d.toNat)) % 64)
           else s.reg r) ∧
         GoesOn 4 s u ∧ u.me.pend = none ∧
         { u.me with regs := s.me.regs, pc := s.me.pc, slot := s.me.slot, pend := s.me.pend } = s.me ∧
         OnlyMeAndStamps s u ∧ SameMemory s u)) ∧
  (∀ (s : State) (d : BitVec 5) (h t : BitVec 4) (off : BitVec 12) (x : Acc) (i : Instr),
    i = Instr.ld d h t off ∨ i = Instr.lda d h t off → accessType t = true →
    s.access s.cur h.toNat (off.toNat * typeBytes t) (typeBytes t) (typeBytes t) 1 = .ok x →
    (s.me.fencing = true → Waits i s) ∧
    (s.me.fencing = false → s.loadBehind s.cur x.pa (typeBytes t) = false → isCached x.pa = true →
     Visible s s.cur x.pa (typeBytes t) →
    (((s.core (s.cur / 2)).line (x.pa / 64)).st = .i → ∃ u p, exec i s = .next u ∧
      u.net = s.net ++ [{ kind := .getS, core := s.cur / 2, line := x.pa / 64, data := 0, ev := leafEv x.leaf,
                           b := s.cur + 1, no := s.sends + 1 }] ∧
      ((u.core (s.cur / 2)).line (x.pa / 64)).st = .isD ∧ u.me.pend = some p ∧ p.pa = x.pa ∧ p.d = d.toNat ∧ p.n = 1 ∧ p.i = 0 ∧
      p.width = typeBytes t ∧ p.signed = decide (t.toNat ≤ 10) ∧ p.leaf = x.leaf ∧ p.atomic = false ∧
      u.me.pc = s.me.pc ∧ (∀ r, u.reg r = s.reg r) ∧ SameMemory s u) ∧
    (((s.core (s.cur / 2)).line (x.pa / 64)).st.loadHits = true → (s.rowMeta (x.pa / 256)).poison = true →
      s.me.run ≠ .ending → s.me.toHandler 8 = false → ∃ u r, exec i s = .next u ∧
      u.me.run = .stopping (if s.me.hmode then s.me.sys else r) r s.me.hmode ∧ bits r.fstat 7 0 = 8 ∧
      (s.me.inTakenSlot = none → r.epc = s.me.pc) ∧ (∀ q, u.reg q = s.reg q) ∧ SameMemory s u))) ∧
  (∀ (s : State) (b : Nat) (p : Pend), validBank b = true → (s.bank b).pend = some p → p.n = p.i + 1 → p.d + p.i < 32 →
    (p.atomic = true → ∀ v, p.ret = some (v, false) → ∃ t, exec (.loadDataReturn b) s = .next t ∧
      t.bank b = { ((s.bank b).setReg (BitVec.ofNat 5 (p.d + p.i)) (extend p.signed p.width v.toNat)).advance 4 with
        pend := none } ∧
      (∀ c, c ≠ b → t.bank c = s.bank c) ∧ { t with banks := s.banks } = s) ∧
    (p.atomic = false → Held s b (p.pa + p.width * p.i) p.leaf → Visible s b (p.pa + p.width * p.i) p.width → ∃ t, exec (.loadDataReturn b) s = .next t ∧
      t.bank b = { ((s.bank b).setReg (BitVec.ofNat 5 (p.d + p.i)) (extend p.signed p.width
        (lineVal (LineOf s b (p.pa + p.width * p.i)) ((p.pa + p.width * p.i) % 64) p.width))).advance 4 with pend := none } ∧
      (∀ c, c ≠ b → t.bank c = s.bank c) ∧ t.mem = s.mem ∧ t.sram = s.sram))

/-- R206, R220, R221, R222: `ST`, `STL` and `STM` complete when the store queue has room: one entry (one word each of the
same entry for `STM`) with the address, width and value is posted, `STL`'s as a release; registers, memory and every other
part of the state stay. With the queue full they wait. -/
def Obligations.StoresArePosted : Prop :=
  ∀ (s : State) (a : BitVec 5) (h t : BitVec 4) (n : BitVec 3) (off : BitVec 12) (x : Acc),
    (accessType t = true → s.access s.cur h.toNat (off.toNat * typeBytes t) (typeBytes t) (typeBytes t) 2 = .ok x →
      ∀ i rel, i = Instr.st a h t off ∧ rel = false ∨ i = Instr.stl a h t off ∧ rel = true →
        (s.me.postsFull = true → Waits i s) ∧
        (s.me.postsFull = false → ∃ u e, exec i s = .next u ∧ u.me.posts = s.me.posts ++ [e] ∧ e.pa = x.pa ∧
          e.n = typeBytes t ∧ e.data = s.reg a ∧ e.release = rel ∧ e.ev = bit x.leaf 9 ∧ e.sent = false ∧ e.done = false ∧
          GoesOn 4 s u ∧ { u.me with posts := s.me.posts, pc := s.me.pc, slot := s.me.slot } = s.me ∧
          OnlyMeOwing s u ∧ SameMemory s u)) ∧
    (a.toNat + n.toNat ≤ 31 → s.access s.cur h.toNat (off.toNat * 8) (8 * (n.toNat + 1)) 8 2 = .ok x →
      (s.me.postsFull = true → Waits (.stm a h n off) s) ∧
      (s.me.postsFull = false → ∃ u es, exec (.stm a h n off) s = .next u ∧ u.me.posts = s.me.posts ++ es ∧
        es.length = n.toNat + 1 ∧
        (∀ j e, es[j]? = some e → e.pa = x.pa + 8 * j ∧ e.n = 8 ∧ e.data = s.reg (BitVec.ofNat 5 (a.toNat + j)) ∧
          e.release = false ∧ ∀ (k : Nat) f, es[k]? = some f → e.grp = f.grp) ∧
        GoesOn 4 s u ∧ { u.me with posts := s.me.posts, pc := s.me.pc, slot := s.me.slot } = s.me ∧
        OnlyMeOwing s u ∧ SameMemory s u))

/-- R203, R221, R268: a posted store whose line its core owns (M or E), on a page that is not engine-visible and behind no
access that it must wait for, is performed: the line holds its bytes in state M and its entry is free; an entry whose
acknowledgement has come is freed. Nothing else in the caches changes and no byte of memory. R207, R226: `FENCE` completes once
every earlier store and `LDQ` row of the bank is performed. Before that it waits, whatever the scope of its page (R207 waits
within that scope; the model's choice, log entry 16), or, where that scope is a core, a cluster or a die and a free value says
so, it goes on for the agents outside the scope alone, and is kept as an open fence (the model's choice, log entry 71).
`FENCE.ifetch` completes and leaves no instruction-cache line of the handle's page; neither changes a register or
memory. -/
def Obligations.PostedStoresPerformAndFencesComplete : Prop :=
  (∀ (s : State) (b i : Nat) (p : Post), validBank b = true → (s.bank b).posts[i]? = some p →
     (p.done = true → (p.early = true → (s.bank b).undone i p = false) → ∃ t, exec (.storeAck b i) s = .next t ∧ (t.bank b).posts = (s.bank b).posts.eraseIdx i ∧
       (∀ c, c ≠ b → t.bank c = s.bank c) ∧ { t with banks := s.banks, pending := s.pending } = s) ∧
     (p.done = false → p.sent = false → s.postBlocked b i p = false → p.early = false → p.kind = .line → p.ev = false →
       1 ≤ p.n → p.n ≤ 8 → p.pa % 64 + p.n ≤ 64 →
       ((s.core (b / 2)).line (p.pa / 64)).st = .m ∨ ((s.core (b / 2)).line (p.pa / 64)).st = .e →
       ∃ t, exec (.storeAck b i) s = .next t ∧ (t.bank b).posts = (s.bank b).posts.eraseIdx i ∧
         ((t.core (b / 2)).line (p.pa / 64)).st = .m ∧
         (∀ j, j < 64 → lineByte ((t.core (b / 2)).line (p.pa / 64)).data j =
           if p.pa % 64 ≤ j ∧ j < p.pa % 64 + p.n then (p.data >>> (8 * (j - p.pa % 64))).setWidth 8
           else lineByte ((s.core (b / 2)).line (p.pa / 64)).data j) ∧
         (∀ c l, c ≠ b / 2 ∨ l ≠ p.pa / 64 → (t.core c).line l = (s.core c).line l) ∧ t.mem = s.mem ∧ t.sram = s.sram ∧
         t.dirs = s.dirs ∧ t.net = s.net ∧ t.hostMem = s.hostMem)) ∧
  (∀ (s : State) (h : BitVec 4),
     let x := s.me.handle h.toNat
     x.st = .valid →
       (s.me.posts = [] → s.me.ldqs = [] → ∃ t, exec (.fence h) s = .next t ∧ GoesOn 4 s t ∧ (∀ r, t.reg r = s.reg r) ∧
         OnlyRegs s t ∧ OnlyMe s t ∧ SameMemory s t) ∧
       (s.me.posts ≠ [] ∨ s.me.ldqs ≠ [] →
         let early := decide (leafScope x.leaf ≤ 2) && !s.me.fencing && Config.releaseEarly s.free
         (early = false → exec (.fence h) s = .next s.tickFree) ∧
         (early = true → ∃ t, exec (.fence h) s = .next t ∧ GoesOn 4 s t ∧ t.me.fences = [(leafScope x.leaf, s.me.newGrp)] ∧
           { t.me with pc := s.me.pc, slot := s.me.slot, fences := s.me.fences } = s.me ∧
           (∀ b, b ≠ s.cur → t.bank b = s.bank b) ∧ { t with banks := s.banks, free := s.free } = s)) ∧
       (∃ t, exec (.fenceIfetch h) s = .next t ∧ GoesOn 4 s t ∧ (∀ r, t.reg r = s.reg r) ∧ OnlyRegs s t ∧
         (∀ b, b ≠ s.cur → t.bank b = s.bank b) ∧ { t with banks := s.banks, cores := s.cores } = s ∧
         (∀ l line, (l, line) ∈ (t.core (s.cur / 2)).icache ↔ (l, line) ∈ (s.core (s.cur / 2)).icache ∧
           ¬ (leafFrame x.leaf * 1024 ≤ l ∧ l < leafFrame x.leaf * 1024 + 2 ^ (16 + 10 * x.size) / 64))))

/-- R223, R224: `ATOM` and `CAS` complete their issue when the store queue has room and no earlier store of the bank covers
their bytes: one posted entry, and one request of the bank waits at the home of its address with the operation, the new
value and, for `CAS`, the expected value; the bank holds at the word with its outstanding load, of the access's address and
width, whose result is sign-extended for ADD, MIN and MAX alone. Registers and memory stay until the home performs it. With the
store queue full, or behind a store to its bytes, it waits (R221, R203). -/
def Obligations.AtomicsGoToTheirHome : Prop :=
  ∀ (s : State) (d b : BitVec 5) (h : BitVec 4) (op : BitVec 4) (sz : Bool) (off : BitVec 7) (x : Acc),
    let w := if sz then 8 else 4
    s.access s.cur h.toNat (off.toNat * w) w w 3 = .ok x → isWindow x.pa = false → ∀ i opn (exp : Word) (sg : Bool),
      i = Instr.atom d h b op sz off ∧ opn = op.toNat ∧ exp = 0 ∧ sg = decide (op = 0 ∨ op = 4 ∨ op = 5) ∨
        i = Instr.cas d h b sz off ∧ opn = 16 ∧ exp = s.reg d ∧ sg = false →
      (s.me.fencing = true ∨ s.me.postsFull = true ∨ s.loadBehind s.cur x.pa w = true → Waits i s) ∧
      (s.me.fencing = false → s.me.postsFull = false → s.loadBehind s.cur x.pa w = false → Visible s s.cur x.pa w →
      ∃ t r p e, exec i s = .next t ∧ t.atomics = s.atomics ++ [r] ∧ r.b = s.cur ∧ r.pa = x.pa ∧ r.w64 = sz ∧ r.op = opn ∧
        r.v = s.reg b ∧ r.expect = exp ∧ r.key = leafKey x.leaf ∧ t.me.pend = some p ∧ p.d = d.toNat ∧ p.n = 1 ∧ p.i = 0 ∧
        p.pa = x.pa ∧ p.width = w ∧ p.signed = sg ∧ p.atomic = true ∧ p.ret = none ∧
        t.me.posts = s.me.posts ++ [e] ∧ t.me.pc = s.me.pc ∧ (∀ q, t.reg q = s.reg q) ∧
        { t.me with posts := s.me.posts, pend := s.me.pend } = s.me ∧ (∀ c, c ≠ s.cur → t.bank c = s.bank c) ∧
        { t with banks := s.banks, atomics := s.atomics, pending := s.pending, sends := s.sends } = s)

/-- R229, R230: `LDQ` completes when its queue has room: it reserves its slots and asks for one row each; an arriving row
fills its slot, poisoned if it arrives so, and is published when nothing earlier is unpublished. A row arrives once it has had
its units of service (R476; log entry 66) and, at its home, after the messages for its lines that arrived before (R272). -/
def Obligations.QueueLoadsReserveAndFill : Prop :=
  (∀ (s : State) (q : BitVec 5) (h n : BitVec 4) (off : BitVec 12) (x : Acc), q.toNat ≤ 3 →
    s.access s.cur h.toNat (off.toNat * 256) (256 * (n.toNat + 1)) 256 1 = .ok x → isWindow x.pa = false →
    s.storeAhead s.cur x.pa (256 * (n.toNat + 1)) = false → s.me.fencing = false →
    (s.me.canReserve q.toNat (n.toNat + 1) = false → Waits (.ldq q h n off) s) ∧
    (s.me.canReserve q.toNat (n.toNat + 1) = true → ∃ t rows, exec (.ldq q h n off) s = .next t ∧ GoesOn 4 s t ∧
      (t.me.queue q.toNat).rsv = (s.me.queue q.toNat).rsv + n.toNat + 1 ∧
      (t.me.queue q.toNat).head = (s.me.queue q.toNat).head ∧ (t.me.queue q.toNat).tail = (s.me.queue q.toNat).tail ∧
      t.me.ldqs = s.me.ldqs ++ rows ∧ rows.length = n.toNat + 1 ∧
      (∀ (j : Nat) r, rows[j]? = some r → r.q = q.toNat ∧ r.slot = (s.me.queue q.toNat).rsv + j ∧ r.pa = x.pa + 256 * j) ∧
      (∀ j, j ≠ q.toNat → t.me.queue j = s.me.queue j) ∧
      { t.me with queues := s.me.queues, ldqs := s.me.ldqs, pc := s.me.pc, slot := s.me.slot } = s.me ∧
      OnlyMeOwing s t ∧ SameMemory s t)) ∧
  (∀ (s : State) (b i : Nat) (r : LdqRow), validBank b = true → (s.bank b).ldqs[i]? = some r → r.q ≤ 3 →
    s.rowWaits b i r = false →
    (r.arr = 0 → s.isRefused (b / 2) (homeOf r.pa) .request = false ∧
      s.arrives (s.ldqFoot b (if r.no = 0 then { r with no := s.sends + 1 } else r)) = true) →
    s.ahead (s.arrNum r.arr) (if isCached r.pa then linesOf (s.frameOf r.pa) 256 else []) = false → ∀ x : Row × Bool,
    (s.pullPort (memDie r.pa) (b / 256) = none ∧ x = s.coherentRow b r.key r.pa) ∨
      ((match s.pullEgress (b / 2) r.pa with | .capped => True | _ => False) ∧ x = (0, true)) →
    ∃ t, exec (.ldqRowArrival b i) s = .next t ∧ (t.bank b).ldqs = (s.bank b).ldqs.eraseIdx i ∧
      (((t.bank b).queue r.q).slot r.q r.slot).row = x.1 ∧ (((t.bank b).queue r.q).slot r.q r.slot).poison = x.2 ∧
      (((t.bank b).queue r.q).slot r.q r.slot).filled = true ∧
      ((t.bank b).queue r.q).rsv = ((s.bank b).queue r.q).rsv ∧ ((t.bank b).queue r.q).head = ((s.bank b).queue r.q).head ∧
      (((s.bank b).queue r.q).tail = r.slot → r.slot + 1 = ((s.bank b).queue r.q).rsv →
        ((t.bank b).queue r.q).tail = r.slot + 1) ∧
      (∀ j, j ≠ r.q → (t.bank b).queue j = (s.bank b).queue j) ∧ (∀ c, c ≠ b → t.bank c = s.bank c) ∧
      (∀ c l, (t.core c).line l = { (s.core c).line l with used := ((t.core c).line l).used }) ∧
      (∀ c, t.core c = { s.core c with lines := (t.core c).lines }) ∧ (s.misfits r.pa r.key = false → t.memMeta = s.memMeta) ∧
      { t with banks := s.banks, cores := s.cores, memMeta := s.memMeta, pending := s.pending, sends := s.sends,
               arrivals := s.arrivals } = s)

/-! ### Words that set or command an engine (spec/02, spec/04, spec/11, spec/12) -/

/-- R39, R48, R88, R93, R246, R434: `LNSET`, `ADSET`, `MBLK` and `LAYOUT` with legal operands complete by joining their
engine's queue, and wait while it is full or a fence that the bank has passed early stands open; a record whose line the cache
does not hold is asked for first, and a poisoned one takes the poison trap (R93, R447); a bound source that is no register below 2^24, no mailbox word 0 to 7 below
2^24 and no queue 0 to 3, and a register number past the last, are illegal operands. -/
def Obligations.SettingWordsJoinTheirQueue : Prop :=
  (∀ (s u : State) (i : Instr) (e : Nat) (op : CmdOp), Setting s i e op u → s.me.fencing = false →
    ((s.me.cmdq e).length < 32 → Queues i s u e 4 op Ext.none) ∧ (32 ≤ (s.me.cmdq e).length → exec i s = .next u)) ∧
  (∀ (s : State) (i : Instr) (h off n w : Nat) (x : Acc), Access i h off n w 1 →
    (∃ a g o, a.toNat ≤ 15 ∧ i = .adset a g o) ∨ (∃ g o, i = .mblk g o) ∨ (∃ a g o, a.toNat ≤ 7 ∧ i = .layout a g o) →
    s.access s.cur h off n w 1 = .ok x →
    (s.me.fencing = true ∨ s.readWaits s.cur x.pa n = true → Waits i s) ∧
    (s.me.fencing = false → s.readWaits s.cur x.pa n = false →
      (∀ u, s.readThrough s.cur x n = .notYet u → exec i s = .next u ∧ u.banks = s.banks ∧ u.sram = s.sram ∧ SameMemory s u) ∧
      (∀ xs j u, s.readThrough s.cur x n = .got xs (some j) u → s.me.run = .live →
        ∃ t, exec i s = .next t ∧ Trapped 8 0 true u t ∧ u.banks = s.banks))) ∧
  (∀ (s : State) (lv : BitVec 3) (r : BitVec 5) (h : BitVec 4) (off : BitVec 12), s.me.run = .live →
    (2 ^ 24 ≤ (s.reg r).toNat → Traps (.lnset lv 0 r) s 3 0) ∧
    (8 ≤ r.toNat ∨ 2 ^ 24 ≤ (Assoc.get 0 s.me.mbox r.toNat).toNat → Traps (.lnset lv 1 r) s 3 0) ∧
    (4 ≤ r.toNat → Traps (.lnset lv 2 r) s 3 0) ∧ (16 ≤ r.toNat → Traps (.adset r h off) s 3 0) ∧
    (8 ≤ r.toNat → Traps (.layout r h off) s 3 0))

/-- R43 to R48, R84, R388: outside a slot an engine command with legal tokens and operands and valid handles completes by
joining its engine's queue, with its operand registers and the BASE and INTENT of its handles as they stand; `RUN` with
its register, `s1` to `s31`, FRM and HKEY. It waits while the queue is full; tokens that its engine may not carry are an
illegal operand. Behind a fence that the bank has passed early it waits (R207; log entry 71). -/
def Obligations.EngineCommandsJoinTheirQueue : Prop :=
  (∀ (s : State) (i : Instr) (e : Nat) (x : SXWord) (op : EngOp) (hs : List Nat), Command s i e x op hs →
    s.me.slot = none →
    (pushOk e x.ext = true → popsOk e x.ext = true → (∀ h ∈ hs, (s.me.handle h).st = .valid) →
      ((s.me.cmdq e).length < 32 → s.me.fencing = false → Queues i s s e 8 (.engine op (s.reg x.d) (s.reg x.a) (s.reg x.b) (s.reg x.c)
        (hs.map fun h => { h := h, base := (s.me.handle h).base, intent := (s.me.handle h).intent })) x.ext) ∧
      (32 ≤ (s.me.cmdq e).length ∨ s.me.fencing = true → Waits i s)) ∧
    (s.me.run = .live → pushOk e x.ext = false ∨ popsOk e x.ext = false → Traps i s 3 0)) ∧
  (∀ (s : State) (x : SXWord), s.me.slot = none →
    (pushOk 1 x.ext = true → popsOk 1 x.ext = true → bits (s.reg x.d) 63 19 = 0 → bits (s.reg x.d) 15 10 = 0 →
      bits (s.reg x.d) 18 16 ≤ 6 →
      ((s.me.cmdq 1).length < 32 → s.me.fencing = false → Queues (.run x) s s 1 8
        (.run (s.reg x.d) s.me.regs (s.me.sys.fpc.setWidth 2) s.me.sys.hkey) x.ext) ∧
      (32 ≤ (s.me.cmdq 1).length ∨ s.me.fencing = true → Waits (.run x) s)) ∧
    (s.me.run = .live →
      pushOk 1 x.ext = false ∨ popsOk 1 x.ext = false ∨ bits (s.reg x.d) 63 19 ≠ 0 ∨ bits (s.reg x.d) 15 10 ≠ 0 ∨
        6 < bits (s.reg x.d) 18 16 → Traps (.run x) s 3 0))

/-- R46, R47, R236, R237: `TOKP` outside a slot completes once its pops are available and, when it pushes or signals, every
earlier access is performed and the FIFO has room: the popped channels lose their tokens, the pushed one gains one and the
signalled barrier counts one. It waits while a pop or its barrier condition is not met. -/
def Obligations.TokenWordPopsThenPushes : Prop :=
  ∀ (s : State) (x : SXWord), s.me.slot = none →
    (x.ext.push ≠ 0 → popsOk 0 x.ext = true → s.me.pc ∉ s.me.tokp → s.me.canIssue 0 x.ext = true →
      (x.ext.push = 7 ∧ x.ext.sig = false) ∨ (s.me.posts = [] ∧ s.me.ldqs = [] ∧
        (x.ext.push = 7 ∨ s.me.tokens? 0 x.ext.push.toNat < 15)) →
      ∃ t, exec (.tokp x) s = .next t ∧ GoesOn 8 s t ∧
        (∀ e, e ≤ 5 → t.me.tokens? e 0 = s.me.tokens? e 0 - popsOf x.ext e) ∧
        (∀ e, 1 ≤ e → e ≤ 5 → t.me.tokens? 0 e = s.me.tokens? 0 e + if x.ext.push.toNat = e then 1 else 0) ∧
        (∀ n, t.me.cbar n = if x.ext.sig = true ∧ n = x.ext.scb.toNat then
            cbWord (cbTarget (s.me.cbar n)) (cbCount (s.me.cbar n) + 1) else s.me.cbar n) ∧
        { t.me with tokens := s.me.tokens, cb := s.me.cb, pc := s.me.pc, slot := s.me.slot } = s.me ∧
        OnlyMe s t ∧ SameMemory s t) ∧
    (x.ext.push ≠ 0 → popsOk 0 x.ext = true → s.me.pc ∉ s.me.tokp → s.me.canIssue 0 x.ext = false → Waits (.tokp x) s) ∧
    (s.me.run = .live → x.ext.push = 0 ∨ popsOk 0 x.ext = false → Traps (.tokp x) s 3 0)

/-! ### Progress, barriers and the life of a task at its sequencer (spec/16, spec/17) -/

/-- R374, R377, R378: `TIME`, `YIELD`, `CBARR`, `CBSET` and `CBADD`. `TIME` writes its die's copy of the cycle
counter, at most 2 cycles from the common one (R17), or the reference time.
`YIELD` only lets the other bank go first. `CBARR` waits until the bank's stores and `LDQ` rows are performed, whatever their
pages' scopes (the model's choice, log entry 16), and then counts one, saturating; `CBSET` sets COUNT and TARGET; `CBADD` moves TARGET, clamped. A nonzero sa[63:32] is an illegal
operand. R371: `SEV` to a core of a valid die posts one store-queue entry with its target; the event that arrives at a bank of a
valid record of the sender's partition, over its links (R476; log entry 66), sets its latch, in a saved context too, and acknowledges the entry, and is dropped
otherwise. A reserved bit
or a core above 103 is an illegal operand, an invalid die a page fault. -/
def Obligations.BarriersTimeAndEventsComplete : Prop :=
  (∀ (s : State) (d a b : BitVec 5) (n : BitVec 6),
     let w := s.me.cbar n.toNat
     let sets (t : State) (v : Word) : Prop := t.me.cbar n.toNat = v ∧ (∀ j, j ≠ n.toNat → t.me.cbar j = s.me.cbar j) ∧
       GoesOn 4 s t ∧ { t.me with cb := s.me.cb, pc := s.me.pc, slot := s.me.slot } = s.me ∧ OnlyMe s t ∧ SameMemory s t
     Writes (.time d 0) s d (BitVec.ofNat 64 (s.counter + min 2 (s.die (s.cur / 256)).skew)) ∧ Writes (.time d 1) s d (BitVec.ofNat 64 s.reftime) ∧
     (s.me.slot = none → ∃ t, exec .yield s = .next t ∧ GoesOn 4 s t ∧
       { t.me with yielded := s.me.yielded, pc := s.me.pc, slot := s.me.slot } = s.me ∧ t.me.yielded = true ∧
       OnlyMe s t ∧ SameMemory s t) ∧
     (s.me.posts = [] → s.me.ldqs = [] → ∃ t, exec (.cbarr n) s = .next t ∧
       sets t (BitVec.ofNat 64 (bits w 63 32 * 2 ^ 32 + min (bits w 31 0 + 1) (2 ^ 32 - 1)))) ∧
     (s.me.posts ≠ [] ∨ s.me.ldqs ≠ [] → Waits (.cbarr n) s) ∧
     (bits (s.reg a) 63 32 = 0 → ∃ t, exec (.cbset a b n) s = .next t ∧
       sets t (BitVec.ofNat 64 (bits (s.reg b) 31 0 * 2 ^ 32 + bits (s.reg a) 31 0))) ∧
     (bits (s.reg a) 63 32 = 0 → ∃ t, exec (.cbadd a n) s = .next t ∧
       sets t (BitVec.ofNat 64 ((min (max ((bits w 63 32 : Int) + ((s.reg a).setWidth 32).toInt) 0) (2 ^ 32 - 1)).toNat * 2 ^ 32
         + bits w 31 0))) ∧
     (bits (s.reg a) 63 32 ≠ 0 → s.me.run = .live → Traps (.cbset a b n) s 3 0 ∧ Traps (.cbadd a n) s 3 0)) ∧
  (∀ (s : State) (a : BitVec 5),
    let v := s.reg a
    (bits v 63 23 = 0 → bits v 6 0 ≤ 103 → s.dieExists (s.cur / 256) (bits v 22 13) = true → s.me.postsFull = false →
      ∃ t e, exec (.sev a) s = .next t ∧ t.me.posts = s.me.posts ++ [e] ∧ e.kind = .event ∧ e.data = v ∧ e.release = true ∧
        e.sent = false ∧ e.done = false ∧ GoesOn 4 s t ∧
        { t.me with posts := s.me.posts, pc := s.me.pc, slot := s.me.slot } = s.me ∧ OnlyMeOwing s t ∧ SameMemory s t) ∧
    (s.me.run = .live → (bits v 63 23 ≠ 0 ∨ 103 < bits v 6 0 → Traps (.sev a) s 3 0) ∧
      (bits v 63 23 = 0 → bits v 6 0 ≤ 103 → s.dieExists (s.cur / 256) (bits v 22 13) = false → Traps (.sev a) s 4 0))) ∧
  (∀ (s : State) (i : Nat) (e : Event), s.events[i]? = some e →
    s.arrives (s.eventFoot e) = true →
    let target := s.taskBank (bits e.target 22 13) (bits e.target 12 7) (bits e.target 6 0) e.part
    (∀ b, target = some b → ∃ t, exec (.eventArrival i) s = .next t ∧
      t.events = s.events.eraseIdx i ∧ (t.bank b).event = true ∧ (∀ c, c ≠ b → (t.bank c).event = (s.bank c).event) ∧
      ((s.bank b).inArea = false → (∀ c, (t.bank c).regs = (s.bank c).regs) ∧ t.mem = s.mem ∧ t.sram = s.sram)) ∧
    (target = none → ∃ t, exec (.eventArrival i) s = .next t ∧ t.events = s.events.eraseIdx i ∧
      (∀ c, (t.bank c).event = (s.bank c).event) ∧ (∀ c, (t.bank c).regs = (s.bank c).regs) ∧ t.mem = s.mem ∧
      t.sram = s.sram))

/-- R363 to R367: a `WAIT` outside a slot with legal conditions on barriers, tokens, queues and the event latch. Where
enough of them hold in its issue cycle it returns HELD and clears a held event latch; otherwise, with a time-out of 0, it
returns HELD with bit 8 set; otherwise the bank waits at the word with its deadline. A waiting bank returns by the same
rule at each later sample. -/
def Obligations.WaitsReturnWhatTheySample : Prop :=
  (∀ (s : State) (d a b : BitVec 5) (n : BitVec 2) (all : Bool) (i : Instr) (h : Nat),
    let cs := conditions (s.reg a) (n.toNat + 1)
    let sb := s.reg b
    i = (if all then Instr.waitAll d a b n else Instr.waitAny d a b n) → s.me.slot = none →
    (s.reg a).toNat / 2 ^ (16 * (n.toNat + 1)) = 0 → bits sb 63 32 = 0 → cs.all condOk = true →
    (cs.all fun c => condKind c != 5 && condKind c != 7) = true → s.me.fencing = false → HeldMask s s.cur cs h →
    (Enough all cs h → ∃ t, exec i s = .next t ∧ t.me = Returned s.me d.toNat h (namesEvent cs && s.me.event) ∧
      Sets d (BitVec.ofNat 64 h) s t ∧ OnlyMe s t ∧ SameMemory s t) ∧
    (¬ Enough all cs h → sb = 0 → ∃ t, exec i s = .next t ∧ t.me = Returned s.me d.toNat (h + 256) false ∧
      Sets d (BitVec.ofNat 64 (h + 256)) s t ∧ OnlyMe s t ∧ SameMemory s t) ∧
    (¬ Enough all cs h → sb ≠ 0 → ∃ t w, exec i s = .next t ∧ t.me.wait = .wait w ∧ w.conds = cs ∧ w.all = all ∧
      w.d = d.toNat ∧ w.lines = [] ∧
      w.deadline = (if sb.toNat = 0xFFFFFFFF then none else some (s.reftime + sb.toNat)) ∧
      { t.me with wait := s.me.wait } = s.me ∧ OnlyMeOwing s t ∧ SameMemory s t)) ∧
  (∀ (s : State) (b h : Nat) (w : Waiting), validBank b = true → (s.bank b).wait = .wait w → w.lines = [] →
    HeldMask s b w.conds h →
    ∀ i, i = Instr.waitConditionMet b ∨ i = Instr.waitTimeout b →
      (Enough w.all w.conds h → ∃ t, exec i s = .next t ∧
        t.bank b = Returned (s.bank b) w.d h (namesEvent w.conds && (s.bank b).event) ∧
        (∀ c, c ≠ b → t.bank c = s.bank c) ∧ { t with banks := s.banks } = s) ∧
      (¬ Enough w.all w.conds h → ∀ x, w.deadline = some x → x ≤ s.reftime → ∃ t, exec i s = .next t ∧
        t.bank b = Returned (s.bank b) w.d (h + 256) false ∧ (∀ c, c ≠ b → t.bank c = s.bank c) ∧
        { t with banks := s.banks } = s))

/-- R209, R372, R373, R396: the home of a barrier word answers a load with the word and counts an `ATOM.add.w32`, saturating;
the home cluster of a global-SRAM row answers a load with its bytes and the row's poison and performs a store by its bytes
alone, a row of another partition reading zero elsewhere. -/
def Obligations.BarrierAndSramHomesServe : Prop :=
  ∀ (s : State) (i : Nat) (g : GReq), s.gsram[i]? = some g →
    let owner := s.bank g.b
    (isGsram g.pa = false → (g.arr = 0 → s.arrives (s.gFoot g) = true) →
      g.atomic = false ∨ g.arr ≠ 0 ∧ s.placeAhead g.home g.arr = false ∨
        g.arr = 0 ∧ (match s.seatAtomic g.b g.pa g.refused with
          | .accepted s1 n => s1.placeAhead g.home n = false
          | _ => False) →
      (∀ b, s.barrierBank g.b g.pa = some b → (s.bank b).inArea = false) →
      ∃ t, exec (.barrierWindowAccess i) s = .next t ∧ t.gsram = s.gsram.eraseIdx i ∧
      (∀ p, owner.pend = some p → p.pa + p.width * p.i = g.pa → ∃ v, (t.bank g.b).pend = some { p with ret := some (v, false) } ∧
          v = BitVec.ofNat 64 ((s.barrierWord g.b g.pa).toNat / 2 ^ (8 * (g.pa % 8)) % 2 ^ (8 * g.n))) ∧
      (∀ b, s.barrierBank g.b g.pa = some b → ∀ n, (t.bank b).cbar n =
        if g.write = true ∧ n = (g.pa / 8) % 64 then
          BitVec.ofNat 64 (bits ((s.bank b).cbar n) 63 32 * 2 ^ 32 +
            min (bits ((s.bank b).cbar n) 31 0 + g.v.toNat % 2 ^ 32) (2 ^ 32 - 1))
        else (s.bank b).cbar n) ∧ t.mem = s.mem ∧ t.sram = s.sram) ∧
    (isBarrierWin g.pa = true → g.atomic = true → g.arr = 0 → s.arrives (s.gFoot g) = true →
      s.isRefused (srcCore (g.b / 2)) g.home .atomic = false →
      64 ≤ ((s.places g.home).filter fun p => p.arr != 0).length → ∃ t h, exec (.barrierWindowAccess i) s = .next t ∧
        t.gsram = s.gsram.set i h ∧ h = { g with refused := h.refused } ∧ h.refused ≠ 0 ∧ t.banks = s.banks ∧
        t.isRefused (srcCore (g.b / 2)) g.home .atomic = true ∧ t.mem = s.mem ∧ t.sram = s.sram) ∧
    (isGsram g.pa = true → s.tentCell (gsramKey g.pa) = false → s.arrives (s.gFoot g) = true →
      g.write = true ∨ s.pullPort (memDie g.pa) (g.b / 256) = none →
      let c := s.cell (gsramKey g.pa)
      let off := g.pa % 256
      ∃ t, exec (.globalSramHomeAccess i) s = .next t ∧ t.gsram = s.gsram.eraseIdx i ∧ t.mem = s.mem ∧
        (g.write = false → t.sram = s.sram ∧ ∀ p, owner.pend = some p → p.pa + p.width * p.i = g.pa →
          ∃ v, (t.bank g.b).pend = some { p with ret := some (v, c.poison) } ∧
            v = BitVec.ofNat 64 (c.data.toNat / 2 ^ (8 * off) % 2 ^ (8 * g.n))) ∧
        (g.write = true → owner.part < 16 → off + g.n ≤ 256 → g.n ≤ 8 →
          (∀ k, k ≠ gsramKey g.pa → t.cell k = s.cell k) ∧ (t.cell (gsramKey g.pa)).ptag = ptagOf owner.part ∧
          ∀ j, j < 256 → (t.cell (gsramKey g.pa)).data.toNat / 2 ^ (8 * j) % 256 =
            if off ≤ j ∧ j < off + g.n then g.v.toNat / 2 ^ (8 * (j - off)) % 256
            else if c.ptag = ptagOf owner.part then c.data.toNat / 2 ^ (8 * j) % 256 else 0))

/-- R351, R359, R361: `LAUNCH` of a clean record with room in its die's device-launch queue, every earlier store and `LDQ`
row performed, completes by joining that queue with its record, and waits while the queue, its reserved entries counted, is
full; in a slot it acts on what its branch prepared, the record with its reserved entry or the read's fault (R82); `PHASE` makes its core arrive and hold at the word; `RETIRE`
outside a slot makes it stop fetching. No register and no memory changes. -/
def Obligations.LaunchPhaseAndRetireAtTheSequencer : Prop :=
  ∀ (s : State),
    let die := s.cur / 256
    let Enqueues (u : State) (r : BitVec 512) (i : Instr) : Prop := ∃ t, exec i s = .next t ∧ GoesOn 4 s t ∧
      (t.die die).launchq = (u.die die).launchq ++ [(s.cur, s.me.part, r)] ∧
      t.die die = { u.die die with launchq := (t.die die).launchq } ∧ (∀ d, d ≠ die → t.die d = u.die d) ∧
      OnlyRegs s t ∧ (∀ q, t.reg q = s.reg q) ∧ (∀ b, b ≠ s.cur → t.bank b = s.bank b) ∧ t.mem = s.mem ∧ t.sram = s.sram
    (∀ (h : BitVec 4) (off : BitVec 12) (x : Acc) (xs : List Byte) (u : State), s.me.fencing = false →
      (∀ sl, s.me.slot = some sl → sl.prep = .none) →
      s.access s.cur h.toNat (off.toNat * 64) 64 64 1 = .ok x → s.readWaits s.cur x.pa 64 = false →
      s.readThrough s.cur x 64 = .got xs none u →
      (u.launchFull = false → s.me.posts = [] → s.me.ldqs = [] → Enqueues u (BitVec.ofNat 512 (leNat xs)) (.launch h off)) ∧
      (u.launchFull = true ∨ s.me.posts ≠ [] ∨ s.me.ldqs ≠ [] → exec (.launch h off) s = .next u ∧ u.banks = s.banks ∧
        (∀ d, (u.die d).launchq = (s.die d).launchq))) ∧
    (∀ (h : BitVec 4) (off : BitVec 12) (sl : Slot), s.me.slot = some sl →
      (∀ r l, sl.prep = .got r l → Enqueues s r (.launch h off)) ∧
      (∀ p, sl.prep = .bad p → p.cls < 256 → p.sub < 256 → p.eng = 0 → p.asyn = false → p.defer = false → p.edge = false →
        s.me.run = .live → ∃ t, exec (.launch h off) s = .next t ∧ Trapped p.cls p.sub p.restart s t)) ∧
    (∀ k : BitVec 12, ∃ t, exec (.phase k) s = .next t ∧ t.me = { s.me with wait := .phase k.toNat } ∧
      (.phaseRendezvous die s.me.bindRec) ∈ t.pending ∧ OnlyMeOwing s t ∧ SameMemory s t) ∧
    (s.me.slot = none → ∃ t, exec .retire s = .next t ∧ t.me = { s.me with wait := .retire } ∧
      (.retireComplete s.cur) ∈ t.pending ∧ OnlyMeOwing s t ∧ SameMemory s t)

/-! ### The vector unit (spec/04, spec/06, spec/07, spec/11) -/

/-- R49, R51, R54, R59, R97, R129, R138, R228: every V-word that computes one row, its operands read and its D taking the
result, issues: D holds the result in the lanes written, its unit's latch holds it too, the rows of queue sources with ADV
leave, and the block goes on to its next bundle. No other register, latch, mask, queue entry, row, bank or memory byte
changes. -/
def Obligations.VectorWordsWriteTheirResult : Prop :=
  ∀ (s : State) (x : Block) (i : Instr) (opc : Nat) (w : VWord) (f : VIn → VRes) (tab : VTable) (bad : Bool) (e : Int)
    (o : Ops3), Plain s x i opc w f tab bad e → Issues s x opc w → vFieldsOk opc w = true →
    readOps s s.cur x opc w (if opc = 0x60 then e else 0) = .ok o →
    let z := makes x opc w f tab bad o (s.me.mskOf w.msk)
    let e' := if opc = 0x61 then e else 0
    Takes s x w e' z → ∃ t, exec i s = .next t ∧ Given s t x w e' z ∧
      (∀ l, t.me.latch l = if latchOf opc = some l then written (s.me.latch l) z else s.me.latch l) ∧
      (∀ q, (t.me.queue q).head = (s.me.queue q).head + leaves opc w q) ∧
      t.me.block = some { x with idx := x.idx + 1 } ∧ t.me.masks = s.me.masks ∧ t.me.tabs = s.me.tabs ∧
      t.me.arr = s.me.arr ∧ OnlyLoopEngine s t ∧ SameMemory s t

/-- R130 to R136, R153: what the integer and bit words compute, element by element, for every width: the bitwise words,
shifts by a count modulo the width, counts, the three packs and the three unpacks, the bit forms with their run-time width. -/
def Obligations.IntegerLanesCompute : Prop :=
  ∀ (i : VIn) (k : Nat), i.ty ∈ [7, 8, 9, 10, 11, 12, 13, 14] →
    let w := i.w
    let n := 2048 / w
    let a := Sys2Proof.Num.elem w i.a.row k
    let b := Sys2Proof.Num.elem w i.b.row k
    let d := Sys2Proof.Num.elem w i.d.row k
    (k < n →
      Sys2Proof.Num.elem w (evalVand i).1 k = a &&& b ∧ Sys2Proof.Num.elem w (evalVor i).1 k = a ||| b ∧
      Sys2Proof.Num.elem w (evalVxor i).1 k = a ^^^ b ∧ Sys2Proof.Num.elem w (evalVnot i).1 k = 2 ^ w - 1 - a ∧
      Sys2Proof.Num.elem w (evalVshl i).1 k = a * 2 ^ (b % w) % 2 ^ w ∧ Sys2Proof.Num.elem w (evalVshr i).1 k = a / 2 ^ (b % w) ∧
      sgn w (Sys2Proof.Num.elem w (evalVsra i).1 k) = sgn w a / 2 ^ (b % w) ∧
      Sys2Proof.Num.elem w (evalVfsh i).1 k = (a * 2 ^ w + b) / 2 ^ (d % w) % 2 ^ w ∧
      (∃ z, Sys2Proof.Num.elem w (evalVclz i).1 k = z ∧ z ≤ w ∧ a < 2 ^ (w - z) ∧ (z < w → 2 ^ (w - 1 - z) ≤ a)) ∧
      Sys2Proof.Num.elem w (evalVpopc i).1 k = (List.range w).countP fun j => Nat.testBit a j) ∧
    (16 ≤ w → k < 2 * n →
      let src := if k < n then Sys2Proof.Num.elem w i.a.row k else Sys2Proof.Num.elem w i.b.row (k - n)
      Sys2Proof.Num.elem (w / 2) (evalVpackWrap i).1 k = src % 2 ^ (w / 2) ∧
      (let v : Int := if i.ty ≤ 10 then sgn w src else src
       let lo : Int := if i.ty ≤ 10 then -(2 ^ (w / 2 - 1) : Nat) else 0
       let hi : Int := if i.ty ≤ 10 then (2 ^ (w / 2 - 1) : Nat) - 1 else (2 ^ (w / 2) : Nat) - 1
       (Sys2Proof.Num.elem (w / 2) (evalVpackClamp i).1 k : Int) = (min (max v lo) hi) % (2 ^ (w / 2) : Nat))) ∧
    (w ≤ 32 → k < n / 2 →
      (let e := Sys2Proof.Num.elem w i.a.row k
       (Sys2Proof.Num.elem (2 * w) (evalVunpackLo i).1 k : Int) = (if i.ty ≤ 10 then sgn w e else (e : Int)) % (2 ^ (2 * w) : Nat)) ∧
      (let e := Sys2Proof.Num.elem w i.a.row (n / 2 + k)
       (Sys2Proof.Num.elem (2 * w) (evalVunpackHi i).1 k : Int) = (if i.ty ≤ 10 then sgn w e else (e : Int)) % (2 ^ (2 * w) : Nat))) ∧
    (i.ty = 9 ∨ i.ty = 13 →
      let m := min (i.b.row.toNat % 64) 32
      let f := i.a.row.toNat / 2 ^ (m * k) % 2 ^ m
      (evalVpackBits i).1.toNat < 2 ^ (64 * m) ∧
      (k < 64 → (evalVpackBits i).1.toNat / 2 ^ (m * k) % 2 ^ m = Sys2Proof.Num.lane i.a.row k % 2 ^ m ∧
        (Sys2Proof.Num.lane (evalVunpackBits i).1 k : Int) =
          if m = 0 then 0 else if i.ty = 9 then sgn m f % (2 ^ 32 : Nat) else (f : Int)))

/-- R97, R129, R132: the tags of the integer and bit words: each lane takes the tags of the same lane of its sources, a
64-bit element those of both its lanes; the packs and unpacks tag every lane when any source lane is tagged, the bit forms when
any lane of A or lane 0 of B is (R136). -/
def Obligations.TagsFollowTheirSources : Prop :=
  ∀ (i : VIn) (l : Nat), l < 64 →
    let src (t : BitVec 64) : Bool :=
      if i.w = 64 then t.getLsbD (l / 2 * 2) || t.getLsbD (l / 2 * 2 + 1) else t.getLsbD l
    (∀ f ∈ [evalVand, evalVor, evalVxor, evalVshl, evalVshr, evalVsra],
      (f i).2.getLsbD l = (src i.a.tags || src i.b.tags)) ∧
    (∀ f ∈ [evalVnot, evalVclz, evalVpopc], (f i).2.getLsbD l = src i.a.tags) ∧
    (evalVfsh i).2.getLsbD l = (src i.a.tags || src i.b.tags || src i.d.tags) ∧
    (∀ f ∈ [evalVpackWrap, evalVpackClamp], (f i).2.getLsbD l = (i.a.tags != 0 || i.b.tags != 0)) ∧
    (∀ f ∈ [evalVunpackLo, evalVunpackHi], (f i).2.getLsbD l = (i.a.tags != 0)) ∧
    (∀ f ∈ [evalVpackBits, evalVunpackBits], (f i).2.getLsbD l = (i.a.tags != 0 || i.b.tags.getLsbD 0))

/-- R137, R141, R142, R144, R117: the floating-point words round the exact value of their operation once, in the word's
mode and type; `VMIN` and `VMAX` prefer a number to a NaN; `VABS` and `VNEG` act on the sign bit alone; `VCVT` rounds the
value of each source element, into FP8 with the word's SAT. R144, R145: `VQNT` rounds or converts each source element times 2^σ,
with zeros past the last, or makes blocks of 32 MXFP4 elements with their scales from byte 128 on; `VDQNT` decodes them. R154,
R155: `VTAB` of a bound table evaluates its segment, and its constants outside the domain; R156: a built-in table gives the values
at its exact points. R183, R184, R188: `VTRIP` gives the header of a merge, rescales accumulators and gives probabilities. -/
def Obligations.FloatLanesRoundOnce : Prop :=
  (∀ (i : VIn) (k : Nat), i.ty ∈ [1, 2, 3] → k < 2048 / i.w →
    let w := i.w
    let a := Sys2Proof.Num.elem w i.a.row k
    let b := Sys2Proof.Num.elem w i.b.row k
    let d := Sys2Proof.Num.elem w i.d.row k
    let v (x : Nat) : Sys2Proof.Num.FV := i.val x
    let r (x : Sys2Proof.Num.FV) : Nat := Sys2Proof.Num.round i.fmt i.mode false x % 2 ^ w
    Sys2Proof.Num.elem w (evalVadd i).1 k = r (Sys2Proof.Num.add i.mode (v a) (v b)) ∧
    Sys2Proof.Num.elem w (evalVsub i).1 k = r (Sys2Proof.Num.sub i.mode (v a) (v b)) ∧
    Sys2Proof.Num.elem w (evalVmul i).1 k = r (Sys2Proof.Num.mul (v a) (v b)) ∧
    Sys2Proof.Num.elem w (evalVfma i).1 k = r (Sys2Proof.Num.add i.mode (Sys2Proof.Num.mul (v a) (v b)) (v d)) ∧
    Sys2Proof.Num.elem w (evalVfms i).1 k = r (Sys2Proof.Num.sub i.mode (Sys2Proof.Num.mul (v a) (v b)) (v d)) ∧
    Sys2Proof.Num.elem w (evalVrcp i).1 k = Sys2Proof.Num.rcp i.fmt i.mode (v a) % 2 ^ w ∧
    Sys2Proof.Num.elem w (evalVrsq i).1 k = Sys2Proof.Num.rsq i.fmt i.mode (v a) % 2 ^ w ∧
    Sys2Proof.Num.elem w (evalVexp i).1 k = Sys2Proof.Num.exp2 i.fmt i.mode (v a) % 2 ^ w ∧
    Sys2Proof.Num.elem w (evalVexpSub i).1 k = Sys2Proof.Num.exp2 i.fmt i.mode (Sys2Proof.Num.sub i.mode (v a) (v b)) % 2 ^ w ∧
    Sys2Proof.Num.elem w (evalVabs i).1 k = a % 2 ^ (w - 1) ∧
    Sys2Proof.Num.elem w (evalVneg i).1 k = (a + 2 ^ (w - 1)) % 2 ^ w ∧
    ((v a).isNaN = true → (v b).isNaN = false → Sys2Proof.Num.elem w (evalVmin i).1 k = b ∧ Sys2Proof.Num.elem w (evalVmax i).1 k = b) ∧
    ((v a).isNaN = false → (v b).isNaN = true → Sys2Proof.Num.elem w (evalVmin i).1 k = a ∧ Sys2Proof.Num.elem w (evalVmax i).1 k = a) ∧
    ((v a).isNaN = false → (v b).isNaN = false → Sys2Proof.Num.cmp (v a) (v b) = .lt →
      Sys2Proof.Num.elem w (evalVmin i).1 k = a ∧ Sys2Proof.Num.elem w (evalVmax i).1 k = b) ∧
    ((v a).isNaN = false → (v b).isNaN = false → Sys2Proof.Num.cmp (v a) (v b) = .gt →
      Sys2Proof.Num.elem w (evalVmin i).1 k = b ∧ Sys2Proof.Num.elem w (evalVmax i).1 k = a) ∧
    (k < 2048 / max (Sys2Proof.Num.widthOf i.fx) w → Sys2Proof.Num.elem w (evalVcvt i).1 k =
      Sys2Proof.Num.round i.fmt i.mode i.sat (Sys2Proof.Num.valOf i.fx (Sys2Proof.Num.elem (Sys2Proof.Num.widthOf i.fx) i.a.row k)) % 2 ^ w)) ∧
  (∀ (i : VIn) (k : Nat), i.ty ∈ [4, 5] → i.fx ∈ [1, 2, 3, 4, 5, 7, 8, 9, 10, 11, 12, 13, 14] → k < 256 →
    Sys2Proof.Num.elem 8 (evalVcvt i).1 k = if k < 2048 / Sys2Proof.Num.widthOf i.fx then
      Sys2Proof.Num.round i.fmt i.mode i.sat (Sys2Proof.Num.valOf i.fx (Sys2Proof.Num.elem (Sys2Proof.Num.widthOf i.fx) i.a.row k)) % 256
      else 0) ∧
  (∀ (i : VIn) (k : Nat), i.fx ∈ [1, 2, 3] →
    let ws := Sys2Proof.Num.widthOf i.fx
    let n := 2048 / ws
    let v (j : Nat) : Sys2Proof.Num.FV := Sys2Proof.Num.valOf i.fx (Sys2Proof.Num.elem ws i.a.row j)
    let x := (v k).scale (sgn 32 (Sys2Proof.Num.lane i.b.row 0))
    (i.ty ∈ [4, 5] → k < 256 → Sys2Proof.Num.elem 8 (evalVqnt i).1 k =
      if k < n then Sys2Proof.Num.round i.fmt i.mode i.sat x % 256 else 0) ∧
    (i.ty = 7 → k < 256 → (Sys2Proof.Num.elem 8 (evalVqnt i).1 k : Int) =
      if k < n then Sys2Proof.Num.toInt i.mode (-128) 127 x % 256 else 0) ∧
    (i.ty = 11 → k < 256 → (Sys2Proof.Num.elem 8 (evalVqnt i).1 k : Int) =
      if k < n then Sys2Proof.Num.toInt i.mode 0 255 x else 0) ∧
    (i.ty = 6 →
      let block (j : Nat) : Nat × List Nat := Sys2Proof.Num.mxq i.mode ((List.range 32).map fun m => v (32 * j + m))
      (k < n → Sys2Proof.Num.elem 4 (evalVqnt i).1 k = (block (k / 32)).2.getD (k % 32) 0) ∧
      (k < 256 → n / 2 ≤ k → Sys2Proof.Num.elem 8 (evalVqnt i).1 k =
        if 128 ≤ k ∧ k < 128 + n / 32 then (block (k - 128)).1 else 0))) ∧
  (∀ (i : VIn) (k : Nat), i.ty ∈ [1, 2, 3] → k < 2048 / i.w →
    let ws := Sys2Proof.Num.widthOf i.fx
    let sc := Sys2Proof.Num.elem 8 i.a.row (128 + k / 32)
    (i.fx ∈ [4, 5, 7, 11] → Sys2Proof.Num.elem i.w (evalVdqnt i).1 k = Sys2Proof.Num.round i.fmt i.mode false
      ((Sys2Proof.Num.valOf i.fx (Sys2Proof.Num.elem ws i.a.row k)).scale (sgn 32 (Sys2Proof.Num.lane i.b.row 0))) % 2 ^ i.w) ∧
    (i.fx = 6 → Sys2Proof.Num.elem i.w (evalVdqnt i).1 k =
      if sc = 255 then Sys2Proof.Num.nanCode i.fmt
      else Sys2Proof.Num.round i.fmt i.mode false
        ((Sys2Proof.Num.value Sys2Proof.Num.e2m1 (Sys2Proof.Num.elem 4 i.a.row k)).scale ((sc : Int) - 127)) % 2 ^ i.w)) ∧
  (∀ (i : VIn) (k : Nat) (hdr : Row) (rows : List Row), i.ty ∈ [1, 2, 3] → k < 2048 / i.w → i.tab = .bound hdr rows →
    headerOk hdr = true →
    let f32 (x : Nat) : Sys2Proof.Num.FV := Sys2Proof.Num.value Sys2Proof.Num.f32 x
    let c (j s : Nat) : Sys2Proof.Num.FV := f32 (Sys2Proof.Num.lane (rows.getD (4 * j + s / 64) 0) (s % 64))
    let x := Sys2Proof.Num.elem i.w i.a.row k
    let r := Sys2Proof.Num.elem i.w (evalVtab i).1 k
    let rounded (z : Sys2Proof.Num.FV) : Nat := Sys2Proof.Num.round i.fmt i.mode false z % 2 ^ i.w
    let out (code val : Nat) : Nat := if code = 0 then rounded (f32 val) else if code = 1 then x else Sys2Proof.Num.nanCode i.fmt
    let poly (s : Nat) (t : Sys2Proof.Num.FV) : Nat :=
      let y := f32 (Sys2Proof.Num.round Sys2Proof.Num.f32 .rne false (Sys2Proof.Num.add .rne (Sys2Proof.Num.mul (c 2 s) t) (c 1 s)))
      rounded (Sys2Proof.Num.add i.mode (c 0 s) (Sys2Proof.Num.mul y t))
    ((i.val x).isNaN = true → r = Sys2Proof.Num.nanCode i.fmt) ∧
    ((i.val x).isNaN = false → bits hdr 1 0 = 0 →
      let x0 := f32 (bits hdr 63 32)
      let lg := sgn 32 (bits hdr 95 64)
      let past := Sys2Proof.Num.cmp (i.val x) (Sys2Proof.Num.add .rne x0 (.fin false 1 (lg + 8)))
      (Sys2Proof.Num.cmp (i.val x) x0 = .lt → r = out (bits hdr 5 4) (bits hdr 127 96)) ∧
      (Sys2Proof.Num.cmp (i.val x) x0 ≠ .lt → past ≠ .lt → r = out (bits hdr 9 8) (bits hdr 159 128)) ∧
      (Sys2Proof.Num.cmp (i.val x) x0 ≠ .lt → past = .lt → ∀ g m e, Sys2Proof.Num.sub .rne (i.val x) x0 = .fin g m e →
        let p := 2 ^ (lg - e).toNat
        r = if lg ≤ e then poly (m * 2 ^ (e - lg).toNat) (.fin false 0 0) else poly (m / p) (.fin false (m % p) (e - lg)))) ∧
    (bits hdr 1 0 ≠ 0 →
      (∀ g, i.val x = .inf g → r = rounded (f32 (bits hdr 223 192))) ∧
      (∀ g e, i.val x = .fin g 0 e → r = rounded (f32 (bits hdr 191 160))) ∧
      (∀ g m e, i.val x = .fin g m e → m ≠ 0 →
        let lg := Nat.log2 m
        let up := if bits hdr 1 0 = 2 ∧ ((lg : Int) + e) % 2 = 1 then 128 else 0
        let u := (m - 2 ^ lg) * if bits hdr 1 0 = 1 then 256 else 128
        r = poly (up + u / 2 ^ lg) (.fin false (u % 2 ^ lg) (-(lg : Int)))))) ∧
  (∀ (i : VIn) (k t x y : Nat), i.ty = 1 → i.mode = .rne → i.tab = .builtin t → k < 64 → Sys2Proof.Num.lane i.a.row k = x →
    (t, x, y) ∈ [(0, 0, 0), (1, 0, 0), (2, 0, 0), (3, 0, 0x3F000000), (4, 0, 0), (5, 0, 0x3F800000), (6, 0x3F800000, 0),
      (7, 0x3F800000, 0x3F800000), (8, 0x3F800000, 0x3F800000), (10, 0xBF800000, 0), (10, 0xBF000000, 0xBF800000), (10, 0, 0),
      (10, 0x3F000000, 0x3F800000), (11, 0xBF800000, 0xBF800000), (11, 0xBF000000, 0), (11, 0, 0x3F800000), (11, 0x3F000000, 0),
      (12, 0, 0x3F800000), (13, 0, 0), (14, 0, 0), (15, 0x3F800000, 0x3F800000), (15, 0x3FC80000, 0x3FA00000),
      (15, 0x40100000, 0x3FC00000)] → Sys2Proof.Num.lane (evalVtab i).1 k = y) ∧
  (∀ x m : Nat,
    let f32 (x : Nat) : Sys2Proof.Num.FV := Sys2Proof.Num.value Sys2Proof.Num.f32 x
    let d := Sys2Proof.Num.sub .rne (f32 x) (f32 m)
    ((f32 x).isNaN = true ∨ (f32 m).isNaN = true → Sys2Proof.Num.prob x m = 0x7FC00000) ∧
    ((f32 x).isNaN = false → (f32 m).isNaN = false →
      (f32 x = .inf true → Sys2Proof.Num.prob x m = 0) ∧
      (f32 x ≠ .inf true → f32 m = .inf false ∨ d.isNaN = true → Sys2Proof.Num.prob x m = 0x7FC00000) ∧
      (f32 x ≠ .inf true → f32 m ≠ .inf false → d.isNaN = false → Sys2Proof.Num.prob x m =
        Sys2Proof.Num.exp2 Sys2Proof.Num.f32 .rne
          (f32 (Sys2Proof.Num.round Sys2Proof.Num.f32 .rne false (Sys2Proof.Num.mul d (f32 0x3FB8AA3B))))))) ∧
  (∀ (i : VIn) (k : Nat),
    let f32 (x : Nat) : Sys2Proof.Num.FV := Sys2Proof.Num.value Sys2Proof.Num.f32 x
    let rounded (z : Sys2Proof.Num.FV) : Nat := Sys2Proof.Num.round Sys2Proof.Num.f32 .rne false z
    let h1 (j : Nat) : Nat := Sys2Proof.Num.lane i.d.row j
    let h2 (j : Nat) : Nat := Sys2Proof.Num.lane i.a.row j
    let b (j : Nat) : Nat := Sys2Proof.Num.lane i.b.row j
    let h (j : Nat) : Nat := Sys2Proof.Num.lane (evalVtripMrg i).1 j
    (k < 64 → Sys2Proof.Num.lane (evalVtripProb i).1 k = Sys2Proof.Num.prob (h2 k) (b 0) ∧
      Sys2Proof.Num.lane (evalVtripAcc i).1 k =
        rounded (Sys2Proof.Num.add .rne (Sys2Proof.Num.mul (f32 (b 8)) (f32 (h1 k))) (Sys2Proof.Num.mul (f32 (b 9)) (f32 (h2 k)))) % 2 ^ 32) ∧
    h 3 = min (h1 3 + h2 3) (2 ^ 32 - 1) ∧ h 4 = min (h1 4 + h2 4) (2 ^ 32 - 1) ∧ h 6 = h1 6 ∧ h 7 = 0 ∧
    h 5 = (if h1 5 % 2 = 1 ∨ h2 5 % 2 = 1 then 1 else 0) ∧ (10 ≤ k → k < 64 → h k = 0) ∧
    let special (x : Nat) : Prop := (f32 x).isNaN = true ∨ f32 x = .inf false
    (special (h1 0) ∨ special (h2 0) →
      h 0 = 0x7FC00000 ∧ h 1 = 0x7FC00000 ∧ h 2 = 0 ∧ h 8 = 0x7FC00000 ∧ h 9 = 0x7FC00000) ∧
    (¬(special (h1 0) ∨ special (h2 0)) →
      let l := Sys2Proof.Num.add .rne
        (Sys2Proof.Num.mul (f32 (h 8)) (Sys2Proof.Num.add .rne (f32 (h1 1)) (f32 (h1 2))))
        (Sys2Proof.Num.mul (f32 (h 9)) (Sys2Proof.Num.add .rne (f32 (h2 1)) (f32 (h2 2))))
      (h 0 = h1 0 ∨ h 0 = h2 0) ∧ Sys2Proof.Num.cmp (f32 (h 0)) (f32 (h1 0)) ≠ .lt ∧
      Sys2Proof.Num.cmp (f32 (h 0)) (f32 (h2 0)) ≠ .lt ∧ h 8 = Sys2Proof.Num.prob (h1 0) (h 0) ∧
      h 9 = Sys2Proof.Num.prob (h2 0) (h 0) ∧ h 1 = rounded l % 2 ^ 32 ∧
      h 2 = rounded (Sys2Proof.Num.sub .rne l (f32 (h 1))) % 2 ^ 32))

/-- R146, R148, R153, R241: `VCMP` gives all ones where its condition holds of the two elements, none where not, by the table of
R146 for integers under their signedness and for floating-point values with their NaNs; `VSEL` takes
each lane from A or B by its mask bit; `VPERM` picks lanes of A by the low six bits of B's; `VBCAST` spreads element b,
`VIOTA` steps by B's element 0, `VROTM` takes byte k from byte k + rot of D over A, `VMOV`, `VLD` and `VST` copy. R149 to R152: in
each group of lanes `VRED` gives every element the group's combination, `VSCAN` each element that of the elements up to it, and
`VGMAX` the largest magnitude; a floating-point sum by the pairwise tree of R150 or in sequence by R151; a group with a tagged
lane is tagged whole. -/
def Obligations.LanesCompareAndMove : Prop :=
  ∀ (i : VIn) (k : Nat),
    let w := i.w
    let a := Sys2Proof.Num.elem w i.a.row k
    let b := Sys2Proof.Num.elem w i.b.row k
    (i.ty ∈ [1, 2, 3, 7, 8, 9, 10, 11, 12, 13, 14] → k < 2048 / w →
      let cc := i.fx % 8
      let un := (i.val a).isNaN = true ∨ (i.val b).isNaN = true
      let o := Sys2Proof.Num.cmp (i.val a) (i.val b)
      let x := integer i a
      let y := integer i b
      let holds : Prop :=
        if i.ty ≤ 3 then
          (cc = 0 ∧ ¬un ∧ o = .eq) ∨ (cc = 1 ∧ (un ∨ o ≠ .eq)) ∨ (cc = 2 ∧ ¬un ∧ o = .lt) ∨ (cc = 3 ∧ ¬un ∧ o ≠ .gt) ∨
          (cc = 4 ∧ ¬un ∧ o = .gt) ∨ (cc = 5 ∧ ¬un ∧ o ≠ .lt) ∨ (cc = 6 ∧ un) ∨ (cc = 7 ∧ ¬un)
        else (cc = 0 ∧ x = y) ∨ (cc = 1 ∧ x ≠ y) ∨ (cc = 2 ∧ x < y) ∨ (cc = 3 ∧ x ≤ y) ∨ (cc = 4 ∧ y < x) ∨ (cc = 5 ∧ y ≤ x)
      (i.ty ≤ 3 ∨ cc ≤ 5 → (holds → Sys2Proof.Num.elem w (evalVcmp i).1 k = 2 ^ w - 1) ∧
        (¬holds → Sys2Proof.Num.elem w (evalVcmp i).1 k = 0)) ∧
      (evalVcmp i).2 = sameTags w (i.a.tags ||| i.b.tags)) ∧
    (i.ty ∈ [1, 2, 3, 7, 8, 9, 10, 11, 12, 13, 14] →
      let lanes := 64 / 2 ^ (i.fx / 8 % 4)
      let n := lanes * 32 / w
      let op := i.fx % 8
      let e (j : Nat) : Nat := Sys2Proof.Num.elem w i.a.row (k / n * n + j)
      let v (j : Nat) : Sys2Proof.Num.FV := i.val (e j)
      let rounded (z : Sys2Proof.Num.FV) : Nat := Sys2Proof.Num.round i.fmt i.mode false z % 2 ^ w
      (k < 2048 / w →
        (i.ty ≤ 3 → op = 0 → Sys2Proof.Num.elem w (evalVred i).1 k =
            rounded (Sys2Proof.Num.add i.mode (partials v (Nat.log2 n - 1) 0) (partials v (Nat.log2 n - 1) 1)) ∧
          Sys2Proof.Num.elem w (evalVscan i).1 k = if k % n = 0 then rounded (v 0)
            else rounded (Sys2Proof.Num.add i.mode (running v (k % n - 1)) (v (k % n)))) ∧
        (if i.ty ≤ 3 then op = 1 ∨ op = 2 else op ≤ 5) →
          Combined i op e (n - 1) (Sys2Proof.Num.elem w (evalVred i).1 k) ∧
          Combined i op e (k % n) (Sys2Proof.Num.elem w (evalVscan i).1 k)) ∧
      (k < 2048 / w →
        let r := Sys2Proof.Num.elem w (evalVgmax i).1 k
        let mag (j : Nat) : Nat := if i.ty ≤ 3 then e j % 2 ^ (w - 1) else (integer i (e j)).natAbs
        if i.ty ≤ 3 ∧ ∃ j, j < n ∧ (v j).isNaN = true then r = Sys2Proof.Num.nanCode i.fmt
        else (∃ j, j < n ∧ r = mag j) ∧ ∀ j, j < n → mag j ≤ r) ∧
      (k < 64 → ∀ f ∈ [evalVred, evalVscan, evalVgmax],
        (f i).2.getLsbD k = (List.range lanes).any fun j => i.a.tags.getLsbD (k / lanes * lanes + j))) ∧
    (i.ty ∈ [7, 8, 9, 10, 11, 12, 13, 14] → k < 2048 / w →
      Sys2Proof.Num.elem w (evalVbcast i).1 k = Sys2Proof.Num.elem w i.a.row (Sys2Proof.Num.lane i.b.row 0 % (2048 / w)) ∧
      Sys2Proof.Num.elem w (evalViota i).1 k = (Sys2Proof.Num.elem w i.a.row 0 + k * Sys2Proof.Num.elem w i.b.row 0) % 2 ^ w) ∧
    (k < 64 →
      Sys2Proof.Num.lane (evalVsel i).1 k = (if i.lanes.getLsbD k then Sys2Proof.Num.lane i.a.row k else Sys2Proof.Num.lane i.b.row k) ∧
      (evalVsel i).2.getLsbD k = (if i.lanes.getLsbD k then i.a.tags.getLsbD k else i.b.tags.getLsbD k) ∧
      Sys2Proof.Num.lane (evalVperm i).1 k = Sys2Proof.Num.lane i.a.row (Sys2Proof.Num.lane i.b.row k % 64) ∧
      (evalVperm i).2.getLsbD k = (i.a.tags.getLsbD (Sys2Proof.Num.lane i.b.row k % 64) || i.b.tags.getLsbD k)) ∧
    (k < 256 →
      let rot := i.b.row.toNat % 256
      Sys2Proof.Num.elem 8 (evalVrotm i).1 k =
        if k + rot < 256 then Sys2Proof.Num.elem 8 i.a.row (k + rot) else Sys2Proof.Num.elem 8 i.d.row (k + rot - 256)) ∧
    evalVmov i = (i.a.row, i.a.tags) ∧ evalCopy i = (i.a.row, i.a.tags)

/-- R54, R91, R92, R100, R147, R158, R240, R242: the V-words of other shapes issue: `VNOP` does nothing, `VBRK` notes the level
that its lane 0 ends, `VEND` ends the point, `VMASK` sets a mask with its taint, `VTLOAD` binds a table whose header is
legal, `VSTM` writes its enabled bytes, `VXQ` moves rows between a queue and consecutive rows, `VCOMMIT` writes the chosen
lanes untagged. The block goes on, and nothing else changes. -/
def Obligations.OtherVectorWordsIssue : Prop :=
  ∀ (s : State) (x : Block) (w : VWord),
    let goesOn (t : State) : Prop := t.me.block = some { x with idx := x.idx + 1 } ∧ OnlyLoopEngine s t ∧ SameMemory s t
    let quiet (t : State) : Prop := t.me.vregs = s.me.vregs ∧ t.me.oregs = s.me.oregs ∧ t.me.latches = s.me.latches ∧
      t.me.arr = s.me.arr
    (s.issuing s.cur = some x → s.me.arrayWrites = false → ∃ t, exec .vnop s = .next t ∧ goesOn t ∧ quiet t ∧
      t.me.queues = s.me.queues ∧ t.me.masks = s.me.masks ∧ t.me.tabs = s.me.tabs ∧ t.sram = s.sram) ∧
    (Issues s x 0x01 w → w.fx.toNat % 8 < x.depth → ∀ a, s.readOpnd s.cur x (opnd w.a) 0 = .ok a → a.poison = false →
      a.tags.getLsbD 0 = false → ∃ t, exec (.vbrk w) s = .next t ∧
        t.me.block = some { x with idx := x.idx + 1, brk :=
          (if Sys2Proof.Num.lane a.row 0 = 0 then x.brk else min x.brk (w.fx.toNat % 8)) } ∧
        quiet t ∧ t.me.masks = s.me.masks ∧ t.sram = s.sram ∧ OnlyLoopEngine s t ∧ SameMemory s t) ∧
    (Issues s x 0x02 w → ∃ t y, exec (.vend w) s = .next t ∧ t.me.block = some y ∧ (x.depth = 0 → y.phase = .finished) ∧
      (∀ l, x.depth = l + 1 → l ≤ 5 → l < x.brk → x.ix l + 1 < x.bound l → y.phase = .issue ∧ y.ix l = x.ix l + 1 ∧
        (∀ m, m ≠ l → y.ix m = x.ix m) ∧ y.idx = x.first ∧ y.brk = 6) ∧
      quiet t ∧ t.me.queues = s.me.queues ∧ t.me.masks = s.me.masks ∧ t.sram = s.sram ∧ OnlyLoopEngine s t) ∧
    (Issues s x 0x04 w → ∀ a, s.readOpnd s.cur x (opnd w.a) 0 = .ok a → ∃ t m, exec (.vmask w) s = .next t ∧ goesOn t ∧
      quiet t ∧ t.me.lmask (w.fx.toNat % 8) = m ∧ m.poison = a.poison ∧ (∀ n, n ≠ w.fx.toNat % 8 → t.me.lmask n = s.me.lmask n) ∧
      (∀ l, l < 64 → m.bits.getLsbD l = (match w.fx.toNat / 8 with
        | 0 => Sys2Proof.Num.lane a.row l != 0
        | 1 => Sys2Proof.Num.lane a.row l % 65536 != 0
        | _ => Sys2Proof.Num.lane a.row l / 65536 != 0)) ∧ m.taint = (a.tags != 0) ∧ t.sram = s.sram) ∧
    (Issues s x 0x21 w → ∀ (n : Nat) off key last, opnd w.a = .ad n off →
      s.freeKey (rowAt s.cur (descSpace (s.me.desc n)) (descRow (s.me.desc n) x.ix off)) = .ok key →
      rowAt s.cur (descSpace (s.me.desc n)) (descRow (s.me.desc n) x.ix off + 12) = .ok last →
      headerOk (s.readRow s.cur key).row = true → ∃ t b, exec (.vtload w) s = .next t ∧ goesOn t ∧ quiet t ∧
        Assoc.get none t.me.tabs (w.fx.toNat % 16) = some b ∧ b.hdr = (s.readRow s.cur key).row ∧
        b.cluster = descSpace (s.me.desc n) ∧ (b.row : Int) = descRow (s.me.desc n) x.ix off ∧
        (∀ k, k ≠ w.fx.toNat % 16 → Assoc.get none t.me.tabs k = Assoc.get none s.me.tabs k) ∧ t.sram = s.sram) ∧
    (Issues s x 0x62 w → ∀ (rng : Bool) (o : Ops3) (n : Nat) off key, vFieldsOk 0x62 w = true →
      w.fx = (if rng then 1 else 0) → readOps s s.cur x 0x62 w 0 = .ok o → opnd w.d = .ad n off →
      s.freeKey (descKey s.cur s.me x n off) = .ok key → o.a.tags = 0 → o.b.tags = 0 →
      ∃ t, exec (if rng then .vstmRng w else .vstmBits w) s = .next t ∧ goesOn t ∧ quiet t ∧
        t.sram = (s.putRow s.cur key o.a.row (some (if rng then rngMask o.b.row else o.b.row.setWidth 256))
          (o.a.poison || o.b.poison)).sram ∧
        (∀ q, (t.me.queue q).head = (s.me.queue q).head + leaves 0x62 w q)) ∧
    (Issues s x 0x63 w →
      let c := w.fx.toNat % 16 + 1
      (∀ q adv j ad off keys, opnd w.a = .queue q adv j → opnd w.d = .ad ad off → j + c ≤ (s.me.queue q).fill →
        rowRun s s.cur x ad off c = .ok keys → ∃ t, exec (.vxq w) s = .next t ∧ goesOn t ∧ quiet t ∧
          t.sram = (s.putRows s.cur (keys.mapIdx fun m key =>
            let e := (s.me.queue q).slot q ((s.me.queue q).head + j + m)
            (key, e.row, none, e.poison))).sram ∧
          (t.me.queue q).head = (s.me.queue q).head + if adv then c else 0) ∧
      (∀ q adv j ad off keys, opnd w.a = .ad ad off → opnd w.d = .queue q adv j → q ≤ 5 →
        (s.me.queue q).tail + j + c ≤ (s.me.queue q).head + 16 → rowRun s s.cur x ad off c = .ok keys →
        ∃ t, exec (.vxq w) s = .next t ∧ goesOn t ∧ quiet t ∧ t.sram = s.sram ∧
          (∀ (m : Nat) key, keys[m]? = some key → (t.me.queue q).slot q ((s.me.queue q).tail + j + m) =
            { row := (s.readRow s.cur key).row, poison := (s.readRow s.cur key).poison, filled := true }) ∧
          (t.me.queue q).tail = (s.me.queue q).tail + if adv then c else 0)) ∧
    (Issues s x 0x42 w → ∀ (o : Ops3), vFieldsOk 0x42 w = true → readOps s s.cur x 0x42 w 0 = .ok o → o.spec = 0 →
      let m := s.me.mskOf w.msk
      m.taint = false → (∀ l, l < 64 → (if m.bits.getLsbD l then o.a.tags.getLsbD l else o.b.tags.getLsbD l) = false) →
      let z : Made := { row := mergeLanes o.b.row o.a.row m.bits, tags := 0, lanes := BitVec.allOnes 64, cause := 0,
                        poison := o.a.poison || o.b.poison || m.poison, whole := true }
      Takes s x w 0 z → ∃ t, exec (.vcommit w) s = .next t ∧ goesOn t ∧ Given s t x w 0 z ∧
        (∀ l, t.me.latch l = if l = 0 then written (s.me.latch l) z else s.me.latch l) ∧
        (∀ q, (t.me.queue q).head = (s.me.queue q).head + leaves 0x42 w q))

/-- R61, R96, R98, R228, R418: a plain V-word that would store a tagged lane in a row takes the deferred fault with the
recorded cause; one with a forbidden operand an illegal-bundle fault; either stops the block at its bundle, with the fault
waiting for the sequencer and no other effect. A word whose queue source holds too few rows, or whose queue destination has no
room, waits, before any check (R94, R228, R235). While the array holds an `MSTORE`, an `MROW` or an `MTRANS` every legal word waits
(the model's choice, log entry 7; R175 asks it only of a word that meets their rows or registers). -/
def Obligations.VectorFaultsStopTheirBlock : Prop :=
  ∀ (s : State) (x : Block) (i : Instr) (opc : Nat) (w : VWord) (f : VIn → VRes) (tab : VTable) (bad : Bool) (e : Int),
    Plain s x i opc w f tab bad e → s.issuing s.cur = some x →
    let stops (cls sub : Nat) (defer : Bool) : Prop := ∃ t fl, exec i s = .next t ∧ t.me.faults = s.me.faults ++ [fl] ∧
      fl.cls = cls ∧ fl.sub = sub ∧ fl.eng = 1 ∧ fl.asyn = true ∧ fl.defer = defer ∧
      fl.prog0 = BitVec.ofNat 64 (x.idx % 1024) ∧ t.me.block = some { x with trapped := true } ∧
      { t.me with block := s.me.block, faults := s.me.faults } = s.me ∧ OnlyMeOwing s t ∧ SameMemory s t
    (vForbidden opc w = true → stops 9 2 false) ∧
    (Issues s x opc w → vFieldsOk opc w = true → ∀ o n off key,
      readOps s s.cur x opc w (if opc = 0x60 then e else 0) = .ok o → opnd w.d = .ad n off →
      s.freeKey (descKey s.cur s.me x n (off + if opc = 0x61 then e else 0)) = .ok key →
      let z := makes x opc w f tab bad o (s.me.mskOf w.msk)
      z.tags &&& z.lanes ≠ 0 → stops 10 0 true) ∧
    (Issues s x opc w → ∀ fm, vForm opc w.ty.toNat w.fx.toNat = some fm →
      (∃ q adv j, (fm.a = true ∧ opnd w.a = .queue q adv j ∨ fm.b = true ∧ opnd w.b = .queue q adv j) ∧ (s.me.queue q).fill ≤ j) ∨
      (∃ q adv j, fm.d = true ∧ opnd w.d = .queue q adv j ∧ (s.me.queue q).head + qCap q ≤ (s.me.queue q).tail + j) →
      exec i s = .next s) ∧
    (vForbidden opc w = false → s.me.arrayWrites = true → exec i s = .next s)

/-! ### The matrix array and the blocks of the loop engine (spec/04, spec/08) -/

/-- R57, R163, R174, R175: every M-word with no forbidden operand, its operands in range and, where its rule asks for it, an
empty array, issues: it joins the array's queue with the rows and registers that it read at issue, the block goes on to its
next bundle, and nothing else changes. -/
def Obligations.MatrixWordsJoinTheArray : Prop :=
  ∀ (s : State) (x : Block) (i : Instr) (mop : Nat) (w : MWord) (a : ArrOp), Joins s x i mop w a →
    s.issuing s.cur = some x → mForbidden mop w = false → s.me.arrayWrites = false → x.qual w.fi w.li w.flv = true →
    ∃ t, exec i s = .next t ∧ t.me.arr = s.me.arr ++ [{ a with since := s.counter }] ∧ a.mop = mop ∧ a.w = w ∧ a.started = false ∧
      t.me.block = some { x with idx := x.idx + 1 } ∧ t.me.vregs = s.me.vregs ∧ t.me.oregs = s.me.oregs ∧
      t.me.latches = s.me.latches ∧ t.me.queues = s.me.queues ∧ t.me.masks = s.me.masks ∧ t.sram = s.sram ∧
      OnlyLoopEngine s t ∧ SameMemory s t

/-- R165 to R174: the oldest M-word of an existing bank, unless its core's paired window has still to come, completes:
`MZERO` clears its tile, `MLOAD` loads it from its 256 rows, `MEDGE` sets its limits, `MMA` and `MMAX` add their steps to
every element inside the limits, each step the block sum of its products, rounded once, added with one rounding, `MROW` copies one row of the tile to two registers, `MSTORE` and `MTRANS` write their
rows. It leaves the array; nothing else of the bank's registers changes. R178: in paired mode its units start in windows of
its core, each where it ends within the window, one after the other, and it completes when the last has ended. -/
def Obligations.ArrayWordsComplete : Prop :=
  ∀ (s : State) (b : Nat) (o : ArrOp) (rest : List ArrOp), validBank b = true → (s.bank b).arr = o :: rest →
    let k := s.bank b
    let tl := k.tile o.w.acc
    let later := (rest.take 1).map (fun x => { x with since := max x.since o.till }) ++ rest.drop 1
    let keeps (t : State) : Prop := (t.bank b).arr = later ∧ (t.bank b).regs = k.regs ∧ (t.bank b).oregs = k.oregs ∧
      (t.bank b).block = k.block ∧ (∀ c, c ≠ b → t.bank c = s.bank c) ∧ t.mem = s.mem ∧
      (t.bank b).tile (!o.w.acc) = k.tile (!o.w.acc)
    let only (t : State) : Prop := keeps t ∧ (t.bank b).vregs = k.vregs ∧ t.sram = s.sram
    let legal (o : ArrOp) : Prop := o.w.fmta.toNat ∈ [2, 3] ∧ o.w.fmtb = o.w.fmta ∨
      o.w.fmta.toNat ∈ [4, 5] ∧ o.w.fmtb.toNat ∈ [4, 5] ∨ o.w.fmta.toNat = 6 ∧ o.w.fmtb.toNat = 6
    (s.pairedWindow b = none ∨ o.started = true ∧ o.till ≤ s.copyOf (b / 256) →
      (o.mop = 3 → ∃ t, exec (.mwordComplete b) s = .next t ∧ only t ∧
        (t.bank b).tile o.w.acc = { tl with elems := [], taint := false, cause := 0, poison := false }) ∧
      (o.mop = 7 → ∃ t, exec (.mwordComplete b) s = .next t ∧ only t ∧
        (t.bank b).tile o.w.acc = { tl with cutRows := 127 - bits o.w.sspec 14 8, cutCols := 127 - bits o.w.sspec 6 0 }) ∧
      (o.mop = 4 → ∃ t, exec (.mwordComplete b) s = .next t ∧ only t ∧
        (∀ i h l, i < 128 → h < 2 → l < 64 →
          ((t.bank b).tile o.w.acc).elem i (64 * h + l) = Sys2Proof.Num.lane (o.arows.getD (2 * i + h) 0) l) ∧
        ((t.bank b).tile o.w.acc).taint = false ∧ ((t.bank b).tile o.w.acc).poison = o.poisoned) ∧
      (o.mop = 1 ∨ o.mop = 2 → ∃ t, exec (.mwordComplete b) s = .next t ∧ only t ∧
        (∀ i j, i < 128 → j < 128 → ((t.bank b).tile o.w.acc).elem i j =
          (if o.w.ee = false ∨ (i + tl.cutRows < 128 ∧ j + tl.cutCols < 128) then
            (List.range (o.w.kst.toNat + 1)).foldl (stepElem o i j) (tl.elem i j) % 2 ^ 32 else tl.elem i j)) ∧
        (legal o → ∀ i j t, i < 128 → j < 128 → t ≤ o.w.kst.toNat → ∃ p, BlockSum o t i j p ∧
          ∀ old, stepElem o i j old t = Sys2Proof.Num.round Sys2Proof.Num.f32 .rne false
            (Sys2Proof.Num.add .rne (Sys2Proof.Num.value Sys2Proof.Num.f32 old) (Sys2Proof.Num.value Sys2Proof.Num.f32 p))) ∧
        ((t.bank b).tile o.w.acc).taint = (tl.taint || o.tagged) ∧
        ((t.bank b).tile o.w.acc).poison = (tl.poison || o.poisoned)) ∧
      (o.mop = 6 → ∃ t, exec (.mwordComplete b) s = .next t ∧ keeps t ∧ t.sram = s.sram ∧
        (∀ h l, h < 2 → l < 64 → Sys2Proof.Num.lane ((t.bank b).vreg (specV o.w.aspec + h)).row l =
          tl.elem o.w.kst.toNat (64 * h + l)) ∧
        (∀ n, n ≠ specV o.w.aspec → n ≠ specV o.w.aspec + 1 → (t.bank b).vreg n = k.vreg n) ∧
        (t.bank b).tile o.w.acc = tl) ∧
      (o.mop = 5 → ∃ t, exec (.mwordComplete b) s = .next t ∧ keeps t ∧ (t.bank b).vregs = k.vregs ∧
        (t.bank b).tile o.w.acc = tl ∧ t.sram = (s.putRows b (o.dst.mapIdx fun n key =>
          (key, (storeRow tl o.w n).1, (storeRow tl o.w n).2, tl.poison))).sram) ∧
      (o.mop = 8 → specSrc o.w.bspec = 0 → ∃ t, exec (.mwordComplete b) s = .next t ∧ keeps t ∧ t.sram = s.sram ∧
        (t.bank b).tile o.w.acc = tl ∧
        (∀ q, q < transRows o.w → ((t.bank b).vreg (specV o.w.bspec + q)).row = transRow o.w.fmta.toNat o.arows q) ∧
        (∀ n, n < specV o.w.bspec ∨ specV o.w.bspec + transRows o.w ≤ n → (t.bank b).vreg n = k.vreg n)) ∧
      (o.mop = 8 → specSrc o.w.bspec ≠ 0 → ∃ t, exec (.mwordComplete b) s = .next t ∧ keeps t ∧
        (t.bank b).vregs = k.vregs ∧ (t.bank b).tile o.w.acc = tl ∧
        t.sram = (s.putRows b ((o.dst.zip ((List.range (transRows o.w)).map (transRow o.w.fmta.toNat o.arows))).map
          fun p => (p.1, p.2, none, o.poisoned))).sram)) ∧
    (s.pairedWindow b ≠ none → o.started = false → exec (.mwordComplete b) s = .next (s.owe (.pairedWindowStart b))) ∧
    (s.pairedWindow b ≠ none → o.started = true → s.copyOf (b / 256) < o.till →
      exec (.mwordComplete b) s = .next (s.owe (.mwordComplete b))) ∧
    (∀ w, s.pairedWindow b = some w → o.started = false →
      let n := o.units.2
      (s.copyOf (b / 256) < unitStart w (coreNum b) o.since n →
        exec (.pairedWindowStart b) s = .next (s.owe (.pairedWindowStart b))) ∧
      (unitStart w (coreNum b) o.since n ≤ s.copyOf (b / 256) → ∃ t till, exec (.pairedWindowStart b) s = .next t ∧
        (t.bank b).arr = { o with started := true, till := till } :: rest ∧ { t.bank b with arr := k.arr } = k ∧
        OnlyBankOwing b s t ∧
        ∃ us : List Nat, us.length = o.units.1 ∧ us.head? = some (unitStart w (coreNum b) o.since n) ∧
          (∀ u ∈ us, o.since ≤ u ∧ u / w % 2 = coreNum b % 2 ∧ u % w + n ≤ w) ∧
          (∀ (j : Nat) u v, us[j]? = some u → us[j + 1]? = some v → u + n ≤ v) ∧
          us.getLast? = some (till - n) ∧ n ≤ till)) ∧
    (s.pairedWindow b = none → ∃ t, exec (.pairedWindowStart b) s = .next t ∧
      (t.bank b).arr = { o with started := true, till := o.since } :: rest ∧ { t.bank b with arr := k.arr } = k ∧
      OnlyBankOwing b s t)

/-- R84 to R92, R47, R87, R88, R179, R180, R434 to R436, R447: the life of a block. A `RUN` whose pops, barrier and loop engine are
free issues with what it captured, and with the restart record that an `MBLK` before it registers, unless its label lies below
START; a registered block keeps the heads of its queues at each checkpoint, from which producers then count; a bound is drawn from
its queue, a poisoned one stays there and faults, one above 24 bits leaves it and faults; a bundle issues its three slots together from the state before it;
a finished block with an empty array retires with its token and its barrier count; a block that has waited long enough
migrates to the lowest idle core of its cluster, its state returns when its next bundle needs its own core, and it goes on
there once the loop engine is free. -/
def Obligations.BlocksStartIssueAndRetire : Prop :=
  (∀ (s : State) (b : Nat) (c : Cmd) (cs : List Cmd) (reg : Word) (sregs : Assoc Word) (frm : BitVec 2) (hkey : Word),
    let k := s.bank b
    let k1 := k.settings (k.cmdq 1)
    let fresh (x : Block) (host : Option Nat) : Prop := x.start = bits reg 9 0 ∧ x.depth = bits reg 18 16 ∧ x.sregs = sregs ∧
      x.frm = frm ∧ x.hkey = hkey ∧ x.pc = c.pc ∧ x.ext = c.ext ∧ x.rst = k1.mblk ∧ x.host = host ∧ x.home = false ∧ x.trapped = false ∧
      (x.depth = 0 → x.phase = .issue ∧ x.idx = x.start ∧
        (k1.mblk ≠ none → x.marked = true ∧ ∀ q, q < 4 → Assoc.get 0 x.hc q = (k.queue q).head))
    let issued (t : State) (host : Option Nat) : Prop := ∃ x, (t.bank b).block = some x ∧ fresh x host ∧
      (t.bank b).cmdq 1 = cs ∧ (t.bank b).mblk = none ∧ (t.bank b).leWait = none ∧ (t.bank b).regs = k.regs ∧
      (∀ e, e ≤ 5 → (t.bank b).tokens? e 1 = k.tokens? e 1 - popsOf c.ext e) ∧ OnlyBankAndTurns b s t
    validBank b = true → k1.cmdq 1 = c :: cs → c.op = .run reg sregs frm hkey → k.leReady = true →
    (∀ r h, k1.mblk = some r → bits r 9 0 < bits reg 9 0 → s.leIdle (b / 2) = true → (s.bank (otherBank b)).backHome = false →
      ((s.bank (otherBank b)).leReady = false ∨ s.turnOf b 1 ≠ b % 2) → h = bits reg 9 0 →
      ∃ t f, exec (.blockStart b) s = .next t ∧ (t.bank b).block = none ∧ (t.bank b).faults = k.faults ++ [f] ∧ f.cls = 9 ∧ f.sub = 2 ∧
        f.eng = 1 ∧ f.prog0 = BitVec.ofNat 64 h ∧ OnlyBankOwing b s t) ∧
    ((∀ r, k1.mblk = some r → bits reg 9 0 ≤ bits r 9 0) →
    (s.leIdle (b / 2) = true → (s.bank (otherBank b)).backHome = false →
      ((s.bank (otherBank b)).leReady = false ∨ s.turnOf b 1 ≠ b % 2) →
      ∃ t, exec (.blockStart b) s = .next t ∧ issued t none) ∧
     ∀ h t0, bits (s.cluster (bankCluster b)).acmode 1 0 = 1 → (s.bank (otherBank b)).holdsLE = true →
      k.leWait = some t0 → t0 + bits (s.cluster (bankCluster b)).acmode 7 4 * 256 ≤ s.counter → k.mayMigrate = true →
      s.migrateTarget b = some h → ∃ t, exec (.blockMigrate b) s = .next t ∧ issued t (some h))) ∧
  (∀ (s : State) (b : Nat) (x : Block), validBank b = true → (s.bank b).block = some x →
    let k := s.bank b
    (x.phase = .issue → x.trapped = false → s.ownsLE b = true → s.tentNear b = false → x.idx ≤ 1023 →
      (∀ r ∈ bundleRows x.idx, r ∉ k.ibad ∧ ∀ t ∈ k.itent, t.1 ≠ r) →
      ∀ v0 v1 m, decodeBundle x.rst.isSome (Assoc.get 0 k.ibuf x.idx) = .ok (v0, v1, m) → x.host = none →
      k.arrayWrites = false → ∀ w0 w1, v0.go s b x = .ok w0 → v1.go s b x = .ok w1 →
      (∀ o, m = some o → ∃ a, o.go s b x = .ok a ∨ o.go s b x = .none) →
      ∃ t, exec (.bundleIssue b) s = .next t ∧ (t.bank b).vregs = ((s.applyAll b (w0 ++ w1)).bank b).vregs ∧
        (t.bank b).queues = ((s.applyAll b (w0 ++ w1)).bank b).queues ∧ t.sram = (s.applyAll b (w0 ++ w1)).sram ∧
        (∀ o a, m = some o → o.go s b x = .ok a → (t.bank b).arr = k.arr ++ [{ a with since := s.counter }]) ∧
        (endsPoint (w0 ++ w1) = false → (t.bank b).block = some { x with idx := x.idx + 1, brk := brkOf (w0 ++ w1) x.brk }) ∧
        (∀ c, c ≠ b → t.bank c = s.bank c) ∧ t.mem = s.mem) ∧
    (∀ from' l q, x.phase = .enter from' l → k.bsrc l = .queue q → x.trapped = false → s.ownsLE b = true →
      let z := k.queue q
      let e := z.slot q z.head
      let v := e.row.toNat % 2 ^ 32
      z.head < z.tail →
      (e.poison = true → ∃ t, exec (.loopBoundPop b) s = .next t ∧ BlockStops s t b x x.first 8 0 ∧
        { t.bank b with block := k.block, faults := k.faults } = k ∧ OnlyBankOwing b s t) ∧
      (e.poison = false → 2 ^ 24 ≤ v → ∃ t, exec (.loopBoundPop b) s = .next t ∧ BlockStops s t b x x.first 9 2 ∧
        (t.bank b).queue q = { z with head := z.head + 1 } ∧ (∀ p, p ≠ q → (t.bank b).queue p = k.queue p) ∧
        { t.bank b with block := k.block, faults := k.faults, queues := k.queues } = k ∧ OnlyBankOwing b s t) ∧
      (e.poison = false → v < 2 ^ 24 → ∃ t y, exec (.loopBoundPop b) s = .next t ∧
        (t.bank b).queue q = { z with head := z.head + 1 } ∧ (t.bank b).block = some y ∧
        (v ≠ 0 → l = 0 → x.rst ≠ none → x.depth = 1 → y.marked = true ∧
          ∀ p, p < 4 → Assoc.get 0 y.hc p = ((t.bank b).queue p).head) ∧
        (v ≠ 0 → x.depth = l + 1 → y.phase = .issue ∧ y.bound l = v ∧ y.idx = x.first ∧ ∀ m, y.ix m = x.ix m) ∧
        (v = 0 → from' = 0 → y.phase = .finished) ∧ (∀ p, p ≠ q → (t.bank b).queue p = k.queue p) ∧ OnlyBankOwing b s t)) ∧
    (∀ q n, k.canReserve q n = true ↔
      (k.queue q).rsv + n ≤ 16 + if x.rst ≠ none ∧ x.marked = true then Assoc.get 0 x.hc q else (k.queue q).head) ∧
    (x.phase = .finished → x.trapped = false → s.ownsLE b = true → k.arr = [] → k.canPush 1 x.ext = true →
      ∃ t, exec (.blockRetire b) s = .next t ∧ (t.bank b).block = none ∧
        (∀ e, e ≤ 5 → (t.bank b).tokens? 1 e = k.tokens? 1 e + if x.ext.push.toNat = e then 1 else 0) ∧
        (∀ n, (t.bank b).cbar n = if x.ext.sig = true ∧ n = x.ext.scb.toNat then
          cbWord (cbTarget (k.cbar n)) (cbCount (k.cbar n) + 1) else k.cbar n) ∧
        { t.bank b with block := k.block, tokens := k.tokens, cb := k.cb } = k ∧ OnlyBankOwing b s t) ∧
    (let back (y : Block) : Prop := ∃ t, exec (.blockMigrateReturn b) s = .next t ∧ (t.bank b).block = some y ∧
       { t.bank b with block := k.block } = k ∧ OnlyBankAndTurns b s t
     (x.host ≠ none → s.wantsHome b x = true → back { x with host := none, home := true }) ∧
     (x.host = none → x.home = true → s.leIdle (b / 2) = true → back { x with home := false }) ∧
     (x.host = none → x.home = true → s.leIdle (b / 2) = false → back x)))

/-! ### Transforms and copies (spec/12) -/

/-- R261, R262, R265 to R267: an `XFORM` outside a slot whose checks pass joins its partition's lane at its engine, or waits
while the lane is full; a failed check is an illegal operand, a range outside its space a row-range trap. The head of a
lane starts when nothing of its partition runs there and its barrier condition holds. A transform that has had its cycles
writes exactly its DN rows, with the poison of the source rows behind each, leaves every other row and all memory as they
were, and adds to its barrier; a copy repeats its source rows, then zeros, and a transpose turns each block of rows. That a lane
has two entries for each partition at each engine (R266 gives 32 entries in all), and that all rows are read and written at the
retirement, is the model's choice (log entry 43). -/
def Obligations.TransformsStartAndRetire : Prop :=
  (∀ (s : State) (x : SXWord),
    let d := s.reg x.d
    let a := s.reg x.a
    let c := s.reg x.b
    let cl := bankCluster s.cur
    let lane := (s.cluster cl).lane (bits c 1 0) s.me.part
    s.me.slot = none → x.ext.push = 7 → x.ext.popa = 7 → x.ext.popb = 7 → x.ext.popc = 7 →
    (xformOk d a c = true → xfRangeOk d = true → xfRangeOk a = true →
      (lane.length < 2 → ∃ t, exec (.xform x) s = .next t ∧
        (t.cluster cl).lanes = (s.cluster cl).lanes ++ [(bits c 1 0,
          { b := s.cur, part := s.me.part, d := d, a := a, c := c, ext := x.ext, served := 0, since := 0 })] ∧
        t.cluster cl = { s.cluster cl with lanes := (t.cluster cl).lanes } ∧ (∀ k, k ≠ cl → t.cluster k = s.cluster k) ∧
        GoesOn 8 s t ∧ OnlyRegs s t ∧ (∀ r, t.reg r = s.reg r) ∧ (∀ b, b ≠ s.cur → t.bank b = s.bank b) ∧
        t.sram = s.sram ∧ SameMemory s t) ∧
      (2 ≤ lane.length → Waits (.xform x) s)) ∧
    (s.me.run = .live → xformOk d a c = false → Traps (.xform x) s 3 0) ∧
    (s.me.run = .live → xformOk d a c = true → ¬(xfRangeOk d = true ∧ xfRangeOk a = true) → Traps (.xform x) s 10 0)) ∧
  (∀ (s : State) (x : SXWord), s.me.slot = none → s.me.run = .live →
    ¬(x.ext.push = 7 ∧ x.ext.popa = 7 ∧ x.ext.popb = 7 ∧ x.ext.popc = 7) → Traps (.xform x) s 3 0) ∧
  (∀ (s : State) (cl eng part : Nat) (x : Xform) (rest : List Xform), validCluster cl = true → eng ≤ 3 → part ≤ 15 →
    (s.cluster cl).lane eng part = x :: rest → Assoc.get none (s.cluster cl).running (eng * 16 + part) = none →
    (s.bank x.b).lanesServed = true → s.packets = [] →
    (x.ext.wt = true → bits ((s.bank x.b).cbar x.ext.wcb.toNat) 63 32 ≤ bits ((s.bank x.b).cbar x.ext.wcb.toNat) 31 0) →
    ∃ t, exec (.transformStart cl eng part) s = .next t ∧
      Assoc.get none (t.cluster cl).running (eng * 16 + part) = some { x with since := s.copyOf (cl / 16) } ∧
      (∀ j, j ≠ eng * 16 + part → Assoc.get none (t.cluster cl).running j = Assoc.get none (s.cluster cl).running j) ∧
      (t.cluster cl).lane eng part = rest ∧ (∀ k, k ≠ cl → t.cluster k = s.cluster k) ∧
      t.banks = s.banks ∧ t.sram = s.sram ∧ t.mem = s.mem) ∧
  (∀ (s : State) (cl eng : Nat) (x : Xform), validCluster cl = true → eng ≤ 3 → x.part ≤ 15 →
    xformOk x.d x.a x.c = true →
    Assoc.get none (s.cluster cl).running (eng * 16 + x.part) = some x → x.needs ≤ x.had (s.xfMask cl x) (s.copyOf (cl / 16)) →
    (∀ p y, p < x.part → Assoc.get none (s.cluster cl).running (eng * 16 + p) = some y →
      y.had (s.xfMask cl y) (s.copyOf (cl / 16)) < y.needs) →
    let out := xformOut (xfOp x.c) (xfSty x.c) (xfDty x.c) (xfCount x.a) (xfCount x.d) fun i => (s.xfCell x i).data
    let to' (i : Nat) : Nat := rowKey x.b (xfCluster x.d) (xfRow x.d + i)
    ∃ t, exec (.transformRetire cl eng) s = .next t ∧
      Assoc.get none (t.cluster cl).running (eng * 16 + x.part) = none ∧
      (∀ i, i < xfCount x.d →
        (t.cell (to' i)).data = (out.getD i { data := 0, from' := [] }).data ∧ (t.cell (to' i)).ptag = ptagOf x.part ∧
        (t.cell (to' i)).poison = (out.getD i { data := 0, from' := [] }).from'.any fun j =>
          decide (j < xfCount x.a) && (s.xfCell x j).poison) ∧
      (∀ k, (∀ i, i < xfCount x.d → k ≠ to' i) → t.cell k = s.cell k) ∧
      (∀ i, i < xfCount x.d → xfOp x.c = 0 → (t.cell (to' i)).data = if i < xfCount x.a then (s.xfCell x i).data else 0) ∧
      (∀ b l c, xfOp x.c = 5 → let w := Sys2Proof.Num.widthOf (xfSty x.c)
        let n := 2048 / w
        l < n → c < n → n * b + l < xfCount x.a →
        Sys2Proof.Num.elem w (t.cell (to' (n * b + l))).data c = Sys2Proof.Num.elem w (s.xfCell x (n * b + c)).data l) ∧
      (∀ i, xfCount x.a ≤ i → i < xfCount x.d → xfOp x.c = 5 → (t.cell (to' i)).data = 0) ∧
      ((x.ext.sig = true → (s.bank x.b).inArea = false) → t.mem = s.mem ∧
        t.bank x.b = if x.ext.sig then (s.bank x.b).cbInc x.ext.scb.toNat 1 else s.bank x.b) ∧
      (∀ b, b ≠ x.b → t.bank b = s.bank b))

/-- R48, R246, R251 to R254: a copy at the head of its queue issues when its pops and barrier allow, the other bank gives
way and its slots and windows are free: it takes its tokens together and reads its layout slots, and starts, stops with a
command fault or goes on with its walks. Its pages pinned, it starts. Each point moves one row once its reads have had their units:
its data, poison, check value and region tag come to the destination row, counted, every other row unchanged; a point skipped writes
nothing; a unit of the instruction buffer moves its three rows together. That a copy moves its next point at each move, in the
order of its points, is the model's choice (log entry 8), as is that no engine of a core reads while an early release within the
core's reach stands out (log entry 71). After its last point, every write performed and its record
appended, it retires: it pushes its token, signals its barrier, and the next command may start. -/
def Obligations.CopiesIssueMoveAndRetire : Prop :=
  (∀ (s : State) (b : Nat) (cmd : Cmd) (rest : List Cmd) (d a ctl i : Word) (caps : List HCap),
    let k := s.bank b
    let r := newCopy k cmd d a ctl i caps
    let o := s.bank (otherBank b)
    validBank b = true → k.served = true → k.copy = none → k.cmdq 2 = cmd :: rest → cmd.op = .engine .cpy d a ctl i caps →
    k.canIssue 2 cmd.ext = true → k.faults = [] → o.copying = false → o.nextCopy = none → s.copyHeld b r = false →
    ∃ t r', exec (.copyStart b) s = .next t ∧ (t.bank b).copy = some r' ∧ (t.bank b).cmdq 2 = rest ∧
      (∀ e, e ≠ 2 → (t.bank b).cmdq e = k.cmdq e) ∧
      (∀ e, e ≤ 5 → (t.bank b).tokens? e 2 = k.tokens? e 2 - popsOf cmd.ext e) ∧
      (∀ e f, f ≠ 2 → e < 8 → f < 8 → (t.bank b).tokens? e f = k.tokens? e f) ∧
      r'.d = d ∧ r'.a = a ∧ r'.b = ctl ∧ r'.c = i ∧ r'.caps = caps ∧ r'.ext = cmd.ext ∧ r'.pc = cmd.pc ∧ r'.n = 0 ∧
      r'.recD = Assoc.get 0 k.layouts (bits d 50 48) ∧ r'.recS = Assoc.get 0 k.layouts (bits a 50 48) ∧
      (r'.started = true → r'.trapped = false) ∧ t.sram = s.sram ∧ t.mem = s.mem ∧ (∀ q, (t.bank b).reg q = k.reg q) ∧
      (r.combOk = true → r.rangeOk = true → s.windowClash b r = false → r.intentFault = none → r.ranges = [] →
        r'.started = true)) ∧
  (∀ (s s1 : State) (b : Nat) (r : CopyRun) (pins : List Pin), validBank b = true → (s.bank b).served = true →
    (s.bank b).copy = some r → r.started = false → r.trapped = false → r.combOk = true → r.rangeOk = true →
    s.windowsFull b r = false → s.windowClash b r = false → r.intentFault = none → s.pinAll b 2 (s.bank b).part r.pins r.ranges = .ok pins s1 →
    ∃ t r', exec (.copyStart b) s = .next t ∧ (t.bank b).copy = some r' ∧ r'.started = true ∧ r'.pins = pins ∧
      r'.trapped = false ∧ t.sram = s.sram ∧ t.mem = s.mem) ∧
  (∀ (s : State) (b : Nat) (r : CopyRun), validBank b = true → (s.bank b).copy = some r → r.trapped = false →
    r.started = true → (s.bank b).served = true → r.mc = false →
    let part := (s.bank b).part
    let lx := pointIx r.recD r.n
    let src := rowSum r.recS (epRow r.a) lx
    let dst := rowSum r.recD (epRow r.d) lx
    let unit (s0 : State) (n : Nat) : Prop :=
      s.engServe b 2 part ((List.range n).flatMap fun j => (s.pointLegs b part r (r.n + j)).1)
        ((List.range n).flatMap fun j => (s.pointLegs b part r (r.n + j)).2) = (true, s0)
    (∀ s0 c p out u s2 s3 n, r.n < pointCount r.recD → recSpace r.recD ≠ 4 → unit s0 1 →
      Toll.point { s := s0, paid := r.paid, i := 0 } b part r r.n = .row c p out u → u.s.copyEgress b c p = .ok s2 →
      s2.writePlace b part r c p = (s3, n) →
      ∃ t, exec (.copyRetire b) s = .next t ∧
        (t.bank b).copy = some { r with n := r.n + 1, count := r.count + 1, skip := r.skip + (if out then 1 else 0), wait := r.wait + n,
                                        poisoned := r.poisoned || c.poison, paid := [] } ∧
        t.sram = s3.sram ∧ t.bulk = s3.bulk ∧ t.mem = s3.mem ∧ (t.bank b).queues = (s3.bank b).queues) ∧
    (∀ s0 u, r.n < pointCount r.recD → recSpace r.recD ≠ 4 → unit s0 1 →
      Toll.point { s := s0, paid := r.paid, i := 0 } b part r r.n = .skip u →
      ∃ t, exec (.copyRetire b) s = .next t ∧
        (t.bank b).copy = some { r with n := r.n + 1, skip := r.skip + 1, paid := [] } ∧ t.sram = u.s.sram ∧ t.mem = u.s.mem ∧
        (t.bank b).queues = if recSpace r.recD = 3 then ((u.s.bank b).fillSlot (epH r.d) (r.base + r.n) 0 false).queues
          else (u.s.bank b).queues) ∧
    (∀ s0 cs out u, r.n < pointCount r.recD → recSpace r.recD = 4 → unit s0 3 →
      Toll.points { s := s0, paid := r.paid, i := 0 } b part r [] 0 3 r.n = .rows cs out u →
      let k := (u.s.bank b).putUnit ((rowSum r.recD (epRow r.d) lx).toNat / 3) cs
      ∃ t, exec (.copyRetire b) s = .next t ∧ (t.bank b).ibuf = k.ibuf ∧ (t.bank b).ibad = k.ibad ∧
        (t.bank b).copy = some { r with n := r.n + 3, count := r.count + (cs.filterMap id).length, skip := r.skip + out, paid := [],
                                        poisoned := r.poisoned || cs.any fun c => (c.map fun x => x.poison).getD false } ∧
        t.sram = u.s.sram ∧ t.mem = u.s.mem) ∧
    (r.n < pointCount r.recD → r.ix = false → (recSpace r.recS = 1 ∨ recSpace r.recS = 2) →
      (recSpace r.recD = 1 ∨ recSpace r.recD = 2) → 0 ≤ src → src < spaceSize (recSpace r.recS) → 0 ≤ dst →
      dst < spaceSize (recSpace r.recD) →
      let from' := s.readCell (rowKey b (recSpace r.recS == 2) src.toNat) part
      let to' := rowKey b (recSpace r.recD == 2) dst.toNat
      from'.tent = 0 → s.earlyOut (.core (b / 2)) = false →
      ∃ t, exec (.copyRetire b) s = .next t ∧
        t.cell to' = { data := from'.data, poison := from'.poison, ptag := ptagOf part, rtag := from'.rtag, tent := 0,
                       chk := from'.chk } ∧
        (∀ j, j ≠ to' → t.cell j = s.cell j) ∧ t.mem = s.mem ∧
        t.bank b = { s.bank b with copy := some { r with n := r.n + 1, count := r.count + 1, paid := [],
                                                         poisoned := r.poisoned || from'.poison } } ∧
        (∀ c, c ≠ b → t.bank c = s.bank c)) ∧
    (pointCount r.recD ≤ r.n → r.wait = 0 → s.tentFor (.copy b) = false → (bit r.b 33 = true → r.recAsked = true) →
      (s.bank b).canPush 2 r.ext = true →
      ∃ t, exec (.copyRetire b) s = .next t ∧ t.bank b = { (s.bank b).retireTok 2 r.ext with copy := none } ∧
        (∀ c, c ≠ b → t.bank c = s.bank c) ∧ (.copyStart b) ∈ t.pending ∧ t.sram = s.sram ∧ t.mem = s.mem) ∧
    (∀ pa limit key, pointCount r.recD ≤ r.n → r.wait = 0 → s.tentFor (.copy b) = false → bit r.b 33 = true →
      r.recAsked = false → r.ring = some (pa, limit, key) →
      ∃ t, exec (.copyRetire b) s = .next t ∧ t.mem = s.mem ∧ t.sram = s.sram ∧
        t.rings = s.rings ++ [{ pa := pa, limit := limit, key := key, part := part, rcd := copyRecord b r, who := .copy b,
                                served := [], no := s.sends + 1 }]))

/-- R257 to R260: point n of a multicast lands at or after cycle START + 8 n of its die's copy of the counter, in one step in every cluster that it names,
with the source row's poison and region tag. An append whose header is clean, in turn and not full, with both lines free of
caches, writes the record with PH 1 - ((WIDX / N) mod 2) and its TIME, then WIDX + 1, and changes no other byte; a ring
whose LOG2N or length is bad gets ERR, and a full ring keeps its append, which goes behind what has arrived at its header since: that
its arrival is counted anew is the model's choice (log entry 51), as is that no engine of a core reads while an early release within
the core's reach stands out (log entry 71). -/
def Obligations.MulticastsLandAndRingsAppend : Prop :=
  (∀ (s : State) (b : Nat) (r : CopyRun), validBank b = true → (s.bank b).copy = some r → r.trapped = false →
    r.started = true → r.mc = true → r.n < pointCount r.recD →
    let part := (s.bank b).part
    let lx := pointIx r.recD r.n
    let src := rowSum r.recS (epRow r.a) lx
    let dst := (rowSum r.recD (epRow r.d) lx).toNat
    let from' := s.readCell (rowKey b (recSpace r.recS == 2) src.toNat) part
    let lands (t : State) (poison : Bool) : Prop := exec (.multicastRowLand b) s = .next t ∧
      (t.bank b).copy = some { r with n := r.n + 1, count := r.count + 1, poisoned := r.poisoned || poison, paid := [] }
    r.c.toNat + 8 * r.n ≤ s.copyOf (b / 256) →
    (∀ s0 c p out u, s.engServe b 2 part (s.pointLegs b part r r.n).1 (s.pointLegs b part r r.n).2 = (true, s0) →
      Toll.point { s := s0, paid := r.paid, i := 0 } b part r r.n = .row c p out u →
      ∃ t, lands t c.poison ∧ t.mem = u.s.mem ∧
        t.sram = ((r.clusters b).foldl (fun z cl => z.landCell (.copy b) part (csramKey cl dst) c) u.s).sram) ∧
    ((recSpace r.recS = 1 ∨ recSpace r.recS = 2) → 0 ≤ src →
    src < spaceSize (recSpace r.recS) → recSpace r.recD = 2 → r.ix = false → 0 ≤ rowSum r.recD (epRow r.d) lx → dst < 32768 →
    from'.tent = 0 → s.earlyOut (.core (b / 2)) = false →
    ∃ t, lands t from'.poison ∧
      (∀ k, k < 13 → Nat.testBit (bits r.b 28 16) k = true →
        t.cell (csramKey (bankDie b * 16 + k) dst) =
          { data := from'.data, poison := from'.poison, ptag := ptagOf part, rtag := from'.rtag, tent := 0, chk := from'.chk }) ∧
      (∀ j, (∀ k, k < 13 → Nat.testBit (bits r.b 28 16) k = true → j ≠ csramKey (bankDie b * 16 + k) dst) →
        t.cell j = s.cell j) ∧
      (∀ c, c ≠ b → t.bank c = s.bank c) ∧ t.mem = s.mem)) ∧
  (∀ (s : State) (i : Nat) (x : RingReq), s.rings[i]? = some x → isCached x.pa = true → x.pa % 64 = 0 → x.served = [] →
    s.refuses x.pa = false → s.packets = [] → s.ahead (s.arrNum x.arr) [x.pa / 64] = false →
    s.burstWaits x.who.cause x.pa = false → x.arr ≠ 0 ∨ s.arrives (s.ringFoot x) = true →
    s.isRefused x.who.src (homeOf x.pa) .request = false →
    (s.rings.take i).all (fun y => y.pa != x.pa) = true →
    (∀ a, s.frameOf a = a) → (s.rowMeta (x.pa / 256)).poison = false → s.keyFits x.pa x.key = true →
    (s.dir (x.pa / 64)).owner = none → (s.dir (x.pa / 64)).sharers = [] → (s.dir (x.pa / 64)).busy = none →
    let h := leNat (s.bytes x.pa 64)
    let lg := h % 32
    let n := 2 ^ lg
    let widx := h / 2 ^ 64 % 2 ^ 32
    let ridx := h / 2 ^ 96 % 2 ^ 32
    let bad := lg = 0 ∨ 16 < lg ∨ x.limit < x.pa + 64 + 32 * n
    let full := n ≤ (widx + 2 ^ 32 - ridx) % 2 ^ 32
    let at0 := x.pa + 64 + 32 * (widx % n)
    let rcd := if bits x.rcd 95 92 < 3 ∨ 5 < bits x.rcd 95 92 then setBits x.rcd 255 192 s.counter else x.rcd
    (¬ bad → ¬ full → isCached at0 = true → (s.dir (at0 / 64)).owner = none → (s.dir (at0 / 64)).sharers = [] →
      (s.dir (at0 / 64)).busy = none →
      ∃ t, exec (.completionRecordAppend i) s = .next t ∧ t.rings = s.rings.eraseIdx i ∧
        t.bytes at0 32 = natLE 32 (setBits rcd 0 0 (1 - widx / n % 2)).toNat ∧
        t.bytes (x.pa + 8) 4 = natLE 4 ((widx + 1) % 2 ^ 32) ∧
        (∀ a, ¬(at0 ≤ a ∧ a < at0 + 32) → ¬(x.pa + 8 ≤ a ∧ a < x.pa + 12) → t.byte a = s.byte a) ∧ t.sram = s.sram) ∧
    (bad → ∃ t, exec (.completionRecordAppend i) s = .next t ∧ t.rings = s.rings.eraseIdx i ∧
      t.byte x.pa = s.byte x.pa ||| 32 ∧ (∀ a, a ≠ x.pa → t.byte a = s.byte a) ∧ t.sram = s.sram) ∧
    (¬ bad → full → ∃ t, exec (.completionRecordAppend i) s = .next t ∧
      t.rings = s.rings.set i { x with arr := t.arrivals } ∧ s.arrivals < t.arrivals ∧
      (.completionRecordAppend i) ∈ t.pending ∧ SameMemory s t ∧ t.sram = s.sram))

/-! ### The sheaf store, the gleaner port and the collective port (spec/09, spec/14, spec/15) -/

/-- R281, R282, R286, R296, R298 to R303, R309: the walker takes the command at the head of its queue with its pops. At its home,
its pages pinned and its units started, `SQOPEN` makes a sequence of empty layers with the fields of its task's image and writes
its info record, as `SQINFO` does of a sequence and holds its sheaves; `SQFORK` makes a child that shares every sheaf of the
prefix, one reference more each; `SQTRUNC` cuts every layer to P and gives the references past it up; `SQPARK` takes the
continuation record and the key; `SQCLOSE` gives every reference up and frees the index; a `SQWAKE` with the key starts a
parked sequence; `SQAPP` writes each token's elements, a BF16 store's exactly as its source rows have them; an `ATTNS`
takes its snapshot. A changing command adds 1 to GEN; that a `SQWAKE` does so only where it starts a wake is the model's choice (log
entry 55). A changing command behind another waits its turn. A stream delivers one sheaf of STRIDE rows at a time in a slot of its
partition, zeros where the sheaf does not exist; a command with nothing outstanding pushes its token, signals and is gone. A
relocation step moves sixteen entries of a doubling table and changes what no index names. -/
def Obligations.WalkerCommandsAreServedAtTheirHome : Prop :=
  (∀ (s : State) (b : Nat) (walker : Bool) (cmd : Cmd) (rest : List Cmd) (op : EngOp) (d a b' c : Word) (caps : List HCap),
    let e := if walker then 3 else 4
    let k := s.bank b
    let o := s.bank (otherBank b)
    validBank b = true → k.served = true → k.eng e = none → k.cmdq e = cmd :: rest → cmd.op = .engine op d a b' c caps →
    k.canIssue e cmd.ext = true → k.faults = [] → o.engBusy e = false → o.nextEng e = none → s.packets = [] →
    ∃ t r, exec (.sheafCommandAccept b walker) s = .next t ∧ (t.bank b).eng e = some r ∧ r.op = op ∧ r.d = d ∧ r.a = a ∧
      r.b = b' ∧ r.c = c ∧ r.pc = cmd.pc ∧ r.ext = cmd.ext ∧ (t.bank b).cmdq e = rest ∧
      (∀ f, f ≤ 5 → (t.bank b).tokens? f e = k.tokens? f e - popsOf cmd.ext f) ∧ (∀ q, (t.bank b).reg q = k.reg q)) ∧
  (∀ (s u : State) (b : Nat) (r : EngRun) (pins : List Pin) (held : List Nat), validBank b = true →
    (s.bank b).eng 3 = some r → r.accepted = false → r.fault = none → (s.bank b).engGoes r = true → s.packets = [] →
    Reaches s b r pins held u →
    let done := { r with pins := pins, accepted := true, places := none, pinning := false, sent := false,
                         qbad := held != [] || r.qbad }
    let served (t : State) : Prop := exec (.sheafCommandAccept b true) s = .next t ∧ t.mem = u.mem ∧ t.sram = u.sram ∧
      (t.bank b).eng 3 = some done
    (∀ l i s1, r.op = .sqopen → u.taskLaunch b = some l → hdr l.fixed 450 443 ≠ 0 →
      (hdr l.fixed 471 464 = 0 → bits l.rcd 319 312 ≠ 0) → u.takeIndex (bankDie b) = some (i, s1) →
      let h := bankDie b * 2 ^ 14 + i
      ∃ t q, exec (.sheafCommandAccept b true) s = .next t ∧ t.seq h = some q ∧ (∀ j, j ≠ h → t.seq j = u.seq j) ∧
        t.sheaves = u.sheaves ∧ q.part = (u.bank b).part ∧ q.toklog = hdr l.fixed 442 440 ∧ q.heads = hdr l.fixed 450 443 ∧
        q.hdim = hdr l.fixed 459 451 + 1 ∧ q.stype = hdr l.fixed 463 460 ∧
        q.layers = (if hdr l.fixed 471 464 = 0 then bits l.rcd 319 312 else hdr l.fixed 471 464) ∧ q.cls = bits r.a 5 4 ∧
        q.sstate = 0 ∧ q.gen = 0 ∧ q.wakeign = 0 ∧ q.waiters = [] ∧ q.contSheaf = 0 ∧
        (∀ k, k < q.layers → (q.layer k).len = 0 ∧ (q.layer k).caplog = bits r.a 3 0 ∧ ∀ n, (q.layer k).entry n = none) ∧
        (t.die (bankDie b)).seqNext = (s1.die (bankDie b)).seqNext ∧ (t.die (bankDie b)).seqFree = (s1.die (bankDie b)).seqFree ∧
        Records u t b done (t.infoRecord h q 0)) ∧
    (∀ q, r.op = .sqinfo → u.mySeq b r.a = some q → bits r.a 55 48 < q.layers →
      u.badEntry q (bits r.a 55 48) 0 (2 ^ 24) = false →
      let x := q.layer (bits r.a 55 48)
      ∃ t r', exec (.sheafCommandAccept b true) s = .next t ∧ t.seqs = u.seqs ∧
        (∀ id, t.sheaf id = tookHolds u.reftime ((((x.list q.t).filter fun p => decide (p.1 < 2 ^ 24)).map fun p => p.2).count id)
          (u.sheaf id)) ∧
        r'.accepted = true ∧ r'.op = r.op ∧ r'.d = r.d ∧ r'.pins = pins ∧ r'.caps = r.caps ∧ r'.ext = r.ext ∧
        Records u t b r' (u.infoRecord (bits r.a 23 0) q (bits r.a 55 48))) ∧
    (∀ q i s1, r.op = .sqfork → u.mySeq b r.a = some q → q.sstate ≠ 2 → q.turn b = true →
      (∀ l, l < q.layers → bits r.b 23 0 ≤ (q.layer l).len) → u.takeIndex (seqDie (bits r.a 23 0)) = some (i, s1) →
      let h := bits r.a 23 0
      let h' := seqDie h * 2 ^ 14 + i
      u.seq h' = none →
      ∃ t c, exec (.sheafCommandAccept b true) s = .next t ∧ t.seq h' = some c ∧
        c = { q with cls := if q.sstate = 1 then 1 else q.cls, pcls := c.pcls, sstate := 0, cont := 0, contSheaf := 0, wkey := 0,
                     gen := 0, wakeign := 0, tabs := c.tabs, waiters := [] } ∧
        (∀ l, l < q.layers → (c.layer l).len = bits r.b 23 0 ∧ (c.layer l).caplog = (q.layer l).caplog ∧
          ∀ n, (c.layer l).entry n = if n * q.t < bits r.b 23 0 then (q.layer l).entry n else none) ∧
        t.seq h = some { q with gen := (q.gen + 1) % 2 ^ 32, waiters := q.waiters.filter fun x => x != b } ∧
        (∀ j, j ≠ h → j ≠ h' → t.seq j = u.seq j) ∧
        (∀ id, t.sheaf id = (u.sheaf id).map fun x => { x with refs := x.refs + c.names.count id }) ∧
        (t.die (seqDie h)).seqNext = (s1.die (seqDie h)).seqNext ∧ (t.die (seqDie h)).seqFree = (s1.die (seqDie h)).seqFree ∧
        Records u t b done (t.infoRecord h' c 0)) ∧
    (∀ q, u.mySeq b r.d = some q →
      let h := bits r.d 23 0
      (r.op = .sqtrunc → q.sstate ≠ 2 → q.turn b = true →
        let p := bits r.a 23 0
        ∃ t q', served t ∧ t.seq h = some q' ∧ (∀ j, j ≠ h → t.seq j = u.seq j) ∧
          q' = { q with gen := (q.gen + 1) % 2 ^ 32, waiters := q.waiters.filter fun x => x != b, tabs := q'.tabs } ∧
          (∀ l, l < q.layers → (q'.layer l).len = min (q.layer l).len p ∧ ∀ i, (q'.layer l).entry i =
            if p ≤ i * q.t ∧ i * q.t < (q.layer l).len then none else (q.layer l).entry i) ∧
          (∀ l, q.layers ≤ l → q'.layer l = q.layer l) ∧
          (∀ id, t.sheaf id = gaveUp (u.sheaf id) (((List.range q.layers).flatMap fun l =>
            (((q.layer l).list q.t).filter fun y => decide (p ≤ y.1 * q.t)).map fun y => y.2).count id))) ∧
      (r.op = .sqclose → q.sstate ≠ 2 → q.turn b = true →
        ∃ t, served t ∧ t.seq h = none ∧ (∀ j, j ≠ h → t.seq j = u.seq j) ∧
          (t.die (seqDie h)).seqFree = (u.die (seqDie h)).seqFree ++ [h % 2 ^ 14] ∧
          (∀ id, t.sheaf id = gaveUp (u.sheaf id) (q.names.count id))) ∧
      (∀ x, r.op = .sqpark → q.sstate ≠ 1 → q.sstate ≠ 2 → q.turn b = true → done.qbad = false →
        x = (u.readPinned pins (refVa r r.a) 64).1 → x.poison = false →
        let id := u.sheafNext
        ∃ t y, exec (.sheafCommandAccept b true) s = .next t ∧ t.sram = u.sram ∧ (t.bank b).eng 3 = some done ∧
          t.seq h = some { q with pcls := q.cls, cls := 3, sstate := 1, wkey := r.b.setWidth 32,
                                  cont := BitVec.ofNat 512 (leNat x.data), contSheaf := id + 1, gen := (q.gen + 1) % 2 ^ 32,
                                  waiters := q.waiters.filter fun x => x != b } ∧
          (∀ j, j ≠ h → t.seq j = u.seq j) ∧ t.sheafNext = id + 1 ∧ t.sheaf id = some y ∧ y.st = .resident ∧ y.tier = 0 ∧
          y.refs = 1 ∧ y.holds = 0 ∧ y.owner = h ∧ y.t = 0 ∧
          (∀ j, j ≠ id → t.sheaf j = (gaveUp (u.sheaf j) (if q.contSheaf = j + 1 then 1 else 0)).map fun z =>
            if j ∈ Seq.names { q with contSheaf := 0 } then { z with age := u.reftime } else z)) ∧
      (r.op = .sqwake → q.turn b = true → ∃ t, served t ∧ (∀ j, j ≠ h → t.seq j = u.seq j) ∧ t.sheaves = u.sheaves ∧
        t.seq h = if q.sstate = 1 ∧ r.a.setWidth 32 = q.wkey then
            some { q with sstate := 2, gen := (q.gen + 1) % 2 ^ 32, waiters := q.waiters.filter fun x => x != b }
          else some { q with wakeign := (q.wakeign + 1) % 2 ^ 32, waiters := q.waiters.filter fun x => x != b }) ∧
      ((r.op = .sqwake ∧ q.turn b = false) ∨ ((r.op = .sqtrunc ∨ r.op = .sqclose) ∧ (q.sstate = 2 ∨ q.turn b = false)) →
        ∃ t, exec (.sheafCommandAccept b true) s = .next t ∧ (.sheafCommandAccept b true) ∈ t.pending ∧
          t.seq h = some { q with waiters := if b ∈ q.waiters then q.waiters else q.waiters ++ [b] } ∧
          (t.bank b).eng 3 = some { r with pins := pins, pinning := false, sent := true, qbad := held != [] || r.qbad } ∧
          (∀ j, j ≠ h → t.seq j = u.seq j) ∧ t.sheaves = u.sheaves ∧ t.mem = u.mem ∧ t.sram = u.sram) ∧
      (r.op = .sqapp → q.sstate ≠ 1 → q.sstate ≠ 2 → q.turn b = true → appRangeOk (some q) r.a r.b = true →
        let l := bits r.d 55 48
        let n := bits r.b 23 0
        let x := q.layer l
        let p := x.len
        let src := tokenRows n q.e
        let row (base k : Nat) : Row := (u.appRow b (u.bank b).part r.a base (k / 128)).data
        l < q.layers → 1 ≤ n → p + n < 2 ^ 24 → 0 < q.e → q.fmt = 0 →
        ((∀ g ∈ (u.appTags b (u.bank b).part r.a src).drop r.qout, bit g 23 = false) ∨
          u.pullPort (bankDie b) (seqDie h) = none) →
        (r.places ≠ none ∨ (u.badEntry q l (p / q.t) 1 = false ∧ u.setAside q h l p n ≠ none)) →
        (∀ id y, u.joins q x = some (id, y) → y.st = .resident ∧ y.index = p / q.t ∧ y.t = q.t ∧ y.e = q.e) →
        (p + n - 1) / q.t < 2 ^ x.caplog → (∀ j, u.sheafNext ≤ j → u.sheaf j = none) →
        ∃ t q', served t ∧ t.seq h = some q' ∧ (∀ j, j ≠ h → t.seq j = u.seq j) ∧
          q' = { q with gen := (q.gen + 1) % 2 ^ 32, waiters := q.waiters.filter fun x => x != b, tabs := q'.tabs } ∧
          (∀ k, k ≠ l → q'.layer k = q.layer k) ∧ (q'.layer l).len = p + n ∧ (q'.layer l).caplog = x.caplog ∧
          (∀ i, i * q.t + q.t ≤ p → (q'.layer l).entry i = x.entry i) ∧
          (∀ id, id < u.sheafNext → (∀ y, u.joins q x ≠ some (id, y)) → t.sheaf id = u.sheaf id) ∧
          (∀ pos d, p ≤ pos → pos < p + n → d < q.e → ∃ id y, (q'.layer l).entry (pos / q.t) = some id ∧ t.sheaf id = some y ∧
            y.fmt = 0 ∧ y.index = pos / q.t ∧ y.nvalid = min q.t (p + n - pos / q.t * q.t) ∧ y.chk = y.headCrc ∧
            let k := (pos - p) * q.e + d
            y.code (pos % q.t * q.e + d) = Sys2Proof.Num.elem 16 (row (bits r.a 15 0) k) (k % 128) ∧
            y.code (q.t * q.e + pos % q.t * q.e + d) = Sys2Proof.Num.elem 16 (row (bits r.a 31 16) k) (k % 128)) ∧
          (∀ id0 y0 pos d, u.joins q x = some (id0, y0) → pos / q.t = p / q.t → pos < p → d < q.e →
            ∃ id y, (q'.layer l).entry (p / q.t) = some id ∧ t.sheaf id = some y ∧
              y.code (pos % q.t * q.e + d) = y0.bf16Code (pos % q.t * q.e + d) ∧
              y.code (q.t * q.e + pos % q.t * q.e + d) = y0.bf16Code (q.t * q.e + pos % q.t * q.e + d))) ∧
      (r.op = .attns → bits r.d 55 48 < q.layers → u.badEntry q (bits r.d 55 48) (bits r.b 23 0) (bits r.b 47 24) = false →
        let x := q.layer (bits r.d 55 48)
        let read := ((x.list q.t).filter fun p => decide (bits r.b 23 0 ≤ p.1 ∧ p.1 < bits r.b 23 0 + bits r.b 47 24)).map fun p => p.2
        ∃ t r', exec (.sheafCommandAccept b true) s = .next t ∧ (t.bank b).eng 3 = some r' ∧ r'.accepted = true ∧
          r'.len = x.len ∧ t.seqs = u.seqs ∧ t.mem = u.mem ∧ t.sram = u.sram ∧
          (∀ id, t.sheaf id = tookHolds u.reftime (read.count id) (u.sheaf id)) ∧
          (∀ i id y, bits r.b 23 0 ≤ i → i < bits r.b 23 0 + bits r.b 47 24 → i * q.t < x.len → x.entry i = some id →
            u.sheaf id = some y → (i, id, y.resolved) ∈ r'.held)))) ∧
  (∀ (s : State) (b : Nat) (r : EngRun), validBank b = true → (s.bank b).eng 3 = some r → r.accepted = true →
    (s.bank b).engGoes r = true →
    (r.op = .attns → r.k < bits r.b 47 24 →
      let rows := streamRows r r.k
      let home := seqDie (bits r.d 23 0)
      let to' (i : Nat) : Nat := rowKey b (bit r.a 32) (bits r.a 15 0 + r.k * bits r.a 31 16 + i)
      let far := r.qout = 0 ∧ ∃ y, r.held.find? (fun y => y.1 == bits r.b 23 0 + r.k) = some y ∧ 2 ≤ y.2.2.tier
      ∀ s0 s2, (¬ far → s0 = s) → (far → s0 = s.tickFree ∧ Config.mediaError s0.free = false) →
      s0.engServe b 3 ((s.bank b).part % 16) [] (.home home :: s0.wayTo .response home (bankDie b)) = (true, s2) →
      ((rows.all fun y => !(bit y.2.2 23)) = true ∨ s0.pullPort home (bankDie b) = none) →
      ∃ t, exec (.walkerRetire b) s = .next t ∧ (t.bank b).eng 3 = some { r with k := r.k + 1, qout := 0 } ∧
        (∀ i, i < bits r.a 31 16 → (t.cell (to' i)).ptag = ptagOf (s.bank b).part ∧
          (t.cell (to' i)).data = (rows.getD i (0, false, 0)).1 ∧ (t.cell (to' i)).poison = (rows.getD i (0, false, 0)).2.1) ∧
        (∀ i, i < bits r.a 31 16 → (r.held.all fun y => y.1 != bits r.b 23 0 + r.k) = true → (t.cell (to' i)).data = 0) ∧
        (∀ j, (∀ i, i < bits r.a 31 16 → j ≠ to' i) → t.cell j = s.cell j) ∧ t.mem = s.mem) ∧
    ((r.op = .attns → bits r.b 47 24 ≤ r.k) → r.wait = 0 → s.tentFor (.eng b 3) = false →
      (s.bank b).canPush 3 r.ext = true →
      ∃ t, exec (.walkerRetire b) s = .next t ∧ t.bank b = ((s.bank b).retireTok 3 r.ext).setEng 3 none ∧
        (∀ c, c ≠ b → t.bank c = s.bank c) ∧ t.seqs = s.seqs ∧ t.mem = s.mem ∧ t.sram = s.sram)) ∧
  (∀ (s : State) (h l m : Nat) (q : Seq) (new : Assoc Nat), s.seq h = some q → (q.layer l).moved = some (m, new) →
    s.inSlot (seqDie h) (q.part % 16) = true → ∃ t q', exec (.slabRelocationStep h l) s = .next t ∧ t.seq h = some q' ∧ (∀ j, j ≠ h → t.seq j = s.seq j) ∧
      (∀ i, (q'.layer l).entry i = (q.layer l).entry i) ∧ (q'.layer l).len = (q.layer l).len ∧
      (if 2 ^ ((q.layer l).caplog - 1) ≤ m + 16 then (q'.layer l).moved = none
       else ∃ n, (q'.layer l).moved = some (m + 16, n)) ∧
      (∀ j, j ≠ l → q'.layer j = q.layer j) ∧ t.banks = s.banks ∧ t.sheaves = s.sheaves ∧ t.mem = s.mem)

/-- R288 to R293, R302 to R304, R315: a wake write that comes from outside, or that arrives from the bank or the host that sent it
(then its store is performed), starts with the key a parked sequence and is counted as ignored otherwise; with
its stage 1 sheaves resident the class returns and the continuation record joins the launch queue; with none outside T0 the
sequence is open. A sheaf at its age threshold starts to demote: from T1 or T2 to T3, from T0 to T2 where its class lends
no frames. A move's location, tier and format switch together. A grant between dies one hop apart adds its frames; a recall
takes the grant and sends every lent sheaf of the borrower towards T2. -/
def Obligations.SequencesWakeAndSheavesMove : Prop :=
  (∀ (s : State) (h : Nat) (q : Seq), s.seq h = some q →
    (∀ (v : Word) (s1 : State),
      (s.findWin true h v = none ∧ s1 = s ∨
        ∃ i w, s.findWin true h v = some (i, w) ∧ s.hostAhead w = false ∧ s.arrives (s.winFoot w) = true ∧
          s1 = ({ s with winWrites := s.winWrites.eraseIdx i } : State).ackWin w) →
      ∃ t, exec (.wakeWrite h v) s = .next t ∧ (∀ j, j ≠ h → t.seq j = s.seq j) ∧ t.sheaves = s.sheaves ∧
        t.banks = s1.banks ∧ t.winWrites = s1.winWrites ∧ t.mem = s.mem ∧
        t.seq h = if q.sstate = 1 ∧ v.setWidth 32 = q.wkey then some { q with sstate := 2 }
          else some { q with wakeign := (q.wakeign + 1) % 2 ^ 32 }) ∧
    (∀ (v : Word) i w, s.findWin true h v = some (i, w) → s.hostAhead w = true ∨ s.arrives (s.winFoot w) = false →
      ∃ t, exec (.wakeWrite h v) s = .next t ∧ .wakeWrite h v ∈ t.pending ∧ t.seqs = s.seqs ∧ t.sheaves = s.sheaves ∧
        t.banks = s.banks ∧ t.winWrites.length = s.winWrites.length) ∧
    (q.sstate = 2 → (q.stage1.all fun id => s.inT0 id) = true → (s.die (seqDie h)).launchq.length < 64 →
      s.hostWrites = false →
      ∃ t, exec (.wakeStage1End h) s = .next t ∧ t.seq h = some { q with sstate := 3, cls := q.pcls } ∧
        (∀ j, j ≠ h → t.seq j = s.seq j) ∧ t.sheaves = s.sheaves ∧
        (t.die (seqDie h)).launchq = (s.die (seqDie h)).launchq ++ [(mkBank (seqDie h) 127 0, q.part, q.cont)] ∧
        (.launchProcess (seqDie h)) ∈ t.pending ∧ (.wakeStage2End h) ∈ t.pending) ∧
    (q.sstate = 3 → (q.stage2.all fun id => s.inT0 id) = true →
      ∃ t, exec (.wakeStage2End h) s = .next t ∧ t.seq h = some { q with sstate := 0 } ∧
        (∀ j, j ≠ h → t.seq j = s.seq j) ∧ t.sheaves = s.sheaves ∧ t.banks = s.banks) ∧
    (q.sstate = 3 → ∀ id x, q.stage2.find? (fun id => !s.inT0 id) = some id → s.sheaf id = some x →
      (x.st = .lent ∨ x.st = .demoted) →
      ∃ t, exec (.wakeStage2End h) s = .next t ∧ t.seqs = s.seqs ∧
        t.sheaf id = some { x with st := .promoting, target := 0, tfmt := x.fmt, out := 0, failed := false } ∧
        (∀ j, j ≠ id → t.sheaf j = s.sheaf j) ∧ (.sheafMoveComplete id) ∈ t.pending)) ∧
  (∀ (s : State) (id : Nat) (x : Sheaf), s.sheaf id = some x →
    (s.ageReached id x = true →
      (x.tier ≠ 0 → ∃ t y, exec (.sheafAgeThreshold id) s = .next t ∧ t.sheaf id = some y ∧ y.st = .demoting ∧
        y.target = 3 ∧ y.rows = x.rows ∧ y.fmt = x.fmt ∧ y.tier = x.tier ∧ (∀ j, j ≠ id → t.sheaf j = s.sheaf j)) ∧
      (x.tier = 0 → bit (s.sqcls (seqDie x.owner) (s.sheafClass id)) 0 = false →
        ∃ t y, exec (.sheafAgeThreshold id) s = .next t ∧ t.sheaf id = some y ∧ y.st = .demoting ∧ y.target = 2 ∧
          y.rows = x.rows ∧ y.fmt = x.fmt ∧ y.tier = x.tier ∧ (∀ j, j ≠ id → t.sheaf j = s.sheaf j))) ∧
    (x.st = .promoting → 2 ≤ x.tier → s.mayMove x = true → (x.target = 3 → s.flashFits x.size = true) →
      Config.mediaError s.free = true →
      ∃ t, exec (.sheafMoveComplete id) s = .next t ∧ t.sheaf id = some { x with st := .demoted, wantT0 := false, failed := true } ∧
        (∀ j, j ≠ id → t.sheaf j = s.sheaf j) ∧ t.seqs = s.seqs ∧ t.mem = s.mem) ∧
    ((x.st = .demoting ∨ x.st = .promoting) → s.mayMove x = true → (x.target = 3 → s.flashFits x.size = true) → x.wantT0 = false →
      (x.st = .promoting → 2 ≤ x.tier → Config.mediaError s.free = false) →
      (s.movePort x (s.newLoc x.target (if x.target = 1 then x.lender else seqDie x.owner)) = none ∨
        ∀ i, i < x.size → bit (x.tag i) 23 = false) →
      ∃ t y, exec (.sheafMoveComplete id) s = .next t ∧ t.sheaf id = some y ∧ (∀ j, j ≠ id → t.sheaf j = s.sheaf j) ∧
        y.tier = x.target ∧ y.age = s.reftime ∧ y.refs = x.refs ∧ y.holds = x.holds ∧ y.chk = y.headCrc ∧
        (x.target ≤ 1 → y.loc / 2 ^ 29 = if x.target = 1 then x.lender else seqDie x.owner) ∧
        y.olds = (if x.holds = 0 then x.olds else { nth := x.moves, tier := x.tier, loc := x.loc, lender := x.lender,
                                                     recalled := x.recalled, holds := x.holds, rows := x.size } :: x.olds) ∧
        y.st = (if x.target = 0 then .resident else if x.target = 1 then .lent else .demoted) ∧
        (x.tfmt = x.fmt → y.fmt = x.fmt ∧ y.rows = x.rows ∧ y.scales = x.scales ∧ y.bad = x.bad) ∧
        (x.tfmt ≠ x.fmt → (x.tfmt = 1 ∨ x.tfmt = 2) → y.fmt = x.tfmt ∧ y.rows = (x.requant x.tfmt).rows ∧
          y.scales = (x.requant x.tfmt).scales) ∧ t.seqs = s.seqs ∧ t.mem = s.mem)) ∧
  (∀ (s : State) (l d n : Nat), validDie l = true → validDie d = true →
    (s.oneHop l d = false → exec (.lendGrant l d n) s = .next s) ∧
    ((s.lendServe l d).1 = false → ∀ i, i = .lendRecall l d ∨ (i = .lendGrant l d n ∧ s.oneHop l d = true) →
      ∃ t, exec i s = .next t ∧ { t with passed := s.passed } = s) ∧
    (s.oneHop l d = true → (s.lendServe l d).1 = true → ∃ t, exec (.lendGrant l d n) s = .next t ∧
      Assoc.get 0 t.modul.grants (l * 1024 + d) = Assoc.get 0 s.modul.grants (l * 1024 + d) + n ∧
      (∀ j, j ≠ l * 1024 + d → Assoc.get 0 t.modul.grants j = Assoc.get 0 s.modul.grants j) ∧
      { t with modul := { t.modul with grants := s.modul.grants }, passed := s.passed } = s) ∧
    ((s.lendServe l d).1 = true → ∃ t, exec (.lendRecall l d) s = .next t ∧
      Assoc.get 0 t.modul.grants (l * 1024 + d) = 0 ∧ t.seqs = s.seqs ∧ t.mem = s.mem ∧
      (∀ b e, e ≠ 3 → (t.bank b).eng e = (s.bank b).eng e) ∧
      (∀ b r, (s.bank b).eng 3 = some r → seqDie (bits r.d 23 0) ≠ d → (t.bank b).eng 3 = some r) ∧
      (∀ b r, (s.bank b).eng 3 = some r → seqDie (bits r.d 23 0) = d → (t.bank b).eng 3 =
        some { r with places := r.places.map fun ps => ps.map fun p => if p = (1, l) then (2, 0) else p }) ∧
      (∀ id x, s.sheaf id = some x → x.lender = l → seqDie x.owner = d →
        (x.st = .lent → ∃ y, t.sheaf id = some y ∧ y.st = .demoting ∧ y.target = 2 ∧ y.recalled = true ∧ y.rows = x.rows) ∧
        (x.st = .demoting → (x.tier = 1 ∨ x.target = 1) →
          ∃ y, t.sheaf id = some y ∧ y.target = 2 ∧ y.recalled = true ∧ y.rows = x.rows)) ∧
      (∀ id x, s.sheaf id = some x → seqDie x.owner = d → x.lender ≠ l → t.sheaf id = some (x.recallOlds l)) ∧
      (∀ id, (∀ x, s.sheaf id = some x → seqDie x.owner ≠ d) → t.sheaf id = s.sheaf id)))

/-- R186, R306 to R311: the gleaner port adds one block of at most 64 tokens of the present range to its triples, and with the
range's last block asks for its rows to be written; a block of a sheaf in T2 or T3 is taken from the staging window of its
gleaner; a range or bag whose rows are performed is done; an `RDX` adds one table entry to the present bag, writes a bag's rows
with its last, and stops with bad record at offsets that fall; with every range or bag done the status row is written, and
once it is performed the command pushes its token, signals and is gone. -/
def Obligations.GleanerCommandsProgressAndRetire : Prop :=
  ∀ (s : State) (b : Nat) (r : EngRun), validBank b = true → (s.bank b).eng 4 = some r → r.accepted = true →
    r.trapped = false → r.fault = none → (s.bank b).engGoes r = true → r.pins ≠ [] → r.pinning = false →
    let s0 := s.putEng b 4 r
    let ends (i : Instr) : Prop := ∃ t, exec i s = .next t ∧ t.bank b = ((s.bank b).retireTok 4 r.ext).setEng 4 none ∧
      (∀ c, c ≠ b → t.bank c = s.bank c) ∧ t.seqs = s.seqs ∧ t.mem = s.mem ∧ t.sram = s.sram
    (r.op = .attnd →
      (r.sent = false → r.k < r.ranges →
        let lo := (r.span r.k).1
        let hi := (r.span r.k).2
        let pos := lo + r.tok
        let n := min 64 (hi - pos)
        let die := r.blockDie s0 b
        (s0.engServe b 4 ((s.bank b).part % 16) [] (s0.blockLegs b die)).1 = true → s0.blockWaits b die = false →
        (r.tok = 0 → (∃ y ∈ r.held, lo / r.t ≤ y.1 ∧ y.1 ≤ (hi - 1) / r.t ∧ 2 ≤ y.2.2.tier) → Config.mediaError s.free = false) →
        (pos + n < hi → ∃ t g, exec (.gleanerBlock b) s = .next t ∧
          (t.bank b).eng 4 = some { r with acc := r.afterBlock pos n, tok := r.tok + n, gleaner := g } ∧
          (∀ y, r.sheafAt pos = some y → g / 16 = y.stack) ∧
          (∀ y, r.sheafAt pos = some y → 2 ≤ y.tier → y.size ≤ 512 → ∀ i, i < y.size →
            (Assoc.get RowCell.zero t.glSram ((32 * die + g) * 512 + i)).data = if i = 0 then y.header else y.row (i - 1)) ∧
          ((∀ y, r.sheafAt pos = some y → y.tier < 2) → t.glSram = s.glSram) ∧
          (∀ c, c ≠ b → t.bank c = s.bank c) ∧ t.mem = s.mem ∧ t.sram = s.sram) ∧
        (hi ≤ pos + n → ∃ t r', exec (.gleanerBlock b) s = .next t ∧ (t.bank b).eng 4 = some r' ∧ r'.sent = true ∧
          r'.acc = [] ∧ r'.tok = 0 ∧ r'.k = r.k ∧ r'.done = r.done ∧ (.attndRetire b) ∈ t.pending)) ∧
      (r.sent = true → r.wait = 0 → r.k < r.ranges → ∃ t, exec (.attndRetire b) s = .next t ∧
        (t.bank b).eng 4 = some { r with done := r.done ||| BitVec.ofNat 1024 (2 ^ r.k), k := r.k + 1, sent := false } ∧
        (∀ c, c ≠ b → t.bank c = s.bank c) ∧ t.mem = s.mem ∧ t.sram = s.sram) ∧
      (r.sent = true → r.wait = 0 → r.ranges ≤ r.k → s.tentFor (.eng b 4) = false → (s.bank b).canPush 4 r.ext = true →
        ends (.attndRetire b)) ∧
      (∀ w y, r.sent = false → r.wait = 0 → r.ranges ≤ r.k → s.putStatus b r (if r.poisoned = true then 1 else 0) = (w, y) →
        exec (.attndRetire b) s = .next ((w.putEng b 4 { y with sent := true }).owe (.attndRetire b)))) ∧
    (r.op = .rdx → r.wait = 0 →
      (r.sent = true → r.k < bits r.b 63 48 → ∃ t, exec (.rdxRetire b) s = .next t ∧
        (t.bank b).eng 4 = some { r with k := r.k + 1, sent := false } ∧ (∀ c, c ≠ b → t.bank c = s.bank c) ∧
        t.mem = s.mem ∧ t.sram = s.sram) ∧
      (∀ held s3 lo hi, r.sent = false → r.k < bits r.b 63 48 → s.packets = [] →
        s0.engPull b 4 ((s.bank b).part % 16) (s0.bagLegs b r) = .done held s3 →
        let u := s3.bagSpoil r
        u.bagOffset r held r.k = .ok lo → u.bagOffset r held (r.k + 1) = .ok hi →
        let rows := rdxWrows r.d * 32 / Sys2Proof.Num.widthOf (rdxType r.d)
        let acc := if r.tok = 0 then List.replicate rows (Sys2Proof.Num.mkRow 32 64 fun _ => rdxInit r.d) else r.acc
        let bad := decide (0 < r.tok) && r.qbad
        (∀ v e s2, lo + r.tok < hi →
          (let c := (u.readPinned r.pins (refVa r r.a + 4 * ((lo + r.tok : Nat) : Int)) 4 held).1
           c.poison = false ∧ v = leNat c.data) →
          u.readWalked b r.caps r.d (refVa r r.d + 256 * ((rdxWrows r.d * v : Nat) : Int)) (256 * rdxWrows r.d) = .ok (e, s2) →
          ∃ t, exec (.rdxRetire b) s = .next t ∧ t.mem = s2.mem ∧
            (t.bank b).eng 4 = some { r with acc := rdxEntry r.d acc e.data, tok := r.tok + 1, qbad := bad || e.poison }) ∧
        (∀ w y, lo ≤ hi → hi ≤ lo + r.tok → u.putOut b r (1 + r.k * rows) acc bad = (w, y) →
          exec (.rdxRetire b) s = .next
            ((w.putEng b 4 { y with sent := true, acc := [], tok := 0, poisoned := r.poisoned || bad }).owe (.rdxRetire b))) ∧
        (hi < lo → ∃ t, exec (.rdxRetire b) s = .next t ∧
          t = u.stopGl b r { cmdFault 9 with va := some (refVa r r.b + 4 * ((r.k + 1 : Nat) : Int)) })) ∧
      (∀ w y, r.sent = false → s.packets = [] → bits r.b 63 48 ≤ r.k →
        s0.putStatus b r (if r.poisoned = true then 1 else 0) = (w, y) →
        exec (.rdxRetire b) s = .next ((w.putEng b 4 { y with sent := true }).owe (.rdxRetire b))) ∧
      (r.sent = true → s.packets = [] → bits r.b 63 48 ≤ r.k → (s.bank b).canPush 4 r.ext = true → ends (.rdxRetire b)))

/-- R329, R332 to R338, R342, R343: with every member issued and alike, and its reads and the rows that leave granted, an
instance starts at every member, a `COLL` with what its operation writes there. That the start fixes it from the sources as they
then read is the model's choice (log entry 32), and so is a reduction that waits while its rows are tentative on more than one
packet (log entry 34). A member writes its next row, and with nothing left pushes its token, signals and is gone. A shard's triples that arrive in time for an owner that has not merged stand in its slot, marked late past their step's
deadline; an owner at its final deadline merges what has come, then writes its status row. The exchange of counts fixes what every member of a `PLOUGH`
writes; its record follows the last of it. -/
def Obligations.CollectivesStartMoveAndRetire : Prop :=
  (∀ (s : State) (gid nth b0 : Nat) (r0 : EngRun),
    let runs := (s.instRuns gid nth).filter fun p => p.2.accepted && !p.2.started && (s.bank p.1).engGoes p.2 &&
      (s.bank p.1).pst == .live
    let at0 (die : Nat) : Option (Nat × EngRun) := runs.find? fun p => bankDie p.1 == die
    let ms := (grpRanked r0.grp).filterMap at0
    runs.find? (fun p => (grpRanked p.2.grp).all fun die => (at0 die).isSome) = some (b0, r0) →
    (∀ p ∈ ms, p.2.op = r0.op ∧ p.2.compared = r0.compared ∧ (s.bank p.1).part = (s.bank b0).part) →
    (r0.op = .coll → foldMixed r0 (s.sources ms) = false) →
    let tolls := if (r0.op == .coll && collFolds r0.b) = true then s.foldTolls r0.grp (s.sources ms) else []
    let paid := Assoc.get 0 s.passed (agentTolls b0)
    ∀ s1 s2, s.payTolls (tolls.drop paid) paid = .all s1 →
    s1.serve (agentEng b0 5) (b0 + 1) ((s.bank b0).part % 16) ((sourceParts ms).flatMap fun p => s1.partLegs p.1 p.2) = (true, s2) →
    ∃ t, exec (.collectiveInstanceStart gid nth) s = .next t ∧ t.mem = s.mem ∧ t.sram = s.sram ∧
      (∀ p ∈ ms, ∃ r, (t.bank p.1).eng 5 = some r ∧ r.started = true ∧ r.pins = p.2.pins ∧
        (r0.op = .coll → r.lands = collLands p.2 (s2.sources ms) (bankDie p.1)) ∧ (r0.op ≠ .coll → r.lands = p.2.lands)) ∧
      (r0.op = .ring → t.insts = s.insts ++ [{ gid := r0.gid, nth := r0.inst, grp := r0.grp, slots := [], late := [], merged := [],
                                               disc := [] }]) ∧
      (∀ b, (∀ p ∈ ms, p.1 ≠ b) → t.bank b = s.bank b)) ∧
  (∀ (s : State) (b : Nat) (r : EngRun), validBank b = true → (s.bank b).eng 5 = some r → r.accepted = true →
    r.started = true → (s.bank b).engGoes r = true → r.pins ≠ [] → r.pinning = false →
    let s0 := s.putEng b 5 r
    let ends (i : Instr) : Prop := ∃ t, exec i s = .next t ∧ t.bank b = ((s.bank b).retireTok 5 r.ext).setEng 5 none ∧
      (∀ c, c ≠ b → t.bank c = s.bank c) ∧ t.seqs = s.seqs ∧ t.mem = s.mem ∧ t.sram = s.sram
    (r.op = .coll ∨ r.op = .ring →
      (∀ l rest n way, r.lands = l :: rest → l.way = n :: way → bit l.tag 23 = false →
        let legs := (s.wayTo .request l.die n).drop l.hop
        let k := s0.strides (b + 1) ((s.bank b).part % 16) legs
        ∃ t, exec (.collectiveRetire b) s = .next t ∧ (.collectiveRetire b) ∈ t.pending ∧
          (k < legs.length → (t.bank b).eng 5 = some { r with lands := { l with hop := l.hop + k } :: rest }) ∧
          (k = legs.length → (t.bank b).eng 5 = some
            { r with lands := { l with die := n, way := way, hop := 0,
                                       tag := if (s.pullPort l.die n).isSome = true then 0 else l.tag } :: rest }) ∧
          (∀ c, c ≠ b → t.bank c = s.bank c) ∧ t.mem = s.mem ∧ t.sram = s.sram) ∧
      (∀ l rest, r.lands = l :: rest → l.way = [] → bit l.tag 23 = false →
        ∃ t r', exec (.collectiveRetire b) s = .next t ∧ (t.bank b).eng 5 = some r' ∧ r'.lands = rest ∧
          r'.poisoned = (r.poisoned || l.poison) ∧ (.collectiveRetire b) ∈ t.pending) ∧
      (r.op = .coll → r.lands = [] → r.wait = 0 → s.tentFor (.eng b 5) = false → (s.bank b).canPush 5 r.ext = true →
        ends (.collectiveRetire b)) ∧
      (∀ j i, r.op = .ring → r.lands = [] → r.wait = 0 → s.instOf r = some j → s.insts[j]? = some i →
        let k := grpRank r.grp (bankDie b)
        i.merged.contains k = true →
        (r.sent = false → ∃ t, exec (.collectiveRetire b) s = .next t ∧ (.collectiveRetire b) ∈ t.pending ∧ t.mem = s.mem ∧
          (t.bank b).eng 5 = some { r with sent := true, lands := [Land.row (bankDie b) (refVa r r.d) (ringStatus r i k) false] }) ∧
        (r.sent = true → (i.nextOwner r.p k = none ∨ r.final ≤ s.reftime) → s.tentFor (.eng b 5) = false →
          (s.bank b).canPush 5 r.ext = true → ends (.collectiveRetire b)))) ∧
    (r.op = .plough → r.sent = true → r.lands = [] → r.wait = 0 → s.tentFor (.eng b 5) = false →
      (∀ pa limit key, r.k = 0 → ploughRing r = some (pa, limit, key) →
        ∃ t, exec (.ploughRetire b) s = .next t ∧ (t.bank b).eng 5 = some { r with k := 1, wait := 1 } ∧
          t.rings = s.rings ++ [{ pa := pa, limit := limit, key := key, part := (s.bank b).part, rcd := r.ploughRec,
                                  who := .eng b 5, served := [], no := s.sends + 1 }] ∧ t.mem = s.mem) ∧
      (r.k ≠ 0 → (s.bank b).canPush 5 r.ext = true → ends (.ploughRetire b)))) ∧
  (∀ (s : State) (gid nth b0 : Nat) (r0 : EngRun),
    let runs := (s.instRuns gid nth).filter fun p => p.2.started && p.2.op == .plough && !p.2.sent && p.2.pins != [] &&
      !p.2.pinning
    let dies := grpRanked r0.grp
    let ms := (List.range dies.length).filterMap (memberAt r0.grp runs)
    let reads (p : Nat × EngRun) : List (Nat × Nat × Nat) := p.2.recordSpans.flatMap fun x => pinnedParts p.2.pins 1 x.1 x.2
    ∀ s1, s.serve (agentEng b0 5) (b0 + 1) ((s.bank b0).part % 16) (ms.flatMap fun p => s.partLegs p.1 (reads p)) = (true, s1) →
    let s2 := s1.spoilParts (ms.flatMap reads)
    let fs := furrows (((List.range ms.length).zip ms).flatMap fun p => s2.plants p.1 p.2.2) (ms.map fun p => p.2)
    runs.find? (fun p => (List.range (grpRanked p.2.grp).length).all fun k => (memberAt p.2.grp runs k).isSome) =
      some (b0, r0) → (ms.map fun p => p.1).Nodup →
    ∃ t, exec (.ploughCountExchange gid nth) s = .next t ∧ t.mem = s.mem ∧ t.sram = s.sram ∧
      (∀ p ∈ ms.zip fs, ∃ r, (t.bank p.1.1).eng 5 = some r ∧ r.sent = true ∧
        r.lands = ploughLands dies (bankDie p.1.1) p.1.2 fs p.2) ∧
      (∀ b, (∀ p ∈ ms, p.1 ≠ b) → t.bank b = s.bank b)) ∧
  (∀ (s : State) (gid nth owner shard j bk bo : Nat) (i : Inst) (rk ro : EngRun),
    let runs := (s.instRuns gid nth).filter fun p => p.2.started && p.2.op == .ring
    s.insts[j]? = some i → i.gid = gid → i.nth = nth →
    (∀ j' i', j' < j → s.insts[j']? = some i' → ¬(i'.gid = gid ∧ i'.nth = nth)) → i.merged.contains owner = false →
    memberAt i.grp runs owner = some (bo, ro) → owner < (grpRanked i.grp).length →
    (i.delivered owner shard = false → memberAt i.grp runs shard = some (bk, rk) → shard < (grpRanked i.grp).length →
      (s.serve (agentEng bk 5) (bk + 1) ((s.bank bk).part % 16) (s.ringLegs bo bk)).1 = true → ro.trapped = false →
      ((ro.qtags.all fun y => !(bit y 23)) = true ∨ s.ringPort ro owner shard = none) → rk.tstart ≤ s.reftime → s.reftime ≤ rk.final →
      let ro1 := { ro with qout := 0 }
      let rk1 := if bk = bo then ro1 else rk
      let rows := shardTriples rk1 ro1 shard
      let far := rk.held.any fun y => decide (2 ≤ y.2.2.tier)
      let bad := (far && Config.mediaError s.free) || ro.qbad || rk.held.any fun y => y.2.2.bad != []
      let step := (shard + rk.p - owner) % rk.p
      let late := decide (rk.tstart + (step + 1) * rk.stept - 1 < s.reftime)
      ∃ t, exec (.ringTripleArrival gid nth owner shard) s = .next t ∧ t.mem = s.mem ∧
        t.insts[j]? = some { i with
          slots := i.slots ++ [{ owner := owner, shard := shard, rows := rows, poison := bad }],
          late := if late then i.late ++ [(owner, shard)] else i.late } ∧
        let ls := outLands ro1 (bankDie bo) (bankDie bk) (3 + (1 + shard) * ro.heads' * tripleRows ro.hdim) rows bad
        (t.bank bo).eng 5 = some { ro1 with lands := ro.lands ++ ls }) ∧
    (owner < ro.p → ro.final ≤ s.reftime → ∃ t r, exec (.ringFinalTimeout gid nth owner) s = .next t ∧
      t.insts[j]? = some { i with merged := i.merged ++ [owner] } ∧ (t.bank bo).eng 5 = some r ∧
      r.lands = ro.lands ++ outLands ro (bankDie bo) (bankDie bo) 3 (ringResults ro (i.present ro.p owner))
          ((i.present ro.p owner).any fun x => x.poison) ++
        outLands ro (bankDie bo) (bankDie bo) 1 [bitRow ((i.present ro.p owner).map fun x => x.shard), bitRow (i.lates owner)] false ∧
      t.mem = s.mem))

/-! ### Launches, tasks and their shares of the machine (spec/01, spec/08, spec/16) -/

/-- R21, R345 to R350, R352 to R354: the oldest record of a launch queue, its reads granted, is checked; one refused creates no
task, and a ring that it names gets a record with the status; one that passes makes its tasks, each pending on its die or, where
the record asks for it, at once on the lowest reserve that fits. A notify write moves a queue's TAIL, behind the host's earlier
writes; a free mapper slot takes the ready queue that has waited longest, and takes its records one by one; one that cannot be
read sets ERR. A write of a bind record gives it the state of its checks, a waiting record's task returning first to the
pending list, and of a running record only NVAR and, at the next frame, SHARE. A task
starts on every core of its plot with a C range, at its variant's entry, with `s1` to `s5` as given and every other `s`
register zero; its bundle section is then copied, with the poison of its rows. -/
def Obligations.LaunchesAreCheckedMappedAndStarted : Prop :=
  (∀ (s s0 : State) (die b part : Nat) (r : BitVec 512) (rest : List (Nat × Nat × BitVec 512)) (held : List Nat),
    validDie die = true → (s.die die).launchq = (b, part, r) :: rest →
    s.agentPull (agentDispatch die) (b + 1) part (bankDie b) (s.launchUnits part (some b) r) = .done held s0 →
    let d := bankDie b
    let va := bits r 191 128
    let record (x : Xlat) (st tasks : Nat) : RingReq :=
      append (leafPa x.leaf x.size va) (leafFrame x.leaf * 65536 + pageBytes x.size) (leafKey x.leaf) part
        (ringRecord tasks 0 (bits r 335 320) st 1 d (coreNum b) (b % 2)) .nobody
    let done (t : State) : Prop := exec (.launchProcess die) s = .next t ∧ (t.die die).launchq = rest
    (va ≠ 0 → (va % 64 ≠ 0 ∨ ∃ c, s0.walk d part va 3 = .error c) → ∃ t, done t ∧ t.launches = s0.launches ∧ t.rings = s0.rings ∧
      ∀ e, (t.die e).pending = (s0.die e).pending ∧ (t.die e).binds = (s0.die e).binds) ∧
    (∀ (ring : Option Xlat) (s1 s2 : State),
      ((va = 0 ∧ ring = none ∧ s1 = s0) ∨
        (va ≠ 0 ∧ va % 64 = 0 ∧ ∃ x, s0.walk d part va 3 = .ok x ∧ ring = some x ∧ s1 = (s0.walked d part va).noteWalk d x)) →
      let gets (st tasks : Nat) : List RingReq :=
        match ring with
        | none => []
        | some x => [{ record x st tasks with no := s2.sends + 1 }]
      (∀ st, s1.checkLaunch held d part r true = (.refused st, s2) →
        ∃ t, done t ∧ t.launches = s2.launches ∧ t.rings = s2.rings ++ gets st 0 ∧
          ∀ e, (t.die e).pending = (s2.die e).pending ∧ (t.die e).binds = (s2.die e).binds) ∧
      (∀ ds fixed mb, s1.checkLaunch held d part r true = (.ok ds fixed mb, s2) →
        let ts := launchTasks s2.launchNext s2.taskNext part (bits r 291 284) fixed ds
        (ts = [] → ∃ t, done t ∧ t.launches = s2.launches ∧ t.rings = s2.rings ++ gets 0 0 ∧
          ∀ e, (t.die e).pending = (s2.die e).pending ∧ (t.die e).binds = (s2.die e).binds) ∧
        (ts ≠ [] → ∃ t, done t ∧ t.rings = s2.rings ∧
          t.launches = s2.launches ++ [Launch.mk s2.launchNext r part (some b) fixed mb ring ts.length ts.length false] ∧
          t.taskNext = (s2.taskNext + ts.length) % 2 ^ 32 ∧
          (bit r 305 = false → ∀ e, (t.die e).pending = (s2.die e).pending ++ ((ts.filter fun p => p.1 == e).map fun p => p.2) ∧
            (t.die e).binds = (s2.die e).binds) ∧
          (bit r 305 = true → ∀ p ∈ ts, match (s2.die p.1).reserveFor p.2 with
            | some n => (t.die p.1).pending = (s2.die p.1).pending ∧ .taskStart p.1 n ∈ t.pending ∧
                (t.die p.1).bind n =
                  { (s2.die p.1).bind n with state := 6, job := some p.2, var := 0, started := [], finished := [] } ∧
                ∀ m, m ≠ n → (t.die p.1).bind m = (s2.die p.1).bind m
            | none => (t.die p.1).pending = (s2.die p.1).pending ++ [p.2] ∧ (t.die p.1).binds = (s2.die p.1).binds) ∧
          (∀ e, (∀ p ∈ ts, p.1 ≠ e) → (t.die e).pending = (s2.die e).pending ∧ (t.die e).binds = (s2.die e).binds))))) ∧
  (∀ (s s1 : State) (q : Nat) (v : Word), q ≤ 1023 → s.modul.ready = true →
    (s.findWin false q v = none ∧ s.hostWrites = false ∧ (∀ w ∈ s.winWrites, w.host = false) ∧ s1 = s ∨
      ∃ i w, s.findWin false q v = some (i, w) ∧ s.hostAhead w = false ∧ s.arrives (s.winFoot w) = true ∧
        s1 = ({ s with winWrites := s.winWrites.eraseIdx i } : State).ackWin w) →
    let x := s.hostQueue q
    let w := (bits v 31 0 + 2 ^ 32 - x.head) % 2 ^ 32
    ∃ t, exec (.notifyRegisterWrite q v) s = .next t ∧ (t.hostQueue q).tail = bits v 31 0 ∧
      (t.hostQueue q).head = x.head ∧ (t.hostQueue q).base = x.base ∧
      (t.hostQueue q).err = (x.err || decide (2 ^ x.log2n < w)) ∧
      (t.hostQueue q).enable = (x.enable && decide (w ≤ 2 ^ x.log2n)) ∧ (∀ p, p ≠ q → t.hostQueue p = s.hostQueue p) ∧
      t.mem = s.mem ∧ t.banks = s1.banks ∧ t.winWrites = s1.winWrites) ∧
  (∀ (s : State) (q : Nat) (v : Word), q ≤ 1023 → s.findWin false q v = none →
    (s.hostWrites = true ∨ ∃ w ∈ s.winWrites, w.host = true) →
    ∃ t, exec (.notifyRegisterWrite q v) s = .next t ∧ t.hostq = s.hostq ∧ .notifyRegisterWrite q v ∈ t.pending ∧
      t.winWrites = s.winWrites ++
        [{ b := none, host := true, wake := false, n := q, v := v, pa := 0, no := s.sends + 1 }]) ∧
  (∀ (s : State) (slot q : Nat), slot ≤ 31 → (s.mslot slot).q = none → s.longest = some q →
    ∃ t, exec (.mapperQueueMap slot) s = .next t ∧ t.mslot slot = { q := some q, taken := 0 } ∧ q ∈ s.unmapped ∧
      (∀ p ∈ s.unmapped, (s.hostQueue q).since ≤ (s.hostQueue p).since) ∧ (.mapperRecordTake slot) ∈ t.pending ∧
      (∀ j, j ≠ slot → t.mslot j = s.mslot j) ∧ t.hostq = s.hostq) ∧
  (∀ (s s0 : State) (slot q : Nat) (held : List Nat), slot ≤ 31 → (s.mslot slot).q = some q → s.hostWrites = false →
    let x := s.hostQueue q
    let va := x.base.toNat % 2 ^ 56 / 64 * 64 + 64 * (x.head % 2 ^ x.log2n)
    (x.ready = true → ((s.mslot slot).taken < 16 ∨ s.unmapped = []) →
      s.agentPull (agentMapper slot) 0 x.part 0 (s.vunits 1024 0 x.part 64 1 va) = .done held s0 →
      (∀ r, s0.vread held 0 x.part 64 1 va = some r → r.poison = false →
        ∃ t, exec (.mapperRecordTake slot) s = .next t ∧ t.hostQueue q = { x with head := (x.head + 1) % 2 ^ 32 } ∧
          t.mslot slot = { q := some q, taken := (s.mslot slot).taken + 1 } ∧
          t.hostLaunch = s.hostLaunch ++ [(BitVec.ofNat 512 (leNat r.bytes), x.part)] ∧
          (.launchProcess 1024) ∈ t.pending) ∧
      ((s0.vread held 0 x.part 64 1 va = none ∨ ∃ r, s0.vread held 0 x.part 64 1 va = some r ∧ r.poison = true) →
        ∃ t, exec (.mapperRecordTake slot) s = .next t ∧ t.mslot slot = MSlot.zero ∧ t.hostLaunch = s.hostLaunch ∧
          t.hostQueue q = { x with err := true, enable := false, since := s.counter })) ∧
    (x.ready = false ∨ (16 ≤ (s.mslot slot).taken ∧ s.unmapped ≠ []) →
      ∃ t, exec (.mapperRecordTake slot) s = .next t ∧ t.mslot slot = MSlot.zero ∧
        t.hostLaunch = s.hostLaunch ∧ t.hostQueue q = { x with since := s.counter })) ∧
  (∀ (s : State) (die n : Nat) (v : BitVec 256), validDie die = true → n ≤ 63 →
    let y := (s.die die).bind n
    let back : List Task := if y.state = 1 then y.job.toList else []
    let x := (if back = [] then y else { y with job := none, state := 0 }).written v
    let pend := (s.die die).pending ++ back
    let task := (pend.find? fun t => t.num == x.task && t.part == x.part).filter fun t => decide (x.nvar < imgNvar (s.fixedOf t))
    let becomes (z : Bind) (ps : List Task) : Prop := ∃ t, exec (.bindRecordWrite die n v) s = .next t ∧ (t.die die).bind n = z ∧
      (t.die die).pending = ps ∧ (∀ m, m ≠ n → (t.die die).bind m = (s.die die).bind m) ∧
      (∀ d, d ≠ die → t.die d = s.die d) ∧ t.banks = s.banks ∧ t.launches = s.launches
    ((y.state = 2 ∨ y.state = 3 ∨ y.state = 6) → becomes
      { y with nvar := bits v 49 48, shareNext := some (BitVec.ofNat 64 (bits v 151 88), s.nextFrame die) } (s.die die).pending) ∧
    ((y.state = 0 ∨ y.state = 1 ∨ y.state = 4 ∨ y.state = 5) →
      let bad := x.plot = 0 ∨ x.share &&& ~~~(Assoc.get 0 (s.die die).pslot x.part) ≠ 0
      (bit v 0 = false → becomes { x with state := 0 } pend) ∧
      (bit v 0 = true → bad → becomes { x with state := 4 } pend) ∧
      (bit v 0 = true → ¬ bad → bit v 35 = true → becomes { x with state := 5 } pend) ∧
      (bit v 0 = true → ¬ bad → bit v 35 = false → task = none → becomes { x with state := 4 } pend) ∧
      (∀ t, bit v 0 = true → ¬ bad → bit v 35 = false → task = some t →
        becomes { x with state := 1, job := some t, started := [], finished := [] } (pend.filter fun u => u != t)))) ∧
  (∀ (s : State) (die n : Nat) (tk : Task) (l : Launch), validDie die = true → n ≤ 63 →
    let x := (s.die die).bind n
    let go := (plotCores x.plot).filter fun c => decide ((coreRange x.plot l.fixed c).1 < (coreRange x.plot l.fixed c).2)
    let var := if x.devres then 0 else x.nvar
    x.job = some tk → s.launchOf tk = some l → (x.state = 1 ∨ (x.state = 6 ∧ x.started = [])) →
    (s.die die).mayStart n = true → x.bank ≤ 1 → go ≠ [] →
    ∃ t, exec (.taskStart die n) s = .next t ∧
      (t.die die).bind n =
        { x with
          state := if x.state = 6 then 6 else 2, var := var, started := go.map fun c => mkBank die c x.bank,
          finished := [], ended := false } ∧
      (∀ c ∈ go, let k := t.bank (mkBank die c x.bank)
        k.run = .live ∧ k.part = tk.part ∧ k.bindRec = n ∧ k.pc = entryPc l var ∧ k.mbox = l.mbox ∧ k.handles = [] ∧
        k.queues = [] ∧ k.tokens = [] ∧ k.cb = [] ∧ k.hmode = false ∧ k.copied = false ∧
        k.sys.fpc = BitVec.ofNat 64 (bits l.rcd 301 300) ∧ k.reg 1 = BitVec.ofNat 64 (bits l.rcd 255 192) ∧
        k.reg 2 = BitVec.ofNat 64 tk.dlo ∧ k.reg 3 = BitVec.ofNat 64 tk.dhi ∧
        k.reg 4 = BitVec.ofNat 64 (coreRange x.plot l.fixed c).1 ∧ k.reg 5 = BitVec.ofNat 64 (coreRange x.plot l.fixed c).2 ∧
        (∀ q : BitVec 5, 5 < q.toNat → k.reg q = 0) ∧ (.bundleCopyComplete (mkBank die c x.bank)) ∈ t.pending) ∧
      (∀ b, (∀ c ∈ go, b ≠ mkBank die c x.bank) → t.bank b = s.bank b) ∧ t.mem = s.mem ∧ t.sram = s.sram) ∧
  (∀ (s s1 : State) (b : Nat) (tk : Task) (l : Launch) (held : List Nat), validBank b = true → (s.bank b).copied = false →
    (s.bank b).run ≠ .idle → ((s.die (bankDie b)).bind (s.bank b).bindRec).job = some tk → s.launchOf tk = some l →
    let n := imgBlkCnt l.fixed
    let k := { s.bank b with ibad := (s.bank b).ibad.filter fun r => decide (48 * n < 256 * (r + 1)) }
    let va := bits l.rcd 63 0 + imgBlkOff l.fixed
    s.agentPull (agentBundles b) (b + 1) (k.part % 16) (bankDie b)
      (s.vunits (bankDie b) (bankDie b) k.part 256 ((va % 256 + 48 * n + 255) / 256) (va / 256 * 256)) = .done held s1 →
    let r := s1.copyBundles held (bankDie b) k.part va n 0 k
    ∃ t, exec (.bundleCopyComplete b) s = .next t ∧
      t.bank b = { s.bank b with ibuf := r.1.ibuf, ibad := r.1.ibad.eraseDups, copied := true } ∧
      (∀ i, n ≤ i → Assoc.get 0 (t.bank b).ibuf i = Assoc.get 0 (s.bank b).ibuf i) ∧
      (∀ c, c ≠ b → t.bank c = s.bank c) ∧ (.blockStart b) ∈ t.pending ∧ t.mem = s.mem)

/-- R177, R354 to R357, R359, R361: with every core of a task in the same `PHASE` and drained, each goes on past the word, or,
where the variant changes and every queue and FIFO is empty, at the new variant's entry with `s1` to `s5` as at its start and `s6`
k + 1; cores whose words name different k all trap. A drained core retires; that it waits for the copy of its bundles and that its
record is in state 3 from the first core that retires are the model's choice (log entry 52). With the last core of its task
the record is free again and its launch counts it, with the last task its record is appended. A PSLOT write that overlaps another
mask or leaves no slot free is ignored whole; a change takes effect at the frame boundary of its die. A unit of service starts in
a slot of its partition in which it ends; that a die has 420 numbered resources is the model's choice (log entry 66). A write of ACMODE keeps MODE on a 3
and takes effect when the cluster's loop engines are idle. -/
def Obligations.TasksPhaseRetireAndShareTheMachine : Prop :=
  (∀ (s : State) (die n k : Nat) (tk : Task) (l : Launch), validDie die = true → n ≤ 63 →
    let x := (s.die die).bind n
    let ids := x.started
    x.job = some tk → s.launchOf tk = some l → ids ≠ [] → ids.Nodup →
    (∀ b ∈ ids, (s.bank b).wait = .phase k ∧ s.drained b = true) →
    ∃ t, exec (.phaseRendezvous die n) s = .next t ∧ (∀ b, b ∉ ids → t.bank b = s.bank b) ∧ t.mem = s.mem ∧ t.sram = s.sram ∧
      (x.nvar = x.var ∨ ¬(∀ b ∈ ids, (s.bank b).allEmpty = true) →
        ((t.die die).bind n).var = x.var ∧ ∀ b ∈ ids, t.bank b = { (s.bank b).advance 4 with wait := .none }) ∧
      (x.nvar ≠ x.var → (∀ b ∈ ids, (s.bank b).allEmpty = true) → ((t.die die).bind n).var = x.nvar ∧ ∀ b ∈ ids,
        (t.bank b).pc = entryPc l x.nvar ∧ (t.bank b).slot = none ∧ (t.bank b).wait = .none ∧
        (t.bank b).reg 6 = BitVec.ofNat 64 (k + 1) ∧ (t.bank b).reg 1 = BitVec.ofNat 64 (bits l.rcd 255 192) ∧
        (t.bank b).reg 2 = BitVec.ofNat 64 tk.dlo ∧ (t.bank b).reg 3 = BitVec.ofNat 64 tk.dhi ∧
        (t.bank b).reg 4 = BitVec.ofNat 64 (coreRange x.plot l.fixed (coreNum b)).1 ∧
        (t.bank b).reg 5 = BitVec.ofNat 64 (coreRange x.plot l.fixed (coreNum b)).2 ∧ (∀ q : BitVec 5, 6 < q.toNat → (t.bank b).reg q = (s.bank b).reg q) ∧
        (t.bank b).handles = (s.bank b).handles ∧ (t.bank b).ibuf = (s.bank b).ibuf)) ∧
  (∀ (s : State) (die n : Nat) (tk : Task) (l : Launch) (k : Nat → Nat), validDie die = true → n ≤ 63 →
    let ids := ((s.die die).bind n).started
    ((s.die die).bind n).job = some tk → s.launchOf tk = some l → ids.Nodup →
    (∀ b ∈ ids, (s.bank b).wait = .phase (k b) ∧ (s.bank b).run = .live) → (∃ b ∈ ids, ∃ c ∈ ids, k b ≠ k c) →
    ∃ t, exec (.phaseRendezvous die n) s = .next t ∧ (∀ b ∈ ids, BankTrapped s t b 3 0) ∧ (∀ b, b ∉ ids → t.bank b = s.bank b) ∧
      t.dies = s.dies ∧ t.mem = s.mem ∧ t.sram = s.sram) ∧
  (∀ (s : State) (b : Nat), validBank b = true → (s.bank b).wait = .retire → s.drained b = true → (s.bank b).copied = true →
    let die := bankDie b
    let n := (s.bank b).bindRec
    let x := (s.die die).bind n
    let last := x.started.all fun c => (b :: x.finished).contains c
    (last = false → ∃ t, exec (.retireComplete b) s = .next t ∧
      t.bank b = { s.bank b with run := .retired, wait := .none, tokens := [], queues := [], handles := [], cb := [] } ∧
      (∀ c, c ≠ b → t.bank c = s.bank c) ∧ t.launches = s.launches ∧ t.mem = s.mem ∧
      (t.die die).bind n = { x with state := if x.state = 2 then 3 else x.state, finished := b :: x.finished }) ∧
    (∀ tk l, last = true → x.job = some tk → s.launchOf tk = some l →
      ∃ t, exec (.retireComplete b) s = .next t ∧ t.mem = s.mem ∧
        ((t.die die).bind n).job = none ∧ ((t.die die).bind n).state = (if x.devres then 5 else 0) ∧
        ((t.die die).bind n).valid = (x.devres && x.valid) ∧
        (∀ c ∈ x.started, (t.bank c).run = .idle ∧ (t.bank c).part = (s.bank c).part) ∧
        (∀ c, c ∉ x.started → c ≠ b → t.bank c = s.bank c) ∧
        (l.left ≤ 1 → t.launches = s.launches.filter fun m => m.id != l.id) ∧
        (1 < l.left → t.launches = s.launches.map fun m =>
          if m.id = l.id then { l with left := l.left - 1, ended := l.ended || x.ended } else m) ∧
        (l.left ≤ 1 → bits l.rcd 191 128 = 0 → t.rings = s.rings) ∧
        (∀ y, l.left ≤ 1 → bits l.rcd 191 128 ≠ 0 → l.ring = some y →
          let ids : Nat × Nat × Nat := match l.b with
            | some bk => (bankDie bk, coreNum bk, bk % 2)
            | none => (1023, 127, 0)
          t.rings = s.rings ++ [{ append (leafPa y.leaf y.size (bits l.rcd 191 128)) (leafFrame y.leaf * 65536 + pageBytes y.size)
            (leafKey y.leaf) l.part (ringRecord l.tasks 0 (bits l.rcd 335 320) (if l.ended || x.ended then 8 else 0) 1
              ids.1 ids.2.1 ids.2.2) .nobody with no := s.sends + 1 }]))) ∧
  (∀ (s : State) (die p : Nat) (v : Word), validDie die = true → p ≤ 15 →
    let d := s.die die
    let mine := (∀ i q, i < 64 → q < 16 → q ≠ p → bit v i = true → bit (d.pslotLatest q) i = false) ∧
      ∃ i, i < 64 ∧ bit v i = false ∧ ∀ q, q < 16 → q ≠ p → bit (d.pslotLatest q) i = false
    (¬ mine ∨ s.modul.tablesOpen = false → exec (.pslotWrite die p v) s = .next s) ∧
    (mine → s.modul.tablesOpen = true → ∃ t, exec (.pslotWrite die p v) s = .next t ∧
      t.die die = { d with pslotNext := d.pslotNext ++ [(p, v, s.nextFrame die)] } ∧
      (∀ c, c ≠ die → t.die c = s.die c) ∧ t.banks = s.banks ∧ t.mem = s.mem)) ∧
  (∀ (s : State) (die : Nat), validDie die = true →
    let d := s.die die
    let due := d.pslotNext.filter fun e => decide (e.2.2 ≤ s.copyOf die)
    ∃ t, exec (.frameBoundary die) s = .next t ∧
      (∀ p, Assoc.get 0 (t.die die).pslot p = match (due.filter fun e => e.1 == p).getLast? with
        | some e => e.2.1
        | none => Assoc.get 0 d.pslot p) ∧
      (t.die die).pslotNext = d.pslotNext.filter (fun e => decide (s.copyOf die < e.2.2)) ∧
      (∀ n, (t.die die).bind n = match (d.bind n).shareNext with
        | some (v, c) => if c ≤ s.copyOf die then { d.bind n with share := v, shareNext := none } else d.bind n
        | none => d.bind n) ∧
      (∀ c, c ≠ die → t.die c = s.die c) ∧ t.banks = s.banks ∧ t.mem = s.mem) ∧
  (∀ (s : State) (die res part len : Nat), validDie die = true → res < 420 →
    (if part < 16 then bit (Assoc.get 0 (s.die die).pslot part) (s.slotAt die) = true
     else ∀ p, p < 16 → bit (Assoc.get 0 (s.die die).pslot p) (s.slotAt die) = false) →
    s.copyOf die % 64 + len ≤ 64 → (∀ u ∈ (s.die die).units, u.1 = res → u.2.2 ≤ s.counter) →
    ∃ t, exec (.serviceUnitStart die res part len) s = .next t ∧
      (t.die die).units = (res, part, s.counter + len) :: (s.die die).units.filter (fun u => u.1 != res) ∧
      t.die die = { s.die die with units := (t.die die).units } ∧ (∀ c, c ≠ die → t.die c = s.die c) ∧
      { t with dies := s.dies } = s) ∧
  (∀ (s : State) (cl : Nat) (v : Word), validCluster cl = true →
    let old := (s.cluster cl).acnext.getD (s.cluster cl).acmode
    (∃ t w, exec (.acmodeWrite cl v) s = .next t ∧ t.cluster cl = { s.cluster cl with acnext := some w } ∧
      bits w 1 0 = (if bits v 1 0 = 3 then bits old 1 0 else bits v 1 0) ∧ bits w 3 2 = 0 ∧ bits w 17 4 = bits v 17 4 ∧
      bits w 63 18 = 0 ∧ (∀ c, c ≠ cl → t.cluster c = s.cluster c) ∧ { t with clusters := s.clusters } = s) ∧
    (∀ w, (s.cluster cl).acnext = some w → s.loopsIdle cl = true → ∃ t, exec (.acmodeTakeEffect cl) s = .next t ∧
      t.cluster cl = { s.cluster cl with acmode := w, acnext := none } ∧ (∀ c, c ≠ cl → t.cluster c = s.cluster c) ∧
      { t with clusters := s.clusters } = s))

/-! ### Coherence (spec/13), accesses at their homes (spec/11, spec/17) -/

/-- R270 to R272, R274, R275, R406: the home of a line serves the next request of a core while its entry is not busy. A `GETS`
gives the line alone in E, a shared copy, or forwards to the owner and waits; a `GETX` gives the line, or recalls every copy
and waits for each reply; an `UPG` of a sharer or owner grants the line when no other copy stands, and recalls the others
first otherwise; any other `UPG` is served as a `GETX`. A row that a port holds back goes as a shared copy of zeros with
poison. No memory changes. Which core of a die in the vector form counts as a sharer, by its line that waits in a shared state,
is the model's choice (log entry 21), and so is the held-back copy given as DataS (log entry 36). -/
def Obligations.RequestsAreServedAtTheHome : Prop :=
  ∀ (s : State) (core line : Nat) (m : Msg) (capped : Bool), Open s core line m → Leaves s core line capped →
    let plain := { s.dir line with ev := m.ev, b := m.b, capped := false }
    let d := { plain with capped := capped }
    let copy (k : MKind) : Msg := { Note k core line m.ev m.b with data := if capped then 0 else s.homeLine line, poison := capped }
    let answers (i : Instr) (k : MKind) (xs : List Msg) (e : Dir) : Prop := ∃ t, exec i s = .next t ∧
      Sends s t core line k xs ∧ t.dir line = e ∧ OnlyEntry s t line ∧ t.mem = s.mem
    let recalls (o : Option Nat) (cs : List Nat) : List Msg := o.toList.map (fun c => Note .fwdX c line false m.b) ++
      cs.map fun c => Note .inv c line false m.b
    let waits (d : Dir) (q : Req) (o : Option Nat) (cs : List Nat) : Dir :=
      { d with busy := some q, need := cs.length + o.toList.length, buf := none }
    let getX (i : Instr) (k : MKind) : Prop :=
      (d.owner = none → d.sharers = [] → answers i k [copy .dataX] { d with owner := some core }) ∧
      (¬(d.owner = none ∧ d.sharers = []) → answers i k (recalls d.owner d.targets) (waits d (.getX core) d.owner d.targets))
    let shares : Prop := if d.vec = true then coreDie core ∈ d.sharers ∧ ((s.line core line).st = .smD ∨ (s.line core line).st = .omD)
      else core ∈ d.sharers
    (Oldest s core line .getS m →
      (d.owner = none → d.sharers = [] → capped = false → answers (.cohGetS core line) .getS [copy .dataE]
        { d with owner := some core }) ∧
      (d.owner = none → (d.sharers ≠ [] ∨ capped = true) → answers (.cohGetS core line) .getS [copy .dataS] (d.addSharer core)) ∧
      (∀ o, d.owner = some o → answers (.cohGetS core line) .getS [Note .fwdS o line m.ev m.b]
        { d with busy := some (.getS core), need := 1, buf := none })) ∧
    (Oldest s core line .getX m → getX (.cohGetX core line) .getX) ∧
    (Oldest s core line .upg m → (d.owner = some core ∨ shares) →
      let xs := (if d.owner = some core then [] else d.owner.toList) ++
        d.targets.filter fun c => c != core && d.owner != some c
      (xs = [] → answers (.cohUpg core line) .upg [Note .grant core line m.ev m.b] { plain with owner := some core, sharers := [] }) ∧
      (xs ≠ [] → answers (.cohUpg core line) .upg (recalls none xs) (waits plain (.upg core) none xs))) ∧
    (Oldest s core line .upg m → ¬(d.owner = some core ∨ shares) → getX (.cohUpg core line) .upg)

/-- R274, R276, R277, R406: a reply at the home of a line whose entry waits for it. `DO` leaves the owner and adds the
requester; `DS` and `DW` write the data at the home, `DS` leaving its sender a sharer; `DX` passes the data on, and writes it
on an engine-visible page, for a write that waits or for a migration; the last `ACK` of a recall completes its request, for an
upgrade with the line. A `PUT` of the
owner writes its data, ends the ownership and is acknowledged, without data from a clean owner; while a forward to its sender
is under way the `PUT` is held back and acknowledged as the forward completes; a `PUT` of a core that owns the line no more is
acknowledged alone. A write-through of the
owner writes its bytes, or the whole line, and marks its store-queue entry performed; one of a core that owns the line no more
writes nothing. A requester whose row a port holds back gets poisoned zeros. The write-through of a whole line is the model's
choice (log entry 77). -/
def Obligations.RepliesEndTheirRequests : Prop :=
  ∀ (s : State) (core line : Nat) (m : Msg), (∀ a, s.frameOf a = a) →
    let d := s.dir line
    let idle := { d with busy := none, need := 0, held := false }
    let ends : List Msg := if d.held = true then [Note .putAck d.heldFor line d.ev d.b] else []
    let acked (t : State) (off n : Nat) (v : Word) : Prop :=
      let mine (p : Post) : Bool := p.sent && !p.done && p.kind == .line && p.pa == 64 * line + off && p.n == n &&
        p.data.toNat % 2 ^ (8 * n) == v.toNat
      let first (b : Nat) : Option Nat := (s.bank b).posts.findIdx? mine
      let frees (b i : Nat) : Prop := t.bank b = { s.bank b with posts := (s.bank b).posts.modify i fun p => { p with done := true } }
      (∀ b, b / 2 ≠ core → t.bank b = s.bank b) ∧
      (∀ i, first (2 * core) = some i → frees (2 * core) i ∧ t.bank (2 * core + 1) = s.bank (2 * core + 1)) ∧
      (first (2 * core) = none → t.bank (2 * core) = s.bank (2 * core) ∧
        ∀ i, first (2 * core + 1) = some i → frees (2 * core + 1) i)
    let data := s.given m
    let copy (k : MKind) (r : Nat) : Msg := { Note k r line d.ev d.b with data := if d.capped then 0 else data, poison := d.capped }
    (∀ r, d.busy = some (.getS r) →
      (Oldest s core line .dO m → ∃ t, exec (.cohDO core line) s = .next t ∧
        Sends s t core line .dO (copy .dataS r :: ends) ∧ t.dir line = { idle with owner := some core }.addSharer r ∧
        OnlyEntry s t line ∧ t.mem = s.mem) ∧
      (Oldest s core line .dS m → ∃ t, exec (.cohDS core line) s = .next t ∧
        Sends s t core line .dS (copy .dataS r :: ends) ∧
        t.dir line = ({ idle with owner := none }.addSharer core).addSharer r ∧ OnlyEntry s t line ∧ HomeHolds s t line data) ∧
      (Oldest s core line .dW m → ∃ t, exec (.cohDW core line) s = .next t ∧
        Sends s t core line .dW (copy .dataS r :: ends) ∧ t.dir line = { idle with owner := none }.addSharer r ∧
        OnlyEntry s t line ∧ HomeHolds s t line data)) ∧
    (Oldest s core line .dX m → d.need = 1 →
      (∀ r, d.busy = some (.getX r) → ∃ t, exec (.cohDX core line) s = .next t ∧
        Sends s t core line .dX (copy .dataX r :: ends) ∧
        t.dir line = { idle with buf := none, owner := some r, sharers := [] } ∧ OnlyEntry s t line ∧
        (d.ev = false → t.mem = s.mem) ∧ (d.ev = true → HomeHolds s t line data)) ∧
      ((d.busy = some .bulk ∨ d.busy = some .atomic) → ∃ t, exec (.cohDX core line) s = .next t ∧ Sends s t core line .dX [] ∧
        t.dir line = { d with owner := none, sharers := [], vec := false, need := 0, buf := none } ∧ OnlyEntry s t line ∧
        HomeHolds s t line data) ∧
      (d.busy = some .recall → ∃ t, exec (.cohDX core line) s = .next t ∧ Sends s t core line .dX ends ∧
        t.dir line = { idle with owner := none, sharers := [], vec := false, buf := none } ∧ OnlyEntry s t line ∧
        HomeHolds s t line data)) ∧
    (∀ r, Oldest s core line .dX m → 1 < d.need → d.busy = some (.getX r) → ∃ t, exec (.cohDX core line) s = .next t ∧
      Sends s t core line .dX [] ∧ t.dir line = { d with need := d.need - 1, buf := some data } ∧ OnlyEntry s t line ∧
      (d.ev = false → t.mem = s.mem) ∧ (d.ev = true → HomeHolds s t line data)) ∧
    (Oldest s core line .ack m →
      (∀ r, d.need = 1 → d.busy = some (.upg r) → ∃ t, exec (.cohAck core line) s = .next t ∧
        Sends s t core line .ack (Note .grant r line d.ev d.b :: ends) ∧
        t.dir line = { idle with buf := none, owner := some r, sharers := [] } ∧ OnlyEntry s t line ∧ t.mem = s.mem) ∧
      (∀ r, d.need = 1 → d.busy = some (.getX r) → ∃ t, exec (.cohAck core line) s = .next t ∧
        Sends s t core line .ack ({ copy .dataX r with data := if d.capped then 0 else d.buf.getD (s.homeLine line) } :: ends) ∧
        t.dir line = { idle with buf := none, owner := some r, sharers := [] } ∧ OnlyEntry s t line ∧ t.mem = s.mem) ∧
      (d.need = 1 → (d.busy = some .bulk ∨ d.busy = some .atomic) → ∃ t, exec (.cohAck core line) s = .next t ∧
        Sends s t core line .ack [] ∧
        t.dir line = { d with owner := none, sharers := [], vec := false, need := 0, buf := none } ∧ OnlyEntry s t line ∧
        t.mem = s.mem) ∧
      (d.need = 1 → d.busy = some .recall → ∃ t, exec (.cohAck core line) s = .next t ∧ Sends s t core line .ack ends ∧
        t.dir line = { idle with owner := none, sharers := [], vec := false, buf := none } ∧ OnlyEntry s t line ∧
        t.mem = s.mem) ∧
      (1 < d.need → ∃ t, exec (.cohAck core line) s = .next t ∧ Sends s t core line .ack [] ∧
        t.dir line = { d with need := d.need - 1 } ∧ OnlyEntry s t line ∧ t.mem = s.mem)) ∧
    (Oldest s core line .put m → d.busy = none → d.owner = some core → ∃ t, exec (.cohPut core line) s = .next t ∧
      Sends s t core line .put [Note .putAck core line d.ev m.b] ∧ (t.dir line).owner = none ∧
      (t.dir line).sharers = d.sharers ∧ OnlyEntry s t line ∧ (m.kind = .put → HomeHolds s t line data) ∧
      (m.kind = .putClean → t.mem = s.mem)) ∧
    (Oldest s core line .put m → d.busy ≠ none → d.owner = some core → ∃ t, exec (.cohPut core line) s = .next t ∧
      Sends s t core line .put [] ∧ t.dir line = { d with held := true, heldFor := core } ∧ OnlyEntry s t line ∧
      (m.kind = .put → HomeHolds s t line data) ∧ (m.kind = .putClean → t.mem = s.mem)) ∧
    (Oldest s core line .put m → d.owner ≠ some core → ∃ t, exec (.cohPut core line) s = .next t ∧
      Sends s t core line .put [Note .putAck core line d.ev m.b] ∧ t.dirs = s.dirs ∧ OnlyEntry s t line ∧ t.mem = s.mem) ∧
    (∀ off n v, Open s core line m → Oldest s core line (.wthru 0 0 0) m → m.kind = .wthru off n v → off + n ≤ 64 → n ≤ 8 →
      ∃ t, exec (.writeThrough core line) s = .next t ∧ Sends s t core line (.wthru 0 0 0) [] ∧ t.dirs = s.dirs ∧
        t.cores = s.cores ∧
        (m.whole = false → acked t off n v) ∧
        (d.owner ≠ some core → t.mem = s.mem) ∧
        (d.owner = some core → m.whole = false → t.bytes (64 * line + off) n = natLE n v.toNat ∧
          ∀ a, ¬(64 * line + off ≤ a ∧ a < 64 * line + off + n) → t.byte a = s.byte a) ∧
        (d.owner = some core → m.whole = true → HomeHolds s t line data ∧ t.banks = s.banks))

/-- R268, R273, R277, R462: a cache's side. An arriving copy is held in its state and waits for a way; as a line arrives for
writing, every store of the core's banks that waited for it and that no earlier access holds back is performed. A forwarded request is answered with the data, and the state that R273 gives follows; an
invalidation is acknowledged and ends the copy; a peek is answered and changes nothing; the acknowledgement of an eviction
ends the line; an owner whose page has become engine-visible sends its line home as it is granted the line (the model's choice: log
entry 77); a line that arrived takes a way of its set when one is free. -/
def Obligations.CachesAnswerTheHome : Prop :=
  ∀ (s : State) (core line : Nat) (m : Msg),
    let x := s.line core line
    let arrived (st : CState) : CLine := 
      { x with st := st, data := m.data, ev := m.ev, way := false, used := s.counter, poison := m.poison }
    let holds (i : Instr) (k : MKind) (y : CLine) : Prop := ∃ t, exec i s = .next t ∧ Sends s t core line k [] ∧
      t.line core line = y ∧ OnlyCacheLine s t core line ∧ t.banks = s.banks
    let gives (i : Instr) (k : MKind) (xs : List Msg) (y : CLine) : Prop := ∃ t, exec i s = .next t ∧ Sends s t core line k xs ∧
      t.line core line = y ∧ OnlyCacheLine s t core line ∧ (∀ b q, (t.bank b).reg q = (s.bank b).reg q)
    let answer (k : MKind) (data : BitVec 512) : Msg := { Note k core line x.ev m.b with data := data, poison := x.poison }
    let noStore (t : State) : Prop := t.waitingStore (2 * core) line = none ∧ t.waitingStore (2 * core + 1) line = none
    (Oldest s core line .dataS m → holds (.cohDataS core line) .dataS (arrived .s)) ∧
    (Oldest s core line .dataE m → holds (.cohDataE core line) .dataE (arrived .e)) ∧
    (Oldest s core line .dataX m → noStore s → holds (.cohDataX core line) .dataX (arrived (if m.ev then .e else .m))) ∧
    (Oldest s core line .dataX m → ∃ t, exec (.cohDataX core line) s = .next t ∧ noStore t) ∧
    (Oldest s core line .grant m → ∃ t, exec (.cohGrant core line) s = .next t ∧ noStore t) ∧
    (∀ i p, Oldest s core line .dataX m → m.ev = false → s.waitingStore (2 * core) line = some (i, p) → p.ev = false →
      (∀ q ∈ (s.bank (2 * core)).posts.eraseIdx i ++ (s.bank (2 * core + 1)).posts,
        q.kind ≠ .line ∨ q.pa / 64 ≠ line ∨ q.sent = true ∨ q.done = true) →
      ∃ t, exec (.cohDataX core line) s = .next t ∧ Sends s t core line .dataX [] ∧
        (t.line core line).st = .m ∧ (t.line core line).data = linePut m.data (p.pa % 64) p.n p.data.toNat ∧
        (t.bank (2 * core)).posts = (s.bank (2 * core)).posts.eraseIdx i ∧ OnlyCacheLine s t core line) ∧
    (Oldest s core line .grant m → noStore s → ¬(m.ev = true ∧ x.st = .omD) →
      holds (.cohGrant core line) .grant { x with st := if m.ev then .e else .m, ev := m.ev }) ∧
    (Oldest s core line .grant m → noStore s → m.ev = true → x.st = .omD → ∃ t, exec (.cohGrant core line) s = .next t ∧
      Sends s t core line .grant [{ Note (.wthru 0 0 0) core line false x.b with
        data := x.data, poison := x.poison, whole := true }] ∧
      t.line core line = { x with st := .e, ev := true } ∧ OnlyCacheLine s t core line ∧ t.banks = s.banks) ∧
    (Oldest s core line .fwdS m →
      (x.st = .e → gives (.cohFwdS core line) .fwdS [answer .dS x.data] { x with st := .s }) ∧
      ((x.st = .o ∨ x.st = .omD) → gives (.cohFwdS core line) .fwdS [answer .dO x.data] x) ∧
      (x.st = .m → gives (.cohFwdS core line) .fwdS [answer .dO x.data] { x with st := .o }) ∧
      (x.st = .xiA → gives (.cohFwdS core line) .fwdS [answer .dW x.data] x)) ∧
    (Oldest s core line .fwdX m →
      ((x.st = .e ∨ x.st = .o ∨ x.st = .m) →
        gives (.cohFwdX core line) .fwdX [answer .dX x.data] CLine.zero) ∧
      (x.st = .omD → gives (.cohFwdX core line) .fwdX [answer .dX x.data]
        { x with st := .imD, data := 0, way := false }) ∧
      (x.st = .xiA → gives (.cohFwdX core line) .fwdX [answer .dX x.data] x)) ∧
    (Oldest s core line .inv m →
      ((x.st = .s ∨ x.st = .o) → gives (.cohInv core line) .inv [answer .ack 0] CLine.zero) ∧
      ((x.st = .smD ∨ x.st = .omD) → gives (.cohInv core line) .inv [answer .ack 0]
        { x with st := .imD, data := 0, way := false }) ∧
      ((x.st = .i ∨ x.st = .isD ∨ x.st = .imD ∨ x.st = .xiA) → gives (.cohInv core line) .inv [answer .ack 0] x)) ∧
    (Oldest s core line .peek m → (x.st = .e ∨ x.st = .o ∨ x.st = .m ∨ x.st = .omD ∨ x.st = .xiA) →
      gives (.cohPeek core line) .peek [answer .peekData x.data] x) ∧
    (Oldest s core line .putAck m → x.st = .xiA → holds (.cohPutAck core line) .putAck CLine.zero) ∧
    (validCore core = true → x.way = false → (x.st.stable = true ∨ x.st = .smD ∨ x.st = .omD) →
      ((s.core core).ways (line % 128)).length < 8 →
      ∃ t, exec (.cacheFill core line) s = .next t ∧ t.line core line = { x with way := true } ∧
        OnlyCacheLine s t core line ∧ t.net = s.net ∧ t.banks = s.banks)

/-- R217, R223 to R225, R272, R274, R278, R326, R379: the oldest atomic that its home has accepted, on a line with no copy in a
cache, reads the old value, writes the value of its operation, and gives the old value back, poisoned zeros where a port holds
its row back; a line with copies is reserved and its copies are recalled first; on a row of global SRAM the atomic does the same,
and the bytes that another partition left in the row become zeros; a Put that the recall held back is acknowledged once the
atomic has written. An atomic that finds the places of its home taken is refused, with a hint of 256 cycles, and performs nothing. A write of one row with no copy of its lines
in a cache writes its bytes in its turn, with poison where it carries any or leaves a part of a poisoned row or of one under
other keys; a host's read of such rows gives their bytes. No other byte changes. -/
def Obligations.HomesPerformAtomicsAndBulkAccesses : Prop :=
  (∀ (s : State) (i : Nat) (r : AReq) (capped : Bool), s.atomics[i]? = some r → r.arr ≠ 0 →
    s.placeAhead (atomicHome r.b r.pa) r.arr = false → s.packets = [] → (∀ a, s.frameOf a = a) →
    (if capped then s.pullEgress (bankCore r.b) r.pa = .capped else ∃ u, s.pullEgress (bankCore r.b) r.pa = .ok u) →
    let w := if r.w64 then 8 else 4
    let v := r.v.toNat % 2 ^ (8 * w)
    let e := r.expect.toNat % 2 ^ (8 * w)
    let d := s.dir (r.pa / 64)
    let free := d.busy = none ∧ s.refuses r.pa = false ∧ s.ahead r.arr [r.pa / 64] = false ∧
      s.burstWaits (r.b + 1) r.pa = false
    let answers (t : State) (old : Nat) : Prop := t.atomics = s.atomics.eraseIdx i ∧
      (∀ p, (s.bank r.b).pend = some p → (t.bank r.b).pend =
        some { p with ret := some (BitVec.ofNat 64 (if capped then 0 else old), capped) }) ∧
      ∀ b, b ≠ r.b → t.bank b = s.bank b
    r.pa % w = 0 →
    (isCached r.pa = true → s.keyFits r.pa r.key = true → (s.rowMeta (r.pa / 256)).poison = false →
      ((free ∧ d.owner = none ∧ d.sharers = []) ∨ (d.busy = some .atomic ∧ d.need = 0)) →
      let old := leNat (s.bytes r.pa w)
      ∃ t new, exec (.homeAtomic i) s = .next t ∧ answers t old ∧ AtomicGives r.op w old v e new ∧
        t.bytes r.pa w = natLE w new ∧ (∀ a, ¬(r.pa ≤ a ∧ a < r.pa + w) → t.byte a = s.byte a) ∧ t.sram = s.sram ∧
        (t.dir (r.pa / 64)).busy = none ∧
        (d.busy = some .atomic → d.held = true →
          ∃ n, { Note .putAck d.heldFor (r.pa / 64) d.ev d.b with no := n } ∈ t.net)) ∧
    (isCached r.pa = true → free → ¬(d.owner = none ∧ d.sharers = []) →
      let cs := d.targets.filter fun c => d.owner != some c
      ∃ t, exec (.homeAtomic i) s = .next t ∧ t.atomics = s.atomics ∧
        t.net = s.net ++ numbered s (d.owner.toList.map (fun c => Note .fwdX c (r.pa / 64) false (r.b + 1)) ++
          cs.map fun c => Note .inv c (r.pa / 64) false (r.b + 1)) ∧
        t.dir (r.pa / 64) = { d with b := r.b + 1, capped := false, busy := some .atomic,
                                     need := cs.length + d.owner.toList.length, buf := none } ∧
        OnlyEntry s t (r.pa / 64) ∧ t.mem = s.mem) ∧
    (isGsram r.pa = true → s.refuses r.pa = false →
      let c := s.cell (gsramKey r.pa)
      let off := r.pa % 256
      let old := c.data.toNat / 2 ^ (8 * off) % 2 ^ (8 * w)
      let own := (s.bank r.b).part ≠ noTask ∧ c.ptag = ptagOf (s.bank r.b).part
      c.poison = false →
      ∃ t new, exec (.homeAtomic i) s = .next t ∧ answers t old ∧ AtomicGives r.op w old v e new ∧
        (∀ key, key ≠ gsramKey r.pa → t.cell key = s.cell key) ∧ t.mem = s.mem ∧ t.dirs = s.dirs ∧
        (8 < r.op → old ≠ e → t.cell (gsramKey r.pa) = c) ∧
        ((r.op ≤ 8 ∨ old = e) → (t.cell (gsramKey r.pa)).poison = false ∧ ∀ j, j < 256 →
          (t.cell (gsramKey r.pa)).data.toNat / 2 ^ (8 * j) % 256 =
            if off ≤ j ∧ j < off + w then new / 2 ^ (8 * (j - off)) % 256
            else if own then c.data.toNat / 2 ^ (8 * j) % 256 else 0))) ∧
  (∀ (s : State) (i : Nat) (r : AReq), s.atomics[i]? = some r → r.arr = 0 → s.refuses r.pa = false →
    s.arrives (s.atomicFoot r) = true → isBarrierWin r.pa = false →
    s.isRefused (bankCore r.b) (homeOf r.pa) .atomic = false →
    (if isGsram r.pa then 16 else if isHbm r.pa then 256 else 64) ≤ ((s.places (homeOf r.pa)).filter fun p => p.arr != 0).length →
    ∃ t, exec (.homeAtomic i) s = .next t ∧ (∃ n, t.atomics = s.atomics.set i { r with refused := n } ∧
        (r.refused ≠ 0 → n = r.refused) ∧ n ≠ 0) ∧
      t.refused = s.refused ++ [{ src := bankCore r.b, home := homeOf r.pa, cls := .atomic, hint := s.counter + 256 }] ∧
      (.homeAtomic i) ∈ t.pending ∧ (.reissue (bankCore r.b)) ∈ t.pending ∧
      { t with atomics := s.atomics, refused := s.refused, pending := s.pending, arrivals := s.arrivals } = s) ∧
  (∀ (s : State) (i : Nat) (x : Bulk), s.bulk[i]? = some x → (∀ a, s.frameOf a = a) → s.packets = [] →
    s.regionOf x.pa = none → x.served = [] → x.pa % 256 + x.len ≤ 256 →
    (∀ l ∈ linesOf x.pa x.len, (s.dir l).busy = none ∧ (s.dir l).owner = none ∧ (s.dir l).sharers = []) →
    (x.arr = 0 → s.arrives (s.bulkFoot x) = true) → s.hostBehind i x = false →
    s.ahead (s.arrNum x.arr) (linesOf x.pa x.len) = false →
    (x.data ≠ [] → x.data.length = x.len → s.refuses x.pa = false → s.isRefused x.who.src (homeOf x.pa) .request = false →
      s.burstWaits x.who.cause x.pa = false → x.tent = 0 →
      let m := s.rowMeta (x.pa / 256)
      ∃ t, exec (.bulkWrite i) s = .next t ∧ t.bulk = s.bulk.eraseIdx i ∧ t.bytes x.pa x.len = x.data ∧
        (∀ a, ¬(x.pa ≤ a ∧ a < x.pa + x.len) → t.byte a = s.byte a) ∧ (t.rowMeta (x.pa / 256)).key = x.key ∧
        (t.rowMeta (x.pa / 256)).poison = (x.poison || (decide (x.len ≠ 256) && (m.poison || !s.keyFits x.pa x.key))) ∧
        (t.rowMeta (x.pa / 256)).chk = (if x.len = 256 then x.chk else 0) ∧
        (∀ r, r ≠ x.pa / 256 → t.rowMeta r = s.rowMeta r) ∧ t.sram = s.sram ∧ t.cores = s.cores) ∧
    (x.data = [] → x.who = .host → x.got = [] → s.burstWaits 0 x.pa = false → bit (s.readTag (256 * (x.pa / 256))) 23 = false →
      let m := s.rowMeta (x.pa / 256)
      ∃ t, exec (.bulkRead i) s = .next t ∧ t.bulk = s.bulk.eraseIdx i ∧ t.mem = s.mem ∧ t.dirs = s.dirs ∧
        (s.keyFits x.pa x.key = true →
          t.modul.replies = s.modul.replies ++ [.data (s.bytes x.pa x.len) (decide (x.len ≠ 0) && m.poison)]) ∧
        (s.keyFits x.pa x.key = false → x.len ≠ 0 → ∃ xs, t.modul.replies = s.modul.replies ++ [.data xs true])))

/-! ### The fabric (spec/15) -/

/-- R321 to R323, R325 to R327: a failed tag poisons the row that its packet has written and leaves the packet to come again;
the final tag makes the row final, with the data of the replay after a failure. A home refuses a request, a row
write, a record's append and an atomic to a page in recall or recopy, with a hint of 256 cycles, and keeps the refusal by source, home and class;
the source's packets of that class go again, in their order, once the hint has elapsed. A migration copies its page, recalls its lines
once no pin is left, copies again what was written meanwhile and forwards, and leaves the table after its grace period. The
beacon moves the reference time by one tick at most. That the migration register's write copies the page's rows at once is the
model's choice (log entry 35), and so is a packet of one row (log entry 34). -/
def Obligations.LinksMigrationsAndTheBeaconAct : Prop :=
  (∀ (s : State) (p : Nat) (x : Packet), s.packet p = some x → x.sram = true → x.into = none → (s.cell x.pa).tent = p + 1 →
    (∃ t y, exec (.linkTagFail p) s = .next t ∧ t.packet p = some y ∧ y.failed = true ∧ y.data = x.data ∧ y.who = x.who ∧
      y.was = (if x.failed then x.was else (s.cell x.pa).poison) ∧ (t.cell x.pa).poison = true ∧ (t.cell x.pa).tent = p + 1 ∧
      t.mem = s.mem ∧ (∀ q, q ≠ p → t.packet q = s.packet q) ∧
      (∀ k, k ≠ x.pa → t.cell k =
        if (s.cell k).tent = p + 1 then { s.cell k with tent := 0, poison := true } else s.cell k)) ∧
    (s.packetReady p x = true →
      ∃ t, exec (.packetFinal p) s = .next t ∧ t.packet p = none ∧ (∀ q, q ≠ p → t.packet q = s.packet q) ∧ t.mem = s.mem ∧
      t.cell x.pa = (if x.failed then
        { s.cell x.pa with data := BitVec.ofNat 2048 (leNat x.data), poison := x.was, tent := 0 }
        else { s.cell x.pa with tent := 0 }) ∧
      (∀ k, k ≠ x.pa → t.cell k = if (s.cell k).tent = p + 1 then { s.cell k with tent := 0 } else s.cell k))) ∧
  (∀ (s : State) (p : Nat) (x : Packet), s.packet p = some x → x.sram = false → x.into = none → (∀ a, s.frameOf a = a) →
    x.pa % 256 + x.data.length ≤ 256 → (s.rowMeta (x.pa / 256)).tent = p + 1 →
    (∃ t y, exec (.linkTagFail p) s = .next t ∧ t.packet p = some y ∧ y.failed = true ∧ y.data = x.data ∧
      y.was = (if x.failed then x.was else (s.rowMeta (x.pa / 256)).poison) ∧ (t.rowMeta (x.pa / 256)).poison = true ∧
      (t.rowMeta (x.pa / 256)).tent = p + 1 ∧ ∀ a, ¬(x.pa ≤ a ∧ a < x.pa + x.data.length) → t.byte a = s.byte a) ∧
    (s.packetReady p x = true → ∃ t, exec (.packetFinal p) s = .next t ∧ t.packet p = none ∧
      (t.rowMeta (x.pa / 256)).tent = 0 ∧ (∀ a, ¬(x.pa ≤ a ∧ a < x.pa + x.data.length) → t.byte a = s.byte a) ∧
      t.bytes x.pa x.data.length = (if x.failed then x.data else s.bytes x.pa x.data.length) ∧
      (t.rowMeta (x.pa / 256)).poison = if x.failed then x.was else (s.rowMeta (x.pa / 256)).poison)) ∧
  (∀ (s : State) (src : Nat),
    let refusable (home : Nat) (cls : PClass) : Prop :=
      (cls = .request ∧ ∃ m ∈ s.net, m.kind.cls = .request ∧ srcCore m.core = src ∧ lineHome m.line = home ∧
        s.refuses (64 * m.line) = true) ∨
      (cls = .request ∧ ∃ x ∈ s.bulk, x.data ≠ [] ∧ x.served = [] ∧ x.who.src = src ∧ homeOf x.pa = home ∧
        s.refuses x.pa = true) ∨
      (cls = .request ∧ ∃ q ∈ s.rings, q.served = [] ∧ q.who.src = src ∧ homeOf q.pa = home ∧ s.refuses q.pa = true) ∨
      (cls = .atomic ∧ ∃ r ∈ s.atomics, srcCore (bankCore r.b) = src ∧ homeOf r.pa = home ∧ s.refuses r.pa = true)
    ((∃ home cls, refusable home cls) → ∃ t home cls, refusable home cls ∧ exec (.refusal src) s = .next t ∧
      (s.isRefused src home cls = true → t = s) ∧
      (s.isRefused src home cls = false →
        t.refused = s.refused ++ [{ src := src, home := home, cls := cls, hint := s.counter + 256 }] ∧
        (.reissue src) ∈ t.pending ∧ { t with refused := s.refused, pending := s.pending } = s)) ∧
    ((¬ ∃ home cls, refusable home cls) → exec (.refusal src) s = .next s) ∧
    (∀ p, s.refused.find? (fun q => q.src == src) = some p →
      (p.hint ≤ s.counter → ∃ t, exec (.reissue src) s = .next t ∧ t.refused = s.refused.erase p ∧
        (p.cls = .atomic → ∀ i, i < s.atomics.length → (.homeAtomic i) ∈ t.pending) ∧
        (p.cls ≠ .atomic → (∀ i, i < s.bulk.length → (.bulkWrite i) ∈ t.pending) ∧
          (∀ i, i < s.rings.length → (.completionRecordAppend i) ∈ t.pending) ∧
          ∀ m ∈ s.net, srcCore m.core = src → m.kind.cls = .request → ∀ e, m.event = some e → e ∈ t.pending) ∧
        (t.refused.any (fun q => q.src == src) = true → (.reissue src) ∈ t.pending) ∧
        { t with refused := s.refused, pending := s.pending } = s) ∧
      (s.counter < p.hint → ∃ t, exec (.reissue src) s = .next t ∧ (.reissue src) ∈ t.pending ∧
        { t with pending := s.pending } = s))) ∧
  (∀ (s : State) (old new size : Nat), size ≤ 1 → isCached old = true → isCached new = true → old < 2 ^ 52 → new < 2 ^ 52 →
    (let n := pageBytes size
     old % n = 0 → new % n = 0 → old ≠ new → s.migr = [] →
      ∃ t, exec (.migrationRegisterWrite old new size) s = .next t ∧
        t.migr = [{ old := old, new := new, size := n, phase := 0, dirty := [], since := 0 }] ∧
        (∀ j, j < n → t.byte (new + j) = s.byte (old + j)) ∧
        (∀ a, ¬(new ≤ a ∧ a < new + n) → t.byte a = s.byte a) ∧ t.sram = s.sram ∧ t.banks = s.banks)) ∧
  (∀ (s : State) (page : Nat) (m : Migr),
    let becomes (f : Migr → Migr) : List Migr := s.migr.map fun x => if x.old = page then f x else x
    (s.migrAt page 0 = some m → s.pinsPage m = false → ∃ t, exec (.copyPassEnd page) s = .next t ∧
      t.migr = becomes (fun x => { x with phase := 1 }) ∧ t.mem = s.mem ∧ t.banks = s.banks ∧
      (.recallComplete page) ∈ t.pending ∧
      (∀ l,
        let d := s.dir l
        let cs := d.targets.filter fun c => d.owner != some c
        if m.old ≤ 64 * l ∧ 64 * l < m.old + m.size ∧ d.busy = none ∧ (d.owner ≠ none ∨ d.sharers ≠ []) then
          t.dir l = { d with busy := some .recall, need := cs.length + d.owner.toList.length, buf := none } ∧
          (∀ o, d.owner = some o → ∃ n, { Note .fwdX o l false d.b with no := n } ∈ t.net) ∧
          ∀ c ∈ cs, ∃ n, { Note .inv c l false d.b with no := n } ∈ t.net
        else t.dir l = d ∧ ∀ y ∈ t.net, y.line = l → y ∈ s.net)) ∧
    (s.migrAt page 1 = some m → s.pageQuiet m = true → ∃ t, exec (.recallComplete page) s = .next t ∧
      t.migr = becomes (fun x => { x with phase := 2 }) ∧ (.recopyEnd page) ∈ t.pending ∧
      { t with migr := s.migr, pending := s.pending } = s) ∧
    (s.migrAt page 2 = some m → s.migr = [m] → m.old % 256 = 0 → m.new % 256 = 0 →
      (m.new + m.size ≤ m.old ∨ m.old + m.size ≤ m.new) → (∀ r ∈ m.dirty, m.old ≤ 256 * r ∧ 256 * r + 256 ≤ m.old + m.size) →
      ∃ t, exec (.recopyEnd page) s = .next t ∧ t.migr = [{ m with phase := 3, dirty := [] }] ∧
        (∀ r j, r ∈ m.dirty → j < 256 → t.byte (256 * r + j) = s.byte (256 * r + j)) ∧
        (∀ j, j < m.size → (m.old + j) / 256 ∉ m.dirty → (s.rowMeta ((m.new + j) / 256)).cipher = false →
          t.byte (m.old + j) = s.byte (m.new + j)) ∧
        (∀ l, m.new ≤ 64 * l → 64 * l < m.new + m.size → t.dir l = Dir.zero) ∧ t.sram = s.sram ∧ t.banks = s.banks) ∧
    (s.migrAt page 4 = some m → m.since + 65536 ≤ s.reftime → ∃ t, exec (.migrationGraceEnd page) s = .next t ∧
      t.migr = s.migr.filter (fun x => x.old != page) ∧ { t with migr := s.migr } = s)) ∧
  (∀ (s : State) (n : Nat), ∃ t, exec (.reftimeBeacon n) s = .next t ∧ { t with reftime := s.reftime } = s ∧
    t.reftime = if n = s.reftime + 1 then n else s.reftime)

/-! ### Taking and answering traps, ending tasks, pre-emption, the debugger, corrected errors (spec/20, spec/21) -/

/-- R415 to R417, R419 to R422: at a boundary a bank takes its oldest waiting trap, in handler mode a halt request alone: into
its handler, or it stops. A handler
entry writes the record, sets HMODE and goes on at TVEC. A stopped bank that has drained holds its record, with every latch
stale, and is reported with the time of its trap; the firmware's answer waits until the report stands. The firmware resumes it as `ERET` does, lets it enter its handler, or ends its task on every core of
its plot; once all accesses have ended the record empties and the launch counts the task, with STATUS 8. What the debugger has
written to the program counter takes effect as the bank goes on. That an ended task's tokens and waiting faults go, and that an
answer waits for the report, are the model's choice (log entry 59), and so are the zero registers of a bank after its task
(log entry 52). -/
def Obligations.BanksTakeFaultsStopAndAreAnswered : Prop :=
  (∀ (s : State) (b : Nat), validBank b = true → (s.bank b).hmode = true → (∀ f ∈ (s.bank b).faults, f.cls ≠ 17) →
    exec (.asyncTrapTaken b) s = .next s) ∧
  (∀ (s : State) (b : Nat) (f : Trap), validBank b = true →
    let k := s.bank b
    (if k.hmode then k.faults.find? fun f => f.cls == 17 else k.faults.head?) = some f → (f.asyn = true ∨ f.edge = true) →
    k.run = .live → k.pst = .live → k.slot = none → k.pend = none →
    ∃ t r, exec (.asyncTrapTaken b) s = .next t ∧ (∀ c, c ≠ b → t.bank c = s.bank c) ∧ t.mem = s.mem ∧ t.sram = s.sram ∧
      bits r.fstat 7 0 = f.cls % 256 ∧ bits r.fstat 15 8 = f.sub % 256 ∧ bits r.fstat 22 20 = f.eng % 8 ∧
      bit r.fstat 24 = false ∧ bit r.fstat 25 = f.restart ∧ bit r.fstat 26 = f.asyn ∧ r.epc = k.pc ∧ r.enpc = k.pc ∧
      r.einsn = 0 ∧ (f.asyn = true → r.eaddr = f.eaddr ∧ r.einfo = f.einfo ∧ r.eprog0 = f.prog0 ∧ r.eprog1 = f.prog1 ∧
        r.eprog2 = f.prog2 ∧ r.eprog3 = f.prog3) ∧ r.tvec = k.sys.tvec ∧ r.tmask = k.sys.tmask ∧ r.escr0 = k.sys.escr0 ∧ r.escr1 = k.sys.escr1 ∧
      (if bit k.sys.tmask f.cls = true ∧ k.sys.tvec ≠ 0 ∧ k.hmode = false ∧ f.cls ≠ 17 then
         t.bank b = { k with faults := k.faults.erase f, wait := .none, run := .entering r } ∧ (.handlerEntry b) ∈ t.pending
       else
         t.bank b = { k with faults := k.faults.erase f, wait := .none, slot := none, trapAt := s.counter,
                             run := .stopping (if k.hmode then k.sys else r) r k.hmode } ∧
         (.bankStopDrainEnd b) ∈ t.pending)) ∧
  (∀ (s : State) (b : Nat) (r : SysRegs), validBank b = true → (s.bank b).run = .entering r →
    ∃ t, exec (.handlerEntry b) s = .next t ∧ OnlyBank b s t ∧
      t.bank b = { s.bank b with run := .live, sys := r, hmode := true, slot := none, wait := .none,
                                 pc := BitVec.ofNat 64 (bits (s.bank b).sys.tvec 55 2 * 4) }) ∧
  (∀ (s : State) (b : Nat) (r rep : SysRegs) (double : Bool), validBank b = true →
    let k := s.bank b
    k.run = .stopping r rep double → k.arr = [] → k.pend = none → (∀ c, k.copy = some c → c.wait = 0 ∧ (bit c.b 32 = false ∨ c.trapped = true)) →
    ∃ t, exec (.bankStopDrainEnd b) s = .next t ∧
      t.bank b = { k with run := .stopped double, sys := r, stale := BitVec.allOnes 6 } ∧ (∀ c, c ≠ b → t.bank c = s.bank c) ∧
      RingGets s t (b / 256) (bits rep.fstat 7 0) (bits rep.fstat 15 8) rep.epc.toNat 3 k.trapAt double (.stop b) ∧
      { t with banks := s.banks, rings := s.rings, sends := s.sends, pending := s.pending } = s) ∧
  (∀ (s : State) (b : Nat) (double : Bool), validBank b = true →
    let k := s.bank b
    k.run = .stopped double → (∀ q ∈ s.rings, q.who ≠ .stop b) →
    (∀ v, k.edits = [.pc v] → ∃ t, exec (.bctlResume b) s = .next t ∧ (t.bank b).run = .live ∧ (t.bank b).hmode = false ∧
      (t.bank b).pc = v ∧ (t.bank b).slot = none ∧ (t.bank b).edits = [] ∧ (t.bank b).regs = k.regs ∧ OnlyBankOwing b s t) ∧
    (k.edits = [] → ∃ t, exec (.bctlResume b) s = .next t ∧ (t.bank b).hmode = false ∧ (t.bank b).run = .live ∧ (t.bank b).wait = .none ∧
      bits (t.bank b).sys.fstat 7 0 = 0 ∧ (∀ i, 8 ≤ i → bit (t.bank b).sys.fstat i = bit k.sys.fstat i) ∧
      GoesBack k.sys (t.bank b) ∧
      (∀ h, ((t.bank b).handle h).st = if (k.handle h).st = .faulted then .stale else (k.handle h).st) ∧
      ((t.bank b).block = k.block.map fun x =>
        let held := k.faults.any fun f => f.eng == 1
        if x.again = true ∨ (bit k.sys.fstat 26 = true ∧ bits k.sys.fstat 22 20 = 1) then
          { x with trapped := held, again := x.again && held }
        else x) ∧
      (bit k.sys.fstat 26 = true → bits k.sys.fstat 22 20 = 2 →
        (t.bank b).copy = k.copy.map fun x => { x with trapped := false }) ∧
      (t.bank b).regs = k.regs ∧ (t.bank b).queues = k.queues ∧ (t.bank b).cmds = k.cmds ∧ OnlyBankOwing b s t) ∧
    (double = false → k.sys.tvec ≠ 0 → ∃ t, exec (.bctlEnterHandler b) s = .next t ∧ OnlyBankOwing b s t ∧
      t.bank b = { k with run := .live, hmode := true, slot := none, wait := .none,
                          pc := BitVec.ofNat 64 (bits k.sys.tvec 55 2 * 4) }) ∧
    (double = true ∨ k.sys.tvec = 0 → exec (.bctlEnterHandler b) s = .next s)) ∧
  (∀ (s : State) (b : Nat), validBank b = true → (∃ q ∈ s.rings, q.who = .stop b) →
    ∀ i, i = .bctlResume b ∨ i = .bctlEnterHandler b → ∃ t, exec i s = .next t ∧ i ∈ t.pending ∧ { t with pending := s.pending } = s) ∧
  (∀ (s : State) (b : Nat), validBank b = true → (s.bank b).run ≠ .idle → (s.bank b).run ≠ .ending →
    let die := b / 256
    let n := (s.bank b).bindRec
    let x := (s.die die).bind n
    let ids := x.started.filter fun c => !x.finished.contains c
    (∀ c ∈ ids, (s.bank c).engs = []) →
    ∃ t, exec (.bctlEndTask b) s = .next t ∧ (t.die die).bind n = { x with ended := true } ∧
      (.taskEndComplete die n) ∈ t.pending ∧ (∀ c, c ∉ ids → t.bank c = s.bank c) ∧ t.mem = s.mem ∧ t.sram = s.sram ∧
      ∀ c ∈ ids, (t.bank c).run = .ending ∧ (t.bank c).wait = .none ∧ (t.bank c).slot = none ∧ (t.bank c).cmds = [] ∧
        (t.bank c).faults = [] ∧ (t.bank c).tokens = [] ∧ (t.bank c).block = none ∧ (t.bank c).regs = (s.bank c).regs ∧
        (t.bank c).posts = (s.bank c).posts ∧ (t.bank c).ldqs = (s.bank c).ldqs) ∧
  (∀ (s : State) (die n : Nat) (tk : Task) (l : Launch), validDie die = true → n ≤ 63 →
    let x := (s.die die).bind n
    let ids := x.started.filter fun c => !x.finished.contains c
    let s1 := ids.foldl State.sweep s
    x.ended = true → x.job = some tk → s.launchOf tk = some l → (∀ b ∈ ids, (s.bank b).eng 5 = none) →
    ((∃ b ∈ ids, s1.ending b = true) →
      ∃ t, exec (.taskEndComplete die n) s = .next t ∧ (.taskEndComplete die n) ∈ t.pending ∧ (t.die die).bind n = x ∧
        t.launches = s.launches ∧ (∀ c, c ∉ ids → t.bank c = s.bank c) ∧ t.mem = s.mem ∧ t.sram = s.sram) ∧
    ((∀ b ∈ ids, s1.ending b = false) →
      ∃ t, exec (.taskEndComplete die n) s = .next t ∧ t.mem = s.mem ∧ t.sram = s.sram ∧
        ((t.die die).bind n).job = none ∧ ((t.die die).bind n).state = (if x.devres then 5 else 0) ∧
        (∀ c ∈ x.started, (t.bank c).run = .idle ∧ (t.bank c).part = (s.bank c).part ∧ (t.bank c).regs = []) ∧
        (∀ c, c ∉ x.started → t.bank c = s.bank c) ∧
        (l.left ≤ 1 → t.launches = s.launches.filter fun m => m.id != l.id) ∧
        (1 < l.left → t.launches = s.launches.map fun m =>
          if m.id = l.id then { l with left := l.left - 1, ended := true } else m) ∧
        (l.left ≤ 1 → bits l.rcd 191 128 = 0 → t.rings = s.rings) ∧
        (∀ y bk, l.left ≤ 1 → bits l.rcd 191 128 ≠ 0 → l.ring = some y → l.b = some bk →
          t.rings = s.rings ++ [{ append (leafPa y.leaf y.size (bits l.rcd 191 128)) (leafFrame y.leaf * 65536 + pageBytes y.size)
            (leafKey y.leaf) l.part (ringRecord l.tasks 0 (bits l.rcd 335 320) 8 1 (bankDie bk) (coreNum bk) (bk % 2)) .nobody
            with no := s.sends + 1 }])))

/-- R429 to R432, R437 to R440: PCTL starts a save of a live bank that a task holds, into HBM of its own die, and a restore
of a saved one. A bank with nothing in flight is saved: its registers stand in the area, its latches, masks and tiles are
gone. A restore waits for what is on its way to the task; one whose area is intact brings the registers back from it, makes the
valid and pending handles stale and lets
the bank go on, with the report of its watchdog if it has one; any other ends the task. A saved context is what its area holds. An unregistered block
that outlives WDCTL's limit is stopped with class 18. Other banks, and all memory outside the area, stay. That a CMD whose AREA
lies outside the HBM of the core's own die, or overruns it, has no effect is the model's choice (log entry 37), and so is the
report of a bank that its watchdog stops in its handler (log entry 59). -/
def Obligations.BanksAreSavedAndRestored : Prop :=
  (∀ (s : State) (b : Nat) (v : Word), validBank b = true →
    let k := s.bank b
    let area := bits v 51 12 * 4096
    let ok := isHbm area = true ∧ paDie area = b / 256 ∧ area % 2 ^ 37 + 0x20000 ≤ 0x1DCD650000 ∧ area < 2 ^ 47
    (bits v 1 0 = 1 → k.pst = .live → (k.run = .live ∨ ∃ d, k.run = .stopped d) → ok → k.engs = [] →
      ∃ t, exec (.pctlSave b v) s = .next t ∧ (∀ c, c ≠ b → t.bank c = s.bank c) ∧ t.mem = s.mem ∧ (.saveComplete b) ∈ t.pending ∧
        t.bank b = { k with area := area, pst := .saving, lastEnd := s.reftime,
                            wait := if k.slot.isNone then .none else k.wait }) ∧
    (bits v 1 0 ≠ 1 ∨ k.pst ≠ .live ∨ ¬ ok → ∃ t, exec (.pctlSave b v) s = .next t ∧ OnlyBank b s t ∧
      t.bank b = { k with area := area }) ∧
    (bits v 1 0 = 2 → k.pst = .saved → ok → ∃ t, exec (.pctlRestore b v) s = .next t ∧ OnlyBankOwing b s t ∧
      t.bank b = { k with area := area, pst := .restoring } ∧ (.restoreComplete b) ∈ t.pending) ∧
    (bits v 1 0 ≠ 2 ∨ k.pst ≠ .saved ∨ ¬ ok → ∃ t, exec (.pctlRestore b v) s = .next t ∧ OnlyBank b s t ∧
      t.bank b = { k with area := area })) ∧
  (∀ (s : State) (b : Nat), validBank b = true → s.migr = [] →
    let k := s.bank b
    let outside (t : State) : Prop := ∀ a, ¬(k.area ≤ a ∧ a < k.area + 0x20000) → t.byte a = s.byte a
    k.area % 256 = 0 → k.sealedSeen = false →
    (k.pst = .saving → k.run = .live → k.slot = none → k.pend = none → k.posts = [] → k.ldqs = [] → k.arr = [] →
      k.block = none → k.copy = none → k.engs = [] → s.transforming b = false → k.itent = [] →
      (∀ q ∈ k.queues, ∀ e ∈ q.2.slots, e.2.tent = 0) →
      ∃ t, exec (.saveComplete b) s = .next t ∧ (∀ c, c ≠ b → t.bank c = s.bank c) ∧
        t.bank b = { k with pst := .saved, wait := .none, vregs := [], oregs := [], latches := [], stale := 0, masks := [],
                            tiles := [], leWait := none } ∧
        (Assoc.get none t.saved b).isSome = true ∧ RingGets s t (b / 256) 0 1 k.pc.toNat 4 s.counter false .nobody ∧
        AreaHolds t k.area k ∧ outside t) ∧
    (∀ x, k.pst = .restoring → Assoc.get none s.saved b = some x → s.arriving b = true →
      ∃ t, exec (.restoreComplete b) s = .next t ∧ (.restoreComplete b) ∈ t.pending ∧ { t with pending := s.pending } = s) ∧
    (∀ x, k.pst = .restoring → Assoc.get none s.saved b = some x → x.sealedSave = false → s.arriving b = false →
      (s.areaIntact b x = true → k.run = .live →
        ∃ t, exec (.restoreComplete b) s = .next t ∧ (t.bank b).pst = .live ∧ (t.bank b).run = .live ∧
          (t.bank b).wait = k.wait ∧ (t.bank b).slot = k.slot ∧
          (∀ h, ((t.bank b).handle h).st = if (k.handle h).st = .valid ∨ (k.handle h).st = .pending then .stale
            else (k.handle h).st) ∧ Assoc.get none t.saved b = none ∧ number s k.area 8 = (t.bank b).pc.toNat ∧
          (∀ r : BitVec 5, r ≠ 0 → number s (k.area + 256 + 8 * r.toNat) 8 = ((t.bank b).reg r).toNat) ∧
          (∀ c, c ≠ b → t.bank c = s.bank c) ∧ t.mem = s.mem ∧ t.sram = s.sram ∧
          RingGets s t (b / 256) 0 2 (number s k.area 8) 4 s.counter false .nobody) ∧
      (∀ d r, s.areaIntact b x = true → k.run = .stopped d → k.report = some r → bits (s.die (b / 256)).tcfg 61 16 ≠ 0 →
        ∃ t q q2, exec (.restoreComplete b) s = .next t ∧ (t.bank b).run = .stopped d ∧ (t.bank b).pst = .live ∧
          (t.bank b).report = none ∧ t.rings = s.rings ++ [q, q2] ∧ q.who = .stop b ∧ bits q.rcd 95 92 = 3 ∧
          bits q.rcd 135 128 = bits r.fstat 7 0 ∧ bit q.rcd 115 = d ∧ bits q.rcd 255 192 = k.trapAt % 2 ^ 64 ∧
          bits q2.rcd 95 92 = 4) ∧
      (s.areaIntact b x = false → ∃ t, exec (.restoreComplete b) s = .next t ∧
        ((t.die (b / 256)).bind k.bindRec).ended = true ∧ (.taskEndComplete (b / 256) k.bindRec) ∈ t.pending ∧ t.mem = s.mem)) ∧
    (k.pst = .saved → ∃ t, exec (.savedContextArrival b) s = .next t ∧ t.bank b = s.readArea b ∧
      (∀ c, c ≠ b → t.bank c = s.bank c) ∧ t.mem = s.mem ∧ t.memMeta = s.memMeta)) ∧
  (∀ (s : State) (b : Nat) (x : Block), validBank b = true →
    let k := s.bank b
    let limit := max 1 ((s.die (b / 256)).wdctl.getD 100000).toNat
    k.pst = .saving → k.lastEnd + limit ≤ s.reftime → k.slot = none → k.pend = none → k.block = some x → x.rst = none →
    x.again = false → k.arr = [] →
    (k.run = .live → ∃ t, exec (.blockWatchdog b) s = .next t ∧ OnlyBank b s t ∧ (t.bank b).run = .stopped k.hmode ∧
      (t.bank b).wait = .none ∧ (t.bank b).block = some (k.again x) ∧ (t.bank b).trapAt = s.counter ∧
      (∃ r, (t.bank b).report = some r ∧ bits r.fstat 7 0 = 18 ∧ bits r.fstat 22 20 = 1) ∧
      (k.hmode = true → (t.bank b).sys = k.sys) ∧
      (k.hmode = false → let f := (t.bank b).sys.fstat
        bits f 7 0 = 18 ∧ bits f 22 20 = 1 ∧ bit f 26 = true ∧ (t.bank b).sys.epc = k.pc ∧
        (t.bank b).sys.eprog0 = BitVec.ofNat 64 (x.idx % 1024)) ∧
      { t.bank b with run := k.run, wait := k.wait, block := k.block, sys := k.sys, trapAt := k.trapAt,
                      report := k.report } = k) ∧
    (∀ double, k.run = .stopped double → ∃ t f, exec (.blockWatchdog b) s = .next t ∧ OnlyBank b s t ∧
      t.bank b = { k with block := some (k.again x), faults := k.faults ++ [f] } ∧ f.cls = 18 ∧ f.asyn = true ∧ f.eng = 1))

/-- R441 to R443, R449, R450: the debugger attaches to a core none of whose banks is sealed, which is logged; its halt request
is a trap of class 17, of no engine, that waits for the next boundary; a write through its window gives a register, an image or a row of a halted
bank its value, at once or, of a program counter, a mode, a token count or a pointer, as the bank goes on; of a saved bank it
changes the save area. A corrected error counts in the present window, and at THRESH the resource is remapped to a spare, which
the trap ring records; one without a spare passes the fault to the structure around it, a cluster or a die being remapped only
once its plots are idle. The processors of the I/O die as targets of the port and the writes that wait for resumption are the
model's choice (log entry 38), and so are the latch as its own image (log entry 19), the numbered resources, the count that starts
again at a remap, the structure that takes a fault, and SUB in 8 bits (log entry 39). -/
def Obligations.DebuggersHaltAndErrorsAreCounted : Prop :=
  (∀ (s : State) (core : Nat), validCore core = true → (s.bank (2 * core)).sealedSeen = false →
    (s.bank (2 * core + 1)).sealedSeen = false →
    ∃ t e, exec (.debugAttach core) s = .next t ∧ t.core core = { s.core core with attached := true } ∧
      (∀ c, c ≠ core → t.core c = s.core c) ∧ t.modul = { s.modul with logWait := s.modul.logWait ++ [e] } ∧ e.ty = 6 ∧
      e.die = core / 128 ∧ e.time = s.reftime ∧ bits e.detail 17 8 = core / 128 ∧ bits e.detail 24 18 = core % 128 ∧
      (.accessLogAppend) ∈ t.pending ∧ { t with cores := s.cores, modul := s.modul, pending := s.pending } = s) ∧
  (∀ (s : State) (n : Nat), n = 126 ∨ n = 127 → ∃ t e, exec (.debugAttach (1023 * 128 + n)) s = .next t ∧ n ∈ t.modul.attached ∧
    t.modul = { s.modul with attached := t.modul.attached, logWait := s.modul.logWait ++ [e] } ∧ e.ty = 6 ∧
    bits e.detail 17 8 = 1023 ∧ bits e.detail 24 18 = n ∧ { t with modul := s.modul, pending := s.pending } = s) ∧
  (∀ (s : State) (b : Nat), validBank b = true → (s.core (b / 2)).attached = true → (s.bank b).sealedSeen = false →
    let k := s.bank b
    k.pst = .live →
    (k.run = .live → ∃ t f, exec (.debugHaltRequest b) s = .next t ∧ t.bank b = { k with faults := k.faults ++ [f] } ∧
      f.cls = 17 ∧ f.asyn = false ∧ f.edge = true ∧ f.restart = false ∧ f.eng = 0 ∧ (.asyncTrapTaken b) ∈ t.pending ∧ OnlyBankOwing b s t) ∧
    (∀ double, k.run = .stopped double →
      let becomes (item : DebugItem) (p : Bank → Prop) : Prop :=
        ∃ t, exec (.debugWindowWrite b item) s = .next t ∧ OnlyBank b s t ∧ p (t.bank b)
      (∀ item, ((∃ v, item = .pc v) ∨ (∃ v, item = .hmode v) ∨ (∃ c n, item = .tokens c n) ∨ (∃ q n, item = .qhead q n) ∨
          (∃ q n, item = .qtail q n) ∨ (∃ q n, item = .qrsv q n) ∨ ∃ q n, item = .qcheck q n) →
        becomes item fun z => z = { k with edits := k.edits ++ [item] }) ∧
      (∀ n v, n ≤ 31 → becomes (.sreg n v) fun z => { z with regs := k.regs } = k ∧
        ∀ r : BitVec 5, z.reg r = if r.toNat = n ∧ r ≠ 0 then v else k.reg r) ∧
      (∀ n v, n ≤ 15 → becomes (.handle n v) fun z => { z with handles := k.handles } = k ∧ ∀ m, z.handle m =
        if m = n then { k.handle m with base := v.setWidth 56, intent := (v >>> 64).setWidth 3,
                                        gen := (v >>> 128).setWidth 16 } else k.handle m) ∧
      (∀ n v, n ≤ 15 → becomes (.ad n v) fun z => { z with ads := k.ads } = k ∧
        ∀ m, Assoc.get 0 z.ads m = if m = n then setBits (setBits v 255 145 0) 127 120 0 else Assoc.get 0 k.ads m) ∧
      (∀ n v, n ≤ 7 → becomes (.layoutSlot n v) fun z => { z with layouts := k.layouts } = k ∧
        ∀ m, Assoc.get 0 z.layouts m = if m = n then setBits (setBits (setBits v 479 408 0) 399 391 0) 387 387 0 else Assoc.get 0 k.layouts m) ∧
      (∀ n v, n ≤ 63 → becomes (.vreg n v) fun z => { z with vregs := k.vregs } = k ∧
        ∀ m, Assoc.get VReg.zero z.vregs m = if m = n then { VReg.zero with row := v } else Assoc.get VReg.zero k.vregs m) ∧
      (∀ n v, 1 ≤ n → n ≤ 7 → becomes (.mask n v) fun z => { z with masks := k.masks } = k ∧
        ∀ m, Assoc.get Mask.zero z.masks m = if m = n then { Mask.zero with bits := v } else Assoc.get Mask.zero k.masks m) ∧
      (∀ n v, n ≤ 7 → becomes (.oreg n v) fun z => { z with oregs := k.oregs } = k ∧
        ∀ m, z.oreg m = if m = n then { VReg.zero with row := v } else k.oreg m) ∧
      (∀ n v, n ≤ 5 → becomes (.latch n v) fun z => { z with latches := k.latches } = k ∧
        ∀ m, z.latch m = if m = n then { VReg.zero with row := v } else k.latch m) ∧
      (∀ n v, n ≤ 63 → becomes (.vtags n v) fun z => { z with vregs := k.vregs } = k ∧
        ∀ m, z.vreg m = if m = n then { k.vreg n with tags := v } else k.vreg m) ∧
      (∀ n v, n ≤ 7 → becomes (.otags n v) fun z => { z with oregs := k.oregs } = k ∧
        ∀ m, z.oreg m = if m = n then { k.oreg n with tags := v } else k.oreg m) ∧
      (∀ n v, 1 ≤ n → n ≤ 7 → becomes (.taint n v) fun z => { z with masks := k.masks } = k ∧
        ∀ m, z.lmask m = if m = n then { k.lmask n with taint := v } else k.lmask m) ∧
      (∀ a i j v, i ≤ 127 → j ≤ 127 → becomes (.tile a i j v) fun z => { z with tiles := k.tiles } = k ∧
        z.tile (!a) = k.tile (!a) ∧ { z.tile a with elems := (k.tile a).elems } = k.tile a ∧
        ∀ p, Assoc.get 0 (z.tile a).elems p = if p = i * 128 + j then v else Assoc.get 0 (k.tile a).elems p) ∧
      (∀ a rows cols, rows ≤ 128 → cols ≤ 128 → becomes (.edge a rows cols) fun z => { z with tiles := k.tiles } = k ∧
        z.tile (!a) = k.tile (!a) ∧ z.tile a = { k.tile a with cutRows := 128 - rows, cutCols := 128 - cols }) ∧
      (∀ v, becomes (.bindRec v) fun z => z = { k with bindRec := v % 64 }) ∧
      (∀ q i v, q ≤ 7 → i < (if q ≤ 5 then 16 else 32) → becomes (.queueRow q i v) fun z => { z with queues := k.queues } = k ∧
        (∀ p, p ≠ q → z.queue p = k.queue p) ∧ (z.queue q).head = (k.queue q).head ∧ (z.queue q).tail = (k.queue q).tail ∧
        ((z.queue q).slot q i).row = v ∧ ((z.queue q).slot q i).poison = false ∧ ((z.queue q).slot q i).chk = 0) ∧
      (∀ v, becomes (.sysreg 1 v) fun z => z = { k with sys := { k.sys with epc := v } }) ∧
      (∀ v, becomes (.sysreg 2 v) fun z => z = { k with sys := { k.sys with enpc := v } }) ∧
      (∀ v, becomes (.sysreg 4 v) fun z => z = { k with sys := { k.sys with eaddr := v } }) ∧
      (∀ n, n < 6144 → let c := s.readCell (spadKey (b / 2) n) k.part
        bit c.rtag 23 = false → ∃ t, exec (.debugWindowWrite b (.spadRead n)) s = .next t ∧
          t.modul = { s.modul with debugged := (b * 8192 + n, c.data, c.poison) :: s.modul.debugged } ∧
          { t with modul := s.modul } = s) ∧
      (∀ n v, n ≤ 63 → becomes (.barrier n v) fun z => { z with cb := k.cb } = k ∧
        ∀ m, z.cbar m = if m = n then v else k.cbar m) ∧
      (∀ n v, n ≤ 7 → becomes (.mbox n v) fun z => { z with mbox := k.mbox } = k ∧
        ∀ m, Assoc.get 0 z.mbox m = if m = n then v else Assoc.get 0 k.mbox m) ∧
      (∀ v, becomes (.event v) fun z => z = { k with event := v }) ∧
      (∀ n v, n < 6144 → ∃ t, exec (.debugWindowWrite b (.spadRow n v)) s = .next t ∧
        t.cell (spadKey (b / 2) n) = { data := v, poison := false, ptag := ptagOf k.part, rtag := 0, tent := 0 } ∧
        (∀ m, m ≠ spadKey (b / 2) n → t.cell m = s.cell m) ∧ { t with sram := s.sram } = s))) ∧
  (∀ (s : State) (b : Nat), validBank b = true → (s.core (b / 2)).attached = true → (s.bank b).sealedSeen = false →
    (s.bank b).pst = .saved → s.migr = [] → (s.bank b).area % 256 = 0 →
    let old := s.readArea b
    let edits (item : DebugItem) (z : Bank) : Prop := ∃ t, exec (.debugWindowWrite b item) s = .next t ∧ t.bank b = z ∧
      (∀ c, c ≠ b → t.bank c = s.bank c) ∧ t.sram = s.sram ∧
      ∀ a, ¬((s.bank b).area ≤ a ∧ a < (s.bank b).area + 0x20000) → t.byte a = s.byte a
    (∀ v, (∀ d, old.run ≠ .stopped d) → edits (.pc v) { old with pc := v }) ∧
    (∀ n v, n ≤ 31 → edits (.sreg n v) (old.setReg (BitVec.ofNat 5 n) v)) ∧
    (∀ n v, n ≤ 63 → edits (.barrier n v) (old.setCbar n v))) ∧
  (∀ (s : State) (die kind idx : Nat), validDie die = true → idx < rasCount kind →
    let d := s.die die
    let window := s.reftime / 2 ^ 20
    let key := kind * 2 ^ 16 + idx
    let n := (if d.rasWin = window then Assoc.get 0 d.ras key else 0) + 1
    let thresh := max 1 (d.rascfg.getD 4).toNat
    d.remaps = [] →
    let used (k i : Nat) : Nat := Assoc.get 0 d.spares (k * 2 ^ 16 + i)
    let left (k i : Nat) : Nat :=
      if k = 5 then
        if used 5 i = 0 then ((List.range 16).filter fun g => 16 * (i / 16) + g ≠ i ∧ used 5 (16 * (i / 16) + g) = 0).length else 0
      else spareTotal k i - used k i
    let idle (k i : Nat) : Prop := ∀ p ∈ s.banks, p.2.run = .idle ∨
      (if k = 6 then bankCluster p.1 ≠ 16 * die + i else bankDie p.1 ≠ die)
    let others (t : State) (count : Nat) : Prop := (t.die die).rasWin = window ∧ Assoc.get 0 (t.die die).ras key = count ∧ (∀ k, k ≠ key →
        Assoc.get 0 (t.die die).ras k = if d.rasWin = window then Assoc.get 0 d.ras k else 0) ∧
      { t.die die with ras := d.ras, rasWin := d.rasWin, spares := d.spares, remaps := d.remaps } = d ∧
      (∀ c, c ≠ die → t.die c = s.die c) ∧
      { t with dies := s.dies, rings := s.rings, sends := s.sends, pending := s.pending } = s
    let still (t : State) : Prop := (t.die die).spares = d.spares ∧ t.rings = s.rings
    let absorbs (k i : Nat) : Prop := ∃ t, exec (.correctedError die kind idx) s = .next t ∧ others t 0 ∧
      (k < 6 ∨ idle k i → (t.die die).remaps = [] ∧
        (∀ j, Assoc.get 0 (t.die die).spares j = Assoc.get 0 d.spares j + if j = k * 2 ^ 16 + i then 1 else 0) ∧
        RingGets s t die k ((if k = 5 then left 5 i else left k i - 1) % 256) i 5 s.counter false .nobody) ∧
      (¬(k < 6 ∨ idle k i) → (t.die die).remaps = [(k, i)] ∧ still t)
    let around : Option (Nat × Nat) := match kind with
      | 1 => some (if spareTotal 1 idx = 8 then (7, 0) else (6, Config.bankCluster idx % 14))
      | 2 | 5 | 6 => some (7, 0)
      | _ => none
    (n < thresh → ∃ t, exec (.correctedError die kind idx) s = .next t ∧ others t n ∧ (t.die die).remaps = [] ∧ still t) ∧
    (thresh ≤ n →
      (0 < left kind idx → absorbs kind idx) ∧
      (∀ k i, left kind idx = 0 → around = some (k, i) → 0 < left k i → absorbs k i) ∧
      (∀ i, left kind idx = 0 → around = some (6, i) → left 6 i = 0 → 0 < left 7 0 → absorbs 7 0) ∧
      (left kind idx = 0 → (around = none ∨ (left 7 0 = 0 ∧ ∀ k i, around = some (k, i) → left k i = 0)) →
        ∃ t, exec (.correctedError die kind idx) s = .next t ∧ others t 0 ∧ (t.die die).remaps = [] ∧ still t))) ∧
  (∀ (s : State) (die : Nat), validDie die = true →
    let d := s.die die
    let window := s.reftime / 2 ^ 20
    (d.remaps = [] → d.rasWin = window → exec (.rasWindowEnd die) s = .next s) ∧
    (d.remaps = [(7, 0)] → (∀ p ∈ s.banks, p.2.run = .idle ∨ bankDie p.1 ≠ die) →
      let left := spareTotal 7 0 - Assoc.get 0 d.spares (7 * 2 ^ 16)
      0 < left → ∃ t, exec (.rasWindowEnd die) s = .next t ∧ (t.die die).remaps = [] ∧
        Assoc.get 0 (t.die die).spares (7 * 2 ^ 16) = Assoc.get 0 d.spares (7 * 2 ^ 16) + 1 ∧
        RingGets s t die 7 ((left - 1) % 256) 0 5 s.counter false .nobody) ∧
    (d.remaps = [] → d.rasWin ≠ window → ∃ t, exec (.rasWindowEnd die) s = .next t ∧ t.die die = { d with ras := [], rasWin := window } ∧
      (∀ c, c ≠ die → t.die c = s.die c) ∧ { t with dies := s.dies } = s))

/-! ### Revocation, keys, meters and the access log (spec/18, spec/19) -/

/-- R391, R392, R399 to R401: `SHOOT`, `KEYLD` and `KEYDROP` with rights and legal operands wait for every die, or for their
die's key unit; illegal operands trap. At each die that it has reached a shootdown makes stale every valid handle in range and
every pending handle of the partition, in saved contexts too, and drops the cached translations in range; a die acknowledges once
it has drained, and with the
last acknowledgement the word completes, and what waited for it of the CXL table comes into force (the model's choice: log
entry 20). The key unit serves its oldest request: a load that is judged good installs its
record, logs it and completes, any other takes the key trap with its cause; a drop first revokes its pages, each handle with the next GEN, and once drained empties
or closes its slot, logs it and completes. -/
def Obligations.TranslationsAndKeysAreRevoked : Prop :=
  (∀ (s : State) (a : BitVec 5), s.hasRights s.cur = true →
    let v := s.reg a
    let ok := bits v 57 56 = 0 ∧ bits v 15 0 = 0 ∧ (bits v 59 58 = 1 → bits v 25 16 = 0) ∧
      (bits v 59 58 = 2 → bits v 35 16 = 0) ∧ (bits v 59 58 = 3 → bits v 55 16 = 0)
    (ok → ∃ t ds, exec (.shoot a) s = .next t ∧ t.me = { s.me with wait := .shoot v ds [] } ∧ OnlyMeOwing s t ∧
      (∀ d, d ∈ ds ↔ d = s.cur / 256 ∨ s.dieExists (s.cur / 256) d = true) ∧
      ∀ d ∈ ds, (.shootDieArrival s.cur d) ∈ t.pending) ∧
    (¬ ok → s.me.run = .live → Traps (.shoot a) s 3 0)) ∧
  (∀ (s : State) (b die : Nat) (arg : Word) (left draining : List Nat), validBank b = true → validDie die = true →
    (s.bank b).wait = .shoot arg left draining →
    let reach := s.serve (agentShoot b die) (b + 1) ((s.bank b).part % 16) (s.wayTo .management (b / 256) die)
    (die ∈ left → reach.1 = false → ∃ t, exec (.shootDieArrival b die) s = .next t ∧
      (.shootDieArrival b die) ∈ t.pending ∧ { t with pending := s.pending, passed := s.passed } = s) ∧
    (die ∈ left → reach.1 = true → AreasApart s → ∃ t, exec (.shootDieArrival b die) s = .next t ∧
      (t.bank b).wait = .shoot arg (left.filter fun d => d != die) (die :: draining) ∧
      (.shootDieArrival b die) ∈ t.pending ∧ OnlyAreas s t ∧ t.sram = s.sram ∧
      (∀ c, c / 256 ≠ die → c ≠ b → t.bank c = s.bank c) ∧
      (∀ c h, c / 256 = die → Revokes s t c h ((context s c).part = bits arg 63 60) fun x =>
        Shot arg (context s c).part x.page x.size) ∧
      (∀ c x, x ∈ (t.core c).tlb ↔ x ∈ (s.core c).tlb ∧ ¬(c / 128 = die ∧ Shot arg x.part x.page x.size))) ∧
    (die ∉ left → die ∈ draining →
      (s.revokeDrained die (shootPages arg) = true → ∃ t, exec (.shootDieArrival b die) s = .next t ∧
        t.bank b = { s.bank b with wait := .shoot arg left (draining.filter fun d => d != die) } ∧
        (.shootComplete b) ∈ t.pending ∧ OnlyBankOwing b s t) ∧
      (s.revokeDrained die (shootPages arg) = false → ∃ t, exec (.shootDieArrival b die) s = .next t ∧
        (.shootDieArrival b die) ∈ t.pending ∧ { t with pending := s.pending } = s)) ∧
    (left = [] → draining = [] →
      (bits arg 59 58 ≠ 3 → ∃ t, exec (.shootComplete b) s = .next t ∧ BankGoesOn s t b ∧
        { t with banks := s.banks, migr := s.migr, dies := s.dies } = s ∧
        (∀ d, { t.die d with cxlNow := (s.die d).cxlNow } = s.die d) ∧
        (∀ d e,
          let old := Assoc.get 0 (s.die d).cxlNow e
          let new := Assoc.get 0 (s.die d).cxl e
          Assoc.get 0 (t.die d).cxlNow e =
            if cxlRoom old ≤ cxlRoom new ∨ s.cxlHeld d e (cxlRoom new) (cxlRoom old) = false then new else old) ∧
        t.migr = s.migr.map fun m =>
          if m.phase = 3 ∧ s.shoots (b / 256) arg m = true then { m with phase := 4, since := s.reftime } else m) ∧
      (bits arg 59 58 = 3 → ∃ t, exec (.shootComplete b) s = .next t ∧ (t.bank b).wait = .none ∧
        (t.bank b).pc = ((s.bank b).advance 4).pc ∧ t.mem = s.mem ∧
        ∀ d, Assoc.get 0 (t.die d).rootNow (bits arg 63 60) = Assoc.get 0 (s.die d).ptroot (bits arg 63 60)))) ∧
  (∀ (s : State) (a : BitVec 5), s.hasRights s.cur = true →
    let v := s.reg a
    let die := s.cur / 256
    let asks (u : State) (i : Instr) (drop : Bool) (xs : List Byte) : Prop := ∃ t, exec i s = .next t ∧
      t.me = { s.me with wait := .key (bits v 12 0) drop } ∧ (∀ c, c ≠ s.cur → t.bank c = s.bank c) ∧
      (t.die die).keyq = (u.die die).keyq ++ [KeyReq.mk s.cur drop (bits v 12 0) xs false] ∧
      { t.die die with keyq := (u.die die).keyq } = u.die die ∧ (∀ d, d ≠ die → t.die d = u.die d) ∧
      (.keyRequestServe die) ∈ t.pending ∧ SameMemory s t ∧ t.sram = s.sram
    (bits v 63 13 = 0 → bits v 12 0 ≠ 0 → asks s (.keydrop a) true [] ∧
      ∀ (h : BitVec 4) (off : BitVec 12) (x : Acc) (xs : List Byte) (u : State),
        s.access s.cur h.toNat (off.toNat * 64) 576 64 1 = .ok x → s.readWaits s.cur x.pa 576 = false →
        s.readThrough s.cur x 576 = .got xs none u → asks u (.keyld a h off) false xs) ∧
    (bits v 63 13 ≠ 0 ∨ bits v 12 0 = 0 → s.me.run = .live →
      Traps (.keydrop a) s 3 0 ∧ ∀ h off, Traps (.keyld a h off) s 3 0)) ∧
  (∀ (s : State) (die : Nat) (r : KeyReq) (rest : List KeyReq), validDie die = true → (s.die die).keyq = r :: rest →
    let k := r.slot
    let x := s.keySlot die k
    (r.drop = false → (s.bank r.b).run = .live → s.modul.fuseout = false → s.modul.logWait = [] →
      match s.judgeKey die k r.blob with
      | .ok p => ∃ t e, exec (.keyRequestServe die) s = .next t ∧ BankGoesOn s t r.b ∧ (t.die die).keyq = rest ∧
          (t.keySlot die k).state = (if bit p 596 then 2 else 1) ∧ (t.keySlot die k).part = bits p 595 592 ∧
          (t.keySlot die k).blob = BitVec.ofNat 64 (bits p 575 512) ∧
          (t.keySlot die k).key = BitVec.ofNat 512 (bits p 511 0) ∧
          (t.keySlot die k).rbase = bits p 831 796 ∧ (t.keySlot die k).rsize = bits p 863 832 ∧
          (t.keySlot die k).win = bits p 895 864 ∧ (t.keySlot die k).rate = bits p 959 896 ∧
          (t.keySlot die k).cap = bits p 1023 960 ∧ (t.keySlot die k).total = 0 ∧
          (bit p 596 = true → ∀ d j, ¬(d = die ∧ j = k) → t.keySlot d j = s.keySlot d j) ∧
          (bit p 596 = false → (∀ d, d / 16 = die / 16 → t.keySlot d k = t.keySlot die k) ∧
            ∀ d j, ¬(d / 16 = die / 16 ∧ j = k) → t.keySlot d j = s.keySlot d j) ∧
          t.modul.log = e :: s.modul.log ∧ e.ty = 1 ∧ e.die = die ∧ e.key = k ∧ t.mem = s.mem
      | .error c => ∃ t, exec (.keyRequestServe die) s = .next t ∧ BankTrapped s t r.b 14 c ∧ (t.die die).keyq = rest ∧
          (∀ d, d ≠ r.b → t.bank d = s.bank d) ∧ (∀ d j, t.keySlot d j = s.keySlot d j) ∧ t.mem = s.mem) ∧
    (r.drop = true →
      (x.state ≠ 1 → x.state ≠ 2 → ∃ t, exec (.keyRequestServe die) s = .next t ∧ BankGoesOn s t r.b ∧
        (t.die die).keyq = rest ∧ t.modul = s.modul ∧ t.mem = s.mem ∧ ∀ d j, t.keySlot d j = s.keySlot d j) ∧
      (x.state = 1 ∨ x.state = 2 → r.revoked = false → AreasApart s →
        let hit (e : BitVec 64) : Prop := leafKey e = k ∧ (x.state = 2 → x.rbase ≤ leafFrame e ∧ leafFrame e < x.rbase + x.rsize)
        ∃ t, exec (.keyRequestServe die) s = .next t ∧ (t.die die).keyq = { r with revoked := true } :: rest ∧
          (.keyRequestServe die) ∈ t.pending ∧ OnlyAreas s t ∧ t.sram = s.sram ∧ (∀ d j, t.keySlot d j = s.keySlot d j) ∧
          (∀ c h, s.die (c / 256) ≠ Die.zero → Revokes s t c h True fun y => hit y.leaf) ∧
          ∀ c y, s.die (c / 128) ≠ Die.zero → (y ∈ (t.core c).tlb ↔ y ∈ (s.core c).tlb ∧ ¬ hit y.leaf)) ∧
      (∀ rv ds, s.dropped die k = some (rv, ds) → r.revoked = true → (∀ d ∈ ds, s.revokeDrained d rv = true) →
        s.modul.fuseout = false → s.modul.logWait = [] →
        ∃ t e, exec (.keyRequestServe die) s = .next t ∧ BankGoesOn s t r.b ∧ t.mem = s.mem ∧
          (x.state = 2 → t.keySlot die k = { x with state := 3, key := 0 }) ∧
          (x.state = 1 → ∀ d, d / 16 = die / 16 → t.keySlot d k = KeySlot.zero) ∧
          t.modul.log = e :: s.modul.log ∧ e.ty = 2 ∧ e.die = die ∧ e.key = k)))

/-- R404, R405, R407 to R410: a port that holds less than a row's credit draws a unit of 4,096 bytes when RATE over WIN and
CAP allow it, waits when RATE alone fails, and gets nothing past CAP; a waiting port is served as the window moves. The
security processor appends the oldest event with the next SEQ, the EPOCH and the hash of the entry before it; the host asks
for a checkpoint by its nonce; an attestation report answers a nonce. That neither has an effect before READY is the
model's choice (log entry 61). -/
def Obligations.MetersAndTheLogKeepTheirOrder : Prop :=
  (∀ (s : State) (port die key : Nat), validDie die = true → port ≤ 101 →
    let x := s.keySlot die key
    let recent := x.granted.filter fun g => decide (s.reftime < g + x.win)
    let capped := x.state ≠ 2 ∨ (x.cap ≠ 2 ^ 64 - 1 ∧ x.cap < x.total + 4096)
    let grants (t : State) : Prop := t.keySlot die key = { x with
        granted := s.reftime :: recent, total := x.total + 4096, waiting := x.waiting.filter (fun p => p != port),
        credit := Assoc.set 0 x.credit port (Assoc.get 0 x.credit port + 4096) } ∧
      (∀ d j, ¬(d = die ∧ j = key) → t.keySlot d j = s.keySlot d j) ∧ t.banks = s.banks ∧ t.mem = s.mem ∧
      (t.modul.logWait = s.modul.logWait ∨ ∃ e, e.ty = 5 ∧ t.modul.logWait = s.modul.logWait ++ [e])
    (256 ≤ Assoc.get 0 x.credit port ∨ capped → exec (.egressCreditRequest port die key) s = .next s) ∧
    (Assoc.get 0 x.credit port < 256 → ¬ capped → 4096 * recent.length + 4096 ≤ x.rate →
      ∃ t, exec (.egressCreditRequest port die key) s = .next t ∧ grants t) ∧
    (Assoc.get 0 x.credit port < 256 → ¬ capped → x.rate < 4096 * recent.length + 4096 →
      ∃ t, exec (.egressCreditRequest port die key) s = .next t ∧ port ∈ (t.keySlot die key).waiting ∧
        { t.keySlot die key with waiting := x.waiting, warned := x.warned } = x ∧
        (∀ d j, ¬(d = die ∧ j = key) → t.keySlot d j = s.keySlot d j) ∧
        (∀ w, x.warned = some w → s.reftime < w + x.win → t.modul = s.modul ∧ (t.keySlot die key).warned = x.warned) ∧
        ((∀ w, x.warned = some w → w + x.win ≤ s.reftime) → ∃ e, e.ty = 4 ∧
          t.modul.logWait = s.modul.logWait ++ [e] ∧ (t.keySlot die key).warned = some s.reftime)) ∧
    (x.waiting = [] → exec (.meterCreditAgeOut die key) s = .next s) ∧
    (x.waiting = [port] → ¬ capped → 4096 * recent.length + 4096 ≤ x.rate →
      ∃ t, exec (.meterCreditAgeOut die key) s = .next t ∧ grants t)) ∧
  (∀ (s : State) (e : LogEntry) (es : List LogEntry), s.modul.logWait = e :: es →
    let m := s.modul
    let seq := match m.log with
      | h :: _ => if h.epoch = m.epoch then h.seq + 1 else 0
      | [] => 0
    (m.fuseout = true → ∃ t, exec .accessLogAppend s = .next t ∧ t.modul = { m with logWait := es } ∧
      { t with modul := s.modul, pending := s.pending } = s) ∧
    (m.fuseout = false → e.ty ≠ 9 → ∃ t n, exec .accessLogAppend s = .next t ∧ t.modul.log = n :: m.log ∧
      { n with prev := e.prev } = { e with seq := seq, epoch := m.epoch } ∧
      (∀ h hs, m.log = h :: hs → seq ≠ 0 → n.prev = Config.sha512 h.bytes) ∧
      (seq = 0 → m.checkpoints = [] → n.prev = 0) ∧
      (∀ c cs, seq = 0 → m.checkpoints = c :: cs → n.prev = c.hash) ∧
      t.modul.logWait = es ∧ (seq % 64 ≠ 63 → t.modul.checkpoints = m.checkpoints) ∧
      (seq % 64 = 63 → ∃ c, t.modul.checkpoints = c :: m.checkpoints ∧ c.seq = seq ∧ c.epoch = m.epoch ∧
        c.hash = Config.sha512 n.bytes ∧ c.nonce = 0) ∧
      { t with modul := s.modul, pending := s.pending } = s)) ∧
  (∀ (s : State) (v : Word),
    (v ≠ 1 ∨ s.modul.ready = false → exec (.logreqWrite v) s = .next s) ∧
    (v = 1 → s.modul.ready = true → ∃ t e, exec (.logreqWrite v) s = .next t ∧ e.ty = 9 ∧
      (∀ i, i < 4 → bits e.detail (64 * i + 63) (64 * i) = (Assoc.get 0 s.modul.lognonce i).toNat) ∧
      t.modul = { s.modul with logWait := s.modul.logWait ++ [e] } ∧ (.accessLogAppend) ∈ t.pending ∧
      { t with modul := s.modul, pending := s.pending } = s)) ∧
  (∀ (s : State) (nonce : BitVec 256),
    (s.modul.ready = false → exec (.attestationRequest nonce) s = .next s) ∧
    (s.modul.ready = true → ∃ t q, exec (.attestationRequest nonce) s = .next t ∧
      t.modul = { s.modul with reports := s.modul.reports ++ [q] } ∧ { t with modul := s.modul } = s ∧
      bits q 2047 1792 = nonce.toNat ∧ bits q 1711 1696 = s.modul.svnmin % 65536 ∧ bits q 2559 2048 = s.dieKeys.toNat ∧ bits q 31 0 = 0x41545331 ∧ bits q 1727 1712 = s.modul.epoch % 65536))

/-! ### The host interface and bring-up (spec/22) -/

/-- R4, R195, R217, R289, R346, R381, R397, R413, R439, R449, R467 to R474: an access by the host or by a device behind an
attached port to device memory becomes a read or write at its home, a whole row brought by a packet, any other an Unsupported
Request; the host's writes through BAR0 go to the notify registers, and its reads there give zeros; before READY a host read is
aborted. A legal power limit is taken. A write of a configuration register changes its writable fields, of the tables of STAGE 7
only in that stage or after READY. A reset of the
package ends every task, empties registers and SRAM and starts bring-up, keeping memory, log and fuses; each stage ends in
the next, or in failure (so does one whose image has a security version below SVNMIN), and after the last READY is set. The
model's choices are: a power limit ignored before READY (log entry 61); CXL accesses served before READY, and the Unsupported
Request of every access that names nothing (log entry 41); the layout of the extents register (log entry 28); SVNMIN raised to a
free value (log entry 63); a root, and a CXL entry that takes no memory away, in force at once, the root before READY alone (log
entry 20); what a reset keeps, and tables closed before STAGE 7 (log entry 26). -/
def Obligations.TheModuleAnswersConfiguresAndStarts : Prop :=
  (∀ (s : State) (off len : Nat) (data : List Byte) (w : Who) (i : Instr),
    (w = .host ∧ s.modul.ready = true ∧ i = .hostMemoryAccess off data len) ∨
    (∃ p, p ≤ 3 ∧ w = .cxl p ∧ bit (Assoc.get 0 (s.die 0).cxl p) 63 = true ∧ i = .cxlDeviceAccess p off data len) →
    isWakeWin off = false → off < 2 ^ 52 →
    let n := if data = [] then len else data.length
    let asks (t : State) : Prop := ∃ x : Bulk, t.bulk = s.bulk ++ [x] ∧ x.pa = off ∧ x.data = data ∧ x.len = n ∧
      x.key = 0 ∧ x.who = w ∧ x.poison = false ∧ x.rtag = 0 ∧ x.arr = 0 ∧ x.no = s.sends + 1 ∧ t.sends = s.sends + 1 ∧
      { t with bulk := s.bulk, packets := s.packets, sends := s.sends, pending := s.pending } = s ∧
      (data.length ≠ 256 → x.tent = 0 ∧ t.packets = s.packets) ∧
      (data.length = 256 → ∃ p y, x.tent = p + 1 ∧ s.packet p = none ∧ t.packet p = some y ∧ y.who = w ∧ y.sram = false ∧
        y.pa = off ∧ y.data = data ∧ y.failed = false ∧ y.into = none ∧ ∀ q, q ≠ p → t.packet q = s.packet q)
    (s.memoryAt off n = true → data = [] → ∃ t, exec i s = .next t ∧ asks t ∧ (.bulkRead s.bulk.length) ∈ t.pending) ∧
    (s.memoryAt off n = true → data ≠ [] → off % 256 + data.length ≤ 256 → ∃ t, exec i s = .next t ∧ asks t ∧
      (.bulkWrite s.bulk.length) ∈ t.pending) ∧
    (s.memoryAt off n = false → ∃ t, exec i s = .next t ∧ Answers s t .unsupported)) ∧
  (∀ (s : State) (off len : Nat) (data : List Byte), s.modul.ready = false →
    (data = [] → ∃ t, exec (.hostMemoryAccess off data len) s = .next t ∧ Answers s t .abort) ∧
    (data ≠ [] → exec (.hostMemoryAccess off data len) s = .next s)) ∧
  (∀ (s : State) (seq : Nat) (v : Word), seq < 2 ^ 24 → s.modul.ready = true → ∃ t,
    exec (.hostMemoryAccess (0xF570000000000 + 256 * seq) (natLE 8 v.toNat) 0) s = .next t ∧
      (.wakeWrite seq v) ∈ t.pending ∧
      t.winWrites = s.winWrites ++ [{ b := none, host := true, wake := true, n := seq, v := v, pa := 0xF570000000000 + 256 * seq,
                                      no := s.sends + 1 }] ∧
      { t with winWrites := s.winWrites, sends := s.sends, pending := s.pending } = s) ∧
  (∀ (s : State) (q : Nat) (v : Word) (n : Nat), q ≤ 1023 → s.modul.ready = true → (n = 4 ∨ n = 8) → v.toNat < 2 ^ (8 * n) →
    (∃ t, exec (.hostMemoryAccess (2 ^ 52 + 64 * q) (natLE n v.toNat) 0) s = .next t ∧
      (.notifyRegisterWrite q v) ∈ t.pending ∧
      t.winWrites = s.winWrites ++ [{ b := none, host := true, wake := false, n := q, v := v, pa := 0, no := s.sends + 1 }] ∧
      { t with winWrites := s.winWrites, sends := s.sends, pending := s.pending } = s) ∧
    (∀ o len, o < 0x10000 → ∃ t, exec (.hostMemoryAccess (2 ^ 52 + o) [] len) s = .next t ∧
      Answers s t (.data (List.replicate len 0) false)) ∧
    ∀ o, o < 64 → o ≠ 0 → exec (.hostMemoryAccess (2 ^ 52 + 64 * q + o) (natLE n v.toNat) 0) s = .next s) ∧
  (∀ (s : State) (v : Word),
    (s.modul.ready = true → 2400 ≤ bits v 15 0 → bits v 15 0 ≤ 9600 → ∃ t, exec (.pwrlimWrite v) s = .next t ∧
      t.modul = { s.modul with pwrlim := some (v.setWidth 16) } ∧ { t with modul := s.modul } = s) ∧
    (s.modul.ready = false ∨ bits v 15 0 < 2400 ∨ 9600 < bits v 15 0 → exec (.pwrlimWrite v) s = .next s)) ∧
  (∀ (s : State) (die : Nat) (v : Word) (reg : CfgReg), validDie die = true → s.modul.ready = false → s.modul.stage ≠ 7 →
    ((∃ p, reg = .ptroot p) ∨ (∃ c, reg = .sqcls c) ∨ reg = .tcfg ∨ (∃ q, reg = .qbase q) ∨ (∃ q, reg = .qctl q) ∨
      (∃ n, reg = .relabel n) ∨ reg = .extents ∨ reg = .hostbase) →
    exec (.configRegisterWrite die reg v) s = .next s) ∧
  (∀ (s : State) (die : Nat) (v : Word), validDie die = true →
    let d := s.die die
    let sets (reg : CfgReg) (d' : Die) : Prop := ∃ t, exec (.configRegisterWrite die reg v) s = .next t ∧ t.die die = d' ∧
      (∀ c, c ≠ die → t.die c = s.die c) ∧ { t with dies := s.dies } = s
    sets .wdctl { d with wdctl := some (v.setWidth 32) } ∧ sets .rascfg { d with rascfg := some (v.setWidth 8) } ∧
    (∀ m p, m ≤ 63 → p ≤ 3 →
      let e := BitVec.ofNat 64 (bits v 63 63 * 2 ^ 63 + bits v 40 0)
      let i := 4 * m + p
      let at0 := s.modul.ready = false ∨ cxlRoom (Assoc.get 0 d.cxlNow i) ≤ cxlRoom e
      sets (.cxl m p) { d with cxl := Assoc.set 0 d.cxl i e, cxlNow := if at0 then Assoc.set 0 d.cxlNow i e else d.cxlNow }) ∧
    ∀ i, s.modul.ready = false → exec (.configRegisterWrite die (.lognonce i) v) s = .next s) ∧
  (∀ (s : State) (die : Nat) (v : Word), validDie die = true → s.modul.ready = true ∨ s.modul.stage = 7 →
    let d := s.die die
    let takes (reg : CfgReg) (d' : Die) : Prop := ∃ t, exec (.configRegisterWrite die reg v) s = .next t ∧ t.die die = d' ∧
      (∀ c, c ≠ die → t.die c = s.die c) ∧ t.banks = s.banks ∧ t.mem = s.mem ∧ t.sram = s.sram
    takes .tcfg { d with tcfg := BitVec.ofNat 64 (bits v 61 0) } ∧ takes .extents { d with extents := BitVec.ofNat 64 (bits v 5 0) } ∧
    takes .mstat d ∧ (∀ k, takes (.kslot k) d) ∧
    (∀ n, n ≤ 1023 →
      let e := BitVec.ofNat 16 (bits v 15 15 * 2 ^ 15 + bits v 9 0)
      takes (.relabel n) { d with relabel := Assoc.set none d.relabel n (some e) }) ∧
    (∀ i, i ≤ 3 → s.modul.ready = true → ∃ t, exec (.configRegisterWrite die (.lognonce i) v) s = .next t ∧
      t.modul = { s.modul with lognonce := Assoc.set 0 s.modul.lognonce i v } ∧ { t with modul := s.modul } = s) ∧
    (∀ p, p ≤ 15 → ∃ t, exec (.configRegisterWrite die (.ptroot p) v) s = .next t ∧
      let new := BitVec.ofNat 64 (bits v 51 13 * 2 ^ 13 + bits v 0 0)
      Assoc.get 0 (t.die die).ptroot p = new ∧
      Assoc.get 0 (t.die die).rootNow p = (if s.modul.ready then Assoc.get 0 d.rootNow p else new) ∧
      (∀ q, q ≠ p → Assoc.get 0 (t.die die).ptroot q = Assoc.get 0 d.ptroot q ∧
        Assoc.get 0 (t.die die).rootNow q = Assoc.get 0 d.rootNow q) ∧ t.banks = s.banks ∧ t.mem = s.mem) ∧
    (∀ cl, cl ≤ 12 → ∃ t, exec (.configRegisterWrite die (.chkey cl) v) s = .next t ∧
      t.cluster (die * 16 + cl) = { s.cluster (die * 16 + cl) with chkey := BitVec.ofNat 64 (bits v 15 0) } ∧
      (∀ c, c ≠ die * 16 + cl → t.cluster c = s.cluster c) ∧ { t with clusters := s.clusters } = s) ∧
    (∀ q, q ≤ 1023 → ∃ t, exec (.configRegisterWrite die (.qbase q) v) s = .next t ∧
      (t.hostQueue q).base = BitVec.ofNat 64 (bits v 55 0) ∧ (t.hostQueue q).head = (s.hostQueue q).head ∧
      (t.hostQueue q).enable = (s.hostQueue q).enable ∧ (∀ p, p ≠ q → t.hostQueue p = s.hostQueue p) ∧ t.banks = s.banks) ∧
    (∀ q, q ≤ 1023 → ∃ t, exec (.configRegisterWrite die (.qctl q) v) s = .next t ∧
      let x := t.hostQueue q
      x.part = bits v 15 12 ∧ x.log2n = bits v 4 0 ∧ x.err = ((s.hostQueue q).err && !bit v 9) ∧
      x.enable = (bit v 8 && decide (1 ≤ bits v 4 0) && decide (bits v 4 0 ≤ 16)) ∧ x.head = (s.hostQueue q).head ∧
      x.tail = (s.hostQueue q).tail ∧ x.base = (s.hostQueue q).base ∧ (∀ p, p ≠ q → t.hostQueue p = s.hostQueue p) ∧
      t.banks = s.banks) ∧
    (∃ t, exec (.configRegisterWrite die .hostbase v) s = .next t ∧ t.modul = { s.modul with hostbase := v } ∧
      { t with modul := s.modul } = s)) ∧
  (∀ (s : State) (i : Instr), i = .powerOn ∨ i = .perstDeassert ∨ i = .hotReset → ∃ t, exec i s = .next t ∧
    t.banks = [] ∧ t.cores = [] ∧ t.dies = [] ∧ t.sram = [] ∧ t.clusters = [] ∧ t.dirs = [] ∧ t.net = [] ∧ t.pending = [] ∧
    t.mem = s.mem ∧ t.hostMem = s.hostMem ∧ t.modul.stage = 1 ∧ t.modul.ready = false ∧ t.modul.fail = false ∧
    t.modul.epoch = s.modul.epoch ∧ t.modul.svnmin = s.modul.svnmin ∧ t.modul.log = s.modul.log ∧ t.modul.fuseout = s.modul.fuseout) ∧
  (∀ (s : State), let m := s.modul
    1 ≤ m.stage → m.stage ≤ 7 → m.fail = false →
    (∃ t, exec (.bringUpStageEnd false) s = .next t ∧ t.modul = { m with fail := true } ∧ { t with modul := s.modul } = s) ∧
    (∀ i, stageImage m.stage = some i → s.svnOk i = false → ∃ t, exec (.bringUpStageEnd true) s = .next t ∧
      t.modul = { m with fail := true } ∧ { t with modul := s.modul } = s) ∧
    ((∀ i, stageImage m.stage = some i → s.svnOk i = true) → ∃ t, exec (.bringUpStageEnd true) s = .next t ∧ t.modul.stage = m.stage + 1 ∧ t.modul.ready = m.ready ∧
      t.modul.fail = false ∧ t.banks = s.banks ∧ t.sram = s.sram ∧ t.hostMem = s.hostMem ∧
      (m.stage = 1 → m.epoch < 4096 → m.fuseout = false → t.modul.epoch = m.epoch + 1 ∧
        ∃ e, t.modul.log = e :: m.log ∧ e.ty = 10 ∧ e.epoch = m.epoch + 1) ∧
      (m.stage = 1 → 4096 ≤ m.epoch → t.modul.epoch = m.epoch ∧ t.modul.fuseout = true ∧ t.modul.log = m.log) ∧
      (∀ i, stageImage m.stage = some i → t.modul.svnmin = max m.svnmin (Config.svnRaise i).toNat ∧
        (m.fuseout = false → ∃ e, t.modul.log = e :: m.log ∧ e.ty = 7)) ∧
      (m.stage = 6 → s.migr = [] → ∀ a, t.byte a = if isHbm a then 0 else s.byte a) ∧
      (m.stage = 3 → t.mem = s.mem ∧ ∀ r, (isCxl (256 * r) = false ∨ (s.rowMeta r).key ≠ 0) → t.rowMeta r = s.rowMeta r) ∧
      (m.stage ≠ 3 → m.stage ≠ 6 → t.mem = s.mem ∧ t.memMeta = s.memMeta))) ∧
  (∀ (s : State), (s.modul.stage = 8 → s.modul.fail = false → ∃ t, exec .readySet s = .next t ∧
      t.modul = { s.modul with ready := true } ∧ { t with modul := s.modul } = s) ∧
    (s.modul.stage ≠ 8 ∨ s.modul.fail = true → exec .readySet s = .next s))

/-! ### The step, the words and the state after reset (spec/00, spec/02, spec/16) -/

/-- R43, R60, R64, R358, R365: a step in which a bank's sequencer moves that may issue, whether named from outside or chosen
by the machine, executes exactly the instruction that the word at its program counter decodes to, in the state after the fetch in which the
bank acts; a word that stalls takes no turn; a fetch that waits for its units or its port lets the bank wait; a word that is no
instruction traps. A step in which an event moves executes that event. A bank that
may not issue lets the step pass. What a step adds: one cycle of the counter, the reference time at the counter's pace, the
samples of the banks in a `WAIT` and the frame boundaries that the counter reaches, the move taken off its list; and an
issuing bank takes its core's turn and keeps its word. The word comes from the line at the translated program counter, or from
the line that the core still holds. The model's choices are: who moves (log entry 1); one cycle for each move, and the reference
time as a maximum (log entry 2); when a word stalls (log entry 14); EINSN 0 of a fetch fault (log entry 18); the move of an
uncorrectable error (log entry 75). -/
def Obligations.StepRunsTheDecodedInstruction : Prop :=
  (∀ (s : State) (b : Nat) (rest : List Turn), s.agenda = .seq b :: rest → validBank b = true →
    let s0 : State := { s.cycle 1 with agenda := rest }
    (s0.mayIssue b = false → step s = .next s0) ∧ (s0.mayIssue b = true →
    (∀ w s1 i, s0.fetchInsn b = .word w s1 → decodeFetch w = some i →
      (stalled b s1 (exec i (s1.issued b w)) = false → step s = exec i (s1.issued b w)) ∧
      (stalled b s1 (exec i (s1.issued b w)) = true → step s = exec i (s1.tried b w))) ∧
    (∀ w s1, s0.fetchInsn b = .word w s1 → decodeFetch w = none →
      step s = .next ((s1.issued b w).takeTrap b (Trap.mk0 1 0))) ∧
    (∀ s1, s0.fetchInsn b = .wait s1 → step s = .next { s1 with cur := b }) ∧
    (∀ f s1, s0.fetchInsn b = .trap f s1 → step s = .next ((s1.issued b 0).takeTrap b f)))) ∧
  (∀ (s : State) (b : Nat) (w : Nat) (s1 : State) (i : Instr), s.agenda = [] →
    let s0 := s.cycle 1
    dueStep s0 = none → s0.pending = [] → s0.nextBank = some b → validBank b = true →
    s0.fetchInsn b = .word w s1 → decodeFetch w = some i → stalled b s1 (exec i (s1.issued b w)) = false →
    step s = exec i (s1.issued b w)) ∧
  (∀ (s : State) (i : Instr) (rest : List Turn), s.agenda = .ev i :: rest → encode i = none →
    step s = exec i { s.cycle 1 with agenda := rest }) ∧
  (∀ (s : State) (i : Instr) (rest : List Instr), s.agenda = [] → dueStep (s.cycle 1) = none → s.pending = i :: rest →
    (s.cycle 1).nextBank = none → step s = exec i { s.cycle 1 with pending := rest }) ∧
  (∀ (s : State) (is : List Instr) (rest : List Turn), s.agenda = .together is :: rest →
    step s = .next ({ s.cycle 1 with agenda := rest }.arriveTogether is)) ∧
  (∀ (s : State) (n : Nat) (rest : List Turn), s.agenda = .tick n :: rest → step s = .next { s.cycle n with agenda := rest }) ∧
  (∀ (s : State) (x : Spot) (rest : List Turn), s.agenda = .upset x :: rest →
    let s0 : State := { s.cycle 1 with agenda := rest }
    let only (t : State) (b : Nat) : Prop := (∀ c, c ≠ b → t.bank c = s0.bank c) ∧ t.mem = s0.mem ∧ t.memMeta = s0.memMeta ∧
      t.sram = s0.sram
    ∃ t, step s = .next t ∧ t.cores = s0.cores ∧ t.dirs = s0.dirs ∧
      (∀ n, x = .sram n → (t.cell n).poison = true ∧ (t.cell n).ptag = (s0.cell n).ptag ∧ (∀ k, k ≠ n → t.cell k = s0.cell k) ∧
        t.mem = s0.mem ∧ t.memMeta = s0.memMeta ∧ t.banks = s0.banks) ∧
      (∀ n, x = .mem n → isCached (256 * n) = true → s0.migr = [] → (s0.rowMeta n).cipher = false →
        (t.rowMeta n).poison = true ∧
        { t.rowMeta n with poison := (s0.rowMeta n).poison, chk := (s0.rowMeta n).chk } = s0.rowMeta n ∧
        (∀ k, k ≠ n → t.rowMeta k = s0.rowMeta k) ∧ t.sram = s0.sram ∧ t.banks = s0.banks ∧
        ∀ a, (a < 256 * n ∨ 256 * n + 256 ≤ a) → t.byte a = s0.byte a) ∧
      (∀ b i, x = .vreg b i → only t b ∧ ((t.bank b).vreg i).poison = true ∧ ((t.bank b).vreg i).tags = ((s0.bank b).vreg i).tags ∧
        (∀ j, j ≠ i → (t.bank b).vreg j = (s0.bank b).vreg j) ∧
        { t.bank b with vregs := (s0.bank b).vregs } = s0.bank b) ∧
      (∀ b i, x = .oreg b i → only t b ∧ ((t.bank b).oreg i).poison = true ∧ ((t.bank b).oreg i).tags = ((s0.bank b).oreg i).tags ∧
        (∀ j, j ≠ i → (t.bank b).oreg j = (s0.bank b).oreg j) ∧
        { t.bank b with oregs := (s0.bank b).oregs } = s0.bank b) ∧
      (∀ b i, x = .tile b i → i ≤ 1 → only t b ∧ ((t.bank b).tile (i == 1)).poison = true ∧
        (t.bank b).tile (i != 1) = (s0.bank b).tile (i != 1) ∧ { t.bank b with tiles := (s0.bank b).tiles } = s0.bank b) ∧
      (∀ b q p, x = .entry b q p → only t b ∧ (((t.bank b).queue q).slot q p).poison = true ∧
        (((t.bank b).queue q).slot q p).filled = (((s0.bank b).queue q).slot q p).filled ∧
        (∀ r, r ≠ q → (t.bank b).queue r = (s0.bank b).queue r) ∧ ((t.bank b).queue q).head = ((s0.bank b).queue q).head ∧
        ((t.bank b).queue q).tail = ((s0.bank b).queue q).tail ∧
        { t.bank b with queues := (s0.bank b).queues } = s0.bank b)) ∧
  (∀ (s : State) (n : Nat), (s.cycle n).counter = s.counter + n ∧
    (s.cycle n).reftime = max s.reftime ((s.counter + n) / 19) ∧ (s.cycle n).mem = s.mem ∧
    ((∀ p ∈ s.banks, ∀ w, p.2.wait ≠ .wait w) → (∀ p ∈ s.dies, ∀ f ∈ p.2.boundaries, ({ s with counter := s.counter + n } : State).copyOf p.1 < f) →
      s.cycle n = { s with counter := s.counter + n, reftime := max s.reftime ((s.counter + n) / 19) })) ∧
  (∀ (s : State) (b w : Nat), let t := s.issued b w
    t.cur = b ∧ t.me.insn = BitVec.ofNat 64 w ∧ (t.core (b / 2)).turn = 1 + b % 2 ∧
    { t.me with insn := (s.bank b).insn, yielded := (s.bank b).yielded } = s.bank b ∧
    (∀ c, c ≠ b → c / 2 ≠ b / 2 → t.bank c = s.bank c) ∧ (∀ c, c ≠ b / 2 → t.core c = s.core c) ∧
    { t with banks := s.banks, cores := s.cores, cur := s.cur } = s) ∧
  (∀ (s : State) (b w : Nat), let t := s.tried b w
    t.cur = b ∧ t.me = { s.bank b with insn := BitVec.ofNat 64 w } ∧ (∀ c, c ≠ b → t.bank c = s.bank c) ∧
    { t with banks := s.banks, cur := s.cur } = s) ∧
  (∀ (s : State) (b : Nat) (x : Xlat), let va := (s.bank b).pc
    let pa := leafPa x.leaf x.size va.toNat
    va.toNat % 4 = 0 → (s.core (b / 2)).cached (s.bank b).part va.toNat = some x → leafX x.leaf = true → leafSeal x.leaf = false →
    (s.rowMeta (pa / 256)).poison = false → s.keyFits pa (leafKey x.leaf) = true → isCached pa = true →
    let word (line : BitVec 512) : BitVec 32 := (line >>> (8 * (pa % 64))).setWidth 32
    let now := word (s.lineNow b (leafKey x.leaf) pa)
    let gets (w : BitVec 32) : Prop := ∃ t, s.fetchWord b va = .word w t ∧ t.mem = s.mem ∧ t.banks = s.banks ∧ t.sram = s.sram ∧
      (isSXHead w.toNat = false → s.fetchInsn b = .word w.toNat t)
    ((s.core (b / 2)).ifetched (pa / 64) = none →
      (∀ s1, s.fetchServed b va = (false, s1) → s.fetchInsn b = .wait s1) ∧
      (∀ s1 s2, s.fetchServed b va = (true, s1) → s1.pullEgress (b / 2) pa = .ok s2 → gets now)) ∧
    (∀ old, (s.core (b / 2)).ifetched (pa / 64) = some old → gets now ∨ gets (word old)))

/-- The words of the spec's own examples decode to the instructions that they stand for: R28, R33, R34, R41, R43, R49, R54,
R124, R126, R335, R351, R359, R363, R371, R378, R386, R389 to R391, R400, R401, R424 to R428, R436. -/
def Obligations.WordsDecodeAsTheSpecWritesThem : Prop :=
  decodeFetch 0x04000000 = some (.add 0 0 0) ∧ decodeFetch 0x18A00011 = some (.lui 5 17) ∧
  decodeFetch 0x08A50170 = some (.addi 5 5 368) ∧ decodeFetch 0xA0000040 = some .retire ∧
  decodeFetch 0x048530A0 = some (.div 4 5 6) ∧ decodeFetch 0x04642B24 = some (.cmp 3 4 5 4) ∧
  decodeFetch 0xA8060002 = some (.launch 3 2) ∧ decodeFetch 0xAC000002 = some (.phase 2) ∧
  decodeFetch 0xA0642801 = some (.waitAny 3 4 5 1) ∧ decodeFetch 0xA0642811 = some (.waitAll 3 4 5 1) ∧
  decodeFetch 0xA0090020 = some (.sev 9) ∧ decodeFetch 0xA0E00080 = some (.time 7 0) ∧
  decodeFetch 0xA0E00081 = some (.time 7 1) ∧ decodeFetch 0x68A43000 = some (.xlate 5 2 3) ∧
  decodeFetch 0x6C040000 = some (.hdrop 2) ∧ decodeFetch 0x70E44000 = some (.hinfo 7 2 4) ∧
  decodeFetch 0xF0050080 = some (.shoot 5) ∧ decodeFetch 0x74A60002 = some (.keyld 5 3 2) ∧
  decodeFetch 0xF00500A0 = some (.keydrop 5) ∧ decodeFetch 0xF0000005 = some (.trap 5) ∧
  decodeFetch 0xF0000060 = some .bkpt ∧ decodeFetch 0xF0000040 = some .halt ∧ decodeFetch 0xF0000020 = some .eret ∧
  decodeFetch 0xF4E00010 = some (.srd 7 0x010) ∧ decodeFetch 0xF8070010 = some (.swr 7 0x010) ∧
  decodeFetch 0x940E0000 = some (.mblk 7 0) ∧ decodeFetch 0x88200000 = some (.lnset 0 1 0) ∧
  decodeFetch 0x88C00000 = some (.lnset 1 2 0) ∧ decodeFetch 0x8C480002 = some (.adset 2 4 2) ∧
  (let sq : Ext := Ext.mk 0 7 7 7 false 0 false 0
   decodeFetch 0xFC7FC000C0C00000 = some (.run (SXWord.mk 6 0 0 0 sq)) ∧
   decodeFetch 0xFC7FC000D4853007 = some (.coll (SXWord.mk 4 5 6 7 sq)) ∧
   decodeFetch 0xFC7FC000D4850040 = some (.plough (SXWord.mk 4 5 0 0 sq))) ∧
  (∃ v, decodeV 0x420840002280008B00000400 = some (.vcommit v) ∧ opnd v.d = .v 4 ∧ opnd v.a = .v 10 ∧ opnd v.b = .v 11 ∧
    v.msk = 2) ∧
  (∃ v, decodeV 0x031940002600000000000000 = some (.vtripMrg v) ∧ opnd v.d = .v 20 ∧ opnd v.a = .v 24 ∧ v.b = 0 ∧
    v.msk = 0) ∧
  decodeV 0 = some .vnop ∧ decodeFetch 0 = none ∧ decodeFetch 0xFFFFFFFF = none ∧
  (∃ m, decodeM (3 * 2 ^ 184 + 2 ^ 79) = some (.mzero m) ∧ m.acc = true)

/-- R5, R17, R30, R54, R168, R289, R312, R356, R372, R381, R413, R417, R439, R449, R471 to R473: the state right after reset.
Every register, counter and table holds the value that the spec gives; what the spec gives no value holds zero, which is
the model's choice (log entry 13): the counters, memory that nothing has written, pc and `s` registers of a bank that has no
task. The invariant of the every-step statement holds. -/
def Obligations.ResetLeavesEveryRegisterAsStated : Prop :=
  let s := State.reset
  (∀ b, (s.bank b).run = .idle ∧ (s.bank b).pst = .live ∧ (s.bank b).hmode = false ∧ (s.bank b).event = false ∧
    (s.bank b).slot = none ∧ (s.bank b).posts = [] ∧ (s.bank b).ldqs = [] ∧ (s.bank b).block = none ∧ (s.bank b).wait = .none ∧
    (∀ h, ((s.bank b).handle h).st = .invalid) ∧ (∀ n, (s.bank b).cbar n = 0) ∧ (∀ r, (s.bank b).reg r = 0) ∧
    (∀ c d, (s.bank b).tokens? c d = 0) ∧ (∀ q, ((s.bank b).queue q).head = 0 ∧ ((s.bank b).queue q).tail = 0) ∧
    (s.bank b).sys.tvec = 0 ∧ (s.bank b).sys.tmask = 0 ∧ (s.bank b).area = 0) ∧
  (∀ k, (s.cell k).ptag = 0 ∧ (s.cell k).data = 0 ∧ (s.cell k).poison = false) ∧
  (∀ c l, ((s.core c).line l).st = .i ∧ (s.dir l).owner = none) ∧ (∀ a, s.byte a = 0) ∧
  (∀ d, let x := s.die d
    x.tcfg = 0 ∧ (∀ p, Assoc.get 0 x.ptroot p = 0 ∧ Assoc.get 0 x.pslot p = 0) ∧ (x.wdctl.getD 100000).toNat = 100000 ∧
    (x.rascfg.getD 4).toNat = 4 ∧ x.launchq = [] ∧ x.pending = [] ∧ ∀ n, (x.bind n).state = 0) ∧
  (∀ q, (s.hostQueue q).enable = false ∧ (s.hostQueue q).head = 0 ∧ (s.hostQueue q).tail = 0) ∧
  (∀ d n, s.physOf d n = n ∧ s.dieExists d n = false) ∧ (∀ m, (s.mslot m).q = none) ∧ s.modul.limit = 9600 ∧ s.modul.ready = false ∧ s.modul.stage = 0 ∧ s.modul.log = [] ∧
  s.Inv

/-! ### Encodings (spec/02) -/

/-- R29 to R58: for every well-formed instruction that has a word, the word lies in its width and the decoder reads back the
instruction, with every operand at every value that the encoding admits. -/
def Obligations.DecodingInvertsEncoding : Prop :=
  ∀ (i : Instr) (n w : Nat), i.wf = true → encode i = some (n, w) → w < 2 ^ n ∧ decodeTableWord n w = some i

/-- R5, R29 to R60: every word that the decoder accepts is the encoding of the well-formed instruction that it gives: no two
words of one width decode to one instruction, and no reserved bit or value passes unread. -/
def Obligations.EveryDecodedWordIsItsEncoding : Prop :=
  (∀ (w : Nat) (i : Instr), w < 2 ^ 32 → isSXHead w = false → decodeFetch w = some i → i.wf = true ∧ encode i = some (32, w)) ∧
  (∀ (w : Nat) (i : Instr), w < 2 ^ 64 → isSXHead w = true → decodeFetch w = some i → i.wf = true ∧ encode i = some (64, w)) ∧
  (∀ (w : Nat) (i : Instr), w < 2 ^ 96 → decodeV w = some i → i.wf = true ∧ encode i = some (96, w)) ∧
  (∀ (w : Nat) (i : Instr), w < 2 ^ 192 → decodeM w = some i → i.wf = true ∧ encode i = some (192, w))

/-! ### What every step keeps -/

/-- R3, R8, R10, R17, R196: whatever moves, a step from a state in which device memory and host memory are in canonical form,
the reference time is no earlier than the cycle counter gives, and the acting bank exists, leaves a state of the same
kind. The state need not be one that a run from reset reaches. -/
def Obligations.EveryStepKeepsTheInvariant : Prop := ∀ s t : State, s.Inv → step s = .next t → t.Inv
end

