-- ==== Sys2Proof/Laws/Sparse.lean ====
section
/-! SUPPORT. Laws of sparse arrays: what a read finds after a write, and that every write keeps the canonical form. -/

namespace Sys2Proof

variable {β : Type}

theorem Assoc.get_put (d : β) (m : Assoc β) (k : Nat) (v : β) (j : Nat) :
    Assoc.get d (Assoc.put m k v) j = if j = k then v else Assoc.get d m j := by
  induction m with
  | nil =>
    by_cases h : k = j
    · subst h; simp [Assoc.put, Assoc.get]
    · simp [Assoc.put, Assoc.get, h, Ne.symm h]
  | cons p m ih =>
    obtain ⟨i, u⟩ := p
    by_cases h1 : k < i
    · by_cases h : k = j
      · subst h; simp [Assoc.put, Assoc.get, h1]
      · simp [Assoc.put, Assoc.get, h1, h, Ne.symm h]
    · by_cases h2 : i = k
      · subst h2
        by_cases h : i = j
        · subst h; simp [Assoc.put, Assoc.get]
        · simp [Assoc.put, Assoc.get, h, Ne.symm h]
      · by_cases h : i = j
        · subst h; simp [Assoc.put, Assoc.get, h1, h2]
        · simp [Assoc.put, Assoc.get, h1, h2, h, ih]

theorem Assoc.get_del (d : β) (m : Assoc β) (k j : Nat) :
    Assoc.get d (Assoc.del m k) j = if j = k then d else Assoc.get d m j := by
  induction m with
  | nil => simp [Assoc.del, Assoc.get]
  | cons p m ih =>
    obtain ⟨i, u⟩ := p
    by_cases h1 : i = k
    · subst h1
      by_cases h : j = i
      · subst h; simpa [Assoc.del] using ih
      · simp [Assoc.del, ih, h, Assoc.get, Ne.symm h]
    · by_cases h : i = j
      · subst h; simp [Assoc.del, Assoc.get, h1]
      · simp [Assoc.del, Assoc.get, h1, h, ih]

/-- A read after a write. -/
theorem Assoc.get_set [DecidableEq β] (d : β) (m : Assoc β) (k : Nat) (v : β) (j : Nat) :
    Assoc.get d (Assoc.set d m k v) j = if j = k then v else Assoc.get d m j := by
  unfold Assoc.set
  split
  · next h => rw [Assoc.get_del, h]
  · exact Assoc.get_put d m k v j

@[simp] theorem Assoc.get_set_same [DecidableEq β] (d : β) (m : Assoc β) (k : Nat) (v : β) :
    Assoc.get d (Assoc.set d m k v) k = v := by
  rw [Assoc.get_set, if_pos rfl]

theorem Assoc.get_set_ne [DecidableEq β] (d : β) (m : Assoc β) {k j : Nat} (v : β) (h : j ≠ k) :
    Assoc.get d (Assoc.set d m k v) j = Assoc.get d m j := by
  rw [Assoc.get_set, if_neg h]

@[simp] theorem Assoc.get_nil (d : β) (j : Nat) : Assoc.get d ([] : Assoc β) j = d := rfl

/-- A read after a change of every entry. -/
theorem Assoc.get_mapVals [DecidableEq β] (d : β) (f : Nat → β → β) (hf : ∀ i, f i d = d) (m : Assoc β) (j : Nat) :
    Assoc.get d (Assoc.mapVals d f m) j = f j (Assoc.get d m j) := by
  induction m with
  | nil => simp [Assoc.mapVals, hf]
  | cons p m ih =>
    obtain ⟨i, v⟩ := p
    rw [Assoc.mapVals, Assoc.get_set, Assoc.get]
    by_cases h : j = i
    · subst h; simp
    · rw [if_neg h, if_neg (Ne.symm h), ih]

/-! ### The canonical form -/

theorem Assoc.wfFrom_weaken [DecidableEq β] {d : β} {m : Assoc β} {k i : Nat}
    (h : Assoc.wfFrom d (some i) m = true) (hk : k < i) : Assoc.wfFrom d (some k) m = true := by
  cases m with
  | nil => rfl
  | cons p m =>
    simp only [Assoc.wfFrom, Bool.and_eq_true, decide_eq_true_eq] at h ⊢
    exact ⟨⟨Nat.lt_trans hk h.1.1, h.1.2⟩, h.2⟩

theorem Assoc.wfFrom_none [DecidableEq β] {d : β} {m : Assoc β} {i : Nat}
    (h : Assoc.wfFrom d (some i) m = true) : Assoc.wfFrom d none m = true := by
  cases m with
  | nil => rfl
  | cons p m =>
    simp only [Assoc.wfFrom, Bool.and_eq_true, decide_eq_true_eq] at h ⊢
    exact ⟨⟨trivial, h.1.2⟩, h.2⟩

theorem Assoc.del_above [DecidableEq β] {d : β} {m : Assoc β} {k i : Nat}
    (h : Assoc.wfFrom d (some i) m = true) (hk : k ≤ i) : Assoc.del m k = m := by
  induction m generalizing i with
  | nil => rfl
  | cons p m ih =>
    obtain ⟨j, u⟩ := p
    simp only [Assoc.wfFrom, Bool.and_eq_true, decide_eq_true_eq] at h
    have hj : j ≠ k := by omega
    simp only [Assoc.del, hj, if_false]
    rw [ih h.2 (by omega)]

theorem Assoc.wfFrom_del [DecidableEq β] {d : β} {m : Assoc β} {o : Option Nat} (k : Nat)
    (h : Assoc.wfFrom d o m = true) : Assoc.wfFrom d o (Assoc.del m k) = true := by
  induction m generalizing o with
  | nil => exact h
  | cons p m ih =>
    obtain ⟨i, u⟩ := p
    have h' := h
    simp only [Assoc.wfFrom, Bool.and_eq_true] at h
    by_cases e : i = k
    · subst e
      simp only [Assoc.del, if_true]
      rw [Assoc.del_above h.2 (Nat.le_refl i)]
      cases o with
      | none => exact Assoc.wfFrom_none h.2
      | some l => exact Assoc.wfFrom_weaken h.2 (by simpa using h.1.1)
    · simp only [Assoc.del, e, if_false, Assoc.wfFrom, Bool.and_eq_true]
      exact ⟨h.1, ih h.2⟩

theorem Assoc.wfFrom_put [DecidableEq β] {d : β} {m : Assoc β} {o : Option Nat} {k : Nat} {v : β} (hv : v ≠ d)
    (hk : ∀ l, o = some l → l < k) (h : Assoc.wfFrom d o m = true) : Assoc.wfFrom d o (Assoc.put m k v) = true := by
  induction m generalizing o with
  | nil =>
    cases o with
    | none => simp [Assoc.put, Assoc.wfFrom, hv]
    | some l => simp [Assoc.put, Assoc.wfFrom, hv, hk l rfl]
  | cons p m ih =>
    obtain ⟨i, u⟩ := p
    by_cases h1 : k < i
    · have hp : Assoc.put ((i, u) :: m) k v = (k, v) :: (i, u) :: m := by simp [Assoc.put, h1]
      rw [hp]
      cases o with
      | none => simp_all [Assoc.wfFrom]
      | some l => simp_all [Assoc.wfFrom]
    · by_cases h2 : i = k
      · subst h2
        have hp : Assoc.put ((i, u) :: m) i v = (i, v) :: m := by simp [Assoc.put]
        rw [hp]
        cases o with
        | none => simp_all [Assoc.wfFrom]
        | some l => simp_all [Assoc.wfFrom]
      · simp only [Assoc.wfFrom, Bool.and_eq_true] at h
        simp only [Assoc.put, h1, h2, if_false, Assoc.wfFrom, Bool.and_eq_true]
        exact ⟨h.1, ih (fun l hl => by cases hl; omega) h.2⟩

/-- A write keeps the canonical form. -/
theorem Assoc.wf_set [DecidableEq β] {d : β} {m : Assoc β} (k : Nat) (v : β) (h : Assoc.wf d m = true) :
    Assoc.wf d (Assoc.set d m k v) = true := by
  unfold Assoc.set
  split
  · exact Assoc.wfFrom_del k h
  · next hv => exact Assoc.wfFrom_put hv (fun _ e => by cases e) h

/-- A change of every entry gives the canonical form. -/
theorem Assoc.wf_mapVals [DecidableEq β] (d : β) (f : Nat → β → β) (m : Assoc β) :
    Assoc.wf d (Assoc.mapVals d f m) = true := by
  induction m with
  | nil => rfl
  | cons p m ih => exact Assoc.wf_set _ _ ih

end Sys2Proof
end

