-- ==== Sys2Proof/Laws/Memory.lean ====
section
/-! SUPPORT. Laws of device memory: what a read finds after a write, which bytes and rows a write leaves, and that every
write keeps the canonical form. -/

namespace Sys2Proof.Machine

/-! ### Numbers and bytes -/

@[simp] theorem natLE_length (n v : Nat) : (natLE n v).length = n := by
  induction n generalizing v with
  | zero => rfl
  | succ n ih => simp [natLE, ih]

theorem leNat_natLE (n v : Nat) : leNat (natLE n v) = v % 2 ^ (8 * n) := by
  induction n generalizing v with
  | zero => simp [natLE, leNat, Nat.mod_one]
  | succ n ih =>
    have h : 2 ^ (8 * (n + 1)) = 256 * 2 ^ (8 * n) := by rw [Nat.mul_add, Nat.pow_add, Nat.mul_comm]
    rw [natLE, leNat, ih, h, Nat.mod_mul, BitVec.toNat_ofNat]

theorem leNat_lt (xs : List Byte) : leNat xs < 2 ^ (8 * xs.length) := by
  induction xs with
  | nil => simp [leNat]
  | cons x xs ih =>
    have h : 2 ^ (8 * (xs.length + 1)) = 256 * 2 ^ (8 * xs.length) := by rw [Nat.mul_add, Nat.pow_add, Nat.mul_comm]
    have := x.isLt
    simp only [leNat, List.length_cons, h]
    omega

theorem natLE_leNat (xs : List Byte) : natLE xs.length (leNat xs) = xs := by
  induction xs with
  | nil => rfl
  | cons x xs ih =>
    have hx := x.isLt
    simp only [leNat, List.length_cons, natLE, List.cons.injEq]
    refine ⟨?_, ?_⟩
    · apply BitVec.eq_of_toNat_eq
      rw [BitVec.toNat_ofNat]
      omega
    · have : (x.toNat + 256 * leNat xs) / 256 = leNat xs := by omega
      rw [this, ih]

/-- Byte i of a number. -/
theorem getElem?_natLE (n v i : Nat) (h : i < n) : (natLE n v)[i]? = some (BitVec.ofNat 8 (v / 2 ^ (8 * i))) := by
  induction n generalizing v i with
  | zero => omega
  | succ n ih =>
    cases i with
    | zero => simp [natLE]
    | succ i =>
      have e : 2 ^ (8 * (i + 1)) = 256 * 2 ^ (8 * i) := by rw [Nat.mul_add, Nat.pow_add, Nat.mul_comm]
      simp only [natLE, List.getElem?_cons_succ]
      rw [ih _ _ (by omega), Nat.div_div_eq_div_mul, e]

/-! ### The list of cells -/

theorem get_putBytes (m : List Host.Cell) (pa : Nat) (xs : List Byte) (a : Nat) :
    Assoc.get 0 (putBytes m pa xs) a =
      if pa ≤ a ∧ a < pa + xs.length then xs.getD (a - pa) 0 else Assoc.get 0 m a := by
  induction xs generalizing m pa with
  | nil => simp [putBytes] <;> omega
  | cons x xs ih =>
    rw [putBytes, ih, Assoc.get_set]
    simp only [List.length_cons]
    by_cases h : a = pa
    · subst h; simp [show ¬ (a + 1 ≤ a) by omega]
    · by_cases h1 : pa + 1 ≤ a ∧ a < pa + 1 + xs.length
      · have e : a - pa = (a - (pa + 1)) + 1 := by omega
        rw [if_pos h1, if_pos (by omega), e]
        simp
      · rw [if_neg h1, if_neg h, if_neg (by omega)]

theorem wf_putBytes (m : List Host.Cell) (pa : Nat) (xs : List Byte) (h : Assoc.wf 0 m = true) :
    Assoc.wf 0 (putBytes m pa xs) = true := by
  induction xs generalizing m pa with
  | nil => exact h
  | cons x xs ih => exact ih _ _ (Assoc.wf_set pa x h)

/-! ### Where an access goes -/

theorem State.frameOf_of_migr {s : State} (h : s.migr = []) (a : Nat) : s.frameOf a = a := by simp [State.frameOf, h]

theorem Migr.note_frame (pa n : Nat) (m : Migr) :
    (m.note pa n).phase = m.phase ∧ (m.note pa n).old = m.old ∧ (m.note pa n).size = m.size ∧ (m.note pa n).new = m.new := by
  unfold Migr.note; split <;> simp

/-- A write does not change where accesses go. -/
@[simp] theorem State.frameOf_putRaw (s : State) (pa : Nat) (xs : List Byte) : (s.putRaw pa xs).frameOf = s.frameOf := by
  funext a
  have key : ∀ l : List Migr,
      (match (l.map fun m => m.note pa xs.length).find? fun m => decide (3 ≤ m.phase) && decide (m.old ≤ a) && decide (a < m.old + m.size) with
        | some m => m.new + (a - m.old)
        | none => a) =
      match l.find? fun m => decide (3 ≤ m.phase) && decide (m.old ≤ a) && decide (a < m.old + m.size) with
        | some m => m.new + (a - m.old)
        | none => a := by
    intro l
    induction l with
    | nil => rfl
    | cons m l ih =>
      obtain ⟨h1, h2, h3, h4⟩ := Migr.note_frame pa xs.length m
      rw [List.map_cons, List.find?_cons, List.find?_cons, h1, h2, h3]
      cases (decide (3 ≤ m.phase) && decide (m.old ≤ a) && decide (a < m.old + m.size)) with
      | true => simp only [h4, h2]
      | false => exact ih
  exact key s.migr

@[simp] theorem State.frameOf_setRowMeta (s : State) (r : Nat) (m : RowMeta) : (s.setRowMeta r m).frameOf = s.frameOf := rfl

@[simp] theorem State.mem_setRowMeta (s : State) (r : Nat) (m : RowMeta) : (s.setRowMeta r m).mem = s.mem := rfl

@[simp] theorem State.frameOf_settle (s : State) (r : Nat) : (s.settle r).frameOf = s.frameOf := by
  simp only [State.settle]; split <;> simp

@[simp] theorem State.frameOf_setBytes (s : State) (pa : Nat) (xs : List Byte) : (s.setBytes pa xs).frameOf = s.frameOf := by
  simp [State.setBytes]

@[simp] theorem State.frameOf_writeHome (s : State) (pa : Nat) (xs : List Byte) (key : Nat) (p : Bool) (t : BitVec 24) :
    (s.writeHome pa xs key p t).frameOf = s.frameOf := by
  simp [State.writeHome]

/-! ### Rows' metadata -/

theorem State.rowMeta_eq {s : State} (h : ∀ a, s.frameOf a = a) (r : Nat) : s.rowMeta r = Assoc.get RowMeta.zero s.memMeta r := by
  rw [State.rowMeta, h, Nat.mul_div_cancel _ (by decide : 0 < 256)]

@[simp] theorem State.rowMeta_putRaw (s : State) (pa : Nat) (xs : List Byte) (r : Nat) :
    (s.putRaw pa xs).rowMeta r = s.rowMeta r := by
  unfold State.rowMeta; rw [State.frameOf_putRaw]; rfl

theorem State.rowMeta_setRowMeta {s : State} (h : ∀ a, s.frameOf a = a) (r : Nat) (m : RowMeta) (q : Nat) :
    (s.setRowMeta r m).rowMeta q = if q = r then m else s.rowMeta q := by
  rw [State.rowMeta_eq (s := s.setRowMeta r m) (by simpa using h), State.rowMeta_eq h]
  show Assoc.get RowMeta.zero (Assoc.set RowMeta.zero s.memMeta (s.frameOf (r * 256) / 256) m) q = _
  rw [h, Nat.mul_div_cancel _ (by decide : 0 < 256), Assoc.get_set]

theorem State.rowMeta_settle {s : State} (h : ∀ a, s.frameOf a = a) (r q : Nat) :
    (s.settle r).rowMeta q = if q = r then { s.rowMeta r with cipher := false } else s.rowMeta q := by
  by_cases hc : (s.rowMeta r).cipher = true
  · simp only [State.settle, hc, if_true]
    rw [State.rowMeta_setRowMeta (by simpa using h)]
    simp
  · have hf : (s.rowMeta r).cipher = false := by simpa using hc
    simp only [State.settle, hf, Bool.false_eq_true, if_false]
    split
    · next e => subst e; cases hm : s.rowMeta q; simp_all
    · rfl

/-! ### Bytes -/

theorem State.rawByte_eq {s : State} (h : ∀ a, s.frameOf a = a) (a : Nat) : s.rawByte a = Assoc.get 0 s.mem a := by
  rw [State.rawByte, h]

theorem State.rawByte_putRaw {s : State} (h : ∀ a, s.frameOf a = a) (pa : Nat) (xs : List Byte) (a : Nat) :
    (s.putRaw pa xs).rawByte a = if pa ≤ a ∧ a < pa + xs.length then xs.getD (a - pa) 0 else s.rawByte a := by
  rw [State.rawByte_eq (s := s.putRaw pa xs) (by simpa using h), State.rawByte_eq h]
  show Assoc.get 0 (putBytes s.mem (s.frameOf pa) xs) a = _
  rw [h, get_putBytes]

@[simp] theorem State.rawByte_setRowMeta (s : State) (r : Nat) (m : RowMeta) (a : Nat) :
    (s.setRowMeta r m).rawByte a = s.rawByte a := rfl

theorem State.rawBytes_congr {s t : State} (pa n : Nat) (h : ∀ a, pa ≤ a → a < pa + n → s.rawByte a = t.rawByte a) :
    s.rawBytes pa n = t.rawBytes pa n := by
  induction n generalizing pa with
  | zero => rfl
  | succ n ih =>
    rw [State.rawBytes, State.rawBytes, h pa (by omega) (by omega), ih (pa + 1) fun a h1 h2 => h a (by omega) (by omega)]

theorem State.bytes_congr {s t : State} (pa n : Nat) (h : ∀ a, pa ≤ a → a < pa + n → s.byte a = t.byte a) :
    s.bytes pa n = t.bytes pa n := by
  induction n generalizing pa with
  | zero => rfl
  | succ n ih =>
    rw [State.bytes, State.bytes, h pa (by omega) (by omega), ih (pa + 1) fun a h1 h2 => h a (by omega) (by omega)]

@[simp] theorem State.bytes_length (s : State) (pa n : Nat) : (s.bytes pa n).length = n := by
  induction n generalizing pa with
  | zero => rfl
  | succ n ih => simp [State.bytes, ih]

/-- Bytes that each hold an element of a list are that list. -/
theorem State.bytes_of {s : State} (pa : Nat) (xs : List Byte) (h : ∀ i, i < xs.length → s.byte (pa + i) = xs.getD i 0) :
    s.bytes pa xs.length = xs := by
  induction xs generalizing pa with
  | nil => rfl
  | cons x xs ih =>
    rw [List.length_cons, State.bytes]
    have h0 := h 0 (by simp)
    simp only [Nat.add_zero, List.getD_cons_zero] at h0
    rw [h0, ih (pa + 1)]
    intro i hi
    have := h (i + 1) (by simpa using hi)
    rw [List.getD_cons_succ, ← Nat.add_assoc, Nat.add_right_comm] at this
    exact this

@[simp] theorem State.regionOf_putRaw (s : State) (pa : Nat) (xs : List Byte) (a : Nat) :
    (s.putRaw pa xs).regionOf a = s.regionOf a := rfl

@[simp] theorem State.regionOf_setRowMeta (s : State) (r : Nat) (m : RowMeta) (a : Nat) :
    (s.setRowMeta r m).regionOf a = s.regionOf a := rfl

/-- A row whose stored bytes and region are the same decrypts to the same. -/
theorem State.plainRow_congr {s t : State} (r : Nat) (hr : s.regionOf (r * 256) = t.regionOf (r * 256))
    (h : ∀ a, r * 256 ≤ a → a < r * 256 + 256 → s.rawByte a = t.rawByte a) : s.plainRow r = t.plainRow r := by
  rw [State.plainRow, State.plainRow, State.sealOf, State.sealOf, hr, State.rawBytes_congr _ _ h]

/-- Making a row plain changes no byte that an agent reads. -/
theorem State.byte_settle {s : State} (h : ∀ a, s.frameOf a = a) (r a : Nat) : (s.settle r).byte a = s.byte a := by
  by_cases hc : (s.rowMeta r).cipher = true
  · have hf : ∀ a, (s.putRaw (r * 256) (natLE 256 (s.plainRow r).toNat)).frameOf a = a := by simpa using h
    have hs : s.settle r = (s.putRaw (r * 256) (natLE 256 (s.plainRow r).toNat)).setRowMeta r { s.rowMeta r with cipher := false } := by
      simp only [State.settle, hc, if_true]
    have raw : ∀ b, (s.settle r).rawByte b = (s.putRaw (r * 256) (natLE 256 (s.plainRow r).toNat)).rawByte b := by
      intro b; rw [hs, State.rawByte_setRowMeta]
    by_cases e : a / 256 = r
    · unfold State.byte
      rw [State.rowMeta_settle h, e]
      simp only [if_true, hc, Bool.false_eq_true, if_false]
      rw [raw, State.rawByte_putRaw h]
      simp only [natLE_length]
      rw [if_pos (by omega), List.getD_eq_getElem?_getD, getElem?_natLE _ _ _ (by omega)]
      have : a - r * 256 = a % 256 := by omega
      simp [this]
    · unfold State.byte
      rw [State.rowMeta_settle h, if_neg e]
      have rawEq : ∀ b, b / 256 = a / 256 → (s.settle r).rawByte b = s.rawByte b := by
        intro b hb
        rw [raw, State.rawByte_putRaw h, if_neg]
        simp only [natLE_length]; omega
      rw [rawEq a rfl]
      split
      · rw [State.plainRow_congr (s := s.settle r) (t := s) (a / 256) (by rw [hs]; simp)]
        intro b h1 h2
        exact rawEq b (by omega)
      · rfl
  · simp only [State.settle, Bool.not_eq_true] at *
    simp [hc]

/-- A write of a part of one row: its bytes read as written, every other byte as before. -/
theorem State.byte_setBytes {s : State} (h : ∀ a, s.frameOf a = a) (pa : Nat) (xs : List Byte) (row : pa % 256 + xs.length ≤ 256)
    (a : Nat) : (s.setBytes pa xs).byte a = if pa ≤ a ∧ a < pa + xs.length then xs.getD (a - pa) 0 else s.byte a := by
  have hf : ∀ a, (s.settle (pa / 256)).frameOf a = a := by simpa using h
  have meta' : ∀ r, (s.setBytes pa xs).rowMeta r = (s.settle (pa / 256)).rowMeta r := by
    intro r; rw [State.setBytes, State.rowMeta_putRaw]
  have raw : ∀ b, (s.setBytes pa xs).rawByte b =
      if pa ≤ b ∧ b < pa + xs.length then xs.getD (b - pa) 0 else (s.settle (pa / 256)).rawByte b := by
    intro b; rw [State.setBytes, State.rawByte_putRaw hf]
  rw [← State.byte_settle h (pa / 256) a]
  unfold State.byte
  rw [meta']
  by_cases e : a / 256 = pa / 256
  · have : ((s.settle (pa / 256)).rowMeta (a / 256)).cipher = false := by
      rw [State.rowMeta_settle h, if_pos e]
    simp only [this, Bool.false_eq_true, if_false]
    exact raw a
  · have out : ¬(pa ≤ a ∧ a < pa + xs.length) := by omega
    have rawEq : ∀ b, b / 256 = a / 256 → (s.setBytes pa xs).rawByte b = (s.settle (pa / 256)).rawByte b := by
      intro b hb; rw [raw, if_neg (by omega)]
    rw [if_neg out, rawEq a rfl]
    split
    · rw [State.plainRow_congr (s := s.setBytes pa xs) (t := s.settle (pa / 256)) (a / 256) (by rw [State.setBytes]; simp)
        fun b h1 h2 => rawEq b (by omega)]
    · rfl

theorem State.byte_setRowMeta {s : State} (h : ∀ a, s.frameOf a = a) (r : Nat) (m : RowMeta)
    (hm : m.cipher = (s.rowMeta r).cipher) (a : Nat) : (s.setRowMeta r m).byte a = s.byte a := by
  unfold State.byte
  rw [State.rowMeta_setRowMeta h]
  rw [State.rawByte_setRowMeta, State.plainRow_congr (s := s.setRowMeta r m) (t := s) (a / 256) (by simp) fun b _ _ => by simp]
  by_cases e : a / 256 = r
  · rw [if_pos e, hm, e]
  · rw [if_neg e]

/-- A write at the home: its bytes read as written, every other byte as before. -/
theorem State.byte_writeHome {s : State} (h : ∀ a, s.frameOf a = a) (pa : Nat) (xs : List Byte)
    (row : pa % 256 + xs.length ≤ 256) (key : Nat) (p : Bool) (t : BitVec 24) (a : Nat) :
    (s.writeHome pa xs key p t).byte a = if pa ≤ a ∧ a < pa + xs.length then xs.getD (a - pa) 0 else s.byte a := by
  rw [State.writeHome, State.byte_setRowMeta (by simpa using h), State.byte_setBytes h pa xs row]
  show false = ((s.setBytes pa xs).rowMeta (pa / 256)).cipher
  rw [State.setBytes, State.rowMeta_putRaw, State.rowMeta_settle h, if_pos rfl]

@[simp] theorem State.keyVal_setRowMeta (s : State) (r : Nat) (m : RowMeta) (pa key : Nat) :
    (s.setRowMeta r m).keyVal pa key = s.keyVal pa key := rfl

@[simp] theorem State.keyVal_settle (s : State) (r pa key : Nat) : (s.settle r).keyVal pa key = s.keyVal pa key := by
  rw [State.settle]; split <;> rfl

@[simp] theorem State.keyVal_setBytes (s : State) (q : Nat) (xs : List Byte) (pa key : Nat) :
    (s.setBytes q xs).keyVal pa key = s.keyVal pa key := State.keyVal_settle s (q / 256) pa key

@[simp] theorem State.keyShift_setRowMeta (s : State) (r : Nat) (m : RowMeta) (pa key : Nat) :
    (s.setRowMeta r m).keyShift pa key = s.keyShift pa key := rfl

@[simp] theorem State.keyShift_setBytes (s : State) (q : Nat) (xs : List Byte) (pa key : Nat) :
    (s.setBytes q xs).keyShift pa key = s.keyShift pa key := by
  show (s.settle (q / 256)).keyShift pa key = _
  rw [State.settle]; split <;> rfl

/-- A write at the home leaves the tweaks of the rows. -/
@[simp] theorem State.keyShift_writeHome (s : State) (q : Nat) (xs : List Byte) (k : Nat) (p : Bool) (t : BitVec 24)
    (pa key : Nat) : (s.writeHome q xs k p t).keyShift pa key = s.keyShift pa key := by
  rw [State.writeHome, State.keyShift_setRowMeta, State.keyShift_setBytes]

/-- A write at the home leaves the keys that the controllers hold. -/
@[simp] theorem State.keyVal_writeHome (s : State) (q : Nat) (xs : List Byte) (k : Nat) (p : Bool) (t : BitVec 24)
    (pa key : Nat) : (s.writeHome q xs k p t).keyVal pa key = s.keyVal pa key := by
  rw [State.writeHome, State.keyVal_setRowMeta, State.keyVal_setBytes]

theorem State.rowMeta_writeHome {s : State} (h : ∀ a, s.frameOf a = a) (pa : Nat) (xs : List Byte) (key : Nat) (p : Bool)
    (t : BitVec 24) (r : Nat) :
    (s.writeHome pa xs key p t).rowMeta r = if r = pa / 256 then
        { poison := p || (!(xs.length == 256) && ((s.rowMeta (pa / 256)).poison || !s.keyFits pa key)),
          key := key, kv := s.keyVal pa key, rtag := t,
          tent := if xs.length == 256 then 0 else (s.rowMeta (pa / 256)).tent, cipher := false, shift := s.keyShift pa key }
      else s.rowMeta r := by
  rw [State.writeHome, State.rowMeta_setRowMeta (by simpa using h)]
  split
  · rfl
  · next e => rw [State.setBytes, State.rowMeta_putRaw, State.rowMeta_settle h, if_neg e]

/-- A row is read under the keys under which it was written. -/
theorem State.keyFits_writeHome {s : State} (h : ∀ a, s.frameOf a = a) (pa : Nat) (xs : List Byte) (key : Nat) (p : Bool)
    (t : BitVec 24) : (s.writeHome pa xs key p t).keyFits pa key = true := by
  simp [State.keyFits, State.rowMeta_writeHome h]

/-- A whole row that was written under a key id is read back under it. -/
theorem State.readHome_writeHome_row {s : State} (h : ∀ a, s.frameOf a = a) (r : Nat) (xs : List Byte) (len : xs.length = 256)
    (key : Nat) (p : Bool) (t : BitVec 24) : (s.writeHome (256 * r) xs key p t).readHome (256 * r) 256 key = (xs, p) := by
  unfold State.readHome
  simp only [State.keyFits_writeHome h, State.rowMeta_writeHome h, len, beq_self_eq_true, Bool.not_true, Bool.false_and,
    Bool.or_false, if_true]
  congr 1
  have := State.bytes_of (s := s.writeHome (256 * r) xs key p t) (256 * r) xs (by
    intro i hi
    rw [State.byte_writeHome h _ _ (by omega), if_pos (by omega)]
    congr 1; omega)
  rwa [len] at this

/-- A read of another row is unchanged. -/
theorem State.readHome_writeHome_ne {s : State} (h : ∀ a, s.frameOf a = a) (pa : Nat) (xs : List Byte)
    (row : pa % 256 + xs.length ≤ 256) (key : Nat) (p : Bool) (t : BitVec 24) (q n key' : Nat) (hq : q / 256 ≠ pa / 256)
    (row' : q % 256 + n ≤ 256) : (s.writeHome pa xs key p t).readHome q n key' = s.readHome q n key' := by
  have e : (s.writeHome pa xs key p t).bytes q n = s.bytes q n := State.bytes_congr q n fun a h1 h2 => by
    rw [State.byte_writeHome h pa xs row, if_neg (by omega)]
  have m : (s.writeHome pa xs key p t).rowMeta (q / 256) = s.rowMeta (q / 256) := by rw [State.rowMeta_writeHome h, if_neg hq]
  have k : (s.writeHome pa xs key p t).keyFits q key' = s.keyFits q key' := by
    rw [State.keyFits, State.keyFits, State.keyVal_writeHome, State.keyShift_writeHome, m]
  rw [State.readHome, State.readHome, k, e, m]

/-! ### The canonical form -/

theorem State.wf_putRaw {s : State} (pa : Nat) (xs : List Byte) (h : Assoc.wf 0 s.mem = true) :
    Assoc.wf 0 (s.putRaw pa xs).mem = true := wf_putBytes _ _ _ h

theorem State.wf_settle {s : State} (r : Nat) (h : Assoc.wf 0 s.mem = true) : Assoc.wf 0 (s.settle r).mem = true := by
  rw [State.settle]
  split
  · rw [State.mem_setRowMeta]; exact State.wf_putRaw _ _ h
  · exact h

theorem State.wf_setBytes {s : State} (pa : Nat) (xs : List Byte) (h : Assoc.wf 0 s.mem = true) :
    Assoc.wf 0 (s.setBytes pa xs).mem = true := State.wf_putRaw _ _ (State.wf_settle _ h)

theorem State.wf_writeHome {s : State} (pa : Nat) (xs : List Byte) (key : Nat) (p : Bool) (t : BitVec 24)
    (h : Assoc.wf 0 s.mem = true) : Assoc.wf 0 (s.writeHome pa xs key p t).mem = true := State.wf_setBytes _ _ h

theorem State.wf_reset : Assoc.wf 0 State.reset.mem = true := rfl

end Sys2Proof.Machine
end

