-- ==== Sys2Proof/Laws/State.lean ====
section
/-! SUPPORT. What each update of the state and of a bank leaves in every field: one lemma per field per update. -/

namespace Sys2Proof.Machine


/-! ### State.setBank -/

@[simp] theorem State.setBank_counter (s : State) (b : Nat) (k : Bank) : (s.setBank b k).counter = s.counter := rfl
@[simp] theorem State.setBank_reftime (s : State) (b : Nat) (k : Bank) : (s.setBank b k).reftime = s.reftime := rfl
@[simp] theorem State.setBank_cur (s : State) (b : Nat) (k : Bank) : (s.setBank b k).cur = s.cur := rfl
@[simp] theorem State.setBank_agenda (s : State) (b : Nat) (k : Bank) : (s.setBank b k).agenda = s.agenda := rfl
@[simp] theorem State.setBank_pending (s : State) (b : Nat) (k : Bank) : (s.setBank b k).pending = s.pending := rfl
@[simp] theorem State.setBank_free (s : State) (b : Nat) (k : Bank) : (s.setBank b k).free = s.free := rfl
@[simp] theorem State.setBank_mem (s : State) (b : Nat) (k : Bank) : (s.setBank b k).mem = s.mem := rfl
@[simp] theorem State.setBank_memMeta (s : State) (b : Nat) (k : Bank) : (s.setBank b k).memMeta = s.memMeta := rfl
@[simp] theorem State.setBank_hostMem (s : State) (b : Nat) (k : Bank) : (s.setBank b k).hostMem = s.hostMem := rfl
@[simp] theorem State.setBank_sram (s : State) (b : Nat) (k : Bank) : (s.setBank b k).sram = s.sram := rfl
@[simp] theorem State.setBank_glSram (s : State) (b : Nat) (k : Bank) : (s.setBank b k).glSram = s.glSram := rfl
@[simp] theorem State.setBank_cores (s : State) (b : Nat) (k : Bank) : (s.setBank b k).cores = s.cores := rfl
@[simp] theorem State.setBank_clusters (s : State) (b : Nat) (k : Bank) : (s.setBank b k).clusters = s.clusters := rfl
@[simp] theorem State.setBank_dies (s : State) (b : Nat) (k : Bank) : (s.setBank b k).dies = s.dies := rfl
@[simp] theorem State.setBank_dirs (s : State) (b : Nat) (k : Bank) : (s.setBank b k).dirs = s.dirs := rfl
@[simp] theorem State.setBank_net (s : State) (b : Nat) (k : Bank) : (s.setBank b k).net = s.net := rfl
@[simp] theorem State.setBank_bulk (s : State) (b : Nat) (k : Bank) : (s.setBank b k).bulk = s.bulk := rfl
@[simp] theorem State.setBank_atomics (s : State) (b : Nat) (k : Bank) : (s.setBank b k).atomics = s.atomics := rfl
@[simp] theorem State.setBank_gsram (s : State) (b : Nat) (k : Bank) : (s.setBank b k).gsram = s.gsram := rfl
@[simp] theorem State.setBank_events (s : State) (b : Nat) (k : Bank) : (s.setBank b k).events = s.events := rfl
@[simp] theorem State.setBank_winWrites (s : State) (b : Nat) (k : Bank) : (s.setBank b k).winWrites = s.winWrites := rfl
@[simp] theorem State.setBank_rings (s : State) (b : Nat) (k : Bank) : (s.setBank b k).rings = s.rings := rfl
@[simp] theorem State.setBank_packets (s : State) (b : Nat) (k : Bank) : (s.setBank b k).packets = s.packets := rfl
@[simp] theorem State.setBank_refused (s : State) (b : Nat) (k : Bank) : (s.setBank b k).refused = s.refused := rfl
@[simp] theorem State.setBank_arrivals (s : State) (b : Nat) (k : Bank) : (s.setBank b k).arrivals = s.arrivals := rfl
@[simp] theorem State.setBank_migr (s : State) (b : Nat) (k : Bank) : (s.setBank b k).migr = s.migr := rfl
@[simp] theorem State.setBank_seqs (s : State) (b : Nat) (k : Bank) : (s.setBank b k).seqs = s.seqs := rfl
@[simp] theorem State.setBank_sheaves (s : State) (b : Nat) (k : Bank) : (s.setBank b k).sheaves = s.sheaves := rfl
@[simp] theorem State.setBank_sheafNext (s : State) (b : Nat) (k : Bank) : (s.setBank b k).sheafNext = s.sheafNext := rfl
@[simp] theorem State.setBank_insts (s : State) (b : Nat) (k : Bank) : (s.setBank b k).insts = s.insts := rfl
@[simp] theorem State.setBank_launches (s : State) (b : Nat) (k : Bank) : (s.setBank b k).launches = s.launches := rfl
@[simp] theorem State.setBank_launchNext (s : State) (b : Nat) (k : Bank) : (s.setBank b k).launchNext = s.launchNext := rfl
@[simp] theorem State.setBank_taskNext (s : State) (b : Nat) (k : Bank) : (s.setBank b k).taskNext = s.taskNext := rfl
@[simp] theorem State.setBank_hostLaunch (s : State) (b : Nat) (k : Bank) : (s.setBank b k).hostLaunch = s.hostLaunch := rfl
@[simp] theorem State.setBank_hostq (s : State) (b : Nat) (k : Bank) : (s.setBank b k).hostq = s.hostq := rfl
@[simp] theorem State.setBank_mapper (s : State) (b : Nat) (k : Bank) : (s.setBank b k).mapper = s.mapper := rfl
@[simp] theorem State.setBank_passed (s : State) (b : Nat) (k : Bank) : (s.setBank b k).passed = s.passed := rfl
@[simp] theorem State.setBank_sends (s : State) (b : Nat) (k : Bank) : (s.setBank b k).sends = s.sends := rfl
@[simp] theorem State.setBank_saved (s : State) (b : Nat) (k : Bank) : (s.setBank b k).saved = s.saved := rfl
@[simp] theorem State.setBank_modul (s : State) (b : Nat) (k : Bank) : (s.setBank b k).modul = s.modul := rfl

/-! ### State.modBank -/

@[simp] theorem State.modBank_counter (s : State) (b : Nat) (f : Bank → Bank) : (s.modBank b f).counter = s.counter := rfl
@[simp] theorem State.modBank_reftime (s : State) (b : Nat) (f : Bank → Bank) : (s.modBank b f).reftime = s.reftime := rfl
@[simp] theorem State.modBank_cur (s : State) (b : Nat) (f : Bank → Bank) : (s.modBank b f).cur = s.cur := rfl
@[simp] theorem State.modBank_agenda (s : State) (b : Nat) (f : Bank → Bank) : (s.modBank b f).agenda = s.agenda := rfl
@[simp] theorem State.modBank_pending (s : State) (b : Nat) (f : Bank → Bank) : (s.modBank b f).pending = s.pending := rfl
@[simp] theorem State.modBank_free (s : State) (b : Nat) (f : Bank → Bank) : (s.modBank b f).free = s.free := rfl
@[simp] theorem State.modBank_mem (s : State) (b : Nat) (f : Bank → Bank) : (s.modBank b f).mem = s.mem := rfl
@[simp] theorem State.modBank_memMeta (s : State) (b : Nat) (f : Bank → Bank) : (s.modBank b f).memMeta = s.memMeta := rfl
@[simp] theorem State.modBank_hostMem (s : State) (b : Nat) (f : Bank → Bank) : (s.modBank b f).hostMem = s.hostMem := rfl
@[simp] theorem State.modBank_sram (s : State) (b : Nat) (f : Bank → Bank) : (s.modBank b f).sram = s.sram := rfl
@[simp] theorem State.modBank_glSram (s : State) (b : Nat) (f : Bank → Bank) : (s.modBank b f).glSram = s.glSram := rfl
@[simp] theorem State.modBank_cores (s : State) (b : Nat) (f : Bank → Bank) : (s.modBank b f).cores = s.cores := rfl
@[simp] theorem State.modBank_clusters (s : State) (b : Nat) (f : Bank → Bank) : (s.modBank b f).clusters = s.clusters := rfl
@[simp] theorem State.modBank_dies (s : State) (b : Nat) (f : Bank → Bank) : (s.modBank b f).dies = s.dies := rfl
@[simp] theorem State.modBank_dirs (s : State) (b : Nat) (f : Bank → Bank) : (s.modBank b f).dirs = s.dirs := rfl
@[simp] theorem State.modBank_net (s : State) (b : Nat) (f : Bank → Bank) : (s.modBank b f).net = s.net := rfl
@[simp] theorem State.modBank_bulk (s : State) (b : Nat) (f : Bank → Bank) : (s.modBank b f).bulk = s.bulk := rfl
@[simp] theorem State.modBank_atomics (s : State) (b : Nat) (f : Bank → Bank) : (s.modBank b f).atomics = s.atomics := rfl
@[simp] theorem State.modBank_gsram (s : State) (b : Nat) (f : Bank → Bank) : (s.modBank b f).gsram = s.gsram := rfl
@[simp] theorem State.modBank_events (s : State) (b : Nat) (f : Bank → Bank) : (s.modBank b f).events = s.events := rfl
@[simp] theorem State.modBank_winWrites (s : State) (b : Nat) (f : Bank → Bank) : (s.modBank b f).winWrites = s.winWrites := rfl
@[simp] theorem State.modBank_rings (s : State) (b : Nat) (f : Bank → Bank) : (s.modBank b f).rings = s.rings := rfl
@[simp] theorem State.modBank_packets (s : State) (b : Nat) (f : Bank → Bank) : (s.modBank b f).packets = s.packets := rfl
@[simp] theorem State.modBank_refused (s : State) (b : Nat) (f : Bank → Bank) : (s.modBank b f).refused = s.refused := rfl
@[simp] theorem State.modBank_arrivals (s : State) (b : Nat) (f : Bank → Bank) : (s.modBank b f).arrivals = s.arrivals := rfl
@[simp] theorem State.modBank_migr (s : State) (b : Nat) (f : Bank → Bank) : (s.modBank b f).migr = s.migr := rfl
@[simp] theorem State.modBank_seqs (s : State) (b : Nat) (f : Bank → Bank) : (s.modBank b f).seqs = s.seqs := rfl
@[simp] theorem State.modBank_sheaves (s : State) (b : Nat) (f : Bank → Bank) : (s.modBank b f).sheaves = s.sheaves := rfl
@[simp] theorem State.modBank_sheafNext (s : State) (b : Nat) (f : Bank → Bank) : (s.modBank b f).sheafNext = s.sheafNext := rfl
@[simp] theorem State.modBank_insts (s : State) (b : Nat) (f : Bank → Bank) : (s.modBank b f).insts = s.insts := rfl
@[simp] theorem State.modBank_launches (s : State) (b : Nat) (f : Bank → Bank) : (s.modBank b f).launches = s.launches := rfl
@[simp] theorem State.modBank_launchNext (s : State) (b : Nat) (f : Bank → Bank) : (s.modBank b f).launchNext = s.launchNext := rfl
@[simp] theorem State.modBank_taskNext (s : State) (b : Nat) (f : Bank → Bank) : (s.modBank b f).taskNext = s.taskNext := rfl
@[simp] theorem State.modBank_hostLaunch (s : State) (b : Nat) (f : Bank → Bank) : (s.modBank b f).hostLaunch = s.hostLaunch := rfl
@[simp] theorem State.modBank_hostq (s : State) (b : Nat) (f : Bank → Bank) : (s.modBank b f).hostq = s.hostq := rfl
@[simp] theorem State.modBank_mapper (s : State) (b : Nat) (f : Bank → Bank) : (s.modBank b f).mapper = s.mapper := rfl
@[simp] theorem State.modBank_passed (s : State) (b : Nat) (f : Bank → Bank) : (s.modBank b f).passed = s.passed := rfl
@[simp] theorem State.modBank_sends (s : State) (b : Nat) (f : Bank → Bank) : (s.modBank b f).sends = s.sends := rfl
@[simp] theorem State.modBank_saved (s : State) (b : Nat) (f : Bank → Bank) : (s.modBank b f).saved = s.saved := rfl
@[simp] theorem State.modBank_modul (s : State) (b : Nat) (f : Bank → Bank) : (s.modBank b f).modul = s.modul := rfl

/-! ### State.modMe -/

@[simp] theorem State.modMe_counter (s : State) (f : Bank → Bank) : (s.modMe f).counter = s.counter := rfl
@[simp] theorem State.modMe_reftime (s : State) (f : Bank → Bank) : (s.modMe f).reftime = s.reftime := rfl
@[simp] theorem State.modMe_cur (s : State) (f : Bank → Bank) : (s.modMe f).cur = s.cur := rfl
@[simp] theorem State.modMe_agenda (s : State) (f : Bank → Bank) : (s.modMe f).agenda = s.agenda := rfl
@[simp] theorem State.modMe_pending (s : State) (f : Bank → Bank) : (s.modMe f).pending = s.pending := rfl
@[simp] theorem State.modMe_free (s : State) (f : Bank → Bank) : (s.modMe f).free = s.free := rfl
@[simp] theorem State.modMe_mem (s : State) (f : Bank → Bank) : (s.modMe f).mem = s.mem := rfl
@[simp] theorem State.modMe_memMeta (s : State) (f : Bank → Bank) : (s.modMe f).memMeta = s.memMeta := rfl
@[simp] theorem State.modMe_hostMem (s : State) (f : Bank → Bank) : (s.modMe f).hostMem = s.hostMem := rfl
@[simp] theorem State.modMe_sram (s : State) (f : Bank → Bank) : (s.modMe f).sram = s.sram := rfl
@[simp] theorem State.modMe_glSram (s : State) (f : Bank → Bank) : (s.modMe f).glSram = s.glSram := rfl
@[simp] theorem State.modMe_cores (s : State) (f : Bank → Bank) : (s.modMe f).cores = s.cores := rfl
@[simp] theorem State.modMe_clusters (s : State) (f : Bank → Bank) : (s.modMe f).clusters = s.clusters := rfl
@[simp] theorem State.modMe_dies (s : State) (f : Bank → Bank) : (s.modMe f).dies = s.dies := rfl
@[simp] theorem State.modMe_dirs (s : State) (f : Bank → Bank) : (s.modMe f).dirs = s.dirs := rfl
@[simp] theorem State.modMe_net (s : State) (f : Bank → Bank) : (s.modMe f).net = s.net := rfl
@[simp] theorem State.modMe_bulk (s : State) (f : Bank → Bank) : (s.modMe f).bulk = s.bulk := rfl
@[simp] theorem State.modMe_atomics (s : State) (f : Bank → Bank) : (s.modMe f).atomics = s.atomics := rfl
@[simp] theorem State.modMe_gsram (s : State) (f : Bank → Bank) : (s.modMe f).gsram = s.gsram := rfl
@[simp] theorem State.modMe_events (s : State) (f : Bank → Bank) : (s.modMe f).events = s.events := rfl
@[simp] theorem State.modMe_winWrites (s : State) (f : Bank → Bank) : (s.modMe f).winWrites = s.winWrites := rfl
@[simp] theorem State.modMe_rings (s : State) (f : Bank → Bank) : (s.modMe f).rings = s.rings := rfl
@[simp] theorem State.modMe_packets (s : State) (f : Bank → Bank) : (s.modMe f).packets = s.packets := rfl
@[simp] theorem State.modMe_refused (s : State) (f : Bank → Bank) : (s.modMe f).refused = s.refused := rfl
@[simp] theorem State.modMe_arrivals (s : State) (f : Bank → Bank) : (s.modMe f).arrivals = s.arrivals := rfl
@[simp] theorem State.modMe_migr (s : State) (f : Bank → Bank) : (s.modMe f).migr = s.migr := rfl
@[simp] theorem State.modMe_seqs (s : State) (f : Bank → Bank) : (s.modMe f).seqs = s.seqs := rfl
@[simp] theorem State.modMe_sheaves (s : State) (f : Bank → Bank) : (s.modMe f).sheaves = s.sheaves := rfl
@[simp] theorem State.modMe_sheafNext (s : State) (f : Bank → Bank) : (s.modMe f).sheafNext = s.sheafNext := rfl
@[simp] theorem State.modMe_insts (s : State) (f : Bank → Bank) : (s.modMe f).insts = s.insts := rfl
@[simp] theorem State.modMe_launches (s : State) (f : Bank → Bank) : (s.modMe f).launches = s.launches := rfl
@[simp] theorem State.modMe_launchNext (s : State) (f : Bank → Bank) : (s.modMe f).launchNext = s.launchNext := rfl
@[simp] theorem State.modMe_taskNext (s : State) (f : Bank → Bank) : (s.modMe f).taskNext = s.taskNext := rfl
@[simp] theorem State.modMe_hostLaunch (s : State) (f : Bank → Bank) : (s.modMe f).hostLaunch = s.hostLaunch := rfl
@[simp] theorem State.modMe_hostq (s : State) (f : Bank → Bank) : (s.modMe f).hostq = s.hostq := rfl
@[simp] theorem State.modMe_mapper (s : State) (f : Bank → Bank) : (s.modMe f).mapper = s.mapper := rfl
@[simp] theorem State.modMe_passed (s : State) (f : Bank → Bank) : (s.modMe f).passed = s.passed := rfl
@[simp] theorem State.modMe_sends (s : State) (f : Bank → Bank) : (s.modMe f).sends = s.sends := rfl
@[simp] theorem State.modMe_saved (s : State) (f : Bank → Bank) : (s.modMe f).saved = s.saved := rfl
@[simp] theorem State.modMe_modul (s : State) (f : Bank → Bank) : (s.modMe f).modul = s.modul := rfl

/-! ### State.modCore -/

@[simp] theorem State.modCore_counter (s : State) (c : Nat) (f : Core → Core) : (s.modCore c f).counter = s.counter := rfl
@[simp] theorem State.modCore_reftime (s : State) (c : Nat) (f : Core → Core) : (s.modCore c f).reftime = s.reftime := rfl
@[simp] theorem State.modCore_cur (s : State) (c : Nat) (f : Core → Core) : (s.modCore c f).cur = s.cur := rfl
@[simp] theorem State.modCore_agenda (s : State) (c : Nat) (f : Core → Core) : (s.modCore c f).agenda = s.agenda := rfl
@[simp] theorem State.modCore_pending (s : State) (c : Nat) (f : Core → Core) : (s.modCore c f).pending = s.pending := rfl
@[simp] theorem State.modCore_free (s : State) (c : Nat) (f : Core → Core) : (s.modCore c f).free = s.free := rfl
@[simp] theorem State.modCore_mem (s : State) (c : Nat) (f : Core → Core) : (s.modCore c f).mem = s.mem := rfl
@[simp] theorem State.modCore_memMeta (s : State) (c : Nat) (f : Core → Core) : (s.modCore c f).memMeta = s.memMeta := rfl
@[simp] theorem State.modCore_hostMem (s : State) (c : Nat) (f : Core → Core) : (s.modCore c f).hostMem = s.hostMem := rfl
@[simp] theorem State.modCore_sram (s : State) (c : Nat) (f : Core → Core) : (s.modCore c f).sram = s.sram := rfl
@[simp] theorem State.modCore_glSram (s : State) (c : Nat) (f : Core → Core) : (s.modCore c f).glSram = s.glSram := rfl
@[simp] theorem State.modCore_banks (s : State) (c : Nat) (f : Core → Core) : (s.modCore c f).banks = s.banks := rfl
@[simp] theorem State.modCore_clusters (s : State) (c : Nat) (f : Core → Core) : (s.modCore c f).clusters = s.clusters := rfl
@[simp] theorem State.modCore_dies (s : State) (c : Nat) (f : Core → Core) : (s.modCore c f).dies = s.dies := rfl
@[simp] theorem State.modCore_dirs (s : State) (c : Nat) (f : Core → Core) : (s.modCore c f).dirs = s.dirs := rfl
@[simp] theorem State.modCore_net (s : State) (c : Nat) (f : Core → Core) : (s.modCore c f).net = s.net := rfl
@[simp] theorem State.modCore_bulk (s : State) (c : Nat) (f : Core → Core) : (s.modCore c f).bulk = s.bulk := rfl
@[simp] theorem State.modCore_atomics (s : State) (c : Nat) (f : Core → Core) : (s.modCore c f).atomics = s.atomics := rfl
@[simp] theorem State.modCore_gsram (s : State) (c : Nat) (f : Core → Core) : (s.modCore c f).gsram = s.gsram := rfl
@[simp] theorem State.modCore_events (s : State) (c : Nat) (f : Core → Core) : (s.modCore c f).events = s.events := rfl
@[simp] theorem State.modCore_winWrites (s : State) (c : Nat) (f : Core → Core) : (s.modCore c f).winWrites = s.winWrites := rfl
@[simp] theorem State.modCore_rings (s : State) (c : Nat) (f : Core → Core) : (s.modCore c f).rings = s.rings := rfl
@[simp] theorem State.modCore_packets (s : State) (c : Nat) (f : Core → Core) : (s.modCore c f).packets = s.packets := rfl
@[simp] theorem State.modCore_refused (s : State) (c : Nat) (f : Core → Core) : (s.modCore c f).refused = s.refused := rfl
@[simp] theorem State.modCore_arrivals (s : State) (c : Nat) (f : Core → Core) : (s.modCore c f).arrivals = s.arrivals := rfl
@[simp] theorem State.modCore_migr (s : State) (c : Nat) (f : Core → Core) : (s.modCore c f).migr = s.migr := rfl
@[simp] theorem State.modCore_seqs (s : State) (c : Nat) (f : Core → Core) : (s.modCore c f).seqs = s.seqs := rfl
@[simp] theorem State.modCore_sheaves (s : State) (c : Nat) (f : Core → Core) : (s.modCore c f).sheaves = s.sheaves := rfl
@[simp] theorem State.modCore_sheafNext (s : State) (c : Nat) (f : Core → Core) : (s.modCore c f).sheafNext = s.sheafNext := rfl
@[simp] theorem State.modCore_insts (s : State) (c : Nat) (f : Core → Core) : (s.modCore c f).insts = s.insts := rfl
@[simp] theorem State.modCore_launches (s : State) (c : Nat) (f : Core → Core) : (s.modCore c f).launches = s.launches := rfl
@[simp] theorem State.modCore_launchNext (s : State) (c : Nat) (f : Core → Core) : (s.modCore c f).launchNext = s.launchNext := rfl
@[simp] theorem State.modCore_taskNext (s : State) (c : Nat) (f : Core → Core) : (s.modCore c f).taskNext = s.taskNext := rfl
@[simp] theorem State.modCore_hostLaunch (s : State) (c : Nat) (f : Core → Core) : (s.modCore c f).hostLaunch = s.hostLaunch := rfl
@[simp] theorem State.modCore_hostq (s : State) (c : Nat) (f : Core → Core) : (s.modCore c f).hostq = s.hostq := rfl
@[simp] theorem State.modCore_mapper (s : State) (c : Nat) (f : Core → Core) : (s.modCore c f).mapper = s.mapper := rfl
@[simp] theorem State.modCore_passed (s : State) (c : Nat) (f : Core → Core) : (s.modCore c f).passed = s.passed := rfl
@[simp] theorem State.modCore_sends (s : State) (c : Nat) (f : Core → Core) : (s.modCore c f).sends = s.sends := rfl
@[simp] theorem State.modCore_saved (s : State) (c : Nat) (f : Core → Core) : (s.modCore c f).saved = s.saved := rfl
@[simp] theorem State.modCore_modul (s : State) (c : Nat) (f : Core → Core) : (s.modCore c f).modul = s.modul := rfl

/-! ### State.modDie -/

@[simp] theorem State.modDie_counter (s : State) (d : Nat) (f : Die → Die) : (s.modDie d f).counter = s.counter := rfl
@[simp] theorem State.modDie_reftime (s : State) (d : Nat) (f : Die → Die) : (s.modDie d f).reftime = s.reftime := rfl
@[simp] theorem State.modDie_cur (s : State) (d : Nat) (f : Die → Die) : (s.modDie d f).cur = s.cur := rfl
@[simp] theorem State.modDie_agenda (s : State) (d : Nat) (f : Die → Die) : (s.modDie d f).agenda = s.agenda := rfl
@[simp] theorem State.modDie_pending (s : State) (d : Nat) (f : Die → Die) : (s.modDie d f).pending = s.pending := rfl
@[simp] theorem State.modDie_free (s : State) (d : Nat) (f : Die → Die) : (s.modDie d f).free = s.free := rfl
@[simp] theorem State.modDie_mem (s : State) (d : Nat) (f : Die → Die) : (s.modDie d f).mem = s.mem := rfl
@[simp] theorem State.modDie_memMeta (s : State) (d : Nat) (f : Die → Die) : (s.modDie d f).memMeta = s.memMeta := rfl
@[simp] theorem State.modDie_hostMem (s : State) (d : Nat) (f : Die → Die) : (s.modDie d f).hostMem = s.hostMem := rfl
@[simp] theorem State.modDie_sram (s : State) (d : Nat) (f : Die → Die) : (s.modDie d f).sram = s.sram := rfl
@[simp] theorem State.modDie_glSram (s : State) (d : Nat) (f : Die → Die) : (s.modDie d f).glSram = s.glSram := rfl
@[simp] theorem State.modDie_banks (s : State) (d : Nat) (f : Die → Die) : (s.modDie d f).banks = s.banks := rfl
@[simp] theorem State.modDie_cores (s : State) (d : Nat) (f : Die → Die) : (s.modDie d f).cores = s.cores := rfl
@[simp] theorem State.modDie_clusters (s : State) (d : Nat) (f : Die → Die) : (s.modDie d f).clusters = s.clusters := rfl
@[simp] theorem State.modDie_dirs (s : State) (d : Nat) (f : Die → Die) : (s.modDie d f).dirs = s.dirs := rfl
@[simp] theorem State.modDie_net (s : State) (d : Nat) (f : Die → Die) : (s.modDie d f).net = s.net := rfl
@[simp] theorem State.modDie_bulk (s : State) (d : Nat) (f : Die → Die) : (s.modDie d f).bulk = s.bulk := rfl
@[simp] theorem State.modDie_atomics (s : State) (d : Nat) (f : Die → Die) : (s.modDie d f).atomics = s.atomics := rfl
@[simp] theorem State.modDie_gsram (s : State) (d : Nat) (f : Die → Die) : (s.modDie d f).gsram = s.gsram := rfl
@[simp] theorem State.modDie_events (s : State) (d : Nat) (f : Die → Die) : (s.modDie d f).events = s.events := rfl
@[simp] theorem State.modDie_winWrites (s : State) (d : Nat) (f : Die → Die) : (s.modDie d f).winWrites = s.winWrites := rfl
@[simp] theorem State.modDie_rings (s : State) (d : Nat) (f : Die → Die) : (s.modDie d f).rings = s.rings := rfl
@[simp] theorem State.modDie_packets (s : State) (d : Nat) (f : Die → Die) : (s.modDie d f).packets = s.packets := rfl
@[simp] theorem State.modDie_refused (s : State) (d : Nat) (f : Die → Die) : (s.modDie d f).refused = s.refused := rfl
@[simp] theorem State.modDie_arrivals (s : State) (d : Nat) (f : Die → Die) : (s.modDie d f).arrivals = s.arrivals := rfl
@[simp] theorem State.modDie_migr (s : State) (d : Nat) (f : Die → Die) : (s.modDie d f).migr = s.migr := rfl
@[simp] theorem State.modDie_seqs (s : State) (d : Nat) (f : Die → Die) : (s.modDie d f).seqs = s.seqs := rfl
@[simp] theorem State.modDie_sheaves (s : State) (d : Nat) (f : Die → Die) : (s.modDie d f).sheaves = s.sheaves := rfl
@[simp] theorem State.modDie_sheafNext (s : State) (d : Nat) (f : Die → Die) : (s.modDie d f).sheafNext = s.sheafNext := rfl
@[simp] theorem State.modDie_insts (s : State) (d : Nat) (f : Die → Die) : (s.modDie d f).insts = s.insts := rfl
@[simp] theorem State.modDie_launches (s : State) (d : Nat) (f : Die → Die) : (s.modDie d f).launches = s.launches := rfl
@[simp] theorem State.modDie_launchNext (s : State) (d : Nat) (f : Die → Die) : (s.modDie d f).launchNext = s.launchNext := rfl
@[simp] theorem State.modDie_taskNext (s : State) (d : Nat) (f : Die → Die) : (s.modDie d f).taskNext = s.taskNext := rfl
@[simp] theorem State.modDie_hostLaunch (s : State) (d : Nat) (f : Die → Die) : (s.modDie d f).hostLaunch = s.hostLaunch := rfl
@[simp] theorem State.modDie_hostq (s : State) (d : Nat) (f : Die → Die) : (s.modDie d f).hostq = s.hostq := rfl
@[simp] theorem State.modDie_mapper (s : State) (d : Nat) (f : Die → Die) : (s.modDie d f).mapper = s.mapper := rfl
@[simp] theorem State.modDie_passed (s : State) (d : Nat) (f : Die → Die) : (s.modDie d f).passed = s.passed := rfl
@[simp] theorem State.modDie_sends (s : State) (d : Nat) (f : Die → Die) : (s.modDie d f).sends = s.sends := rfl
@[simp] theorem State.modDie_saved (s : State) (d : Nat) (f : Die → Die) : (s.modDie d f).saved = s.saved := rfl
@[simp] theorem State.modDie_modul (s : State) (d : Nat) (f : Die → Die) : (s.modDie d f).modul = s.modul := rfl

/-! ### State.modCluster -/

@[simp] theorem State.modCluster_counter (s : State) (c : Nat) (f : Cluster → Cluster) : (s.modCluster c f).counter = s.counter := rfl
@[simp] theorem State.modCluster_reftime (s : State) (c : Nat) (f : Cluster → Cluster) : (s.modCluster c f).reftime = s.reftime := rfl
@[simp] theorem State.modCluster_cur (s : State) (c : Nat) (f : Cluster → Cluster) : (s.modCluster c f).cur = s.cur := rfl
@[simp] theorem State.modCluster_agenda (s : State) (c : Nat) (f : Cluster → Cluster) : (s.modCluster c f).agenda = s.agenda := rfl
@[simp] theorem State.modCluster_pending (s : State) (c : Nat) (f : Cluster → Cluster) : (s.modCluster c f).pending = s.pending := rfl
@[simp] theorem State.modCluster_free (s : State) (c : Nat) (f : Cluster → Cluster) : (s.modCluster c f).free = s.free := rfl
@[simp] theorem State.modCluster_mem (s : State) (c : Nat) (f : Cluster → Cluster) : (s.modCluster c f).mem = s.mem := rfl
@[simp] theorem State.modCluster_memMeta (s : State) (c : Nat) (f : Cluster → Cluster) : (s.modCluster c f).memMeta = s.memMeta := rfl
@[simp] theorem State.modCluster_hostMem (s : State) (c : Nat) (f : Cluster → Cluster) : (s.modCluster c f).hostMem = s.hostMem := rfl
@[simp] theorem State.modCluster_sram (s : State) (c : Nat) (f : Cluster → Cluster) : (s.modCluster c f).sram = s.sram := rfl
@[simp] theorem State.modCluster_glSram (s : State) (c : Nat) (f : Cluster → Cluster) : (s.modCluster c f).glSram = s.glSram := rfl
@[simp] theorem State.modCluster_banks (s : State) (c : Nat) (f : Cluster → Cluster) : (s.modCluster c f).banks = s.banks := rfl
@[simp] theorem State.modCluster_cores (s : State) (c : Nat) (f : Cluster → Cluster) : (s.modCluster c f).cores = s.cores := rfl
@[simp] theorem State.modCluster_dies (s : State) (c : Nat) (f : Cluster → Cluster) : (s.modCluster c f).dies = s.dies := rfl
@[simp] theorem State.modCluster_dirs (s : State) (c : Nat) (f : Cluster → Cluster) : (s.modCluster c f).dirs = s.dirs := rfl
@[simp] theorem State.modCluster_net (s : State) (c : Nat) (f : Cluster → Cluster) : (s.modCluster c f).net = s.net := rfl
@[simp] theorem State.modCluster_bulk (s : State) (c : Nat) (f : Cluster → Cluster) : (s.modCluster c f).bulk = s.bulk := rfl
@[simp] theorem State.modCluster_atomics (s : State) (c : Nat) (f : Cluster → Cluster) : (s.modCluster c f).atomics = s.atomics := rfl
@[simp] theorem State.modCluster_gsram (s : State) (c : Nat) (f : Cluster → Cluster) : (s.modCluster c f).gsram = s.gsram := rfl
@[simp] theorem State.modCluster_events (s : State) (c : Nat) (f : Cluster → Cluster) : (s.modCluster c f).events = s.events := rfl
@[simp] theorem State.modCluster_winWrites (s : State) (c : Nat) (f : Cluster → Cluster) : (s.modCluster c f).winWrites = s.winWrites := rfl
@[simp] theorem State.modCluster_rings (s : State) (c : Nat) (f : Cluster → Cluster) : (s.modCluster c f).rings = s.rings := rfl
@[simp] theorem State.modCluster_packets (s : State) (c : Nat) (f : Cluster → Cluster) : (s.modCluster c f).packets = s.packets := rfl
@[simp] theorem State.modCluster_refused (s : State) (c : Nat) (f : Cluster → Cluster) : (s.modCluster c f).refused = s.refused := rfl
@[simp] theorem State.modCluster_arrivals (s : State) (c : Nat) (f : Cluster → Cluster) : (s.modCluster c f).arrivals = s.arrivals := rfl
@[simp] theorem State.modCluster_migr (s : State) (c : Nat) (f : Cluster → Cluster) : (s.modCluster c f).migr = s.migr := rfl
@[simp] theorem State.modCluster_seqs (s : State) (c : Nat) (f : Cluster → Cluster) : (s.modCluster c f).seqs = s.seqs := rfl
@[simp] theorem State.modCluster_sheaves (s : State) (c : Nat) (f : Cluster → Cluster) : (s.modCluster c f).sheaves = s.sheaves := rfl
@[simp] theorem State.modCluster_sheafNext (s : State) (c : Nat) (f : Cluster → Cluster) : (s.modCluster c f).sheafNext = s.sheafNext := rfl
@[simp] theorem State.modCluster_insts (s : State) (c : Nat) (f : Cluster → Cluster) : (s.modCluster c f).insts = s.insts := rfl
@[simp] theorem State.modCluster_launches (s : State) (c : Nat) (f : Cluster → Cluster) : (s.modCluster c f).launches = s.launches := rfl
@[simp] theorem State.modCluster_launchNext (s : State) (c : Nat) (f : Cluster → Cluster) : (s.modCluster c f).launchNext = s.launchNext := rfl
@[simp] theorem State.modCluster_taskNext (s : State) (c : Nat) (f : Cluster → Cluster) : (s.modCluster c f).taskNext = s.taskNext := rfl
@[simp] theorem State.modCluster_hostLaunch (s : State) (c : Nat) (f : Cluster → Cluster) : (s.modCluster c f).hostLaunch = s.hostLaunch := rfl
@[simp] theorem State.modCluster_hostq (s : State) (c : Nat) (f : Cluster → Cluster) : (s.modCluster c f).hostq = s.hostq := rfl
@[simp] theorem State.modCluster_mapper (s : State) (c : Nat) (f : Cluster → Cluster) : (s.modCluster c f).mapper = s.mapper := rfl
@[simp] theorem State.modCluster_passed (s : State) (c : Nat) (f : Cluster → Cluster) : (s.modCluster c f).passed = s.passed := rfl
@[simp] theorem State.modCluster_sends (s : State) (c : Nat) (f : Cluster → Cluster) : (s.modCluster c f).sends = s.sends := rfl
@[simp] theorem State.modCluster_saved (s : State) (c : Nat) (f : Cluster → Cluster) : (s.modCluster c f).saved = s.saved := rfl
@[simp] theorem State.modCluster_modul (s : State) (c : Nat) (f : Cluster → Cluster) : (s.modCluster c f).modul = s.modul := rfl

/-! ### State.setDir -/

@[simp] theorem State.setDir_counter (s : State) (l : Nat) (d : Dir) : (s.setDir l d).counter = s.counter := rfl
@[simp] theorem State.setDir_reftime (s : State) (l : Nat) (d : Dir) : (s.setDir l d).reftime = s.reftime := rfl
@[simp] theorem State.setDir_cur (s : State) (l : Nat) (d : Dir) : (s.setDir l d).cur = s.cur := rfl
@[simp] theorem State.setDir_agenda (s : State) (l : Nat) (d : Dir) : (s.setDir l d).agenda = s.agenda := rfl
@[simp] theorem State.setDir_pending (s : State) (l : Nat) (d : Dir) : (s.setDir l d).pending = s.pending := rfl
@[simp] theorem State.setDir_free (s : State) (l : Nat) (d : Dir) : (s.setDir l d).free = s.free := rfl
@[simp] theorem State.setDir_mem (s : State) (l : Nat) (d : Dir) : (s.setDir l d).mem = s.mem := rfl
@[simp] theorem State.setDir_memMeta (s : State) (l : Nat) (d : Dir) : (s.setDir l d).memMeta = s.memMeta := rfl
@[simp] theorem State.setDir_hostMem (s : State) (l : Nat) (d : Dir) : (s.setDir l d).hostMem = s.hostMem := rfl
@[simp] theorem State.setDir_sram (s : State) (l : Nat) (d : Dir) : (s.setDir l d).sram = s.sram := rfl
@[simp] theorem State.setDir_glSram (s : State) (l : Nat) (d : Dir) : (s.setDir l d).glSram = s.glSram := rfl
@[simp] theorem State.setDir_banks (s : State) (l : Nat) (d : Dir) : (s.setDir l d).banks = s.banks := rfl
@[simp] theorem State.setDir_cores (s : State) (l : Nat) (d : Dir) : (s.setDir l d).cores = s.cores := rfl
@[simp] theorem State.setDir_clusters (s : State) (l : Nat) (d : Dir) : (s.setDir l d).clusters = s.clusters := rfl
@[simp] theorem State.setDir_dies (s : State) (l : Nat) (d : Dir) : (s.setDir l d).dies = s.dies := rfl
@[simp] theorem State.setDir_net (s : State) (l : Nat) (d : Dir) : (s.setDir l d).net = s.net := rfl
@[simp] theorem State.setDir_bulk (s : State) (l : Nat) (d : Dir) : (s.setDir l d).bulk = s.bulk := rfl
@[simp] theorem State.setDir_atomics (s : State) (l : Nat) (d : Dir) : (s.setDir l d).atomics = s.atomics := rfl
@[simp] theorem State.setDir_gsram (s : State) (l : Nat) (d : Dir) : (s.setDir l d).gsram = s.gsram := rfl
@[simp] theorem State.setDir_events (s : State) (l : Nat) (d : Dir) : (s.setDir l d).events = s.events := rfl
@[simp] theorem State.setDir_winWrites (s : State) (l : Nat) (d : Dir) : (s.setDir l d).winWrites = s.winWrites := rfl
@[simp] theorem State.setDir_rings (s : State) (l : Nat) (d : Dir) : (s.setDir l d).rings = s.rings := rfl
@[simp] theorem State.setDir_packets (s : State) (l : Nat) (d : Dir) : (s.setDir l d).packets = s.packets := rfl
@[simp] theorem State.setDir_refused (s : State) (l : Nat) (d : Dir) : (s.setDir l d).refused = s.refused := rfl
@[simp] theorem State.setDir_arrivals (s : State) (l : Nat) (d : Dir) : (s.setDir l d).arrivals = s.arrivals := rfl
@[simp] theorem State.setDir_migr (s : State) (l : Nat) (d : Dir) : (s.setDir l d).migr = s.migr := rfl
@[simp] theorem State.setDir_seqs (s : State) (l : Nat) (d : Dir) : (s.setDir l d).seqs = s.seqs := rfl
@[simp] theorem State.setDir_sheaves (s : State) (l : Nat) (d : Dir) : (s.setDir l d).sheaves = s.sheaves := rfl
@[simp] theorem State.setDir_sheafNext (s : State) (l : Nat) (d : Dir) : (s.setDir l d).sheafNext = s.sheafNext := rfl
@[simp] theorem State.setDir_insts (s : State) (l : Nat) (d : Dir) : (s.setDir l d).insts = s.insts := rfl
@[simp] theorem State.setDir_launches (s : State) (l : Nat) (d : Dir) : (s.setDir l d).launches = s.launches := rfl
@[simp] theorem State.setDir_launchNext (s : State) (l : Nat) (d : Dir) : (s.setDir l d).launchNext = s.launchNext := rfl
@[simp] theorem State.setDir_taskNext (s : State) (l : Nat) (d : Dir) : (s.setDir l d).taskNext = s.taskNext := rfl
@[simp] theorem State.setDir_hostLaunch (s : State) (l : Nat) (d : Dir) : (s.setDir l d).hostLaunch = s.hostLaunch := rfl
@[simp] theorem State.setDir_hostq (s : State) (l : Nat) (d : Dir) : (s.setDir l d).hostq = s.hostq := rfl
@[simp] theorem State.setDir_mapper (s : State) (l : Nat) (d : Dir) : (s.setDir l d).mapper = s.mapper := rfl
@[simp] theorem State.setDir_passed (s : State) (l : Nat) (d : Dir) : (s.setDir l d).passed = s.passed := rfl
@[simp] theorem State.setDir_sends (s : State) (l : Nat) (d : Dir) : (s.setDir l d).sends = s.sends := rfl
@[simp] theorem State.setDir_saved (s : State) (l : Nat) (d : Dir) : (s.setDir l d).saved = s.saved := rfl
@[simp] theorem State.setDir_modul (s : State) (l : Nat) (d : Dir) : (s.setDir l d).modul = s.modul := rfl

/-! ### State.setCell -/

@[simp] theorem State.setCell_counter (s : State) (k : Nat) (c : RowCell) : (s.setCell k c).counter = s.counter := rfl
@[simp] theorem State.setCell_reftime (s : State) (k : Nat) (c : RowCell) : (s.setCell k c).reftime = s.reftime := rfl
@[simp] theorem State.setCell_cur (s : State) (k : Nat) (c : RowCell) : (s.setCell k c).cur = s.cur := rfl
@[simp] theorem State.setCell_agenda (s : State) (k : Nat) (c : RowCell) : (s.setCell k c).agenda = s.agenda := rfl
@[simp] theorem State.setCell_pending (s : State) (k : Nat) (c : RowCell) : (s.setCell k c).pending = s.pending := rfl
@[simp] theorem State.setCell_free (s : State) (k : Nat) (c : RowCell) : (s.setCell k c).free = s.free := rfl
@[simp] theorem State.setCell_mem (s : State) (k : Nat) (c : RowCell) : (s.setCell k c).mem = s.mem := rfl
@[simp] theorem State.setCell_memMeta (s : State) (k : Nat) (c : RowCell) : (s.setCell k c).memMeta = s.memMeta := rfl
@[simp] theorem State.setCell_hostMem (s : State) (k : Nat) (c : RowCell) : (s.setCell k c).hostMem = s.hostMem := rfl
@[simp] theorem State.setCell_glSram (s : State) (k : Nat) (c : RowCell) : (s.setCell k c).glSram = s.glSram := rfl
@[simp] theorem State.setCell_banks (s : State) (k : Nat) (c : RowCell) : (s.setCell k c).banks = s.banks := rfl
@[simp] theorem State.setCell_cores (s : State) (k : Nat) (c : RowCell) : (s.setCell k c).cores = s.cores := rfl
@[simp] theorem State.setCell_clusters (s : State) (k : Nat) (c : RowCell) : (s.setCell k c).clusters = s.clusters := rfl
@[simp] theorem State.setCell_dies (s : State) (k : Nat) (c : RowCell) : (s.setCell k c).dies = s.dies := rfl
@[simp] theorem State.setCell_dirs (s : State) (k : Nat) (c : RowCell) : (s.setCell k c).dirs = s.dirs := rfl
@[simp] theorem State.setCell_net (s : State) (k : Nat) (c : RowCell) : (s.setCell k c).net = s.net := rfl
@[simp] theorem State.setCell_bulk (s : State) (k : Nat) (c : RowCell) : (s.setCell k c).bulk = s.bulk := rfl
@[simp] theorem State.setCell_atomics (s : State) (k : Nat) (c : RowCell) : (s.setCell k c).atomics = s.atomics := rfl
@[simp] theorem State.setCell_gsram (s : State) (k : Nat) (c : RowCell) : (s.setCell k c).gsram = s.gsram := rfl
@[simp] theorem State.setCell_events (s : State) (k : Nat) (c : RowCell) : (s.setCell k c).events = s.events := rfl
@[simp] theorem State.setCell_winWrites (s : State) (k : Nat) (c : RowCell) : (s.setCell k c).winWrites = s.winWrites := rfl
@[simp] theorem State.setCell_rings (s : State) (k : Nat) (c : RowCell) : (s.setCell k c).rings = s.rings := rfl
@[simp] theorem State.setCell_packets (s : State) (k : Nat) (c : RowCell) : (s.setCell k c).packets = s.packets := rfl
@[simp] theorem State.setCell_refused (s : State) (k : Nat) (c : RowCell) : (s.setCell k c).refused = s.refused := rfl
@[simp] theorem State.setCell_arrivals (s : State) (k : Nat) (c : RowCell) : (s.setCell k c).arrivals = s.arrivals := rfl
@[simp] theorem State.setCell_migr (s : State) (k : Nat) (c : RowCell) : (s.setCell k c).migr = s.migr := rfl
@[simp] theorem State.setCell_seqs (s : State) (k : Nat) (c : RowCell) : (s.setCell k c).seqs = s.seqs := rfl
@[simp] theorem State.setCell_sheaves (s : State) (k : Nat) (c : RowCell) : (s.setCell k c).sheaves = s.sheaves := rfl
@[simp] theorem State.setCell_sheafNext (s : State) (k : Nat) (c : RowCell) : (s.setCell k c).sheafNext = s.sheafNext := rfl
@[simp] theorem State.setCell_insts (s : State) (k : Nat) (c : RowCell) : (s.setCell k c).insts = s.insts := rfl
@[simp] theorem State.setCell_launches (s : State) (k : Nat) (c : RowCell) : (s.setCell k c).launches = s.launches := rfl
@[simp] theorem State.setCell_launchNext (s : State) (k : Nat) (c : RowCell) : (s.setCell k c).launchNext = s.launchNext := rfl
@[simp] theorem State.setCell_taskNext (s : State) (k : Nat) (c : RowCell) : (s.setCell k c).taskNext = s.taskNext := rfl
@[simp] theorem State.setCell_hostLaunch (s : State) (k : Nat) (c : RowCell) : (s.setCell k c).hostLaunch = s.hostLaunch := rfl
@[simp] theorem State.setCell_hostq (s : State) (k : Nat) (c : RowCell) : (s.setCell k c).hostq = s.hostq := rfl
@[simp] theorem State.setCell_mapper (s : State) (k : Nat) (c : RowCell) : (s.setCell k c).mapper = s.mapper := rfl
@[simp] theorem State.setCell_passed (s : State) (k : Nat) (c : RowCell) : (s.setCell k c).passed = s.passed := rfl
@[simp] theorem State.setCell_sends (s : State) (k : Nat) (c : RowCell) : (s.setCell k c).sends = s.sends := rfl
@[simp] theorem State.setCell_saved (s : State) (k : Nat) (c : RowCell) : (s.setCell k c).saved = s.saved := rfl
@[simp] theorem State.setCell_modul (s : State) (k : Nat) (c : RowCell) : (s.setCell k c).modul = s.modul := rfl

/-! ### State.setRowMeta -/

@[simp] theorem State.setRowMeta_counter (s : State) (r : Nat) (m : RowMeta) : (s.setRowMeta r m).counter = s.counter := rfl
@[simp] theorem State.setRowMeta_reftime (s : State) (r : Nat) (m : RowMeta) : (s.setRowMeta r m).reftime = s.reftime := rfl
@[simp] theorem State.setRowMeta_cur (s : State) (r : Nat) (m : RowMeta) : (s.setRowMeta r m).cur = s.cur := rfl
@[simp] theorem State.setRowMeta_agenda (s : State) (r : Nat) (m : RowMeta) : (s.setRowMeta r m).agenda = s.agenda := rfl
@[simp] theorem State.setRowMeta_pending (s : State) (r : Nat) (m : RowMeta) : (s.setRowMeta r m).pending = s.pending := rfl
@[simp] theorem State.setRowMeta_free (s : State) (r : Nat) (m : RowMeta) : (s.setRowMeta r m).free = s.free := rfl
@[simp] theorem State.setRowMeta_mem (s : State) (r : Nat) (m : RowMeta) : (s.setRowMeta r m).mem = s.mem := rfl
@[simp] theorem State.setRowMeta_hostMem (s : State) (r : Nat) (m : RowMeta) : (s.setRowMeta r m).hostMem = s.hostMem := rfl
@[simp] theorem State.setRowMeta_sram (s : State) (r : Nat) (m : RowMeta) : (s.setRowMeta r m).sram = s.sram := rfl
@[simp] theorem State.setRowMeta_glSram (s : State) (r : Nat) (m : RowMeta) : (s.setRowMeta r m).glSram = s.glSram := rfl
@[simp] theorem State.setRowMeta_banks (s : State) (r : Nat) (m : RowMeta) : (s.setRowMeta r m).banks = s.banks := rfl
@[simp] theorem State.setRowMeta_cores (s : State) (r : Nat) (m : RowMeta) : (s.setRowMeta r m).cores = s.cores := rfl
@[simp] theorem State.setRowMeta_clusters (s : State) (r : Nat) (m : RowMeta) : (s.setRowMeta r m).clusters = s.clusters := rfl
@[simp] theorem State.setRowMeta_dies (s : State) (r : Nat) (m : RowMeta) : (s.setRowMeta r m).dies = s.dies := rfl
@[simp] theorem State.setRowMeta_dirs (s : State) (r : Nat) (m : RowMeta) : (s.setRowMeta r m).dirs = s.dirs := rfl
@[simp] theorem State.setRowMeta_net (s : State) (r : Nat) (m : RowMeta) : (s.setRowMeta r m).net = s.net := rfl
@[simp] theorem State.setRowMeta_bulk (s : State) (r : Nat) (m : RowMeta) : (s.setRowMeta r m).bulk = s.bulk := rfl
@[simp] theorem State.setRowMeta_atomics (s : State) (r : Nat) (m : RowMeta) : (s.setRowMeta r m).atomics = s.atomics := rfl
@[simp] theorem State.setRowMeta_gsram (s : State) (r : Nat) (m : RowMeta) : (s.setRowMeta r m).gsram = s.gsram := rfl
@[simp] theorem State.setRowMeta_events (s : State) (r : Nat) (m : RowMeta) : (s.setRowMeta r m).events = s.events := rfl
@[simp] theorem State.setRowMeta_winWrites (s : State) (r : Nat) (m : RowMeta) : (s.setRowMeta r m).winWrites = s.winWrites := rfl
@[simp] theorem State.setRowMeta_rings (s : State) (r : Nat) (m : RowMeta) : (s.setRowMeta r m).rings = s.rings := rfl
@[simp] theorem State.setRowMeta_packets (s : State) (r : Nat) (m : RowMeta) : (s.setRowMeta r m).packets = s.packets := rfl
@[simp] theorem State.setRowMeta_refused (s : State) (r : Nat) (m : RowMeta) : (s.setRowMeta r m).refused = s.refused := rfl
@[simp] theorem State.setRowMeta_arrivals (s : State) (r : Nat) (m : RowMeta) : (s.setRowMeta r m).arrivals = s.arrivals := rfl
@[simp] theorem State.setRowMeta_migr (s : State) (r : Nat) (m : RowMeta) : (s.setRowMeta r m).migr = s.migr := rfl
@[simp] theorem State.setRowMeta_seqs (s : State) (r : Nat) (m : RowMeta) : (s.setRowMeta r m).seqs = s.seqs := rfl
@[simp] theorem State.setRowMeta_sheaves (s : State) (r : Nat) (m : RowMeta) : (s.setRowMeta r m).sheaves = s.sheaves := rfl
@[simp] theorem State.setRowMeta_sheafNext (s : State) (r : Nat) (m : RowMeta) : (s.setRowMeta r m).sheafNext = s.sheafNext := rfl
@[simp] theorem State.setRowMeta_insts (s : State) (r : Nat) (m : RowMeta) : (s.setRowMeta r m).insts = s.insts := rfl
@[simp] theorem State.setRowMeta_launches (s : State) (r : Nat) (m : RowMeta) : (s.setRowMeta r m).launches = s.launches := rfl
@[simp] theorem State.setRowMeta_launchNext (s : State) (r : Nat) (m : RowMeta) : (s.setRowMeta r m).launchNext = s.launchNext := rfl
@[simp] theorem State.setRowMeta_taskNext (s : State) (r : Nat) (m : RowMeta) : (s.setRowMeta r m).taskNext = s.taskNext := rfl
@[simp] theorem State.setRowMeta_hostLaunch (s : State) (r : Nat) (m : RowMeta) : (s.setRowMeta r m).hostLaunch = s.hostLaunch := rfl
@[simp] theorem State.setRowMeta_hostq (s : State) (r : Nat) (m : RowMeta) : (s.setRowMeta r m).hostq = s.hostq := rfl
@[simp] theorem State.setRowMeta_mapper (s : State) (r : Nat) (m : RowMeta) : (s.setRowMeta r m).mapper = s.mapper := rfl
@[simp] theorem State.setRowMeta_passed (s : State) (r : Nat) (m : RowMeta) : (s.setRowMeta r m).passed = s.passed := rfl
@[simp] theorem State.setRowMeta_sends (s : State) (r : Nat) (m : RowMeta) : (s.setRowMeta r m).sends = s.sends := rfl
@[simp] theorem State.setRowMeta_saved (s : State) (r : Nat) (m : RowMeta) : (s.setRowMeta r m).saved = s.saved := rfl
@[simp] theorem State.setRowMeta_modul (s : State) (r : Nat) (m : RowMeta) : (s.setRowMeta r m).modul = s.modul := rfl

/-! ### State.tickFree -/

@[simp] theorem State.tickFree_counter (s : State)  : (s.tickFree).counter = s.counter := rfl
@[simp] theorem State.tickFree_reftime (s : State)  : (s.tickFree).reftime = s.reftime := rfl
@[simp] theorem State.tickFree_cur (s : State)  : (s.tickFree).cur = s.cur := rfl
@[simp] theorem State.tickFree_agenda (s : State)  : (s.tickFree).agenda = s.agenda := rfl
@[simp] theorem State.tickFree_pending (s : State)  : (s.tickFree).pending = s.pending := rfl
@[simp] theorem State.tickFree_mem (s : State)  : (s.tickFree).mem = s.mem := rfl
@[simp] theorem State.tickFree_memMeta (s : State)  : (s.tickFree).memMeta = s.memMeta := rfl
@[simp] theorem State.tickFree_hostMem (s : State)  : (s.tickFree).hostMem = s.hostMem := rfl
@[simp] theorem State.tickFree_sram (s : State)  : (s.tickFree).sram = s.sram := rfl
@[simp] theorem State.tickFree_glSram (s : State)  : (s.tickFree).glSram = s.glSram := rfl
@[simp] theorem State.tickFree_banks (s : State)  : (s.tickFree).banks = s.banks := rfl
@[simp] theorem State.tickFree_cores (s : State)  : (s.tickFree).cores = s.cores := rfl
@[simp] theorem State.tickFree_clusters (s : State)  : (s.tickFree).clusters = s.clusters := rfl
@[simp] theorem State.tickFree_dies (s : State)  : (s.tickFree).dies = s.dies := rfl
@[simp] theorem State.tickFree_dirs (s : State)  : (s.tickFree).dirs = s.dirs := rfl
@[simp] theorem State.tickFree_net (s : State)  : (s.tickFree).net = s.net := rfl
@[simp] theorem State.tickFree_bulk (s : State)  : (s.tickFree).bulk = s.bulk := rfl
@[simp] theorem State.tickFree_atomics (s : State)  : (s.tickFree).atomics = s.atomics := rfl
@[simp] theorem State.tickFree_gsram (s : State)  : (s.tickFree).gsram = s.gsram := rfl
@[simp] theorem State.tickFree_events (s : State)  : (s.tickFree).events = s.events := rfl
@[simp] theorem State.tickFree_winWrites (s : State)  : (s.tickFree).winWrites = s.winWrites := rfl
@[simp] theorem State.tickFree_rings (s : State)  : (s.tickFree).rings = s.rings := rfl
@[simp] theorem State.tickFree_packets (s : State)  : (s.tickFree).packets = s.packets := rfl
@[simp] theorem State.tickFree_refused (s : State)  : (s.tickFree).refused = s.refused := rfl
@[simp] theorem State.tickFree_arrivals (s : State)  : (s.tickFree).arrivals = s.arrivals := rfl
@[simp] theorem State.tickFree_migr (s : State)  : (s.tickFree).migr = s.migr := rfl
@[simp] theorem State.tickFree_seqs (s : State)  : (s.tickFree).seqs = s.seqs := rfl
@[simp] theorem State.tickFree_sheaves (s : State)  : (s.tickFree).sheaves = s.sheaves := rfl
@[simp] theorem State.tickFree_sheafNext (s : State)  : (s.tickFree).sheafNext = s.sheafNext := rfl
@[simp] theorem State.tickFree_insts (s : State)  : (s.tickFree).insts = s.insts := rfl
@[simp] theorem State.tickFree_launches (s : State)  : (s.tickFree).launches = s.launches := rfl
@[simp] theorem State.tickFree_launchNext (s : State)  : (s.tickFree).launchNext = s.launchNext := rfl
@[simp] theorem State.tickFree_taskNext (s : State)  : (s.tickFree).taskNext = s.taskNext := rfl
@[simp] theorem State.tickFree_hostLaunch (s : State)  : (s.tickFree).hostLaunch = s.hostLaunch := rfl
@[simp] theorem State.tickFree_hostq (s : State)  : (s.tickFree).hostq = s.hostq := rfl
@[simp] theorem State.tickFree_mapper (s : State)  : (s.tickFree).mapper = s.mapper := rfl
@[simp] theorem State.tickFree_passed (s : State)  : (s.tickFree).passed = s.passed := rfl
@[simp] theorem State.tickFree_sends (s : State)  : (s.tickFree).sends = s.sends := rfl
@[simp] theorem State.tickFree_saved (s : State)  : (s.tickFree).saved = s.saved := rfl
@[simp] theorem State.tickFree_modul (s : State)  : (s.tickFree).modul = s.modul := rfl

/-! ### State.setReg -/

@[simp] theorem State.setReg_counter (s : State) (r : BitVec 5) (v : Word) : (s.setReg r v).counter = s.counter := rfl
@[simp] theorem State.setReg_reftime (s : State) (r : BitVec 5) (v : Word) : (s.setReg r v).reftime = s.reftime := rfl
@[simp] theorem State.setReg_cur (s : State) (r : BitVec 5) (v : Word) : (s.setReg r v).cur = s.cur := rfl
@[simp] theorem State.setReg_agenda (s : State) (r : BitVec 5) (v : Word) : (s.setReg r v).agenda = s.agenda := rfl
@[simp] theorem State.setReg_pending (s : State) (r : BitVec 5) (v : Word) : (s.setReg r v).pending = s.pending := rfl
@[simp] theorem State.setReg_free (s : State) (r : BitVec 5) (v : Word) : (s.setReg r v).free = s.free := rfl
@[simp] theorem State.setReg_mem (s : State) (r : BitVec 5) (v : Word) : (s.setReg r v).mem = s.mem := rfl
@[simp] theorem State.setReg_memMeta (s : State) (r : BitVec 5) (v : Word) : (s.setReg r v).memMeta = s.memMeta := rfl
@[simp] theorem State.setReg_hostMem (s : State) (r : BitVec 5) (v : Word) : (s.setReg r v).hostMem = s.hostMem := rfl
@[simp] theorem State.setReg_sram (s : State) (r : BitVec 5) (v : Word) : (s.setReg r v).sram = s.sram := rfl
@[simp] theorem State.setReg_glSram (s : State) (r : BitVec 5) (v : Word) : (s.setReg r v).glSram = s.glSram := rfl
@[simp] theorem State.setReg_cores (s : State) (r : BitVec 5) (v : Word) : (s.setReg r v).cores = s.cores := rfl
@[simp] theorem State.setReg_clusters (s : State) (r : BitVec 5) (v : Word) : (s.setReg r v).clusters = s.clusters := rfl
@[simp] theorem State.setReg_dies (s : State) (r : BitVec 5) (v : Word) : (s.setReg r v).dies = s.dies := rfl
@[simp] theorem State.setReg_dirs (s : State) (r : BitVec 5) (v : Word) : (s.setReg r v).dirs = s.dirs := rfl
@[simp] theorem State.setReg_net (s : State) (r : BitVec 5) (v : Word) : (s.setReg r v).net = s.net := rfl
@[simp] theorem State.setReg_bulk (s : State) (r : BitVec 5) (v : Word) : (s.setReg r v).bulk = s.bulk := rfl
@[simp] theorem State.setReg_atomics (s : State) (r : BitVec 5) (v : Word) : (s.setReg r v).atomics = s.atomics := rfl
@[simp] theorem State.setReg_gsram (s : State) (r : BitVec 5) (v : Word) : (s.setReg r v).gsram = s.gsram := rfl
@[simp] theorem State.setReg_events (s : State) (r : BitVec 5) (v : Word) : (s.setReg r v).events = s.events := rfl
@[simp] theorem State.setReg_winWrites (s : State) (r : BitVec 5) (v : Word) : (s.setReg r v).winWrites = s.winWrites := rfl
@[simp] theorem State.setReg_rings (s : State) (r : BitVec 5) (v : Word) : (s.setReg r v).rings = s.rings := rfl
@[simp] theorem State.setReg_packets (s : State) (r : BitVec 5) (v : Word) : (s.setReg r v).packets = s.packets := rfl
@[simp] theorem State.setReg_refused (s : State) (r : BitVec 5) (v : Word) : (s.setReg r v).refused = s.refused := rfl
@[simp] theorem State.setReg_arrivals (s : State) (r : BitVec 5) (v : Word) : (s.setReg r v).arrivals = s.arrivals := rfl
@[simp] theorem State.setReg_migr (s : State) (r : BitVec 5) (v : Word) : (s.setReg r v).migr = s.migr := rfl
@[simp] theorem State.setReg_seqs (s : State) (r : BitVec 5) (v : Word) : (s.setReg r v).seqs = s.seqs := rfl
@[simp] theorem State.setReg_sheaves (s : State) (r : BitVec 5) (v : Word) : (s.setReg r v).sheaves = s.sheaves := rfl
@[simp] theorem State.setReg_sheafNext (s : State) (r : BitVec 5) (v : Word) : (s.setReg r v).sheafNext = s.sheafNext := rfl
@[simp] theorem State.setReg_insts (s : State) (r : BitVec 5) (v : Word) : (s.setReg r v).insts = s.insts := rfl
@[simp] theorem State.setReg_launches (s : State) (r : BitVec 5) (v : Word) : (s.setReg r v).launches = s.launches := rfl
@[simp] theorem State.setReg_launchNext (s : State) (r : BitVec 5) (v : Word) : (s.setReg r v).launchNext = s.launchNext := rfl
@[simp] theorem State.setReg_taskNext (s : State) (r : BitVec 5) (v : Word) : (s.setReg r v).taskNext = s.taskNext := rfl
@[simp] theorem State.setReg_hostLaunch (s : State) (r : BitVec 5) (v : Word) : (s.setReg r v).hostLaunch = s.hostLaunch := rfl
@[simp] theorem State.setReg_hostq (s : State) (r : BitVec 5) (v : Word) : (s.setReg r v).hostq = s.hostq := rfl
@[simp] theorem State.setReg_mapper (s : State) (r : BitVec 5) (v : Word) : (s.setReg r v).mapper = s.mapper := rfl
@[simp] theorem State.setReg_passed (s : State) (r : BitVec 5) (v : Word) : (s.setReg r v).passed = s.passed := rfl
@[simp] theorem State.setReg_sends (s : State) (r : BitVec 5) (v : Word) : (s.setReg r v).sends = s.sends := rfl
@[simp] theorem State.setReg_saved (s : State) (r : BitVec 5) (v : Word) : (s.setReg r v).saved = s.saved := rfl
@[simp] theorem State.setReg_modul (s : State) (r : BitVec 5) (v : Word) : (s.setReg r v).modul = s.modul := rfl

/-! ### State.owe -/

@[simp] theorem State.owe_counter (s : State) (i : Instr) : (s.owe i).counter = s.counter := by unfold State.owe; split <;> rfl
@[simp] theorem State.owe_reftime (s : State) (i : Instr) : (s.owe i).reftime = s.reftime := by unfold State.owe; split <;> rfl
@[simp] theorem State.owe_cur (s : State) (i : Instr) : (s.owe i).cur = s.cur := by unfold State.owe; split <;> rfl
@[simp] theorem State.owe_agenda (s : State) (i : Instr) : (s.owe i).agenda = s.agenda := by unfold State.owe; split <;> rfl
@[simp] theorem State.owe_free (s : State) (i : Instr) : (s.owe i).free = s.free := by unfold State.owe; split <;> rfl
@[simp] theorem State.owe_mem (s : State) (i : Instr) : (s.owe i).mem = s.mem := by unfold State.owe; split <;> rfl
@[simp] theorem State.owe_memMeta (s : State) (i : Instr) : (s.owe i).memMeta = s.memMeta := by unfold State.owe; split <;> rfl
@[simp] theorem State.owe_hostMem (s : State) (i : Instr) : (s.owe i).hostMem = s.hostMem := by unfold State.owe; split <;> rfl
@[simp] theorem State.owe_sram (s : State) (i : Instr) : (s.owe i).sram = s.sram := by unfold State.owe; split <;> rfl
@[simp] theorem State.owe_glSram (s : State) (i : Instr) : (s.owe i).glSram = s.glSram := by unfold State.owe; split <;> rfl
@[simp] theorem State.owe_banks (s : State) (i : Instr) : (s.owe i).banks = s.banks := by unfold State.owe; split <;> rfl
@[simp] theorem State.owe_cores (s : State) (i : Instr) : (s.owe i).cores = s.cores := by unfold State.owe; split <;> rfl
@[simp] theorem State.owe_clusters (s : State) (i : Instr) : (s.owe i).clusters = s.clusters := by unfold State.owe; split <;> rfl
@[simp] theorem State.owe_dies (s : State) (i : Instr) : (s.owe i).dies = s.dies := by unfold State.owe; split <;> rfl
@[simp] theorem State.owe_dirs (s : State) (i : Instr) : (s.owe i).dirs = s.dirs := by unfold State.owe; split <;> rfl
@[simp] theorem State.owe_net (s : State) (i : Instr) : (s.owe i).net = s.net := by unfold State.owe; split <;> rfl
@[simp] theorem State.owe_bulk (s : State) (i : Instr) : (s.owe i).bulk = s.bulk := by unfold State.owe; split <;> rfl
@[simp] theorem State.owe_atomics (s : State) (i : Instr) : (s.owe i).atomics = s.atomics := by unfold State.owe; split <;> rfl
@[simp] theorem State.owe_gsram (s : State) (i : Instr) : (s.owe i).gsram = s.gsram := by unfold State.owe; split <;> rfl
@[simp] theorem State.owe_events (s : State) (i : Instr) : (s.owe i).events = s.events := by unfold State.owe; split <;> rfl
@[simp] theorem State.owe_winWrites (s : State) (i : Instr) : (s.owe i).winWrites = s.winWrites := by unfold State.owe; split <;> rfl
@[simp] theorem State.owe_rings (s : State) (i : Instr) : (s.owe i).rings = s.rings := by unfold State.owe; split <;> rfl
@[simp] theorem State.owe_packets (s : State) (i : Instr) : (s.owe i).packets = s.packets := by unfold State.owe; split <;> rfl
@[simp] theorem State.owe_refused (s : State) (i : Instr) : (s.owe i).refused = s.refused := by unfold State.owe; split <;> rfl
@[simp] theorem State.owe_arrivals (s : State) (i : Instr) : (s.owe i).arrivals = s.arrivals := by unfold State.owe; split <;> rfl
@[simp] theorem State.owe_migr (s : State) (i : Instr) : (s.owe i).migr = s.migr := by unfold State.owe; split <;> rfl
@[simp] theorem State.owe_seqs (s : State) (i : Instr) : (s.owe i).seqs = s.seqs := by unfold State.owe; split <;> rfl
@[simp] theorem State.owe_sheaves (s : State) (i : Instr) : (s.owe i).sheaves = s.sheaves := by unfold State.owe; split <;> rfl
@[simp] theorem State.owe_sheafNext (s : State) (i : Instr) : (s.owe i).sheafNext = s.sheafNext := by unfold State.owe; split <;> rfl
@[simp] theorem State.owe_insts (s : State) (i : Instr) : (s.owe i).insts = s.insts := by unfold State.owe; split <;> rfl
@[simp] theorem State.owe_launches (s : State) (i : Instr) : (s.owe i).launches = s.launches := by unfold State.owe; split <;> rfl
@[simp] theorem State.owe_launchNext (s : State) (i : Instr) : (s.owe i).launchNext = s.launchNext := by unfold State.owe; split <;> rfl
@[simp] theorem State.owe_taskNext (s : State) (i : Instr) : (s.owe i).taskNext = s.taskNext := by unfold State.owe; split <;> rfl
@[simp] theorem State.owe_hostLaunch (s : State) (i : Instr) : (s.owe i).hostLaunch = s.hostLaunch := by unfold State.owe; split <;> rfl
@[simp] theorem State.owe_hostq (s : State) (i : Instr) : (s.owe i).hostq = s.hostq := by unfold State.owe; split <;> rfl
@[simp] theorem State.owe_mapper (s : State) (i : Instr) : (s.owe i).mapper = s.mapper := by unfold State.owe; split <;> rfl
@[simp] theorem State.owe_passed (s : State) (i : Instr) : (s.owe i).passed = s.passed := by unfold State.owe; split <;> rfl
@[simp] theorem State.owe_sends (s : State) (i : Instr) : (s.owe i).sends = s.sends := by unfold State.owe; split <;> rfl
@[simp] theorem State.owe_saved (s : State) (i : Instr) : (s.owe i).saved = s.saved := by unfold State.owe; split <;> rfl
@[simp] theorem State.owe_modul (s : State) (i : Instr) : (s.owe i).modul = s.modul := by unfold State.owe; split <;> rfl

/-! ### Bank.setHandle -/

@[simp] theorem Bank.setHandle_run (k : Bank) (h : Nat) (x : Handle) : (k.setHandle h x).run = k.run := rfl
@[simp] theorem Bank.setHandle_part (k : Bank) (h : Nat) (x : Handle) : (k.setHandle h x).part = k.part := rfl
@[simp] theorem Bank.setHandle_bindRec (k : Bank) (h : Nat) (x : Handle) : (k.setHandle h x).bindRec = k.bindRec := rfl
@[simp] theorem Bank.setHandle_pc (k : Bank) (h : Nat) (x : Handle) : (k.setHandle h x).pc = k.pc := rfl
@[simp] theorem Bank.setHandle_insn (k : Bank) (h : Nat) (x : Handle) : (k.setHandle h x).insn = k.insn := rfl
@[simp] theorem Bank.setHandle_slot (k : Bank) (h : Nat) (x : Handle) : (k.setHandle h x).slot = k.slot := rfl
@[simp] theorem Bank.setHandle_regs (k : Bank) (h : Nat) (x : Handle) : (k.setHandle h x).regs = k.regs := rfl
@[simp] theorem Bank.setHandle_sys (k : Bank) (h : Nat) (x : Handle) : (k.setHandle h x).sys = k.sys := rfl
@[simp] theorem Bank.setHandle_hmode (k : Bank) (h : Nat) (x : Handle) : (k.setHandle h x).hmode = k.hmode := rfl
@[simp] theorem Bank.setHandle_mbox (k : Bank) (h : Nat) (x : Handle) : (k.setHandle h x).mbox = k.mbox := rfl
@[simp] theorem Bank.setHandle_event (k : Bank) (h : Nat) (x : Handle) : (k.setHandle h x).event = k.event := rfl
@[simp] theorem Bank.setHandle_cb (k : Bank) (h : Nat) (x : Handle) : (k.setHandle h x).cb = k.cb := rfl
@[simp] theorem Bank.setHandle_tokens (k : Bank) (h : Nat) (x : Handle) : (k.setHandle h x).tokens = k.tokens := rfl
@[simp] theorem Bank.setHandle_queues (k : Bank) (h : Nat) (x : Handle) : (k.setHandle h x).queues = k.queues := rfl
@[simp] theorem Bank.setHandle_cmds (k : Bank) (h : Nat) (x : Handle) : (k.setHandle h x).cmds = k.cmds := rfl
@[simp] theorem Bank.setHandle_posts (k : Bank) (h : Nat) (x : Handle) : (k.setHandle h x).posts = k.posts := rfl
@[simp] theorem Bank.setHandle_pend (k : Bank) (h : Nat) (x : Handle) : (k.setHandle h x).pend = k.pend := rfl
@[simp] theorem Bank.setHandle_ldqs (k : Bank) (h : Nat) (x : Handle) : (k.setHandle h x).ldqs = k.ldqs := rfl
@[simp] theorem Bank.setHandle_wait (k : Bank) (h : Nat) (x : Handle) : (k.setHandle h x).wait = k.wait := rfl
@[simp] theorem Bank.setHandle_fences (k : Bank) (h : Nat) (x : Handle) : (k.setHandle h x).fences = k.fences := rfl
@[simp] theorem Bank.setHandle_tokp (k : Bank) (h : Nat) (x : Handle) : (k.setHandle h x).tokp = k.tokp := rfl
@[simp] theorem Bank.setHandle_faults (k : Bank) (h : Nat) (x : Handle) : (k.setHandle h x).faults = k.faults := rfl
@[simp] theorem Bank.setHandle_yielded (k : Bank) (h : Nat) (x : Handle) : (k.setHandle h x).yielded = k.yielded := rfl
@[simp] theorem Bank.setHandle_ibuf (k : Bank) (h : Nat) (x : Handle) : (k.setHandle h x).ibuf = k.ibuf := rfl
@[simp] theorem Bank.setHandle_ibad (k : Bank) (h : Nat) (x : Handle) : (k.setHandle h x).ibad = k.ibad := rfl
@[simp] theorem Bank.setHandle_itent (k : Bank) (h : Nat) (x : Handle) : (k.setHandle h x).itent = k.itent := rfl
@[simp] theorem Bank.setHandle_edits (k : Bank) (h : Nat) (x : Handle) : (k.setHandle h x).edits = k.edits := rfl
@[simp] theorem Bank.setHandle_copied (k : Bank) (h : Nat) (x : Handle) : (k.setHandle h x).copied = k.copied := rfl
@[simp] theorem Bank.setHandle_sealedSeen (k : Bank) (h : Nat) (x : Handle) : (k.setHandle h x).sealedSeen = k.sealedSeen := rfl
@[simp] theorem Bank.setHandle_vregs (k : Bank) (h : Nat) (x : Handle) : (k.setHandle h x).vregs = k.vregs := rfl
@[simp] theorem Bank.setHandle_oregs (k : Bank) (h : Nat) (x : Handle) : (k.setHandle h x).oregs = k.oregs := rfl
@[simp] theorem Bank.setHandle_latches (k : Bank) (h : Nat) (x : Handle) : (k.setHandle h x).latches = k.latches := rfl
@[simp] theorem Bank.setHandle_stale (k : Bank) (h : Nat) (x : Handle) : (k.setHandle h x).stale = k.stale := rfl
@[simp] theorem Bank.setHandle_masks (k : Bank) (h : Nat) (x : Handle) : (k.setHandle h x).masks = k.masks := rfl
@[simp] theorem Bank.setHandle_tiles (k : Bank) (h : Nat) (x : Handle) : (k.setHandle h x).tiles = k.tiles := rfl
@[simp] theorem Bank.setHandle_ads (k : Bank) (h : Nat) (x : Handle) : (k.setHandle h x).ads = k.ads := rfl
@[simp] theorem Bank.setHandle_lbs (k : Bank) (h : Nat) (x : Handle) : (k.setHandle h x).lbs = k.lbs := rfl
@[simp] theorem Bank.setHandle_tabs (k : Bank) (h : Nat) (x : Handle) : (k.setHandle h x).tabs = k.tabs := rfl
@[simp] theorem Bank.setHandle_mblk (k : Bank) (h : Nat) (x : Handle) : (k.setHandle h x).mblk = k.mblk := rfl
@[simp] theorem Bank.setHandle_leWait (k : Bank) (h : Nat) (x : Handle) : (k.setHandle h x).leWait = k.leWait := rfl
@[simp] theorem Bank.setHandle_block (k : Bank) (h : Nat) (x : Handle) : (k.setHandle h x).block = k.block := rfl
@[simp] theorem Bank.setHandle_arr (k : Bank) (h : Nat) (x : Handle) : (k.setHandle h x).arr = k.arr := rfl
@[simp] theorem Bank.setHandle_layouts (k : Bank) (h : Nat) (x : Handle) : (k.setHandle h x).layouts = k.layouts := rfl
@[simp] theorem Bank.setHandle_copy (k : Bank) (h : Nat) (x : Handle) : (k.setHandle h x).copy = k.copy := rfl
@[simp] theorem Bank.setHandle_engs (k : Bank) (h : Nat) (x : Handle) : (k.setHandle h x).engs = k.engs := rfl
@[simp] theorem Bank.setHandle_pst (k : Bank) (h : Nat) (x : Handle) : (k.setHandle h x).pst = k.pst := rfl
@[simp] theorem Bank.setHandle_area (k : Bank) (h : Nat) (x : Handle) : (k.setHandle h x).area = k.area := rfl
@[simp] theorem Bank.setHandle_lastEnd (k : Bank) (h : Nat) (x : Handle) : (k.setHandle h x).lastEnd = k.lastEnd := rfl
@[simp] theorem Bank.setHandle_trapAt (k : Bank) (h : Nat) (x : Handle) : (k.setHandle h x).trapAt = k.trapAt := rfl
@[simp] theorem Bank.setHandle_report (k : Bank) (h : Nat) (x : Handle) : (k.setHandle h x).report = k.report := rfl

/-! ### Bank.setCbar -/

@[simp] theorem Bank.setCbar_run (k : Bank) (n : Nat) (w : Word) : (k.setCbar n w).run = k.run := rfl
@[simp] theorem Bank.setCbar_part (k : Bank) (n : Nat) (w : Word) : (k.setCbar n w).part = k.part := rfl
@[simp] theorem Bank.setCbar_bindRec (k : Bank) (n : Nat) (w : Word) : (k.setCbar n w).bindRec = k.bindRec := rfl
@[simp] theorem Bank.setCbar_pc (k : Bank) (n : Nat) (w : Word) : (k.setCbar n w).pc = k.pc := rfl
@[simp] theorem Bank.setCbar_insn (k : Bank) (n : Nat) (w : Word) : (k.setCbar n w).insn = k.insn := rfl
@[simp] theorem Bank.setCbar_slot (k : Bank) (n : Nat) (w : Word) : (k.setCbar n w).slot = k.slot := rfl
@[simp] theorem Bank.setCbar_regs (k : Bank) (n : Nat) (w : Word) : (k.setCbar n w).regs = k.regs := rfl
@[simp] theorem Bank.setCbar_handles (k : Bank) (n : Nat) (w : Word) : (k.setCbar n w).handles = k.handles := rfl
@[simp] theorem Bank.setCbar_sys (k : Bank) (n : Nat) (w : Word) : (k.setCbar n w).sys = k.sys := rfl
@[simp] theorem Bank.setCbar_hmode (k : Bank) (n : Nat) (w : Word) : (k.setCbar n w).hmode = k.hmode := rfl
@[simp] theorem Bank.setCbar_mbox (k : Bank) (n : Nat) (w : Word) : (k.setCbar n w).mbox = k.mbox := rfl
@[simp] theorem Bank.setCbar_event (k : Bank) (n : Nat) (w : Word) : (k.setCbar n w).event = k.event := rfl
@[simp] theorem Bank.setCbar_tokens (k : Bank) (n : Nat) (w : Word) : (k.setCbar n w).tokens = k.tokens := rfl
@[simp] theorem Bank.setCbar_queues (k : Bank) (n : Nat) (w : Word) : (k.setCbar n w).queues = k.queues := rfl
@[simp] theorem Bank.setCbar_cmds (k : Bank) (n : Nat) (w : Word) : (k.setCbar n w).cmds = k.cmds := rfl
@[simp] theorem Bank.setCbar_posts (k : Bank) (n : Nat) (w : Word) : (k.setCbar n w).posts = k.posts := rfl
@[simp] theorem Bank.setCbar_pend (k : Bank) (n : Nat) (w : Word) : (k.setCbar n w).pend = k.pend := rfl
@[simp] theorem Bank.setCbar_ldqs (k : Bank) (n : Nat) (w : Word) : (k.setCbar n w).ldqs = k.ldqs := rfl
@[simp] theorem Bank.setCbar_wait (k : Bank) (n : Nat) (w : Word) : (k.setCbar n w).wait = k.wait := rfl
@[simp] theorem Bank.setCbar_fences (k : Bank) (n : Nat) (w : Word) : (k.setCbar n w).fences = k.fences := rfl
@[simp] theorem Bank.setCbar_tokp (k : Bank) (n : Nat) (w : Word) : (k.setCbar n w).tokp = k.tokp := rfl
@[simp] theorem Bank.setCbar_faults (k : Bank) (n : Nat) (w : Word) : (k.setCbar n w).faults = k.faults := rfl
@[simp] theorem Bank.setCbar_yielded (k : Bank) (n : Nat) (w : Word) : (k.setCbar n w).yielded = k.yielded := rfl
@[simp] theorem Bank.setCbar_ibuf (k : Bank) (n : Nat) (w : Word) : (k.setCbar n w).ibuf = k.ibuf := rfl
@[simp] theorem Bank.setCbar_ibad (k : Bank) (n : Nat) (w : Word) : (k.setCbar n w).ibad = k.ibad := rfl
@[simp] theorem Bank.setCbar_itent (k : Bank) (n : Nat) (w : Word) : (k.setCbar n w).itent = k.itent := rfl
@[simp] theorem Bank.setCbar_edits (k : Bank) (n : Nat) (w : Word) : (k.setCbar n w).edits = k.edits := rfl
@[simp] theorem Bank.setCbar_copied (k : Bank) (n : Nat) (w : Word) : (k.setCbar n w).copied = k.copied := rfl
@[simp] theorem Bank.setCbar_sealedSeen (k : Bank) (n : Nat) (w : Word) : (k.setCbar n w).sealedSeen = k.sealedSeen := rfl
@[simp] theorem Bank.setCbar_vregs (k : Bank) (n : Nat) (w : Word) : (k.setCbar n w).vregs = k.vregs := rfl
@[simp] theorem Bank.setCbar_oregs (k : Bank) (n : Nat) (w : Word) : (k.setCbar n w).oregs = k.oregs := rfl
@[simp] theorem Bank.setCbar_latches (k : Bank) (n : Nat) (w : Word) : (k.setCbar n w).latches = k.latches := rfl
@[simp] theorem Bank.setCbar_stale (k : Bank) (n : Nat) (w : Word) : (k.setCbar n w).stale = k.stale := rfl
@[simp] theorem Bank.setCbar_masks (k : Bank) (n : Nat) (w : Word) : (k.setCbar n w).masks = k.masks := rfl
@[simp] theorem Bank.setCbar_tiles (k : Bank) (n : Nat) (w : Word) : (k.setCbar n w).tiles = k.tiles := rfl
@[simp] theorem Bank.setCbar_ads (k : Bank) (n : Nat) (w : Word) : (k.setCbar n w).ads = k.ads := rfl
@[simp] theorem Bank.setCbar_lbs (k : Bank) (n : Nat) (w : Word) : (k.setCbar n w).lbs = k.lbs := rfl
@[simp] theorem Bank.setCbar_tabs (k : Bank) (n : Nat) (w : Word) : (k.setCbar n w).tabs = k.tabs := rfl
@[simp] theorem Bank.setCbar_mblk (k : Bank) (n : Nat) (w : Word) : (k.setCbar n w).mblk = k.mblk := rfl
@[simp] theorem Bank.setCbar_leWait (k : Bank) (n : Nat) (w : Word) : (k.setCbar n w).leWait = k.leWait := rfl
@[simp] theorem Bank.setCbar_block (k : Bank) (n : Nat) (w : Word) : (k.setCbar n w).block = k.block := rfl
@[simp] theorem Bank.setCbar_arr (k : Bank) (n : Nat) (w : Word) : (k.setCbar n w).arr = k.arr := rfl
@[simp] theorem Bank.setCbar_layouts (k : Bank) (n : Nat) (w : Word) : (k.setCbar n w).layouts = k.layouts := rfl
@[simp] theorem Bank.setCbar_copy (k : Bank) (n : Nat) (w : Word) : (k.setCbar n w).copy = k.copy := rfl
@[simp] theorem Bank.setCbar_engs (k : Bank) (n : Nat) (w : Word) : (k.setCbar n w).engs = k.engs := rfl
@[simp] theorem Bank.setCbar_pst (k : Bank) (n : Nat) (w : Word) : (k.setCbar n w).pst = k.pst := rfl
@[simp] theorem Bank.setCbar_area (k : Bank) (n : Nat) (w : Word) : (k.setCbar n w).area = k.area := rfl
@[simp] theorem Bank.setCbar_lastEnd (k : Bank) (n : Nat) (w : Word) : (k.setCbar n w).lastEnd = k.lastEnd := rfl
@[simp] theorem Bank.setCbar_trapAt (k : Bank) (n : Nat) (w : Word) : (k.setCbar n w).trapAt = k.trapAt := rfl
@[simp] theorem Bank.setCbar_report (k : Bank) (n : Nat) (w : Word) : (k.setCbar n w).report = k.report := rfl

/-! ### Bank.setQueue -/

@[simp] theorem Bank.setQueue_run (k : Bank) (q : Nat) (x : Queue) : (k.setQueue q x).run = k.run := rfl
@[simp] theorem Bank.setQueue_part (k : Bank) (q : Nat) (x : Queue) : (k.setQueue q x).part = k.part := rfl
@[simp] theorem Bank.setQueue_bindRec (k : Bank) (q : Nat) (x : Queue) : (k.setQueue q x).bindRec = k.bindRec := rfl
@[simp] theorem Bank.setQueue_pc (k : Bank) (q : Nat) (x : Queue) : (k.setQueue q x).pc = k.pc := rfl
@[simp] theorem Bank.setQueue_insn (k : Bank) (q : Nat) (x : Queue) : (k.setQueue q x).insn = k.insn := rfl
@[simp] theorem Bank.setQueue_slot (k : Bank) (q : Nat) (x : Queue) : (k.setQueue q x).slot = k.slot := rfl
@[simp] theorem Bank.setQueue_regs (k : Bank) (q : Nat) (x : Queue) : (k.setQueue q x).regs = k.regs := rfl
@[simp] theorem Bank.setQueue_handles (k : Bank) (q : Nat) (x : Queue) : (k.setQueue q x).handles = k.handles := rfl
@[simp] theorem Bank.setQueue_sys (k : Bank) (q : Nat) (x : Queue) : (k.setQueue q x).sys = k.sys := rfl
@[simp] theorem Bank.setQueue_hmode (k : Bank) (q : Nat) (x : Queue) : (k.setQueue q x).hmode = k.hmode := rfl
@[simp] theorem Bank.setQueue_mbox (k : Bank) (q : Nat) (x : Queue) : (k.setQueue q x).mbox = k.mbox := rfl
@[simp] theorem Bank.setQueue_event (k : Bank) (q : Nat) (x : Queue) : (k.setQueue q x).event = k.event := rfl
@[simp] theorem Bank.setQueue_cb (k : Bank) (q : Nat) (x : Queue) : (k.setQueue q x).cb = k.cb := rfl
@[simp] theorem Bank.setQueue_tokens (k : Bank) (q : Nat) (x : Queue) : (k.setQueue q x).tokens = k.tokens := rfl
@[simp] theorem Bank.setQueue_cmds (k : Bank) (q : Nat) (x : Queue) : (k.setQueue q x).cmds = k.cmds := rfl
@[simp] theorem Bank.setQueue_posts (k : Bank) (q : Nat) (x : Queue) : (k.setQueue q x).posts = k.posts := rfl
@[simp] theorem Bank.setQueue_pend (k : Bank) (q : Nat) (x : Queue) : (k.setQueue q x).pend = k.pend := rfl
@[simp] theorem Bank.setQueue_ldqs (k : Bank) (q : Nat) (x : Queue) : (k.setQueue q x).ldqs = k.ldqs := rfl
@[simp] theorem Bank.setQueue_wait (k : Bank) (q : Nat) (x : Queue) : (k.setQueue q x).wait = k.wait := rfl
@[simp] theorem Bank.setQueue_fences (k : Bank) (q : Nat) (x : Queue) : (k.setQueue q x).fences = k.fences := rfl
@[simp] theorem Bank.setQueue_tokp (k : Bank) (q : Nat) (x : Queue) : (k.setQueue q x).tokp = k.tokp := rfl
@[simp] theorem Bank.setQueue_faults (k : Bank) (q : Nat) (x : Queue) : (k.setQueue q x).faults = k.faults := rfl
@[simp] theorem Bank.setQueue_yielded (k : Bank) (q : Nat) (x : Queue) : (k.setQueue q x).yielded = k.yielded := rfl
@[simp] theorem Bank.setQueue_ibuf (k : Bank) (q : Nat) (x : Queue) : (k.setQueue q x).ibuf = k.ibuf := rfl
@[simp] theorem Bank.setQueue_ibad (k : Bank) (q : Nat) (x : Queue) : (k.setQueue q x).ibad = k.ibad := rfl
@[simp] theorem Bank.setQueue_itent (k : Bank) (q : Nat) (x : Queue) : (k.setQueue q x).itent = k.itent := rfl
@[simp] theorem Bank.setQueue_edits (k : Bank) (q : Nat) (x : Queue) : (k.setQueue q x).edits = k.edits := rfl
@[simp] theorem Bank.setQueue_copied (k : Bank) (q : Nat) (x : Queue) : (k.setQueue q x).copied = k.copied := rfl
@[simp] theorem Bank.setQueue_sealedSeen (k : Bank) (q : Nat) (x : Queue) : (k.setQueue q x).sealedSeen = k.sealedSeen := rfl
@[simp] theorem Bank.setQueue_vregs (k : Bank) (q : Nat) (x : Queue) : (k.setQueue q x).vregs = k.vregs := rfl
@[simp] theorem Bank.setQueue_oregs (k : Bank) (q : Nat) (x : Queue) : (k.setQueue q x).oregs = k.oregs := rfl
@[simp] theorem Bank.setQueue_latches (k : Bank) (q : Nat) (x : Queue) : (k.setQueue q x).latches = k.latches := rfl
@[simp] theorem Bank.setQueue_stale (k : Bank) (q : Nat) (x : Queue) : (k.setQueue q x).stale = k.stale := rfl
@[simp] theorem Bank.setQueue_masks (k : Bank) (q : Nat) (x : Queue) : (k.setQueue q x).masks = k.masks := rfl
@[simp] theorem Bank.setQueue_tiles (k : Bank) (q : Nat) (x : Queue) : (k.setQueue q x).tiles = k.tiles := rfl
@[simp] theorem Bank.setQueue_ads (k : Bank) (q : Nat) (x : Queue) : (k.setQueue q x).ads = k.ads := rfl
@[simp] theorem Bank.setQueue_lbs (k : Bank) (q : Nat) (x : Queue) : (k.setQueue q x).lbs = k.lbs := rfl
@[simp] theorem Bank.setQueue_tabs (k : Bank) (q : Nat) (x : Queue) : (k.setQueue q x).tabs = k.tabs := rfl
@[simp] theorem Bank.setQueue_mblk (k : Bank) (q : Nat) (x : Queue) : (k.setQueue q x).mblk = k.mblk := rfl
@[simp] theorem Bank.setQueue_leWait (k : Bank) (q : Nat) (x : Queue) : (k.setQueue q x).leWait = k.leWait := rfl
@[simp] theorem Bank.setQueue_block (k : Bank) (q : Nat) (x : Queue) : (k.setQueue q x).block = k.block := rfl
@[simp] theorem Bank.setQueue_arr (k : Bank) (q : Nat) (x : Queue) : (k.setQueue q x).arr = k.arr := rfl
@[simp] theorem Bank.setQueue_layouts (k : Bank) (q : Nat) (x : Queue) : (k.setQueue q x).layouts = k.layouts := rfl
@[simp] theorem Bank.setQueue_copy (k : Bank) (q : Nat) (x : Queue) : (k.setQueue q x).copy = k.copy := rfl
@[simp] theorem Bank.setQueue_engs (k : Bank) (q : Nat) (x : Queue) : (k.setQueue q x).engs = k.engs := rfl
@[simp] theorem Bank.setQueue_pst (k : Bank) (q : Nat) (x : Queue) : (k.setQueue q x).pst = k.pst := rfl
@[simp] theorem Bank.setQueue_area (k : Bank) (q : Nat) (x : Queue) : (k.setQueue q x).area = k.area := rfl
@[simp] theorem Bank.setQueue_lastEnd (k : Bank) (q : Nat) (x : Queue) : (k.setQueue q x).lastEnd = k.lastEnd := rfl
@[simp] theorem Bank.setQueue_trapAt (k : Bank) (q : Nat) (x : Queue) : (k.setQueue q x).trapAt = k.trapAt := rfl
@[simp] theorem Bank.setQueue_report (k : Bank) (q : Nat) (x : Queue) : (k.setQueue q x).report = k.report := rfl

/-! ### Bank.setTokens -/

@[simp] theorem Bank.setTokens_run (k : Bank) (a b n : Nat) : (k.setTokens a b n).run = k.run := rfl
@[simp] theorem Bank.setTokens_part (k : Bank) (a b n : Nat) : (k.setTokens a b n).part = k.part := rfl
@[simp] theorem Bank.setTokens_bindRec (k : Bank) (a b n : Nat) : (k.setTokens a b n).bindRec = k.bindRec := rfl
@[simp] theorem Bank.setTokens_pc (k : Bank) (a b n : Nat) : (k.setTokens a b n).pc = k.pc := rfl
@[simp] theorem Bank.setTokens_insn (k : Bank) (a b n : Nat) : (k.setTokens a b n).insn = k.insn := rfl
@[simp] theorem Bank.setTokens_slot (k : Bank) (a b n : Nat) : (k.setTokens a b n).slot = k.slot := rfl
@[simp] theorem Bank.setTokens_regs (k : Bank) (a b n : Nat) : (k.setTokens a b n).regs = k.regs := rfl
@[simp] theorem Bank.setTokens_handles (k : Bank) (a b n : Nat) : (k.setTokens a b n).handles = k.handles := rfl
@[simp] theorem Bank.setTokens_sys (k : Bank) (a b n : Nat) : (k.setTokens a b n).sys = k.sys := rfl
@[simp] theorem Bank.setTokens_hmode (k : Bank) (a b n : Nat) : (k.setTokens a b n).hmode = k.hmode := rfl
@[simp] theorem Bank.setTokens_mbox (k : Bank) (a b n : Nat) : (k.setTokens a b n).mbox = k.mbox := rfl
@[simp] theorem Bank.setTokens_event (k : Bank) (a b n : Nat) : (k.setTokens a b n).event = k.event := rfl
@[simp] theorem Bank.setTokens_cb (k : Bank) (a b n : Nat) : (k.setTokens a b n).cb = k.cb := rfl
@[simp] theorem Bank.setTokens_queues (k : Bank) (a b n : Nat) : (k.setTokens a b n).queues = k.queues := rfl
@[simp] theorem Bank.setTokens_cmds (k : Bank) (a b n : Nat) : (k.setTokens a b n).cmds = k.cmds := rfl
@[simp] theorem Bank.setTokens_posts (k : Bank) (a b n : Nat) : (k.setTokens a b n).posts = k.posts := rfl
@[simp] theorem Bank.setTokens_pend (k : Bank) (a b n : Nat) : (k.setTokens a b n).pend = k.pend := rfl
@[simp] theorem Bank.setTokens_ldqs (k : Bank) (a b n : Nat) : (k.setTokens a b n).ldqs = k.ldqs := rfl
@[simp] theorem Bank.setTokens_wait (k : Bank) (a b n : Nat) : (k.setTokens a b n).wait = k.wait := rfl
@[simp] theorem Bank.setTokens_fences (k : Bank) (a b n : Nat) : (k.setTokens a b n).fences = k.fences := rfl
@[simp] theorem Bank.setTokens_tokp (k : Bank) (a b n : Nat) : (k.setTokens a b n).tokp = k.tokp := rfl
@[simp] theorem Bank.setTokens_faults (k : Bank) (a b n : Nat) : (k.setTokens a b n).faults = k.faults := rfl
@[simp] theorem Bank.setTokens_yielded (k : Bank) (a b n : Nat) : (k.setTokens a b n).yielded = k.yielded := rfl
@[simp] theorem Bank.setTokens_ibuf (k : Bank) (a b n : Nat) : (k.setTokens a b n).ibuf = k.ibuf := rfl
@[simp] theorem Bank.setTokens_ibad (k : Bank) (a b n : Nat) : (k.setTokens a b n).ibad = k.ibad := rfl
@[simp] theorem Bank.setTokens_itent (k : Bank) (a b n : Nat) : (k.setTokens a b n).itent = k.itent := rfl
@[simp] theorem Bank.setTokens_edits (k : Bank) (a b n : Nat) : (k.setTokens a b n).edits = k.edits := rfl
@[simp] theorem Bank.setTokens_copied (k : Bank) (a b n : Nat) : (k.setTokens a b n).copied = k.copied := rfl
@[simp] theorem Bank.setTokens_sealedSeen (k : Bank) (a b n : Nat) : (k.setTokens a b n).sealedSeen = k.sealedSeen := rfl
@[simp] theorem Bank.setTokens_vregs (k : Bank) (a b n : Nat) : (k.setTokens a b n).vregs = k.vregs := rfl
@[simp] theorem Bank.setTokens_oregs (k : Bank) (a b n : Nat) : (k.setTokens a b n).oregs = k.oregs := rfl
@[simp] theorem Bank.setTokens_latches (k : Bank) (a b n : Nat) : (k.setTokens a b n).latches = k.latches := rfl
@[simp] theorem Bank.setTokens_stale (k : Bank) (a b n : Nat) : (k.setTokens a b n).stale = k.stale := rfl
@[simp] theorem Bank.setTokens_masks (k : Bank) (a b n : Nat) : (k.setTokens a b n).masks = k.masks := rfl
@[simp] theorem Bank.setTokens_tiles (k : Bank) (a b n : Nat) : (k.setTokens a b n).tiles = k.tiles := rfl
@[simp] theorem Bank.setTokens_ads (k : Bank) (a b n : Nat) : (k.setTokens a b n).ads = k.ads := rfl
@[simp] theorem Bank.setTokens_lbs (k : Bank) (a b n : Nat) : (k.setTokens a b n).lbs = k.lbs := rfl
@[simp] theorem Bank.setTokens_tabs (k : Bank) (a b n : Nat) : (k.setTokens a b n).tabs = k.tabs := rfl
@[simp] theorem Bank.setTokens_mblk (k : Bank) (a b n : Nat) : (k.setTokens a b n).mblk = k.mblk := rfl
@[simp] theorem Bank.setTokens_leWait (k : Bank) (a b n : Nat) : (k.setTokens a b n).leWait = k.leWait := rfl
@[simp] theorem Bank.setTokens_block (k : Bank) (a b n : Nat) : (k.setTokens a b n).block = k.block := rfl
@[simp] theorem Bank.setTokens_arr (k : Bank) (a b n : Nat) : (k.setTokens a b n).arr = k.arr := rfl
@[simp] theorem Bank.setTokens_layouts (k : Bank) (a b n : Nat) : (k.setTokens a b n).layouts = k.layouts := rfl
@[simp] theorem Bank.setTokens_copy (k : Bank) (a b n : Nat) : (k.setTokens a b n).copy = k.copy := rfl
@[simp] theorem Bank.setTokens_engs (k : Bank) (a b n : Nat) : (k.setTokens a b n).engs = k.engs := rfl
@[simp] theorem Bank.setTokens_pst (k : Bank) (a b n : Nat) : (k.setTokens a b n).pst = k.pst := rfl
@[simp] theorem Bank.setTokens_area (k : Bank) (a b n : Nat) : (k.setTokens a b n).area = k.area := rfl
@[simp] theorem Bank.setTokens_lastEnd (k : Bank) (a b n : Nat) : (k.setTokens a b n).lastEnd = k.lastEnd := rfl
@[simp] theorem Bank.setTokens_trapAt (k : Bank) (a b n : Nat) : (k.setTokens a b n).trapAt = k.trapAt := rfl
@[simp] theorem Bank.setTokens_report (k : Bank) (a b n : Nat) : (k.setTokens a b n).report = k.report := rfl

/-! ### Bank.setCmdq -/

@[simp] theorem Bank.setCmdq_run (k : Bank) (e : Nat) (q : List Cmd) : (k.setCmdq e q).run = k.run := rfl
@[simp] theorem Bank.setCmdq_part (k : Bank) (e : Nat) (q : List Cmd) : (k.setCmdq e q).part = k.part := rfl
@[simp] theorem Bank.setCmdq_bindRec (k : Bank) (e : Nat) (q : List Cmd) : (k.setCmdq e q).bindRec = k.bindRec := rfl
@[simp] theorem Bank.setCmdq_pc (k : Bank) (e : Nat) (q : List Cmd) : (k.setCmdq e q).pc = k.pc := rfl
@[simp] theorem Bank.setCmdq_insn (k : Bank) (e : Nat) (q : List Cmd) : (k.setCmdq e q).insn = k.insn := rfl
@[simp] theorem Bank.setCmdq_slot (k : Bank) (e : Nat) (q : List Cmd) : (k.setCmdq e q).slot = k.slot := rfl
@[simp] theorem Bank.setCmdq_regs (k : Bank) (e : Nat) (q : List Cmd) : (k.setCmdq e q).regs = k.regs := rfl
@[simp] theorem Bank.setCmdq_handles (k : Bank) (e : Nat) (q : List Cmd) : (k.setCmdq e q).handles = k.handles := rfl
@[simp] theorem Bank.setCmdq_sys (k : Bank) (e : Nat) (q : List Cmd) : (k.setCmdq e q).sys = k.sys := rfl
@[simp] theorem Bank.setCmdq_hmode (k : Bank) (e : Nat) (q : List Cmd) : (k.setCmdq e q).hmode = k.hmode := rfl
@[simp] theorem Bank.setCmdq_mbox (k : Bank) (e : Nat) (q : List Cmd) : (k.setCmdq e q).mbox = k.mbox := rfl
@[simp] theorem Bank.setCmdq_event (k : Bank) (e : Nat) (q : List Cmd) : (k.setCmdq e q).event = k.event := rfl
@[simp] theorem Bank.setCmdq_cb (k : Bank) (e : Nat) (q : List Cmd) : (k.setCmdq e q).cb = k.cb := rfl
@[simp] theorem Bank.setCmdq_tokens (k : Bank) (e : Nat) (q : List Cmd) : (k.setCmdq e q).tokens = k.tokens := rfl
@[simp] theorem Bank.setCmdq_queues (k : Bank) (e : Nat) (q : List Cmd) : (k.setCmdq e q).queues = k.queues := rfl
@[simp] theorem Bank.setCmdq_posts (k : Bank) (e : Nat) (q : List Cmd) : (k.setCmdq e q).posts = k.posts := rfl
@[simp] theorem Bank.setCmdq_pend (k : Bank) (e : Nat) (q : List Cmd) : (k.setCmdq e q).pend = k.pend := rfl
@[simp] theorem Bank.setCmdq_ldqs (k : Bank) (e : Nat) (q : List Cmd) : (k.setCmdq e q).ldqs = k.ldqs := rfl
@[simp] theorem Bank.setCmdq_wait (k : Bank) (e : Nat) (q : List Cmd) : (k.setCmdq e q).wait = k.wait := rfl
@[simp] theorem Bank.setCmdq_fences (k : Bank) (e : Nat) (q : List Cmd) : (k.setCmdq e q).fences = k.fences := rfl
@[simp] theorem Bank.setCmdq_tokp (k : Bank) (e : Nat) (q : List Cmd) : (k.setCmdq e q).tokp = k.tokp := rfl
@[simp] theorem Bank.setCmdq_faults (k : Bank) (e : Nat) (q : List Cmd) : (k.setCmdq e q).faults = k.faults := rfl
@[simp] theorem Bank.setCmdq_yielded (k : Bank) (e : Nat) (q : List Cmd) : (k.setCmdq e q).yielded = k.yielded := rfl
@[simp] theorem Bank.setCmdq_ibuf (k : Bank) (e : Nat) (q : List Cmd) : (k.setCmdq e q).ibuf = k.ibuf := rfl
@[simp] theorem Bank.setCmdq_ibad (k : Bank) (e : Nat) (q : List Cmd) : (k.setCmdq e q).ibad = k.ibad := rfl
@[simp] theorem Bank.setCmdq_itent (k : Bank) (e : Nat) (q : List Cmd) : (k.setCmdq e q).itent = k.itent := rfl
@[simp] theorem Bank.setCmdq_edits (k : Bank) (e : Nat) (q : List Cmd) : (k.setCmdq e q).edits = k.edits := rfl
@[simp] theorem Bank.setCmdq_copied (k : Bank) (e : Nat) (q : List Cmd) : (k.setCmdq e q).copied = k.copied := rfl
@[simp] theorem Bank.setCmdq_sealedSeen (k : Bank) (e : Nat) (q : List Cmd) : (k.setCmdq e q).sealedSeen = k.sealedSeen := rfl
@[simp] theorem Bank.setCmdq_vregs (k : Bank) (e : Nat) (q : List Cmd) : (k.setCmdq e q).vregs = k.vregs := rfl
@[simp] theorem Bank.setCmdq_oregs (k : Bank) (e : Nat) (q : List Cmd) : (k.setCmdq e q).oregs = k.oregs := rfl
@[simp] theorem Bank.setCmdq_latches (k : Bank) (e : Nat) (q : List Cmd) : (k.setCmdq e q).latches = k.latches := rfl
@[simp] theorem Bank.setCmdq_stale (k : Bank) (e : Nat) (q : List Cmd) : (k.setCmdq e q).stale = k.stale := rfl
@[simp] theorem Bank.setCmdq_masks (k : Bank) (e : Nat) (q : List Cmd) : (k.setCmdq e q).masks = k.masks := rfl
@[simp] theorem Bank.setCmdq_tiles (k : Bank) (e : Nat) (q : List Cmd) : (k.setCmdq e q).tiles = k.tiles := rfl
@[simp] theorem Bank.setCmdq_ads (k : Bank) (e : Nat) (q : List Cmd) : (k.setCmdq e q).ads = k.ads := rfl
@[simp] theorem Bank.setCmdq_lbs (k : Bank) (e : Nat) (q : List Cmd) : (k.setCmdq e q).lbs = k.lbs := rfl
@[simp] theorem Bank.setCmdq_tabs (k : Bank) (e : Nat) (q : List Cmd) : (k.setCmdq e q).tabs = k.tabs := rfl
@[simp] theorem Bank.setCmdq_mblk (k : Bank) (e : Nat) (q : List Cmd) : (k.setCmdq e q).mblk = k.mblk := rfl
@[simp] theorem Bank.setCmdq_leWait (k : Bank) (e : Nat) (q : List Cmd) : (k.setCmdq e q).leWait = k.leWait := rfl
@[simp] theorem Bank.setCmdq_block (k : Bank) (e : Nat) (q : List Cmd) : (k.setCmdq e q).block = k.block := rfl
@[simp] theorem Bank.setCmdq_arr (k : Bank) (e : Nat) (q : List Cmd) : (k.setCmdq e q).arr = k.arr := rfl
@[simp] theorem Bank.setCmdq_layouts (k : Bank) (e : Nat) (q : List Cmd) : (k.setCmdq e q).layouts = k.layouts := rfl
@[simp] theorem Bank.setCmdq_copy (k : Bank) (e : Nat) (q : List Cmd) : (k.setCmdq e q).copy = k.copy := rfl
@[simp] theorem Bank.setCmdq_engs (k : Bank) (e : Nat) (q : List Cmd) : (k.setCmdq e q).engs = k.engs := rfl
@[simp] theorem Bank.setCmdq_pst (k : Bank) (e : Nat) (q : List Cmd) : (k.setCmdq e q).pst = k.pst := rfl
@[simp] theorem Bank.setCmdq_area (k : Bank) (e : Nat) (q : List Cmd) : (k.setCmdq e q).area = k.area := rfl
@[simp] theorem Bank.setCmdq_lastEnd (k : Bank) (e : Nat) (q : List Cmd) : (k.setCmdq e q).lastEnd = k.lastEnd := rfl
@[simp] theorem Bank.setCmdq_trapAt (k : Bank) (e : Nat) (q : List Cmd) : (k.setCmdq e q).trapAt = k.trapAt := rfl
@[simp] theorem Bank.setCmdq_report (k : Bank) (e : Nat) (q : List Cmd) : (k.setCmdq e q).report = k.report := rfl

/-! ### Bank.enqueue -/

@[simp] theorem Bank.enqueue_run (k : Bank) (e : Nat) (c : Cmd) : (k.enqueue e c).run = k.run := rfl
@[simp] theorem Bank.enqueue_part (k : Bank) (e : Nat) (c : Cmd) : (k.enqueue e c).part = k.part := rfl
@[simp] theorem Bank.enqueue_bindRec (k : Bank) (e : Nat) (c : Cmd) : (k.enqueue e c).bindRec = k.bindRec := rfl
@[simp] theorem Bank.enqueue_pc (k : Bank) (e : Nat) (c : Cmd) : (k.enqueue e c).pc = k.pc := rfl
@[simp] theorem Bank.enqueue_insn (k : Bank) (e : Nat) (c : Cmd) : (k.enqueue e c).insn = k.insn := rfl
@[simp] theorem Bank.enqueue_slot (k : Bank) (e : Nat) (c : Cmd) : (k.enqueue e c).slot = k.slot := rfl
@[simp] theorem Bank.enqueue_regs (k : Bank) (e : Nat) (c : Cmd) : (k.enqueue e c).regs = k.regs := rfl
@[simp] theorem Bank.enqueue_handles (k : Bank) (e : Nat) (c : Cmd) : (k.enqueue e c).handles = k.handles := rfl
@[simp] theorem Bank.enqueue_sys (k : Bank) (e : Nat) (c : Cmd) : (k.enqueue e c).sys = k.sys := rfl
@[simp] theorem Bank.enqueue_hmode (k : Bank) (e : Nat) (c : Cmd) : (k.enqueue e c).hmode = k.hmode := rfl
@[simp] theorem Bank.enqueue_mbox (k : Bank) (e : Nat) (c : Cmd) : (k.enqueue e c).mbox = k.mbox := rfl
@[simp] theorem Bank.enqueue_event (k : Bank) (e : Nat) (c : Cmd) : (k.enqueue e c).event = k.event := rfl
@[simp] theorem Bank.enqueue_cb (k : Bank) (e : Nat) (c : Cmd) : (k.enqueue e c).cb = k.cb := rfl
@[simp] theorem Bank.enqueue_tokens (k : Bank) (e : Nat) (c : Cmd) : (k.enqueue e c).tokens = k.tokens := rfl
@[simp] theorem Bank.enqueue_queues (k : Bank) (e : Nat) (c : Cmd) : (k.enqueue e c).queues = k.queues := rfl
@[simp] theorem Bank.enqueue_posts (k : Bank) (e : Nat) (c : Cmd) : (k.enqueue e c).posts = k.posts := rfl
@[simp] theorem Bank.enqueue_pend (k : Bank) (e : Nat) (c : Cmd) : (k.enqueue e c).pend = k.pend := rfl
@[simp] theorem Bank.enqueue_ldqs (k : Bank) (e : Nat) (c : Cmd) : (k.enqueue e c).ldqs = k.ldqs := rfl
@[simp] theorem Bank.enqueue_wait (k : Bank) (e : Nat) (c : Cmd) : (k.enqueue e c).wait = k.wait := rfl
@[simp] theorem Bank.enqueue_fences (k : Bank) (e : Nat) (c : Cmd) : (k.enqueue e c).fences = k.fences := rfl
@[simp] theorem Bank.enqueue_tokp (k : Bank) (e : Nat) (c : Cmd) : (k.enqueue e c).tokp = k.tokp := rfl
@[simp] theorem Bank.enqueue_faults (k : Bank) (e : Nat) (c : Cmd) : (k.enqueue e c).faults = k.faults := rfl
@[simp] theorem Bank.enqueue_yielded (k : Bank) (e : Nat) (c : Cmd) : (k.enqueue e c).yielded = k.yielded := rfl
@[simp] theorem Bank.enqueue_ibuf (k : Bank) (e : Nat) (c : Cmd) : (k.enqueue e c).ibuf = k.ibuf := rfl
@[simp] theorem Bank.enqueue_ibad (k : Bank) (e : Nat) (c : Cmd) : (k.enqueue e c).ibad = k.ibad := rfl
@[simp] theorem Bank.enqueue_itent (k : Bank) (e : Nat) (c : Cmd) : (k.enqueue e c).itent = k.itent := rfl
@[simp] theorem Bank.enqueue_edits (k : Bank) (e : Nat) (c : Cmd) : (k.enqueue e c).edits = k.edits := rfl
@[simp] theorem Bank.enqueue_copied (k : Bank) (e : Nat) (c : Cmd) : (k.enqueue e c).copied = k.copied := rfl
@[simp] theorem Bank.enqueue_sealedSeen (k : Bank) (e : Nat) (c : Cmd) : (k.enqueue e c).sealedSeen = k.sealedSeen := rfl
@[simp] theorem Bank.enqueue_vregs (k : Bank) (e : Nat) (c : Cmd) : (k.enqueue e c).vregs = k.vregs := rfl
@[simp] theorem Bank.enqueue_oregs (k : Bank) (e : Nat) (c : Cmd) : (k.enqueue e c).oregs = k.oregs := rfl
@[simp] theorem Bank.enqueue_latches (k : Bank) (e : Nat) (c : Cmd) : (k.enqueue e c).latches = k.latches := rfl
@[simp] theorem Bank.enqueue_stale (k : Bank) (e : Nat) (c : Cmd) : (k.enqueue e c).stale = k.stale := rfl
@[simp] theorem Bank.enqueue_masks (k : Bank) (e : Nat) (c : Cmd) : (k.enqueue e c).masks = k.masks := rfl
@[simp] theorem Bank.enqueue_tiles (k : Bank) (e : Nat) (c : Cmd) : (k.enqueue e c).tiles = k.tiles := rfl
@[simp] theorem Bank.enqueue_ads (k : Bank) (e : Nat) (c : Cmd) : (k.enqueue e c).ads = k.ads := rfl
@[simp] theorem Bank.enqueue_lbs (k : Bank) (e : Nat) (c : Cmd) : (k.enqueue e c).lbs = k.lbs := rfl
@[simp] theorem Bank.enqueue_tabs (k : Bank) (e : Nat) (c : Cmd) : (k.enqueue e c).tabs = k.tabs := rfl
@[simp] theorem Bank.enqueue_mblk (k : Bank) (e : Nat) (c : Cmd) : (k.enqueue e c).mblk = k.mblk := rfl
@[simp] theorem Bank.enqueue_leWait (k : Bank) (e : Nat) (c : Cmd) : (k.enqueue e c).leWait = k.leWait := rfl
@[simp] theorem Bank.enqueue_block (k : Bank) (e : Nat) (c : Cmd) : (k.enqueue e c).block = k.block := rfl
@[simp] theorem Bank.enqueue_arr (k : Bank) (e : Nat) (c : Cmd) : (k.enqueue e c).arr = k.arr := rfl
@[simp] theorem Bank.enqueue_layouts (k : Bank) (e : Nat) (c : Cmd) : (k.enqueue e c).layouts = k.layouts := rfl
@[simp] theorem Bank.enqueue_copy (k : Bank) (e : Nat) (c : Cmd) : (k.enqueue e c).copy = k.copy := rfl
@[simp] theorem Bank.enqueue_engs (k : Bank) (e : Nat) (c : Cmd) : (k.enqueue e c).engs = k.engs := rfl
@[simp] theorem Bank.enqueue_pst (k : Bank) (e : Nat) (c : Cmd) : (k.enqueue e c).pst = k.pst := rfl
@[simp] theorem Bank.enqueue_area (k : Bank) (e : Nat) (c : Cmd) : (k.enqueue e c).area = k.area := rfl
@[simp] theorem Bank.enqueue_lastEnd (k : Bank) (e : Nat) (c : Cmd) : (k.enqueue e c).lastEnd = k.lastEnd := rfl
@[simp] theorem Bank.enqueue_trapAt (k : Bank) (e : Nat) (c : Cmd) : (k.enqueue e c).trapAt = k.trapAt := rfl
@[simp] theorem Bank.enqueue_report (k : Bank) (e : Nat) (c : Cmd) : (k.enqueue e c).report = k.report := rfl

/-! ### Bank.setEng -/

@[simp] theorem Bank.setEng_run (k : Bank) (e : Nat) (r : Option EngRun) : (k.setEng e r).run = k.run := rfl
@[simp] theorem Bank.setEng_part (k : Bank) (e : Nat) (r : Option EngRun) : (k.setEng e r).part = k.part := rfl
@[simp] theorem Bank.setEng_bindRec (k : Bank) (e : Nat) (r : Option EngRun) : (k.setEng e r).bindRec = k.bindRec := rfl
@[simp] theorem Bank.setEng_pc (k : Bank) (e : Nat) (r : Option EngRun) : (k.setEng e r).pc = k.pc := rfl
@[simp] theorem Bank.setEng_insn (k : Bank) (e : Nat) (r : Option EngRun) : (k.setEng e r).insn = k.insn := rfl
@[simp] theorem Bank.setEng_slot (k : Bank) (e : Nat) (r : Option EngRun) : (k.setEng e r).slot = k.slot := rfl
@[simp] theorem Bank.setEng_regs (k : Bank) (e : Nat) (r : Option EngRun) : (k.setEng e r).regs = k.regs := rfl
@[simp] theorem Bank.setEng_handles (k : Bank) (e : Nat) (r : Option EngRun) : (k.setEng e r).handles = k.handles := rfl
@[simp] theorem Bank.setEng_sys (k : Bank) (e : Nat) (r : Option EngRun) : (k.setEng e r).sys = k.sys := rfl
@[simp] theorem Bank.setEng_hmode (k : Bank) (e : Nat) (r : Option EngRun) : (k.setEng e r).hmode = k.hmode := rfl
@[simp] theorem Bank.setEng_mbox (k : Bank) (e : Nat) (r : Option EngRun) : (k.setEng e r).mbox = k.mbox := rfl
@[simp] theorem Bank.setEng_event (k : Bank) (e : Nat) (r : Option EngRun) : (k.setEng e r).event = k.event := rfl
@[simp] theorem Bank.setEng_cb (k : Bank) (e : Nat) (r : Option EngRun) : (k.setEng e r).cb = k.cb := rfl
@[simp] theorem Bank.setEng_tokens (k : Bank) (e : Nat) (r : Option EngRun) : (k.setEng e r).tokens = k.tokens := rfl
@[simp] theorem Bank.setEng_queues (k : Bank) (e : Nat) (r : Option EngRun) : (k.setEng e r).queues = k.queues := rfl
@[simp] theorem Bank.setEng_cmds (k : Bank) (e : Nat) (r : Option EngRun) : (k.setEng e r).cmds = k.cmds := rfl
@[simp] theorem Bank.setEng_posts (k : Bank) (e : Nat) (r : Option EngRun) : (k.setEng e r).posts = k.posts := rfl
@[simp] theorem Bank.setEng_pend (k : Bank) (e : Nat) (r : Option EngRun) : (k.setEng e r).pend = k.pend := rfl
@[simp] theorem Bank.setEng_ldqs (k : Bank) (e : Nat) (r : Option EngRun) : (k.setEng e r).ldqs = k.ldqs := rfl
@[simp] theorem Bank.setEng_wait (k : Bank) (e : Nat) (r : Option EngRun) : (k.setEng e r).wait = k.wait := rfl
@[simp] theorem Bank.setEng_fences (k : Bank) (e : Nat) (r : Option EngRun) : (k.setEng e r).fences = k.fences := rfl
@[simp] theorem Bank.setEng_tokp (k : Bank) (e : Nat) (r : Option EngRun) : (k.setEng e r).tokp = k.tokp := rfl
@[simp] theorem Bank.setEng_faults (k : Bank) (e : Nat) (r : Option EngRun) : (k.setEng e r).faults = k.faults := rfl
@[simp] theorem Bank.setEng_yielded (k : Bank) (e : Nat) (r : Option EngRun) : (k.setEng e r).yielded = k.yielded := rfl
@[simp] theorem Bank.setEng_ibuf (k : Bank) (e : Nat) (r : Option EngRun) : (k.setEng e r).ibuf = k.ibuf := rfl
@[simp] theorem Bank.setEng_ibad (k : Bank) (e : Nat) (r : Option EngRun) : (k.setEng e r).ibad = k.ibad := rfl
@[simp] theorem Bank.setEng_itent (k : Bank) (e : Nat) (r : Option EngRun) : (k.setEng e r).itent = k.itent := rfl
@[simp] theorem Bank.setEng_edits (k : Bank) (e : Nat) (r : Option EngRun) : (k.setEng e r).edits = k.edits := rfl
@[simp] theorem Bank.setEng_copied (k : Bank) (e : Nat) (r : Option EngRun) : (k.setEng e r).copied = k.copied := rfl
@[simp] theorem Bank.setEng_sealedSeen (k : Bank) (e : Nat) (r : Option EngRun) : (k.setEng e r).sealedSeen = k.sealedSeen := rfl
@[simp] theorem Bank.setEng_vregs (k : Bank) (e : Nat) (r : Option EngRun) : (k.setEng e r).vregs = k.vregs := rfl
@[simp] theorem Bank.setEng_oregs (k : Bank) (e : Nat) (r : Option EngRun) : (k.setEng e r).oregs = k.oregs := rfl
@[simp] theorem Bank.setEng_latches (k : Bank) (e : Nat) (r : Option EngRun) : (k.setEng e r).latches = k.latches := rfl
@[simp] theorem Bank.setEng_stale (k : Bank) (e : Nat) (r : Option EngRun) : (k.setEng e r).stale = k.stale := rfl
@[simp] theorem Bank.setEng_masks (k : Bank) (e : Nat) (r : Option EngRun) : (k.setEng e r).masks = k.masks := rfl
@[simp] theorem Bank.setEng_tiles (k : Bank) (e : Nat) (r : Option EngRun) : (k.setEng e r).tiles = k.tiles := rfl
@[simp] theorem Bank.setEng_ads (k : Bank) (e : Nat) (r : Option EngRun) : (k.setEng e r).ads = k.ads := rfl
@[simp] theorem Bank.setEng_lbs (k : Bank) (e : Nat) (r : Option EngRun) : (k.setEng e r).lbs = k.lbs := rfl
@[simp] theorem Bank.setEng_tabs (k : Bank) (e : Nat) (r : Option EngRun) : (k.setEng e r).tabs = k.tabs := rfl
@[simp] theorem Bank.setEng_mblk (k : Bank) (e : Nat) (r : Option EngRun) : (k.setEng e r).mblk = k.mblk := rfl
@[simp] theorem Bank.setEng_leWait (k : Bank) (e : Nat) (r : Option EngRun) : (k.setEng e r).leWait = k.leWait := rfl
@[simp] theorem Bank.setEng_block (k : Bank) (e : Nat) (r : Option EngRun) : (k.setEng e r).block = k.block := rfl
@[simp] theorem Bank.setEng_arr (k : Bank) (e : Nat) (r : Option EngRun) : (k.setEng e r).arr = k.arr := rfl
@[simp] theorem Bank.setEng_layouts (k : Bank) (e : Nat) (r : Option EngRun) : (k.setEng e r).layouts = k.layouts := rfl
@[simp] theorem Bank.setEng_copy (k : Bank) (e : Nat) (r : Option EngRun) : (k.setEng e r).copy = k.copy := rfl
@[simp] theorem Bank.setEng_pst (k : Bank) (e : Nat) (r : Option EngRun) : (k.setEng e r).pst = k.pst := rfl
@[simp] theorem Bank.setEng_area (k : Bank) (e : Nat) (r : Option EngRun) : (k.setEng e r).area = k.area := rfl
@[simp] theorem Bank.setEng_lastEnd (k : Bank) (e : Nat) (r : Option EngRun) : (k.setEng e r).lastEnd = k.lastEnd := rfl
@[simp] theorem Bank.setEng_trapAt (k : Bank) (e : Nat) (r : Option EngRun) : (k.setEng e r).trapAt = k.trapAt := rfl
@[simp] theorem Bank.setEng_report (k : Bank) (e : Nat) (r : Option EngRun) : (k.setEng e r).report = k.report := rfl

/-! ### Bank.setTile -/

@[simp] theorem Bank.setTile_run (k : Bank) (a : Bool) (x : Tile) : (k.setTile a x).run = k.run := rfl
@[simp] theorem Bank.setTile_part (k : Bank) (a : Bool) (x : Tile) : (k.setTile a x).part = k.part := rfl
@[simp] theorem Bank.setTile_bindRec (k : Bank) (a : Bool) (x : Tile) : (k.setTile a x).bindRec = k.bindRec := rfl
@[simp] theorem Bank.setTile_pc (k : Bank) (a : Bool) (x : Tile) : (k.setTile a x).pc = k.pc := rfl
@[simp] theorem Bank.setTile_insn (k : Bank) (a : Bool) (x : Tile) : (k.setTile a x).insn = k.insn := rfl
@[simp] theorem Bank.setTile_slot (k : Bank) (a : Bool) (x : Tile) : (k.setTile a x).slot = k.slot := rfl
@[simp] theorem Bank.setTile_regs (k : Bank) (a : Bool) (x : Tile) : (k.setTile a x).regs = k.regs := rfl
@[simp] theorem Bank.setTile_handles (k : Bank) (a : Bool) (x : Tile) : (k.setTile a x).handles = k.handles := rfl
@[simp] theorem Bank.setTile_sys (k : Bank) (a : Bool) (x : Tile) : (k.setTile a x).sys = k.sys := rfl
@[simp] theorem Bank.setTile_hmode (k : Bank) (a : Bool) (x : Tile) : (k.setTile a x).hmode = k.hmode := rfl
@[simp] theorem Bank.setTile_mbox (k : Bank) (a : Bool) (x : Tile) : (k.setTile a x).mbox = k.mbox := rfl
@[simp] theorem Bank.setTile_event (k : Bank) (a : Bool) (x : Tile) : (k.setTile a x).event = k.event := rfl
@[simp] theorem Bank.setTile_cb (k : Bank) (a : Bool) (x : Tile) : (k.setTile a x).cb = k.cb := rfl
@[simp] theorem Bank.setTile_tokens (k : Bank) (a : Bool) (x : Tile) : (k.setTile a x).tokens = k.tokens := rfl
@[simp] theorem Bank.setTile_queues (k : Bank) (a : Bool) (x : Tile) : (k.setTile a x).queues = k.queues := rfl
@[simp] theorem Bank.setTile_cmds (k : Bank) (a : Bool) (x : Tile) : (k.setTile a x).cmds = k.cmds := rfl
@[simp] theorem Bank.setTile_posts (k : Bank) (a : Bool) (x : Tile) : (k.setTile a x).posts = k.posts := rfl
@[simp] theorem Bank.setTile_pend (k : Bank) (a : Bool) (x : Tile) : (k.setTile a x).pend = k.pend := rfl
@[simp] theorem Bank.setTile_ldqs (k : Bank) (a : Bool) (x : Tile) : (k.setTile a x).ldqs = k.ldqs := rfl
@[simp] theorem Bank.setTile_wait (k : Bank) (a : Bool) (x : Tile) : (k.setTile a x).wait = k.wait := rfl
@[simp] theorem Bank.setTile_fences (k : Bank) (a : Bool) (x : Tile) : (k.setTile a x).fences = k.fences := rfl
@[simp] theorem Bank.setTile_tokp (k : Bank) (a : Bool) (x : Tile) : (k.setTile a x).tokp = k.tokp := rfl
@[simp] theorem Bank.setTile_faults (k : Bank) (a : Bool) (x : Tile) : (k.setTile a x).faults = k.faults := rfl
@[simp] theorem Bank.setTile_yielded (k : Bank) (a : Bool) (x : Tile) : (k.setTile a x).yielded = k.yielded := rfl
@[simp] theorem Bank.setTile_ibuf (k : Bank) (a : Bool) (x : Tile) : (k.setTile a x).ibuf = k.ibuf := rfl
@[simp] theorem Bank.setTile_ibad (k : Bank) (a : Bool) (x : Tile) : (k.setTile a x).ibad = k.ibad := rfl
@[simp] theorem Bank.setTile_itent (k : Bank) (a : Bool) (x : Tile) : (k.setTile a x).itent = k.itent := rfl
@[simp] theorem Bank.setTile_edits (k : Bank) (a : Bool) (x : Tile) : (k.setTile a x).edits = k.edits := rfl
@[simp] theorem Bank.setTile_copied (k : Bank) (a : Bool) (x : Tile) : (k.setTile a x).copied = k.copied := rfl
@[simp] theorem Bank.setTile_sealedSeen (k : Bank) (a : Bool) (x : Tile) : (k.setTile a x).sealedSeen = k.sealedSeen := rfl
@[simp] theorem Bank.setTile_vregs (k : Bank) (a : Bool) (x : Tile) : (k.setTile a x).vregs = k.vregs := rfl
@[simp] theorem Bank.setTile_oregs (k : Bank) (a : Bool) (x : Tile) : (k.setTile a x).oregs = k.oregs := rfl
@[simp] theorem Bank.setTile_latches (k : Bank) (a : Bool) (x : Tile) : (k.setTile a x).latches = k.latches := rfl
@[simp] theorem Bank.setTile_stale (k : Bank) (a : Bool) (x : Tile) : (k.setTile a x).stale = k.stale := rfl
@[simp] theorem Bank.setTile_masks (k : Bank) (a : Bool) (x : Tile) : (k.setTile a x).masks = k.masks := rfl
@[simp] theorem Bank.setTile_ads (k : Bank) (a : Bool) (x : Tile) : (k.setTile a x).ads = k.ads := rfl
@[simp] theorem Bank.setTile_lbs (k : Bank) (a : Bool) (x : Tile) : (k.setTile a x).lbs = k.lbs := rfl
@[simp] theorem Bank.setTile_tabs (k : Bank) (a : Bool) (x : Tile) : (k.setTile a x).tabs = k.tabs := rfl
@[simp] theorem Bank.setTile_mblk (k : Bank) (a : Bool) (x : Tile) : (k.setTile a x).mblk = k.mblk := rfl
@[simp] theorem Bank.setTile_leWait (k : Bank) (a : Bool) (x : Tile) : (k.setTile a x).leWait = k.leWait := rfl
@[simp] theorem Bank.setTile_block (k : Bank) (a : Bool) (x : Tile) : (k.setTile a x).block = k.block := rfl
@[simp] theorem Bank.setTile_arr (k : Bank) (a : Bool) (x : Tile) : (k.setTile a x).arr = k.arr := rfl
@[simp] theorem Bank.setTile_layouts (k : Bank) (a : Bool) (x : Tile) : (k.setTile a x).layouts = k.layouts := rfl
@[simp] theorem Bank.setTile_copy (k : Bank) (a : Bool) (x : Tile) : (k.setTile a x).copy = k.copy := rfl
@[simp] theorem Bank.setTile_engs (k : Bank) (a : Bool) (x : Tile) : (k.setTile a x).engs = k.engs := rfl
@[simp] theorem Bank.setTile_pst (k : Bank) (a : Bool) (x : Tile) : (k.setTile a x).pst = k.pst := rfl
@[simp] theorem Bank.setTile_area (k : Bank) (a : Bool) (x : Tile) : (k.setTile a x).area = k.area := rfl
@[simp] theorem Bank.setTile_lastEnd (k : Bank) (a : Bool) (x : Tile) : (k.setTile a x).lastEnd = k.lastEnd := rfl
@[simp] theorem Bank.setTile_trapAt (k : Bank) (a : Bool) (x : Tile) : (k.setTile a x).trapAt = k.trapAt := rfl
@[simp] theorem Bank.setTile_report (k : Bank) (a : Bool) (x : Tile) : (k.setTile a x).report = k.report := rfl

/-! ### Bank.setReg -/

@[simp] theorem Bank.setReg_run (k : Bank) (r : BitVec 5) (v : Word) : (k.setReg r v).run = k.run := by unfold Bank.setReg; split <;> rfl
@[simp] theorem Bank.setReg_part (k : Bank) (r : BitVec 5) (v : Word) : (k.setReg r v).part = k.part := by unfold Bank.setReg; split <;> rfl
@[simp] theorem Bank.setReg_bindRec (k : Bank) (r : BitVec 5) (v : Word) : (k.setReg r v).bindRec = k.bindRec := by unfold Bank.setReg; split <;> rfl
@[simp] theorem Bank.setReg_pc (k : Bank) (r : BitVec 5) (v : Word) : (k.setReg r v).pc = k.pc := by unfold Bank.setReg; split <;> rfl
@[simp] theorem Bank.setReg_insn (k : Bank) (r : BitVec 5) (v : Word) : (k.setReg r v).insn = k.insn := by unfold Bank.setReg; split <;> rfl
@[simp] theorem Bank.setReg_slot (k : Bank) (r : BitVec 5) (v : Word) : (k.setReg r v).slot = k.slot := by unfold Bank.setReg; split <;> rfl
@[simp] theorem Bank.setReg_handles (k : Bank) (r : BitVec 5) (v : Word) : (k.setReg r v).handles = k.handles := by unfold Bank.setReg; split <;> rfl
@[simp] theorem Bank.setReg_sys (k : Bank) (r : BitVec 5) (v : Word) : (k.setReg r v).sys = k.sys := by unfold Bank.setReg; split <;> rfl
@[simp] theorem Bank.setReg_hmode (k : Bank) (r : BitVec 5) (v : Word) : (k.setReg r v).hmode = k.hmode := by unfold Bank.setReg; split <;> rfl
@[simp] theorem Bank.setReg_mbox (k : Bank) (r : BitVec 5) (v : Word) : (k.setReg r v).mbox = k.mbox := by unfold Bank.setReg; split <;> rfl
@[simp] theorem Bank.setReg_event (k : Bank) (r : BitVec 5) (v : Word) : (k.setReg r v).event = k.event := by unfold Bank.setReg; split <;> rfl
@[simp] theorem Bank.setReg_cb (k : Bank) (r : BitVec 5) (v : Word) : (k.setReg r v).cb = k.cb := by unfold Bank.setReg; split <;> rfl
@[simp] theorem Bank.setReg_tokens (k : Bank) (r : BitVec 5) (v : Word) : (k.setReg r v).tokens = k.tokens := by unfold Bank.setReg; split <;> rfl
@[simp] theorem Bank.setReg_queues (k : Bank) (r : BitVec 5) (v : Word) : (k.setReg r v).queues = k.queues := by unfold Bank.setReg; split <;> rfl
@[simp] theorem Bank.setReg_cmds (k : Bank) (r : BitVec 5) (v : Word) : (k.setReg r v).cmds = k.cmds := by unfold Bank.setReg; split <;> rfl
@[simp] theorem Bank.setReg_posts (k : Bank) (r : BitVec 5) (v : Word) : (k.setReg r v).posts = k.posts := by unfold Bank.setReg; split <;> rfl
@[simp] theorem Bank.setReg_pend (k : Bank) (r : BitVec 5) (v : Word) : (k.setReg r v).pend = k.pend := by unfold Bank.setReg; split <;> rfl
@[simp] theorem Bank.setReg_ldqs (k : Bank) (r : BitVec 5) (v : Word) : (k.setReg r v).ldqs = k.ldqs := by unfold Bank.setReg; split <;> rfl
@[simp] theorem Bank.setReg_wait (k : Bank) (r : BitVec 5) (v : Word) : (k.setReg r v).wait = k.wait := by unfold Bank.setReg; split <;> rfl
@[simp] theorem Bank.setReg_fences (k : Bank) (r : BitVec 5) (v : Word) : (k.setReg r v).fences = k.fences := by unfold Bank.setReg; split <;> rfl
@[simp] theorem Bank.setReg_tokp (k : Bank) (r : BitVec 5) (v : Word) : (k.setReg r v).tokp = k.tokp := by unfold Bank.setReg; split <;> rfl
@[simp] theorem Bank.setReg_faults (k : Bank) (r : BitVec 5) (v : Word) : (k.setReg r v).faults = k.faults := by unfold Bank.setReg; split <;> rfl
@[simp] theorem Bank.setReg_yielded (k : Bank) (r : BitVec 5) (v : Word) : (k.setReg r v).yielded = k.yielded := by unfold Bank.setReg; split <;> rfl
@[simp] theorem Bank.setReg_ibuf (k : Bank) (r : BitVec 5) (v : Word) : (k.setReg r v).ibuf = k.ibuf := by unfold Bank.setReg; split <;> rfl
@[simp] theorem Bank.setReg_ibad (k : Bank) (r : BitVec 5) (v : Word) : (k.setReg r v).ibad = k.ibad := by unfold Bank.setReg; split <;> rfl
@[simp] theorem Bank.setReg_itent (k : Bank) (r : BitVec 5) (v : Word) : (k.setReg r v).itent = k.itent := by unfold Bank.setReg; split <;> rfl
@[simp] theorem Bank.setReg_edits (k : Bank) (r : BitVec 5) (v : Word) : (k.setReg r v).edits = k.edits := by unfold Bank.setReg; split <;> rfl
@[simp] theorem Bank.setReg_copied (k : Bank) (r : BitVec 5) (v : Word) : (k.setReg r v).copied = k.copied := by unfold Bank.setReg; split <;> rfl
@[simp] theorem Bank.setReg_sealedSeen (k : Bank) (r : BitVec 5) (v : Word) : (k.setReg r v).sealedSeen = k.sealedSeen := by unfold Bank.setReg; split <;> rfl
@[simp] theorem Bank.setReg_vregs (k : Bank) (r : BitVec 5) (v : Word) : (k.setReg r v).vregs = k.vregs := by unfold Bank.setReg; split <;> rfl
@[simp] theorem Bank.setReg_oregs (k : Bank) (r : BitVec 5) (v : Word) : (k.setReg r v).oregs = k.oregs := by unfold Bank.setReg; split <;> rfl
@[simp] theorem Bank.setReg_latches (k : Bank) (r : BitVec 5) (v : Word) : (k.setReg r v).latches = k.latches := by unfold Bank.setReg; split <;> rfl
@[simp] theorem Bank.setReg_stale (k : Bank) (r : BitVec 5) (v : Word) : (k.setReg r v).stale = k.stale := by unfold Bank.setReg; split <;> rfl
@[simp] theorem Bank.setReg_masks (k : Bank) (r : BitVec 5) (v : Word) : (k.setReg r v).masks = k.masks := by unfold Bank.setReg; split <;> rfl
@[simp] theorem Bank.setReg_tiles (k : Bank) (r : BitVec 5) (v : Word) : (k.setReg r v).tiles = k.tiles := by unfold Bank.setReg; split <;> rfl
@[simp] theorem Bank.setReg_ads (k : Bank) (r : BitVec 5) (v : Word) : (k.setReg r v).ads = k.ads := by unfold Bank.setReg; split <;> rfl
@[simp] theorem Bank.setReg_lbs (k : Bank) (r : BitVec 5) (v : Word) : (k.setReg r v).lbs = k.lbs := by unfold Bank.setReg; split <;> rfl
@[simp] theorem Bank.setReg_tabs (k : Bank) (r : BitVec 5) (v : Word) : (k.setReg r v).tabs = k.tabs := by unfold Bank.setReg; split <;> rfl
@[simp] theorem Bank.setReg_mblk (k : Bank) (r : BitVec 5) (v : Word) : (k.setReg r v).mblk = k.mblk := by unfold Bank.setReg; split <;> rfl
@[simp] theorem Bank.setReg_leWait (k : Bank) (r : BitVec 5) (v : Word) : (k.setReg r v).leWait = k.leWait := by unfold Bank.setReg; split <;> rfl
@[simp] theorem Bank.setReg_block (k : Bank) (r : BitVec 5) (v : Word) : (k.setReg r v).block = k.block := by unfold Bank.setReg; split <;> rfl
@[simp] theorem Bank.setReg_arr (k : Bank) (r : BitVec 5) (v : Word) : (k.setReg r v).arr = k.arr := by unfold Bank.setReg; split <;> rfl
@[simp] theorem Bank.setReg_layouts (k : Bank) (r : BitVec 5) (v : Word) : (k.setReg r v).layouts = k.layouts := by unfold Bank.setReg; split <;> rfl
@[simp] theorem Bank.setReg_copy (k : Bank) (r : BitVec 5) (v : Word) : (k.setReg r v).copy = k.copy := by unfold Bank.setReg; split <;> rfl
@[simp] theorem Bank.setReg_engs (k : Bank) (r : BitVec 5) (v : Word) : (k.setReg r v).engs = k.engs := by unfold Bank.setReg; split <;> rfl
@[simp] theorem Bank.setReg_pst (k : Bank) (r : BitVec 5) (v : Word) : (k.setReg r v).pst = k.pst := by unfold Bank.setReg; split <;> rfl
@[simp] theorem Bank.setReg_area (k : Bank) (r : BitVec 5) (v : Word) : (k.setReg r v).area = k.area := by unfold Bank.setReg; split <;> rfl
@[simp] theorem Bank.setReg_lastEnd (k : Bank) (r : BitVec 5) (v : Word) : (k.setReg r v).lastEnd = k.lastEnd := by unfold Bank.setReg; split <;> rfl
@[simp] theorem Bank.setReg_trapAt (k : Bank) (r : BitVec 5) (v : Word) : (k.setReg r v).trapAt = k.trapAt := by unfold Bank.setReg; split <;> rfl
@[simp] theorem Bank.setReg_report (k : Bank) (r : BitVec 5) (v : Word) : (k.setReg r v).report = k.report := by unfold Bank.setReg; split <;> rfl

/-! ### Bank.advance -/

@[simp] theorem Bank.advance_run (k : Bank) (n : Nat) : (k.advance n).run = k.run := by unfold Bank.advance; split <;> rfl
@[simp] theorem Bank.advance_part (k : Bank) (n : Nat) : (k.advance n).part = k.part := by unfold Bank.advance; split <;> rfl
@[simp] theorem Bank.advance_bindRec (k : Bank) (n : Nat) : (k.advance n).bindRec = k.bindRec := by unfold Bank.advance; split <;> rfl
@[simp] theorem Bank.advance_insn (k : Bank) (n : Nat) : (k.advance n).insn = k.insn := by unfold Bank.advance; split <;> rfl
@[simp] theorem Bank.advance_regs (k : Bank) (n : Nat) : (k.advance n).regs = k.regs := by unfold Bank.advance; split <;> rfl
@[simp] theorem Bank.advance_handles (k : Bank) (n : Nat) : (k.advance n).handles = k.handles := by unfold Bank.advance; split <;> rfl
@[simp] theorem Bank.advance_sys (k : Bank) (n : Nat) : (k.advance n).sys = k.sys := by unfold Bank.advance; split <;> rfl
@[simp] theorem Bank.advance_hmode (k : Bank) (n : Nat) : (k.advance n).hmode = k.hmode := by unfold Bank.advance; split <;> rfl
@[simp] theorem Bank.advance_mbox (k : Bank) (n : Nat) : (k.advance n).mbox = k.mbox := by unfold Bank.advance; split <;> rfl
@[simp] theorem Bank.advance_event (k : Bank) (n : Nat) : (k.advance n).event = k.event := by unfold Bank.advance; split <;> rfl
@[simp] theorem Bank.advance_cb (k : Bank) (n : Nat) : (k.advance n).cb = k.cb := by unfold Bank.advance; split <;> rfl
@[simp] theorem Bank.advance_tokens (k : Bank) (n : Nat) : (k.advance n).tokens = k.tokens := by unfold Bank.advance; split <;> rfl
@[simp] theorem Bank.advance_queues (k : Bank) (n : Nat) : (k.advance n).queues = k.queues := by unfold Bank.advance; split <;> rfl
@[simp] theorem Bank.advance_cmds (k : Bank) (n : Nat) : (k.advance n).cmds = k.cmds := by unfold Bank.advance; split <;> rfl
@[simp] theorem Bank.advance_posts (k : Bank) (n : Nat) : (k.advance n).posts = k.posts := by unfold Bank.advance; split <;> rfl
@[simp] theorem Bank.advance_pend (k : Bank) (n : Nat) : (k.advance n).pend = k.pend := by unfold Bank.advance; split <;> rfl
@[simp] theorem Bank.advance_ldqs (k : Bank) (n : Nat) : (k.advance n).ldqs = k.ldqs := by unfold Bank.advance; split <;> rfl
@[simp] theorem Bank.advance_wait (k : Bank) (n : Nat) : (k.advance n).wait = k.wait := by unfold Bank.advance; split <;> rfl
@[simp] theorem Bank.advance_fences (k : Bank) (n : Nat) : (k.advance n).fences = k.fences := by unfold Bank.advance; split <;> rfl
@[simp] theorem Bank.advance_tokp (k : Bank) (n : Nat) : (k.advance n).tokp = k.tokp := by unfold Bank.advance; split <;> rfl
@[simp] theorem Bank.advance_faults (k : Bank) (n : Nat) : (k.advance n).faults = k.faults := by unfold Bank.advance; split <;> rfl
@[simp] theorem Bank.advance_yielded (k : Bank) (n : Nat) : (k.advance n).yielded = k.yielded := by unfold Bank.advance; split <;> rfl
@[simp] theorem Bank.advance_ibuf (k : Bank) (n : Nat) : (k.advance n).ibuf = k.ibuf := by unfold Bank.advance; split <;> rfl
@[simp] theorem Bank.advance_ibad (k : Bank) (n : Nat) : (k.advance n).ibad = k.ibad := by unfold Bank.advance; split <;> rfl
@[simp] theorem Bank.advance_itent (k : Bank) (n : Nat) : (k.advance n).itent = k.itent := by unfold Bank.advance; split <;> rfl
@[simp] theorem Bank.advance_edits (k : Bank) (n : Nat) : (k.advance n).edits = k.edits := by unfold Bank.advance; split <;> rfl
@[simp] theorem Bank.advance_copied (k : Bank) (n : Nat) : (k.advance n).copied = k.copied := by unfold Bank.advance; split <;> rfl
@[simp] theorem Bank.advance_sealedSeen (k : Bank) (n : Nat) : (k.advance n).sealedSeen = k.sealedSeen := by unfold Bank.advance; split <;> rfl
@[simp] theorem Bank.advance_vregs (k : Bank) (n : Nat) : (k.advance n).vregs = k.vregs := by unfold Bank.advance; split <;> rfl
@[simp] theorem Bank.advance_oregs (k : Bank) (n : Nat) : (k.advance n).oregs = k.oregs := by unfold Bank.advance; split <;> rfl
@[simp] theorem Bank.advance_latches (k : Bank) (n : Nat) : (k.advance n).latches = k.latches := by unfold Bank.advance; split <;> rfl
@[simp] theorem Bank.advance_stale (k : Bank) (n : Nat) : (k.advance n).stale = k.stale := by unfold Bank.advance; split <;> rfl
@[simp] theorem Bank.advance_masks (k : Bank) (n : Nat) : (k.advance n).masks = k.masks := by unfold Bank.advance; split <;> rfl
@[simp] theorem Bank.advance_tiles (k : Bank) (n : Nat) : (k.advance n).tiles = k.tiles := by unfold Bank.advance; split <;> rfl
@[simp] theorem Bank.advance_ads (k : Bank) (n : Nat) : (k.advance n).ads = k.ads := by unfold Bank.advance; split <;> rfl
@[simp] theorem Bank.advance_lbs (k : Bank) (n : Nat) : (k.advance n).lbs = k.lbs := by unfold Bank.advance; split <;> rfl
@[simp] theorem Bank.advance_tabs (k : Bank) (n : Nat) : (k.advance n).tabs = k.tabs := by unfold Bank.advance; split <;> rfl
@[simp] theorem Bank.advance_mblk (k : Bank) (n : Nat) : (k.advance n).mblk = k.mblk := by unfold Bank.advance; split <;> rfl
@[simp] theorem Bank.advance_leWait (k : Bank) (n : Nat) : (k.advance n).leWait = k.leWait := by unfold Bank.advance; split <;> rfl
@[simp] theorem Bank.advance_block (k : Bank) (n : Nat) : (k.advance n).block = k.block := by unfold Bank.advance; split <;> rfl
@[simp] theorem Bank.advance_arr (k : Bank) (n : Nat) : (k.advance n).arr = k.arr := by unfold Bank.advance; split <;> rfl
@[simp] theorem Bank.advance_layouts (k : Bank) (n : Nat) : (k.advance n).layouts = k.layouts := by unfold Bank.advance; split <;> rfl
@[simp] theorem Bank.advance_copy (k : Bank) (n : Nat) : (k.advance n).copy = k.copy := by unfold Bank.advance; split <;> rfl
@[simp] theorem Bank.advance_engs (k : Bank) (n : Nat) : (k.advance n).engs = k.engs := by unfold Bank.advance; split <;> rfl
@[simp] theorem Bank.advance_pst (k : Bank) (n : Nat) : (k.advance n).pst = k.pst := by unfold Bank.advance; split <;> rfl
@[simp] theorem Bank.advance_area (k : Bank) (n : Nat) : (k.advance n).area = k.area := by unfold Bank.advance; split <;> rfl
@[simp] theorem Bank.advance_lastEnd (k : Bank) (n : Nat) : (k.advance n).lastEnd = k.lastEnd := by unfold Bank.advance; split <;> rfl
@[simp] theorem Bank.advance_trapAt (k : Bank) (n : Nat) : (k.advance n).trapAt = k.trapAt := by unfold Bank.advance; split <;> rfl
@[simp] theorem Bank.advance_report (k : Bank) (n : Nat) : (k.advance n).report = k.report := by unfold Bank.advance; split <;> rfl

/-! ### What a read finds after an update -/

theorem State.bank_setBank (s : State) (b c : Nat) (k : Bank) :
    (s.setBank b k).bank c = if c = b then k else s.bank c := Assoc.get_set _ _ _ _ _

@[simp] theorem State.bank_setBank_same (s : State) (b : Nat) (k : Bank) : (s.setBank b k).bank b = k :=
  Assoc.get_set_same _ _ _ _

theorem State.bank_setBank_ne (s : State) {b c : Nat} (k : Bank) (h : c ≠ b) : (s.setBank b k).bank c = s.bank c :=
  Assoc.get_set_ne _ _ _ h

@[simp] theorem State.bank_modBank_same (s : State) (b : Nat) (f : Bank → Bank) : (s.modBank b f).bank b = f (s.bank b) :=
  Assoc.get_set_same _ _ _ _

theorem State.bank_modBank_ne (s : State) {b c : Nat} (f : Bank → Bank) (h : c ≠ b) :
    (s.modBank b f).bank c = s.bank c := Assoc.get_set_ne _ _ _ h

@[simp] theorem State.me_modMe (s : State) (f : Bank → Bank) : (s.modMe f).me = f s.me := Assoc.get_set_same _ _ _ _

theorem State.bank_modMe_ne (s : State) {c : Nat} (f : Bank → Bank) (h : c ≠ s.cur) : (s.modMe f).bank c = s.bank c :=
  Assoc.get_set_ne _ _ _ h

theorem State.core_modCore (s : State) (c d : Nat) (f : Core → Core) :
    (s.modCore c f).core d = if d = c then f (s.core c) else s.core d := Assoc.get_set _ _ _ _ _

@[simp] theorem State.core_modCore_same (s : State) (c : Nat) (f : Core → Core) : (s.modCore c f).core c = f (s.core c) :=
  Assoc.get_set_same _ _ _ _

theorem State.die_modDie (s : State) (c d : Nat) (f : Die → Die) :
    (s.modDie c f).die d = if d = c then f (s.die c) else s.die d := Assoc.get_set _ _ _ _ _

@[simp] theorem State.die_modDie_same (s : State) (c : Nat) (f : Die → Die) : (s.modDie c f).die c = f (s.die c) :=
  Assoc.get_set_same _ _ _ _

theorem State.cluster_modCluster (s : State) (c d : Nat) (f : Cluster → Cluster) :
    (s.modCluster c f).cluster d = if d = c then f (s.cluster c) else s.cluster d := Assoc.get_set _ _ _ _ _

@[simp] theorem State.dir_setDir_same (s : State) (l : Nat) (d : Dir) : (s.setDir l d).dir l = d :=
  Assoc.get_set_same _ _ _ _

theorem State.dir_setDir_ne (s : State) {l j : Nat} (d : Dir) (h : j ≠ l) : (s.setDir l d).dir j = s.dir j :=
  Assoc.get_set_ne _ _ _ h

@[simp] theorem State.cell_setCell_same (s : State) (k : Nat) (c : RowCell) : (s.setCell k c).cell k = c :=
  Assoc.get_set_same _ _ _ _

theorem State.cell_setCell_ne (s : State) {k j : Nat} (c : RowCell) (h : j ≠ k) : (s.setCell k c).cell j = s.cell j :=
  Assoc.get_set_ne _ _ _ h

/-- A read of a register after a write: `s0` stays zero (R30). -/
theorem Bank.reg_setReg (k : Bank) (d r : BitVec 5) (v : Word) :
    (k.setReg d v).reg r = if r = d ∧ r ≠ 0 then v else k.reg r := by
  unfold Bank.setReg Bank.reg
  by_cases hd : d = 0
  · subst hd
    by_cases hr : r = 0 <;> simp [hr]
  · by_cases hr : r = 0
    · simp [hr]
    · simp only [hd, hr, if_false, Assoc.get_set, BitVec.toNat_inj]
      by_cases h : r = d
      · subst h; simpa using fun e => absurd e hr
      · simp [h]

@[simp] theorem Bank.reg_zero (k : Bank) : k.reg 0 = 0 := rfl

@[simp] theorem Bank.advance_reg (k : Bank) (n : Nat) (r : BitVec 5) : (k.advance n).reg r = k.reg r := by
  unfold Bank.reg; rw [Bank.advance_regs]

theorem Bank.advance_slot (k : Bank) (n : Nat) : (k.advance n).slot = none := by
  unfold Bank.advance; split
  · assumption
  · rfl

theorem Bank.handle_setHandle (k : Bank) (h j : Nat) (x : Handle) :
    (k.setHandle h x).handle j = if j = h then x else k.handle j := Assoc.get_set _ _ _ _ _

theorem Bank.cbar_setCbar (k : Bank) (n j : Nat) (w : Word) :
    (k.setCbar n w).cbar j = if j = n then w else k.cbar j := Assoc.get_set _ _ _ _ _

theorem Bank.queue_setQueue (k : Bank) (q j : Nat) (x : Queue) :
    (k.setQueue q x).queue j = if j = q then x else k.queue j := Assoc.get_set _ _ _ _ _

theorem Bank.cmdq_setCmdq (k : Bank) (e j : Nat) (q : List Cmd) :
    (k.setCmdq e q).cmdq j = if j = e then q else k.cmdq j := Assoc.get_set _ _ _ _ _

theorem Bank.eng_setEng (k : Bank) (e j : Nat) (r : Option EngRun) :
    (k.setEng e r).eng j = if j = e then r else k.eng j := Assoc.get_set _ _ _ _ _

end Sys2Proof.Machine
end

