-- ==== Sys2Proof/Laws/Ops.lean ====
section
/-! SUPPORT. What each shared operation does, said once: completing, taking a trap, access through a handle, queueing a
command. -/

namespace Sys2Proof.Machine

/-! ### Memory that an update does not touch -/

/-- The bytes of memory depend on the stored bytes, their rows, the migrating pages and the key slots alone. -/
theorem State.byte_congr {s t : State} (hm : t.mem = s.mem) (hr : t.memMeta = s.memMeta) (hg : t.migr = s.migr)
    (hd : t.dies = s.dies) (a : Nat) : t.byte a = s.byte a := by
  have hf : t.frameOf = s.frameOf := by funext x; simp [State.frameOf, hg]
  have hb : ∀ x, t.rawByte x = s.rawByte x := by intro x; simp [State.rawByte, hm, hf]
  have he : ∀ x, t.regionOf x = s.regionOf x := by intro x; simp [State.regionOf, State.die, hd]
  have hm' : t.rowMeta (a / 256) = s.rowMeta (a / 256) := by simp [State.rowMeta, hr, hf]
  unfold State.byte
  rw [hb, State.plainRow_congr _ (he _) (fun a _ _ => hb a), hm']

theorem State.byte_setBank (s : State) (b : Nat) (k : Bank) (a : Nat) : (s.setBank b k).byte a = s.byte a :=
  State.byte_congr (by simp) (by simp) (by simp) (by simp) a

theorem State.byte_modBank (s : State) (b : Nat) (f : Bank → Bank) (a : Nat) : (s.modBank b f).byte a = s.byte a :=
  State.byte_setBank s b _ a

theorem State.byte_modMe (s : State) (f : Bank → Bank) (a : Nat) : (s.modMe f).byte a = s.byte a :=
  State.byte_setBank s _ _ a

/-! ### Completing a word -/

/-- A word that writes one register completes: the register, the program counter and the slot change. -/
theorem result_next (s : State) (d : BitVec 5) (v : Word) :
    result s d v = .next ((s.setReg d v).modMe fun k => k.advance 4) := rfl

@[simp] theorem State.cur_setReg (s : State) (d : BitVec 5) (v : Word) : (s.setReg d v).cur = s.cur := rfl

@[simp] theorem State.me_setReg (s : State) (d : BitVec 5) (v : Word) : (s.setReg d v).me = s.me.setReg d v :=
  State.me_modMe s _

@[simp] theorem finish_next (s : State) : finish s = .next (s.modMe fun k => k.advance 4) := rfl

@[simp] theorem finish8_next (s : State) : finish8 s = .next (s.modMe fun k => k.advance 8) := rfl

@[simp] theorem stall_next (s : State) : stall s = .next s := rfl

/-- Outside a delay slot the bank goes on past the word. -/
theorem Bank.advance_plain (k : Bank) (n : Nat) (h : k.slot = none) :
    k.advance n = { k with pc := k.pc + BitVec.ofNat 64 n } := by
  simp [Bank.advance, h]

/-- In a delay slot the bank goes on where its branch goes. -/
theorem Bank.advance_inSlot (k : Bank) (n : Nat) (sl : Slot) (h : k.slot = some sl) :
    k.advance n = { k with pc := if sl.taken then sl.target else sl.branch + 8, slot := none } := by
  simp [Bank.advance, h]

/-! ### Leaving an event for later -/

@[simp] theorem State.bank_owe (s : State) (i : Instr) (b : Nat) : (s.owe i).bank b = s.bank b := by
  unfold State.owe; split <;> rfl

@[simp] theorem State.me_owe (s : State) (i : Instr) : (s.owe i).me = s.me := by
  simp [State.me]

theorem State.byte_owe (s : State) (i : Instr) (a : Nat) : (s.owe i).byte a = s.byte a :=
  State.byte_congr (by simp) (by simp) (by simp) (by simp) a

/-- An event that is owed is among the pending ones, once. -/
theorem State.mem_pending_owe (s : State) (i : Instr) : i ∈ (s.owe i).pending := by
  unfold State.owe; split <;> simp_all

/-! ### Taking a trap -/

/-- The fields of FSTAT, each at its place. -/
theorem Trap.fstat_fields (t : Trap) (ds : Bool) :
    bits (t.fstat ds) 7 0 = t.cls % 256 ∧ bits (t.fstat ds) 15 8 = t.sub % 256 ∧
    bits (t.fstat ds) 19 16 = t.walk % 16 ∧ bits (t.fstat ds) 22 20 = t.eng % 8 ∧
    bit (t.fstat ds) 24 = ds ∧ bit (t.fstat ds) 25 = t.restart ∧ bit (t.fstat ds) 26 = t.asyn ∧
    bit (t.fstat ds) 27 = t.defer ∧ bits (t.fstat ds) 31 29 = t.count % 8 := by
  have h1 := Nat.mod_lt t.cls (show 256 > 0 by decide)
  have h2 := Nat.mod_lt t.sub (show 256 > 0 by decide)
  have h3 := Nat.mod_lt t.walk (show 16 > 0 by decide)
  have h4 := Nat.mod_lt t.eng (show 8 > 0 by decide)
  have h5 := Nat.mod_lt t.count (show 8 > 0 by decide)
  unfold Trap.fstat
  generalize t.cls % 256 = c at *
  generalize t.sub % 256 = u at *
  generalize t.walk % 16 = w at *
  generalize t.eng % 8 = e at *
  generalize t.count % 8 = n at *
  have bv : ∀ x : Bool, b2n x ≤ 1 := by decide
  have bt : ∀ (x : BitVec 64) (i : Nat) (y : Bool), x.toNat / 2 ^ i % 2 = b2n y → bit x i = y := by
    intro x i y h
    rw [bit, Nat.testBit_eq_decide_div_mod_eq, h]
    cases y <;> rfl
  have g1 := bv ds
  have g2 := bv t.restart
  have g3 := bv t.asyn
  have g4 := bv t.defer
  refine ⟨?_, ?_, ?_, ?_, bt _ _ _ ?_, bt _ _ _ ?_, bt _ _ _ ?_, bt _ _ _ ?_, ?_⟩ <;>
    simp only [bits, at', BitVec.toNat_ofNat] <;> omega

/-- A bank whose task is being ended takes no trap. -/
theorem State.takeTrap_ending (s : State) (b : Nat) (t : Trap) (h : (s.bank b).run = .ending) : s.takeTrap b t = s := by
  simp [State.takeTrap, h]

/-- Otherwise the bank enters its handler with the record, or stops with it, and owes the end of its stop. -/
theorem State.takeTrap_cases (s : State) (b : Nat) (t : Trap) (h : (s.bank b).run ≠ .ending) :
    let k := s.bank b
    let r := makeRecord k k.insn (s.fillTrap t)
    (k.toHandler t.cls = true ∧ s.takeTrap b t = s.tickFree.setBank b (k.enter r)) ∨
    (k.toHandler t.cls = false ∧
      s.takeTrap b t = (s.tickFree.setBank b (k.stopWith r s.counter)).owe (.bankStopDrainEnd b)) := by
  simp only [State.takeTrap, h, if_false]
  by_cases g : (s.bank b).toHandler t.cls = true
  · exact .inl ⟨g, by simp [g]⟩
  · exact .inr ⟨by simpa using g, by simp [g]⟩

/-- What a trap leaves alone, whoever takes it. -/
theorem State.takeTrap_frame (s : State) (b : Nat) (t : Trap) :
    (∀ c, c ≠ b → (s.takeTrap b t).bank c = s.bank c) ∧ (s.takeTrap b t).mem = s.mem ∧
    (s.takeTrap b t).memMeta = s.memMeta ∧ (s.takeTrap b t).hostMem = s.hostMem ∧ (s.takeTrap b t).sram = s.sram ∧
    (s.takeTrap b t).cores = s.cores ∧ (s.takeTrap b t).dies = s.dies ∧ (s.takeTrap b t).dirs = s.dirs ∧
    (s.takeTrap b t).net = s.net ∧ (s.takeTrap b t).migr = s.migr ∧ (s.takeTrap b t).cur = s.cur ∧
    (s.takeTrap b t).counter = s.counter ∧ (s.takeTrap b t).reftime = s.reftime ∧ (s.takeTrap b t).modul = s.modul ∧
    ∀ a, (s.takeTrap b t).byte a = s.byte a := by
  have main : ∀ u : State, (u = s ∨ (∃ k, u = s.tickFree.setBank b k) ∨
      ∃ k, u = (s.tickFree.setBank b k).owe (.bankStopDrainEnd b)) →
      (∀ c, c ≠ b → u.bank c = s.bank c) ∧ u.mem = s.mem ∧
      u.memMeta = s.memMeta ∧ u.hostMem = s.hostMem ∧ u.sram = s.sram ∧
      u.cores = s.cores ∧ u.dies = s.dies ∧ u.dirs = s.dirs ∧
      u.net = s.net ∧ u.migr = s.migr ∧ u.cur = s.cur ∧
      u.counter = s.counter ∧ u.reftime = s.reftime ∧ u.modul = s.modul ∧ ∀ a, u.byte a = s.byte a := by
    rintro u (rfl | ⟨k, rfl⟩ | ⟨k, rfl⟩)
    · simp
    · refine ⟨fun c hc => ?_, ?_, ?_, ?_, ?_, ?_, ?_, ?_, ?_, ?_, ?_, ?_, ?_, ?_, fun a => ?_⟩
      · exact State.bank_setBank_ne _ _ hc
      all_goals first | simp; done | exact State.byte_congr (by simp) (by simp) (by simp) (by simp) a
    · refine ⟨fun c hc => ?_, ?_, ?_, ?_, ?_, ?_, ?_, ?_, ?_, ?_, ?_, ?_, ?_, ?_, fun a => ?_⟩
      · rw [State.bank_owe]; exact State.bank_setBank_ne _ _ hc
      all_goals first | simp; done | exact State.byte_congr (by simp) (by simp) (by simp) (by simp) a
  by_cases h : (s.bank b).run = .ending
  · exact main _ (.inl (State.takeTrap_ending s b t h))
  · rcases State.takeTrap_cases s b t h with ⟨-, e⟩ | ⟨-, e⟩
    · exact main _ (.inr (.inl ⟨_, e⟩))
    · exact main _ (.inr (.inr ⟨_, e⟩))

/-- What a trap leaves of the bank that takes it: registers, handles, queues, commands and posted stores. -/
theorem State.takeTrap_bank (s : State) (b : Nat) (t : Trap) :
    let k := s.bank b
    let k' := (s.takeTrap b t).bank b
    k'.regs = k.regs ∧ k'.handles = k.handles ∧ k'.queues = k.queues ∧ k'.cmds = k.cmds ∧ k'.posts = k.posts ∧
    k'.cb = k.cb ∧ k'.tokens = k.tokens ∧ k'.part = k.part ∧ k'.insn = k.insn := by
  by_cases h : (s.bank b).run = .ending
  · simp [State.takeTrap_ending s b t h]
  · rcases State.takeTrap_cases s b t h with ⟨-, e⟩ | ⟨-, e⟩
    · simp [e, Bank.enter]
    · simp [e, Bank.stopWith]

@[simp] theorem trapNow_next (s : State) (t : Trap) : trapNow s t = .next (s.takeTrap s.cur t) := rfl

/-! ### Privileged words -/

theorem privilegedThen_withRights (s : State) (f : State → Out) (h : s.hasRights s.cur = true) :
    privilegedThen s f = f s := by
  simp [privilegedThen, h]

theorem privilegedThen_withoutRights (s : State) (f : State → Out) (h : s.hasRights s.cur = false) :
    privilegedThen s f = .next (s.takeTrap s.cur privileged) := by
  simp [privilegedThen, h]

/-! ### Access through a handle -/

/-- What the use of a handle answers, by the handle's state (R386, R387). -/
theorem State.useHandle_cases (s : State) (b h off : Nat) (need : BitVec 3) :
    let x := (s.bank b).handle h
    let va := x.base.toNat + off
    (x.st = .invalid ∧ s.useHandle b h off need = .trap (accessTrap 5 0 h va)) ∨
    (x.st = .pending ∧ s.useHandle b h off need = .wait s) ∨
    (x.st = .stale ∧ s.useHandle b h off need = .wait (s.startWalk b h)) ∨
    (x.st = .faulted ∧ s.useHandle b h off need = .trap (pageFault x.cause h va)) ∨
    (x.st = .valid ∧ rightsOk need x.intent = false ∧ s.useHandle b h off need = .trap (pageFault 2 h va)) ∨
    (x.st = .valid ∧ rightsOk need x.intent = true ∧ s.useHandle b h off need = .ok x) := by
  simp only [State.useHandle]
  cases hs : ((s.bank b).handle h).st <;> simp

/-- The checks before those for holes pass exactly when the handle is valid with the rights, the bytes lie in its page and the
address is aligned (R219). -/
theorem State.inPage_ok_iff (s : State) (b h off n width : Nat) (need : BitVec 3) (a : Acc) :
    let x := (s.bank b).handle h
    let va := x.base.toNat + off
    s.inPage b h off n width need = .ok a ↔
      x.st = .valid ∧ rightsOk need x.intent = true ∧ va + n ≤ x.page + pageBytes x.size ∧ va % width = 0 ∧
      a = { va := va, pa := leafPa x.leaf x.size va, leaf := x.leaf } := by
  have hc := State.useHandle_cases s b h off need
  simp only at hc ⊢
  unfold State.inPage
  rcases hc with ⟨hs, e⟩ | ⟨hs, e⟩ | ⟨hs, e⟩ | ⟨hs, e⟩ | ⟨hs, hr, e⟩ | ⟨hs, hr, e⟩ <;> simp only [e, hs]
  · simp
  · simp
  · simp
  · simp
  · simp [hr]
  · simp only [hr, true_and]
    split
    · simp; omega
    · split
      · rename_i g; simp [g]
      · rename_i g1 g2
        simp only [Use.ok.injEq]
        exact ⟨fun q => ⟨by omega, by omega, q.symm⟩, fun q => q.2.2.symm⟩

/-- An access finds its address when every 8-byte word of it exists, on a die that exists (R195, R372). -/
theorem State.holeTrap_none_iff (s : State) (b h n : Nat) (a : Acc) :
    s.holeTrap b h n a = none ↔
      (∀ j < (n + 7) / 8, s.missing (bankDie b) (a.pa + 8 * j) = false) ∧ s.noDie (bankDie b) a.pa = false := by
  unfold State.holeTrap
  split
  · rename_i j g
    simp only [reduceCtorEq, false_iff, not_and]
    intro q
    have := q j (List.mem_range.mp (List.mem_of_find?_eq_some g))
    simp [List.find?_some g] at this
  · rename_i g
    have all : ∀ j < (n + 7) / 8, s.missing (bankDie b) (a.pa + 8 * j) = false := fun j hj => by
      simpa using List.find?_eq_none.mp g j (List.mem_range.mpr hj)
    split
    · rename_i d; simp [d]
    · rename_i d; simpa [d] using all

/-- An access is granted exactly when its handle is valid with the rights, its bytes lie in the page, its address is
aligned and every word of it exists on a die that exists (R219). -/
theorem State.access_ok_iff (s : State) (b h off n width : Nat) (need : BitVec 3) (a : Acc) :
    let x := (s.bank b).handle h
    let va := x.base.toNat + off
    let pa := leafPa x.leaf x.size va
    s.access b h off n width need = .ok a ↔
      x.st = .valid ∧ rightsOk need x.intent = true ∧ va + n ≤ x.page + pageBytes x.size ∧ va % width = 0 ∧
      (∀ j < (n + 7) / 8, s.missing (bankDie b) (pa + 8 * j) = false) ∧ s.noDie (bankDie b) pa = false ∧
      a = { va := va, pa := pa, leaf := x.leaf } := by
  have hi := State.inPage_ok_iff s b h off n width need
  simp only at hi ⊢
  have toPage : s.access b h off n width need = .ok a ↔ s.inPage b h off n width need = .ok a ∧ s.holeTrap b h n a = none := by
    unfold State.access
    cases s.inPage b h off n width need with
    | ok c =>
      simp only [Use.ok.injEq]
      split
      · rename_i t g
        simp only [reduceCtorEq, false_iff, not_and]
        rintro rfl
        simp [g]
      · rename_i g
        constructor
        · intro q; cases q; exact ⟨rfl, g⟩
        · intro q; rw [q.1]
    | trap t => simp
    | wait u => simp
  rw [toPage, hi, State.holeTrap_none_iff]
  constructor
  · rintro ⟨⟨h1, h2, h3, h4, rfl⟩, h5, h6⟩; exact ⟨h1, h2, h3, h4, h5, h6, rfl⟩
  · rintro ⟨h1, h2, h3, h4, h5, h6, rfl⟩; exact ⟨⟨h1, h2, h3, h4, rfl⟩, h5, h6⟩

/-- A word whose access is granted goes on with it; a read waits for the fences before it. -/
theorem withAccess_ok (s : State) (h off n width : Nat) (need : BitVec 3) (f : Acc → Out) (a : Acc)
    (g : s.access s.cur h off n width need = .ok a) (d : bit need 0 = false ∨ s.me.fencing = false) :
    withAccess s h off n width need f = f a := by
  rcases d with d | d <;> simp [withAccess, g, d]

/-! ### Queueing a command -/

/-- A command for an engine waits for room and for the fences before it, or is queued last, and the word completes. -/
theorem queueFor_cases (s : State) (e len : Nat) (op : CmdOp) (ext : Ext) :
    ((s.me.cmdFull e = true ∨ s.me.fencing = true) ∧ queueFor s e len op ext = .next s) ∨
    (s.me.cmdFull e = false ∧ s.me.fencing = false ∧ queueFor s e len op ext =
      .next ((s.modMe fun k => (k.enqueue e { op := op, pc := k.pc, ext := ext }).advance len).oweEngine s.cur e)) := by
  unfold queueFor
  cases h : s.me.cmdFull e <;> cases g : s.me.fencing <;> simp [stall]

@[simp] theorem State.bank_oweEngine (s : State) (b e c : Nat) : (s.oweEngine b e).bank c = s.bank c := by
  unfold State.oweEngine; split <;> simp

theorem State.byte_oweEngine (s : State) (b e a : Nat) : (s.oweEngine b e).byte a = s.byte a := by
  unfold State.oweEngine; split <;> simp [State.byte_owe]

end Sys2Proof.Machine
end

