-- ==== Sys2Proof/Laws/Order.lean ====
section
/-! SUPPORT. What the shared operations of the fabric do, said once: units of service, the meter of a port, packets, and writes
of the windows. -/

namespace Sys2Proof.Machine

/-! ### Units of service (R357, R476) -/

/-- No more units start than there are. -/
theorem State.strides_le (s : State) (b part : Nat) (ls : List Leg) : s.strides b part ls ≤ ls.length := by
  induction ls with
  | nil => simp [State.strides]
  | cons l ls ih =>
    unfold State.strides
    split
    · simp only [List.length_cons]; omega
    · simp

/-- All units start in this cycle exactly when each may. -/
theorem State.strides_all (s : State) (b part : Nat) (ls : List Leg) :
    s.strides b part ls = ls.length ↔ ∀ l ∈ ls, s.mayLeg b part l = true := by
  induction ls with
  | nil => simp [State.strides]
  | cons l ls ih =>
    unfold State.strides
    split
    · rename_i h
      simp only [List.length_cons, List.mem_cons, forall_eq_or_imp, h, true_and, ← ih]
      omega
    · rename_i h
      simp [h]

/-- What a partition may not start, because the slot is not its own, it does not start (R356). -/
theorem State.strides_outside (s : State) (b part : Nat) (l : Leg) (ls : List Leg) (h : s.inSlot l.die part = false) :
    s.strides b part (l :: ls) = 0 := by
  simp [State.strides, State.mayLeg, h]

/-- A read that takes its units changes nothing but their count. -/
theorem State.serve_frame (s : State) (agent b part : Nat) (ls : List Leg) :
    (s.serve agent b part ls).2 = { s with passed := (s.serve agent b part ls).2.passed } := by
  unfold State.serve
  dsimp only
  split <;> rfl

/-- A read that has had no unit yet has them all exactly when each may start now. -/
theorem State.serve_fresh (s : State) (agent b part : Nat) (ls : List Leg) (h : Assoc.get 0 s.passed agent = 0) :
    (s.serve agent b part ls).1 = true ↔ ∀ l ∈ ls, s.mayLeg b part l = true := by
  have hle := s.strides_le b part ls
  rw [← State.strides_all]
  unfold State.serve
  simp only [h, List.drop_zero, Nat.zero_add]
  split
  · simp; omega
  · simp; omega

/-! ### The meter of a port (R404, R405) -/

/-- A row that leaves by no port is free to go. -/
@[simp] theorem State.egress_none (s : State) (tag : BitVec 24) : s.egress none tag = .ok s := rfl

/-- An untagged row is free to go. -/
theorem State.egress_untagged (s : State) (port : Option Nat) (tag : BitVec 24) (h : bit tag 23 = false) :
    s.egress port tag = .ok s := by
  cases port <;> simp [State.egress, h]

/-- Rows that leave by no port have all left at once. -/
@[simp] theorem State.leaveAll_none (s : State) (tags : List (BitVec 24)) (n : Nat) : s.leaveAll none tags n = .all s := by
  induction tags generalizing n with
  | nil => rfl
  | cons t ts ih => simp [State.leaveAll, ih]

/-! ### Packets (R322) -/

/-- A new packet's row is tentative, and nothing but the packets changes. -/
theorem State.newPacket_frame (s : State) (w : Who) (sram : Bool) (pa : Nat) (xs : List Byte) (into : Option (Nat × Nat × Nat)) :
    (s.newPacket w sram pa xs into).1 ≠ 0 ∧
    (s.newPacket w sram pa xs into).2 = { s with packets := (s.newPacket w sram pa xs into).2.packets } :=
  ⟨Nat.succ_ne_zero _, rfl⟩

/-- A row on its way changes nothing but the packets. -/
theorem State.carry_frame (s : State) (w : Who) (c : Carried) (dst : Nat) (sram : Bool) (pa : Nat) (xs : List Byte)
    (into : Option (Nat × Nat × Nat)) :
    (s.carry w c dst sram pa xs into).2 = { s with packets := (s.carry w c dst sram pa xs into).2.packets } := by
  unfold State.carry
  dsimp only
  split
  · rfl
  · split <;> rfl

/-! ### Writes of the windows (R303, R346) -/

/-- Leaving an event for later changes nothing but the list of those. -/
theorem State.owe_frame (s : State) (e : Instr) : s.owe e = { s with pending := (s.owe e).pending } := by
  unfold State.owe
  split <;> rfl

/-- A window write is on its way, its event owed, and counted as sent; nothing else changes. -/
theorem State.sendWin_frame (s : State) (w : WinWrite) :
    s.sendWin w = { s with winWrites := s.winWrites ++ [{ w with no := s.nextNo }], sends := s.nextNo,
                           pending := (s.sendWin w).pending } :=
  State.owe_frame _ _

end Sys2Proof.Machine
end

