-- ==== Sys2Proof/Laws/PerInstr.lean ====
section
/-! SUPPORT. The family Words: for each constructor, the word that the encoder gives it lies within its width; an event has
no word. -/

namespace Sys2Proof.Laws

open Sys2Proof Sys2Proof.Machine

/-- The word of an instruction lies within its width. -/
def Words.Statement (i : Instr) : Prop := ∀ n w, encode i = some (n, w) → w < 2 ^ n

/-! ### Widths of the formats -/

theorem b2n_le (b : Bool) : b2n b ≤ 1 := by cases b <;> decide

theorem encR_lt {op func aux : Nat} (d a b : BitVec 5) (ho : op < 64) (hf : func < 64) (hx : aux < 32) :
    encR op d a b func aux < 2 ^ 32 := by
  have := d.isLt; have := a.isLt; have := b.isLt
  unfold encR; omega

theorem encM_lt {op sub : Nat} (r : BitVec 5) (h : BitVec 4) (off : BitVec 12) (ho : op < 64) (hs : sub < 32) :
    encM op r h sub off < 2 ^ 32 := by
  have := r.isLt; have := h.isLt; have := off.isLt
  unfold encM; omega

theorem encA_lt {op aop : Nat} (d : BitVec 5) (h : BitVec 4) (b : BitVec 5) (sz : Bool) (off : BitVec 7) (ho : op < 64)
    (ha : aop < 16) : encA op d h b aop sz off < 2 ^ 32 := by
  have := d.isLt; have := h.isLt; have := b.isLt; have := off.isLt; have := b2n_le sz
  unfold encA; omega

theorem encQ_lt {qf cnt tailf : Nat} (d a : BitVec 5) (q : BitVec 4) (hq : qf < 8) (hc : cnt < 16) (ht : tailf < 2) :
    encQ d a q qf cnt tailf < 2 ^ 32 := by
  have := d.isLt; have := a.isLt; have := q.isLt
  unfold encQ; omega

theorem encC_lt {cbf : Nat} (a b : BitVec 5) (n : BitVec 6) (hc : cbf < 8) : encC a b cbf n < 2 ^ 32 := by
  have := a.isLt; have := b.isLt; have := n.isLt
  unfold encC; omega

theorem encExt_lt (x : Ext) : encExt x < 2 ^ 32 := by
  have := x.push.isLt; have := x.popa.isLt; have := x.popb.isLt; have := x.popc.isLt; have := x.scb.isLt; have := x.wcb.isLt
  have := b2n_le x.sig; have := b2n_le x.wt
  unfold encExt; omega

theorem encSX_lt {op func : Nat} (x : SXWord) (ho : op < 64) (hf : func < 64) : encSX op func x < 2 ^ 64 := by
  have := encR_lt x.d x.a x.b ho hf x.c.isLt
  have := encExt_lt x.ext
  unfold encSX; omega

theorem encV_lt {opc : Nat} (v : VWord) (ho : opc < 256) : encV opc v < 2 ^ 96 := by
  have := v.ty.isLt; have := v.d.isLt; have := v.a.isLt; have := v.b.isLt; have := v.flv.isLt; have := v.msk.isLt
  have := v.rm.isLt; have := v.fx.isLt; have := b2n_le v.ps; have := b2n_le v.fi; have := b2n_le v.li; have := b2n_le v.sat
  unfold encV; omega

theorem encMW_lt {mop : Nat} (m : MWord) (ho : mop < 256) : encMW mop m < 2 ^ 192 := by
  have := m.fmta.isLt; have := m.fmtb.isLt; have := m.aspec.isLt; have := m.bspec.isLt; have := m.kst.isLt
  have := m.sspec.isLt; have := m.flv.isLt; have := b2n_le m.acc; have := b2n_le m.ee; have := b2n_le m.fi; have := b2n_le m.li
  unfold encMW; omega

theorem Words.word {i : Instr} {n w : Nat} (h : encode i = some (n, w)) (hw : w < 2 ^ n) : Words.Statement i := by
  intro n' w' h'
  rw [h] at h'
  cases h'
  exact hw

theorem Words.event {i : Instr} (h : encode i = none) : Words.Statement i := by
  intro n w h'
  rw [h] at h'
  cases h'

/-! ### One lemma per constructor -/

theorem Words.add (d a b : BitVec 5) : Words.Statement (.add d a b) :=
  Words.word (n := 32) rfl (encR_lt d a b (by decide) (by decide) (by decide))

theorem Words.sub (d a b : BitVec 5) : Words.Statement (.sub d a b) :=
  Words.word (n := 32) rfl (encR_lt d a b (by decide) (by decide) (by decide))

theorem Words.mul (d a b : BitVec 5) : Words.Statement (.mul d a b) :=
  Words.word (n := 32) rfl (encR_lt d a b (by decide) (by decide) (by decide))

theorem Words.mulh (d a b : BitVec 5) : Words.Statement (.mulh d a b) :=
  Words.word (n := 32) rfl (encR_lt d a b (by decide) (by decide) (by decide))

theorem Words.mulhz (d a b : BitVec 5) : Words.Statement (.mulhz d a b) :=
  Words.word (n := 32) rfl (encR_lt d a b (by decide) (by decide) (by decide))

theorem Words.div (d a b : BitVec 5) : Words.Statement (.div d a b) :=
  Words.word (n := 32) rfl (encR_lt d a b (by decide) (by decide) (by decide))

theorem Words.divz (d a b : BitVec 5) : Words.Statement (.divz d a b) :=
  Words.word (n := 32) rfl (encR_lt d a b (by decide) (by decide) (by decide))

theorem Words.rem (d a b : BitVec 5) : Words.Statement (.rem d a b) :=
  Words.word (n := 32) rfl (encR_lt d a b (by decide) (by decide) (by decide))

theorem Words.remz (d a b : BitVec 5) : Words.Statement (.remz d a b) :=
  Words.word (n := 32) rfl (encR_lt d a b (by decide) (by decide) (by decide))

theorem Words.and (d a b : BitVec 5) : Words.Statement (.and d a b) :=
  Words.word (n := 32) rfl (encR_lt d a b (by decide) (by decide) (by decide))

theorem Words.or (d a b : BitVec 5) : Words.Statement (.or d a b) :=
  Words.word (n := 32) rfl (encR_lt d a b (by decide) (by decide) (by decide))

theorem Words.xor (d a b : BitVec 5) : Words.Statement (.xor d a b) :=
  Words.word (n := 32) rfl (encR_lt d a b (by decide) (by decide) (by decide))

theorem Words.andn (d a b : BitVec 5) : Words.Statement (.andn d a b) :=
  Words.word (n := 32) rfl (encR_lt d a b (by decide) (by decide) (by decide))

theorem Words.shl (d a b : BitVec 5) : Words.Statement (.shl d a b) :=
  Words.word (n := 32) rfl (encR_lt d a b (by decide) (by decide) (by decide))

theorem Words.shr (d a b : BitVec 5) : Words.Statement (.shr d a b) :=
  Words.word (n := 32) rfl (encR_lt d a b (by decide) (by decide) (by decide))

theorem Words.sra (d a b : BitVec 5) : Words.Statement (.sra d a b) :=
  Words.word (n := 32) rfl (encR_lt d a b (by decide) (by decide) (by decide))

theorem Words.rot (d a b : BitVec 5) : Words.Statement (.rot d a b) :=
  Words.word (n := 32) rfl (encR_lt d a b (by decide) (by decide) (by decide))

theorem Words.fsh (d a b c : BitVec 5) : Words.Statement (.fsh d a b c) :=
  Words.word (n := 32) rfl (encR_lt d a b (by decide) (by decide) (by have := c.isLt; omega))

theorem Words.clz (d a : BitVec 5) : Words.Statement (.clz d a) :=
  Words.word (n := 32) rfl (encR_lt d a 0 (by decide) (by decide) (by decide))

theorem Words.ctz (d a : BitVec 5) : Words.Statement (.ctz d a) :=
  Words.word (n := 32) rfl (encR_lt d a 0 (by decide) (by decide) (by decide))

theorem Words.popc (d a : BitVec 5) : Words.Statement (.popc d a) :=
  Words.word (n := 32) rfl (encR_lt d a 0 (by decide) (by decide) (by decide))

theorem Words.min (d a b : BitVec 5) : Words.Statement (.min d a b) :=
  Words.word (n := 32) rfl (encR_lt d a b (by decide) (by decide) (by decide))

theorem Words.max (d a b : BitVec 5) : Words.Statement (.max d a b) :=
  Words.word (n := 32) rfl (encR_lt d a b (by decide) (by decide) (by decide))

theorem Words.minz (d a b : BitVec 5) : Words.Statement (.minz d a b) :=
  Words.word (n := 32) rfl (encR_lt d a b (by decide) (by decide) (by decide))

theorem Words.maxz (d a b : BitVec 5) : Words.Statement (.maxz d a b) :=
  Words.word (n := 32) rfl (encR_lt d a b (by decide) (by decide) (by decide))

theorem Words.cmp (d a b : BitVec 5) (cc : BitVec 3) : Words.Statement (.cmp d a b cc) :=
  Words.word (n := 32) rfl (encR_lt d a b (by decide) (by decide) (by have := cc.isLt; omega))

theorem Words.sel (d a b c : BitVec 5) : Words.Statement (.sel d a b c) :=
  Words.word (n := 32) rfl (encR_lt d a b (by decide) (by decide) (by have := c.isLt; omega))

theorem Words.addi (d a : BitVec 5) (imm : BitVec 12) : Words.Statement (.addi d a imm) :=
  Words.word (n := 32) rfl (by have := d.isLt; have := a.isLt; have := imm.isLt; omega)

theorem Words.andi (d a : BitVec 5) (imm : BitVec 12) : Words.Statement (.andi d a imm) :=
  Words.word (n := 32) rfl (by have := d.isLt; have := a.isLt; have := imm.isLt; omega)

theorem Words.ori (d a : BitVec 5) (imm : BitVec 12) : Words.Statement (.ori d a imm) :=
  Words.word (n := 32) rfl (by have := d.isLt; have := a.isLt; have := imm.isLt; omega)

theorem Words.xori (d a : BitVec 5) (imm : BitVec 12) : Words.Statement (.xori d a imm) :=
  Words.word (n := 32) rfl (by have := d.isLt; have := a.isLt; have := imm.isLt; omega)

theorem Words.lui (d : BitVec 5) (imm : BitVec 20) : Words.Statement (.lui d imm) :=
  Words.word (n := 32) rfl (by have := d.isLt; have := imm.isLt; omega)

theorem Words.addpc (d : BitVec 5) (imm : BitVec 20) : Words.Statement (.addpc d imm) :=
  Words.word (n := 32) rfl (by have := d.isLt; have := imm.isLt; omega)

theorem Words.b (a b : BitVec 5) (cc : BitVec 3) (off : BitVec 13) : Words.Statement (.b a b cc off) :=
  Words.word (n := 32) rfl (by have := a.isLt; have := b.isLt; have := cc.isLt; have := off.isLt; omega)

theorem Words.j (off : BitVec 21) : Words.Statement (.j off) :=
  Words.word (n := 32) rfl (by have := off.isLt; omega)

theorem Words.jal (d : BitVec 5) (off : BitVec 21) : Words.Statement (.jal d off) :=
  Words.word (n := 32) rfl (by have := d.isLt; have := off.isLt; omega)

theorem Words.jr (d a : BitVec 5) : Words.Statement (.jr d a) :=
  Words.word (n := 32) rfl (encR_lt d a 0 (by decide) (by decide) (by decide))

theorem Words.ld (d : BitVec 5) (h t : BitVec 4) (off : BitVec 12) : Words.Statement (.ld d h t off) :=
  Words.word (n := 32) rfl (encM_lt d h off (by decide) (by have := t.isLt; omega))

theorem Words.lda (d : BitVec 5) (h t : BitVec 4) (off : BitVec 12) : Words.Statement (.lda d h t off) :=
  Words.word (n := 32) rfl (encM_lt d h off (by decide) (by have := t.isLt; omega))

theorem Words.st (a : BitVec 5) (h t : BitVec 4) (off : BitVec 12) : Words.Statement (.st a h t off) :=
  Words.word (n := 32) rfl (encM_lt a h off (by decide) (by have := t.isLt; omega))

theorem Words.stl (a : BitVec 5) (h t : BitVec 4) (off : BitVec 12) : Words.Statement (.stl a h t off) :=
  Words.word (n := 32) rfl (encM_lt a h off (by decide) (by have := t.isLt; omega))

theorem Words.ldm (d : BitVec 5) (h : BitVec 4) (n : BitVec 3) (off : BitVec 12) : Words.Statement (.ldm d h n off) :=
  Words.word (n := 32) rfl (encM_lt d h off (by decide) (by have := n.isLt; omega))

theorem Words.stm (a : BitVec 5) (h : BitVec 4) (n : BitVec 3) (off : BitVec 12) : Words.Statement (.stm a h n off) :=
  Words.word (n := 32) rfl (encM_lt a h off (by decide) (by have := n.isLt; omega))

theorem Words.atom (d : BitVec 5) (h : BitVec 4) (b : BitVec 5) (op : BitVec 4) (sz : Bool) (off : BitVec 7) : Words.Statement (.atom d h b op sz off) :=
  Words.word (n := 32) rfl (encA_lt d h b sz off (by decide) (by have := op.isLt; omega))

theorem Words.cas (d : BitVec 5) (h : BitVec 4) (b : BitVec 5) (sz : Bool) (off : BitVec 7) : Words.Statement (.cas d h b sz off) :=
  Words.word (n := 32) rfl (encA_lt d h b sz off (by decide) (by decide))

theorem Words.fence (h : BitVec 4) : Words.Statement (.fence h) :=
  Words.word (n := 32) rfl (encM_lt 0 h 0 (by decide) (by decide))

theorem Words.fenceIfetch (h : BitVec 4) : Words.Statement (.fenceIfetch h) :=
  Words.word (n := 32) rfl (encM_lt 0 h 0 (by decide) (by decide))

theorem Words.ldq (q : BitVec 5) (h n : BitVec 4) (off : BitVec 12) : Words.Statement (.ldq q h n off) :=
  Words.word (n := 32) rfl (encM_lt q h off (by decide) (by have := n.isLt; omega))

theorem Words.xlate (a : BitVec 5) (h : BitVec 4) (intent : BitVec 3) : Words.Statement (.xlate a h intent) :=
  Words.word (n := 32) rfl (encM_lt a h 0 (by decide) (by have := intent.isLt; omega))

theorem Words.hdrop (h : BitVec 4) : Words.Statement (.hdrop h) :=
  Words.word (n := 32) rfl (encM_lt 0 h 0 (by decide) (by decide))

theorem Words.hinfo (d : BitVec 5) (h : BitVec 4) (k : BitVec 5) : Words.Statement (.hinfo d h k) :=
  Words.word (n := 32) rfl (encM_lt d h 0 (by decide) (by have := k.isLt; omega))

theorem Words.keyld (a : BitVec 5) (h : BitVec 4) (off : BitVec 12) : Words.Statement (.keyld a h off) :=
  Words.word (n := 32) rfl (encM_lt a h off (by decide) (by decide))

theorem Words.qpush (a : BitVec 5) (q : BitVec 4) : Words.Statement (.qpush a q) :=
  Words.word (n := 32) rfl (encQ_lt 0 a q (by decide) (by decide) (by decide))

theorem Words.qpop (d : BitVec 5) (q : BitVec 4) : Words.Statement (.qpop d q) :=
  Words.word (n := 32) rfl (encQ_lt d 0 q (by decide) (by decide) (by decide))

theorem Words.qadvHead (q n : BitVec 4) : Words.Statement (.qadvHead q n) :=
  Words.word (n := 32) rfl (encQ_lt 0 0 q (by decide) (by have := n.isLt; omega) (by decide))

theorem Words.qadvTail (q n : BitVec 4) : Words.Statement (.qadvTail q n) :=
  Words.word (n := 32) rfl (encQ_lt 0 0 q (by decide) (by have := n.isLt; omega) (by decide))

theorem Words.qlvl (d : BitVec 5) (q : BitVec 4) : Words.Statement (.qlvl d q) :=
  Words.word (n := 32) rfl (encQ_lt d 0 q (by decide) (by decide) (by decide))

theorem Words.lnset (lv : BitVec 3) (bsrc : BitVec 2) (sel : BitVec 5) : Words.Statement (.lnset lv bsrc sel) :=
  Words.word (n := 32) rfl (by have := lv.isLt; have := bsrc.isLt; have := sel.isLt; omega)

theorem Words.adset (n : BitVec 5) (h : BitVec 4) (off : BitVec 12) : Words.Statement (.adset n h off) :=
  Words.word (n := 32) rfl (encM_lt n h off (by decide) (by decide))

theorem Words.layout (k : BitVec 5) (h : BitVec 4) (off : BitVec 12) : Words.Statement (.layout k h off) :=
  Words.word (n := 32) rfl (encM_lt k h off (by decide) (by decide))

theorem Words.mblk (h : BitVec 4) (off : BitVec 12) : Words.Statement (.mblk h off) :=
  Words.word (n := 32) rfl (encM_lt 0 h off (by decide) (by decide))

theorem Words.waitAny (d a b : BitVec 5) (n : BitVec 2) : Words.Statement (.waitAny d a b n) :=
  Words.word (n := 32) rfl (encR_lt d a b (by decide) (by decide) (by have := n.isLt; omega))

theorem Words.waitAll (d a b : BitVec 5) (n : BitVec 2) : Words.Statement (.waitAll d a b n) :=
  Words.word (n := 32) rfl (encR_lt d a b (by decide) (by decide) (by have := n.isLt; omega))

theorem Words.sev (a : BitVec 5) : Words.Statement (.sev a) :=
  Words.word (n := 32) rfl (encR_lt 0 a 0 (by decide) (by decide) (by decide))

theorem Words.retire : Words.Statement .retire :=
  Words.word (n := 32) rfl (encR_lt 0 0 0 (by decide) (by decide) (by decide))

theorem Words.yield : Words.Statement .yield :=
  Words.word (n := 32) rfl (encR_lt 0 0 0 (by decide) (by decide) (by decide))

theorem Words.time (d k : BitVec 5) : Words.Statement (.time d k) :=
  Words.word (n := 32) rfl (encR_lt d 0 0 (by decide) (by decide) (by have := k.isLt; omega))

theorem Words.cbarr (n : BitVec 6) : Words.Statement (.cbarr n) :=
  Words.word (n := 32) rfl (encC_lt 0 0 n (by decide))

theorem Words.cbset (a b : BitVec 5) (n : BitVec 6) : Words.Statement (.cbset a b n) :=
  Words.word (n := 32) rfl (encC_lt a b n (by decide))

theorem Words.cbadd (a : BitVec 5) (n : BitVec 6) : Words.Statement (.cbadd a n) :=
  Words.word (n := 32) rfl (encC_lt a 0 n (by decide))

theorem Words.launch (h : BitVec 4) (off : BitVec 12) : Words.Statement (.launch h off) :=
  Words.word (n := 32) rfl (encM_lt 0 h off (by decide) (by decide))

theorem Words.phase (k : BitVec 12) : Words.Statement (.phase k) :=
  Words.word (n := 32) rfl (by have := k.isLt; omega)

theorem Words.trap (k : BitVec 5) : Words.Statement (.trap k) :=
  Words.word (n := 32) rfl (encR_lt 0 0 0 (by decide) (by decide) (by have := k.isLt; omega))

theorem Words.eret : Words.Statement .eret :=
  Words.word (n := 32) rfl (encR_lt 0 0 0 (by decide) (by decide) (by decide))

theorem Words.halt : Words.Statement .halt :=
  Words.word (n := 32) rfl (encR_lt 0 0 0 (by decide) (by decide) (by decide))

theorem Words.bkpt : Words.Statement .bkpt :=
  Words.word (n := 32) rfl (encR_lt 0 0 0 (by decide) (by decide) (by decide))

theorem Words.shoot (a : BitVec 5) : Words.Statement (.shoot a) :=
  Words.word (n := 32) rfl (encR_lt 0 a 0 (by decide) (by decide) (by decide))

theorem Words.keydrop (a : BitVec 5) : Words.Statement (.keydrop a) :=
  Words.word (n := 32) rfl (encR_lt 0 a 0 (by decide) (by decide) (by decide))

theorem Words.srd (d : BitVec 5) (n : BitVec 12) : Words.Statement (.srd d n) :=
  Words.word (n := 32) rfl (by have := d.isLt; have := n.isLt; omega)

theorem Words.swr (a : BitVec 5) (n : BitVec 12) : Words.Statement (.swr a n) :=
  Words.word (n := 32) rfl (by have := a.isLt; have := n.isLt; omega)

theorem Words.run (x : SXWord) : Words.Statement (.run x) :=
  Words.word (n := 64) rfl (encSX_lt _ (by decide) (by decide))

theorem Words.cpy (x : SXWord) : Words.Statement (.cpy x) :=
  Words.word (n := 64) rfl (encSX_lt _ (by decide) (by decide))

theorem Words.xform (x : SXWord) : Words.Statement (.xform x) :=
  Words.word (n := 64) rfl (encSX_lt _ (by decide) (by decide))

theorem Words.attns (x : SXWord) : Words.Statement (.attns x) :=
  Words.word (n := 64) rfl (encSX_lt _ (by decide) (by decide))

theorem Words.sqopen (x : SXWord) : Words.Statement (.sqopen x) :=
  Words.word (n := 64) rfl (encSX_lt _ (by decide) (by decide))

theorem Words.sqapp (x : SXWord) : Words.Statement (.sqapp x) :=
  Words.word (n := 64) rfl (encSX_lt _ (by decide) (by decide))

theorem Words.sqfork (x : SXWord) : Words.Statement (.sqfork x) :=
  Words.word (n := 64) rfl (encSX_lt _ (by decide) (by decide))

theorem Words.sqtrunc (x : SXWord) : Words.Statement (.sqtrunc x) :=
  Words.word (n := 64) rfl (encSX_lt _ (by decide) (by decide))

theorem Words.sqpark (x : SXWord) : Words.Statement (.sqpark x) :=
  Words.word (n := 64) rfl (encSX_lt _ (by decide) (by decide))

theorem Words.sqwake (x : SXWord) : Words.Statement (.sqwake x) :=
  Words.word (n := 64) rfl (encSX_lt _ (by decide) (by decide))

theorem Words.sqclose (x : SXWord) : Words.Statement (.sqclose x) :=
  Words.word (n := 64) rfl (encSX_lt _ (by decide) (by decide))

theorem Words.sqinfo (x : SXWord) : Words.Statement (.sqinfo x) :=
  Words.word (n := 64) rfl (encSX_lt _ (by decide) (by decide))

theorem Words.attnd (x : SXWord) : Words.Statement (.attnd x) :=
  Words.word (n := 64) rfl (encSX_lt _ (by decide) (by decide))

theorem Words.rdx (x : SXWord) : Words.Statement (.rdx x) :=
  Words.word (n := 64) rfl (encSX_lt _ (by decide) (by decide))

theorem Words.coll (x : SXWord) : Words.Statement (.coll x) :=
  Words.word (n := 64) rfl (encSX_lt _ (by decide) (by decide))

theorem Words.ring (x : SXWord) : Words.Statement (.ring x) :=
  Words.word (n := 64) rfl (encSX_lt _ (by decide) (by decide))

theorem Words.plough (x : SXWord) : Words.Statement (.plough x) :=
  Words.word (n := 64) rfl (encSX_lt _ (by decide) (by decide))

theorem Words.tokp (x : SXWord) : Words.Statement (.tokp x) :=
  Words.word (n := 64) rfl (encSX_lt _ (by decide) (by decide))

theorem Words.vnop : Words.Statement .vnop :=
  Words.word (n := 96) rfl (by decide)

theorem Words.vbrk (w : VWord) : Words.Statement (.vbrk w) :=
  Words.word (n := 96) rfl (encV_lt _ (by decide))

theorem Words.vend (w : VWord) : Words.Statement (.vend w) :=
  Words.word (n := 96) rfl (encV_lt _ (by decide))

theorem Words.vtripMrg (w : VWord) : Words.Statement (.vtripMrg w) :=
  Words.word (n := 96) rfl (encV_lt _ (by decide))

theorem Words.vtripAcc (w : VWord) : Words.Statement (.vtripAcc w) :=
  Words.word (n := 96) rfl (encV_lt _ (by decide))

theorem Words.vtripProb (w : VWord) : Words.Statement (.vtripProb w) :=
  Words.word (n := 96) rfl (encV_lt _ (by decide))

theorem Words.vmask (w : VWord) : Words.Statement (.vmask w) :=
  Words.word (n := 96) rfl (encV_lt _ (by decide))

theorem Words.vadd (w : VWord) : Words.Statement (.vadd w) :=
  Words.word (n := 96) rfl (encV_lt _ (by decide))

theorem Words.vsub (w : VWord) : Words.Statement (.vsub w) :=
  Words.word (n := 96) rfl (encV_lt _ (by decide))

theorem Words.vmul (w : VWord) : Words.Statement (.vmul w) :=
  Words.word (n := 96) rfl (encV_lt _ (by decide))

theorem Words.vfma (w : VWord) : Words.Statement (.vfma w) :=
  Words.word (n := 96) rfl (encV_lt _ (by decide))

theorem Words.vfms (w : VWord) : Words.Statement (.vfms w) :=
  Words.word (n := 96) rfl (encV_lt _ (by decide))

theorem Words.vmin (w : VWord) : Words.Statement (.vmin w) :=
  Words.word (n := 96) rfl (encV_lt _ (by decide))

theorem Words.vmax (w : VWord) : Words.Statement (.vmax w) :=
  Words.word (n := 96) rfl (encV_lt _ (by decide))

theorem Words.vabs (w : VWord) : Words.Statement (.vabs w) :=
  Words.word (n := 96) rfl (encV_lt _ (by decide))

theorem Words.vneg (w : VWord) : Words.Statement (.vneg w) :=
  Words.word (n := 96) rfl (encV_lt _ (by decide))

theorem Words.vrcp (w : VWord) : Words.Statement (.vrcp w) :=
  Words.word (n := 96) rfl (encV_lt _ (by decide))

theorem Words.vrsq (w : VWord) : Words.Statement (.vrsq w) :=
  Words.word (n := 96) rfl (encV_lt _ (by decide))

theorem Words.vexp (w : VWord) : Words.Statement (.vexp w) :=
  Words.word (n := 96) rfl (encV_lt _ (by decide))

theorem Words.vexpSub (w : VWord) : Words.Statement (.vexpSub w) :=
  Words.word (n := 96) rfl (encV_lt _ (by decide))

theorem Words.vtab (w : VWord) : Words.Statement (.vtab w) :=
  Words.word (n := 96) rfl (encV_lt _ (by decide))

theorem Words.vtload (w : VWord) : Words.Statement (.vtload w) :=
  Words.word (n := 96) rfl (encV_lt _ (by decide))

theorem Words.vcvt (w : VWord) : Words.Statement (.vcvt w) :=
  Words.word (n := 96) rfl (encV_lt _ (by decide))

theorem Words.vqnt (w : VWord) : Words.Statement (.vqnt w) :=
  Words.word (n := 96) rfl (encV_lt _ (by decide))

theorem Words.vdqnt (w : VWord) : Words.Statement (.vdqnt w) :=
  Words.word (n := 96) rfl (encV_lt _ (by decide))

theorem Words.vand (w : VWord) : Words.Statement (.vand w) :=
  Words.word (n := 96) rfl (encV_lt _ (by decide))

theorem Words.vor (w : VWord) : Words.Statement (.vor w) :=
  Words.word (n := 96) rfl (encV_lt _ (by decide))

theorem Words.vxor (w : VWord) : Words.Statement (.vxor w) :=
  Words.word (n := 96) rfl (encV_lt _ (by decide))

theorem Words.vnot (w : VWord) : Words.Statement (.vnot w) :=
  Words.word (n := 96) rfl (encV_lt _ (by decide))

theorem Words.vshl (w : VWord) : Words.Statement (.vshl w) :=
  Words.word (n := 96) rfl (encV_lt _ (by decide))

theorem Words.vshr (w : VWord) : Words.Statement (.vshr w) :=
  Words.word (n := 96) rfl (encV_lt _ (by decide))

theorem Words.vsra (w : VWord) : Words.Statement (.vsra w) :=
  Words.word (n := 96) rfl (encV_lt _ (by decide))

theorem Words.vfsh (w : VWord) : Words.Statement (.vfsh w) :=
  Words.word (n := 96) rfl (encV_lt _ (by decide))

theorem Words.vclz (w : VWord) : Words.Statement (.vclz w) :=
  Words.word (n := 96) rfl (encV_lt _ (by decide))

theorem Words.vpopc (w : VWord) : Words.Statement (.vpopc w) :=
  Words.word (n := 96) rfl (encV_lt _ (by decide))

theorem Words.vpackWrap (w : VWord) : Words.Statement (.vpackWrap w) :=
  Words.word (n := 96) rfl (encV_lt _ (by decide))

theorem Words.vpackClamp (w : VWord) : Words.Statement (.vpackClamp w) :=
  Words.word (n := 96) rfl (encV_lt _ (by decide))

theorem Words.vpackBits (w : VWord) : Words.Statement (.vpackBits w) :=
  Words.word (n := 96) rfl (encV_lt _ (by decide))

theorem Words.vunpackLo (w : VWord) : Words.Statement (.vunpackLo w) :=
  Words.word (n := 96) rfl (encV_lt _ (by decide))

theorem Words.vunpackHi (w : VWord) : Words.Statement (.vunpackHi w) :=
  Words.word (n := 96) rfl (encV_lt _ (by decide))

theorem Words.vunpackBits (w : VWord) : Words.Statement (.vunpackBits w) :=
  Words.word (n := 96) rfl (encV_lt _ (by decide))

theorem Words.vcmp (w : VWord) : Words.Statement (.vcmp w) :=
  Words.word (n := 96) rfl (encV_lt _ (by decide))

theorem Words.vsel (w : VWord) : Words.Statement (.vsel w) :=
  Words.word (n := 96) rfl (encV_lt _ (by decide))

theorem Words.vcommit (w : VWord) : Words.Statement (.vcommit w) :=
  Words.word (n := 96) rfl (encV_lt _ (by decide))

theorem Words.vred (w : VWord) : Words.Statement (.vred w) :=
  Words.word (n := 96) rfl (encV_lt _ (by decide))

theorem Words.vscan (w : VWord) : Words.Statement (.vscan w) :=
  Words.word (n := 96) rfl (encV_lt _ (by decide))

theorem Words.vgmax (w : VWord) : Words.Statement (.vgmax w) :=
  Words.word (n := 96) rfl (encV_lt _ (by decide))

theorem Words.vperm (w : VWord) : Words.Statement (.vperm w) :=
  Words.word (n := 96) rfl (encV_lt _ (by decide))

theorem Words.vbcast (w : VWord) : Words.Statement (.vbcast w) :=
  Words.word (n := 96) rfl (encV_lt _ (by decide))

theorem Words.viota (w : VWord) : Words.Statement (.viota w) :=
  Words.word (n := 96) rfl (encV_lt _ (by decide))

theorem Words.vrotm (w : VWord) : Words.Statement (.vrotm w) :=
  Words.word (n := 96) rfl (encV_lt _ (by decide))

theorem Words.vld (w : VWord) : Words.Statement (.vld w) :=
  Words.word (n := 96) rfl (encV_lt _ (by decide))

theorem Words.vldIdx (w : VWord) : Words.Statement (.vldIdx w) :=
  Words.word (n := 96) rfl (encV_lt _ (by decide))

theorem Words.vst (w : VWord) : Words.Statement (.vst w) :=
  Words.word (n := 96) rfl (encV_lt _ (by decide))

theorem Words.vstIdx (w : VWord) : Words.Statement (.vstIdx w) :=
  Words.word (n := 96) rfl (encV_lt _ (by decide))

theorem Words.vstmBits (w : VWord) : Words.Statement (.vstmBits w) :=
  Words.word (n := 96) rfl (encV_lt _ (by decide))

theorem Words.vstmRng (w : VWord) : Words.Statement (.vstmRng w) :=
  Words.word (n := 96) rfl (encV_lt _ (by decide))

theorem Words.vxq (w : VWord) : Words.Statement (.vxq w) :=
  Words.word (n := 96) rfl (encV_lt _ (by decide))

theorem Words.vmov (w : VWord) : Words.Statement (.vmov w) :=
  Words.word (n := 96) rfl (encV_lt _ (by decide))

theorem Words.mma (w : MWord) : Words.Statement (.mma w) :=
  Words.word (n := 192) rfl (encMW_lt _ (by decide))

theorem Words.mmax (w : MWord) : Words.Statement (.mmax w) :=
  Words.word (n := 192) rfl (encMW_lt _ (by decide))

theorem Words.mzero (w : MWord) : Words.Statement (.mzero w) :=
  Words.word (n := 192) rfl (encMW_lt _ (by decide))

theorem Words.mload (w : MWord) : Words.Statement (.mload w) :=
  Words.word (n := 192) rfl (encMW_lt _ (by decide))

theorem Words.mstore (w : MWord) : Words.Statement (.mstore w) :=
  Words.word (n := 192) rfl (encMW_lt _ (by decide))

theorem Words.mrow (w : MWord) : Words.Statement (.mrow w) :=
  Words.word (n := 192) rfl (encMW_lt _ (by decide))

theorem Words.medge (w : MWord) : Words.Statement (.medge w) :=
  Words.word (n := 192) rfl (encMW_lt _ (by decide))

theorem Words.mtrans (w : MWord) : Words.Statement (.mtrans w) :=
  Words.word (n := 192) rfl (encMW_lt _ (by decide))

theorem Words.bundleIssue (b : Nat) : Words.Statement (.bundleIssue b) :=
  Words.event rfl

theorem Words.blockStart (b : Nat) : Words.Statement (.blockStart b) :=
  Words.event rfl

theorem Words.loopBoundPop (b : Nat) : Words.Statement (.loopBoundPop b) :=
  Words.event rfl

theorem Words.blockRetire (b : Nat) : Words.Statement (.blockRetire b) :=
  Words.event rfl

theorem Words.blockMigrate (b : Nat) : Words.Statement (.blockMigrate b) :=
  Words.event rfl

theorem Words.blockMigrateReturn (b : Nat) : Words.Statement (.blockMigrateReturn b) :=
  Words.event rfl

theorem Words.mwordComplete (b : Nat) : Words.Statement (.mwordComplete b) :=
  Words.event rfl

theorem Words.copyStart (b : Nat) : Words.Statement (.copyStart b) :=
  Words.event rfl

theorem Words.copyRetire (b : Nat) : Words.Statement (.copyRetire b) :=
  Words.event rfl

theorem Words.multicastRowLand (b : Nat) : Words.Statement (.multicastRowLand b) :=
  Words.event rfl

theorem Words.transformStart (cl eng part : Nat) : Words.Statement (.transformStart cl eng part) :=
  Words.event rfl

theorem Words.transformRetire (cl eng : Nat) : Words.Statement (.transformRetire cl eng) :=
  Words.event rfl

theorem Words.completionRecordAppend (i : Nat) : Words.Statement (.completionRecordAppend i) :=
  Words.event rfl

theorem Words.sheafCommandAccept (b : Nat) (walker : Bool) : Words.Statement (.sheafCommandAccept b walker) :=
  Words.event rfl

theorem Words.slabRelocationStep (seq layer : Nat) : Words.Statement (.slabRelocationStep seq layer) :=
  Words.event rfl

theorem Words.walkerRetire (b : Nat) : Words.Statement (.walkerRetire b) :=
  Words.event rfl

theorem Words.gleanerBlock (b : Nat) : Words.Statement (.gleanerBlock b) :=
  Words.event rfl

theorem Words.attndRetire (b : Nat) : Words.Statement (.attndRetire b) :=
  Words.event rfl

theorem Words.rdxRetire (b : Nat) : Words.Statement (.rdxRetire b) :=
  Words.event rfl

theorem Words.collectiveInstanceStart (gid nth : Nat) : Words.Statement (.collectiveInstanceStart gid nth) :=
  Words.event rfl

theorem Words.collectiveRetire (b : Nat) : Words.Statement (.collectiveRetire b) :=
  Words.event rfl

theorem Words.ringTripleArrival (gid nth owner shard : Nat) : Words.Statement (.ringTripleArrival gid nth owner shard) :=
  Words.event rfl

theorem Words.ringFinalTimeout (gid nth owner : Nat) : Words.Statement (.ringFinalTimeout gid nth owner) :=
  Words.event rfl

theorem Words.ploughCountExchange (gid nth : Nat) : Words.Statement (.ploughCountExchange gid nth) :=
  Words.event rfl

theorem Words.ploughRetire (b : Nat) : Words.Statement (.ploughRetire b) :=
  Words.event rfl

theorem Words.launchProcess (die : Nat) : Words.Statement (.launchProcess die) :=
  Words.event rfl

theorem Words.notifyRegisterWrite (q : Nat) (v : Word) : Words.Statement (.notifyRegisterWrite q v) :=
  Words.event rfl

theorem Words.mapperQueueMap (slot : Nat) : Words.Statement (.mapperQueueMap slot) :=
  Words.event rfl

theorem Words.mapperRecordTake (slot : Nat) : Words.Statement (.mapperRecordTake slot) :=
  Words.event rfl

theorem Words.bindRecordWrite (die rec : Nat) (v : BitVec 256) : Words.Statement (.bindRecordWrite die rec v) :=
  Words.event rfl

theorem Words.taskStart (die rec : Nat) : Words.Statement (.taskStart die rec) :=
  Words.event rfl

theorem Words.phaseRendezvous (die rec : Nat) : Words.Statement (.phaseRendezvous die rec) :=
  Words.event rfl

theorem Words.retireComplete (b : Nat) : Words.Statement (.retireComplete b) :=
  Words.event rfl

theorem Words.pslotWrite (die part : Nat) (v : Word) : Words.Statement (.pslotWrite die part v) :=
  Words.event rfl

theorem Words.frameBoundary (die : Nat) : Words.Statement (.frameBoundary die) :=
  Words.event rfl

theorem Words.serviceUnitStart (die res part len : Nat) : Words.Statement (.serviceUnitStart die res part len) :=
  Words.event rfl

theorem Words.acmodeWrite (cl : Nat) (v : Word) : Words.Statement (.acmodeWrite cl v) :=
  Words.event rfl

theorem Words.acmodeTakeEffect (cl : Nat) : Words.Statement (.acmodeTakeEffect cl) :=
  Words.event rfl

theorem Words.waitConditionMet (b : Nat) : Words.Statement (.waitConditionMet b) :=
  Words.event rfl

theorem Words.waitTimeout (b : Nat) : Words.Statement (.waitTimeout b) :=
  Words.event rfl

theorem Words.eventArrival (i : Nat) : Words.Statement (.eventArrival i) :=
  Words.event rfl

theorem Words.barrierWindowAccess (i : Nat) : Words.Statement (.barrierWindowAccess i) :=
  Words.event rfl

theorem Words.homeAtomic (i : Nat) : Words.Statement (.homeAtomic i) :=
  Words.event rfl

theorem Words.storeAck (b i : Nat) : Words.Statement (.storeAck b i) :=
  Words.event rfl

theorem Words.loadDataReturn (b : Nat) : Words.Statement (.loadDataReturn b) :=
  Words.event rfl

theorem Words.ldqRowArrival (b i : Nat) : Words.Statement (.ldqRowArrival b i) :=
  Words.event rfl

theorem Words.pageWalkComplete (b h : Nat) : Words.Statement (.pageWalkComplete b h) :=
  Words.event rfl

theorem Words.shootDieArrival (b die : Nat) : Words.Statement (.shootDieArrival b die) :=
  Words.event rfl

theorem Words.shootComplete (b : Nat) : Words.Statement (.shootComplete b) :=
  Words.event rfl

theorem Words.keyRequestServe (die : Nat) : Words.Statement (.keyRequestServe die) :=
  Words.event rfl

theorem Words.accessLogAppend : Words.Statement .accessLogAppend :=
  Words.event rfl

theorem Words.logreqWrite (v : Word) : Words.Statement (.logreqWrite v) :=
  Words.event rfl

theorem Words.attestationRequest (nonce : BitVec 256) : Words.Statement (.attestationRequest nonce) :=
  Words.event rfl

theorem Words.egressCreditRequest (port die key : Nat) : Words.Statement (.egressCreditRequest port die key) :=
  Words.event rfl

theorem Words.wakeWrite (seq : Nat) (v : Word) : Words.Statement (.wakeWrite seq v) :=
  Words.event rfl

theorem Words.wakeStage1End (seq : Nat) : Words.Statement (.wakeStage1End seq) :=
  Words.event rfl

theorem Words.wakeStage2End (seq : Nat) : Words.Statement (.wakeStage2End seq) :=
  Words.event rfl

theorem Words.sheafAgeThreshold (id : Nat) : Words.Statement (.sheafAgeThreshold id) :=
  Words.event rfl

theorem Words.sheafMoveComplete (id : Nat) : Words.Statement (.sheafMoveComplete id) :=
  Words.event rfl

theorem Words.lendGrant (lender borrower frames : Nat) : Words.Statement (.lendGrant lender borrower frames) :=
  Words.event rfl

theorem Words.lendRecall (lender borrower : Nat) : Words.Statement (.lendRecall lender borrower) :=
  Words.event rfl

theorem Words.cohGetS (core line : Nat) : Words.Statement (.cohGetS core line) :=
  Words.event rfl

theorem Words.cohGetX (core line : Nat) : Words.Statement (.cohGetX core line) :=
  Words.event rfl

theorem Words.cohUpg (core line : Nat) : Words.Statement (.cohUpg core line) :=
  Words.event rfl

theorem Words.cohPut (core line : Nat) : Words.Statement (.cohPut core line) :=
  Words.event rfl

theorem Words.cohAck (core line : Nat) : Words.Statement (.cohAck core line) :=
  Words.event rfl

theorem Words.cohDO (core line : Nat) : Words.Statement (.cohDO core line) :=
  Words.event rfl

theorem Words.cohDS (core line : Nat) : Words.Statement (.cohDS core line) :=
  Words.event rfl

theorem Words.cohDW (core line : Nat) : Words.Statement (.cohDW core line) :=
  Words.event rfl

theorem Words.cohDX (core line : Nat) : Words.Statement (.cohDX core line) :=
  Words.event rfl

theorem Words.writeThrough (core line : Nat) : Words.Statement (.writeThrough core line) :=
  Words.event rfl

theorem Words.bulkWrite (i : Nat) : Words.Statement (.bulkWrite i) :=
  Words.event rfl

theorem Words.bulkRead (i : Nat) : Words.Statement (.bulkRead i) :=
  Words.event rfl

theorem Words.cohDataS (core line : Nat) : Words.Statement (.cohDataS core line) :=
  Words.event rfl

theorem Words.cohDataE (core line : Nat) : Words.Statement (.cohDataE core line) :=
  Words.event rfl

theorem Words.cohDataX (core line : Nat) : Words.Statement (.cohDataX core line) :=
  Words.event rfl

theorem Words.cohGrant (core line : Nat) : Words.Statement (.cohGrant core line) :=
  Words.event rfl

theorem Words.cohFwdS (core line : Nat) : Words.Statement (.cohFwdS core line) :=
  Words.event rfl

theorem Words.cohFwdX (core line : Nat) : Words.Statement (.cohFwdX core line) :=
  Words.event rfl

theorem Words.cohInv (core line : Nat) : Words.Statement (.cohInv core line) :=
  Words.event rfl

theorem Words.cohPeek (core line : Nat) : Words.Statement (.cohPeek core line) :=
  Words.event rfl

theorem Words.cohPutAck (core line : Nat) : Words.Statement (.cohPutAck core line) :=
  Words.event rfl

theorem Words.cacheFill (core line : Nat) : Words.Statement (.cacheFill core line) :=
  Words.event rfl

theorem Words.linkTagFail (pkt : Nat) : Words.Statement (.linkTagFail pkt) :=
  Words.event rfl

theorem Words.packetFinal (pkt : Nat) : Words.Statement (.packetFinal pkt) :=
  Words.event rfl

theorem Words.refusal (src : Nat) : Words.Statement (.refusal src) :=
  Words.event rfl

theorem Words.reissue (src : Nat) : Words.Statement (.reissue src) :=
  Words.event rfl

theorem Words.migrationRegisterWrite (old new size : Nat) : Words.Statement (.migrationRegisterWrite old new size) :=
  Words.event rfl

theorem Words.copyPassEnd (page : Nat) : Words.Statement (.copyPassEnd page) :=
  Words.event rfl

theorem Words.recallComplete (page : Nat) : Words.Statement (.recallComplete page) :=
  Words.event rfl

theorem Words.recopyEnd (page : Nat) : Words.Statement (.recopyEnd page) :=
  Words.event rfl

theorem Words.migrationGraceEnd (page : Nat) : Words.Statement (.migrationGraceEnd page) :=
  Words.event rfl

theorem Words.reftimeBeacon (ticks : Nat) : Words.Statement (.reftimeBeacon ticks) :=
  Words.event rfl

theorem Words.asyncTrapTaken (b : Nat) : Words.Statement (.asyncTrapTaken b) :=
  Words.event rfl

theorem Words.handlerEntry (b : Nat) : Words.Statement (.handlerEntry b) :=
  Words.event rfl

theorem Words.bankStopDrainEnd (b : Nat) : Words.Statement (.bankStopDrainEnd b) :=
  Words.event rfl

theorem Words.bctlResume (b : Nat) : Words.Statement (.bctlResume b) :=
  Words.event rfl

theorem Words.bctlEndTask (b : Nat) : Words.Statement (.bctlEndTask b) :=
  Words.event rfl

theorem Words.bctlEnterHandler (b : Nat) : Words.Statement (.bctlEnterHandler b) :=
  Words.event rfl

theorem Words.taskEndComplete (die rec : Nat) : Words.Statement (.taskEndComplete die rec) :=
  Words.event rfl

theorem Words.pctlSave (b : Nat) (v : Word) : Words.Statement (.pctlSave b v) :=
  Words.event rfl

theorem Words.pctlRestore (b : Nat) (v : Word) : Words.Statement (.pctlRestore b v) :=
  Words.event rfl

theorem Words.saveComplete (b : Nat) : Words.Statement (.saveComplete b) :=
  Words.event rfl

theorem Words.restoreComplete (b : Nat) : Words.Statement (.restoreComplete b) :=
  Words.event rfl

theorem Words.blockWatchdog (b : Nat) : Words.Statement (.blockWatchdog b) :=
  Words.event rfl

theorem Words.savedContextArrival (b : Nat) : Words.Statement (.savedContextArrival b) :=
  Words.event rfl

theorem Words.debugAttach (core : Nat) : Words.Statement (.debugAttach core) :=
  Words.event rfl

theorem Words.debugHaltRequest (b : Nat) : Words.Statement (.debugHaltRequest b) :=
  Words.event rfl

theorem Words.debugWindowWrite (b : Nat) (item : DebugItem) : Words.Statement (.debugWindowWrite b item) :=
  Words.event rfl

theorem Words.correctedError (die kind idx : Nat) : Words.Statement (.correctedError die kind idx) :=
  Words.event rfl

theorem Words.rasWindowEnd (die : Nat) : Words.Statement (.rasWindowEnd die) :=
  Words.event rfl

theorem Words.hostMemoryAccess (off : Nat) (data : List Byte) (len : Nat) : Words.Statement (.hostMemoryAccess off data len) :=
  Words.event rfl

theorem Words.cxlDeviceAccess (port addr : Nat) (data : List Byte) (len : Nat) : Words.Statement (.cxlDeviceAccess port addr data len) :=
  Words.event rfl

theorem Words.pwrlimWrite (v : Word) : Words.Statement (.pwrlimWrite v) :=
  Words.event rfl

theorem Words.configRegisterWrite (die : Nat) (reg : CfgReg) (v : Word) : Words.Statement (.configRegisterWrite die reg v) :=
  Words.event rfl

theorem Words.powerOn : Words.Statement .powerOn :=
  Words.event rfl

theorem Words.perstDeassert : Words.Statement .perstDeassert :=
  Words.event rfl

theorem Words.hotReset : Words.Statement .hotReset :=
  Words.event rfl

theorem Words.bringUpStageEnd (ok : Bool) : Words.Statement (.bringUpStageEnd ok) :=
  Words.event rfl

theorem Words.readySet : Words.Statement .readySet :=
  Words.event rfl

theorem Words.bundleCopyComplete (b : Nat) : Words.Statement (.bundleCopyComplete b) :=
  Words.event rfl

theorem Words.globalSramHomeAccess (i : Nat) : Words.Statement (.globalSramHomeAccess i) :=
  Words.event rfl

theorem Words.pairedWindowStart (b : Nat) : Words.Statement (.pairedWindowStart b) :=
  Words.event rfl

theorem Words.meterCreditAgeOut (die key : Nat) : Words.Statement (.meterCreditAgeOut die key) :=
  Words.event rfl

end Sys2Proof.Laws
end

