-- ==== Sys2Proof/Laws/Save.lean ====
section
/-! SUPPORT. Laws of save areas: what a row reads after rows of an area are written, that the items read from an area
depend only on its editable rows, and what may not be edited. -/

namespace Sys2Proof.Machine

@[simp] theorem State.frameOf_putAreaRows (s : State) (area : Nat) (xs : List (Nat × Row × Bool)) :
    (s.putAreaRows area xs).frameOf = s.frameOf := by
  induction xs generalizing s with
  | nil => rfl
  | cons x xs ih =>
    obtain ⟨r, v, p⟩ := x
    rw [State.putAreaRows, ih, State.frameOf_writeHome]

@[simp] theorem State.bank_writeHome (s : State) (pa : Nat) (xs : List Byte) (key : Nat) (p : Bool) (t : BitVec 24) :
    (s.writeHome pa xs key p t).banks = s.banks := by
  rw [State.writeHome, State.setBytes, State.settle]
  split <;> rfl

@[simp] theorem State.banks_putAreaRows (s : State) (area : Nat) (xs : List (Nat × Row × Bool)) :
    (s.putAreaRows area xs).banks = s.banks := by
  induction xs generalizing s with
  | nil => rfl
  | cons x xs ih =>
    obtain ⟨r, v, p⟩ := x
    rw [State.putAreaRows, ih, State.bank_writeHome]

@[simp] theorem State.dies_writeHome (s : State) (pa : Nat) (xs : List Byte) (key : Nat) (p : Bool) (t : BitVec 24) :
    (s.writeHome pa xs key p t).dies = s.dies := by
  rw [State.writeHome, State.setBytes, State.settle]
  split <;> rfl

@[simp] theorem State.dies_putAreaRows (s : State) (area : Nat) (xs : List (Nat × Row × Bool)) :
    (s.putAreaRows area xs).dies = s.dies := by
  induction xs generalizing s with
  | nil => rfl
  | cons x xs ih =>
    obtain ⟨r, v, p⟩ := x
    rw [State.putAreaRows, ih, State.dies_writeHome]

/-- The row that was written last reads as written. -/
theorem State.areaRow_writeHome_same {s : State} (h : ∀ a, s.frameOf a = a) (area r : Nat) (ha : area % 256 = 0) (v : Row) (p : Bool) :
    (s.writeHome (area + 256 * r) (natLE 256 v.toNat) 0 p 0).areaRow area r = (v.toNat, p) := by
  have e : area + 256 * r = 256 * (area / 256 + r) := by omega
  rw [State.areaRow, e, State.readHome_writeHome_row h _ _ (natLE_length 256 _), leNat_natLE, Nat.mod_eq_of_lt]
  exact v.isLt

/-- Another row reads as before. -/
theorem State.areaRow_writeHome_ne {s : State} (h : ∀ a, s.frameOf a = a) (area r q : Nat) (ha : area % 256 = 0) (hq : q ≠ r)
    (v : Row) (p : Bool) : (s.writeHome (area + 256 * r) (natLE 256 v.toNat) 0 p 0).areaRow area q = s.areaRow area q := by
  rw [State.areaRow, State.readHome_writeHome_ne h _ _ (by rw [natLE_length]; omega) _ _ _ _ _ _ (by omega) (by omega)]
  rfl

/-- A row that none of the rows written names reads as before. -/
theorem State.areaRow_putAreaRows_ne {s : State} (h : ∀ a, s.frameOf a = a) (area q : Nat) (ha : area % 256 = 0)
    (xs : List (Nat × Row × Bool)) (hq : ∀ x ∈ xs, x.1 ≠ q) : (s.putAreaRows area xs).areaRow area q = s.areaRow area q := by
  induction xs generalizing s with
  | nil => rfl
  | cons x xs ih =>
    obtain ⟨r, v, p⟩ := x
    rw [State.putAreaRows, ih (by simpa using h) fun y hy => hq y (List.mem_cons_of_mem _ hy),
      State.areaRow_writeHome_ne h area r q ha (Ne.symm (hq _ List.mem_cons_self))]

/-- A row that one of the rows written names reads as written. -/
theorem State.areaRow_putAreaRows {s : State} (h : ∀ a, s.frameOf a = a) (area : Nat) (ha : area % 256 = 0)
    (xs : List (Nat × Row × Bool)) (nd : (xs.map fun x => x.1).Nodup) (r : Nat) (v : Row) (p : Bool) (hx : (r, v, p) ∈ xs) :
    (s.putAreaRows area xs).areaRow area r = (v.toNat, p) := by
  induction xs generalizing s with
  | nil => simp at hx
  | cons x xs ih =>
    obtain ⟨r', v', p'⟩ := x
    rw [List.map_cons, List.nodup_cons] at nd
    rw [State.putAreaRows]
    rcases List.mem_cons.mp hx with e | hx
    · cases e
      rw [State.areaRow_putAreaRows_ne (by simpa using h) area r ha xs, State.areaRow_writeHome_same h area r ha]
      intro y hy e
      exact nd.1 (List.mem_map.mpr ⟨y, hy, e⟩)
    · exact ih (by simpa using h) nd.2 hx

/-! ### Items read from an area -/

theorem foldl_congr {α β : Type} {f g : α → β → α} (l : List β) (a : α) (h : ∀ a, ∀ x ∈ l, f a x = g a x) :
    l.foldl f a = l.foldl g a := by
  induction l generalizing a with
  | nil => rfl
  | cons x l ih =>
    rw [List.foldl_cons, List.foldl_cons, h a x List.mem_cons_self]
    exact ih _ fun a y hy => h a y (List.mem_cons_of_mem _ hy)

theorem State.putLive_congr {s t : State} (area : Nat) (r : BitVec 512) (h : ∀ q, 16 ≤ q → q < 128 → s.areaRow area q = t.areaRow area q)
    (k : Bank) (n : Nat) (hn : n ≤ 16) : s.putLive area r k n = t.putLive area r k n := by
  induction n generalizing k with
  | zero => rfl
  | succ n ih => simp only [State.putLive, ih _ (by omega), h (16 + n) (by omega) (by omega)]

theorem foldl_step {α β : Type} {f g : α → β → α} {l : List β} {a a' : α} (h : ∀ a, ∀ x ∈ l, f a x = g a x) (ha : a = a') :
    l.foldl f a = l.foldl g a' := by
  rw [ha]; exact foldl_congr l a' h

/-- Two states whose areas hold the same in the editable rows give the same items. -/
theorem State.readArea_congr {s t : State} (b : Nat) (hb : s.banks = t.banks)
    (h : ∀ r, r < 128 → r ≠ 12 → r ≠ 13 → s.areaRow (s.bank b).area r = t.areaRow (s.bank b).area r) :
    s.readArea b = t.readArea b := by
  have hk : s.bank b = t.bank b := by rw [State.bank, State.bank, hb]
  unfold State.readArea
  extract_lets ks as rows ks1 ks2 ks3 ms ks4 ks5 ks6 ks7 ks8 ks9 ks10 ks11 kt at' rowt kt1 kt2 kt3 mt kt4 kt5 kt6 kt7 kt8 kt9 kt10 kt11
  have hkk : ks = kt := hk
  have row : ∀ r, r < 128 → r ≠ 12 → r ≠ 13 → rows r = rowt r := by
    intro r h1 h2 h3
    show (s.areaRow (s.bank b).area r).1 = (t.areaRow (t.bank b).area r).1
    rw [h r h1 h2 h3, hk]
  have e1 : ks1 = kt1 := by simp only [ks1, kt1, hkk, row 0 (by omega) (by omega) (by omega)]
  have e2 : ks2 = kt2 := foldl_step (fun a x _ => by rw [row 1 (by omega) (by omega) (by omega)]) e1
  have e3 : ks3 = kt3 := foldl_step (fun a x _ => by rw [row 2 (by omega) (by omega) (by omega)]) e2
  have em : ms = mt := row 3 (by omega) (by omega) (by omega)
  have e4 : ks4 = kt4 := foldl_step (fun a x _ => by rw [em]) e3
  have e5 : ks5 = kt5 := by simp only [ks5, kt5, e4, em]
  have e6 : ks6 = kt6 := foldl_step (fun a x hx => by
    have := List.mem_range.mp hx
    rw [row (4 + x / 8) (by omega) (by omega) (by omega)]) e5
  have e7 : ks7 = kt7 := foldl_step (fun a x hx => by
    have := List.mem_range.mp hx
    rw [row (6 + x / 32) (by omega) (by omega) (by omega)]) e6
  have e8 : ks8 = kt8 := foldl_step (fun a x hx => by
    have := List.mem_range.mp hx
    rw [row (8 + x / 8) (by omega) (by omega) (by omega)]) e7
  have e9 : ks9 = kt9 := foldl_step (fun a x hx => by
    have := List.mem_range.mp hx
    rw [row (10 + x / 4) (by omega) (by omega) (by omega)]) e8
  have e10 : ks10 = kt10 := foldl_step (fun a x hx => by
    have := List.mem_range.mp hx
    show a.setQueue _ _ = a.setQueue _ _
    have e : s.areaRow as (14 + x / 32) = t.areaRow at' (14 + x / 32) := by
      show s.areaRow (s.bank b).area (14 + x / 32) = t.areaRow (t.bank b).area (14 + x / 32)
      rw [← hk]; exact h (14 + x / 32) (by omega) (by omega) (by omega)
    rw [e]) e9
  have e11 : ks11 = kt11 := foldl_step (fun a x hx => by
    have := List.mem_range.mp hx
    show a.setQueue _ _ = a.setQueue _ _
    have e : s.areaRow as (32 + x) = t.areaRow at' (32 + x) := by
      show s.areaRow (s.bank b).area (32 + x) = t.areaRow (t.bank b).area (32 + x)
      rw [← hk]; exact h (32 + x) (by omega) (by omega) (by omega)
    rw [e]) e10
  rw [e11]
  split
  · split
    · have ea : as = at' := by show (s.bank b).area = (t.bank b).area; rw [hk]
      rw [← ea]
      exact State.putLive_congr _ _ (fun q h1 h2 => h q h2 (by omega) (by omega)) _ _ (by omega)
    · rfl
  · rfl

/-! ### What may not be edited -/

/-- What row 0 keeps from edits is the bank, its bind record, its mode and its event latch. -/
theorem fixedPart_head (pc : Word) (xs : List Nat) (h : packed 64 xs < 2 ^ 1984) :
    fixedPart 0 (rowOf (packed 64 (pc.toNat :: xs))).toNat = packed 64 xs := by
  have : pc.toNat < 2 ^ 64 := pc.isLt
  simp only [fixedPart, if_true, rowOf, BitVec.toNat_ofNat, packed]
  omega

/-- What row 3 keeps from edits is the mailboxes and the bound sources. -/
theorem fixedPart_misc (k : Bank) :
    fixedPart 3 k.miscRow.toNat =
      (packed 64 ((List.range 8).map fun i => (Assoc.get 0 k.mbox i).toNat) +
        2 ^ 512 * packed 64 ((List.range 6).map fun i => (Assoc.get (.value 0) k.lbs i).code)) % 2 ^ 896 := by
  simp only [fixedPart, Bank.miscRow, rowOf, BitVec.toNat_ofNat]
  generalize packed 64 ((List.range 8).map fun i => (Assoc.get 0 k.mbox i).toNat) = a
  generalize packed 64 ((List.range 6).map fun i => (Assoc.get (.value 0) k.lbs i).code) = b
  generalize packed 8 (channels.map fun c => k.tokens? c.1 c.2) = c
  generalize packed 32 k.pointers = d
  simp
  omega

/-- Of a bank's rows only row 0 and row 3 keep anything from edits. -/
theorem Bank.areaRows_fixed {k : Bank} {b : Nat} {rights : Bool} {p : Nat × Row × Bool} (h : p ∈ k.areaRows b rights) :
    p.1 = 0 ∧ p.2.1 = rowOf (packed 64 [k.pc.toNat, b % 2, k.bindRec, b2n k.hmode, b2n k.event, 0]) ∨
    p.1 = 3 ∧ p.2.1 = k.miscRow ∨ p.1 ≠ 0 ∧ p.1 ≠ 3 := by
  unfold Bank.areaRows at h
  extract_lets clean head regs sys handle many at h
  have below : ∀ f w per at0 n, 4 ≤ at0 → ∀ q ∈ clean (many f w per at0 n), q.1 ≠ 0 ∧ q.1 ≠ 3 := by
    intro f w per at0 n ha q hq
    obtain ⟨x, hx, rfl⟩ := List.mem_map.mp hq
    obtain ⟨j, -, rfl⟩ := List.mem_map.mp hx
    exact ⟨by dsimp only; omega, by dsimp only; omega⟩
  clear_value many regs sys handle
  have split : ∀ xs ys, clean (xs ++ ys) = clean xs ++ clean ys := fun _ _ => List.map_append
  simp only [split, List.mem_append] at h
  rcases h with ((((((h | h) | h) | h) | h) | h) | h) | h
  · simp only [clean, List.map_cons, List.map_nil, List.mem_cons, List.not_mem_nil, or_false] at h
    rcases h with rfl | rfl | rfl | rfl
    · exact .inl ⟨rfl, rfl⟩
    · exact .inr (.inr ⟨(by omega : (1 : Nat) ≠ 0), (by omega : (1 : Nat) ≠ 3)⟩)
    · exact .inr (.inr ⟨(by omega : (2 : Nat) ≠ 0), (by omega : (2 : Nat) ≠ 3)⟩)
    · exact .inr (.inl ⟨rfl, rfl⟩)
  · exact .inr (.inr (below _ _ _ _ _ (by omega : 4 ≤ 4) p h))
  · exact .inr (.inr (below _ _ _ _ _ (by omega : 4 ≤ 6) p h))
  · exact .inr (.inr (below _ _ _ _ _ (by omega : 4 ≤ 8) p h))
  · exact .inr (.inr (below _ _ _ _ _ (by omega : 4 ≤ 10) p h))
  all_goals refine .inr (.inr ?_)
  · obtain ⟨j, -, rfl⟩ := List.mem_map.mp h
    exact ⟨by simp only [Bank.outRow]; omega, by simp only [Bank.outRow]; omega⟩
  · split at h
    · split at h
      · obtain ⟨j, -, rfl⟩ := List.mem_map.mp h
        exact ⟨by dsimp only; omega, by dsimp only; omega⟩
      · simp at h
    · simp at h
  · obtain ⟨j, -, rfl⟩ := List.mem_map.mp h
    exact ⟨by dsimp only; omega, by dsimp only; omega⟩
/-- What a save area shows of a bank and a restore does not read from it: its record, its mode, its event latch, its mailboxes
and its bound sources (R440). -/
def Bank.unread (k : Bank) : Nat × Bool × Bool × Assoc Word × Assoc BSrc := (k.bindRec, k.hmode, k.event, k.mbox, k.lbs)

theorem Bank.unread_writeSys (k : Bank) (i : Nat) (v : Word) : (k.writeSys i v).unread = k.unread := by
  unfold Bank.writeSys Bank.unread; split <;> dsimp only
theorem Bank.unread_setReg (k : Bank) (i : BitVec 5) (v : Word) : (k.setReg i v).unread = k.unread := by
  unfold Bank.setReg Bank.unread; split <;> rfl
theorem Bank.unread_putPointers (k : Bank) (v q : Nat) : (k.putPointers v q).unread = k.unread := by
  unfold Bank.putPointers; split <;> rfl

theorem Bank.unread_foldl {α : Type} {f : Bank → α → Bank} {xs : List α} {k t u : Bank} (e : t = xs.foldl f k)
    (hk : k.unread = u.unread) (h : ∀ k x, (f k x).unread = k.unread) : t.unread = u.unread := by
  subst e
  induction xs generalizing k with
  | nil => exact hk
  | cons x xs ih => exact ih ((h k x).trans hk)

/-- A descriptor's record changes the descriptors alone. -/
theorem Bank.putAd_frame (k : Bank) (n : Nat) (v : BitVec 256) : ∃ z, k.putAd n v = { k with ads := z } :=
  ⟨Assoc.set 0 k.ads n (setBits (setBits v 255 145 0) 127 120 0), rfl⟩

/-- A layout's record changes the layout slots alone. -/
theorem Bank.putLayout_frame (k : Bank) (n : Nat) (v : BitVec 512) : ∃ z, k.putLayout n v = { k with layouts := z } :=
  ⟨Assoc.set 0 k.layouts n (setBits (setBits (setBits v 479 408 0) 399 391 0) 387 387 0), rfl⟩

theorem Bank.unread_putAd (k : Bank) (n : Nat) (v : BitVec 256) : (k.putAd n v).unread = k.unread := by
  obtain ⟨z, h⟩ := k.putAd_frame n v
  rw [h]; rfl

theorem Bank.unread_putLayout (k : Bank) (n : Nat) (v : BitVec 512) : (k.putLayout n v).unread = k.unread := by
  obtain ⟨z, h⟩ := k.putLayout_frame n v
  rw [h]; rfl

theorem Bank.unread_putHC (k : Bank) (v : Nat) : (k.putHC v).unread = k.unread := rfl

theorem State.unread_putLive (s : State) (area : Nat) (r : BitVec 512) (k : Bank) (n : Nat) :
    (s.putLive area r k n).unread = k.unread := by
  induction n with
  | zero => rfl
  | succ n ih =>
    unfold State.putLive
    extract_lets k1 kind m v
    have e : k1.unread = k.unread := ih
    clear_value k1 kind m v
    rw [← e]
    split
    · rfl
    · rfl
    · exact Bank.unread_putAd ..
    · rfl

/-- A restore keeps those. -/
theorem State.unread_readArea (s : State) (b : Nat) : (s.readArea b).unread = (s.bank b).unread := by
  unfold State.readArea
  extract_lets k area row k1 k2 k3 misc k4 k5 k6 k7 k8 k9 k10 k11
  have e1 : k1.unread = k.unread := by simp only [k1, Bank.unread]
  have e2 : k2.unread = k.unread := Bank.unread_foldl rfl e1 (fun _ _ => Bank.unread_setReg ..)
  have e3 : k3.unread = k.unread := Bank.unread_foldl rfl e2 (fun _ _ => Bank.unread_writeSys ..)
  have e4 : k4.unread = k.unread := Bank.unread_foldl rfl e3 (fun _ _ => rfl)
  have e5 : k5.unread = k.unread :=
    (Bank.unread_putHC ..).trans (Bank.unread_foldl rfl e4 fun _ _ => Bank.unread_putPointers ..)
  have e6 : k6.unread = k.unread := Bank.unread_foldl rfl e5 (fun _ _ => rfl)
  have e7 : k7.unread = k.unread := Bank.unread_foldl rfl e6 (fun _ _ => rfl)
  have e8 : k8.unread = k.unread := Bank.unread_foldl rfl e7 (fun _ _ => Bank.unread_putAd ..)
  have e9 : k9.unread = k.unread := Bank.unread_foldl rfl e8 (fun _ _ => Bank.unread_putLayout ..)
  have e10 : k10.unread = k.unread := Bank.unread_foldl rfl e9 (fun _ _ => rfl)
  have e11 : k11.unread = k.unread := Bank.unread_foldl rfl e10 (fun _ _ => rfl)
  split
  · split
    · exact (State.unread_putLive ..).trans e11
    · exact e11
  · exact e11

end Sys2Proof.Machine
end

