-- ==== Sys2Proof/Tests/Slice0.lean ====
section
/-! SUPPORT. The model's own tests: ill-formed terms that the check refuses, words written out from the spec's encodings
that decode to what they stand for, single steps with results from the spec, and for every statement states and operands
that meet its hypotheses, clause by clause. -/

set_option maxRecDepth 100000

namespace Sys2Proof.Tests

open Sys2Proof.Machine Sys2Proof.Says

/-! ### States for the tests -/

/-- A die that stands in the fabric and gives partition 0 every slot. -/
def openDie : Die := { Die.zero with relabel := [(0, some 0x8000)], pslot := [(0, BitVec.allOnes 64)] }

/-- Bank 0 live, changed by f, in the state after reset. -/
def bk (f : Bank → Bank) : State := { State.reset with banks := [(0, f { Bank.zero with run := .live })] }

/-- Bank 0 live with these `s` registers. -/
def regs (xs : List (Nat × Word)) : State := bk fun k => { k with regs := xs }

/-- An access that answers this address. -/
def okIs (u : Use Acc) (x : Acc) : Bool :=
  match u with
  | .ok y => y == x
  | _ => false

theorem ok_of {u : Use Acc} {x : Acc} (h : okIs u x = true) : u = .ok x := by
  cases u <;> simp_all [okIs]

/-! ### The sequencer's integer words -/

theorem witness_IntegerAndImmediateWordsWriteOneResult :
    (let s := regs [(1, 5), (2, 0xFFFFFFFFFFFFFFFE)]
     (Holds 0 (s.reg 1) (s.reg 1) ∧ ¬ Holds 0 (s.reg 1) (s.reg 2)) ∧
     (Holds 1 (s.reg 1) (s.reg 2) ∧ ¬ Holds 1 (s.reg 1) (s.reg 1)) ∧
     (Holds 2 (s.reg 2) (s.reg 1) ∧ ¬ Holds 2 (s.reg 1) (s.reg 1)) ∧
     (Holds 3 (s.reg 1) (s.reg 1) ∧ ¬ Holds 3 (s.reg 2) (s.reg 1)) ∧
     (Holds 4 (s.reg 1) (s.reg 2) ∧ ¬ Holds 4 (s.reg 1) (s.reg 1)) ∧
     (Holds 5 (s.reg 1) (s.reg 1) ∧ ¬ Holds 5 (s.reg 1) (s.reg 2)) ∧
     (Holds 6 (s.reg 1) (s.reg 2) ∧ ¬ Holds 6 (s.reg 1) (s.reg 0)) ∧
     (Holds 7 (s.reg 1) (s.reg 0) ∧ ¬ Holds 7 (s.reg 1) (s.reg 2)) ∧ s.reg 1 ≠ 0 ∧ s.reg 3 = 0) := by
  refine ⟨⟨?_, ?_⟩, ⟨?_, ?_⟩, ⟨?_, ?_⟩, ⟨?_, ?_⟩, ⟨?_, ?_⟩, ⟨?_, ?_⟩, ⟨?_, ?_⟩, ⟨?_, ?_⟩, ?_, ?_⟩ <;>
  first
    | decide
    | (show (_ : Word) = _; decide) | (show ¬ (_ : Word) = _; decide) | (show ¬ (_ : Word) ≠ _; decide)
    | (show (_ : Int) < _; decide) | (show ¬ (_ : Int) < _; decide) | (show (_ : Int) ≤ _; decide)
    | (show ¬ (_ : Int) ≤ _; decide) | (show (_ : Nat) < _; decide) | (show ¬ (_ : Nat) < _; decide)
    | (show (_ : Nat) ≤ _; decide) | (show ¬ (_ : Nat) ≤ _; decide)

theorem witness_ShiftsTakeTheirCountModulo64 :
    let s := regs [(1, 64), (2, 63)]
    (s.reg 1).toNat % 64 = 0 ∧ (s.reg 2).toNat % 64 ≠ 0 ∧ (5 : BitVec 5) = 5 := by decide

theorem witness_DivisionTruncatesTowardZero :
    let s := regs [(1, 0x8000000000000000), (2, 0xFFFFFFFFFFFFFFFF), (3, 0)]
    s.reg 3 = 0 ∧ (s.reg 1 = BitVec.intMin 64 ∧ s.reg 2 = BitVec.allOnes 64) ∧
    (s.reg 2 ≠ 0 ∧ ¬ (s.reg 2 = BitVec.intMin 64 ∧ s.reg 2 = BitVec.allOnes 64)) := by decide

/-- R126's worked corner: −7 / 2 = −3 remainder −1, and the most negative number over −1. -/
theorem test_div_corners :
    (let s := regs [(1, 0xFFFFFFFFFFFFFFF9), (2, 2)]
     (match exec (.div 3 1 2) s with | .next t => t.reg 3 | _ => 0) = 0xFFFFFFFFFFFFFFFD ∧
     (match exec (.rem 3 1 2) s with | .next t => t.reg 3 | _ => 0) = 0xFFFFFFFFFFFFFFFF) := by decide

/-! ### Control flow, traps and system words -/

/-- Bank 0 at its placed word, changed by f. -/
def placed (f : Bank → Bank) : State := State.reset.placeBank.placeLine.modBank 0 f

theorem witness_BranchesLeaveThroughTheirSlot :
    let s := placed fun k => { k with regs := [(1, 0x10000), (2, 0x10002)] }
    s.me.slot = none ∧ (s.slotWait (s.me.pc + 4)).isNone = true ∧ (s.reg 1).toNat % 4 = 0 ∧ (s.reg 2).toNat % 4 ≠ 0 ∧
    s.me.run = .live := by decide

theorem witness_SlotsRefuseTransfersAndDoubleWords :
    ∀ taken : Bool, let s := bk fun k => { k with slot := some { branch := 8, target := 64, taken := taken } }
    s.me.run = .live ∧ s.me.slot ≠ none := by decide

theorem witness_TrapWordsTakeTheirTrap :
    let s := bk fun k => { k with hmode := true }
    s.me.run = .live ∧ s.hasRights s.cur = true ∧ s.me.slot = none := by decide

theorem witness_PrivilegedWordsTrapWithoutRights :
    let s := bk fun k => { k with part := 15 }
    (s.bank 0).part < 16 ∧ s.me.run = .live ∧ s.hasRights s.cur = false ∧ s.me.slot = none ∧
    (0x000 : BitVec 12).toNat ≤ 0x011 ∧ (0x011 : BitVec 12).toNat ≤ 0x011 := by decide

theorem witness_EretReturnsFromItsRecord :
    (let s := bk fun k => { k with hmode := true }
     s.me.slot = none ∧ s.me.hmode = true ∧ s.me.edits = [] ∧ bit s.me.sys.fstat 26 = false ∧ bit s.me.sys.fstat 24 = false) ∧
    (let s := bk fun k => { k with hmode := true, sys := { SysRegs.zero with fstat := 0x3000000 } }
     s.me.slot = none ∧ s.me.hmode = true ∧ bit s.me.sys.fstat 24 = true ∧ bit s.me.sys.fstat 25 = true) ∧
    (let s := bk fun k => { k with hmode := true, sys := { SysRegs.zero with fstat := 0x4000000 } }
     s.me.slot = none ∧ s.me.hmode = true ∧ bit s.me.sys.fstat 26 = true) ∧
    (let s : State := { bk id with dies := [(0, { Die.zero with tcfg := 1 })] }
     s.me.slot = none ∧ s.me.run = .live ∧ s.me.hmode = false ∧ s.hasRights s.cur = true) := by decide

theorem witness_SystemRegistersReadAndWrite :
    let s := bk fun k => { k with hmode := true }
    s.hasRights s.cur = true ∧ s.me.run = .live ∧ (0x000 : BitVec 12).toNat ≤ 0x011 ∧ (0x011 : BitVec 12).toNat ≤ 0x011 ∧
    0x011 < (0x012 : BitVec 12).toNat := by decide

/-- R83, R417: a trap in the slot of a taken branch names the branch. -/
theorem test_slot_trap_names_branch :
    (match exec (.trap 3) (bk fun k => { k with hmode := true, pc := 12, insn := 0xF0000003,
                                                 slot := some { branch := 8, target := 64, taken := true } }) with
     | .next t => (match t.me.run with
        | .stopping _ r d => (bits r.fstat 7 0, bit r.fstat 24, r.epc, r.etgt, d)
        | _ => (0, false, 0, 0, false))
     | _ => (0, false, 0, 0, false)) = (1, true, 8, 64, true) := by decide

/-! ### Handles and queues -/

/-- A handle of 64 KiB that holds these rights, in that state. -/
def hnd (st : HState) (intent : BitVec 3) (page : Nat) (leaf : BitVec 64) : Handle :=
  { Handle.zero with st := st, base := BitVec.ofNat 56 page, intent := intent, page := page, leaf := leaf }

/-- A state in which die 0 gives every slot to partition 0. -/
def slotted (s : State) : State := s.modDie 0 fun d => { d with pslot := [(0, BitVec.allOnes 64)] }

/-- Handle 3 pending for a page of the tables; `open'`: in a slot of its partition. -/
def walking (open' : Bool) (intent : BitVec 3) : State :=
  let s := placed fun k => { k with handles := [(3, hnd .pending intent 0x10000 0)] }
  if open' then slotted s else s

theorem witness_HandlesAreMadeWalkedDroppedAndRead :
    (bk id).me.run = .live ∧ (1 : BitVec 3) ≠ 0 ∧
    (∀ st ∈ [HState.invalid, .pending, .valid, .faulted, .stale],
      let x := (bk fun k => { k with handles := [(3, hnd st 1 0x10000 0)] }).me.handle (3 : BitVec 4).toNat
      x.st = st ∧ x.page < 2 ^ 56 ∧ x.page % 65536 = 0 ∧ x.size ≤ 2) ∧
    validBank 0 = true ∧ validBank 262143 = false ∧
    (∀ open' : Bool,
     let s := walking open' 4
     let x := (s.bank 0).handle 3
     x.st = .pending ∧ (s.bank 0).pst = .live ∧
       (s.serve (agentWalk 0 3) (0 + 1) ((s.bank 0).part % 16) (s.walkLegs (0 / 256) (s.bank 0).part x.page)).1 = open') ∧
    (∃ e, (walking true 4).walk (0 / 256) ((walking true 4).bank 0).part (((walking true 4).bank 0).handle 3).page
      (((walking true 4).bank 0).handle 3).intent = .ok e) ∧
    (∃ c, (walking true 2).walk (0 / 256) ((walking true 2).bank 0).part (((walking true 2).bank 0).handle 3).page
      (((walking true 2).bank 0).handle 3).intent = .error c) :=
  ⟨rfl, by decide, by decide, by decide, by decide, by decide, ⟨_, rfl⟩, ⟨_, rfl⟩⟩

/-- A queue with head, tail and reservations, its first slot filled. -/
def que (h t r : Nat) (poison : Bool) : Queue :=
  { head := h, tail := t, rsv := r, slots := [(h % 16, { row := 7, poison := poison, filled := true })] }

theorem witness_QueueWordsReserveFillAndTake :
    (let s := bk fun k => { k with queues := [(3, que 0 0 0 false)] }
     (3 : BitVec 4).toNat ≤ 3 ∧ s.me.canReserve 3 1 = true ∧ s.me.canReserve 3 ((15 : BitVec 4).toNat + 1) = true ∧
     (s.me.queue 3).tail = (s.me.queue 3).rsv ∧ s.me.run = .live) ∧
    (let s := bk fun k => { k with queues := [(0, que 0 0 16 false)] }
     (0 : BitVec 4).toNat ≤ 3 ∧ s.me.canReserve 0 1 = false ∧ s.me.canReserve 0 ((0 : BitVec 4).toNat + 1) = false) ∧
    (∀ q ∈ [(4 : BitVec 4), 7], ∀ poison : Bool,
      let s := bk fun k => { k with queues := [(q.toNat, que 5 6 6 poison)] }
      let x := s.me.queue q.toNat
      4 ≤ q.toNat ∧ q.toNat ≤ 7 ∧ x.head < x.tail ∧ (x.slot q.toNat x.head).poison = poison ∧ s.me.run = .live ∧
      x.head + (0 : BitVec 4).toNat + 1 ≤ x.tail ∧ x.head ≤ x.tail ∧ x.tail < x.head + (1 : BitVec 4).toNat + 1) ∧
    (let x := (bk fun k => { k with queues := [(4, que 6 6 6 false)] }).me.queue 4
     x.tail ≤ x.head) ∧
    (∀ q ∈ [(0 : BitVec 4), 3, 5, 7],
      let x := (bk fun k => { k with queues := [(q.toNat, que 6 20 22 false)] }).me.queue q.toNat
      q.toNat ≤ 7 ∧ x.head ≤ x.tail ∧ x.tail ≤ x.rsv ∧ x.rsv ≤ x.head + 32 ∧ (q.toNat ≤ 5 → x.rsv ≤ x.head + 16)) ∧
    3 < (4 : BitVec 4).toNat ∧ (3 : BitVec 4).toNat < 4 ∧ 7 < (8 : BitVec 4).toNat := by decide

/-! ### Accesses of the sequencer -/

/-- A leaf of frame 1 with read and write rights. -/
def leafRW : BitVec 64 := 0x100001B

/-- Handle 3 valid for a page at frame 1, the page's first line in the core's cache in state st. -/
def warm (st : CState) (f : Bank → Bank) : State :=
  { bk fun k => f { k with handles := [(3, hnd .valid 3 0x10000 leafRW)] } with
    cores := [(0, { Core.zero with lines := [(0x400, { CLine.zero with st := st, data := 0x8877665544332211, way := true })] })]
    dies := [(0, openDie)] }

/-- A posted store of 8 bytes to frame 1. -/
def post (done : Bool) : Post := Post.mk .line 0x10038 8 0x0102030405060708 false false 0 0 0 false false done false

/-- A bank that has gone past a fence early, a store before it open. -/
def fenced (k : Bank) : Bank := { k with fences := [(1, 1)], posts := [post false] }

theorem witness_AccessChecksComeInTheirOrder :
    (let s := bk fun k => { k with hmode := true, regs := [(1, 5)], handles := [(3, hnd .stale 1 0x10000 leafRW)] }
     s.me.run = .live ∧ s.hasRights s.cur = true ∧ s.reg 1 ≠ 0 ∧ (s.reg 1).toNat < 2 ^ 13) ∧
    31 < (25 : BitVec 5).toNat + (7 : BitVec 3).toNat ∧ 3 < (4 : BitVec 5).toNat ∧ (bk id).me.run = .live ∧
    (∀ st ∈ [HState.invalid, .pending, .faulted, .stale, .valid],
      let s := bk fun k => { k with handles := [(3, hnd st 1 0x10000 leafRW)] }
      s.me.run = .live ∧ (s.me.handle 3).st = st) ∧
    (∃ i h off n w need, Access i h off n w need ∧
      let s := warm .e fun k => { k with handles := [(5, hnd .valid 2 0x10000 leafRW)] }
      let x := s.me.handle h
      let va := x.base.toNat + off
      let stop := x.page + 2 ^ (16 + 10 * x.size)
      x.st = .valid ∧ need &&& ~~~ x.intent ≠ 0 ∧ va + n ≤ stop) ∧
    (∃ i h off n w need, Access i h off n w need ∧
      let s := warm .e fun k => { k with handles := [(3, { hnd .valid 3 0x10000 leafRW with base := 0x1FFF9 })] }
      let x := s.me.handle h
      let va := x.base.toNat + off
      let stop := x.page + 2 ^ (16 + 10 * x.size)
      x.st = .valid ∧ need &&& ~~~ x.intent = 0 ∧ stop < va + n) ∧
    (∃ i h off n w need, Access i h off n w need ∧
      let s := warm .e fun k => { k with handles := [(3, { hnd .valid 3 0x10000 leafRW with base := 0x10004 })] }
      let x := s.me.handle h
      let va := x.base.toNat + off
      let stop := x.page + 2 ^ (16 + 10 * x.size)
      x.st = .valid ∧ need &&& ~~~ x.intent = 0 ∧ va + n ≤ stop ∧ va % w ≠ 0) :=
  ⟨by decide, by decide, by decide, rfl, by decide, ⟨_, _, _, _, _, _, .ld 1 5 14 0, by decide⟩, ⟨_, _, _, _, _, _, .ld 1 3 14 0, by decide⟩,
   ⟨_, _, _, _, _, _, .ld 1 3 14 0, by decide⟩⟩

theorem witness_LoadsCompleteOrWaitForTheirData :
    ((warm .e id).me.fencing = false ∧ (warm .e fenced).me.fencing = true) ∧
    (∃ x, let s := warm .e id
      let h : BitVec 4 := 3
      let t : BitVec 4 := 13
      let off : BitVec 12 := 1
      accessType t = true ∧ s.access s.cur h.toNat (off.toNat * typeBytes t) (typeBytes t) (typeBytes t) 1 = .ok x ∧
      s.loadBehind s.cur x.pa (typeBytes t) = false ∧ x.pa % typeBytes t = 0 ∧ Held s s.cur x.pa x.leaf ∧
      Visible s s.cur x.pa (typeBytes t)) ∧
    (∃ x, let s := warm .s id
      let h : BitVec 4 := 3
      let n : BitVec 3 := 7
      let off : BitVec 12 := 0
      (24 : BitVec 5).toNat + n.toNat ≤ 31 ∧
      s.access s.cur h.toNat (off.toNat * 8) (8 * (n.toNat + 1)) 8 1 = .ok x ∧
      s.loadBehind s.cur x.pa ((n.toNat + 1) * 8) = false ∧ x.pa % 8 = 0 ∧
      ∀ j, j ≤ n.toNat → Held s s.cur (x.pa + 8 * j) x.leaf ∧ Visible s s.cur (x.pa + 8 * j) 8) ∧
    (∃ x, let s := warm .i id
      let h : BitVec 4 := 3
      let t : BitVec 4 := 7
      let off : BitVec 12 := 3
      s.access s.cur h.toNat (off.toNat * typeBytes t) (typeBytes t) (typeBytes t) 1 = .ok x ∧
      s.loadBehind s.cur x.pa (typeBytes t) = false ∧ isCached x.pa = true ∧ Visible s s.cur x.pa (typeBytes t) ∧
      ((s.core (s.cur / 2)).line (x.pa / 64)).st = .i) ∧
    (∃ x, let s : State := { warm .m id with memMeta := [(0x100, { RowMeta.zero with poison := true })] }
      let h : BitVec 4 := 3
      let t : BitVec 4 := 14
      let off : BitVec 12 := 0
      s.access s.cur h.toNat (off.toNat * typeBytes t) (typeBytes t) (typeBytes t) 1 = .ok x ∧
      s.loadBehind s.cur x.pa (typeBytes t) = false ∧ isCached x.pa = true ∧ Visible s s.cur x.pa (typeBytes t) ∧
      ((s.core (s.cur / 2)).line (x.pa / 64)).st.loadHits = true ∧ (s.rowMeta (x.pa / 256)).poison = true ∧
      s.me.run ≠ .ending ∧ s.me.toHandler 8 = false ∧ s.me.inTakenSlot = none) ∧
    (∀ atomic : Bool, ∃ p v, let s := warm .e fun k => { k with pend := some (Pend.mk 7 1 0 8 false 0x10000 0x10000 leafRW 3
          atomic false (if atomic then some (9, false) else none)) }
      validBank 0 = true ∧ (s.bank 0).pend = some p ∧ p.n = p.i + 1 ∧ p.d + p.i < 32 ∧ p.atomic = atomic ∧
      (atomic = true → p.ret = some (v, false)) ∧ Held s 0 (p.pa + p.width * p.i) p.leaf ∧
      Visible s 0 (p.pa + p.width * p.i) p.width) :=
  ⟨by decide, ⟨⟨0x10004, 0x10004, leafRW⟩, by decide, ok_of (by decide), by decide, by decide, by simp only [Held]; decide, by simp only [Visible]; decide⟩,
   ⟨⟨0x10000, 0x10000, leafRW⟩, by decide, ok_of (by decide), by decide, by decide, by simp only [Held, Visible]; decide⟩,
   ⟨⟨0x10003, 0x10003, leafRW⟩, ok_of (by decide), by decide, by decide, by simp only [Visible]; decide, by decide⟩,
   ⟨⟨0x10000, 0x10000, leafRW⟩, ok_of (by decide), by decide, by decide, by simp only [Visible]; decide, by decide, by decide, by decide,
     by decide, by decide⟩,
   fun a => ⟨Pend.mk 7 1 0 8 false 0x10000 0x10000 leafRW 3 a false (if a then some (9, false) else none), 9, by decide, rfl,
     rfl, by cases a <;> decide, rfl, by cases a <;> decide, by cases a <;> (simp only [Held]; decide), by cases a <;> (simp only [Visible]; decide)⟩⟩

theorem witness_StoresArePosted :
    (∃ x, let s := warm .i id
      let h : BitVec 4 := 3
      let t : BitVec 4 := 12
      let off : BitVec 12 := 3
      accessType t = true ∧ s.access s.cur h.toNat (off.toNat * typeBytes t) (typeBytes t) (typeBytes t) 2 = .ok x ∧
      s.me.postsFull = false) ∧
    (∃ x, let s := warm .i id
      let h : BitVec 4 := 3
      let n : BitVec 3 := 7
      let off : BitVec 12 := 1
      (24 : BitVec 5).toNat + n.toNat ≤ 31 ∧ s.access s.cur h.toNat (off.toNat * 8) (8 * (n.toNat + 1)) 8 2 = .ok x ∧
      s.me.postsFull = false) ∧
    (∃ x, let s := warm .i fun k => { k with posts := (List.range 64).map (fun i => Post.mk PostKind.line 0x20000 8 1 false false 0 0 i false false false false) }
      s.access s.cur 3 0 8 8 2 = .ok x ∧ s.me.postsFull = true) :=
  ⟨⟨⟨0x10006, 0x10006, leafRW⟩, by decide, ok_of (by decide), by decide⟩, ⟨⟨0x10008, 0x10008, leafRW⟩, by decide, ok_of (by decide), by decide⟩,
   ⟨⟨0x10000, 0x10000, leafRW⟩, ok_of (by decide), by decide⟩⟩

theorem witness_PostedStoresPerformAndFencesComplete :
    (∀ done : Bool, ∃ p, let s := warm .e fun k => { k with posts := [post done] }
      validBank 0 = true ∧ (s.bank 0).posts[0]? = some p ∧ p.done = done ∧ p.sent = false ∧
      s.postBlocked 0 0 p = false ∧ p.early = false ∧ p.kind = .line ∧ p.ev = false ∧ 1 ≤ p.n ∧ p.n ≤ 8 ∧ p.pa % 64 + p.n ≤ 64 ∧
      ((s.core (0 / 2)).line (p.pa / 64)).st = .e) ∧
    (let s := warm .i id
     (s.me.handle (3 : BitVec 4).toNat).st = .valid ∧ s.me.posts = [] ∧ s.me.ldqs = []) ∧
    (let s := warm .i fun k => { k with posts := [post false] }
     (s.me.handle (3 : BitVec 4).toNat).st = .valid ∧ s.me.posts ≠ []) ∧
    (∀ scope : Bool,
      let s := warm .i fun k => { k with posts := [post false], handles :=
        [(3, hnd .valid 3 0x10000 (if scope then leafRW else leafRW ||| 0xC0))] }
      let early := decide (leafScope (s.me.handle 3).leaf ≤ 2) && !s.me.fencing && Config.releaseEarly s.free
      early = (scope && Config.releaseEarly s.free)) :=
  ⟨fun a => ⟨post a, by cases a <;> decide⟩, by decide, by decide, fun a => by cases a <;> rfl⟩

theorem witness_AtomicsGoToTheirHome :
    ∃ x, let s := warm .i id
      s.access s.cur (3 : BitVec 4).toNat ((2 : BitVec 7).toNat * 8) 8 8 3 = .ok x ∧ isWindow x.pa = false ∧
      s.me.fencing = false ∧ s.me.postsFull = false ∧ s.loadBehind s.cur x.pa 8 = false ∧ Visible s s.cur x.pa 8 :=
  ⟨⟨0x10010, 0x10010, leafRW⟩, ok_of (by decide), by decide, by decide, by decide, by decide, by simp only [Visible]; decide⟩

/-- A row of frame 1 on its way to slot 0 of `dq2`. -/
def ldq0 : LdqRow := { q := 2, slot := 0, pa := 0x10000, key := 0, grp := 0, shot := false }

theorem witness_QueueLoadsReserveAndFill :
    (∀ full : Bool, ∃ x, let s := warm .i fun k => { k with queues := [(1, que 0 0 (if full then 16 else 0) false)] }
      (1 : BitVec 5).toNat ≤ 3 ∧
      s.access s.cur (3 : BitVec 4).toNat ((2 : BitVec 12).toNat * 256) (256 * ((15 : BitVec 4).toNat + 1)) 256 1 = .ok x ∧
      isWindow x.pa = false ∧ s.storeAhead s.cur x.pa (256 * ((15 : BitVec 4).toNat + 1)) = false ∧ s.me.fencing = false ∧
      s.me.canReserve (1 : BitVec 5).toNat ((15 : BitVec 4).toNat + 1) = !full) ∧
    (∃ r, let s := warm .i fun k => { k with queues := [(2, { Queue.zero with rsv := 1 })], ldqs := [ldq0] }
      validBank 0 = true ∧ (s.bank 0).ldqs[0]? = some r ∧ r.q ≤ 3 ∧ s.rowWaits 0 0 r = false ∧ r.arr = 0 ∧
      s.isRefused (0 / 2) (homeOf r.pa) .request = false ∧ s.arrives (s.ldqFoot 0 { r with no := s.sends + 1 }) = true ∧
      s.ahead (s.arrNum r.arr) (linesOf (s.frameOf r.pa) 256) = false ∧
      s.pullPort (memDie r.pa) (0 / 256) = none ∧ ((s.bank 0).queue r.q).tail = r.slot ∧
      r.slot + 1 = ((s.bank 0).queue r.q).rsv) :=
  ⟨fun a => ⟨⟨0x10200, 0x10200, leafRW⟩, by decide, ok_of (by cases a <;> decide), by decide, by cases a <;> decide, by cases a <;> decide, by cases a <;> decide⟩,
   ⟨ldq0, by decide⟩⟩

/-! ### Words that set or command an engine -/

/-- An extension word that pushes a token to the sequencer and pops none. -/
def extSq : Ext := { push := 0, popa := 7, popb := 7, popc := 7, sig := false, scb := 0, wt := false, wcb := 0 }

/-- A head whose operands are `s1` to `s4`. -/
def sx : SXWord := { d := 1, a := 2, b := 3, c := 4, ext := extSq }

/-- A queue of n commands. -/
def cmds (n : Nat) : List Cmd :=
  (List.range n).map (fun _ => { op := .lnset 0 (.value 1), pc := 0, ext := Ext.none })

/-- Handle 3 valid for the page at frame 1, whose first line the core holds with these data. -/
def holding (d : BitVec 512) (f : Bank → Bank) : State :=
  { warm .e f with cores := [(0, { Core.zero with lines := [(0x400, { CLine.zero with st := .e, data := d, way := true })] })] }

/-- Whether a read has answered clean data with p. -/
def Record.clean (r : Record) (p : List Byte → Bool) : Bool :=
  match r with
  | .got xs none _ => p xs
  | _ => false

theorem clean_of {r : Record} {p : List Byte → Bool} (h : Record.clean r p = true) :
    ∃ xs u, r = .got xs none u ∧ p xs = true := by
  unfold Record.clean at h; split at h
  · exact ⟨_, _, rfl, h⟩
  · simp at h

/-- Whether a read has answered poisoned data. -/
def Record.poisoned (r : Record) : Bool :=
  match r with
  | .got _ (some _) _ => true
  | _ => false

theorem poisoned_of {r : Record} (h : Record.poisoned r = true) : ∃ xs j u, r = .got xs (some j) u := by
  unfold Record.poisoned at h; split at h
  · exact ⟨_, _, _, rfl⟩
  · simp at h

/-- Whether a read has asked for its lines. -/
def Record.asked (r : Record) : Bool :=
  match r with
  | .notYet _ => true
  | _ => false

theorem asked_of {r : Record} (h : Record.asked r = true) : ∃ u, r = .notYet u := by
  unfold Record.asked at h; split at h
  · exact ⟨_, rfl⟩
  · simp at h

theorem witness_SettingWordsJoinTheirQueue :
    (∀ n ∈ [31, 32], ∀ e ∈ [1, 2], let s := warm .i fun k => { k with cmds := [(e, cmds n)] }
      ((s.me.cmdq e).length < 32 ↔ n = 31) ∧ (32 ≤ (s.me.cmdq e).length ↔ n = 32)) ∧
    (let s : State := holding 0 fun k => { k with regs := [(4, 0xFFFFFF)], mbox := [(7, 0xFFFFFF)] }
     s.me.fencing = false ∧
     Setting s (.lnset 5 0 4) 1 (.lnset 5 (.value 0xFFFFFF)) s ∧ Setting s (.lnset 0 1 7) 1 (.lnset 0 (.value 0xFFFFFF)) s ∧
     Setting s (.lnset 2 2 3) 1 (.lnset 2 (.queue 3)) s ∧ (∃ op u, Setting s (.adset 15 3 1) 1 op u) ∧
     (∃ op u, Setting s (.mblk 3 0) 1 op u) ∧ ∃ op u, Setting s (.layout 7 3 0) 2 op u) ∧
    (let x : Acc := ⟨0x10000, 0x10000, leafRW⟩
     let clean (s : State) : Prop := s.access s.cur (3 : BitVec 4).toNat ((0 : BitVec 12).toNat * 64) 64 64 1 = .ok x
     clean (holding 0 fenced) ∧ (holding 0 fenced).me.fencing = true ∧
     (let s := holding 0 fun k => { k with posts := [{ post false with pa := 0x10008 }] }
      clean s ∧ s.readWaits s.cur x.pa 64 = true) ∧
     (let s := warm .i id
      clean s ∧ s.me.fencing = false ∧ s.readWaits s.cur x.pa 64 = false ∧ ∃ u, s.readThrough s.cur x 64 = .notYet u) ∧
     (let s : State := { holding 0 id with memMeta := [(0x100, { RowMeta.zero with poison := true })] }
      clean s ∧ s.me.fencing = false ∧ s.readWaits s.cur x.pa 64 = false ∧ s.me.run = .live ∧
      ∃ xs j u, s.readThrough s.cur x 64 = .got xs (some j) u)) ∧
    (let s := bk fun k => { k with regs := [(4, 0x1000000)], mbox := [(7, 0x1000000)] }
     s.me.run = .live ∧ 2 ^ 24 ≤ (s.reg 4).toNat ∧ 2 ^ 24 ≤ (Assoc.get 0 s.me.mbox (7 : BitVec 5).toNat).toNat ∧
     8 ≤ (8 : BitVec 5).toNat ∧ 4 ≤ (4 : BitVec 5).toNat ∧ 16 ≤ (16 : BitVec 5).toNat) :=
  ⟨by decide,
   ⟨by decide, .lnsetReg 5 4 (by decide), .lnsetMbox 0 7 (by decide) (by decide), .lnsetQueue 2 3 (by decide),
    (let ⟨xs, u, h, ok⟩ := clean_of (p := fun xs => descOk (BitVec.ofNat 256 (leNat xs))) (by decide)
     ⟨_, u, .adset 15 3 1 ⟨0x10020, 0x10020, leafRW⟩ xs u (by decide) (ok_of (by decide)) (by decide) h ok⟩),
    (let ⟨xs, u, h, ok⟩ := clean_of (p := fun xs => restartOk (BitVec.ofNat 512 (leNat xs))) (by decide)
     ⟨_, u, .mblk 3 0 ⟨0x10000, 0x10000, leafRW⟩ xs u (ok_of (by decide)) (by decide) h ok⟩),
    (let ⟨xs, u, h, ok⟩ := clean_of (p := fun xs => layoutOk (BitVec.ofNat 512 (leNat xs))) (by decide)
     ⟨_, u, .layout 7 3 0 ⟨0x10000, 0x10000, leafRW⟩ xs u (by decide) (ok_of (by decide)) (by decide) h ok⟩)⟩,
   ⟨ok_of (by decide), by decide, ⟨ok_of (by decide), by decide⟩, ⟨ok_of (by decide), by decide, by decide, asked_of (by decide)⟩,
    ⟨ok_of (by decide), by decide, by decide, by decide, poisoned_of (by decide)⟩⟩,
   by decide⟩

/-- Bank 0 with operand registers and handle 0 valid. -/
def cmdS (a b c d : Word) : State :=
  bk fun k => { k with regs := Assoc.set 0 (Assoc.set 0 (Assoc.set 0 (Assoc.set 0 [] 4 d) 3 c) 2 b) 1 a,
                       handles := [(0, hnd .valid 3 0x10000 leafRW)] }

/-- The conditions on a command's state, engine and handles. -/
def ready (s : State) (e : Nat) (x : SXWord) (hs : List Nat) : Bool :=
  s.me.slot == none && pushOk e x.ext && popsOk e x.ext && (hs.all fun h => (s.me.handle h).st == .valid) &&
  decide ((s.me.cmdq e).length < 32) && s.me.run == .live && !s.me.fencing

theorem witness_EngineCommandsJoinTheirQueue :
    (∃ s hs, Command s (.cpy { sx with c := 0 }) 2 { sx with c := 0 } .cpy hs ∧ ready s 2 sx hs = true) ∧
    (∃ s hs, Command s (.attns sx) 3 sx .attns hs ∧ ready s 3 sx hs = true) ∧
    (∃ s hs, Command s (.sqopen sx) 3 sx .sqopen hs ∧ ready s 3 sx hs = true) ∧
    (∃ s hs, Command s (.sqapp sx) 3 sx .sqapp hs ∧ ready s 3 sx hs = true) ∧
    (∃ s hs, Command s (.sqfork sx) 3 sx .sqfork hs ∧ ready s 3 sx hs = true) ∧
    (∃ s hs, Command s (.sqtrunc sx) 3 sx .sqtrunc hs ∧ ready s 3 sx hs = true) ∧
    (∃ s hs, Command s (.sqpark sx) 3 sx .sqpark hs ∧ ready s 3 sx hs = true) ∧
    (∃ s hs, Command s (.sqwake sx) 3 sx .sqwake hs ∧ ready s 3 sx hs = true) ∧
    (∃ s hs, Command s (.sqclose sx) 3 sx .sqclose hs ∧ ready s 3 sx hs = true) ∧
    (∃ s hs, Command s (.sqinfo sx) 3 sx .sqinfo hs ∧ ready s 3 sx hs = true) ∧
    (∃ s hs, Command s (.attnd sx) 4 sx .attnd hs ∧ ready s 4 sx hs = true) ∧
    (∃ s hs, Command s (.rdx sx) 4 sx .rdx hs ∧ ready s 4 sx hs = true) ∧
    (∃ s hs, Command s (.coll sx) 5 sx .coll hs ∧ ready s 5 sx hs = true) ∧
    (∃ s hs, Command s (.ring sx) 5 sx .ring hs ∧ ready s 5 sx hs = true) ∧
    (∃ s hs, Command s (.plough sx) 5 sx .plough hs ∧ ready s 5 sx hs = true) ∧
    (let s := cmdS 0x603FF 0 0 0
     s.me.slot = none ∧ pushOk 1 sx.ext = true ∧ popsOk 1 sx.ext = true ∧ bits (s.reg 1) 63 19 = 0 ∧
     bits (s.reg 1) 15 10 = 0 ∧ bits (s.reg 1) 18 16 ≤ 6 ∧ (s.me.cmdq 1).length < 32 ∧ s.me.run = .live ∧ s.me.fencing = false) ∧
    (let s := cmdS 0x70400 0 0 0
     s.me.slot = none ∧ s.me.run = .live ∧ bits (s.reg 1) 15 10 ≠ 0 ∧ 6 < bits (s.reg 1) 18 16) ∧
    (∀ e ∈ [1, 2, 3, 4, 5], 32 ≤ ((bk fun k => { k with cmds := [(e, cmds 32)] }).me.cmdq e).length) ∧
    (bk fenced).me.fencing = true ∧
    pushOk 3 { extSq with push := 3 } = false ∧ popsOk 3 { extSq with popc := 3 } = false := by
  refine ⟨⟨cmdS 0 0 0 0, _, .cpy { sx with c := 0 } (by decide), by decide⟩,
    ⟨cmdS 0 0x10000 0x1000000 0, _, .attns sx (by decide) (by decide) (by decide) (by decide) (by decide) (by decide), by decide⟩,
    ⟨cmdS 0 0 0 0, _, .sqopen sx (by decide) (by decide) (by decide), by decide⟩,
    ⟨cmdS 0 0 1 0, _, .sqapp sx (by decide) (by decide) (by decide) (by decide) (by decide) (by decide), by decide⟩,
    ⟨cmdS 0 0 0 0, _, .sqfork sx (by decide) (by decide) (by decide), by decide⟩,
    ⟨cmdS 0 0 0 0, _, .sqtrunc sx (by decide) (by decide), by decide⟩,
    ⟨cmdS 0 0 0 0, _, .sqpark sx (by decide) (by decide) (by decide), by decide⟩,
    ⟨cmdS 0 0 0 0, _, .sqwake sx (by decide), by decide⟩, ⟨cmdS 0 0 0 0, _, .sqclose sx (by decide), by decide⟩,
    ⟨cmdS 0 0 0 0, _, .sqinfo sx (by decide) (by decide), by decide⟩,
    ⟨cmdS 0 0 0 0, _, .attnd sx (by decide) (by decide) (by decide), by decide⟩,
    ⟨cmdS 0x1000000000000000 0 0x1000000000000 0, _, .rdx sx (by decide) (by decide) (by decide) (by decide) (by decide)
      (by decide) (by decide) (by decide), by decide⟩,
    ⟨cmdS 0 0 0x4000001000 0, _, .coll sx (by decide) (by decide) (by decide) (by decide), by decide⟩,
    ⟨cmdS 0 0 0 0, _, .ring sx (by decide) (by decide) (by decide) (by decide), by decide⟩,
    ⟨cmdS 0 0 0 0, _, .plough sx (by decide) (by decide), by decide⟩, by decide, by decide, by decide, by decide, by decide, by decide⟩

theorem witness_TokenWordPopsThenPushes :
    (∀ push ∈ [(7 : BitVec 3), 1, 5], ∀ sig ∈ [false, true],
      let x : SXWord := { d := 0, a := 0, b := 0, c := 0, ext := { extSq with push := push, popa := 1, popb := 1, sig := sig, scb := 63 } }
      let s := bk fun k => { k with tokens := [(chan 1 0, 2)] }
      s.me.slot = none ∧ x.ext.push ≠ 0 ∧ popsOk 0 x.ext = true ∧ s.me.pc ∉ s.me.tokp ∧ s.me.canIssue 0 x.ext = true ∧
      ((x.ext.push = 7 ∧ x.ext.sig = false) ∨ (s.me.posts = [] ∧ s.me.ldqs = [] ∧
        (x.ext.push = 7 ∨ s.me.tokens? 0 x.ext.push.toNat < 15))) ∧ s.me.run = .live ∧
      (bk id).me.canIssue 0 x.ext = false) ∧
    popsOk 0 { extSq with popb := 0 } = false ∧ extSq.push = 0 := by decide

/-! ### Progress, barriers and the life of a task at its sequencer -/

/-- The state with this die 0. -/
def withDie (s : State) (d : Die) : State := { s with dies := [(0, d)] }

/-- Die 0 with bind record 5: a task of partition 0 on core 3, bank 1. -/
def die5 : Die := { openDie with binds := [(5, { Bind.zero with plot := 8, bank := 1, valid := true, state := 2 })] }

theorem witness_BarriersTimeAndEventsComplete :
    (let s := bk fun k => { k with regs := [(1, 0xFFFFFFFF), (2, 0x100000000)] }
     s.me.slot = none ∧ s.me.posts = [] ∧ s.me.ldqs = [] ∧ bits (s.reg 1) 63 32 = 0 ∧ bits (s.reg 2) 63 32 ≠ 0 ∧
     s.me.run = .live) ∧
    (bk fun k => { k with posts := [post true] }).me.posts ≠ [] ∧
    (let s := withDie (bk fun k => { k with regs := [(9, 0x283), (10, 0x68), (11, 0x800000), (12, 0x2000)] }) die5
     bits (s.reg 9) 63 23 = 0 ∧ bits (s.reg 9) 6 0 ≤ 103 ∧ s.dieExists (s.cur / 256) (bits (s.reg 9) 22 13) = true ∧
     s.me.postsFull = false ∧ s.me.run = .live ∧ 103 < bits (s.reg 10) 6 0 ∧ bits (s.reg 11) 63 23 ≠ 0 ∧
     bits (s.reg 12) 63 23 = 0 ∧ bits (s.reg 12) 6 0 ≤ 103 ∧ s.dieExists (s.cur / 256) (bits (s.reg 12) 22 13) = false) ∧
    (let e : Event := { b := 0, part := 0, target := 0x283 }
     let s : State := { withDie (bk id) die5 with events := [e] }
     s.events[0]? = some e ∧ s.arrives (s.eventFoot e) = true ∧
     s.taskBank (bits e.target 22 13) (bits e.target 12 7) (bits e.target 6 0) e.part = some 7 ∧
     (s.bank 7).inArea = false) ∧
    (let e : Event := { b := 0, part := 1, target := 0x283 }
     let s : State := { withDie (bk id) die5 with events := [e] }
     s.events[0]? = some e ∧ s.arrives (s.eventFoot e) = true ∧
     s.taskBank (bits e.target 22 13) (bits e.target 12 7) (bits e.target 6 0) e.part = none) := by
  decide

theorem heldMask_of {s : State} {b : Nat} {cs : List (BitVec 16)} {h : Nat} (lt : h < 2 ^ cs.length)
    (hs : ∀ i, i < cs.length → Nat.testBit h i = s.condHolds b i (cs.getD i 0) []) : HeldMask s b cs h := by
  refine ⟨lt, fun i c e => ?_⟩
  obtain ⟨hi, e⟩ := List.getElem?_eq_some_iff.mp e
  rw [hs i hi, List.getD_eq_getElem?_getD, List.getElem?_eq_getElem hi, e]; rfl

/-- Bank 0 with its event latch set, barrier 1 short of its target, the conditions 'event, barrier 1' in `s4` and a
time-out in `s5`. -/
def waitS (t : Word) : State :=
  bk fun k => { k with event := true, cb := [(1, 0x100000000)], regs := [(4, 0x10016000), (5, t)] }

/-- Bank 0 waiting for its event. -/
def waiting (deadline : Option Nat) : Waiting := ⟨false, 3, [0x6000], deadline, []⟩
def waitingS (event : Bool) (deadline : Option Nat) : State :=
  bk fun k => { k with event := event, wait := .wait (waiting deadline) }

theorem witness_WaitsReturnWhatTheySample :
    (∀ s ∈ [waitS 0, waitS 5, waitS 0xFFFFFFFF],
      s.me.slot = none ∧ (s.reg 4).toNat / 2 ^ (16 * 2) = 0 ∧ bits (s.reg 5) 63 32 = 0 ∧
      (conditions (s.reg 4) 2).all condOk = true ∧
      ((conditions (s.reg 4) 2).all fun c => condKind c != 5 && condKind c != 7) = true ∧ s.me.fencing = false) ∧
    HeldMask (waitS 0) 0 (conditions ((waitS 0).reg 4) 2) 1 ∧ HeldMask (waitS 5) 0 (conditions ((waitS 5).reg 4) 2) 1 ∧
    Enough false (conditions ((waitS 0).reg 4) 2) 1 ∧ ¬ Enough true (conditions ((waitS 0).reg 4) 2) 1 ∧
    (let s := waitingS true none
     (s.bank 0).wait = .wait (waiting none) ∧ HeldMask s 0 (waiting none).conds 1 ∧ Enough false (waiting none).conds 1) ∧
    (let s := waitingS false (some 0)
     (s.bank 0).wait = .wait (waiting (some 0)) ∧ HeldMask s 0 (waiting (some 0)).conds 0 ∧
       ¬ Enough false (waiting (some 0)).conds 0 ∧ 0 ≤ s.reftime) :=
  ⟨by decide, heldMask_of (by decide) (by decide), heldMask_of (by decide) (by decide), by unfold Enough; decide,
    by unfold Enough; decide, ⟨by decide, heldMask_of (by decide) (by decide), by unfold Enough; decide⟩,
    ⟨by decide, heldMask_of (by decide) (by decide), by unfold Enough; decide, by decide⟩⟩

/-- An access of bank 0 to a barrier word or to global SRAM; `arr`, `refused`: its place at the home. -/
def gReq (pa : Nat) (write atomic : Bool) (arr refused : Nat) : GReq :=
  { b := 0, pa := pa, n := 8, write := write, v := 1, poison := false, atomic := atomic, arr := arr, refused := refused }

/-- Bank 0 waiting for the data of that access. -/
def gState (gs : List GReq) : State :=
  { withDie (bk fun k => { k with pend := some (Pend.mk 3 1 0 8 false 0 (gs.headD (gReq 0 false false 0 0)).pa leafRW 3
      false false none) }) die5 with gsram := gs, arrivals := 9 }

theorem witness_BarrierAndSramHomesServe :
    (∀ g ∈ [gReq 0xF430005060008 false false 0 0, gReq 0xF430005060008 true true 3 0, gReq 0xF430005060008 true true 0 0],
      let s := gState [g]
      s.gsram[0]? = some g ∧ isGsram g.pa = false ∧ (g.arr = 0 → s.arrives (s.gFoot g) = true) ∧
      (g.atomic = false ∨ g.arr = 0 ∨ s.placeAhead g.home g.arr = false) ∧
      ((s.bank g.b).pend.map fun p => p.pa + p.width * p.i) = some g.pa ∧
      s.barrierBank g.b g.pa = some 7 ∧ (s.bank 7).inArea = false) ∧
    (let g := gReq 0xF430005060008 true true 0 0
     ∃ s1 n, (gState [g]).seatAtomic g.b g.pa g.refused = .accepted s1 n ∧ s1.placeAhead g.home n = false) ∧
    (let g := gReq 0xF430005060008 true true 0 0
     let s := gState (g :: List.replicate 64 (gReq 0xF430005060008 true true 1 0))
     s.gsram[0]? = some g ∧ isBarrierWin g.pa = true ∧ g.atomic = true ∧ g.arr = 0 ∧ s.arrives (s.gFoot g) = true ∧
     s.isRefused (srcCore (g.b / 2)) g.home .atomic = false ∧
     64 ≤ ((s.places g.home).filter fun p => p.arr != 0).length) ∧
    (∀ write : Bool, let g := gReq 0x80000000100F8 write false 0 0
      let s := gState [g]
      s.gsram[0]? = some g ∧ isGsram g.pa = true ∧ s.tentCell (gsramKey g.pa) = false ∧
      s.arrives (s.gFoot g) = true ∧ s.pullPort (memDie g.pa) (g.b / 256) = none ∧
      ((s.bank g.b).pend.map fun p => p.pa + p.width * p.i) = some g.pa ∧ g.pa % 256 + g.n ≤ 256 ∧ g.n ≤ 8) :=
  ⟨by decide, ⟨_, _, rfl, by decide⟩, by decide, by decide⟩

/-- Bank 0 in the slot of a branch that has prepared this. -/
def prepared (p : Prep) : State :=
  bk fun k => { k with slot := some { branch := 8, target := 64, taken := true, prep := p } }

/-- Whether a read has answered clean data and left a state of p. -/
def Record.leaves (r : Record) (p : State → Bool) : Bool :=
  match r with
  | .got _ none u => p u
  | _ => false

theorem read_of {r : Record} {p : State → Prop} [∀ u, Decidable (p u)] (h : Record.leaves r (fun u => p u) = true) :
    ∃ xs u, r = .got xs none u ∧ p u := by
  unfold Record.leaves at h; split at h
  · exact ⟨_, _, rfl, of_decide_eq_true h⟩
  · simp at h

theorem witness_LaunchPhaseAndRetireAtTheSequencer :
    (∀ n ∈ [63, 64], let s := withDie (holding 0 id) { openDie with launchq := List.replicate n (0, 0, 0) }
      s.access s.cur (3 : BitVec 4).toNat ((0 : BitVec 12).toNat * 64) 64 64 1 = .ok ⟨0x10000, 0x10000, leafRW⟩ ∧
      s.readWaits s.cur 0x10000 64 = false ∧ s.me.fencing = false ∧ (∀ sl, s.me.slot = some sl → sl.prep = .none) ∧
      (∃ xs u, s.readThrough s.cur ⟨0x10000, 0x10000, leafRW⟩ 64 = .got xs none u ∧ u.launchFull = (n == 64)) ∧
      s.me.posts = [] ∧ s.me.ldqs = []) ∧
    (∃ sl, (prepared (.got 7 1)).me.slot = some sl ∧ sl.prep = .got 7 1) ∧
    (∃ sl p, (prepared (.bad (Trap.mk0 8 0))).me.slot = some sl ∧ sl.prep = .bad p ∧ p.cls < 256 ∧ p.sub < 256 ∧ p.eng = 0 ∧
      p.asyn = false ∧ p.defer = false ∧ p.edge = false ∧ (prepared (.bad (Trap.mk0 8 0))).me.run = .live) := by
  refine ⟨?_, ⟨_, rfl, rfl⟩, ⟨_, Trap.mk0 8 0, rfl, rfl, by decide⟩⟩
  intro n hn
  rcases List.mem_cons.mp hn with rfl | hn
  · exact ⟨ok_of (by decide), by decide, by decide, nofun, read_of (p := fun u => u.launchFull = false) (by decide), by decide, by decide⟩
  · rcases List.mem_singleton.mp hn with rfl
    exact ⟨ok_of (by decide), by decide, by decide, nofun, read_of (p := fun u => u.launchFull = true) (by decide), by decide, by decide⟩

/-! ### The vector unit -/

/-- Bank 0's loop engine about to issue a bundle, the block's fields as given. -/
def vb : Block :=
  { start := 0, depth := 0, first := 0, idx := 0, phase := .issue, trapped := false, lx := [], bnd := [],
    brk := 6, sregs := [], frm := 0, hkey := 0, pc := 0, rst := none, hc := [], host := none, ext := extSq }

def vs : State := bk fun k => { k with block := some vb, vregs := [(17, { VReg.zero with row := 0x40400000_40000000 })] }

/-- What a plain word's statement assumes of its state and operands. -/
def Met (s : State) (x : Block) (i : VWord → Instr) (opc : Nat) (w : VWord) : Prop :=
  ∃ f tab bad e o, Plain s x (i w) opc w f tab bad e ∧ Issues s x opc w ∧ vFieldsOk opc w = true ∧
    readOps s s.cur x opc w (if opc = 0x60 then e else 0) = .ok o ∧
    Takes s x w (if opc = 0x61 then e else 0) (makes x opc w f tab bad o (s.me.mskOf w.msk))

/-- The same as one check, D apart. -/
def issuesNow (s : State) (x : Block) (opc : Nat) (w : VWord) (e : Int) : Bool :=
  s.issuing s.cur == some x && s.me.arrayWrites == false && vForbidden opc w == false && x.qual w.fi w.li w.flv == true &&
  vFieldsOk opc w && (readOps s s.cur x opc w (if opc = 0x60 then e else 0)).isOk

def isV (o : Opnd) : Bool :=
  match o with
  | .v _ => true
  | _ => false

theorem of_issuesNow {s : State} {x : Block} {opc : Nat} {w : VWord} {e : Int} (h : issuesNow s x opc w e = true) :
    Issues s x opc w ∧ vFieldsOk opc w = true ∧ ∃ o, readOps s s.cur x opc w (if opc = 0x60 then e else 0) = .ok o := by
  simp only [issuesNow, Bool.and_eq_true, beq_iff_eq] at h
  obtain ⟨⟨⟨⟨⟨a, b⟩, c⟩, d⟩, f⟩, g⟩ := h
  refine ⟨⟨a, b, c, d⟩, f, ?_⟩
  cases hr : readOps s s.cur x opc w (if opc = 0x60 then e else 0) with
  | ok o => exact ⟨o, rfl⟩
  | error z => rw [hr] at g; exact absurd g (by simp [Except.isOk, Except.toBool])

theorem met_reg {s : State} {x : Block} {i : VWord → Instr} {opc : Nat} {w : VWord} {f tab bad e} (p : Plain s x (i w) opc w f tab bad e)
    (h : (issuesNow s x opc w e && isV (opnd w.d)) = true) : Met s x i opc w := by
  obtain ⟨h1, h2⟩ := Bool.and_eq_true _ _ ▸ h
  obtain ⟨a, b, o, c⟩ := of_issuesNow h1
  refine ⟨f, tab, bad, e, o, p, a, b, c, ?_⟩
  unfold Takes
  split <;> simp_all [isV]

/-- D takes the result, for the operands that can be read. -/
def takesNow (s : State) (x : Block) (opc : Nat) (w : VWord) (f : VIn → VRes) (tab : VTable) (bad : Bool) (e : Int) : Bool :=
  match readOps s s.cur x opc w (if opc = 0x60 then e else 0) with
  | .error _ => false
  | .ok o =>
    let z := makes x opc w f tab bad o (s.me.mskOf w.msk)
    match opnd w.d with
    | .queue q _ j => decide ((s.me.queue q).tail + j < (s.me.queue q).head + qCap q) && z.tags &&& z.lanes == 0
    | .ad n off => (s.freeKey (descKey s.cur s.me x n (off + if opc = 0x61 then e else 0))).isOk && z.tags &&& z.lanes == 0
    | _ => true

theorem ok_ex {α β : Type} {r : Except α β} (h : r.isOk = true) : ∃ o, r = .ok o := by
  cases r with
  | ok o => exact ⟨o, rfl⟩
  | error z => exact absurd h (by simp [Except.isOk, Except.toBool])

theorem met_row {s : State} {x : Block} {i : VWord → Instr} {opc : Nat} {w : VWord} {f tab bad e} (p : Plain s x (i w) opc w f tab bad e)
    (h1 : issuesNow s x opc w e = true) (h2 : takesNow s x opc w f tab bad e = true) : Met s x i opc w := by
  obtain ⟨a, b, o, c⟩ := of_issuesNow h1
  refine ⟨f, tab, bad, e, o, p, a, b, c, ?_⟩
  simp only [takesNow, c] at h2
  unfold Takes
  split <;> rename_i hd <;> simp only [hd] at h2
  · simpa using h2
  · obtain ⟨h3, h4⟩ := Bool.and_eq_true _ _ ▸ h2
    exact ⟨ok_ex h3, by simpa using h4⟩
  · trivial

/-- Words that meet the hypotheses, form by form (part 1). -/
theorem witness_VectorWordsWriteTheirResult_1 :
    Met vs vb .vtripMrg 3 ⟨1, 0x20C000, 0x244000, 0, false, true, false, 0, 0, 0, false, 0⟩ ∧
    Met vs vb .vtripAcc 3 ⟨1, 0x20C000, 0x244000, 0x224000, false, true, false, 0, 3, 0, false, 1⟩ ∧
    Met vs vb .vtripProb 3 ⟨1, 0x20C000, 0x244000, 0x224000, true, true, false, 0, 0, 0, false, 2⟩ ∧
    Met vs vb .vadd 0x10 ⟨2, 0x20C000, 0x244000, 0x224000, false, true, false, 0, 0, 3, false, 0⟩ ∧
    Met vs vb .vsub 0x11 ⟨3, 0x20C000, 0x244000, 0x224000, false, true, false, 0, 0, 1, false, 0⟩ ∧
    Met vs vb .vmul 0x12 ⟨1, 0x20C000, 0x244000, 0x224000, false, true, false, 0, 7, 4, false, 0⟩ ∧
    Met vs vb .vfma 0x13 ⟨2, 0x20C000, 0x244000, 0x224000, false, true, false, 0, 0, 2, false, 0⟩ ∧
    Met vs vb .vfms 0x14 ⟨3, 0x20C000, 0x244000, 0x224000, true, true, false, 0, 0, 0, false, 0⟩ ∧
    Met vs vb .vmin 0x15 ⟨1, 0x20C000, 0x244000, 0x224000, false, true, false, 0, 0, 0, false, 0⟩ ∧
    Met vs vb .vmax 0x16 ⟨2, 0x20C000, 0x244000, 0x224000, false, true, false, 0, 5, 0, false, 0⟩ ∧
    Met vs vb .vabs 0x17 ⟨3, 0x20C000, 0x244000, 0, false, true, false, 0, 0, 0, false, 0⟩ ∧
    Met vs vb .vneg 0x18 ⟨1, 0x20C000, 0x244000, 0, false, true, false, 0, 0, 0, false, 0⟩ ∧
    Met vs vb .vrcp 0x19 ⟨2, 0x20C000, 0x244000, 0, false, true, false, 0, 0, 1, false, 0⟩ ∧
    Met vs vb .vrsq 0x1A ⟨3, 0x20C000, 0x244000, 0, false, true, false, 0, 0, 2, false, 0⟩ ∧
    Met vs vb .vexp 0x1B ⟨1, 0x20C000, 0x244000, 0, false, true, false, 0, 0, 1, false, 0⟩ ∧
    Met vs vb .vexpSub 0x1B ⟨1, 0x20C000, 0x244000, 0x224000, false, true, false, 0, 0, 0, false, 1⟩ :=
  ⟨met_reg (.vtripMrg _) (by decide),
   met_reg (.vtripAcc _) (by decide),
   met_reg (.vtripProb _) (by decide),
   met_reg (.vadd _) (by decide),
   met_reg (.vsub _) (by decide),
   met_reg (.vmul _) (by decide),
   met_reg (.vfma _) (by decide),
   met_reg (.vfms _) (by decide),
   met_reg (.vmin _) (by decide),
   met_reg (.vmax _) (by decide),
   met_reg (.vabs _) (by decide),
   met_reg (.vneg _) (by decide),
   met_reg (.vrcp _) (by decide),
   met_reg (.vrsq _) (by decide),
   met_reg (.vexp _) (by decide),
   met_reg (.vexpSub _) (by decide)⟩

/-- Words that meet the hypotheses, form by form (part 2). -/
theorem witness_VectorWordsWriteTheirResult_2 :
    Met vs vb .vtab 0x20 ⟨2, 0x20C000, 0x244000, 0, false, true, false, 0, 0, 0, false, 0⟩ ∧
    Met vs vb .vcvt 0x22 ⟨4, 0x20C000, 0x244000, 0, false, true, false, 0, 0, 1, true, 2⟩ ∧
    Met vs vb .vqnt 0x23 ⟨5, 0x20C000, 0x244000, 0x224000, false, true, false, 0, 0, 0, true, 1⟩ ∧
    Met vs vb .vdqnt 0x24 ⟨2, 0x20C000, 0x244000, 0x224000, false, true, false, 0, 0, 0, false, 4⟩ ∧
    Met vs vb .vand 0x30 ⟨7, 0x20C000, 0x244000, 0x224000, false, true, false, 0, 0, 0, false, 0⟩ ∧
    Met vs vb .vor 0x31 ⟨8, 0x20C000, 0x244000, 0x224000, false, true, false, 0, 0, 0, false, 0⟩ ∧
    Met vs vb .vxor 0x32 ⟨9, 0x20C000, 0x244000, 0x224000, false, true, false, 0, 1, 0, false, 0⟩ ∧
    Met vs vb .vnot 0x33 ⟨10, 0x20C000, 0x244000, 0, false, true, false, 0, 0, 0, false, 0⟩ ∧
    Met vs vb .vshl 0x34 ⟨11, 0x20C000, 0x244000, 0x224000, false, true, false, 0, 0, 0, false, 0⟩ ∧
    Met vs vb .vshr 0x35 ⟨12, 0x20C000, 0x244000, 0x224000, false, true, false, 0, 0, 0, false, 0⟩ ∧
    Met vs vb .vsra 0x36 ⟨13, 0x20C000, 0x244000, 0x224000, false, true, false, 0, 0, 0, false, 0⟩ ∧
    Met vs vb .vfsh 0x37 ⟨14, 0x20C000, 0x244000, 0x224000, false, true, false, 0, 0, 0, false, 0⟩ ∧
    Met vs vb .vclz 0x38 ⟨9, 0x20C000, 0x244000, 0, false, true, false, 0, 0, 0, false, 0⟩ ∧
    Met vs vb .vpopc 0x39 ⟨8, 0x20C000, 0x244000, 0, false, true, false, 0, 0, 0, false, 0⟩ ∧
    Met vs vb .vpackWrap 0x3A ⟨8, 0x20C000, 0x244000, 0x224000, false, true, false, 0, 0, 0, false, 0⟩ ∧
    Met vs vb .vpackClamp 0x3A ⟨12, 0x20C000, 0x244000, 0x224000, false, true, false, 0, 0, 0, false, 8⟩ ∧
    Met vs vb .vpackBits 0x3A ⟨13, 0x20C000, 0x244000, 0x224000, false, true, false, 0, 0, 0, false, 0x10⟩ :=
  ⟨met_reg (.vtabBuiltin _ (by decide)) (by decide),
   met_reg (.vcvt _) (by decide),
   met_reg (.vqnt _) (by decide),
   met_reg (.vdqnt _) (by decide),
   met_reg (.vand _) (by decide),
   met_reg (.vor _) (by decide),
   met_reg (.vxor _) (by decide),
   met_reg (.vnot _) (by decide),
   met_reg (.vshl _) (by decide),
   met_reg (.vshr _) (by decide),
   met_reg (.vsra _) (by decide),
   met_reg (.vfsh _) (by decide),
   met_reg (.vclz _) (by decide),
   met_reg (.vpopc _) (by decide),
   met_reg (.vpackWrap _) (by decide),
   met_reg (.vpackClamp _) (by decide),
   met_reg (.vpackBits _) (by decide)⟩

/-- Words that meet the hypotheses, form by form (part 3). -/
theorem witness_VectorWordsWriteTheirResult_3 :
    Met vs vb .vunpackLo 0x3B ⟨7, 0x20C000, 0x244000, 0, false, true, false, 0, 0, 0, false, 0⟩ ∧
    Met vs vb .vunpackHi 0x3B ⟨11, 0x20C000, 0x244000, 0, false, true, false, 0, 0, 0, false, 8⟩ ∧
    Met vs vb .vunpackBits 0x3B ⟨9, 0x20C000, 0x244000, 0x224000, false, true, false, 0, 0, 0, false, 0x10⟩ ∧
    Met vs vb .vcmp 0x40 ⟨9, 0x20C000, 0x244000, 0x224000, false, true, false, 0, 0, 0, false, 4⟩ ∧
    Met vs vb .vsel 0x41 ⟨0, 0x20C000, 0x244000, 0x224000, false, true, false, 0, 2, 0, false, 0⟩ ∧
    Met vs vb .vred 0x50 ⟨1, 0x20C000, 0x244000, 0, false, true, false, 0, 0, 0, false, 1⟩ ∧
    Met vs vb .vscan 0x51 ⟨9, 0x20C000, 0x244000, 0, false, true, false, 0, 0, 0, false, 3⟩ ∧
    Met vs vb .vgmax 0x52 ⟨2, 0x20C000, 0x244000, 0, false, true, false, 0, 0, 0, false, 8⟩ ∧
    Met vs vb .vperm 0x53 ⟨0, 0x20C000, 0x244000, 0x224000, false, true, false, 0, 0, 0, false, 0⟩ ∧
    Met vs vb .vbcast 0x54 ⟨9, 0x20C000, 0x244000, 0x224000, false, true, false, 0, 0, 0, false, 0⟩ ∧
    Met vs vb .viota 0x55 ⟨14, 0x20C000, 0x244000, 0x224000, false, true, false, 0, 0, 0, false, 0⟩ ∧
    Met vs vb .vrotm 0x56 ⟨0, 0x20C000, 0x244000, 0x224000, false, true, false, 0, 0, 0, false, 0⟩ ∧
    Met vs vb .vld 0x60 ⟨0, 0x20C000, 0x308005, 0, false, true, false, 0, 0, 0, false, 0⟩ ∧
    Met vs vb .vldIdx 0x60 ⟨0, 0x20C000, 0x308005, 0x224000, false, true, false, 0, 0, 0, false, 1⟩ ∧
    Met vs vb .vst 0x61 ⟨0, 0x308005, 0x244000, 0, false, true, false, 0, 0, 0, false, 0⟩ ∧
    Met vs vb .vstIdx 0x61 ⟨0, 0x308005, 0x244000, 0x224000, false, true, false, 0, 0, 0, false, 1⟩ ∧
    Met vs vb .vmov 0x64 ⟨0, 0x20C000, 0x244000, 0, true, true, false, 0, 0, 0, false, 0⟩ :=
  ⟨met_reg (.vunpackLo _) (by decide),
   met_reg (.vunpackHi _) (by decide),
   met_reg (.vunpackBits _) (by decide),
   met_reg (.vcmp _) (by decide),
   met_reg (.vsel _) (by decide),
   met_reg (.vred _) (by decide),
   met_reg (.vscan _) (by decide),
   met_reg (.vgmax _) (by decide),
   met_reg (.vperm _) (by decide),
   met_reg (.vbcast _) (by decide),
   met_reg (.viota _) (by decide),
   met_reg (.vrotm _) (by decide),
   met_reg (.vld _) (by decide),
   met_reg (.vldIdx _ (vs.me.vreg 9) rfl (by decide)) (by decide),
   met_row (.vst _) (by decide) (by decide),
   met_row (.vstIdx _ (vs.me.vreg 9) rfl (by decide) (by decide)) (by decide) (by decide),
   met_reg (.vmov _) (by decide)⟩

/-- A destination queue with room, a source queue with a row, and a bound table. -/
def vs2 : State :=
  { bk fun k => { k with block := some { vb with depth := 2, idx := 3, lx := [(1, 4)], bnd := [(0, 7), (1, 9)] },
                         queues := [(1, que 0 1 1 false), (4, que 0 0 0 false)],
                         tabs := [(2, some { cluster := false, row := 40, hdr := 0, poison := false })] } with sram := [] }

def vb2 : Block := { vb with depth := 2, idx := 3, lx := [(1, 4)], bnd := [(0, 7), (1, 9)] }

theorem witness_VectorWordsWriteTheirResult_4 :
    Met vs2 vb2 .vmov 0x64 ⟨0, 0x130000, 0x126000, 0, false, false, false, 0, 0, 0, false, 0⟩ ∧
    Met vs2 vb2 .vmov 0x64 ⟨0, 0x304005, 0x126000, 0, false, false, false, 0, 0, 0, false, 0⟩ ∧
    Met vs2 vb2 .vmov 0x64 ⟨0, 0, 0x126000, 0, false, false, false, 0, 0, 0, false, 0⟩ ∧
    Met vs2 vb2 .vtab 0x20 ⟨1, 0x20C000, 0x244000, 0, false, false, false, 0, 0, 1, false, 18⟩ := by
  refine ⟨met_row (.vmov _) (by decide) (by decide), ?_, met_row (.vmov _) (by decide) (by decide),
    met_reg (.vtabBound _ (by decide) ⟨false, 40, 0, false⟩ rfl (by decide)) (by decide)⟩
  exact met_row (.vmov _) (by decide) (by decide)

/-- Operands of a lane statement. -/
def vin (ty fx : Nat) : VIn :=
  vIn vb ⟨BitVec.ofNat 4 ty, 0, 0, 0, false, false, false, 0, 0, 1, false, BitVec.ofNat 5 fx⟩
    { a := { VReg.zero with row := 0x7FC00000_3F800000_80000000_FFFFFFFF }, b := { VReg.zero with row := 0x3F800000_7FC00000_00000002_40000000 },
      d := VReg.zero, spec := 0 } Mask.zero .none

theorem witness_lanes :
    (∀ ty ∈ [7, 8, 9, 10, 11, 12, 13, 14], let i := vin ty 0
      i.ty = ty ∧ 0 < 2048 / i.w ∧ 0 < 2 * (2048 / i.w) ∧ 0 < 2048 / i.w / 2 ∧ (16 ≤ i.w ↔ ty ≠ 7 ∧ ty ≠ 11) ∧
      (i.w ≤ 32 ↔ ty ≠ 10 ∧ ty ≠ 14)) ∧
    (∀ ty ∈ [1, 2, 3], let i := vin ty 1
      i.ty = ty ∧ 0 < 2048 / i.w ∧ 0 < 2048 / max (Num.widthOf i.fx) i.w) ∧
    (let v (x : Nat) := (vin 1 1).val x
     (v 0x7FC00000).isNaN = true ∧ (v 0x3F800000).isNaN = false ∧ Num.cmp (v 0x3F800000) (v 0x40000000) = .lt ∧
     Num.cmp (v 0x40000000) (v 0x3F800000) = .gt) := by decide

/-- Operands with this bound table and element 0 of A. -/
def tabIn (hdr : Row) (x : Nat) : VIn := { vin 1 1 with tab := .bound hdr [], a := { VReg.zero with row := BitVec.ofNat 2048 x } }

/-- A table of equal segments of 4 from 1 on, by their index; one by exponent; one by exponent and its parity. -/
def hdrOf (mode : Nat) : Row := BitVec.ofNat 2048 (mode + if mode = 0 then 0x3F800000 * 2 ^ 32 + 2 * 2 ^ 64 else 0)

theorem witness_more_lanes :
    (∀ mode ∈ [0, 1, 2], headerOk (hdrOf mode) = true ∧ bits (hdrOf mode) 1 0 = mode ∧
      (tabIn (hdrOf mode) 0).tab = .bound (hdrOf mode) [] ∧ (tabIn (hdrOf mode) 0).ty = 1) ∧
    (let f (x : Nat) := (tabIn (hdrOf 0) 0).val x
     let x0 := Num.value Num.f32 (bits (hdrOf 0) 63 32)
     let past (x : Nat) := Num.cmp (f x) (Num.add .rne x0 (.fin false 1 (sgn 32 (bits (hdrOf 0) 95 64) + 8)))
     (f 0x7FC00000).isNaN = true ∧ (f 0x3F000000).isNaN = false ∧ Num.cmp (f 0x3F000000) x0 = .lt ∧
     Num.cmp (f 0x45000000) x0 = .gt ∧ past 0x45000000 = .gt ∧ past 0x40A00000 = .lt ∧ past 0x41000000 = .lt ∧
     (match Num.sub .rne (f 0x40A00000) x0 with | .fin _ _ e => decide (e < 2) | _ => false) = true ∧
     f 0xFF800000 = .inf true ∧ (match f 0 with | .fin _ m _ => m == 0 | _ => false) = true ∧
     (match f 0x40490FDB with | .fin _ m _ => m != 0 | _ => false) = true) ∧
    (∀ ty ∈ [4, 5, 6, 7, 11], ∀ fx ∈ [1, 2, 3], (vin ty fx).ty = ty ∧ (vin ty fx).fx = fx ∧
      0 < 2048 / Num.widthOf (vin ty fx).fx) ∧
    (∀ ty ∈ [1, 2, 3], ∀ fx ∈ [4, 5, 6, 7, 11], (vin ty fx).ty = ty ∧ (vin ty fx).fx = fx) ∧
    (∀ ty ∈ [9, 13], let i := vin ty 16
      i.ty = ty ∧ min (i.b.row.toNat % 64) 32 = 0 ∧
      min (({ i with b := { VReg.zero with row := 63 } } : VIn).b.row.toNat % 64) 32 = 32) ∧
    (∀ fx ∈ [0, 1, 5, 8, 25], ∀ ty ∈ [1, 2, 3, 7, 8, 9, 10, 11, 12, 13, 14], (vin ty fx).fx = fx ∧ (vin ty fx).ty = ty ∧
      0 < 64 / 2 ^ (fx / 8 % 4)) ∧
    (let f (x : Nat) := Num.value Num.f32 x
     (f 0x7FC00000).isNaN = true ∧ f 0xFF800000 = .inf true ∧ f 0x7F800000 = .inf false ∧
     (Num.sub .rne (f 0x3F800000) (f 0x40000000)).isNaN = false) := by decide

/-- A V-word with these opcode-independent fields and no qualifier. -/
def vw (d a b : BitVec 22) (fx : BitVec 5) : VWord := ⟨0, d, a, b, false, false, false, 0, 0, 0, false, fx⟩

theorem witness_OtherVectorWordsIssue :
    (vs2.issuing vs2.cur = some vb2 ∧ vs2.me.arrayWrites = false ∧ vb2.depth = 1 + 1 ∧ 1 < vb2.brk ∧ vb2.ix 1 + 1 < vb2.bound 1) ∧
    vs.issuing vs.cur = some vb ∧ vb.depth = 0 ∧
    (issuesNow vs2 vb2 0x01 (vw 0 0x244000 0 1) 0 = true ∧ (vw 0 0x244000 0 1).fx.toNat % 8 < vb2.depth ∧
      (match vs2.readOpnd vs2.cur vb2 (.v 17) 0 with | .ok a => !a.poison && !a.tags.getLsbD 0 | _ => false) = true) ∧
    issuesNow vs2 vb2 0x02 (vw 0 0 0 0) 0 = true ∧
    issuesNow vs2 vb2 0x04 (vw 0 0x244000 0 11) 0 = true ∧
    (issuesNow vs2 vb2 0x21 (vw 0 0x308005 0 11) 0 = true ∧ opnd 0x308005 = .ad 2 5 ∧
      (vs2.freeKey (rowAt 0 (descSpace (vs2.me.desc 2)) (descRow (vs2.me.desc 2) vb2.ix 5))).toOption = some 10 ∧
      (rowAt 0 (descSpace (vs2.me.desc 2)) (descRow (vs2.me.desc 2) vb2.ix 5 + 12)).isOk = true ∧
      headerOk (vs2.readRow 0 10).row = true) ∧
    (∀ rng : Bool, let w := vw 0x308005 0x244000 0x224000 (if rng then 1 else 0)
      issuesNow vs2 vb2 0x62 w 0 = true ∧ opnd w.d = .ad 2 5 ∧ (vs2.freeKey (descKey 0 vs2.me vb2 2 5)).isOk = true) ∧
    (let w := vw 0x308005 0x126000 0 0
     issuesNow vs2 vb2 0x63 w 0 = true ∧ opnd w.a = .queue 1 true 0 ∧ opnd w.d = .ad 2 5 ∧
     0 + (w.fx.toNat % 16 + 1) ≤ (vs2.me.queue 1).fill ∧ (rowRun vs2 0 vb2 2 5 1).isOk = true) ∧
    (let w := vw 0x130000 0x308005 0 15
     issuesNow vs2 vb2 0x63 w 0 = true ∧ opnd w.d = .queue 4 false 0 ∧ opnd w.a = .ad 2 5 ∧ 4 ≤ 5 ∧
     (vs2.me.queue 4).tail + 0 + (w.fx.toNat % 16 + 1) ≤ (vs2.me.queue 4).head + 16 ∧ (rowRun vs2 0 vb2 2 5 16).isOk = true) ∧
    (let w := vw 0x20C000 0x244000 0x224000 0
     issuesNow vs2 vb2 0x42 w 0 = true ∧ (vs2.me.mskOf w.msk).taint = false ∧ opnd w.d = .v 3) := by decide

theorem witness_VectorFaultsStopTheirBlock :
    (vForbidden 0x61 (vw 0x20C000 0x244000 0 0) = true ∧ vs.issuing vs.cur = some vb) ∧
    (let s := bk fun k => { k with block := some vb, vregs := [(17, { VReg.zero with tags := 4, cause := 9 })] }
     let w := vw 0x308005 0x244000 0 0
     issuesNow s vb 0x61 w 0 = true ∧ opnd w.d = .ad 2 5 ∧ (s.freeKey (descKey 0 s.me vb 2 5)).isOk = true ∧
     ∃ o, readOps s s.cur vb 0x61 w 0 = .ok o ∧ (makes vb 0x61 w evalCopy .none false o (s.me.mskOf w.msk)).tags &&&
       (makes vb 0x61 w evalCopy .none false o (s.me.mskOf w.msk)).lanes ≠ 0) ∧
    (let s := bk fun k => { k with block := some vb, arr := [⟨5, ⟨1, 0, 0, 0, false, 0, false, 0, false, false, 0⟩, [], [], [],
        false, 0, false, [], false, 0, 0⟩] }
     vForbidden 0x64 (vw 0x20C000 0x244000 0 0) = false ∧ s.me.arrayWrites = true ∧ s.issuing s.cur = some vb) ∧
    (let s := bk fun k => { k with block := some vb }
     let w := vw 0x20C000 0x126000 0 0
     s.issuing s.cur = some vb ∧ s.me.arrayWrites = false ∧ vForbidden 0x64 w = false ∧ vb.qual w.fi w.li w.flv = true ∧
     ∃ fm q adv j, vForm 0x64 w.ty.toNat w.fx.toNat = some fm ∧ fm.a = true ∧ opnd w.a = .queue q adv j ∧ (s.me.queue q).fill ≤ j) ∧
    (let s := bk fun k => { k with block := some vb, queues := [(4, que 0 16 16 false)] }
     let w := vw 0x130000 0x244000 0 0
     s.issuing s.cur = some vb ∧ s.me.arrayWrites = false ∧ vForbidden 0x64 w = false ∧ vb.qual w.fi w.li w.flv = true ∧
     ∃ fm q adv j, vForm 0x64 w.ty.toNat w.fx.toNat = some fm ∧ fm.d = true ∧ opnd w.d = .queue q adv j ∧
       (s.me.queue q).head + qCap q ≤ (s.me.queue q).tail + j) := by
  refine ⟨by decide, ⟨by decide, by decide, by decide, ?_⟩, by decide, ⟨by decide, by decide, by decide, by decide,
    _, 1, true, 0, rfl, by decide, by decide, by decide⟩, ⟨by decide, by decide, by decide, by decide,
    _, 4, false, 0, rfl, by decide, by decide, by decide⟩⟩
  refine ⟨{ a := { VReg.zero with tags := 4, cause := 9 }, b := VReg.zero, d := VReg.zero, spec := 0 }, rfl, by decide⟩

/-- tanh(1.25) is 0.848283…: in BF16 0x3F59 and 0x3F5A are within one unit in the last place and 0x3F5B is not; in FP32
0x3F59291E is within 2^(-16) of it and 0x3F592B00 is not (R157). -/
theorem test_table_accuracy :
    [0x3F58, 0x3F59, 0x3F5A, 0x3F5B].map (tableMeets Sys2Proof.Num.bf16 .rne (Fx.builtin 1 (5 * 2 ^ 510))) = [false, true, true, false] ∧
    [0x3F59291E, 0x3F592B00].map (tableMeets Sys2Proof.Num.f32 .rtz (Fx.builtin 1 (5 * 2 ^ 510))) = [true, false] := by
  decide +kernel

/-! ### The matrix array and the blocks of the loop engine -/

/-- What the statement assumes of an M-word of opcode `mop` and its block. -/
def MetM (s : State) (x : Block) (i : MWord → Instr) (mop : Nat) (w : MWord) : Prop :=
  ∃ a, Joins s x (i w) mop w a ∧ s.issuing s.cur = some x ∧ mForbidden mop w = false ∧ s.me.arrayWrites = false ∧
    x.qual w.fi w.li w.flv = true

def fetched (r : Fetch) : Bool :=
  match r with
  | .got _ => true
  | _ => false

theorem got_ex {r : Fetch} (h : fetched r = true) : ∃ a, r = .got a := by
  cases r with
  | got a => exact ⟨a, rfl⟩
  | fail o => exact absurd h (by simp [fetched])

def gathered (r : Gather) : Bool :=
  match r with
  | .rows _ => true
  | _ => false

theorem rows_ex {r : Gather} (h : gathered r = true) : ∃ a, r = .rows a := by
  cases r with
  | rows a => exact ⟨a, rfl⟩
  | bad => exact absurd h (by simp [gathered])
  | range c => exact absurd h (by simp [gathered])

/-- Register operands from `v0` and `v32`. -/
def spV (n : BitVec 48) : BitVec 48 := n <<< 40
/-- Scratchpad rows named by `s0`. -/
def spR : BitVec 48 := 0x400000000000

theorem witness_MatrixWordsJoinTheArray :
    MetM vs vb .mma 1 ⟨2, 2, spV 0, spV 32, true, 3, true, 0, true, false, 0⟩ ∧
    MetM vs vb .mma 1 ⟨4, 5, spV 32, spR, false, 1, false, 0, false, true, 0⟩ ∧
    MetM vs vb .mmax 2 ⟨6, 6, spV 0, spV 32, false, 3, false, 0x7C0000, false, false, 0⟩ ∧
    MetM vs vb .mmax 2 ⟨4, 4, spV 0, spR, false, 0, false, 0x820001, false, false, 0⟩ ∧
    MetM vs vb .mzero 3 ⟨0, 0, 0, 0, true, 0, false, 0, false, false, 0⟩ ∧
    MetM vs vb .mload 4 ⟨1, 0, spR, 0, false, 0, false, 0, false, false, 0⟩ ∧
    MetM vs vb .mstore 5 ⟨3, 0, spR, 0, false, 0, true, 0, false, false, 0⟩ ∧
    MetM vs vb .mrow 6 ⟨0, 0, spV 62, 0, false, 127, false, 0, false, false, 0⟩ ∧
    MetM vs vb .medge 7 ⟨0, 0, 0, 0, false, 0, false, 0x7F7F, false, false, 0⟩ ∧
    MetM vs vb .mtrans 8 ⟨4, 0, spV 0, spV 0, false, 0, false, 0, false, false, 0⟩ ∧
    MetM vs vb .mtrans 8 ⟨2, 0, spR, spR, false, 0, false, 0, false, false, 0⟩ := by
  have tail {mop : Nat} {w : MWord} (h : (vs.issuing vs.cur == some vb && !mForbidden mop w && !vs.me.arrayWrites &&
      vb.qual w.fi w.li w.flv) = true) : vs.issuing vs.cur = some vb ∧ mForbidden mop w = false ∧ vs.me.arrayWrites = false ∧
      vb.qual w.fi w.li w.flv = true := by
    simpa [and_assoc] using h
  refine ⟨?_, ?_, ?_, ?_, ⟨_, .mzero _ (by decide), tail (by decide)⟩, ?_, ?_, ⟨_, .mrow _ (by decide), tail (by decide)⟩,
    ⟨_, .medge _ (by decide), tail (by decide)⟩, ?_, ?_⟩
  · obtain ⟨a, ha⟩ := got_ex (r := fetchSpec vs vs.cur vb (spV 0) ((3 + 1) * 8) (fun sh => stepRows sh (3 + 1) 8)) (by decide)
    obtain ⟨b, hb⟩ := got_ex (r := fetchSpec vs vs.cur vb (spV 32) ((3 + 1) * 8) (fun sh => stepRows sh (3 + 1) 8)) (by decide)
    exact ⟨_, .mma _ a b (by decide) ha hb, tail (by decide)⟩
  · obtain ⟨a, ha⟩ := got_ex (r := fetchSpec vs vs.cur vb (spV 32) ((1 + 1) * 16) (fun sh => stepRows sh (1 + 1) 16)) (by decide)
    obtain ⟨b, hb⟩ := got_ex (r := fetchSpec vs vs.cur vb spR ((1 + 1) * 16) (fun sh => stepRows sh (1 + 1) 16)) (by decide)
    exact ⟨_, .mma _ a b (by decide) ha hb, tail (by decide)⟩
  · obtain ⟨a, ha⟩ := got_ex (r := fetchSpec vs vs.cur vb (spV 0) ((3 + 1) * 8) (fun sh => stepRows sh (3 + 1) 8)) (by decide)
    obtain ⟨b, hb⟩ := got_ex (r := fetchSpec vs vs.cur vb (spV 32) ((3 + 1) * 8) (fun sh => stepRows sh (3 + 1) 8)) (by decide)
    obtain ⟨c, hc⟩ := got_ex (r := fetchScales vs vs.cur vb ⟨6, 6, spV 0, spV 32, false, 3, false, 0x7C0000, false, false, 0⟩)
      (by decide)
    exact ⟨_, .mmax _ a b c (by decide) ha hb hc, tail (by decide)⟩
  · obtain ⟨a, ha⟩ := got_ex (r := fetchSpec vs vs.cur vb (spV 0) ((0 + 1) * 16) (fun sh => stepRows sh (0 + 1) 16)) (by decide)
    obtain ⟨b, hb⟩ := got_ex (r := fetchSpec vs vs.cur vb spR ((0 + 1) * 16) (fun sh => stepRows sh (0 + 1) 16)) (by decide)
    obtain ⟨c, hc⟩ := got_ex (r := fetchScales vs vs.cur vb ⟨4, 4, spV 0, spR, false, 0, false, 0x820001, false, false, 0⟩)
      (by decide)
    exact ⟨_, .mmax _ a b c (by decide) ha hb hc, tail (by decide)⟩
  · obtain ⟨a, ha⟩ := got_ex (r := fetchSpec vs vs.cur vb spR 256 (fun sh => tileRows sh 2)) (by decide)
    exact ⟨_, .mload _ a (by decide) ha, tail (by decide)⟩
  · obtain ⟨k, hk⟩ := rows_ex (r := vs.storeKeys vs.cur vb ⟨3, 0, spR, 0, false, 0, true, 0, false, false, 0⟩ (vs.me.tile false) 1) (by decide)
    exact ⟨_, .mstore _ k (by decide) hk (by decide), tail (by decide)⟩
  · obtain ⟨a, ha⟩ := got_ex (r := fetchSpec vs vs.cur vb (spV 0) 64 (fun sh => stepRows sh 1 64)) (by decide)
    exact ⟨_, .mtransReg _ a (by decide) ha (by decide), tail (by decide)⟩
  · have ha : fetchSpec vs vs.cur vb spR 128 (fun sh => stepRows sh 1 128) = .got (List.replicate 128 (vs.readRow 0 0)) := by
      decide
    have hk : gatherSpec vs vs.cur vb spR (fun sh => stepRows sh 1 128) = .rows (List.replicate 128 0) := by decide
    exact ⟨_, .mtransRows _ _ _ (by decide) ha (by decide) hk (by decide), tail (by decide)⟩

/-- An M-word in the array that has read rows of zeros. -/
def arrW (mop : Nat) (bspec : BitVec 48) (started : Bool) (till : Nat := 0) : ArrOp :=
  ⟨mop, ⟨1, 0, spV 4, bspec, true, 3, true, 0, false, false, 0⟩, [], [], [], false, 0, false, [], started, 0, till⟩

/-- Bank 0 with that word in the array. -/
def arrS (o : ArrOp) : State := bk fun k => { k with arr := [o] }

/-- Paired mode for the cores of cluster 0, the window at its shortest. -/
def paired (s : State) : State := { s with clusters := [(0, { Cluster.zero with acmode := 0x402 })] }

theorem witness_ArrayWordsComplete :
    validBank 0 = true ∧
    (∀ mop ∈ [1, 2, 3, 4, 5, 6, 7, 8], ((arrS (arrW mop (spV 4) false)).bank 0).arr = [arrW mop (spV 4) false] ∧
      (arrS (arrW mop (spV 4) false)).pairedWindow 0 = none ∧ (arrW mop (spV 4) false).mop = mop ∧
      specSrc (arrW mop (spV 4) false).w.bspec = 0 ∧ specSrc (arrW mop spR false).w.bspec ≠ 0) ∧
    (((paired (arrS (arrW 3 0 true))).bank 0).arr = [arrW 3 0 true] ∧ (arrW 3 0 true).till ≤ (paired (arrS (arrW 3 0 true))).copyOf 0 ∧
      (paired (arrS (arrW 3 0 true))).copyOf 0 < (arrW 3 0 true 9).till) ∧
    (∃ w, (paired (arrS (arrW 3 0 false))).pairedWindow 0 = some w ∧
      unitStart w 0 (arrW 3 0 false).since (arrW 3 0 false).units.2 ≤ (paired (arrS (arrW 3 0 false))).copyOf 0) ∧
    (∃ w, (paired (arrS { arrW 3 0 false with since := 1 })).pairedWindow 0 = some w ∧
      (paired (arrS { arrW 3 0 false with since := 1 })).copyOf 0 < unitStart w 0 1 (arrW 3 0 false).units.2) :=
  ⟨by decide, by decide, by decide, ⟨_, rfl, by decide⟩, ⟨_, rfl, by decide⟩⟩

/-- A `RUN` at the head of bank 0's loop-engine queue, depth d. -/
def runS (d : Word) : State :=
  bk fun k => { k with copied := true, cmds := [(1, [⟨.run (d * 0x10000 + 5) [] 0 0, 64, extSq⟩])] }

/-- Bank 0's `RUN` waits behind its core's other bank, in adaptive mode 1. -/
def migS : State :=
  { State.reset with
    clusters := [(0, { Cluster.zero with acmode := 1 })]
    banks := [(0, { Bank.zero with run := .live, copied := true, leWait := some 0,
                                   cmds := [(1, [⟨.run 5 [] 0 0, 64, extSq⟩])],
                                   ads := (List.range 16).map (fun n => (n, BitVec.ofNat 256 (2 ^ 144))) }),
              (1, { Bank.zero with run := .live, block := some vb })] }

/-- A block that draws the bound of its level 0 from `dq2`. -/
def boundS (n : Nat) : State :=
  bk fun k => { k with lbs := [(0, .queue 2)], block := some { vb with depth := 1, phase := .enter 0 0 },
                       queues := [(2, { head := 3, tail := 4, rsv := 4, slots := [(3, { QSlot.zero with row := BitVec.ofNat 2048 n, filled := true })] })] }

/-- A `VMOV` in the next bundle of bank 0. -/
def bundleS : State := State.reset.withFetchWord 96 0x640830002440000000000000

theorem witness_BlocksStartIssueAndRetire_1 :
    (∀ s ∈ [runS 0, runS 2], validBank 0 = true ∧ ((s.bank 0).settings ((s.bank 0).cmdq 1)).cmdq 1 = (s.bank 0).cmdq 1 ∧
      (s.bank 0).cmdq 1 ≠ [] ∧ (s.bank 0).leReady = true ∧ ((s.bank 0).settings ((s.bank 0).cmdq 1)).mblk = none ∧
      s.leIdle (0 / 2) = true ∧ (s.bank (otherBank 0)).backHome = false ∧ (s.bank (otherBank 0)).leReady = false) ∧
    ((migS.bank 0).leReady = true ∧ ((migS.bank 0).settings ((migS.bank 0).cmdq 1)).mblk = none ∧
     bits (migS.cluster (bankCluster 0)).acmode 1 0 = 1 ∧ (migS.bank (otherBank 0)).holdsLE = true ∧
     (migS.bank 0).leWait = some 0 ∧ 0 + bits (migS.cluster (bankCluster 0)).acmode 7 4 * 256 ≤ migS.counter ∧
     (migS.bank 0).mayMigrate = true ∧ migS.migrateTarget 0 = some 1) := by decide

/-- A `RUN` of bank 0 with a restart record registered, whose label is bundle n. -/
def regS (n : Nat) : State :=
  bk fun k => { k with copied := true, mblk := some (BitVec.ofNat 512 n), cmds := [(1, [⟨.run 5 [] 0 0, 64, extSq⟩])] }

theorem witness_BlocksStartIssueAndRetire_registered :
    (∀ n ∈ [4, 9], ((regS n).bank 0).leReady = true ∧ (regS n).leIdle 0 = true ∧
      (((regS n).bank 0).settings (((regS n).bank 0).cmdq 1)).mblk = some (BitVec.ofNat 512 n)) ∧
    bits (BitVec.ofNat 512 4) 9 0 < bits (5 : Word) 9 0 ∧ bits (5 : Word) 9 0 ≤ bits (BitVec.ofNat 512 9) 9 0 ∧
    ((boundS (2 ^ 24)).bank 0).bsrc 0 = .queue 2 ∧ 2 ^ 24 ≤ (BitVec.ofNat 2048 (2 ^ 24)).toNat % 2 ^ 32 ∧
    (let s := bk fun k => { k with
       lbs := [(0, .queue 2)], block := some { vb with depth := 1, phase := .enter 0 0 },
       queues := [(2, { head := 3, tail := 4, rsv := 4, slots := [(3, { QSlot.zero with poison := true, filled := true })] })] }
     s.ownsLE 0 = true ∧ (((s.bank 0).queue 2).slot 2 3).poison = true ∧ ((s.bank 0).queue 2).head < ((s.bank 0).queue 2).tail) := by
  decide

/-- The sum of the block of a word whose rows are zeros is zero, and a scale code of 255 makes it NaN (R165, R166). -/
theorem witness_ArrayWordsComplete_sums :
    BlockSum (arrW 1 0 false) 0 5 7 0 ∧ BlockSum { arrW 2 0 false with srows := [BitVec.ofNat 2048 255] } 0 0 3 0x7FC00000 ∧
    [2, 3].contains 2 = true := by
  refine ⟨?_, ?_, by decide⟩ <;> (unfold BlockSum; decide)

theorem witness_BlocksStartIssueAndRetire_2 :
    ((bundleS.bank 0).block.map fun x => x.phase == .issue && !x.trapped && decide (x.idx ≤ 1023) && x.host.isNone) = some true ∧
    bundleS.ownsLE 0 = true ∧ bundleS.tentNear 0 = false ∧ (bundleS.bank 0).ibad = [] ∧ (bundleS.bank 0).arrayWrites = false ∧
    (match decodeBundle false (Assoc.get 0 (bundleS.bank 0).ibuf 0), (bundleS.bank 0).block with
      | .ok (v0, v1, none), some x => (match v0.go bundleS 0 x, v1.go bundleS 0 x with
        | .ok w0, .ok w1 => w0 != [] && w1 == [] && !endsPoint (w0 ++ w1)
        | _, _ => false)
      | _, _ => false) = true := by decide

theorem witness_BlocksStartIssueAndRetire_3 :
    (∀ n ∈ [0, 7],
      ((boundS n).bank 0).block = some { vb with depth := 1, phase := .enter 0 0 } ∧ ((boundS n).bank 0).bsrc 0 = .queue 2 ∧
      (boundS n).ownsLE 0 = true ∧ (((boundS n).bank 0).queue 2).head < (((boundS n).bank 0).queue 2).tail ∧
      ((((boundS n).bank 0).queue 2).slot 2 3).row = BitVec.ofNat 2048 n ∧ n % 2 ^ 32 < 2 ^ 24 ∧
      ((((boundS n).bank 0).queue 2).slot 2 3).poison = false) ∧
    (∀ x ∈ [{ vb with phase := .finished }, { vb with host := some 1 }],
      ((bk fun k => { k with block := some x }).bank 0).block = some x ∧
      (x.phase = .finished → x.trapped = false ∧ (bk fun k => { k with block := some x }).ownsLE 0 = true ∧
        ((bk fun k => { k with block := some x }).bank 0).arr = [] ∧
        ((bk fun k => { k with block := some x }).bank 0).canPush 1 x.ext = true)) ∧
    (let x := { vb with host := some 1 }
     let w := ((encode (.vmov (vw 0x20C000 0x126000 0 0))).getD (0, 0)).2
     (bk fun k => { k with block := some x, ibuf := [(0, BitVec.ofNat 384 w)] }).wantsHome 0 x = true) ∧
    (∀ busy : Bool, let s := bk fun k => { k with block := some { vb with home := true } }
     let s1 := if busy then s.setBank 1 { Bank.zero with run := .live, block := some vb } else s
     s1.leIdle 0 = !busy) := by decide

/-! ### Transforms, copies, multicasts and rings -/

/-- An extension word that pushes and pops nothing. -/
def extNo : Ext := { push := 7, popa := 7, popb := 7, popc := 7, sig := false, scb := 0, wt := false, wcb := 0 }

/-- An operand of a transform: n rows from row r. -/
def xfe (n : Nat) (cluster : Bool) (r : Nat) : Word := BitVec.ofNat 64 (n * 2 ^ 48 + (if cluster then 65536 else 0) + r)

/-- A transform of partition 0 in bank 0: n rows of local SRAM to m rows of cluster SRAM. -/
def xf (n m op : Nat) (ext : Ext) : Xform :=
  { b := 0, part := 0, d := xfe m true 7, a := xfe n false 40, c := BitVec.ofNat 64 op, ext := ext, served := 0, since := 0 }

/-- Bank 0 with `XFORM` operands, k transforms waiting in its partition's lane at engine 0. -/
def xfS (d a c : Word) (k : Nat) : State :=
  { regs [(1, d), (2, a), (3, c)] with
    clusters := [(0, { Cluster.zero with lanes := List.replicate k (0, xf 1 1 0 extNo) })] }

/-- A transform that runs at engine 0, cycle 100,000. -/
def runX (x : Xform) : State :=
  { bk id with
    counter := 100000
    dies := [(0, { Die.zero with pslot := [(0, 1)] })]
    clusters := [(0, { Cluster.zero with running := [(0, some x)] })] }

theorem witness_TransformsStartAndRetire :
    (∀ k ∈ [0, 1, 2], let s := xfS (xfe 1 true 32767) (xfe 1 false 6143) 0 k
      s.me.slot = none ∧ s.me.run = .live ∧ xformOk (s.reg 1) (s.reg 2) (s.reg 3) = true ∧ xfRangeOk (s.reg 1) = true ∧
      xfRangeOk (s.reg 2) = true ∧ (((s.cluster 0).lane 0 0).length < 2 ↔ k ≠ 2)) ∧
    xformOk (xfe 1 true 0) (xfe 0 false 0) 0 = false ∧
    (xformOk (xfe 1 true 32768) (xfe 1 false 6143) 0 = true ∧ xfRangeOk (xfe 1 true 32768) = false ∧
     xformOk (xfe 2 true 0) (xfe 2 false 6143) 0 = true ∧ xfRangeOk (xfe 2 false 6143) = false) ∧
    ¬(extSq.push = 7 ∧ extSq.popa = 7 ∧ extSq.popb = 7 ∧ extSq.popc = 7) ∧
    (let s := xfS 0 0 0 1
     validCluster 0 = true ∧ (s.cluster 0).lane 0 0 = xf 1 1 0 extNo :: [] ∧
     Assoc.get none (s.cluster 0).running (0 * 16 + 0) = none ∧ (s.bank 0).lanesServed = true ∧ s.packets = []) ∧
    (let e : Ext := { extNo with wt := true, wcb := 1 }
     bits ((waitS 0).bank 0 |>.cbar e.wcb.toNat) 63 32 = 1 ∧
     bits ((bk fun k => { k with cb := [(1, 0x100000001)] }).bank 0 |>.cbar e.wcb.toNat) 63 32 ≤
       bits ((bk fun k => { k with cb := [(1, 0x100000001)] }).bank 0 |>.cbar e.wcb.toNat) 31 0) ∧
    (∀ x ∈ [xf 1 1 0 extNo, xf 64 64 0x5010 { extNo with sig := true, scb := 3 }, xf 256 512 0x5030 extNo], let s := runX x
      validCluster 0 = true ∧ x.part ≤ 15 ∧ xformOk x.d x.a x.c = true ∧
      Assoc.get none (s.cluster 0).running (0 * 16 + x.part) = some x ∧ x.needs ≤ x.had (s.xfMask 0 x) (s.copyOf (0 / 16)) ∧
      (s.bank x.b).inArea = false) := by decide
/-- A layout record: DEPTH, SPACE, bound and coefficient of level 0. -/
def rec1 (space bound coef : Nat) : BitVec 512 :=
  BitVec.ofNat 512 (coef + bound * 2 ^ 240 + 2 ^ 384 + space * 2 ^ 388)

/-- An endpoint: layout slot and row. -/
def ep (slot row : Nat) : Word := BitVec.ofNat 64 (slot * 2 ^ 48 + row)

/-- Bank 0 with the records in slots 0 and 1, that `CPY` at the head of its queue. -/
def cpyS (recD recS : BitVec 512) (d a ctl i : Word) (caps : List HCap) (ext : Ext) (f : Bank → Bank) : State :=
  placed fun k => f { k with layouts := [(0, recD), (1, recS)],
                             cmds := [(2, [{ op := .engine .cpy d a ctl i caps, pc := 64, ext := ext }])] }

/-- An extension word that pops a token of the loop engine and signals barrier 2. -/
def extCp : Ext := { push := 1, popa := 1, popb := 7, popc := 7, sig := true, scb := 2, wt := false, wcb := 0 }

/-- The conditions of an issue, as one check. -/
def cpyReady (s : State) (cmd : Cmd) (r : CopyRun) : Bool :=
  let k := s.bank 0
  let o := s.bank (otherBank 0)
  k.served && k.copy.isNone && k.cmdq 2 == [cmd] && k.canIssue 2 cmd.ext && k.faults == [] && !o.copying && o.nextCopy.isNone &&
  !s.copyHeld 0 r

theorem witness_CopiesIssueMoveAndRetire_1 :
    (let s := cpyS (rec1 2 4 1) (rec1 1 4 3) (ep 0 32764) (ep 1 0) 0 0 [] extCp fun k => { k with tokens := [(chan 1 2, 1)] }
     let cmd : Cmd := { op := .engine .cpy (ep 0 32764) (ep 1 0) 0 0 [], pc := 64, ext := extCp }
     let r := newCopy (s.bank 0) cmd (ep 0 32764) (ep 1 0) 0 0 []
     validBank 0 = true ∧ cpyReady s cmd r = true ∧ r.combOk = true ∧ r.rangeOk = true ∧ s.windowClash 0 r = false ∧
     r.intentFault.isNone = true ∧ r.ranges = []) ∧
    (let s := cpyS (rec1 2 4 1) (rec1 1 4 3) (ep 0 32765) (ep 1 0) 0 0 [] extNo id
     let cmd : Cmd := { op := .engine .cpy (ep 0 32765) (ep 1 0) 0 0 [], pc := 64, ext := extNo }
     let r := newCopy (s.bank 0) cmd (ep 0 32765) (ep 1 0) 0 0 []
     cpyReady s cmd r = true ∧ r.combOk = true ∧ r.rangeOk = false) := by decide

/-- As `placed`, with a page at 128 KiB that holds every right. -/
def paged (f : Bank → Bank) : State := ((placed f).place 0x8010 (natLE 8 0x100003B)).modDie 0 fun d => { d with pslot := openDie.pslot }

/-- A copy of the page at 128 KiB to the instruction buffer, before its checks. -/
def toBuffer : CopyRun :=
  newCopy { Bank.zero with layouts := [(0, rec1 4 3 1), (1, rec1 0 0 1)] } { op := .lnset 0 (.value 1), pc := 0, ext := extNo } (ep 0 6)
    0x1820000000000 0 0 [{ h := 2, base := 0x20000, intent := 5 }]

def pinned (x : Pinning) : Bool :=
  match x with
  | .ok p _ => p.length == 1
  | _ => false

theorem pins_ex {x : Pinning} (h : pinned x = true) : ∃ p s, x = .ok p s := by
  cases x with
  | ok p s => exact ⟨p, s, rfl⟩
  | fault _ _ | wait _ _ => exact absurd h (by simp [pinned])

/-- A copy that has started: n points of a row of local SRAM each, to cluster SRAM, the next point being i. -/
def copyRun (n i : Nat) (ctl : Word) : CopyRun :=
  { newCopy { Bank.zero with layouts := [(0, rec1 2 n 1), (1, rec1 1 0 2)] } { op := .lnset 0 (.value 1), pc := 0, ext := extNo } (ep 0 9)
      (ep 1 11) ctl 0 [] with started := true, n := i }

def copyOf (r : CopyRun) : State := bk fun k => { k with copy := some r }

/-- What a read by an engine has had: its units, and then a state that counts them. -/
theorem serve_ex {x : Bool × State} (h : x.1 = true) : ∃ s, x = (true, s) := ⟨x.2, by rw [← h]⟩

/-- The next point of a copy of bank 0: it moves a row (1), with an index out of range (2), or is skipped (0). -/
def pointIs (s : State) (r : CopyRun) : Nat :=
  match Toll.point { s := s, paid := r.paid, i := 0 } 0 0 r r.n with
  | .row c p out u => match u.s.copyEgress 0 c p with
    | .ok _ => 1 + b2n out
    | _ => 4
  | .skip _ => 0
  | _ => 5

theorem row_ex {s : State} {r : CopyRun} {o : Bool} (h : pointIs s r = 1 + b2n o) :
    ∃ c p u s2 s3 n, Toll.point { s := s, paid := r.paid, i := 0 } 0 0 r r.n = .row c p o u ∧ u.s.copyEgress 0 c p = .ok s2 ∧
      s2.writePlace 0 0 r c p = (s3, n) := by
  have hb : ∀ o, b2n o ≤ 1 := by decide
  unfold pointIs at h
  split at h
  · split at h
    · rename_i o' _ _ _ _ _
      have : o' = o := by revert h; cases o' <;> cases o <;> simp [b2n]
      subst this
      exact ⟨_, _, _, _, _, _, ‹_›, ‹_›, rfl⟩
    · have := hb o; omega
  · omega
  · have := hb o; omega

theorem skip_ex {s : State} {r : CopyRun} (h : pointIs s r = 0) :
    ∃ u, Toll.point { s := s, paid := r.paid, i := 0 } 0 0 r r.n = .skip u := by
  unfold pointIs at h
  split at h
  · split at h <;> omega
  · exact ⟨_, ‹_›⟩
  · omega

/-- A started copy whose index, of local SRAM, is out of range, by IXOOB. -/
def strayRun (oob : Nat) : CopyRun :=
  { copyRun 6 0 0x80000000 with recI := BitVec.ofNat 512 (2 ^ 388 + oob * 2 ^ 406) }

/-- A started copy of three rows to unit 2 of the instruction buffer. -/
def unitRun : CopyRun :=
  { newCopy { Bank.zero with layouts := [(0, rec1 4 3 1), (1, rec1 1 0 2)] } { op := .lnset 0 (.value 1), pc := 0, ext := extNo } (ep 0 6)
      (ep 1 11) 0 0 [] with started := true }

/-- Whether the next three points of bank 0's copy move their rows. -/
def unitMoves (s : State) (r : CopyRun) : Bool :=
  match Toll.points { s := s, paid := r.paid, i := 0 } 0 0 r [] 0 3 r.n with
  | .rows _ _ _ => true
  | _ => false

theorem unit_ex {s : State} {r : CopyRun} (h : unitMoves s r = true) :
    ∃ cs out u, Toll.points { s := s, paid := r.paid, i := 0 } 0 0 r [] 0 3 r.n = .rows cs out u := by
  unfold unitMoves at h; split at h
  · exact ⟨_, _, _, ‹_›⟩
  · simp at h

/-- The units of the next n points of bank 0's copy are there. -/
def unitsHad (s : State) (r : CopyRun) (n : Nat) : Bool :=
  (s.engServe 0 2 0 ((List.range n).flatMap fun j => (s.pointLegs 0 0 r (r.n + j)).1)
    ((List.range n).flatMap fun j => (s.pointLegs 0 0 r (r.n + j)).2)).1

theorem witness_CopiesIssueMoveAndRetire_2 :
    (∃ pins s1, (paged fun k => { k with copy := some toBuffer }).pinAll 0 2 0 toBuffer.pins toBuffer.ranges = .ok pins s1 ∧
      (paged id).me.served = true ∧ toBuffer.started = false ∧ toBuffer.trapped = false ∧ toBuffer.combOk = true ∧
      toBuffer.rangeOk = true ∧ (paged id).windowsFull 0 toBuffer = false ∧ (paged id).windowClash 0 toBuffer = false ∧ toBuffer.intentFault.isNone = true) ∧
    (∀ i ∈ [0, 5], let r := copyRun 6 i 0
      let s := copyOf r
      (unitsHad s r 1 = true ∧ ∃ c p u s2 s3 n, Toll.point { s := s, paid := r.paid, i := 0 } 0 0 r r.n = .row c p false u ∧
        u.s.copyEgress 0 c p = .ok s2 ∧ s2.writePlace 0 0 r c p = (s3, n)) ∧
      (s.bank 0).copy = some r ∧ (s.bank 0).part = 0 ∧ (s.bank 0).served = true ∧ r.mc = false ∧ r.n < pointCount r.recD ∧
      r.ix = false ∧ recSpace r.recD = 2 ∧ recSpace r.recS = 1 ∧ rowSum r.recS (epRow r.a) (pointIx r.recD i) = 11 + 2 * (i : Int) ∧
      rowSum r.recD (epRow r.d) (pointIx r.recD i) = 9 + (i : Int) ∧ (s.readCell (rowKey 0 false (11 + 2 * i)) 0).tent = 0 ∧
      s.earlyOut (.core (0 / 2)) = false) ∧
    (let s := copyOf (strayRun 2)
     unitsHad s (strayRun 2) 1 = true ∧ recSpace (strayRun 2).recD = 2 ∧ 0 < pointCount (strayRun 2).recD ∧
     ∃ c p u s2 s3 n, Toll.point { s := s, paid := [], i := 0 } 0 0 (strayRun 2) 0 = .row c p true u ∧
       u.s.copyEgress 0 c p = .ok s2 ∧ s2.writePlace 0 0 (strayRun 2) c p = (s3, n)) ∧
    (let s := copyOf (strayRun 1)
     unitsHad s (strayRun 1) 1 = true ∧ recSpace (strayRun 1).recD = 2 ∧ 0 < pointCount (strayRun 1).recD ∧
     ∃ u, Toll.point { s := s, paid := [], i := 0 } 0 0 (strayRun 1) 0 = .skip u) ∧
    (let s := copyOf unitRun
     unitsHad s unitRun 3 = true ∧ recSpace unitRun.recD = 4 ∧ unitRun.n < pointCount unitRun.recD ∧ unitRun.started = true ∧
     unitRun.mc = false ∧
     ∃ cs out u, Toll.points { s := s, paid := unitRun.paid, i := 0 } 0 0 unitRun [] 0 3 unitRun.n = .rows cs out u) ∧
    (∀ n ∈ [0, 6], let r := copyRun n n 0
      let s := copyOf r
      pointCount r.recD ≤ r.n ∧ r.wait = 0 ∧ s.tentFor (.copy 0) = false ∧ bit r.b 33 = false ∧ (s.bank 0).canPush 2 r.ext = true) ∧
    (let r := { copyRun 6 6 0x200000000 with ring := some (0x20000, 0x30000, 0), recAsked := false }
     pointCount r.recD ≤ r.n ∧ r.wait = 0 ∧ (copyOf r).tentFor (.copy 0) = false ∧ bit r.b 33 = true ∧ r.recAsked = false ∧
     r.ring = some (0x20000, 0x30000, 0)) := by
  refine ⟨?_, ?_, ⟨by decide, by decide, by decide, row_ex (r := strayRun 2) (o := true) (by decide)⟩,
    ⟨by decide, by decide, by decide, skip_ex (r := strayRun 1) (by decide)⟩,
    ⟨by decide, by decide, by decide, by decide, by decide, unit_ex (by decide)⟩, by decide, by decide⟩
  · obtain ⟨p, s1, h⟩ := pins_ex (x := (paged fun k => { k with copy := some toBuffer }).pinAll 0 2 0 toBuffer.pins toBuffer.ranges) (by decide)
    exact ⟨p, s1, h, by decide⟩
  · intro i hi
    rcases List.mem_cons.mp hi with rfl | hi
    · exact ⟨⟨by decide, row_ex (o := false) (by decide)⟩, by decide⟩
    · rcases List.mem_singleton.mp hi with rfl
      exact ⟨⟨by decide, row_ex (o := false) (by decide)⟩, by decide⟩

/-- A multicast of n rows to clusters 0 and 12, from cycle 80, at point i. -/
def castRun (n i : Nat) : CopyRun := { copyRun n i 0x110010000 with c := 80 }

/-- A ring at 128 KiB with a header of these 16 bytes, and one append. -/
def ringS (hdr : Nat) : State :=
  { State.reset with
    mem := ((List.range 16).map fun i => (0x20000 + i, BitVec.ofNat 8 (hdr / 2 ^ (8 * i)))).filter fun c => c.2 != 0
    rings := [append 0x20000 0x30000 0 0 (BitVec.ofNat 256 7) .nobody] }

/-- A header: LOG2N, WIDX, RIDX. -/
def ringHdr (lg widx ridx : Nat) : Nat := lg + widx * 2 ^ 64 + ridx * 2 ^ 96

/-- What an append needs of its ring's header line, and how the header then reads. -/
def ringIs (s : State) (bad full : Bool) : Bool :=
  let x := append 0x20000 0x30000 0 0 (BitVec.ofNat 256 7) .nobody
  let h := leNat (s.bytes x.pa 64)
  let lg := h % 32
  let n := 2 ^ lg
  let widx := h / 2 ^ 64 % 2 ^ 32
  let ridx := h / 2 ^ 96 % 2 ^ 32
  let at0 := x.pa + 64 + 32 * (widx % n)
  s.rings[0]? == some x && isCached x.pa && x.pa % 64 == 0 && x.served == [] && !s.refuses x.pa && s.packets == [] &&
  (s.rings.take 0).all (fun y => y.pa != x.pa) && !(s.rowMeta (x.pa / 256)).poison && s.keyFits x.pa x.key &&
  !s.ahead (s.arrNum x.arr) [x.pa / 64] && !s.burstWaits x.who.cause x.pa &&
  s.arrives (s.ringFoot x) && !s.isRefused x.who.src (homeOf x.pa) .request &&
  s.dir (x.pa / 64) == Dir.zero && isCached at0 && s.dir (at0 / 64) == Dir.zero &&
  (lg == 0 || decide (16 < lg) || decide (x.limit < x.pa + 64 + 32 * n)) == bad &&
  decide (n ≤ (widx + 2 ^ 32 - ridx) % 2 ^ 32) == full

theorem witness_MulticastsLandAndRingsAppend :
    (∀ i ∈ [0, 2], let r := castRun 3 i
      let s : State := { copyOf r with counter := 80 + 8 * i }
      validBank 0 = true ∧ (s.bank 0).copy = some r ∧ r.trapped = false ∧ r.started = true ∧ r.mc = true ∧
      r.n < pointCount r.recD ∧ r.c.toNat + 8 * r.n ≤ s.copyOf (0 / 256) ∧ recSpace r.recS = 1 ∧
      rowSum r.recS (epRow r.a) (pointIx r.recD i) = 11 + 2 * (i : Int) ∧
      recSpace r.recD = 2 ∧ r.ix = false ∧ 0 ≤ rowSum r.recD (epRow r.d) (pointIx r.recD i) ∧
      s.earlyOut (.core (0 / 2)) = false ∧ pointIs s r = 1 ∧
      (s.engServe 0 2 0 (s.pointLegs 0 0 r r.n).1 (s.pointLegs 0 0 r r.n).2).1 = true ∧
      (rowSum r.recD (epRow r.d) (pointIx r.recD i)).toNat < 32768 ∧ (s.readCell (rowKey 0 false (11 + 2 * i)) 0).tent = 0) ∧
    (∀ a, (ringS 0).frameOf a = a) ∧
    ringIs (ringS (ringHdr 1 1 0)) false false = true ∧ ringIs (ringS (ringHdr 10 0xFFFFFFFF 0xFFFFFFFE)) false false = true ∧
    ringIs (ringS (ringHdr 1 1 0xFFFFFFFF)) false true = true ∧ ringIs (ringS (ringHdr 0 0 0)) true false = true ∧
    ringIs (ringS (ringHdr 17 0 0)) true false = true ∧ ringIs (ringS (ringHdr 11 0 0)) true false = true :=
  ⟨by decide, fun _ => rfl, by decide, by decide, by decide, by decide, by decide, by decide⟩

/-! ### The sheaf store, the gleaner port and the collective port -/

/-- A command with operands d, a, b, c that its home has accepted. -/
def engRun (op : EngOp) (d a b c : Nat) : EngRun :=
  { newEng { op := .lnset 0 (.value 1), pc := 64, ext := extNo } op (BitVec.ofNat 64 d) (BitVec.ofNat 64 a) (BitVec.ofNat 64 b)
      (BitVec.ofNat 64 c) [] with accepted := true }

/-- A sequence of one layer with eight tokens a sheaf, two sheaves. -/
def seq1 (sstate : Nat) (waiters : List Nat) : Seq :=
  { part := 0, toklog := 0, heads := 1, hdim := 1, stype := 3, layers := 1, cls := 0, pcls := 1, sstate := sstate, wkey := 77,
    cont := 5, contSheaf := 3, gen := 0xFFFFFFFF, wakeign := 0xFFFFFFFF,
    tabs := [(0, { len := 12, caplog := 5, ents := [(0, 1), (1, 2)], moved := none })], waiters := waiters }

/-- A sheaf of that sequence. -/
def sheaf1 (st : ShState) (tier index : Nat) : Sheaf := ({ State.reset.newSheaf (seq1 0 []) 0 0 index (0, 0) with st := st, tier := tier, loc := 0 } : Sheaf).stamp

/-- Die 0 home to that sequence, its sheaves 0 and 1 and the continuation record 2. -/
def store (q : Seq) (x0 x1 x2 : Sheaf) (f : Bank → Bank) : State :=
  { bk f with seqs := [(0, some q)], sheaves := [(0, some x0), (1, some x1), (2, some x2)], sheafNext := 3,
              dies := [(0, openDie)] }

/-- All of it resident. -/
def store0 (q : Seq) (f : Bank → Bank) : State :=
  store q (sheaf1 .resident 0 0) (sheaf1 .resident 0 1) ({ sheaf1 .resident 0 0 with t := 0, e := 0 } : Sheaf).stamp f

/-- Whether bank 0's command r reaches its home with pins, rows held back and a state of which f holds. -/
def reach (s : State) (r : EngRun) (f : List Pin → List Nat → State → Bool) : Bool :=
  match s.pinRefs 0 3 (s.bank 0).part r r.pins r.refs with
  | .ok pins s1 =>
    if r.sent then f pins [] s1
    else match s1.askHome 0 3 (r.home 0) (if r.op = .sqpark then s1.pinnedLegs 0 pins [(refVa r r.a, 64)] else ([], [])) with
      | .done held u => f pins held u
      | _ => false
  | _ => false

theorem reach_ex {s : State} {r : EngRun} {f : List Pin → List Nat → State → Bool} (h : reach s r f = true) :
    ∃ pins held u, Reaches s 0 r pins held u ∧ f pins held u = true := by
  unfold reach at h
  split at h
  · split at h
    · exact ⟨_, _, _, ⟨_, ‹_›, by rw [if_pos ‹_›]; exact ⟨rfl, rfl⟩⟩, h⟩
    · split at h
      · exact ⟨_, _, _, ⟨_, ‹_›, by rw [if_neg ‹_›]; assumption⟩, h⟩
      · simp at h
  · simp at h

/-- The store beside a page at 128 KiB that holds every right, and a task of launch 4, whose image has 2 heads and 3 layers. -/
def paged0 (q : Seq) (r : EngRun) : State :=
  let s := paged fun k => { k.setEng 3 (some { r with caps := [{ h := 0, base := 0x20000, intent := 3 }] }) with bindRec := 5 }
  { s with seqs := [(0, some q)], sheaves := (store0 q id).sheaves, sheafNext := 3
           launches := [{ id := 4, rcd := 0, part := 0, b := none, fixed := BitVec.ofNat 2560 (2 * 2 ^ 443 + 3 * 2 ^ 464), mbox := [],
                          ring := none, left := 1, tasks := 1, ended := false }]
           dies := [(0, { s.die 0 with binds := [(5, { Bind.zero with job := some { num := 0, launch := 4, part := 0, dlo := 0, dhi := 0, plotn := 1 } })], seqNext := 1 })] }

/-- A command that its home has not accepted, with its reference to that page. -/
def asking (op : EngOp) (d a b : Nat) : EngRun :=
  { engRun op d a b 0 with accepted := false, caps := [{ h := 0, base := 0x20000, intent := 3 }] }

theorem witness_WalkerCommandsReachTheirHome :
    (let r := asking .sqopen 0 5 0
     let s := paged0 (seq1 0 []) r
     (s.bank 0).eng 3 = some r ∧ r.fault = none ∧ (s.bank 0).engGoes r = true ∧ s.packets = [] ∧
     reach s r (fun _ _ u => (u.taskLaunch 0).any fun l => hdr l.fixed 450 443 == 2 && hdr l.fixed 471 464 == 3 &&
       (u.takeIndex 0).isSome) = true) ∧
    (let r := asking .sqinfo 0 0 0
     reach (paged0 (seq1 0 []) r) r (fun _ _ u => u.mySeq 0 r.a == some (seq1 0 []) && decide (bits r.a 55 48 < (seq1 0 []).layers) &&
       !u.badEntry (seq1 0 []) 0 0 (2 ^ 24)) = true) ∧
    (∀ p ∈ [0, 12], let r := asking .sqfork 0 0 p
     reach (paged0 (seq1 0 []) r) r (fun _ _ u => u.mySeq 0 r.a == some (seq1 0 []) && (seq1 0 []).turn 0 &&
       decide (bits r.b 23 0 ≤ ((seq1 0 []).layer 0).len) && (match u.takeIndex 0 with
         | some (i, _) => (u.seq i).isNone || i == 0
         | none => false)) = true) ∧
    (let r := asking .sqpark 0 0 77
     reach (paged0 (seq1 0 []) r) r (fun pins held u => u.mySeq 0 r.d == some (seq1 0 []) && held == [] && !r.qbad &&
       !(u.readPinned pins (refVa r r.a) 64).1.poison) = true) ∧
    (∀ n ∈ [1, 4, 5], let r := { asking .sqapp 0 0 n with places := some [(0, 0)] }
     reach (paged0 (seq1 0 []) r) r (fun _ _ u => let q := seq1 0 []
       u.mySeq 0 r.d == some q && q.turn 0 && appRangeOk (some q) r.a r.b && q.fmt == 0 && decide (0 < q.e) &&
       (u.pullPort 0 0).isNone && !u.badEntry q 0 (12 / q.t) 1 && r.places != none &&
       (match u.joins q (q.layer 0) with
         | some (_, y) => y.st == .resident && y.index == 12 / q.t && y.t == q.t && y.e == q.e
         | none => false) && decide ((12 + n - 1) / q.t < 2 ^ (q.layer 0).caplog)) = true) := by
  refine ⟨⟨by decide, by decide, by decide, by decide, by decide⟩, by decide, by decide, by decide, by decide⟩

theorem witness_WalkerCommandsAreServedAtTheirHome :
    (∀ walker : Bool, let cmd : Cmd := { op := .engine (if walker then .sqwake else .attnd) 0 0 0 0 [], pc := 64, ext := extNo }
      let e := if walker then 3 else 4
      let s := bk fun k => { k with cmds := [(e, [cmd])] }
      validBank 0 = true ∧ (s.bank 0).served = true ∧ (s.bank 0).eng e = none ∧ (s.bank 0).cmdq e = cmd :: [] ∧
      (s.bank 0).canIssue e cmd.ext = true ∧ (s.bank 0).faults = [] ∧ (s.bank (otherBank 0)).engBusy e = false ∧
      (s.bank (otherBank 0)).nextEng e = none ∧ s.packets = []) ∧
    (∀ op ∈ [EngOp.sqtrunc, .sqclose, .sqwake, .attns], ∀ q ∈ [seq1 0 [], seq1 1 [0], seq1 3 [0, 5], seq1 1 [5]],
      let r := { engRun op 0 0 0x1000000 0 with accepted := false }
      let s := store0 q fun k => k.setEng 3 (some r)
      (s.bank 0).eng 3 = some r ∧ r.fault = none ∧ (s.bank 0).engGoes r = true ∧ s.packets = [] ∧ s.mySeq 0 r.d = some q ∧
      reach s r (fun _ _ u => u.mySeq 0 r.d == some q && (r.op != .attns || !u.badEntry q 0 0 1)) = true ∧
      q.sstate ≠ 2 ∧ (q.turn 0 = true ↔ q.waiters ≠ [5]) ∧ bits r.d 55 48 < q.layers) ∧
    (∀ k ∈ [0, 1, 2],
      let r := { engRun .attns 0 0x20000 0x2000000 0 with k := k, held := [(0, 0, sheaf1 .resident 1 0)], t := 8, heads := 1, hdim := 1 }
      let s := store0 (seq1 0 []) fun x => x.setEng 3 (some r)
      (s.bank 0).eng 3 = some r ∧ r.accepted = true ∧ (s.bank 0).engGoes r = true ∧ (k < 2 ↔ r.k < bits r.b 47 24) ∧
      (r.held.all fun y => decide (y.2.2.tier < 2)) = true ∧ (streamRows r r.k).all (fun y => !(bit y.2.2 23)) = true ∧
      (s.engServe 0 3 ((s.bank 0).part % 16) [] (.home 0 :: s.wayTo .response 0 0)).1 = true ∧
      r.wait = 0 ∧ s.tentFor (.eng 0 3) = false ∧ (s.bank 0).canPush 3 r.ext = true) ∧
    (∀ m ∈ [0, 16], let q := { seq1 0 [] with tabs := [(0, { len := 12, caplog := 6, ents := [(0, 1), (1, 2)], moved := some (m, []) })] }
      (store0 q id).seq 0 = some q ∧ (store0 q id).inSlot (seqDie 0) (q.part % 16) = true ∧ (q.layer 0).moved = some (m, []) ∧ (2 ^ ((q.layer 0).caplog - 1) ≤ m + 16 ↔ m = 16)) := by
  decide

theorem witness_SequencesWakeAndSheavesMove :
    (∀ q ∈ [seq1 1 [], seq1 0 []], (store0 q id).seq 0 = some q ∧ (q.sstate = 1 ∧ (0xFF0000004D : Word).setWidth 32 = q.wkey ↔ q.sstate = 1)) ∧
    (let s := store0 (seq1 2 []) id
     (seq1 2 []).sstate = 2 ∧ ((seq1 2 []).stage1.all fun id => s.inT0 id) = true ∧ (s.die (seqDie 0)).launchq.length < 64 ∧
     s.hostWrites = false) ∧
    ((seq1 3 []).sstate = 3 ∧ ((seq1 3 []).stage2.all fun i => (store0 (seq1 3 []) id).inT0 i) = true) ∧
    (∀ st ∈ [ShState.lent, .demoted], let s := store (seq1 3 []) (sheaf1 st 1 0) (sheaf1 .resident 0 1) (sheaf1 .resident 0 0) id
      (seq1 3 []).stage2.find? (fun id => !s.inT0 id) = some 0 ∧ s.sheaf 0 = some (sheaf1 st 1 0) ∧
      ((sheaf1 st 1 0).st = .lent ∨ (sheaf1 st 1 0).st = .demoted)) ∧
    (∀ tier ∈ [0, 1], let x := sheaf1 (if tier = 0 then .resident else .lent) tier 0
      let s : State := { State.reset with sheaves := [(0, some x)], reftime := (if tier = 0 then 50 else 5000) * 100000 }
      s.sheaf 0 = some x ∧ s.ageReached 0 x = true ∧ bit (s.sqcls (seqDie x.owner) (s.sheafClass 0)) 0 = false) ∧
    (∀ st ∈ [ShState.demoting, .promoting], ∀ f ∈ [0, 1, 2], ∀ target ∈ [0, 1, 2, 3], let x := { sheaf1 st 0 0 with target := target, tfmt := f }
      let s := store (seq1 0 []) x x x id
      s.sheaf 0 = some x ∧ s.mayMove x = true ∧ s.flashFits x.size = true ∧ x.wantT0 = false) ∧
    (validDie 0 = true ∧ validDie 1 = true ∧ validDie 3 = true ∧ State.reset.oneHop 0 1 = true ∧ State.reset.oneHop 0 3 = true ∧
      State.reset.oneHop 0 2 = false ∧ (State.reset.lendServe 0 1).1 = true ∧
      ((withDie State.reset openDie).lendServe 0 1).1 = false) ∧
    (let w : WinWrite := { b := some 0, host := false, wake := true, n := 0, v := 77, pa := 0 }
     let s : State := { store0 (seq1 1 []) id with winWrites := [w] }
     (store0 (seq1 1 []) id).findWin true 0 77 = none ∧ s.findWin true 0 77 = some (0, w) ∧ s.hostAhead w = false ∧
     s.arrives (s.winFoot w) = true) ∧
    (let w : WinWrite := { b := none, host := true, wake := true, n := 0, v := 77, pa := 0, no := 2 }
     let s : State := { store0 (seq1 1 []) id with winWrites := [w, { w with v := 78, no := 1 }] }
     s.findWin true 0 77 = some (0, w) ∧ s.hostAhead w = true) ∧
    (∀ x ∈ [sheaf1 .lent 1 0, sheaf1 .demoting 1 0, { sheaf1 .demoting 0 0 with target := 1 }],
      (store (seq1 0 []) { x with lender := 1 } x x id).sheaf 0 = some { x with lender := 1 } ∧ seqDie x.owner = 0 ∧
      (x.st = .lent ∨ x.st = .demoting ∧ (x.tier = 1 ∨ x.target = 1))) :=
  ⟨by decide, by decide, by decide, by decide, by decide, by decide, by decide, by decide, by decide, by decide⟩

/-- A query header: one head a KV head, ranges of one sheaf, from position start. -/
def query (start : Nat) : Row := BitVec.ofNat 2048 (start * 2 ^ 32 + 0xFFFFFFFF * 2 ^ 64 + 2 ^ 96 + 2 ^ 104)

/-- An `ATTND` over the positions 3 to 67 of a layer with 64 tokens a sheaf. -/
def glean (k tok : Nat) (sent : Bool) (wait : Nat) : EngRun :=
  { engRun .attnd 0 0x100000000000 0x100000000000 0 with
    t := 128, heads := 1, hdim := 1, len := 68, qrec := [query 3], k := k, tok := tok, sent := sent, wait := wait,
    held := [(0, 0, { sheaf1 .lent 1 0 with lender := 5 })], pins := [{ page := 0x20000, size := 0, leaf := leafRW }] }

/-- Bank 0 with that command in its gleaner port. -/
def gleanS (r : EngRun) : State :=
  { bk fun k => k.setEng 4 (some r) with
    dies := [(0, { Die.zero with pslot := [(0, 1)] }), (5, { Die.zero with pslot := [(0, 1)] })] }

/-- An `RDX` of n bags over 4-byte elements, one row an entry, through a page that holds every right. -/
def reduce (n k tok : Nat) (sent : Bool) : EngRun :=
  { engRun .rdx 0x9000000000000200 0 (n * 2 ^ 48 + 0x100) 0x400 with
    caps := [{ h := 0, base := 0x20000, intent := 3 }], k := k, tok := tok, sent := sent,
    pins := [{ page := 0x20000, size := 0, leaf := 0x100003B }] }

/-- Its state: bag 0 ends at index 1, its entry is row 0 of the table. -/
def reduceS (r : EngRun) : State :=
  ((paged fun k => k.setEng 4 (some r)).place 0x10104 [1]).modDie 0 fun d => { d with pslot := [(0, BitVec.allOnes 64)] }

def walked {ε : Type} (x : Except ε (Carried × State)) (y : Carried) (f : State → Bool) : Bool :=
  match x with
  | .ok p => p.1 == y && f p.2
  | .error _ => false

theorem walked_ex {ε : Type} {x : Except ε (Carried × State)} {y : Carried} {f : State → Bool} (h : walked x y f = true) :
    ∃ s, x = .ok (y, s) ∧ f s = true := by
  unfold walked at h
  split at h
  · simp only [Bool.and_eq_true, beq_iff_eq] at h
    exact ⟨_, by rw [← h.1], h.2⟩
  · exact absurd h (by decide)

def offIs (x : Except CopyFault Nat) (n : Nat) : Bool :=
  match x with
  | .ok m => m == n
  | .error _ => false

theorem off_of {x : Except CopyFault Nat} {n : Nat} (h : offIs x n = true) : x = .ok n := by
  cases x <;> simp_all [offIs]

/-- n bytes of zero read through a walk. -/
def zeros (n : Nat) : Carried := { data := List.replicate n 0, poison := false, tag := 0, die := 0, tent := 0 }

/-- Whether reads have had their units and rows, with rows held back and a state of which f holds. -/
def pulled (x : Pulled) (f : List Nat → State → Bool) : Bool :=
  match x with
  | .done held s => f held s
  | .wait _ => false

theorem pulled_ex {x : Pulled} {f : List Nat → State → Bool} (h : pulled x f = true) :
    ∃ held s, x = .done held s ∧ f held s = true := by
  cases x with
  | done held s => exact ⟨held, s, rfl, h⟩
  | wait _ => simp [pulled] at h

theorem witness_GleanerCommandsProgressAndRetire :
    (∀ r ∈ [glean 0 0 false 0, glean 0 64 false 0, glean 0 0 true 0, glean 1 0 true 0, reduce 1 0 0 true, reduce 1 1 0 true,
        reduce 1 0 0 false],
      ((gleanS r).bank 0).eng 4 = some r ∧ r.accepted = true ∧ r.trapped = false ∧ r.fault = none ∧
      ((gleanS r).bank 0).engGoes r = true ∧ r.pins ≠ [] ∧ r.wait = 0 ∧ (gleanS r).packets = [] ∧
      (gleanS r).tentFor (.eng 0 4) = false ∧ ((gleanS r).bank 0).canPush 4 r.ext = true) ∧
    (∀ tok ∈ [0, 64], let r := glean 0 tok false 0
      r.k < r.ranges ∧ r.pinning = false ∧
      (let s0 := (gleanS r).putEng 0 4 r
       (s0.engServe 0 4 (((gleanS r).bank 0).part % 16) [] (s0.blockLegs 0 (r.blockDie s0 0))).1) = true ∧
      (gleanS r).blockWaits 0 (r.blockDie (gleanS r) 0) = false ∧ (r.held.all fun y => decide (y.2.2.tier < 2)) = true ∧
      (r.span r.k) = (3, 68) ∧ (3 + tok + min 64 (68 - (3 + tok)) < 68 ↔ tok = 0)) ∧
    ((glean 0 0 true 0).k < (glean 0 0 true 0).ranges ∧ (glean 1 0 true 0).ranges ≤ (glean 1 0 true 0).k) ∧
    ((reduce 1 0 0 true).k < bits (reduce 1 0 0 true).b 63 48 ∧ bits (reduce 1 1 0 true).b 63 48 ≤ (reduce 1 1 0 true).k) ∧
    (let r := reduce 1 0 0 false
     let s := reduceS r
     r.k < bits r.b 63 48 ∧ s.packets = [] ∧ ∃ held s3, (s.putEng 0 4 r).engPull 0 4 0 ((s.putEng 0 4 r).bagLegs 0 r) = .done held s3 ∧
       let u := s3.bagSpoil r
       (offIs (u.bagOffset r held r.k) 0 && offIs (u.bagOffset r held (r.k + 1)) 1 &&
         (let c := (u.readPinned r.pins (refVa r r.a + 4 * (0 + r.tok)) 4 held).1
          !c.poison && leNat c.data == 0) &&
         walked (u.readWalked 0 r.caps r.d (refVa r r.d + 256 * (rdxWrows r.d * 0)) (256 * rdxWrows r.d)) (zeros 256)
           fun _ => true) = true) :=
  ⟨by decide, by decide, by decide, by decide, by decide, by decide, pulled_ex (f := fun held s3 =>
    let r := reduce 1 0 0 false
    let u := s3.bagSpoil r
    offIs (u.bagOffset r held r.k) 0 && offIs (u.bagOffset r held (r.k + 1)) 1 &&
      (let c := (u.readPinned r.pins (refVa r r.a + 4 * (0 + r.tok)) 4 held).1
       !c.poison && leNat c.data == 0) &&
      walked (u.readWalked 0 r.caps r.d (refVa r r.d + 256 * (rdxWrows r.d * 0)) (256 * rdxWrows r.d)) (zeros 256)
        fun _ => true) (by decide)⟩

/-- A control word of group 3: dies 0 and 1. -/
def pairGrp : Nat := 3 + 2 ^ 30

/-- Bank 0 on die 0 and bank 0 on die 1, each with a command in its collective port. -/
def collS (r0 r1 : EngRun) : State :=
  { State.reset with
    banks := [(0, ({ Bank.zero with run := .live }.setEng 5 (some r0))), (256, ({ Bank.zero with run := .live }.setEng 5 (some r1)))]
    dies := [(0, { Die.zero with pslot := [(0, 1)] }), (1, { Die.zero with pslot := [(0, 1)] })] }

/-- A `COLL` that gathers blocks of 256 bytes. -/
def coll (started : Bool) : EngRun :=
  { engRun .coll 0 0 0x2000000001 pairGrp with started := started, pins := [{ page := 0x20000, size := 0, leaf := leafRW }] }

/-- A `PLOUGH` of the same group. -/
def plough (k : Nat) (sent : Bool) : EngRun :=
  { engRun .plough 0 pairGrp 0 0 with
    started := true, sent := sent, k := k, qrec := [0, 0], pins := [{ page := 0, size := 0, leaf := leafRW }] }

/-- A `RING` of the same group whose deadline is reference time 1,000. -/
def ring : EngRun :=
  { engRun .ring 0 0 0 pairGrp with
    started := true, t := 8, heads := 1, hdim := 1, pins := [{ page := 0, size := 0, leaf := leafRW }]
    qrec := [query 3 ||| BitVec.ofNat 2048 (100 * 2 ^ 192 + 1000 * 2 ^ 224)] }

/-- An instance of that ring. -/
def inst : Inst := { gid := 3, nth := 0, grp := BitVec.ofNat 64 pairGrp, slots := [], late := [], merged := [], disc := [] }

/-- A row that a member has to write. -/
def landHere : Land := Land.row 0 0x20000 7 true

def collRuns (s : State) (a b : EngRun) : Bool :=
  let runs := (s.instRuns 3 0).filter fun p => p.2.accepted && !p.2.started && (s.bank p.1).engGoes p.2 &&
    (s.bank p.1).pst == .live
  let at0 (die : Nat) : Option (Nat × EngRun) := runs.find? fun p => bankDie p.1 == die
  let ms := (grpRanked a.grp).filterMap at0
  runs.find? (fun p => (grpRanked p.2.grp).all fun die => (at0 die).isSome) == some (0, a) && ms == [(0, a), (256, b)] &&
    ms.all fun p => p.2.op == a.op && p.2.compared == a.compared && (s.bank p.1).part == (s.bank 0).part

theorem witness_CollectivesStartMoveAndRetire_1 :
    collRuns (collS (coll false) (coll false)) (coll false) (coll false) = true ∧
    collRuns (collS { ring with started := false } { ring with started := false }) { ring with started := false }
      { ring with started := false } = true ∧
    (∀ r ∈ [{ coll true with lands := [landHere] }, coll true, plough 0 true, plough 1 true],
      let s := collS r r
      validBank 0 = true ∧ (s.bank 0).eng 5 = some r ∧ r.accepted = true ∧ r.started = true ∧ (s.bank 0).engGoes r = true ∧
      r.pins ≠ [] ∧ r.wait = 0 ∧ s.tentFor (.eng 0 5) = false ∧ (s.bank 0).canPush 5 r.ext = true) ∧
    landHere.way = [] ∧ bit landHere.tag 23 = false ∧
    (let l := { landHere with way := [1, 2] }
     let s := collS { coll true with lands := [l] } (coll true)
     l.way = 1 :: [2] ∧ bit l.tag 23 = false ∧ ((s.wayTo .request l.die 1).drop l.hop).length ≤ 2) ∧
    (∀ r ∈ [coll false, { coll false with b := 0x102000000001 }, { ring with started := false }], let s := collS r r
      let ms := [(0, r), (256, r)]
      let tolls := if (r.op == .coll && collFolds r.b) = true then s.foldTolls r.grp (s.sources ms) else []
      (match s.payTolls (tolls.drop (Assoc.get 0 s.passed (agentTolls 0))) (Assoc.get 0 s.passed (agentTolls 0)) with
        | .all s1 => (s1.serve (agentEng 0 5) 1 0 ((sourceParts ms).flatMap fun p => s1.partLegs p.1 p.2)).1
        | _ => false) = true) ∧
    foldMixed (coll false) ((collS (coll false) (coll false)).sources [(0, coll false), (256, coll false)]) = false ∧
    ((plough 0 true).op = .plough ∧ (plough 0 true).sent = true ∧ (plough 0 true).lands = [] ∧
     ploughRing (plough 0 true) = some (0x10000, 0x20000, 0)) := by decide

theorem witness_CollectivesStartMoveAndRetire_2 :
    let s := collS (plough 0 false) (plough 0 false)
    let runs := (s.instRuns 3 0).filter fun p => p.2.started && p.2.op == .plough && !p.2.sent && p.2.pins != [] &&
      !p.2.pinning
    (let ms := (List.range (grpRanked (plough 0 false).grp).length).filterMap (memberAt (plough 0 false).grp runs)
     let reads (p : Nat × EngRun) : List (Nat × Nat × Nat) := p.2.recordSpans.flatMap fun x => pinnedParts p.2.pins 1 x.1 x.2
     (s.serve (agentEng 0 5) 1 0 (ms.flatMap fun p => s.partLegs p.1 (reads p))).1 = true) ∧
    runs.find? (fun p => (List.range (grpRanked p.2.grp).length).all fun k => (memberAt p.2.grp runs k).isSome) =
      some (0, plough 0 false) ∧
    (((List.range (grpRanked (plough 0 false).grp).length).filterMap (memberAt (plough 0 false).grp runs)).map fun p => p.1) =
      [0, 256] := by decide

theorem witness_CollectivesStartMoveAndRetire_3 :
    (∀ now ∈ [0, 1000], let s : State := { collS ring ring with insts := [inst], reftime := now }
      let runs := (s.instRuns 3 0).filter fun p => p.2.started && p.2.op == .ring
      s.insts[0]? = some inst ∧ inst.gid = 3 ∧ inst.nth = 0 ∧ inst.merged.contains 0 = false ∧
      memberAt inst.grp runs 0 = some (0, ring) ∧ 0 < (grpRanked inst.grp).length ∧ inst.delivered 0 1 = false ∧
      memberAt inst.grp runs 1 = some (256, ring) ∧ 1 < (grpRanked inst.grp).length ∧
      (s.serve (agentEng 256 5) 257 ((s.bank 256).part % 16) (s.ringLegs 0 256)).1 = true ∧ ring.trapped = false ∧
      (ring.qtags.all fun y => !(bit y 23)) = true ∧ ring.tstart ≤ s.reftime ∧ s.reftime ≤ ring.final ∧
      (ring.held.all fun y => decide (y.2.2.tier < 2)) = true ∧ 0 < ring.p ∧ (ring.final ≤ s.reftime ↔ now = 1000)) := by decide

/-! ### Launches, tasks and their shares of the machine -/

/-- The fixed part of an image: one variant, a D level of n iterations, code of 64 bytes at byte 320. -/
def image (n : Nat) : Nat :=
  0x58444B31 + 2 ^ 32 + 2 ^ 48 + 2 ^ 51 + 320 * 2 ^ 96 + 64 * 2 ^ 128 + 384 * 2 ^ 480 + (3 * 2 ^ 24 + n) * 2 ^ 512

/-- `paged`, with that image at 128 KiB, and a launch record in die 0's queue. -/
def launchS (n : Nat) (r : BitVec 512) : State :=
  ((paged id).place 0x10000 (natLE 320 (image n))).modDie 0 fun d => { d with launchq := [(0, 0, r)] }

/-- A launch record of that image on die 0: its ring, and a bit that must be zero. -/
def rcd (ring bad : Nat) : BitVec 512 := BitVec.ofNat 512 (0x20000 + ring * 2 ^ 128 + bad * 2 ^ 511)

def isRefused (x : Checked × State) (st : Nat) : Bool :=
  match x.1 with
  | .refused m => m == st
  | _ => false

def isChecked (x : Checked × State) : Bool :=
  match x.1 with
  | .ok ds fixed _ => launchTasks x.2.launchNext x.2.taskNext 0 0 fixed ds != []
  | _ => false

def xlatIs (x : Except Nat Xlat) (page : Nat) : Bool :=
  match x with
  | .ok y => y == { part := 0, page := page, size := 0, leaf := 0x100003B }
  | .error _ => false

/-- What dispatch has read of that record. -/
def dispatched (r : BitVec 512) : Pulled :=
  (launchS 2 r).agentPull (agentDispatch 0) 1 0 0 ((launchS 2 r).launchUnits 0 (some 0) r)

/-- That record with a ring at va, checked by f. -/
def checkedAt (r : BitVec 512) (va : Nat) (f : Checked × State → Bool) : Bool :=
  pulled (dispatched r) fun held s0 => xlatIs (s0.walk 0 0 va 3) 0x20000 &&
    f (((s0.walked 0 0 va).noteWalk 0 { part := 0, page := 0x20000, size := 0, leaf := 0x100003B }).checkLaunch held 0 0 r true)

def noWalk (x : Except Nat Xlat) : Bool :=
  match x with
  | .ok _ => false
  | .error _ => true

theorem witness_LaunchesAreCheckedMappedAndStarted_0 :
    (∀ r, ((launchS 2 r).die 0).launchq = (0, 0, r) :: []) ∧ bits (rcd 0x20041 0) 191 128 % 64 ≠ 0 :=
  ⟨fun _ => rfl, by decide⟩

theorem witness_LaunchesAreCheckedMappedAndStarted_1 :
    pulled (dispatched (rcd 0x20041 0)) (fun _ _ => true) = true ∧
    pulled (dispatched (rcd 0x30040 0)) (fun _ s0 => noWalk (s0.walk 0 0 0x30040 3)) = true ∧
    pulled (dispatched (rcd 0 1)) (fun held s0 => isRefused (s0.checkLaunch held 0 0 (rcd 0 1) true) 6) = true ∧
    checkedAt (rcd 0x20040 1) 0x20040 (fun x => isRefused x 6) = true ∧
    checkedAt (rcd 0x20040 0) 0x20040 isChecked = true ∧
    pulled (dispatched (rcd 0 0)) (fun held s0 => isChecked (s0.checkLaunch held 0 0 (rcd 0 0) true)) = true :=
  ⟨by decide +kernel, by decide +kernel, by decide +kernel, by decide +kernel, by decide +kernel, by decide +kernel⟩

/-- Queue 7 with records at 128 KiB, ready when it has some. -/
def hostS (head tail : Nat) (slot : MSlot) : State :=
  { paged id with
    hostq := [(7, { HostQ.zero with base := 0x20000, head := head, tail := tail, enable := true, log2n := 6 })]
    mapper := [(31, slot)] }

/-- Whether a record is read, clean or not, or not at all. -/
def reads (x : Option VRead) (poison : Bool) : Bool := x.any fun r => r.poison == poison

/-- What the mapper has had of the next record of queue 7 in slot 31, and how it reads. -/
def mapped (s : State) (f : Option VRead → Bool) : Bool :=
  let x := s.hostQueue 7
  let va := x.base.toNat % 2 ^ 56 / 64 * 64 + 64 * (x.head % 2 ^ x.log2n)
  pulled (s.agentPull (agentMapper 31) 0 x.part 0 (s.vunits 1024 0 x.part 64 1 va)) fun held s0 => f (s0.vread held 0 x.part 64 1 va)

theorem witness_LaunchesAreCheckedMappedAndStarted_2 :
    ({ bk id with modul := { Module.zero with ready := true } } : State).modul.ready = true ∧
    (let s := hostS 0xFFFFFFFF 0 MSlot.zero
     (s.mslot 31).q = none ∧ s.longest = some 7) ∧
    (∀ taken ∈ [0, 16, 40], let s := hostS 0xFFFFFFFF 0 { q := some 7, taken := taken }
      (s.mslot 31).q = some 7 ∧ s.hostWrites = false ∧ (s.hostQueue 7).ready = true ∧ s.unmapped = []) ∧
    (let s := hostS 0xFFFFFFFF 0 { q := some 7, taken := 16 }
     mapped s (fun x => reads x false) = true ∧
     mapped { s with memMeta := [((0x10000 + 0x40 * 63) / 256, { RowMeta.zero with poison := true })] } (fun x => reads x true) = true ∧
     mapped { s with hostq := [(7, { s.hostQueue 7 with base := 0x90000 })] } (fun x => x.isNone) = true) ∧
    (∀ wake ∈ [true, false], let w : WinWrite := { b := some 0, host := false, wake := wake, n := 7, v := 9, pa := 0 }
     let s : State := { bk id with winWrites := [w], modul := { Module.zero with ready := true } }
     s.hostWrites = false ∧ (∀ w ∈ s.winWrites, w.host = false) ∧
     s.findWin false 7 9 = (if wake then none else some (0, w)) ∧ s.hostAhead w = false) ∧
    (let w : WinWrite := { b := some 0, host := false, wake := false, n := 7, v := 9, pa := 0 }
     let s : State := { paged id with winWrites := [w] }
     s.arrives (s.winFoot w) = true) ∧
    (let s : State := { bk id with winWrites := [{ b := none, host := true, wake := false, n := 6, v := 9, pa := 0, no := 1 }] }
     s.findWin false 7 9 = none ∧ ∃ w ∈ s.winWrites, w.host = true) ∧
    (∀ p ∈ [(3, 3), (0, 65)], ((hostS p.1 p.2 { q := some 7, taken := 1 }).hostQueue 7).ready = false) :=
  ⟨by decide, by decide, by decide, ⟨by decide +kernel, by decide +kernel, by decide +kernel⟩, by decide, by decide, by decide, by decide⟩

/-- Task 9 of launch 4. -/
def task9 : Task := { num := 9, launch := 4, part := 0, dlo := 2, dhi := 5, plotn := 0 }

/-- Launch 4: its image has one variant and a C level of three iterations. -/
def launch4 (left : Nat) : Launch :=
  { id := 4, rcd := 0x40000 + 0x10040 * 2 ^ 128, part := 0, b := some 6, fixed := BitVec.ofNat 2560 (2 ^ 48 + 2 ^ 51 + (2 * 2 ^ 24 + 3) * 2 ^ 512),
    mbox := [], ring := some { part := 0, page := 0x10000, size := 0, leaf := leafRW }, left := left, tasks := 2, ended := false }

/-- A bind record in that state, for cores 3 and 4, with that task. -/
def bindIn (state : Nat) (job : Option Task) : Bind :=
  { Bind.zero with plot := 24, share := 1, task := 9, state := state, valid := true, job := job, bank := 1 }

/-- Die 0 with record 5. -/
def bindS (x : Bind) : State :=
  { bk id with launches := [launch4 1], dies := [(0, { Die.zero with binds := [(5, x)], pending := [task9], pslot := [(0, 1)] })] }

/-- A record's 256 bits: cores 3 and 4, share, task number, VALID, DEVRES. -/
def bindV (share task valid devres : Nat) : BitVec 256 :=
  BitVec.ofNat 256 (24 * 2 ^ 152 + share * 2 ^ 88 + task * 2 ^ 56 + devres * 2 ^ 35 + 2 ^ 39 + valid)

theorem witness_LaunchesAreCheckedMappedAndStarted_3 :
    (∀ n ∈ [0, 2, 3, 4, 5, 6], ((bindS (bindIn n none)).die 0).bind 5 = bindIn n none) ∧
    (let x := bindIn 0 none
     let s := bindS x
     let bad (v : BitVec 256) : Prop := (x.written v).plot = 0 ∨ (x.written v).share &&& ~~~(Assoc.get 0 (s.die 0).pslot (x.written v).part) ≠ 0
     bit (bindV 1 9 0 0) 0 = false ∧ (bit (bindV 3 9 1 0) 0 = true ∧ bad (bindV 3 9 1 0)) ∧
     (bit (bindV 1 9 1 1) 0 = true ∧ ¬ bad (bindV 1 9 1 1) ∧ bit (bindV 1 9 1 1) 35 = true) ∧
     (bit (bindV 1 8 1 0) 0 = true ∧ ¬ bad (bindV 1 8 1 0) ∧ bit (bindV 1 8 1 0) 35 = false ∧
       s.bindTask 0 (x.written (bindV 1 8 1 0)) = none) ∧
     (bit (bindV 1 9 1 0) 0 = true ∧ ¬ bad (bindV 1 9 1 0) ∧ bit (bindV 1 9 1 0) 35 = false ∧
       s.bindTask 0 (x.written (bindV 1 9 1 0)) = some task9)) ∧
    (∀ n ∈ [1, 6], let x := bindIn n (some task9)
      let s := bindS x
      (s.die 0).bind 5 = x ∧ x.job = some task9 ∧ s.launchOf task9 = some (launch4 1) ∧ (x.state = 1 ∨ (x.state = 6 ∧ x.started = [])) ∧
      (s.die 0).mayStart 5 = true ∧ x.bank ≤ 1 ∧
      ((plotCores x.plot).filter fun c => decide ((coreRange x.plot (launch4 1).fixed c).1 < (coreRange x.plot (launch4 1).fixed c).2)) ≠ []) ∧
    (let s := { bindS (bindIn 2 (some task9)) with banks := [(7, { Bank.zero with run := .live, bindRec := 5 })] }
     validBank 7 = true ∧ (s.bank 7).copied = false ∧ (s.bank 7).run ≠ .idle ∧
     ((s.die (bankDie 7)).bind (s.bank 7).bindRec).job = some task9 ∧ s.launchOf task9 = some (launch4 1)) := by decide

/-- The task of record 5 runs on cores 3 and 4, its banks changed by f; `fin` have retired. -/
def taskS (nvar : Nat) (fin : List Nat) (left : Nat) (f : Bank → Bank) : State :=
  { State.reset with
    launches := [launch4 left]
    banks := [(7, f { Bank.zero with run := .live, bindRec := 5 }), (9, f { Bank.zero with run := .live, bindRec := 5 })]
    dies := [(0, { Die.zero with binds := [(5, { bindIn 2 (some task9) with nvar := nvar, started := [7, 9], finished := fin })] })] }

theorem witness_TasksPhaseRetireAndShareTheMachine_1 :
    (∀ nvar ∈ [0, 3], ∀ q ∈ [que 0 0 0 false, que 0 1 1 false],
      let s := taskS nvar [] 2 fun k => { k with wait := .phase 6, queues := [(0, q)] }
      let x := (s.die 0).bind 5
      let ids := x.started.filter fun b => !x.finished.contains b
      x.job = some task9 ∧ s.launchOf task9 = some (launch4 2) ∧ ids ≠ [] ∧ ids.Nodup ∧
      (∀ b ∈ ids, (s.bank b).wait = .phase 6 ∧ s.drained b = true) ∧ (nvar = 0 ↔ x.nvar = x.var) ∧
      ((∀ b ∈ ids, (s.bank b).allEmpty = true) ↔ q = que 0 0 0 false)) ∧
    (∀ fin ∈ [[], [9]], ∀ left ∈ [1, 2],
      let s := taskS 0 fin left fun k => { k with wait := .retire, copied := true }
      let x := (s.die (bankDie 7)).bind (s.bank 7).bindRec
      validBank 7 = true ∧ (s.bank 7).wait = .retire ∧ s.drained 7 = true ∧ (s.bank 7).copied = true ∧
      ((x.started.all fun c => (7 :: x.finished).contains c) = true ↔ fin = [9]) ∧ x.job = some task9 ∧
      s.launchOf task9 = some (launch4 left) ∧ (launch4 left).ring = some { part := 0, page := 0x10000, size := 0, leaf := leafRW } ∧ bits (launch4 left).rcd 191 128 ≠ 0 ∧ (launch4 left).b = some 6) ∧
    (let s := taskS 0 [] 2 fun k => { k with wait := .phase (if k.copied then 1 else 0) }
     let s1 := s.modBank 9 fun k => { k with wait := .phase 6 }
     let ids := ((s1.die 0).bind 5).started
     ids.Nodup ∧ (∀ b ∈ ids, (s1.bank b).wait = .phase (if b = 9 then 6 else 0) ∧ (s1.bank b).run = .live) ∧
     ∃ b ∈ ids, ∃ c ∈ ids, (if b = 9 then 6 else 0) ≠ if c = 9 then 6 else 0) := by
  decide

/-- Die 0 with slot 0 given to partition 0, slot 1 to partition 3, and a change for partition 0 at cycle 4,096. -/
def slotS (now : Nat) : State :=
  { State.reset with
    counter := now
    dies := [(0, { Die.zero with pslot := [(0, 1), (3, 2)], pslotNext := [(0, 4, 4096)], units := [(8, 0, now)],
                                 binds := [(5, { bindIn 2 none with shareNext := some (2, 4096) })] })] }

theorem witness_TasksPhaseRetireAndShareTheMachine_2 :
    (Module.zero.tablesOpen = false ∧ ({ Module.zero with stage := 7 } : Module).tablesOpen = true) ∧
    (let d := (slotS 0).die 0
     (∀ q, q < 16 → d.pslotLatest q = if q = 0 then 4 else if q = 3 then 2 else 0) ∧
     (bit (2 : Word) 1 = true ∧ bit (d.pslotLatest 3) 1 = true) ∧ (bit (8 : Word) 3 = true ∧ bit (8 : Word) 63 = false)) ∧
    (∀ now ∈ [4095, 4096], ((slotS now).die 0).pslotNext.filter (fun e => decide (e.2.2 ≤ (slotS now).copyOf 0)) =
      if now = 4095 then [] else [(0, 4, 4096)]) ∧
    (∀ p ∈ [(0, 0), (64, 3), (192, 16)], let s := slotS p.1
      (∀ q, q < 16 → (bit (Assoc.get 0 (s.die 0).pslot q) (s.slotAt 0) = true ↔ q = p.2)) ∧ s.copyOf 0 % 64 + 64 ≤ 64 ∧
      (∀ u ∈ (s.die 0).units, u.1 = 8 → u.2.2 ≤ s.counter)) ∧
    (let s : State := { bk id with clusters := [(0, { Cluster.zero with acnext := some 0x402 })] }
     validCluster 0 = true ∧ (s.cluster 0).acnext = some 0x402 ∧ s.loopsIdle 0 = true) := by decide

/-! ### Coherence and homes -/

/-- A message of core 3 about a line; `arr`: its place at its home, 0 on its way. -/
def msg (k : MKind) (line : Nat) (ev : Bool) (arr : Nat) : Msg := { kind := k, core := 3, line := line, data := 9, ev := ev, arr := arr }

/-- Line 0x400 at its home and in core 3's cache, with one message of core 3, and an older one about the next line. -/
def cohS (d : Dir) (st : CState) (k : MKind) (ev : Bool) : State :=
  { State.reset with
    dirs := [(0x400, d)]
    cores := [(3, { Core.zero with lines := [(0x400, { CLine.zero with st := st, data := 7, way := true })] })]
    net := [msg k 0x401 ev 1, msg k 0x400 ev 2] }

/-- An entry with an owner and sharers. -/
def dirOf (o : Option Nat) (cs : List Nat) (busy : Option Req) (need : Nat) (ev : Bool) : Dir :=
  { Dir.zero with owner := o, sharers := cs, busy := busy, need := need, ev := ev }

/-- The condition of `Oldest` for the second message. -/
def oldest (s : State) (k : MKind) (m : Msg) : Bool :=
  validCore 3 && s.net.findIdx? (fun x => x.named 3 0x400 k) == some 1 && s.net[1]? == some m &&
  ((s.net.take 1).all fun x => !x.sameWay m || (x.line != m.line && (m.arr != 0 || x.arr != 0))) &&
  (m.arr != 0 || s.arrives (s.msgFoot m))

theorem oldest_of {s : State} {k : MKind} {m : Msg} (h : oldest s k m = true) : Oldest s 3 0x400 k m := by
  simp only [oldest, Bool.and_eq_true, beq_iff_eq, List.all_eq_true, Bool.or_eq_true, bne_iff_ne, Bool.not_eq_true'] at h
  obtain ⟨⟨⟨⟨h1, h2⟩, h3⟩, h4⟩, h5⟩ := h
  refine ⟨h1, 1, h2, h3, fun x hx hw => ?_, fun ha => ?_⟩
  · rcases h4 x hx with h6 | h6
    · rw [hw] at h6; cases h6
    · exact h6
  · rcases h5 with h6 | h6
    · exact absurd ha h6
    · exact h6

def opens (s : State) (core line : Nat) (m : Msg) : Bool :=
  !s.refuses (64 * line) && !s.isRefused core (lineHome line) .request && (s.dir line).busy == none && s.packets == [] &&
  !s.ahead (s.arrNum m.arr) [line] && !s.burstWaits m.b (64 * line)

/-- `Open`, for a state without migrations. -/
theorem open_of {s : State} {core line : Nat} {m : Msg} (hm : s.migr = []) (h : opens s core line m = true) : Open s core line m := by
  simp only [opens, Bool.and_eq_true, Bool.not_eq_true', beq_iff_eq] at h
  obtain ⟨⟨⟨⟨⟨h1, h2⟩, h3⟩, h4⟩, h5⟩, h6⟩ := h
  exact ⟨h1, h2, fun a => by simp [State.frameOf, hm], h3, h4, h5, h6⟩

def leavesNow (x : Egress) (capped : Bool) : Bool :=
  match x with
  | .ok _ => !capped
  | .capped => capped
  | .wait _ => false

theorem leaves_of {s : State} {core line : Nat} {capped : Bool} (h : leavesNow (s.pullEgress core (64 * line)) capped = true) :
    Leaves s core line capped := by
  unfold Leaves
  cases capped <;> cases hx : s.pullEgress core (64 * line) <;> simp_all [leavesNow]

/-- The same line in a row with the tag of a region of which nothing may leave, asked for by a core of the module's other side. -/
def farS : State :=
  { State.reset with
    dies := [(0, { Die.zero with relabel := [(0, some 0x8000), (16, some 0x8010)], extents := 1 })]
    memMeta := [(0x100, { RowMeta.zero with rtag := regionTag 0 5 })] }

theorem witness_RequestsAreServedAtTheHome :
    (∀ ev : Bool, ∀ k ∈ [MKind.getS, .getX, .upg], let s := cohS (dirOf none [] none 0 false) .i k ev
      oldest s k (msg k 0x400 ev 2) = true ∧ leavesNow (s.pullEgress 3 (64 * 0x400)) false = true) ∧
    (∀ d ∈ [dirOf none [] none 0 false, dirOf none [5, 7] none 0 true, dirOf (some 5) [] none 0 false, dirOf (some 5) [7] none 0 true,
        dirOf (some 3) [] none 0 false, dirOf (some 3) [7] none 0 false, dirOf none [3] none 0 false, dirOf (some 5) [3] none 0 false],
      let s := cohS d .s .upg false
      (s.dir 0x400).vec = false ∧ s.migr = [] ∧ opens s 3 0x400 (msg .upg 0x400 false 2) = true) ∧
    (let s := cohS { dirOf none [0] none 0 false with vec := true } .smD .upg false
     (s.dir 0x400).vec = true ∧ coreDie 3 ∈ (s.dir 0x400).sharers ∧ (s.line 3 0x400).st = .smD) ∧
    Open (cohS (dirOf (some 5) [3] none 0 false) .s .upg false) 3 0x400 (msg .upg 0x400 false 2) ∧
    Oldest (cohS (dirOf (some 5) [3] none 0 false) .s .upg false) 3 0x400 .upg (msg .upg 0x400 false 2) ∧
    Leaves (cohS (dirOf (some 5) [3] none 0 false) .s .upg false) 3 0x400 false ∧ Leaves farS 2048 0x400 true :=
  ⟨by decide, by decide, by decide, open_of rfl (by decide), oldest_of (by decide), leaves_of (by decide), leaves_of (by decide)⟩

theorem witness_RepliesEndTheirRequests :
    (∀ q ∈ [Req.getX 5, .upg 5, .bulk, .atomic, .recall], ∀ n ∈ [1, 2], ∀ held : Bool,
      let d := { dirOf (some 3) [5] (some q) n false with held := held, heldFor := 7 }
      oldest (cohS d .o .dX false) .dX (msg .dX 0x400 false 2) = true ∧ oldest (cohS d .s .ack false) .ack (msg .ack 0x400 false 2) = true ∧
      ((cohS d .s .ack false).dir 0x400).busy = some q ∧ ((cohS d .s .ack false).dir 0x400).need = n) ∧
    (∀ k ∈ [MKind.put, .putClean], let s := cohS (dirOf (some 3) [5] (some (.getX 5)) 1 false) .xiA k false
      oldest s .put (msg k 0x400 false 2) = true ∧ (s.dir 0x400).busy ≠ none ∧ (s.dir 0x400).owner = some 3) ∧
    (let s := cohS (dirOf (some 4) [] none 0 false) .xiA .put false
     oldest s .put (msg .put 0x400 false 2) = true ∧ (s.dir 0x400).owner ≠ some 3) ∧
    (∀ a, (cohS (dirOf (some 3) [] (some (.getS 5)) 1 false) .o .dO false).frameOf a = a) ∧
    (∀ k ∈ [MKind.dO, .dS, .dW], let s := cohS (dirOf (some 3) [] (some (.getS 5)) 1 false) .o k false
      oldest s k (msg k 0x400 false 2) = true ∧ (s.dir 0x400).held = false ∧ (s.dir 0x400).busy = some (.getS 5)) ∧
    (∀ ev : Bool, ∀ q ∈ [Req.getX 5, .bulk], let s := cohS (dirOf (some 3) [] (some q) 1 ev) .i .dX false
      oldest s .dX (msg .dX 0x400 false 2) = true ∧ (s.dir 0x400).held = false ∧ (s.dir 0x400).need = 1 ∧
      (s.dir 0x400).busy = some q ∧ (s.dir 0x400).ev = ev) ∧
    (∀ n ∈ [1, 2], let s := cohS (dirOf none [3, 5] (some (.upg 5)) n false) .i .ack false
      oldest s .ack (msg .ack 0x400 false 2) = true ∧ (s.dir 0x400).held = false ∧ (s.dir 0x400).need = n ∧
      (s.dir 0x400).busy = some (.upg 5)) ∧
    (∀ k ∈ [MKind.put, .putClean], let s := cohS (dirOf (some 3) [5] none 0 false) .xiA k false
      oldest s .put (msg k 0x400 false 2) = true ∧ (s.dir 0x400).held = false ∧ (s.dir 0x400).busy = none ∧
      (s.dir 0x400).owner = some 3) ∧
    (let s := cohS (dirOf (some 3) [] none 0 true) .e (.wthru 56 8 7) true
     Open s 3 0x400 (msg (.wthru 56 8 7) 0x400 true 2) ∧ oldest s (.wthru 0 0 0) (msg (.wthru 56 8 7) 0x400 true 2) = true ∧ (s.dir 0x400).owner = some 3) :=
  ⟨by decide, by decide, by decide, fun _ => rfl, by decide, by decide, by decide, by decide, open_of rfl (by decide), by decide, by decide⟩

theorem witness_CachesAnswerTheHome :
    (∀ ev : Bool, ∀ k ∈ [MKind.dataS, .dataE, .dataX, .grant, .fwdS, .fwdX, .inv, .peek, .putAck],
      ∀ st ∈ [CState.i, .s, .e, .o, .m, .isD, .imD, .smD, .omD, .xiA],
      let s := cohS Dir.zero st k ev
      oldest s k (msg k 0x400 ev 2) = true ∧ (s.line 3 0x400).st = st ∧ s.waitingStore (2 * 3) 0x400 = none ∧
      s.waitingStore (2 * 3 + 1) 0x400 = none) ∧
    (let p : Post := { post false with pa := 0x10008 }
     let s : State := { cohS Dir.zero .imD .dataX false with banks := [(6, { Bank.zero with run := .live, posts := [p] })] }
     oldest s .dataX (msg .dataX 0x400 false 2) = true ∧ s.waitingStore (2 * 3) 0x400 = some (0, p) ∧ p.ev = false) ∧
    (∀ st ∈ [CState.s, .e, .o, .m, .smD, .omD], let s : State := { State.reset with
          cores := [(3, { Core.zero with lines := [(0x400, { CLine.zero with st := st, data := 7 })] })] }
      validCore 3 = true ∧ (s.line 3 0x400).way = false ∧ ((s.line 3 0x400).st.stable = true ∨ st = .smD ∨ st = .omD) ∧
      ((s.core 3).ways (0x400 % 128)).length < 8) := by decide

/-- An atomic of bank 0; `arr`: its place at its home, 0 on its way. -/
def areq (op : Nat) (w64 : Bool) (pa arr : Nat) : AReq :=
  { b := 0, pa := pa, w64 := w64, op := op, v := 1, expect := 0, key := 0, ev := false, arr := arr }

def atomS (rs : List AReq) : State := { bk id with atomics := rs, dies := [(0, openDie)], arrivals := 9 }

theorem witness_HomesPerformAtomicsAndBulkAccesses :
    (∀ op ∈ [0, 8, 16], ∀ w64 : Bool, ∀ pa ∈ [0x10000, 0x100F8],
      let r := areq op w64 pa 3
      let s := atomS [r]
      s.atomics[0]? = some r ∧ r.arr ≠ 0 ∧ s.placeAhead (atomicHome r.b r.pa) r.arr = false ∧ isCached r.pa = true ∧
      s.refuses r.pa = false ∧ s.ahead r.arr [r.pa / 64] = false ∧ s.burstWaits (r.b + 1) r.pa = false ∧
      s.packets = [] ∧ s.dir (r.pa / 64) = Dir.zero ∧ leavesNow (s.pullEgress (bankCore r.b) r.pa) false = true ∧ s.keyFits r.pa r.key = true ∧
      (s.rowMeta (r.pa / 256)).poison = false ∧ r.pa % (if r.w64 then 8 else 4) = 0) ∧
    (let r := { areq 4 false 0x10000 3 with b := 4096 }
     let s : State := { atomS [r] with dies := farS.dies, memMeta := farS.memMeta }
     s.atomics[0]? = some r ∧ s.placeAhead (atomicHome r.b r.pa) r.arr = false ∧ leavesNow (s.pullEgress (bankCore r.b) r.pa) true = true) ∧
    (∀ held : Bool, let r := areq 4 false 0x10000 3
     let d := { dirOf none [] (some .atomic) 0 false with held := held, heldFor := 3 }
     let s : State := { atomS [r] with dirs := [(0x400, d)] }
     (s.dir (r.pa / 64)).busy = some .atomic ∧ (s.dir (r.pa / 64)).need = 0 ∧ (s.dir (r.pa / 64)).held = held) ∧
    (∀ d ∈ [dirOf (some 4) [] none 0 false, dirOf none [4, 6] none 0 false, dirOf (some 4) [6] none 0 false],
     let r := areq 4 false 0x10000 3
     let s : State := { atomS [r] with dirs := [(0x400, d)] }
     (s.dir (r.pa / 64)).busy = none ∧ ¬((s.dir (r.pa / 64)).owner = none ∧ (s.dir (r.pa / 64)).sharers = []) ∧
     s.refuses r.pa = false ∧ s.ahead r.arr [r.pa / 64] = false ∧ s.burstWaits (r.b + 1) r.pa = false) ∧
    (∀ op ∈ [4, 16], ∀ tag ∈ [ptagOf 0, ptagOf 3], let r := areq op true 0x80000000100F8 3
     let s : State := { atomS [r] with sram := [(gsramKey r.pa, { RowCell.zero with data := 7, ptag := tag })] }
     isGsram r.pa = true ∧ s.refuses r.pa = false ∧ s.placeAhead (atomicHome r.b r.pa) r.arr = false ∧
     (s.cell (gsramKey r.pa)).poison = false ∧ leavesNow (s.pullEgress (bankCore r.b) r.pa) false = true) ∧
    (∀ p ∈ [(0x10000, 256), (0x8000000010000, 16)],
      let r := areq 0 true p.1 0
      let s := atomS (r :: List.replicate p.2 (areq 0 true p.1 1))
      s.atomics[0]? = some r ∧ r.arr = 0 ∧ s.refuses r.pa = false ∧ s.arrives (s.atomicFoot r) = true ∧
      isBarrierWin r.pa = false ∧ s.isRefused (bankCore r.b) (homeOf r.pa) .atomic = false ∧
      (if isGsram r.pa then 16 else if isHbm r.pa then 256 else 64) ≤ ((s.places (homeOf r.pa)).filter fun p => p.arr != 0).length) ∧
    (∀ p ∈ [(0x10000, 256), (0x100FF, 1)], ∀ w : Bool, ∀ arr ∈ [0, 4],
      let x : Bulk := { pa := p.1, data := if w then List.replicate p.2 3 else [], len := p.2, poison := false, rtag := 0, key := 4,
                        who := .host, served := [], got := [], tent := 0, arr := arr }
      let s : State := { State.reset with bulk := [x], arrivals := 9 }
      s.bulk[0]? = some x ∧ s.packets = [] ∧ s.regionOf x.pa = none ∧ x.pa % 256 + x.len ≤ 256 ∧
      (∀ l ∈ linesOf x.pa x.len, s.dir l = Dir.zero) ∧ (x.arr = 0 → s.arrives (s.bulkFoot x) = true) ∧ s.hostBehind 0 x = false ∧
      s.ahead (s.arrNum x.arr) (linesOf x.pa x.len) = false ∧
      (w = true → x.data ≠ [] ∧ x.data.length = x.len) ∧ s.refuses x.pa = false ∧
      s.isRefused x.who.src (homeOf x.pa) .request = false ∧
      s.burstWaits x.who.cause x.pa = false ∧ (w = false → x.data = []) ∧
      bit (s.readTag (256 * (x.pa / 256))) 23 = false) ∧
    (∀ a, (atomS []).frameOf a = a) ∧ ∀ a, ({ State.reset with bulk := [] } : State).frameOf a = a :=
  ⟨by decide, by decide, by decide, by decide, by decide, by decide +kernel, by decide, fun _ => rfl, fun _ => rfl⟩

/-! ### The fabric -/

/-- Packet 4 has brought a row of local SRAM. -/
def packetS (failed was : Bool) : State :=
  { bk id with
    packets := [(4, some { who := .copy 0, movers := [], sram := true, pa := 6, data := [1, 2], failed := failed, was := was })]
    sram := [(6, { RowCell.zero with tent := 5, poison := failed }), (8, { RowCell.zero with tent := 5 })] }

/-- A migration of the page at 64 KiB to 1 MiB. -/
def migr (phase : Nat) : Migr := { old := 0x10000, new := 0x100000, size := 65536, phase := phase, dirty := [0x100, 0x1FF], since := 7 }

/-- That migration alone, at that reference time. -/
def migrS (phase now : Nat) : State := { bk id with migr := [migr phase], reftime := now }

/-- A row write of bank 6's copy engine. -/
def bulk6 : Bulk :=
  { pa := 0x10040, data := [1], len := 1, poison := false, rtag := 0, key := 0, who := .copy 6, served := [], got := [], tent := 0 }

/-- What die 0's home has refused of core 3. -/
def refused3 (cls : PClass) : Refused := { src := 3, home := 0, cls := cls, hint := 256 }

theorem witness_LinksMigrationsAndTheBeaconAct :
    (∀ failed was : Bool, let s := packetS failed was
      let x : Packet := { who := .copy 0, movers := [], sram := true, pa := 6, data := [1, 2], failed := failed, was := was }
      s.packet 4 = some x ∧ x.into = none ∧ (s.cell x.pa).tent = 4 + 1 ∧ s.packetReady 4 x = true) ∧
    (∀ phase ∈ [1, 2], ∀ r ∈ [[], [refused3 .request]],
      let s : State := { migrS phase 0 with net := [msg .getX 0x400 false 0], refused := r }
      (∃ m ∈ s.net, m.kind.cls = .request ∧ srcCore m.core = 3 ∧ lineHome m.line = 0 ∧ s.refuses (64 * m.line) = true) ∧
      (s.isRefused 3 0 .request = true ↔ r ≠ [])) ∧
    (let s : State := { migrS 1 0 with bulk := [bulk6] }
     (∃ x ∈ s.bulk, x.data ≠ [] ∧ x.served = [] ∧ x.who.src = srcEng 6 2 ∧ homeOf x.pa = 0 ∧ s.refuses x.pa = true) ∧
     s.isRefused (srcEng 6 2) 0 .request = false) ∧
    (let s : State := { migrS 2 0 with atomics := [{ areq 0 true 0x10040 0 with b := 6 }] }
     (∃ r ∈ s.atomics, srcCore (bankCore r.b) = 3 ∧ homeOf r.pa = 0 ∧ s.refuses r.pa = true) ∧ s.isRefused 3 0 .atomic = false) ∧
    ((bk id).net = [] ∧ (bk id).bulk = [] ∧ (bk id).atomics = []) ∧
    (∀ now ∈ [255, 256], ∀ cls ∈ [PClass.request, .atomic],
      let s : State := { bk id with refused := [refused3 cls, refused3 .response], counter := now }
      s.refused.find? (fun q => q.src == 3) = some (refused3 cls) ∧ ((refused3 cls).hint ≤ s.counter ↔ now = 256)) ∧
    (∀ size ∈ [0, 1], isCached (pageBytes size) = true ∧ isCached (3 * pageBytes size) = true ∧ 3 * pageBytes size < 2 ^ 52 ∧
      pageBytes size ≠ 3 * pageBytes size ∧ (bk id).migr = []) ∧
    ((migrS 0 0).migrAt 0x10000 0 = some (migr 0) ∧ (migrS 0 0).pinsPage (migr 0) = false) ∧
    ((migrS 1 0).migrAt 0x10000 1 = some (migr 1) ∧ (migrS 1 0).pageQuiet (migr 1) = true) ∧
    ((migrS 2 0).migrAt 0x10000 2 = some (migr 2) ∧ (migr 2).old % 256 = 0 ∧ (migr 2).new % 256 = 0 ∧
      (migr 2).old + (migr 2).size ≤ (migr 2).new ∧
      ∀ r ∈ (migr 2).dirty, (migr 2).old ≤ 256 * r ∧ 256 * r + 256 ≤ (migr 2).old + (migr 2).size) ∧
    ((migrS 4 65543).migrAt 0x10000 4 = some (migr 4) ∧ (migr 4).since + 65536 ≤ (migrS 4 65543).reftime) := by decide

theorem witness_LinksMigrationsAndTheBeaconAct_2 :
    (∀ failed : Bool, let x : Packet := { who := .copy 0, movers := [], sram := false, pa := 0x100F0, data := List.replicate 16 3,
                                          failed := failed, was := false }
     let s : State := { bk id with packets := [(4, some x)], memMeta := [(0x100, { RowMeta.zero with tent := 5 })] }
     s.packet 4 = some x ∧ x.into = none ∧ x.pa % 256 + x.data.length ≤ 256 ∧ (s.rowMeta (x.pa / 256)).tent = 4 + 1 ∧
     s.packetReady 4 x = true) ∧
    (let q := append 0x10040 0x30000 0 0 7 (.eng 6 5)
     let s : State := { migrS 1 0 with rings := [q] }
     (∃ q ∈ s.rings, q.served = [] ∧ q.who.src = srcEng 6 5 ∧ homeOf q.pa = 0 ∧ s.refuses q.pa = true) ∧
     s.isRefused (srcEng 6 5) 0 .request = false) := by decide

/-! ### Traps and their answers, saves, the debugger -/

/-- A fault of engine e. -/
def fault (cls eng : Nat) : Trap := { Trap.mk0 cls 0 with eng := eng, asyn := true }

/-- A debugger's halt request. -/
def haltFault : Trap := { Trap.mk0 17 0 with edge := true, restart := false }

/-- The record of an engine fault. -/
def sys1 (tmask tvec fstat : Word) : SysRegs := { SysRegs.zero with tmask := tmask, tvec := tvec, fstat := fstat }

theorem witness_BanksTakeFaultsStopAndAreAnswered :
    (let s := bk fun k => { k with faults := [fault 11 1], hmode := true }
     validBank 0 = true ∧ (s.bank 0).hmode = true ∧ ∀ f ∈ (s.bank 0).faults, f.cls ≠ 17) ∧
    (∀ h : Bool, ∀ m : Bool, let s := bk fun k => { k with
          faults := [fault 11 1, haltFault], hmode := h, sys := sys1 (if m then BitVec.allOnes 64 else 0) 0x100 0 }
      let k := s.bank 0
      (if k.hmode then k.faults.find? fun f => f.cls == 17 else k.faults.head?) = some (if h then haltFault else fault 11 1) ∧
      (fault 11 1).asyn = true ∧ haltFault.edge = true ∧ k.run = .live ∧ k.pst = .live ∧ k.slot = none ∧ k.pend = none) ∧
    ((bk fun k => { k with run := .entering (sys1 1 2 3) }).bank 0).run = .entering (sys1 1 2 3) ∧
    (∀ d : Bool, ∀ tcfg ∈ [0, 0x10000], let s := withDie (bk fun k => { k with
          run := .stopping (sys1 1 2 3) (sys1 1 2 4) d, copy := some (copyRun 6 5 0) }) { Die.zero with tcfg := BitVec.ofNat 64 tcfg }
      (s.bank 0).run = .stopping (sys1 1 2 3) (sys1 1 2 4) d ∧ (s.bank 0).arr = [] ∧ (s.bank 0).pend = none ∧
      ((s.bank 0).copy = some (copyRun 6 5 0)) ∧ (copyRun 6 5 0).wait = 0 ∧ bit (copyRun 6 5 0).b 32 = false) ∧
    (∀ c, ({ copyRun 6 5 0 with b := c, trapped := true } : CopyRun).wait = 0) ∧
    (∀ d : Bool, ∀ tvec ∈ [0, 0x100], ∀ f ∈ [0x410000D, 0x420000D, 0x1000002, 0x3000002, 0x2000002],
      let s := bk fun k => { k with run := .stopped d, sys := sys1 0 (BitVec.ofNat 64 tvec) (BitVec.ofNat 64 f) }
      (s.bank 0).run = .stopped d ∧ ((s.bank 0).sys.tvec ≠ 0 ↔ tvec ≠ 0) ∧ ∀ q ∈ s.rings, q.who ≠ .stop 0) ∧
    (let s : State := { bk id with rings := [append 0x10000 0x20000 0 0 0 (.stop 0)] }
     ∃ q ∈ s.rings, q.who = .stop 0) ∧
    (let s := taskS 0 [] 2 id
     let x := (s.die (7 / 256)).bind (s.bank 7).bindRec
     (s.bank 7).run ≠ .idle ∧ (s.bank 7).run ≠ .ending ∧ ∀ c ∈ x.started.filter (fun c => !x.finished.contains c), (s.bank c).engs = []) ∧
    (∀ p : Bool, ∀ left ∈ [1, 2],
      let s := (taskS 0 [] left fun k => { k with run := .ending, posts := if p then [post true] else [] }).modBind 0 5
        fun x => { x with ended := true }
      let x := (s.die 0).bind 5
      let ids := x.started.filter fun c => !x.finished.contains c
      let s1 := ids.foldl State.sweep s
      x.ended = true ∧ x.job = some task9 ∧ s.launchOf task9 = some (launch4 left) ∧ (∀ b ∈ ids, (s.bank b).eng 5 = none) ∧
      (p = true → ∃ b ∈ ids, s1.ending b = true) ∧ (p = false → ∀ b ∈ ids, s1.ending b = false)) :=
  ⟨by decide, by decide, by decide, by decide, fun _ => rfl, by decide, by decide, by decide, by decide⟩

/-- A value of PCTL: an area and a command. -/
def pctl (area cmd : Nat) : Word := BitVec.ofNat 64 (area + cmd)

/-- Bank 0 with its area at 128 KiB. -/
def saveS (f : Bank → Bank) : State := bk fun k => f { k with area := 0x20000 }

/-- Bank 0, live or stopped with a report of its watchdog, being restored from an area of zeros. -/
def blankS (area : Nat) (stop : Option Bool) : State :=
  let run (k : Bank) : Bank := match stop with
    | none => k
    | some d => { k with run := .stopped d, report := some (sys1 0 0 0x1000012) }
  { bk fun k => run { k with pst := .restoring, area := area } with
    saved := [(0, some { base := 5, sealedSave := false })]
    dies := [(0, { Die.zero with tcfg := 0x10000 })] }

theorem stops (p : Option Bool → Prop) (h : p none ∧ p (some false) ∧ p (some true)) : ∀ o, p o
  | none => h.1
  | some false => h.2.1
  | some true => h.2.2

/-- Its area with the free values in the rows that the model takes from them. -/
def restS (o : Option Bool) : State := (blankS 0x20000 o).putAreaRows 0x20000 ((fixedRows false).map fun r => (r, Config.areaRow 5 r, false))

theorem restS_row (o : Option Bool) (r : Nat) (h1 : r < 128) (h2 : r ≠ 12) (h3 : r ≠ 13) :
    (restS o).areaRow 0x20000 r = (blankS 0x20000 o).areaRow 0x20000 r := by
  refine State.areaRow_putAreaRows_ne (fun _ => rfl) _ _ (by decide) _ fun x hx => ?_
  obtain ⟨q, hq, rfl⟩ := List.mem_map.mp hx
  simp only [fixedRows, Bool.false_eq_true, if_false, List.mem_append, List.mem_cons, List.not_mem_nil, or_false,
    List.mem_map, List.mem_range] at hq
  rcases hq with (rfl | rfl) | ⟨i, hi, rfl⟩ <;> simp <;> omega

theorem restS_banks (o : Option Bool) : (restS o).banks = (blankS 0x20000 o).banks := State.banks_putAreaRows _ _ _

theorem restS_dies (o : Option Bool) : (restS o).dies = (blankS 0x20000 o).dies := State.dies_putAreaRows _ _ _

theorem blankS_bytes (o : Option Bool) (pa n : Nat) : (blankS 0x20000 o).bytes pa n = List.replicate n 0 := by
  have h0 : ∀ pa, (blankS 0x20000 o).byte pa = 0 := fun pa => by
    have hm : ∀ r, ((blankS 0x20000 o).rowMeta r).cipher = false := fun _ => rfl
    rw [State.byte, hm]
    rfl
  induction n generalizing pa with
  | zero => rfl
  | succ n ih => rw [State.bytes, h0, ih]; rfl

theorem blankS_row (o : Option Bool) : ∀ r < 12, (blankS 0x20000 o).areaRow 0x20000 r = (0, false) := by
  intro r hr
  have fits : ∀ r < 12, (blankS 0x20000 o).keyFits (0x20000 + 256 * r) 0 = true :=
    stops (fun o => ∀ r < 12, (blankS 0x20000 o).keyFits (0x20000 + 256 * r) 0 = true) (by decide +kernel) o
  rw [State.areaRow, State.readHome, if_pos (fits r hr), blankS_bytes]
  rfl

theorem fixedRows_nodup : (((fixedRows false).map fun r => (r, Config.areaRow 5 r, false)).map fun x => x.1).Nodup := by
  have apart : ((List.range 384).map fun i => 128 + i).Nodup :=
    List.pairwise_map.mpr (List.nodup_range.imp fun h e => h (by omega))
  simp only [List.map_map, fixedRows, Bool.false_eq_true, if_false, Function.comp_def, List.map_id']
  refine List.nodup_append.mpr ⟨by decide, apart, fun a ha b hb => ?_⟩
  obtain ⟨i, -, rfl⟩ := List.mem_map.mp hb
  simp only [List.mem_cons, List.not_mem_nil, or_false] at ha
  omega

theorem restS_intact (o : Option Bool) : (restS o).areaIntact 0 { base := 5, sealedSave := false } = true := by
  have hb : (restS o).bank 0 = (blankS 0x20000 o).bank 0 := by rw [State.bank, State.bank, restS_banks o]
  have ha : ((restS o).bank 0).area = 0x20000 := by
    rw [hb]; exact stops (fun o => ((blankS 0x20000 o).bank 0).area = 0x20000) ⟨rfl, rfl, rfl⟩ o
  have hr : (restS o).readArea 0 = (blankS 0x20000 o).readArea 0 :=
    State.readArea_congr 0 (restS_banks o) fun r h1 h2 h3 => by rw [ha]; exact restS_row o r h1 h2 h3
  have kept : ((blankS 0x20000 o).readArea 0).unread = (0, false, false, [], []) := by
    rw [State.unread_readArea]
    exact stops (fun o => ((blankS 0x20000 o).bank 0).unread = (0, false, false, [], [])) ⟨rfl, rfl, rfl⟩ o
  have rows : ∀ rights : Bool, ∀ p ∈ ((blankS 0x20000 o).readArea 0).areaRows 0 rights, 0 = fixedPart p.1 p.2.1.toNat := by
    intro rights p hp
    simp only [Bank.unread, Prod.mk.injEq] at kept
    obtain ⟨k1, k2, k3, k4, k5⟩ := kept
    rcases Bank.areaRows_fixed hp with ⟨e, e'⟩ | ⟨e, e'⟩ | ⟨e, e'⟩
    · rw [e, e', fixedPart_head _ _ (by rw [k1, k2, k3]; decide), k1, k2, k3]; rfl
    · rw [e, e', fixedPart_misc, k4, k5]; rfl
    · simp [fixedPart, e, e']
  simp only [State.areaIntact, ha, hr, Bool.false_or, Bool.and_eq_true]
  refine ⟨⟨by decide, List.all_eq_true.mpr fun r h => ?_⟩, List.all_eq_true.mpr fun p hp => ?_, List.all_eq_true.mpr fun r h => ?_⟩
  · rw [beq_iff_eq]
    exact State.areaRow_putAreaRows (fun _ => rfl) _ (by decide) _ fixedRows_nodup r _ _ (List.mem_map.mpr ⟨r, h, rfl⟩)
  · have z : fixedPart p.1 ((restS o).areaRow 0x20000 p.1).1 = 0 := by
      by_cases h0 : p.1 = 0
      · rw [h0, restS_row o 0 (by omega) (by omega) (by omega), blankS_row o 0 (by omega)]; rfl
      · by_cases h3 : p.1 = 3
        · rw [h3, restS_row o 3 (by omega) (by omega) (by omega), blankS_row o 3 (by omega)]; rfl
        · simp [fixedPart, h0, h3]
    rw [z]
    exact beq_iff_eq.mpr (rows _ p hp)
  · have hr' := List.mem_range.mp h
    rw [restS_row o r (by omega) (by omega) (by omega), blankS_row o r hr']
    rfl

theorem witness_BanksAreSavedAndRestored :
    (∀ p ∈ [(PState.live, 1), (.live, 0), (.saved, 1), (.saved, 2), (.saving, 2), (.saved, 3)], let s := saveS fun k => { k with pst := p.1 }
      validBank 0 = true ∧ (s.bank 0).pst = p.1 ∧ (s.bank 0).run = .live ∧ (s.bank 0).engs = [] ∧
      bits (pctl 0x20000 p.2) 1 0 = p.2 ∧ bits (pctl 0x20000 p.2) 51 12 * 4096 = 0x20000) ∧
    (isHbm 0x20000 = true ∧ paDie 0x20000 = 0 / 256 ∧ 0x20000 % 2 ^ 37 + 0x20000 ≤ 0x1DCD650000 ∧ 0x20000 < 2 ^ 47) ∧
    paDie (2 ^ 37) ≠ 0 / 256 ∧
    (let s := saveS fun k => { k with pst := .saving, handles := [(3, hnd .valid 1 0x10000 leafRW)] }
     s.migr = [] ∧ (s.bank 0).area % 256 = 0 ∧ (s.bank 0).sealedSeen = false ∧ (s.bank 0).pst = .saving ∧ (s.bank 0).run = .live ∧
     (s.bank 0).slot = none ∧ (s.bank 0).pend = none ∧ (s.bank 0).posts = [] ∧ (s.bank 0).ldqs = [] ∧ (s.bank 0).arr = [] ∧
     (s.bank 0).block = none ∧ (s.bank 0).copy = none ∧ (s.bank 0).engs = [] ∧ s.transforming 0 = false ∧ (s.bank 0).itent = [] ∧
     (∀ q ∈ (s.bank 0).queues, ∀ e ∈ q.2.slots, e.2.tent = 0)) ∧
    ((restS none).areaIntact 0 { base := 5, sealedSave := false } = true ∧ ((restS none).bank 0).run = .live ∧
     ((restS none).bank 0).pst = .restoring ∧ ((restS none).bank 0).area = 0x20000) ∧
    (∀ d : Bool, ((restS (some d)).bank 0).run = .stopped d ∧ ((restS (some d)).bank 0).pst = .restoring ∧
      ((restS (some d)).bank 0).report = some (sys1 0 0 0x1000012) ∧ bits ((restS (some d)).die (0 / 256)).tcfg 61 16 ≠ 0 ∧
      (restS (some d)).areaIntact 0 { base := 5, sealedSave := false } = true) ∧
    ((blankS (2 ^ 37) none).areaIntact 0 { base := 5, sealedSave := false } = false ∧
     Assoc.get none (blankS (2 ^ 37) none).saved 0 = some { base := 5, sealedSave := false }) ∧
    ((saveS fun k => { k with pst := .saved }).bank 0).pst = .saved ∧
    (∀ h : Bool, ∀ run ∈ [Run.live, .stopped false, .stopped true],
      let s : State := { saveS fun k => { k with pst := .saving, run := run, hmode := h, block := some vb } with reftime := 100000 }
      (s.bank 0).lastEnd + max 1 ((s.die (0 / 256)).wdctl.getD 100000).toNat ≤ s.reftime ∧ (s.bank 0).block = some vb ∧
      vb.rst = none ∧ vb.again = false ∧ (s.bank 0).slot = none ∧ (s.bank 0).pend = none ∧ (s.bank 0).arr = [] ∧
      (s.bank 0).run = run) :=
  ⟨by decide, by decide, by decide, by decide,
   ⟨restS_intact none, by rw [State.bank, restS_banks]; rfl, by rw [State.bank, restS_banks]; rfl, by rw [State.bank, restS_banks]; rfl⟩,
   fun d => ⟨by rw [State.bank, restS_banks]; rfl, by rw [State.bank, restS_banks]; rfl, by rw [State.bank, restS_banks]; rfl,
     by rw [State.die, restS_dies]; decide +revert, restS_intact _⟩,
   ⟨by rw [State.areaIntact]; rw [show areaOk 0 ((blankS (2 ^ 37) none).bank 0).area = false by decide]; rfl, by decide⟩,
   by decide, by decide⟩

/-- Core 0 under a debugger, bank 0 in that condition. -/
def debugS (run : Run) : State :=
  { bk fun k => { k with run := run } with cores := [(0, { Core.zero with attached := true })] }

theorem witness_DebuggersHaltAndErrorsAreCounted :
    (validCore 0 = true ∧ ((bk id).bank (2 * 0)).sealedSeen = false ∧ ((bk id).bank (2 * 0 + 1)).sealedSeen = false) ∧
    (∀ run ∈ [Run.live, .stopped false, .stopped true], ((debugS run).core (0 / 2)).attached = true ∧
      ((debugS run).bank 0).sealedSeen = false ∧ ((debugS run).bank 0).pst = .live ∧ ((debugS run).bank 0).run = run) ∧
    (∀ n ∈ [1, 2], ∀ win ∈ [0, 1], let s : State := withDie State.reset { Die.zero with
          rascfg := some 3, ras := [(0x70005, n)], rasWin := win }
      let d := s.die 0
      (if d.rasWin = s.reftime / 2 ^ 20 then Assoc.get 0 d.ras (7 * 2 ^ 16 + 5) else 0) + 1 = (if win = 0 then n + 1 else 1) ∧
      max 1 (d.rascfg.getD 4).toNat = 3 ∧ (d.rasWin = s.reftime / 2 ^ 20 ↔ win = 0)) := by decide

theorem witness_BanksHoldEditsAndReports :
    (∀ es ∈ [[], [DebugItem.pc 9]], ∀ x ∈ [{ vb with again := true }, { vb with trapped := true }, vb], ∀ f ∈ [[], [fault 11 1]],
      let s := bk fun k => { k with run := .stopped false, edits := es, block := some x, faults := f }
      (s.bank 0).run = .stopped false ∧ (∀ q ∈ s.rings, q.who ≠ .stop 0) ∧ (s.bank 0).edits = es) ∧
    (let s : State := { saveS fun k => { k with pst := .restoring } with
          saved := [(0, some { base := 5, sealedSave := false })] }
     (s.bank 0).pst = .restoring ∧ Assoc.get none s.saved 0 = some { base := 5, sealedSave := false } ∧ s.migr = [] ∧
     s.arriving 0 = false) ∧
    (let s : State := { withDie (bk id) die5 with
          banks := [(7, { Bank.zero with run := .live, pst := .restoring, bindRec := 5, area := 0x20000 })]
          saved := [(7, some { base := 5, sealedSave := false })], events := [{ b := 0, part := 0, target := 0x283 }] }
     (s.bank 7).pst = .restoring ∧ (Assoc.get none s.saved 7).isSome = true ∧ s.arriving 7 = true) ∧
    (∀ l ∈ [1, 2], let s := taskS 0 [] l id
     (launch4 l).ring = some { part := 0, page := 0x10000, size := 0, leaf := leafRW } ∧ (launch4 l).b = some 6 ∧
     s.launchOf task9 = some (launch4 l)) := by decide

theorem witness_DebuggersEditAndErrorsPass :
    (let s : State := { saveS fun k => { k with pst := .saved } with cores := [(0, { Core.zero with attached := true })] }
     (s.core (0 / 2)).attached = true ∧ (s.bank 0).sealedSeen = false ∧ (s.bank 0).pst = .saved ∧ s.migr = [] ∧
     (s.bank 0).area % 256 = 0) ∧
    (∀ kind ∈ [1, 2, 3, 4, 5, 6, 7], 0 < rasCount kind) ∧ (∀ kind ∈ [3, 6], spareTotal kind 0 = 1) ∧
    (∀ full ∈ [[], [(7 * 2 ^ 16, 1)]], ∀ now ∈ [0, 2 ^ 20],
      let d : Die := { Die.zero with spares := full, remaps := [(7, 0)] }
      let s : State := { withDie State.reset d with reftime := now }
      (s.die 0).remaps = [(7, 0)] ∧ (∀ p ∈ s.banks, p.2.run = .idle ∨ bankDie p.1 ≠ 0)) ∧
    ((withDie (bk id) Die.zero).die 0).remaps = [] ∧ ¬(∀ p ∈ (bk id).banks, p.2.run = .idle ∨ bankDie p.1 ≠ 0) := by decide

/-! ### Revocation, keys, meters, the access log and the module -/

/-- Bank 0 in its handler; `s9` holds v. -/
def sysS (v : Nat) : State := bk fun k => { k with hmode := true, regs := [(9, BitVec.ofNat 64 v)] }

theorem witness_TranslationsAndKeysAreRevoked_1 :
    (∀ v ∈ [0xF00000FFFFFF0000, 0x0400000004000000, 0x0800001000000000, 0x0C00000000000000], let x := (sysS v).reg 9
      (sysS v).hasRights (sysS v).cur = true ∧ bits x 57 56 = 0 ∧ bits x 15 0 = 0 ∧ (bits x 59 58 = 1 → bits x 25 16 = 0) ∧
      (bits x 59 58 = 2 → bits x 35 16 = 0) ∧ (bits x 59 58 = 3 → bits x 55 16 = 0)) ∧
    (∀ v ∈ [1, 0x0400000000010000, 0x0800000000010000, 0x0C00000000010000, 0x0100000000000000], let x := (sysS v).reg 9
      (sysS v).me.run = .live ∧ ¬(bits x 57 56 = 0 ∧ bits x 15 0 = 0 ∧ (bits x 59 58 = 1 → bits x 25 16 = 0) ∧
      (bits x 59 58 = 2 → bits x 35 16 = 0) ∧ (bits x 59 58 = 3 → bits x 55 16 = 0))) ∧
    (∀ size ∈ [0, 3], ∀ ls ∈ [([0, 1], []), ([1], [0]), ([], [])], ∀ shot : Bool,
      let arg : Word := BitVec.ofNat 64 (size * 2 ^ 58)
      let s := bk fun k => { k with wait := .shoot arg ls.1 ls.2, posts := [{ post true with shot := shot }],
                                    handles := [(3, hnd .valid 1 0x10000 leafRW), (4, hnd .pending 1 0x10000 0)] }
      (s.bank 0).wait = .shoot arg ls.1 ls.2 ∧ (s.banks.all fun p => p.2.pst != .saved) = true ∧ bits arg 59 58 = size ∧
      s.revokeDrained 0 (shootPages arg) = !shot ∧ (s.serve (agentShoot 0 0) (0 + 1) ((s.bank 0).part % 16) (s.wayTo .management (0 / 256) 0)).1 = true) ∧
    (∀ d ∈ [Die.zero, openDie], let s : State := { bk fun k => { k with wait := .shoot 0 [0, 1] [] } with dies := [(0, d), (1, d)] }
      (s.bank 0).wait = .shoot 0 [0, 1] [] ∧ ((s.serve (agentShoot 0 1) (0 + 1) ((s.bank 0).part % 16) (s.wayTo .management (0 / 256) 1)).1 = true ↔ d = openDie)) ∧
    (∀ v ∈ [1, 8191], bits ((sysS v).reg 9) 63 13 = 0 ∧ bits ((sysS v).reg 9) 12 0 ≠ 0) ∧
    (∀ v ∈ [0, 8192], (bits ((sysS v).reg 9) 63 13 ≠ 0 ∨ bits ((sysS v).reg 9) 12 0 = 0) ∧ (sysS v).me.run = .live) ∧
    (let s : State := { warm .i fun k => { k with hmode := true } with
          cores := [(0, { Core.zero with lines := (List.range 9).map fun i => (0x43F + i, { CLine.zero with st := .e, way := true }) })] }
     s.access s.cur (3 : BitVec 4).toNat ((63 : BitVec 12).toNat * 64) 576 64 1 = .ok ⟨0x10FC0, 0x10FC0, leafRW⟩ ∧
     s.readWaits s.cur 0x10FC0 576 = false ∧
     ∃ xs u, s.readThrough s.cur ⟨0x10FC0, 0x10FC0, leafRW⟩ 576 = .got xs none u) :=
  ⟨by decide, by decide, by decide, by decide, by decide, by decide, ⟨ok_of (by decide), by decide,
    let ⟨xs, u, h, _⟩ := clean_of (p := fun _ => true) (by decide +kernel); ⟨xs, u, h⟩⟩⟩

/-- A saved bank is one that some entry of `banks` shows. -/
theorem none_saved {s : State} (h : (s.banks.all fun p => p.2.pst != .saved) = true) : ∀ c, (s.bank c).pst ≠ .saved := by
  intro c
  have get : ∀ l : List (Nat × Bank), (l.all fun p => p.2.pst != .saved) = true → (Assoc.get Bank.zero l c).pst ≠ .saved := by
    intro l
    induction l with
    | nil => intro _; simp [Assoc.get, Bank.zero]
    | cons p l ih =>
      intro hl
      simp only [List.all_cons, Bool.and_eq_true, bne_iff_ne, ne_eq] at hl
      unfold Assoc.get
      split
      · exact hl.1
      · exact ih hl.2
  exact get s.banks h

/-- Die 0 with one request in its key unit about slot 5 of bank 0, the slot in that state. -/
def keyS (drop revoked : Bool) (st : Nat) : State :=
  { bk fun k => { k with wait := .key 5 drop, handles := [(3, hnd .valid 3 0x10000 0x1002808)] } with
    dies := [(0, { Die.zero with keyq := [⟨0, drop, 5, [], revoked⟩],
                                 keys := [(5, { KeySlot.zero with state := st, rbase := 1, rsize := 4 })] })] }

/-- The loss of this slot goes to exactly these dies, each of them drained. -/
def droppedOn (s : State) (d x : Nat) (ds : List Nat) : Bool :=
  match s.dropped d x with
  | some (rv, on) => on == ds && ds.all fun e => s.revokeDrained e rv
  | none => false

theorem witness_TranslationsAndKeysAreRevoked_2 :
    (∀ drop revoked : Bool, ∀ st ∈ [0, 1, 2, 3], let s := keyS drop revoked st
      validDie 0 = true ∧ (s.die 0).keyq = ⟨0, drop, 5, [], revoked⟩ :: [] ∧ (s.bank 0).run = .live ∧ s.modul.fuseout = false ∧
      s.modul.logWait = [] ∧ (s.keySlot 0 5).state = st ∧ (s.banks.all fun p => p.2.pst != .saved) = true) ∧
    (∀ st ∈ [1, 2], let s := keyS true true st
      droppedOn s 0 5 [0] = true) ∧
    (let s := keyS true false 2
     let e := ((s.bank 0).handle 3).leaf
     s.die (0 / 256) ≠ Die.zero ∧ ((s.bank 0).handle 3).st = .valid ∧ leafKey e = 5 ∧ 1 ≤ leafFrame e ∧ leafFrame e < 1 + 4) ∧
    (∀ c, ((keyS true false 2).bank c).pst ≠ .saved) :=
  ⟨by decide, by decide, by decide, none_saved (by decide)⟩

/-- Key slot 5 of die 0, sealed, at reference time 100. -/
def meterS (f : KeySlot → KeySlot) : State :=
  { withDie State.reset { Die.zero with keys := [(5, f { KeySlot.zero with state := 2, rate := 8192, win := 50, cap := 2 ^ 64 - 1 })] } with
    reftime := 100 }

/-- An event of the access log. -/
def logE (ty seq : Nat) : LogEntry :=
  { ty := ty, die := 0, part := 0, key := 0, detail := 7, time := 9, epoch := 4, seq := seq, prev := 0 }

/-- The module with these entries and events, epoch 4. -/
def logS (fuseout : Bool) (log es : List LogEntry) (cps : List Checkpoint) : State :=
  { State.reset with modul := { Module.zero with ready := true, epoch := 4, fuseout := fuseout, log := log, logWait := es, checkpoints := cps } }

theorem witness_MetersAndTheLogKeepTheirOrder :
    (let x := (meterS fun k => { k with credit := [(3, 256)] }).keySlot 0 5
     validDie 0 = true ∧ 256 ≤ Assoc.get 0 x.credit 3) ∧
    (let x := (meterS fun k => { k with cap := 8191, total := 4096 }).keySlot 0 5
     x.cap ≠ 2 ^ 64 - 1 ∧ x.cap < x.total + 4096) ∧
    (∀ gs ∈ [[60], [60, 51], [60, 50]], ∀ w ∈ [none, some 50, some 51],
      let s := meterS fun k => { k with cap := 8192, total := 4096, credit := [(3, 255)], granted := gs, waiting := [3], warned := w }
      let x := s.keySlot 0 5
      let recent := x.granted.filter fun g => decide (s.reftime < g + x.win)
      Assoc.get 0 x.credit 3 < 256 ∧ ¬(x.state ≠ 2 ∨ (x.cap ≠ 2 ^ 64 - 1 ∧ x.cap < x.total + 4096)) ∧ x.waiting = [3] ∧
      (4096 * recent.length + 4096 ≤ x.rate ↔ gs ≠ [60, 51]) ∧ (x.warned = w) ∧ (s.reftime < 51 + x.win ∧ 50 + x.win ≤ s.reftime)) ∧
    ((meterS id).keySlot 0 5).waiting = [] ∧
    (∀ f : Bool, ∀ log ∈ [[], [logE 1 62], [{ logE 1 62 with epoch := 3 }]], let s := logS f log [logE 2 0] [⟨62, 4, 5, 6, 7⟩]
      s.modul.logWait = logE 2 0 :: [] ∧ s.modul.fuseout = f ∧ (logE 2 0).ty ≠ 9) ∧
    (logS false [] [] []).modul.ready = true ∧ State.reset.modul.ready = false := by decide

/-- A ready module with memory behind CXL and one die. -/
def cxlS : State :=
  { withDie (bk id) { Die.zero with relabel := [(0, some 0x8000)], cxl := [(3, 0x8000000000001000)] } with
    modul := { Module.zero with ready := true } }

/-- The module at a stage of bring-up, in an epoch. -/
def stageS (n e : Nat) : State := { State.reset with modul := { Module.zero with stage := n, epoch := e } }

theorem witness_TheModuleAnswersConfiguresAndStarts :
    (let s := cxlS
     s.modul.ready = true ∧ bit (Assoc.get 0 (s.die 0).cxl 3) 63 = true ∧ isWakeWin 0x100FF = false ∧
     s.memoryAt 0x100FF 300 = true ∧ s.memoryAt 0x100FF 1 = true ∧ 0x100FF % 256 + [(1 : Byte)].length ≤ 256 ∧
     s.memoryAt 0x1DCD64FFFF 2 = false ∧ s.memoryAt (2 ^ 52) 0 = false ∧ isWakeWin (2 ^ 52) = false) ∧
    (∀ n ∈ [0, 2399, 2400, 9600, 9601], let v := BitVec.ofNat 64 n; (2400 ≤ bits v 15 0 ∧ bits v 15 0 ≤ 9600) ∨ (bits v 15 0 < 2400 ∨ 9600 < bits v 15 0)) ∧
    (∀ n ∈ [1, 2, 3, 4, 5, 6, 7], ∀ e ∈ [4095, 4096],
      let s := stageS n e
      1 ≤ s.modul.stage ∧ s.modul.stage ≤ 7 ∧ s.modul.fail = false ∧ s.migr = [] ∧ (s.modul.epoch < 4096 ↔ e = 4095) ∧
      s.modul.fuseout = false) ∧
    (∀ n ∈ [7, 8], let s := stageS n 0
      (s.modul.stage = 8 ↔ n = 8) ∧ s.modul.fail = false) ∧
    (∀ n i, ((stageS n 0).svnOk i) = true) ∧ stageImage 4 = some 1 ∧
    (∀ i, ({ State.reset with modul := { Module.zero with stage := 4, svnmin := (Config.firmwareSvn i).toNat + 1 } } : State).svnOk i = false) :=
  ⟨by decide +kernel, by decide, by decide, by decide, fun _ _ => decide_eq_true (Nat.zero_le _), rfl,
   fun _ => decide_eq_false (Nat.not_le.mpr (Nat.lt_succ_self _))⟩

/-- Banks 0 and 1 saved, each in its area. -/
def twoSaved : State :=
  { State.reset with banks := [(0, { Bank.zero with pst := .saved, area := 0x20000 }), (1, { Bank.zero with pst := .saved, area := 0x40000 })] }

theorem witness_AreasApart : AreasApart twoSaved ∧ (context twoSaved 0).area = 0x20000 ∧ (context twoSaved 0).sealedSeen = false := by
  have get : ∀ c, twoSaved.bank c = if c = 0 then { Bank.zero with pst := .saved, area := 0x20000 }
      else if c = 1 then { Bank.zero with pst := .saved, area := 0x40000 } else Bank.zero := by
    intro c
    by_cases h0 : c = 0
    · subst h0; rfl
    · by_cases h1 : c = 1
      · subst h1; rfl
      · have e0 : ¬(0 = c) := fun h => h0 h.symm
        have e1 : ¬(1 = c) := fun h => h1 h.symm
        simp [State.bank, twoSaved, Assoc.get, h0, h1, e0, e1]
  refine ⟨⟨rfl, fun c => ?_, fun c d hcd hc hd => ?_⟩, by decide +kernel, by decide +kernel⟩
  · rw [get c]; split
    · decide
    · split <;> decide
  · rw [get c] at hc ⊢; rw [get d] at hd ⊢
    by_cases c0 : c = 0
    · by_cases d1 : d = 1
      · subst c0 d1; left; decide
      · exact absurd (by rw [if_neg (fun h => hcd (c0.trans h.symm)), if_neg d1]; rfl) hd
    · by_cases c1 : c = 1
      · by_cases d0 : d = 0
        · subst c1 d0; right; decide
        · exact absurd (by rw [if_neg d0, if_neg (fun h => hcd (c1.trans h.symm))]; rfl) hd
      · exact absurd (by rw [if_neg c0, if_neg c1]; rfl) hc

theorem witness_TheModuleOpensItsTables :
    (∀ die ∈ [0, 1023], validDie die = true) ∧
    (∀ n ∈ [0, 6], (stageS n 0).modul.ready = false ∧ (stageS n 0).modul.stage ≠ 7) ∧ (stageS 7 0).modul.stage = 7 ∧
    (0xF570000000000 + 256 * (2 ^ 24 - 1) < 2 ^ 52 ∧ isWakeWin (0xF570000000000 + 256 * (2 ^ 24 - 1)) = true) ∧
    (∀ n ∈ [4, 8], (5 : Word).toNat < 2 ^ (8 * n)) ∧
    (∀ v ∈ [0, 0x8000000000001000], cxlRoom (BitVec.ofNat 64 (bits (BitVec.ofNat 64 v : Word) 63 63 * 2 ^ 63 +
      bits (BitVec.ofNat 64 v : Word) 40 0)) ≤ cxlRoom 0x8000000000001000) := by decide

/-! ### The step, round trips and the invariant -/

/-- `PTROOT`'s tables and the word w at bank 0's program counter, the agenda naming its sequencer. -/
def fetchS (w : Nat) : State := State.reset.withFetchWord 32 w

/-- The bank's fetch answers this word, and it decodes to this. -/
def fetches (s : State) (b w : Nat) (i : Option Instr) : Bool :=
  match s.fetchInsn b with
  | .word x _ => x == w && decodeFetch x == i
  | _ => false

theorem fetches_ex {s : State} {b w : Nat} {i : Option Instr} (h : fetches s b w i = true) :
    ∃ s1, s.fetchInsn b = .word w s1 ∧ decodeFetch w = i := by
  unfold fetches at h
  split at h
  · rename_i x s1 e
    simp only [Bool.and_eq_true, beq_iff_eq] at h
    exact ⟨s1, by rw [e, ← h.1], by rw [← h.1]; exact h.2⟩
  · cases h

/-- The bank's fetch waits for its units. -/
def fetchWaits (s : State) (b : Nat) : Bool :=
  match s.fetchInsn b with
  | .wait _ => true
  | _ => false

theorem fetchWaits_ex {s : State} {b : Nat} (h : fetchWaits s b = true) : ∃ s1, s.fetchInsn b = .wait s1 := by
  unfold fetchWaits at h
  split at h
  · exact ⟨_, ‹_›⟩
  · cases h

/-- Whether bank 0's word is fetched and, decoded, stalls. -/
def stalls (s : State) (v : Bool) : Bool :=
  match s.fetchInsn 0 with
  | .word w s1 => match decodeFetch w with
    | some i => stalled 0 s1 (exec i (s1.issued 0 w)) == v
    | none => false
  | _ => false

/-- The bank's fetch faults. -/
def fetchFaults (s : State) (b : Nat) : Bool :=
  match s.fetchInsn b with
  | .trap _ _ => true
  | _ => false

theorem fetchFaults_ex {s : State} {b : Nat} (h : fetchFaults s b = true) : ∃ f s1, s.fetchInsn b = .trap f s1 := by
  unfold fetchFaults at h
  split at h
  · exact ⟨_, _, ‹_›⟩
  · cases h

/-- Whether nothing is due. -/
def nothingDue (s : State) : Bool := (dueStep s).isNone

theorem nothingDue_eq {s : State} (h : nothingDue s = true) : dueStep s = none := Option.isNone_iff_eq_none.mp h

/-- A bank with a cached translation of its program counter's page. -/
def warmFetch : State :=
  let s := bk fun k => { k with pc := 0x10000 }
  { s with cores := [(0, { (s.core 0) with tlb := [⟨0, 0x10000, 0, 0x01000023⟩] })] }

/-- A bank whose program counter is not aligned. -/
def fetchOff : State := bk fun k => { k with pc := 0x10002 }

theorem witness_StepRunsTheDecodedInstruction :
    ((fetchS 0x04000000).agenda = [.seq 0] ∧ validBank 0 = true ∧ { (fetchS 0x04000000).cycle 1 with agenda := [] }.mayIssue 0 = true) ∧
    (({ bk (fun k => { k with run := .idle }) with agenda := [.seq 0] } : State).agenda = [.seq 0] ∧
      ((bk fun k => { k with run := .idle }).cycle 1).mayIssue 0 = false) ∧
    (∃ s1, { (fetchS 0x04000000).cycle 1 with agenda := [] }.fetchInsn 0 = .word 0x04000000 s1 ∧
      decodeFetch 0x04000000 = some (.add 0 0 0)) ∧
    (∃ s1, { (fetchS 0xFFFFFFFF).cycle 1 with agenda := [] }.fetchInsn 0 = .word 0xFFFFFFFF s1 ∧ decodeFetch 0xFFFFFFFF = none) ∧
    (∃ f s1, (fetchOff.cycle 1).fetchInsn 0 = .trap f s1) ∧ (∃ s1, (warmFetch.cycle 1).fetchInsn 0 = .wait s1) ∧
    stalls ({ fetchS 0x04000000 with agenda := [] }.cycle 1) false = true ∧
    stalls ((({ fetchS 0xA0000020 with agenda := [] }.cycle 1).modBank 0 fun k => { k with posts := (List.range 32).map fun i => { post false with grp := i } })) true = true ∧
    (dueStep ({ fetchS 0x04000000 with agenda := [] }.cycle 1) = none ∧
      ({ fetchS 0x04000000 with agenda := [] }.cycle 1).pending = [] ∧
      ({ fetchS 0x04000000 with agenda := [] }.cycle 1).nextBank = some 0 ∧
      ∃ s1, ({ fetchS 0x04000000 with agenda := [] }.cycle 1).fetchInsn 0 = .word 0x04000000 s1 ∧
        decodeFetch 0x04000000 = some (.add 0 0 0)) ∧
    ({ State.reset with agenda := [.ev .powerOn] }.agenda = .ev .powerOn :: [] ∧ encode .powerOn = none) ∧
    (({ State.reset with agenda := [.together [.powerOn], .tick 3] } : State).agenda = .together [.powerOn] :: [.tick 3] ∧
      ({ State.reset with agenda := [.tick 3] } : State).agenda = .tick 3 :: []) ∧
    (∀ x ∈ [Spot.mem 6, .sram 6, .vreg 0 5, .oreg 0 7, .tile 0 1, .entry 0 2 3], let s : State := { State.reset with agenda := [.upset x] }
      let s0 : State := { s.cycle 1 with agenda := [] }
      s.agenda = .upset x :: [] ∧ isCached (256 * 6) = true ∧ s0.migr = [] ∧ (s0.rowMeta 6).cipher = false) ∧
    ((∀ p ∈ (bk id).banks, ∀ w, p.2.wait ≠ .wait w) ∧ ∀ p ∈ (bk id).dies, ∀ f ∈ p.2.boundaries, (bk id).counter + 1 < f) ∧
    (dueStep ({ State.reset with pending := [.powerOn] }.cycle 1) = none ∧
      ({ State.reset with pending := [.powerOn] }.cycle 1).nextBank = none) ∧
    ((warmFetch.bank 0).pc.toNat % 4 = 0 ∧ (warmFetch.core (0 / 2)).cached (warmFetch.bank 0).part (warmFetch.bank 0).pc.toNat = some ⟨0, 0x10000, 0, 0x01000023⟩ ∧
      leafX 0x01000023 = true ∧ leafSeal 0x01000023 = false ∧
      warmFetch.keyFits (leafPa 0x01000023 0 0x10000) (leafKey 0x01000023) = true ∧
      (warmFetch.rowMeta (leafPa 0x01000023 0 0x10000 / 256)).poison = false ∧
      isCached (leafPa 0x01000023 0 0x10000) = true ∧ (warmFetch.core (0 / 2)).ifetched (leafPa 0x01000023 0 0x10000 / 64) = none ∧
      (warmFetch.fetchServed 0 0x10000).1 = false ∧ ((withDie warmFetch openDie).fetchServed 0 0x10000).1 = true) :=
  ⟨by decide +kernel, by decide +kernel, fetches_ex (by decide +kernel), fetches_ex (by decide +kernel), fetchFaults_ex (by decide +kernel),
   fetchWaits_ex (by decide +kernel), by decide +kernel, by decide +kernel,
   ⟨nothingDue_eq (by decide +kernel), by decide +kernel, by decide +kernel, fetches_ex (by decide +kernel)⟩, by decide, by decide, by decide,
   ⟨fun p hp w => by (rw [List.mem_singleton.mp hp]; intro h; cases h), by decide⟩,
   ⟨nothingDue_eq (by decide +kernel), by decide +kernel⟩, by decide +kernel⟩

theorem witness_DecodingInvertsEncoding :
    ((Instr.fsh 31 30 29 28).wf = true ∧ encode (.fsh 31 30 29 28) = some (32, 0x07FEEA3C)) ∧
    ((Instr.retire).wf = true ∧ encode .retire = some (32, 0xA0000040)) ∧ encode .powerOn = none := by decide

theorem witness_EveryDecodedWordIsItsEncoding :
    (0x04000000 < 2 ^ 32 ∧ isSXHead 0x04000000 = false ∧ decodeFetch 0x04000000 = some (.add 0 0 0)) ∧
    (0xFC7FC000C0C00000 < 2 ^ 64 ∧ isSXHead 0xFC7FC000C0C00000 = true ∧ (decodeFetch 0xFC7FC000C0C00000).isSome = true) ∧
    (0x420840002280008B00000400 < 2 ^ 96 ∧ (decodeV 0x420840002280008B00000400).isSome = true) ∧
    (3 * 2 ^ 184 + 2 ^ 79 < 2 ^ 192 ∧ (decodeM (3 * 2 ^ 184 + 2 ^ 79)).isSome = true) := by decide

/-- The step goes on. -/
def goesOn (o : Out) : Bool :=
  match o with
  | .next _ => true
  | _ => false

theorem goesOn_ex {o : Out} (h : goesOn o = true) : ∃ t, o = .next t := by
  unfold goesOn at h
  split at h
  · exact ⟨_, rfl⟩
  · cases h

theorem witness_EveryStepKeepsTheInvariant :
    (State.reset.memWf = true ∧ State.reset.counter / 19 ≤ State.reset.reftime ∧ validBank State.reset.cur = true ∧
      ∃ t, step State.reset = .next t) ∧
    ((fetchS 0x04000000).memWf = true ∧ (fetchS 0x04000000).counter / 19 ≤ (fetchS 0x04000000).reftime ∧
      validBank (fetchS 0x04000000).cur = true ∧ ∃ t, step (fetchS 0x04000000) = .next t) :=
  ⟨⟨by decide, by decide, by decide, goesOn_ex (by decide +kernel)⟩,
   ⟨by decide +kernel, by decide +kernel, by decide +kernel, goesOn_ex (by decide +kernel)⟩⟩

/-! ### Ill-formed terms and words that are no instruction -/

/-- A term that breaks each check of `Instr.wf` on the words of 32 bits, refused. -/
theorem test_ill_formed :
    [Instr.ld 1 2 6 0, .lda 1 2 15 0, .st 1 2 0 0, .stl 1 2 15 0, .atom 1 2 3 9 false 0, .hinfo 1 2 5, .lnset 6 0 0,
     .lnset 0 3 0, .time 1 2].map Instr.wf = List.replicate 9 false := by decide

/-- An extension word that names a counter and asks for no event, refused on every SX word (R44). -/
theorem test_ill_formed_commands : let x : SXWord := ⟨0, 0, 0, 0, ⟨0, 7, 7, 7, false, 1, false, 0⟩⟩
([Instr.run x, .cpy x, .xform x, .attns x, .sqopen x, .sqapp x, .sqfork x, .sqtrunc x, .sqpark x, .sqwake x,
     .sqclose x, .sqinfo x, .attnd x, .rdx x, .coll x, .ring x, .plough x, .tokp x].map Instr.wf) = List.replicate
     18 false := by decide

/-- A vector word with every field all ones, refused by every operation (R50, R52). -/
theorem test_ill_formed_vector : let v : VWord := ⟨15, 0x3FFFFF, 0x3FFFFF, 0x3FFFFF, true, true, true, 7, 7, 7, true, 31⟩
([Instr.vbrk v, .vend v, .vtripMrg v, .vtripAcc v, .vtripProb v, .vmask v, .vadd v, .vsub v, .vmul v, .vfma v,
     .vfms v, .vmin v, .vmax v, .vabs v, .vneg v, .vrcp v, .vrsq v, .vexp v, .vexpSub v, .vtab v, .vtload v, .vcvt
     v, .vqnt v, .vdqnt v, .vand v, .vor v, .vxor v, .vnot v, .vshl v, .vshr v, .vsra v, .vfsh v, .vclz v, .vpopc
     v, .vpackWrap v, .vpackClamp v, .vpackBits v, .vunpackLo v, .vunpackHi v, .vunpackBits v, .vcmp v, .vsel v,
     .vcommit v, .vred v, .vscan v, .vgmax v, .vperm v, .vbcast v, .viota v, .vrotm v, .vld v, .vldIdx v, .vst v,
     .vstIdx v, .vstmBits v, .vstmRng v, .vxq v, .vmov v].map Instr.wf) = List.replicate 58 false := by decide

/-- A matrix word with every field all ones, refused by every operation (R57, R58). -/
theorem test_ill_formed_matrix :
    let m : MWord := ⟨15, 15, 0xFFFFFFFFFFFF, 0xFFFFFFFFFFFF, true, 255, true, 0xFFFFFF, true, true, 7⟩
([Instr.mma m, .mmax m, .mzero m, .mload m, .mstore m, .mrow m, .medge m, .mtrans m].map Instr.wf) = List.replicate
     8 false := by decide

/-- Words with a reserved bit or value: an opcode without a row, a reserved bit of `RETIRE`, `RET` and `ERET`, an access of
type 6, an operation of `ATOM` past 8, a `TIME` of kind 2, an extension word without its head and a head without it. -/
theorem test_reserved_words :
    [0x00000000, 0xA0000041, 0xF0000021, 0xA0E00082, 0xFC000000, 0xFC7FC000, 0xFFFFFFFF].map decodeFetch = List.replicate 7 none := by
  decide

/-- Placed for the next step, the word runs as the first instruction after reset. -/
theorem test_first_instruction_runs :
    (match step (State.reset.withFetchWord 32 0x08A50170) with
      | .next t => t.reg 5 == 368 && t.me.pc == 0x10004
      | _ => false) = true := by decide +kernel

/-- The integer words (R33), each with a value of its own in every field: every field's place. -/
theorem test_decode_integer :
    [0x0471E800,
     0x0471E820,
     0x0471E840,
     0x0471E860,
     0x0471E880,
     0x0471E8A0,
     0x0471E8C0,
     0x0471E8E0,
     0x0471E900,
     0x0471E920,
     0x0471E940,
     0x0471E960,
     0x0471E980,
     0x0471E9A0,
     0x0471E9C0,
     0x0471E9E0,
     0x0471EA00,
     0x0471EA26,
     0x04710240,
     0x04710260,
     0x04710280,
     0x0471EAA0,
     0x0471EAC0,
     0x0471EAE0,
     0x0471EB00,
     0x0471EB24,
     0x0471EB46].map decodeFetch =
    [some (.add 3 0x11 0x1D),
     some (.sub 3 0x11 0x1D),
     some (.mul 3 0x11 0x1D),
     some (.mulh 3 0x11 0x1D),
     some (.mulhz 3 0x11 0x1D),
     some (.div 3 0x11 0x1D),
     some (.divz 3 0x11 0x1D),
     some (.rem 3 0x11 0x1D),
     some (.remz 3 0x11 0x1D),
     some (.and 3 0x11 0x1D),
     some (.or 3 0x11 0x1D),
     some (.xor 3 0x11 0x1D),
     some (.andn 3 0x11 0x1D),
     some (.shl 3 0x11 0x1D),
     some (.shr 3 0x11 0x1D),
     some (.sra 3 0x11 0x1D),
     some (.rot 3 0x11 0x1D),
     some (.fsh 3 0x11 0x1D 6),
     some (.clz 3 0x11),
     some (.ctz 3 0x11),
     some (.popc 3 0x11),
     some (.min 3 0x11 0x1D),
     some (.max 3 0x11 0x1D),
     some (.minz 3 0x11 0x1D),
     some (.maxz 3 0x11 0x1D),
     some (.cmp 3 0x11 0x1D 4),
     some (.sel 3 0x11 0x1D 6)] := by decide

/-- The immediate words (R31 (table), R124), each with a value of its own in every field: every field's place. -/
theorem test_decode_immediate :
    [0x08710ABC,
     0x0C710ABC,
     0x10710ABC,
     0x14710ABC,
     0x186A5C37,
     0x1C6A5C37].map decodeFetch =
    [some (.addi 3 0x11 0xABC),
     some (.andi 3 0x11 0xABC),
     some (.ori 3 0x11 0xABC),
     some (.xori 3 0x11 0xABC),
     some (.lui 3 0xA5C37),
     some (.addpc 3 0xA5C37)] := by decide

/-- The control words (R34), each with a value of its own in every field: every field's place. -/
theorem test_decode_control :
    [0x20719A5C,
     0x2415C356,
     0x2875C356,
     0x2C710000].map decodeFetch =
    [some (.b 3 0x11 4 0x1A5C),
     some (.j 0x15C356),
     some (.jal 3 0x15C356),
     some (.jr 3 0x11)] := by decide

/-- The memory words (R35 to R37), each with a value of its own in every field: every field's place. -/
theorem test_decode_memory :
    [0x4072DABC,
     0x4472DABC,
     0x4872DABC,
     0x4C72DABC,
     0x50724ABC,
     0x54724ABC,
     0x587316ED,
     0x5C7310ED,
     0x60120000,
     0x60121000,
     0x64725ABC,
     0x68724000,
     0x6C120000,
     0x70723000,
     0x74720ABC].map decodeFetch =
    [some (.ld 3 9 0xD 0xABC),
     some (.lda 3 9 0xD 0xABC),
     some (.st 3 9 0xD 0xABC),
     some (.stl 3 9 0xD 0xABC),
     some (.ldm 3 9 4 0xABC),
     some (.stm 3 9 4 0xABC),
     some (.atom 3 9 0x11 6 true 0x6D),
     some (.cas 3 9 0x11 true 0x6D),
     some (.fence 9),
     some (.fenceIfetch 9),
     some (.ldq 3 9 5 0xABC),
     some (.xlate 3 9 4),
     some (.hdrop 9),
     some (.hinfo 3 9 3),
     some (.keyld 3 9 0xABC)] := by decide

/-- The queue words (R38), each with a value of its own in every field: every field's place. -/
theorem test_decode_queue :
    [0x80039000,
     0x80609200,
     0x800094A0,
     0x800094B0,
     0x80609600].map decodeFetch =
    [some (.qpush 3 9),
     some (.qpop 3 9),
     some (.qadvHead 9 5),
     some (.qadvTail 9 5),
     some (.qlvl 3 9)] := by decide

/-- The engine setting words (R39, R40), each with a value of its own in every field: every field's place. -/
theorem test_decode_engine_setting :
    [0x8A430000,
     0x8C720ABC,
     0x90720ABC,
     0x94120ABC].map decodeFetch =
    [some (.lnset 4 2 3),
     some (.adset 3 9 0xABC),
     some (.layout 3 9 0xABC),
     some (.mblk 9 0xABC)] := by decide

/-- The progress words (R41), each with a value of its own in every field: every field's place. -/
theorem test_decode_progress :
    [0xA071E802,
     0xA071E812,
     0xA0030020,
     0xA0000040,
     0xA0000060,
     0xA0600081,
     0xA4000025,
     0xA4038925,
     0xA4030225,
     0xA8120ABC,
     0xAC000ABC].map decodeFetch =
    [some (.waitAny 3 0x11 0x1D 2),
     some (.waitAll 3 0x11 0x1D 2),
     some (.sev 3),
     some (.retire),
     some (.yield),
     some (.time 3 1),
     some (.cbarr 0x25),
     some (.cbset 3 0x11 0x25),
     some (.cbadd 3 0x25),
     some (.launch 9 0xABC),
     some (.phase 0xABC)] := by decide

/-- The system words (R42), each with a value of its own in every field: every field's place. -/
theorem test_decode_system :
    [0xF0000003,
     0xF0000020,
     0xF0000040,
     0xF0000060,
     0xF0030080,
     0xF00300A0,
     0xF4600ABC,
     0xF8030ABC].map decodeFetch =
    [some (.trap 3),
     some (.eret),
     some (.halt),
     some (.bkpt),
     some (.shoot 3),
     some (.keydrop 3),
     some (.srd 3 0xABC),
     some (.swr 3 0xABC)] := by decide

/-- The engine commands: head and extension word as R29, R44, R45 and R46 lay them out, the head in bits [31:0]. -/
theorem test_decode_command :
    [0xFD7FC000C0800000,
     0xFC1774D6C4853007,
     0xFFFFC07FC8853000,
     0xFD7FC000CC853000,
     0xFC1774D6CC850020,
     0xFFFFC07FCC853040,
     0xFD7FC000CC853060,
     0xFC1774D6CC850080,
     0xFFFFC07FCC8530A0,
     0xFD7FC000CC8500C0,
     0xFC1774D6CC8000E0,
     0xFFFFC07FCC850100,
     0xFD7FC000D0853000,
     0xFC1774D6D0853027,
     0xFFFFC07FD4853007,
     0xFD7FC000D4853027,
     0xFC1774D6D4850040,
     0xFFFFC07FD8000000].map decodeFetch =
    [some (.run ⟨4, 0, 0, 0, ⟨2, 7, 7, 7, false, 0, false, 0⟩⟩),
     some (.cpy ⟨4, 5, 6, 7, ⟨0, 1, 3, 5, true, 41, true, 22⟩⟩),
     some (.xform ⟨4, 5, 6, 0, ⟨7, 7, 7, 7, false, 0, true, 63⟩⟩),
     some (.attns ⟨4, 5, 6, 0, ⟨2, 7, 7, 7, false, 0, false, 0⟩⟩),
     some (.sqopen ⟨4, 5, 0, 0, ⟨0, 1, 3, 5, true, 41, true, 22⟩⟩),
     some (.sqapp ⟨4, 5, 6, 0, ⟨7, 7, 7, 7, false, 0, true, 63⟩⟩),
     some (.sqfork ⟨4, 5, 6, 0, ⟨2, 7, 7, 7, false, 0, false, 0⟩⟩),
     some (.sqtrunc ⟨4, 5, 0, 0, ⟨0, 1, 3, 5, true, 41, true, 22⟩⟩),
     some (.sqpark ⟨4, 5, 6, 0, ⟨7, 7, 7, 7, false, 0, true, 63⟩⟩),
     some (.sqwake ⟨4, 5, 0, 0, ⟨2, 7, 7, 7, false, 0, false, 0⟩⟩),
     some (.sqclose ⟨4, 0, 0, 0, ⟨0, 1, 3, 5, true, 41, true, 22⟩⟩),
     some (.sqinfo ⟨4, 5, 0, 0, ⟨7, 7, 7, 7, false, 0, true, 63⟩⟩),
     some (.attnd ⟨4, 5, 6, 0, ⟨2, 7, 7, 7, false, 0, false, 0⟩⟩),
     some (.rdx ⟨4, 5, 6, 7, ⟨0, 1, 3, 5, true, 41, true, 22⟩⟩),
     some (.coll ⟨4, 5, 6, 7, ⟨7, 7, 7, 7, false, 0, true, 63⟩⟩),
     some (.ring ⟨4, 5, 6, 7, ⟨2, 7, 7, 7, false, 0, false, 0⟩⟩),
     some (.plough ⟨4, 5, 0, 0, ⟨0, 1, 3, 5, true, 41, true, 22⟩⟩),
     some (.tokp ⟨0, 0, 0, 0, ⟨7, 7, 7, 7, false, 0, true, 63⟩⟩)] := by decide

/-- V-words of R49, their opcodes and forms as R53 and their chapters give them; destination `o3`, sources `v17` and `ad5` (R51). -/
theorem test_decode_vector_float :
    [0x010000002440000000000003,
     0x020000000000000000015000,
     0x03143000244000000000A000,
     0x03143000244000C5AAF1B601,
     0x03143000244000C5AAF20002,
     0x04000000244000000001500B,
     0x10243000244000C5AAF0A0C0,
     0x11343000244000C5AAF1B040,
     0x12143000244000C5AAF00F00,
     0x13243000244000C5AAF15080,
     0x14343000244000C5AAF2A000,
     0x15143000244000C5AAF1B000,
     0x16243000244000C5AAF00A00,
     0x173430002440000000015000,
     0x18143000244000000000A000,
     0x19243000244000000001B040,
     0x1A3430002440000000000080,
     0x1B1430002440000000015040,
     0x1B143000244000C5AAF0A001,
     0x20243000244000000001B000].map decodeV =
    [some (.vbrk ⟨0, 0, 0x244000, 0, false, false, false, 0, 0, 0, false, 3⟩),
     some (.vend ⟨0, 0, 0, 0, false, true, false, 5, 0, 0, false, 0⟩),
     some (.vtripMrg ⟨1, 0x10C000, 0x244000, 0, false, false, true, 2, 0, 0, false, 0⟩),
     some (.vtripAcc ⟨1, 0x10C000, 0x244000, 0x316ABC, false, true, true, 3, 3, 0, false, 1⟩),
     some (.vtripProb ⟨1, 0x10C000, 0x244000, 0x316ABC, true, false, false, 0, 0, 0, false, 2⟩),
     some (.vmask ⟨0, 0, 0x244000, 0, false, true, false, 5, 0, 0, false, 0xB⟩),
     some (.vadd ⟨2, 0x10C000, 0x244000, 0x316ABC, false, false, true, 2, 0, 3, false, 0⟩),
     some (.vsub ⟨3, 0x10C000, 0x244000, 0x316ABC, false, true, true, 3, 0, 1, false, 0⟩),
     some (.vmul ⟨1, 0x10C000, 0x244000, 0x316ABC, false, false, false, 0, 7, 4, false, 0⟩),
     some (.vfma ⟨2, 0x10C000, 0x244000, 0x316ABC, false, true, false, 5, 0, 2, false, 0⟩),
     some (.vfms ⟨3, 0x10C000, 0x244000, 0x316ABC, true, false, true, 2, 0, 0, false, 0⟩),
     some (.vmin ⟨1, 0x10C000, 0x244000, 0x316ABC, false, true, true, 3, 0, 0, false, 0⟩),
     some (.vmax ⟨2, 0x10C000, 0x244000, 0x316ABC, false, false, false, 0, 5, 0, false, 0⟩),
     some (.vabs ⟨3, 0x10C000, 0x244000, 0, false, true, false, 5, 0, 0, false, 0⟩),
     some (.vneg ⟨1, 0x10C000, 0x244000, 0, false, false, true, 2, 0, 0, false, 0⟩),
     some (.vrcp ⟨2, 0x10C000, 0x244000, 0, false, true, true, 3, 0, 1, false, 0⟩),
     some (.vrsq ⟨3, 0x10C000, 0x244000, 0, false, false, false, 0, 0, 2, false, 0⟩),
     some (.vexp ⟨1, 0x10C000, 0x244000, 0, false, true, false, 5, 0, 1, false, 0⟩),
     some (.vexpSub ⟨1, 0x10C000, 0x244000, 0x316ABC, false, false, true, 2, 0, 0, false, 1⟩),
     some (.vtab ⟨2, 0x10C000, 0x244000, 0, false, true, true, 3, 0, 0, false, 0⟩)] := by decide

/-- V-words of R49, their opcodes and forms as R53 and their chapters give them; destination `o3`, sources `v17` and `ad5` (R51). -/
theorem test_decode_vector_int :
    [0x21000000244000000000000B,
     0x224430002440000000015062,
     0x23543000244000C5AAF0A021,
     0x24243000244000C5AAF1B004,
     0x30743000244000C5AAF00000,
     0x31843000244000C5AAF15000,
     0x32943000244000C5AAF0A200,
     0x33A43000244000000001B000,
     0x34B43000244000C5AAF00000,
     0x35C43000244000C5AAF15000,
     0x36D43000244000C5AAF0A000,
     0x37E43000244000C5AAF1B000,
     0x389430002440000000000000,
     0x398430002440000000015000,
     0x3A843000244000C5AAF0A000,
     0x3AC43000244000C5AAF1B008,
     0x3AD43000244000C5AAF00010,
     0x3B7430002440000000015000,
     0x3BB43000244000000000A008,
     0x3B943000244000C5AAF1B010].map decodeV =
    [some (.vtload ⟨0, 0, 0x244000, 0, false, false, false, 0, 0, 0, false, 0xB⟩),
     some (.vcvt ⟨4, 0x10C000, 0x244000, 0, false, true, false, 5, 0, 1, true, 2⟩),
     some (.vqnt ⟨5, 0x10C000, 0x244000, 0x316ABC, false, false, true, 2, 0, 0, true, 1⟩),
     some (.vdqnt ⟨2, 0x10C000, 0x244000, 0x316ABC, false, true, true, 3, 0, 0, false, 4⟩),
     some (.vand ⟨7, 0x10C000, 0x244000, 0x316ABC, false, false, false, 0, 0, 0, false, 0⟩),
     some (.vor ⟨8, 0x10C000, 0x244000, 0x316ABC, false, true, false, 5, 0, 0, false, 0⟩),
     some (.vxor ⟨9, 0x10C000, 0x244000, 0x316ABC, false, false, true, 2, 1, 0, false, 0⟩),
     some (.vnot ⟨10, 0x10C000, 0x244000, 0, false, true, true, 3, 0, 0, false, 0⟩),
     some (.vshl ⟨11, 0x10C000, 0x244000, 0x316ABC, false, false, false, 0, 0, 0, false, 0⟩),
     some (.vshr ⟨12, 0x10C000, 0x244000, 0x316ABC, false, true, false, 5, 0, 0, false, 0⟩),
     some (.vsra ⟨13, 0x10C000, 0x244000, 0x316ABC, false, false, true, 2, 0, 0, false, 0⟩),
     some (.vfsh ⟨14, 0x10C000, 0x244000, 0x316ABC, false, true, true, 3, 0, 0, false, 0⟩),
     some (.vclz ⟨9, 0x10C000, 0x244000, 0, false, false, false, 0, 0, 0, false, 0⟩),
     some (.vpopc ⟨8, 0x10C000, 0x244000, 0, false, true, false, 5, 0, 0, false, 0⟩),
     some (.vpackWrap ⟨8, 0x10C000, 0x244000, 0x316ABC, false, false, true, 2, 0, 0, false, 0⟩),
     some (.vpackClamp ⟨12, 0x10C000, 0x244000, 0x316ABC, false, true, true, 3, 0, 0, false, 8⟩),
     some (.vpackBits ⟨13, 0x10C000, 0x244000, 0x316ABC, false, false, false, 0, 0, 0, false, 0x10⟩),
     some (.vunpackLo ⟨7, 0x10C000, 0x244000, 0, false, true, false, 5, 0, 0, false, 0⟩),
     some (.vunpackHi ⟨11, 0x10C000, 0x244000, 0, false, false, true, 2, 0, 0, false, 8⟩),
     some (.vunpackBits ⟨9, 0x10C000, 0x244000, 0x316ABC, false, true, true, 3, 0, 0, false, 0x10⟩)] := by decide

/-- V-words of R49, their opcodes and forms as R53 and their chapters give them; destination `o3`, sources `v17` and `ad5` (R51). -/
theorem test_decode_vector_cross :
    [0x40943000244000C5AAF00004,
     0x41043000244000C5AAF15400,
     0x42043000244000C5AAF0A400,
     0x50143000244000000001B001,
     0x519430002440000000000003,
     0x522430002440000000015008,
     0x53043000244000C5AAF0A000,
     0x54943000244000C5AAF1B000,
     0x55E43000244000C5AAF00000,
     0x56043000244000C5AAF15000,
     0x60043000244000000000A000,
     0x60043000244000C5AAF1B001,
     0x610430002440000000000000,
     0x61043000244000C5AAF15001,
     0x62043000244000C5AAF0A000,
     0x62043000244000C5AAF1B001,
     0x630430002440000000000005,
     0x640430002440000000035000].map decodeV =
    [some (.vcmp ⟨9, 0x10C000, 0x244000, 0x316ABC, false, false, false, 0, 0, 0, false, 4⟩),
     some (.vsel ⟨0, 0x10C000, 0x244000, 0x316ABC, false, true, false, 5, 2, 0, false, 0⟩),
     some (.vcommit ⟨0, 0x10C000, 0x244000, 0x316ABC, false, false, true, 2, 2, 0, false, 0⟩),
     some (.vred ⟨1, 0x10C000, 0x244000, 0, false, true, true, 3, 0, 0, false, 1⟩),
     some (.vscan ⟨9, 0x10C000, 0x244000, 0, false, false, false, 0, 0, 0, false, 3⟩),
     some (.vgmax ⟨2, 0x10C000, 0x244000, 0, false, true, false, 5, 0, 0, false, 8⟩),
     some (.vperm ⟨0, 0x10C000, 0x244000, 0x316ABC, false, false, true, 2, 0, 0, false, 0⟩),
     some (.vbcast ⟨9, 0x10C000, 0x244000, 0x316ABC, false, true, true, 3, 0, 0, false, 0⟩),
     some (.viota ⟨14, 0x10C000, 0x244000, 0x316ABC, false, false, false, 0, 0, 0, false, 0⟩),
     some (.vrotm ⟨0, 0x10C000, 0x244000, 0x316ABC, false, true, false, 5, 0, 0, false, 0⟩),
     some (.vld ⟨0, 0x10C000, 0x244000, 0, false, false, true, 2, 0, 0, false, 0⟩),
     some (.vldIdx ⟨0, 0x10C000, 0x244000, 0x316ABC, false, true, true, 3, 0, 0, false, 1⟩),
     some (.vst ⟨0, 0x10C000, 0x244000, 0, false, false, false, 0, 0, 0, false, 0⟩),
     some (.vstIdx ⟨0, 0x10C000, 0x244000, 0x316ABC, false, true, false, 5, 0, 0, false, 1⟩),
     some (.vstmBits ⟨0, 0x10C000, 0x244000, 0x316ABC, false, false, true, 2, 0, 0, false, 0⟩),
     some (.vstmRng ⟨0, 0x10C000, 0x244000, 0x316ABC, false, true, true, 3, 0, 0, false, 1⟩),
     some (.vxq ⟨0, 0x10C000, 0x244000, 0, false, false, false, 0, 0, 0, false, 5⟩),
     some (.vmov ⟨0, 0x10C000, 0x244000, 0, true, true, false, 5, 0, 0, false, 0⟩)] := by decide

/-- `VNOP` is the all-zero word (R54). -/
theorem test_decode_vector_nop :
    [0].map decodeV =
    [some (.vnop)] := by decide

/-- M-words of R55 and R57, their operand and scale specifiers as R56 gives them. -/
theorem test_decode_matrix :
    [0x012214000000000052B0FD40000081A00000000000000000,
     0x026692B000C000000700000000000FC0852ABCA000000000,
     0x030000000000000000000000000080000000005000000000,
     0x0410480001C000000000000000000000000000C800000000,
     0x053020000000000000000000000080200000000000000000,
     0x06000900000000000000000000001FC00000000000000000,
     0x070000000000000000000000000080000063390000000000,
     0x08400800000000004A600080000000000000000000000000].map decodeM =
    [some (.mma ⟨2, 2, 0x140000000000, 0x52B0FD400000, true, 6, true, 0, false, false, 0⟩),
     some (.mmax ⟨6, 6, 0x92B000C00000, 0x70000000000, false, 63, false, 0x852ABC, true, false, 4⟩),
     some (.mzero ⟨0, 0, 0, 0, true, 0, false, 0, false, true, 2⟩),
     some (.mload ⟨1, 0, 0x480001C00000, 0, false, 0, false, 0, true, true, 1⟩),
     some (.mstore ⟨3, 0, 0x200000000000, 0, true, 0, true, 0, false, false, 0⟩),
     some (.mrow ⟨0, 0, 0x90000000000, 0, false, 127, false, 0, false, false, 0⟩),
     some (.medge ⟨0, 0, 0, 0, true, 0, false, 0x6339, false, false, 0⟩),
     some (.mtrans ⟨4, 0, 0x80000000000, 0x4A6000800000, false, 0, false, 0, false, false, 0⟩)] := by decide

end Sys2Proof.Tests
end

/-! ## The decoder is injective and rejects what is reserved (R29 to R60)

A word is the sum of its fields (`encR_of_fields` and its like, one for each format of spec/02). Every branch of the decoder
fixes the opcode, the function code and the reserved fields of the word that it accepts, so that the encoder's sum is the word. -/

namespace Sys2Proof.Machine

/-! ### Fields of a word -/

theorem toNat_fieldOf (w lo n : Nat) : (fieldOf w lo n).toNat = numOf w lo n := by
  simp [fieldOf, numOf, BitVec.toNat_ofNat]

theorem b2n_flagOf (w k : Nat) : b2n (flagOf w k) = numOf w k 1 := by
  rcases Nat.mod_two_eq_zero_or_one (w / 2 ^ k) with h | h <;> simp [b2n, flagOf, numOf, h]

theorem orIllegal_eq_some {c : Bool} {i j : Instr} : orIllegal c i = some j ↔ c = true ∧ i = j := by
  cases c <;> simp [orIllegal]

/-- A field, cut at its bit m. -/
theorem numOf_split (w lo m n : Nat) : numOf w lo (m + n) = numOf w lo m + 2 ^ m * numOf w (lo + m) n := by
  simp only [numOf, Nat.pow_add, Nat.mod_mul, Nat.div_div_eq_div_mul]

theorem numOf_all {w n : Nat} (h : w < 2 ^ n) : numOf w 0 n = w := by
  simp [numOf, Nat.mod_eq_of_lt h]

/-- A field whose high bits are zero is its low bits. -/
theorem numOf_of_high {w lo m n : Nat} (h : numOf w (lo + m) n = 0) : numOf w lo (m + n) = (fieldOf w lo m).toNat := by
  rw [toNat_fieldOf, numOf_split, h, Nat.mul_zero, Nat.add_zero]

/-- An accepted word: its instruction is well-formed, and its encoding is the word. -/
def Accepted (n w : Nat) (i : Instr) : Prop := i.wf = true ∧ encode i = some (n, w)

theorem Accepted.ofS {i : Instr} {w v : Nat} (hwf : i.wf = true) (he : encodeS i = some v) (hv : v = w) :
    Accepted 32 w i := ⟨hwf, by rw [encode, he, hv]⟩

/-! ### The formats of S-words: a word is the sum of its fields -/

section
variable {w op : Nat} (hw : w < 2 ^ 32) (hop : numOf w 26 6 = op)
include hw hop

theorem encR_of_fields {d a b : BitVec 5} {func aux : Nat} (hd : d.toNat = numOf w 21 5) (ha : a.toNat = numOf w 16 5)
    (hb : b.toNat = numOf w 11 5) (hf : numOf w 5 6 = func) (hx : numOf w 0 5 = aux) : encR op d a b func aux = w := by
  simp only [encR, numOf] at *
  omega

theorem encM_of_fields {r : BitVec 5} {h : BitVec 4} {off : BitVec 12} {sub : Nat} (hr : r.toNat = numOf w 21 5)
    (hh : h.toNat = numOf w 17 4) (hs : numOf w 12 5 = sub) (ho : off.toNat = numOf w 0 12) : encM op r h sub off = w := by
  simp only [encM, numOf] at *
  omega

theorem encQ_of_fields {d a : BitVec 5} {qf tailf : Nat} {cnt : BitVec 4} (hop' : op = 0x20) (hd : d.toNat = numOf w 21 5)
    (ha : a.toNat = numOf w 16 5) (hq : numOf w 9 3 = qf) (hc : cnt.toNat = numOf w 5 4) (ht : numOf w 4 1 = tailf)
    (h0 : numOf w 0 4 = 0) : encQ d a (fieldOf w 12 4) qf cnt.toNat tailf = w := by
  simp only [encQ, toNat_fieldOf, numOf] at *
  omega

theorem encC_of_fields {a b : BitVec 5} {cbf : Nat} (hop' : op = 0x29) (hd : numOf w 21 5 = 0) (ha : a.toNat = numOf w 16 5)
    (hb : b.toNat = numOf w 11 5) (hc : numOf w 8 3 = cbf) (hx : numOf w 6 2 = 0) : encC a b cbf (fieldOf w 0 6) = w := by
  simp only [encC, toNat_fieldOf, numOf] at *
  omega

theorem encA_of_fields {aop : Nat} (ha : numOf w 8 4 = aop) :
    encA op (fieldOf w 21 5) (fieldOf w 17 4) (fieldOf w 12 5) aop (flagOf w 7) (fieldOf w 0 7) = w := by
  simp only [encA, toNat_fieldOf, b2n_flagOf, numOf] at *
  omega

end

/-! ### The groups of S-words -/

/-- The integer group (R33). -/
theorem accepted_of_decodeInt {w : Nat} {i : Instr} (hw : w < 2 ^ 32) (hop : numOf w 26 6 = 0x01)
    (h : decodeInt w = some i) : Accepted 32 w i := by
  simp only [decodeInt] at h
  split at h
  all_goals simp only [orIllegal_eq_some, Bool.and_eq_true, beq_iff_eq, Option.some.injEq, reduceCtorEq] at h
  case h_18 hf | h_27 hf => -- three sources
    subst h
    exact .ofS rfl rfl (encR_of_fields hw hop (toNat_fieldOf ..) (toNat_fieldOf ..) (toNat_fieldOf ..) hf
      (toNat_fieldOf ..).symm)
  case h_19 hf | h_20 hf | h_21 hf => -- one source
    obtain ⟨⟨hx, hb⟩, rfl⟩ := h
    exact .ofS rfl rfl (encR_of_fields hw hop (toNat_fieldOf ..) (toNat_fieldOf ..) hb.symm hf hx)
  case h_26 hf => -- the condition of `CMP`
    obtain ⟨hx, rfl⟩ := h
    refine .ofS rfl rfl (encR_of_fields hw hop (toNat_fieldOf ..) (toNat_fieldOf ..) (toNat_fieldOf ..) hf ?_)
    simp only [toNat_fieldOf, numOf] at hx ⊢
    omega
  all_goals -- two sources
    rename_i hf
    obtain ⟨hx, rfl⟩ := h
    exact .ofS rfl rfl (encR_of_fields hw hop (toNat_fieldOf ..) (toNat_fieldOf ..) (toNat_fieldOf ..) hf hx)

/-- The fields below QF are zero when their nine bits are. -/
theorem low_fields_zero {w : Nat} (h : numOf w 0 9 = 0) : numOf w 5 4 = 0 ∧ numOf w 4 1 = 0 ∧ numOf w 0 4 = 0 := by
  simp only [numOf] at *
  omega

/-- The words of the queues (R38), by QF: the branch of `decodeMem` for their opcode. -/
theorem accepted_of_decodeQueue {w : Nat} {i : Instr} (hw : w < 2 ^ 32) (hop : numOf w 26 6 = 0x20)
    (h : decodeMem w = some i) : Accepted 32 w i := by
  simp only [decodeMem, hop] at h
  split at h
  case h_5 => cases h
  case h_3 hq => -- `QADV`
    split at h
    case isFalse => cases h
    case isTrue hz =>
      simp only [Bool.and_eq_true, beq_iff_eq] at hz
      obtain ⟨⟨hr, ha⟩, h0⟩ := hz
      split at h
      case isTrue ht =>
        cases h
        exact .ofS rfl rfl (encQ_of_fields hw hop rfl hr.symm ha.symm hq (toNat_fieldOf ..) (by simpa using ht) h0)
      case isFalse ht =>
        cases h
        have ht : numOf w 4 1 = 1 := by simp [numOf] at ht ⊢; omega
        exact .ofS rfl rfl (encQ_of_fields hw hop rfl hr.symm ha.symm hq (toNat_fieldOf ..) ht h0)
  all_goals
    rename_i hq
    simp only [orIllegal_eq_some, Bool.and_eq_true, beq_iff_eq] at h
    obtain ⟨⟨h0, hlow⟩, rfl⟩ := h
    obtain ⟨hc, ht, hl⟩ := low_fields_zero hlow
  case h_1 => exact .ofS rfl rfl (encQ_of_fields hw hop rfl h0.symm (toNat_fieldOf ..) hq (cnt := 0) hc.symm ht hl)
  all_goals exact .ofS rfl rfl (encQ_of_fields hw hop rfl (toNat_fieldOf ..) h0.symm hq (cnt := 0) hc.symm ht hl)

/-- The memory, translation and queue words (R35 to R38). -/
theorem accepted_of_decodeMem {w : Nat} {i : Instr} (hw : w < 2 ^ 32) (h : decodeMem w = some i) : Accepted 32 w i := by
  have h' := h
  simp only [decodeMem] at h
  split at h
  case h_15 hop => exact accepted_of_decodeQueue hw hop h'
  case h_9 hop =>
    split at h
    case isFalse => cases h
    case isTrue h0 =>
      simp only [Bool.and_eq_true, beq_iff_eq] at h0
      obtain ⟨hr, ho⟩ := h0
      split at h
      case h_3 => cases h
      all_goals
        rename_i hs
        cases h
        exact .ofS rfl rfl (encM_of_fields hw hop hr.symm (toNat_fieldOf ..) hs ho.symm)
  all_goals simp only [orIllegal_eq_some, Bool.and_eq_true, beq_iff_eq, decide_eq_true_eq, reduceCtorEq] at h
  case h_1 hop | h_2 hop | h_3 hop | h_4 hop => -- a type code
    obtain ⟨⟨⟨ht, lo⟩, hi⟩, rfl⟩ := h
    exact .ofS (by simp [Instr.wf, accessType, lo, hi]) rfl
      (encM_of_fields hw hop (toNat_fieldOf ..) (toNat_fieldOf ..) (numOf_of_high (m := 4) (n := 1) ht) (toNat_fieldOf ..))
  case h_5 hop | h_6 hop => -- a count of words
    obtain ⟨hn, rfl⟩ := h
    exact .ofS rfl rfl (encM_of_fields hw hop (toNat_fieldOf ..) (toNat_fieldOf ..)
      (numOf_of_high (m := 3) (n := 2) hn) (toNat_fieldOf ..))
  case h_10 hop => -- a count of rows
    obtain ⟨hn, rfl⟩ := h
    exact .ofS rfl rfl (encM_of_fields hw hop (toNat_fieldOf ..) (toNat_fieldOf ..)
      (numOf_of_high (m := 4) (n := 1) hn) (toNat_fieldOf ..))
  case h_7 hop => -- `ATOM`
    obtain ⟨ha, rfl⟩ := h
    exact .ofS (by simpa [Instr.wf, toNat_fieldOf] using ha) rfl (encA_of_fields hw hop (toNat_fieldOf ..).symm)
  case h_8 hop => -- `CAS`
    obtain ⟨ha, rfl⟩ := h
    exact .ofS rfl rfl (encA_of_fields hw hop ha)
  case h_11 hop => -- `XLATE`
    obtain ⟨⟨hn, ho⟩, rfl⟩ := h
    exact .ofS rfl rfl (encM_of_fields hw hop (toNat_fieldOf ..) (toNat_fieldOf ..)
      (numOf_of_high (m := 3) (n := 2) hn) ho.symm)
  case h_12 hop => -- `HDROP`
    obtain ⟨⟨hr, ho⟩, rfl⟩ := h
    refine .ofS rfl rfl (encM_of_fields hw hop hr.symm (toNat_fieldOf ..) ?_ ?_) <;> simp [numOf] at ho ⊢ <;> omega
  case h_13 hop => -- `HINFO`
    obtain ⟨⟨hk, ho⟩, rfl⟩ := h
    exact .ofS (by simpa [Instr.wf, toNat_fieldOf] using hk) rfl
      (encM_of_fields hw hop (toNat_fieldOf ..) (toNat_fieldOf ..) (toNat_fieldOf ..).symm ho.symm)
  case h_14 hop | h_17 hop | h_18 hop => -- an address
    obtain ⟨hs, rfl⟩ := h
    exact .ofS rfl rfl (encM_of_fields hw hop (toNat_fieldOf ..) (toNat_fieldOf ..) hs (toNat_fieldOf ..))
  case h_19 hop | h_20 hop => -- an address and no register
    obtain ⟨⟨hr, hs⟩, rfl⟩ := h
    exact .ofS rfl rfl (encM_of_fields hw hop hr.symm (toNat_fieldOf ..) hs (toNat_fieldOf ..))
  case h_16 hop => -- `LNSET`
    obtain ⟨⟨⟨hl, hb⟩, ho⟩, rfl⟩ := h
    refine .ofS (by simp [Instr.wf, toNat_fieldOf, hl, hb]) rfl ?_
    simp only [toNat_fieldOf, numOf] at *
    omega

/-- The progress words (R41), by FUNC: the branch of `decodeSys` for their opcode. -/
theorem accepted_of_decodeProgress {w : Nat} {i : Instr} (hw : w < 2 ^ 32) (hop : numOf w 26 6 = 0x28)
    (h : decodeSys w = some i) : Accepted 32 w i := by
  simp only [decodeSys, hop] at h
  split at h
  case h_6 => cases h
  case h_1 hf => -- `WAIT`: AUX holds the kind in bit 4 and the number of conditions in its low bits
    split at h
    case isFalse => cases h
    case isTrue hz =>
      split at h
      all_goals
        rename_i hk
        cases h
        refine .ofS rfl rfl (encR_of_fields hw hop (toNat_fieldOf ..) (toNat_fieldOf ..) (toNat_fieldOf ..) hf ?_)
        simp only [flagOf, toNat_fieldOf, numOf, beq_iff_eq] at hz hk ⊢
        omega
  all_goals
    rename_i hf
    simp only [orIllegal_eq_some, Bool.and_eq_true, beq_iff_eq, decide_eq_true_eq] at h
  case h_2 => -- `SEV`
    obtain ⟨⟨⟨hd, hb⟩, hx⟩, rfl⟩ := h
    exact .ofS rfl rfl (encR_of_fields hw hop hd.symm (toNat_fieldOf ..) hb.symm hf hx)
  case h_3 | h_4 => -- no operand
    obtain ⟨⟨⟨⟨hd, ha⟩, hb⟩, hx⟩, rfl⟩ := h
    exact .ofS rfl rfl (encR_of_fields hw hop hd.symm ha.symm hb.symm hf hx)
  case h_5 => -- `TIME`
    obtain ⟨⟨⟨ha, hb⟩, hx⟩, rfl⟩ := h
    exact .ofS (by simpa [Instr.wf, toNat_fieldOf] using hx) rfl
      (encR_of_fields hw hop (toNat_fieldOf ..) ha.symm hb.symm hf (toNat_fieldOf ..).symm)

/-- The counting barriers (R41): the branch of `decodeSys` for their opcode. -/
theorem accepted_of_decodeBarrier {w : Nat} {i : Instr} (hw : w < 2 ^ 32) (hop : numOf w 26 6 = 0x29)
    (h : decodeSys w = some i) : Accepted 32 w i := by
  simp only [decodeSys, hop] at h
  split at h
  case isFalse => cases h
  case isTrue hz =>
    simp only [Bool.and_eq_true, beq_iff_eq] at hz
    obtain ⟨hd, hx⟩ := hz
    split at h
    case h_4 => cases h
    all_goals
      rename_i hc
      simp only [orIllegal_eq_some, Bool.and_eq_true, beq_iff_eq, Option.some.injEq] at h
    case h_1 =>
      obtain ⟨⟨ha, hb⟩, rfl⟩ := h
      exact .ofS rfl rfl (encC_of_fields hw hop rfl hd ha.symm hb.symm hc hx)
    case h_2 =>
      subst h
      exact .ofS rfl rfl (encC_of_fields hw hop rfl hd (toNat_fieldOf ..) (toNat_fieldOf ..) hc hx)
    case h_3 =>
      obtain ⟨hb, rfl⟩ := h
      exact .ofS rfl rfl (encC_of_fields hw hop rfl hd (toNat_fieldOf ..) hb.symm hc hx)

/-- The system words without a register number (R42), by FUNC: the branch of `decodeSys` for their opcode. -/
theorem accepted_of_decodeTrap {w : Nat} {i : Instr} (hw : w < 2 ^ 32) (hop : numOf w 26 6 = 0x3C)
    (h : decodeSys w = some i) : Accepted 32 w i := by
  simp only [decodeSys, hop] at h
  split at h
  case h_7 => cases h
  all_goals
    rename_i hf
    simp only [orIllegal_eq_some, Bool.and_eq_true, beq_iff_eq] at h
  case h_1 => -- `TRAP`
    obtain ⟨⟨⟨hd, ha⟩, hb⟩, rfl⟩ := h
    exact .ofS rfl rfl (encR_of_fields hw hop hd.symm ha.symm hb.symm hf (toNat_fieldOf ..).symm)
  case h_2 | h_3 | h_4 => -- no operand
    obtain ⟨⟨⟨⟨hd, ha⟩, hb⟩, hx⟩, rfl⟩ := h
    exact .ofS rfl rfl (encR_of_fields hw hop hd.symm ha.symm hb.symm hf hx)
  case h_5 | h_6 => -- `SHOOT` and `KEYDROP`
    obtain ⟨⟨⟨hd, hb⟩, hx⟩, rfl⟩ := h
    exact .ofS rfl rfl (encR_of_fields hw hop hd.symm (toNat_fieldOf ..) hb.symm hf hx)

/-- The progress, barrier and system words (R41, R42). -/
theorem accepted_of_decodeSys {w : Nat} {i : Instr} (hw : w < 2 ^ 32) (h : decodeSys w = some i) : Accepted 32 w i := by
  have h' := h
  simp only [decodeSys] at h
  split at h
  case h_1 hop => exact accepted_of_decodeProgress hw hop h'
  case h_2 hop => exact accepted_of_decodeBarrier hw hop h'
  case h_4 hop => exact accepted_of_decodeTrap hw hop h'
  case h_7 => cases h
  all_goals -- a 12-bit number
    simp only [orIllegal_eq_some, Bool.and_eq_true, beq_iff_eq] at h
    obtain ⟨hz, rfl⟩ := h
    refine .ofS rfl rfl ?_
    simp only [toNat_fieldOf, numOf] at *
    omega

/-- Every S-word that decodes (R29 to R42). -/
theorem accepted_of_decodeS {w : Nat} {i : Instr} (hw : w < 2 ^ 32) (h : decodeS w = some i) : Accepted 32 w i := by
  simp only [decodeS] at h
  split at h
  case h_1 hop => exact accepted_of_decodeInt hw hop h
  case h_12 =>
    split at h
    · exact accepted_of_decodeMem hw h
    · exact accepted_of_decodeSys hw h
  all_goals simp only [orIllegal_eq_some, beq_iff_eq, Option.some.injEq] at h
  case h_8 | h_10 => -- every bit is a field
    subst h
    refine .ofS rfl rfl ?_
    simp only [toNat_fieldOf, numOf] at *
    omega
  case h_11 hop => -- `JR`
    obtain ⟨hz, rfl⟩ := h
    refine .ofS rfl rfl ?_
    simp only [encR, toNat_fieldOf, numOf] at *
    simp
    omega
  all_goals -- an immediate
    obtain ⟨hz, rfl⟩ := h
    refine .ofS rfl rfl ?_
    simp only [toNat_fieldOf, numOf] at *
    omega

/-! ### Double words, V-words and M-words -/

theorem encExt_of_fields {x : Nat} (hx : x < 2 ^ 32) (h : numOf x 26 6 = 63) : encExt (decodeExt x) = x := by
  simp only [encExt, decodeExt, toNat_fieldOf, b2n_flagOf, numOf] at *
  omega

theorem encSX_of_fields {w op func : Nat} (hw : w < 2 ^ 64) (hop : numOf w 26 6 = op) (hf : numOf w 5 6 = func)
    (h63 : numOf w 58 6 = 63) : encSX op func (decodeSXWord w) = w := by
  have hext : encExt (decodeExt (w / 2 ^ 32)) = w / 2 ^ 32 := by
    refine encExt_of_fields (by omega) ?_
    simp only [numOf] at h63 ⊢
    omega
  simp only [encSX, decodeSXWord, hext, encR, toNat_fieldOf, numOf] at *
  omega

/-- Every double word that decodes (R43). -/
theorem accepted_of_decodeSX {w : Nat} {i : Instr} (hw : w < 2 ^ 64) (h : decodeSX w = some i) : Accepted 64 w i := by
  simp only [decodeSX] at h
  split at h
  case h_1 => cases h
  case h_2 j hj =>
    simp only [orIllegal_eq_some, Bool.and_eq_true, beq_iff_eq] at h
    obtain ⟨⟨h63, hwf⟩, rfl⟩ := h
    refine ⟨hwf, ?_⟩
    split at hj
    case h_19 => cases hj
    all_goals
      rename_i hop hf
      cases hj
      exact congrArg (fun v => some (64, v)) (encSX_of_fields hw hop hf h63)

theorem encV_of_fields {w : Nat} (hw : w < 2 ^ 96) : encV (numOf w 88 8) (decodeVWord w) = w := by
  conv =>
    rhs
    rw [← numOf_all hw, numOf_split w 0 5 91, numOf_split w 5 1 90, numOf_split w 6 3 87, numOf_split w 9 3 84,
      numOf_split w 12 3 81, numOf_split w 15 1 80, numOf_split w 16 1 79, numOf_split w 17 1 78, numOf_split w 18 22 56,
      numOf_split w 40 22 34, numOf_split w 62 22 12, numOf_split w 84 4 8]
  simp only [encV, decodeVWord, toNat_fieldOf, b2n_flagOf, Nat.reduceAdd]
  omega

/-- The instruction of a V-word has the encoding with that word's opcode and fields. -/
theorem encode_of_vInstr {opc : Nat} {v : VWord} {i : Instr} (h : vInstr opc v = some i) :
    encode i = some (96, encV opc v) := by
  unfold vInstr at h
  split at h
  case h_3 | h_16 | h_32 | h_33 | h_44 | h_45 | h_46 => -- several rows of one opcode, by FX
    split at h <;> cases h <;> rfl
  all_goals cases h <;> rfl

/-- Every V-word that decodes (R49 to R54). -/
theorem accepted_of_decodeV {w : Nat} {i : Instr} (hw : w < 2 ^ 96) (h : decodeV w = some i) : Accepted 96 w i := by
  rw [decodeV, Nat.mod_eq_of_lt hw] at h
  split at h
  case isTrue h0 =>
    cases h
    exact ⟨rfl, by rw [h0]; rfl⟩
  case isFalse =>
    split at h
    case h_1 => cases h
    case h_2 j hj =>
      obtain ⟨hwf, rfl⟩ := orIllegal_eq_some.mp h
      exact ⟨hwf, by rw [encode_of_vInstr hj, encV_of_fields hw]⟩

theorem encMW_of_fields {w mop : Nat} (hw : w < 2 ^ 192) (hop : numOf w 184 8 = mop) (h78 : numOf w 78 1 = 0)
    (h64 : numOf w 64 5 = 0) (h0 : numOf w 0 35 = 0) : encMW mop (decodeMWord w) = w := by
  conv =>
    rhs
    rw [← numOf_all hw, numOf_split w 0 35 157, numOf_split w 35 3 154, numOf_split w 38 1 153,
      numOf_split w 39 1 152, numOf_split w 40 24 128, numOf_split w 64 5 123, numOf_split w 69 1 122, numOf_split w 70 8 114,
      numOf_split w 78 1 113, numOf_split w 79 1 112, numOf_split w 80 48 64, numOf_split w 128 48 16, numOf_split w 176 4 12,
      numOf_split w 180 4 8]
  simp only [encMW, decodeMWord, toNat_fieldOf, b2n_flagOf, Nat.reduceAdd, hop, h78, h64, h0]
  omega

/-- Every M-word that decodes (R55 to R57). -/
theorem accepted_of_decodeM {w : Nat} {i : Instr} (hw : w < 2 ^ 192) (h : decodeM w = some i) : Accepted 192 w i := by
  simp only [decodeM] at h
  split at h
  case h_1 => cases h
  case h_2 j hj =>
    simp only [orIllegal_eq_some, Bool.and_eq_true, beq_iff_eq] at h
    obtain ⟨⟨⟨⟨h78, h64⟩, h0⟩, hwf⟩, rfl⟩ := h
    refine ⟨hwf, ?_⟩
    split at hj
    case h_9 => cases hj
    all_goals
      rename_i hop
      cases hj
      exact congrArg (fun v => some (192, v)) (encMW_of_fields hw hop h78 h64 h0)

/-- Settles O59: every branch of the four decoders fixes the opcode, the function code and the reserved fields, and a word is
the sum of its fields. -/
theorem everyDecodedWordIsItsEncoding : Obligations.EveryDecodedWordIsItsEncoding := by
  refine ⟨fun w i hw hx h => ?_, fun w i hw hx h => ?_, fun w i => accepted_of_decodeV, fun w i => accepted_of_decodeM⟩
  · rw [decodeFetch, hx, Nat.mod_eq_of_lt hw] at h
    exact accepted_of_decodeS hw h
  · rw [decodeFetch, hx] at h
    exact accepted_of_decodeSX hw h

end Sys2Proof.Machine

/-!
## Every step keeps the invariant (O60)

`State.Inv` speaks of five fields: the two memories, the counter, the reference time and the acting bank. They are the
state's `Vitals`. Nearly every operation of the model leaves all five as they are, and says so in one lemma: `X_vitals`
for an operation that returns a state (alone, in a pair, or in one of the model's result types, whose state has `vitals`
of its own), `X_keeps` for one that returns an outcome. Each proof opens its own operation once and cites the lemmas of
the operations that it calls; what is left is congruence along the branches. The operations that write a memory, and
those that call one, keep the vitals `Sound`, which is what the invariant asks: `X_sound` and `X_safe`. Only
`State.advance`, the beacon and the choice of the acting bank touch the other three fields.
-/

namespace Sys2Proof.Machine

/-- The fields that the invariant speaks of. -/
structure Vitals where
  mem : List Host.Cell
  hostMem : List Host.Cell
  counter : Nat
  reftime : Nat
  cur : Nat

def State.vitals (s : State) : Vitals := ⟨s.mem, s.hostMem, s.counter, s.reftime, s.cur⟩

/-- The outcome's next state, if it has one, has the vitals `v`. -/
def Keeps (v : Vitals) (o : Out) : Prop := ∀ t, o = .next t → t.vitals = v

theorem Keeps.next {v : Vitals} {t : State} (h : t.vitals = v) : Keeps v (.next t) := by
  rintro _ ⟨⟩
  exact h

theorem Keeps.fault {v : Vitals} {f : Fault} : Keeps v (.fault f) := nofun

/-! ### The vitals of the state that a result carries

A result that may carry no state takes the vitals `v` to answer with in that case. -/

def Use.vitals {α : Type} (v : Vitals) : Use α → Vitals
  | .wait t => t.vitals
  | _ => v

def Egress.vitals (v : Vitals) : Egress → Vitals
  | .ok t | .wait t => t.vitals
  | .capped => v

def Leave.vitals : Leave → Vitals
  | .all t | .wait t _ | .capped t _ => t.vitals

def Record.vitals : Record → Vitals
  | .got _ _ t | .notYet t => t.vitals

def Fetched.vitals : Fetched → Vitals
  | .trap _ t | .wait t | .word _ t => t.vitals

def FetchedInsn.vitals : FetchedInsn → Vitals
  | .trap _ t | .wait t | .word _ t => t.vitals

def Found.vitals : Found → Vitals
  | .got _ _ t | .notYet t => t.vitals

def Turned.vitals : Turned → Vitals
  | .performed t | .sent t | .waits t => t.vitals

def Admission.vitals (v : Vitals) : Admission → Vitals
  | .accepted t _ | .refused t _ => t.vitals
  | .later => v

def Pulled.vitals : Pulled → Vitals
  | .wait t | .done _ t => t.vitals

def Taken.vitals (v : Vitals) : Taken → Vitals
  | .behind t => t.vitals
  | _ => v

def Served.vitals : Served → Vitals
  | .done t | .waits t | .refused t => t.vitals

def Pinning.vitals : Pinning → Vitals
  | .ok _ t | .fault _ t | .wait _ t => t.vitals

def Point.vitals : Point → Vitals
  | .row _ _ _ t | .skip t | .wait t => t.s.vitals
  | .fault _ t => t.vitals

def Unit3.vitals : Unit3 → Vitals
  | .rows _ _ t | .wait t => t.s.vitals
  | .fault _ t => t.vitals

def Accept.vitals (v : Vitals) : Accept → Vitals
  | .done t _ | .wait t | .fault _ (some t) => t.vitals
  | .fault _ none => v

def Paid.vitals : Paid → Vitals
  | .all t | .wait t _ | .capped t _ _ => t.vitals

/-- Of a read of rows on which a toll is paid. -/
def tollVitals : Except Toll (Carried × Toll) → Vitals
  | .error t => t.s.vitals
  | .ok p => p.2.s.vitals

/-- Of a result with a state in its failure and in its success. -/
def bothVitals {α β : Type} : Except (α × State) (β × State) → Vitals
  | .error p => p.2.vitals
  | .ok p => p.2.vitals

/-- Of a result with a state in its failure alone. -/
def errVitals {α : Type} (v : Vitals) : Except State α → Vitals
  | .error t => t.vitals
  | .ok _ => v

/-- Of a result with a state in its success alone. -/
def okVitals {α β : Type} (v : Vitals) : Except α (β × State) → Vitals
  | .error _ => v
  | .ok p => p.2.vitals

/-- Of an optional result, whose state `f` finds. -/
def optVitals {α : Type} (f : α → State) (v : Vitals) : Option α → Vitals
  | none => v
  | some a => (f a).vitals

/-- What each step of a fold leaves as it is, the fold leaves as it is. -/
theorem vitals_foldl_of {α β : Type} (m : β → Vitals) {f : β → α → β} (h : ∀ b a, m (f b a) = m b) (l : List α)
    (b : β) : m (l.foldl f b) = m b := by
  induction l generalizing b with
  | nil => rfl
  | cons a l ih => rw [List.foldl_cons, ih, h]

theorem vitals_foldl {α : Type} {f : State → α → State} (h : ∀ s a, (f s a).vitals = s.vitals) (l : List α)
    (s : State) : (l.foldl f s).vitals = s.vitals :=
  vitals_foldl_of State.vitals h l s

theorem appending_foldl {α : Type} {f : Appending → α → Appending} (h : ∀ g a, (f g a).s.vitals = g.s.vitals)
    (l : List α) (g : Appending) : (l.foldl f g).s.vitals = g.s.vitals :=
  vitals_foldl_of (fun g : Appending => g.s.vitals) h l g

/-! ### Of the state's operations (`Machine/Ops`) -/

theorem State.setBank_vitals (s : State) (b : Nat) (k : Bank) : (s.setBank b k).vitals = s.vitals := rfl

theorem State.modBank_vitals (s : State) (b : Nat) (f : Bank → Bank) : (s.modBank b f).vitals = s.vitals :=
  State.setBank_vitals ..

theorem State.modCore_vitals (s : State) (c : Nat) (f : Core → Core) : (s.modCore c f).vitals = s.vitals :=
  rfl

theorem State.modDie_vitals (s : State) (d : Nat) (f : Die → Die) : (s.modDie d f).vitals = s.vitals := rfl

theorem State.modCluster_vitals (s : State) (c : Nat) (f : Cluster → Cluster) :
    (s.modCluster c f).vitals = s.vitals := rfl

theorem State.setDir_vitals (s : State) (line : Nat) (d : Dir) : (s.setDir line d).vitals = s.vitals := rfl

theorem State.modMe_vitals (s : State) (f : Bank → Bank) : (s.modMe f).vitals = s.vitals :=
  State.modBank_vitals ..

theorem State.owe_vitals (s : State) (i : Instr) : (s.owe i).vitals = s.vitals := by
  unfold State.owe
  grind [State.vitals]

theorem State.tickFree_vitals (s : State) : s.tickFree.vitals = s.vitals := rfl

theorem State.setReg_vitals (s : State) (r : BitVec 5) (v : Word) : (s.setReg r v).vitals = s.vitals :=
  State.modMe_vitals ..

theorem finish_keeps (s : State) : Keeps s.vitals (finish s) := by
  unfold finish
  grind [State.modMe_vitals, Keeps]

theorem finish8_keeps (s : State) : Keeps s.vitals (finish8 s) := by
  unfold finish8
  grind [State.modMe_vitals, Keeps]

theorem stall_keeps (s : State) : Keeps s.vitals (stall s) := by
  unfold stall
  grind [Keeps]

theorem State.setCell_vitals (s : State) (key : Nat) (c : RowCell) : (s.setCell key c).vitals = s.vitals :=
  rfl

theorem State.writeCell_vitals (s : State) (key part : Nat) (data : Row) (poison : Bool) (rtag : BitVec 24) :
    (s.writeCell key part data poison rtag).vitals = s.vitals := State.setCell_vitals ..

theorem State.moveCell_vitals (s : State) (key part : Nat) (data : Row) (poison : Bool) (rtag : BitVec 24)
    (chk : BitVec 32) (tent : Nat) :
    (s.moveCell key part data poison rtag chk tent).vitals = s.vitals := State.setCell_vitals ..

theorem State.maskCell_vitals (s : State) (key part : Nat) (data : Row) (mask : Nat → Bool) (poison : Bool) :
    (s.maskCell key part data mask poison).vitals = s.vitals := State.setCell_vitals ..

theorem State.takeTrap_vitals (s : State) (b : Nat) (t : Trap) : (s.takeTrap b t).vitals = s.vitals := by
  unfold State.takeTrap
  grind [State.owe_vitals, State.setBank_vitals, State.tickFree_vitals]

theorem trapNow_keeps (s : State) (t : Trap) : Keeps s.vitals (trapNow s t) := by
  unfold trapNow
  grind [State.takeTrap_vitals, Keeps]

theorem privilegedThen_keeps (s : State) (f : State → Out) (h : Keeps s.vitals (f s)) :
    Keeps s.vitals (privilegedThen s f) := by
  unfold privilegedThen
  grind [trapNow_keeps, Keeps]

theorem State.raise_vitals (s : State) (b : Nat) (t : Trap) : (s.raise b t).vitals = s.vitals := by
  unfold State.raise
  grind [State.modBank_vitals, State.owe_vitals]

theorem State.setRowMeta_vitals (s : State) (r : Nat) (m : RowMeta) : (s.setRowMeta r m).vitals = s.vitals :=
  rfl

theorem State.spoil_vitals (s : State) (pa key : Nat) : (s.spoil pa key).vitals = s.vitals := by
  unfold State.spoil
  grind [State.setRowMeta_vitals]

theorem State.walked_vitals (s : State) (die part va : Nat) : (s.walked die part va).vitals = s.vitals := by
  unfold State.walked
  grind [vitals_foldl, State.spoil_vitals]

theorem State.logEvent_vitals (s : State) (ty die part key : Nat) (detail : BitVec 256) :
    (s.logEvent ty die part key detail).vitals = s.vitals := State.owe_vitals ..

theorem State.noteWalk_vitals (s : State) (die : Nat) (x : Xlat) : (s.noteWalk die x).vitals = s.vitals := by
  unfold State.noteWalk
  grind [State.logEvent_vitals, State.modDie_vitals]

theorem State.noteSeal_vitals (s : State) (b : Nat) (x : Xlat) : (s.noteSeal b x).vitals = s.vitals := by
  unfold State.noteSeal
  grind [State.modBank_vitals, State.noteWalk_vitals]

theorem State.startWalk_vitals (s : State) (b h : Nat) : (s.startWalk b h).vitals = s.vitals := by
  unfold State.startWalk
  grind [State.modBank_vitals, State.owe_vitals]

theorem State.useHandle_vitals (s : State) (b h off : Nat) (need : BitVec 3) :
    (s.useHandle b h off need).vitals s.vitals = s.vitals := by
  unfold State.useHandle
  grind [State.startWalk_vitals, Use.vitals]

theorem State.inPage_vitals (s : State) (b h off n width : Nat) (need : BitVec 3) :
    (s.inPage b h off n width need).vitals s.vitals = s.vitals := by
  unfold State.inPage
  grind [State.useHandle_vitals, Use.vitals]

theorem State.access_vitals (s : State) (b h off n width : Nat) (need : BitVec 3) :
    (s.access b h off n width need).vitals s.vitals = s.vitals := by
  unfold State.access
  grind [State.inPage_vitals, Use.vitals]

theorem State.askRing_vitals (s : State) (pa limit key part : Nat) (r : BitVec 256) (w : Who) :
    (s.askRing pa limit key part r w).vitals = s.vitals := State.owe_vitals ..

theorem State.fillIcache_vitals (s : State) (core l : Nat) (line : BitVec 512) :
    (s.fillIcache core l line).vitals = s.vitals := by
  unfold State.fillIcache
  grind [State.modCore_vitals, State.tickFree_vitals]

theorem State.fetchLine_vitals (s : State) (b key pa : Nat) : (s.fetchLine b key pa).2.vitals = s.vitals := by
  unfold State.fetchLine
  grind [State.fillIcache_vitals, State.tickFree_vitals]

theorem State.fetch_vitals (s : State) (b : Nat) (at0 : Word) : okVitals s.vitals (s.fetch b at0) = s.vitals := by
  unfold State.fetch
  grind [State.fetchLine_vitals, State.modCore_vitals, State.noteSeal_vitals, okVitals]

theorem State.fetched_vitals (s : State) (b : Nat) (at0 : Word) : (s.fetched b at0).vitals = s.vitals := by
  unfold State.fetched
  grind [State.modCore_vitals, State.noteSeal_vitals, State.spoil_vitals, State.walked_vitals]

/-! ### Of the order of messages (`Machine/Order`) -/

theorem State.serve_vitals (s : State) (agent b part : Nat) (ls : List Leg) :
    (s.serve agent b part ls).2.vitals = s.vitals := by
  unfold State.serve
  grind [State.vitals]

theorem State.countArr_vitals (s : State) (arr : Nat) : (s.countArr arr).vitals = s.vitals := by
  unfold State.countArr
  grind [State.vitals]

theorem State.refuse_vitals (s : State) (src home : Nat) (c : PClass) :
    (s.refuse src home c).vitals = s.vitals := by
  unfold State.refuse
  grind [State.owe_vitals, State.vitals]

theorem State.engShut_vitals (s : State) (b e : Nat) (pas : List Nat) :
    optVitals id s.vitals (s.engShut b e pas) = s.vitals := by
  unfold State.engShut
  extract_lets shut
  split
  · rfl
  · cases pas.find? s.refuses <;> simp [optVitals, State.refuse_vitals]

theorem State.engServe_vitals (s : State) (b e part : Nat) (pas : List Nat) (ls : List Leg) :
    (s.engServe b e part pas ls).2.vitals = s.vitals := by
  unfold State.engServe
  grind [State.engShut_vitals, State.serve_vitals, optVitals]

/-! ### Of egress limits (`Machine/Egress`) -/

theorem State.setKeySlot_vitals (s : State) (d k : Nat) (x : KeySlot) : (s.setKeySlot d k x).vitals = s.vitals :=
  State.modDie_vitals ..

theorem State.draw_vitals (s : State) (port d k : Nat) : (s.draw port d k).vitals s.vitals = s.vitals := by
  unfold State.draw
  grind [State.logEvent_vitals, State.setKeySlot_vitals, Egress.vitals]

theorem State.egress_vitals (s : State) (port : Option Nat) (tag : BitVec 24) :
    (s.egress port tag).vitals s.vitals = s.vitals := by
  unfold State.egress
  grind [State.draw_vitals, State.setKeySlot_vitals, Egress.vitals]

theorem State.leaveAll_vitals (s : State) (port : Option Nat) (l1 : List (BitVec 24)) (n2 : Nat) :
    (s.leaveAll port l1 n2).vitals = s.vitals := by
  fun_induction s.leaveAll port l1 n2 <;> grind [State.egress_vitals, Egress.vitals, Leave.vitals]

theorem State.pullEgress_vitals (s : State) (core pa : Nat) :
    (s.pullEgress core pa).vitals s.vitals = s.vitals := State.egress_vitals ..

theorem execEgressCreditRequest_keeps (port die key : Nat) (s : State) :
    Keeps s.vitals (execEgressCreditRequest port die key s) := by
  unfold execEgressCreditRequest
  grind [State.draw_vitals, Egress.vitals, Keeps]

theorem execMeterCreditAgeOut_keeps (die key : Nat) (s : State) :
    Keeps s.vitals (execMeterCreditAgeOut die key s) := by
  unfold execMeterCreditAgeOut
  grind [vitals_foldl, State.draw_vitals, Egress.vitals, Keeps]

/-! ### Of cache lines and instruction fetch (`Machine/Lines`) -/

theorem State.send_vitals (s : State) (m : Msg) : (s.send m).vitals = s.vitals := by
  unfold State.send
  grind [State.owe_vitals, State.vitals]

theorem State.setLine_vitals (s : State) (c l : Nat) (x : CLine) : (s.setLine c l x).vitals = s.vitals :=
  State.modCore_vitals ..

theorem State.request_vitals (s : State) (b l : Nat) (st : CState) (kind : MKind) (ev : Bool) :
    (s.request b l st kind ev).vitals = s.vitals := by
  unfold State.request
  grind [State.send_vitals, State.setLine_vitals]

theorem State.askLines_vitals (s : State) (b : Nat) (ev : Bool) (a : List Nat) :
    (s.askLines b ev a).vitals = s.vitals := by
  fun_induction s.askLines b ev a <;> grind [State.request_vitals]

theorem State.touch_vitals (s : State) (c l : Nat) : (s.touch c l).vitals = s.vitals :=
  State.setLine_vitals ..

theorem State.readThrough_vitals (s : State) (b : Nat) (a : Acc) (n : Nat) :
    (s.readThrough b a n).vitals = s.vitals := by
  unfold State.readThrough
  grind [vitals_foldl, State.askLines_vitals, State.pullEgress_vitals, State.serve_vitals, State.spoil_vitals,
    State.touch_vitals, Egress.vitals, Record.vitals]

theorem State.sendG_vitals (s : State) (g : GReq) : (s.sendG g).vitals = s.vitals := State.owe_vitals ..

theorem State.sendWin_vitals (s : State) (w : WinWrite) : (s.sendWin w).vitals = s.vitals :=
  State.owe_vitals ..

theorem State.fetchServed_vitals (s : State) (b : Nat) (at0 : Word) :
    (s.fetchServed b at0).2.vitals = s.vitals := State.serve_vitals ..

theorem State.fetchWord_vitals (s : State) (b : Nat) (at0 : Word) : (s.fetchWord b at0).vitals = s.vitals := by
  unfold State.fetchWord
  extract_lets take
  have ht : ∀ t, t.vitals = s.vitals → (take t).vitals = s.vitals := by
    grind [State.fetch_vitals, okVitals, State.fetched_vitals, Fetched.vitals]
  grind [State.fetchServed_vitals, okVitals, State.pullEgress_vitals, State.fetched_vitals,
    Fetched.vitals, Egress.vitals]

/-! ### Of control flow and privilege (`Machine/Control`) -/

theorem noSlot_keeps (s : State) (f : State → Out) (h : Keeps s.vitals (f s)) : Keeps s.vitals (noSlot s f) := by
  unfold noSlot
  grind [trapNow_keeps, Keeps]

theorem State.prepareLaunch_vitals (s : State) (h : BitVec 4) (off : BitVec 12) :
    errVitals s.vitals (s.prepareLaunch h off) = s.vitals := by
  unfold State.prepareLaunch
  grind [State.access_vitals, State.readThrough_vitals, Record.vitals, Use.vitals, errVitals]

theorem State.slotReady_vitals (s : State) (pc : Word) : errVitals s.vitals (s.slotReady pc) = s.vitals := by
  unfold State.slotReady
  grind [State.fetchWord_vitals, State.prepareLaunch_vitals, State.startWalk_vitals, Fetched.vitals, errVitals]

theorem State.slotWait_vitals (s : State) (pc : Word) : optVitals id s.vitals (s.slotWait pc) = s.vitals := by
  unfold State.slotWait
  grind [State.slotReady_vitals, errVitals, optVitals]

theorem branch_keeps (s : State) (taken : Bool) (target : Word) (link : Option (BitVec 5)) :
    Keeps s.vitals (branch s taken target link) := by
  unfold branch
  grind [State.modMe_vitals, State.slotWait_vitals, stall_keeps, Keeps, optVitals]

theorem execB_keeps (a b : BitVec 5) (cc : BitVec 3) (off : BitVec 13) (s : State) :
    Keeps s.vitals (execB a b cc off s) := by
  unfold execB
  grind [branch_keeps, noSlot_keeps, Keeps]

theorem execJ_keeps (off : BitVec 21) (s : State) : Keeps s.vitals (execJ off s) := by
  unfold execJ
  grind [branch_keeps, noSlot_keeps, Keeps]

theorem execJal_keeps (d : BitVec 5) (off : BitVec 21) (s : State) : Keeps s.vitals (execJal d off s) := by
  unfold execJal
  grind [branch_keeps, noSlot_keeps, Keeps]

theorem execJr_keeps (d a : BitVec 5) (s : State) : Keeps s.vitals (execJr d a s) := by
  unfold execJr
  grind [branch_keeps, noSlot_keeps, trapNow_keeps, Keeps]

/-! ### Of handles and accesses (`Machine/Handles`) -/

theorem withAccess_keeps (s : State) (h off n width : Nat) (need : BitVec 3) (f : Acc → Out)
    (hf : ∀ a, Keeps s.vitals (f a)) :
    Keeps s.vitals (withAccess s h off n width need f) := by
  unfold withAccess
  grind [State.access_vitals, stall_keeps, trapNow_keeps, Keeps, Use.vitals]

theorem withRecord_keeps (s : State) (h off n width : Nat) (f : State → List Byte → Out)
    (hf : ∀ t xs, t.vitals = s.vitals → Keeps s.vitals (f t xs)) :
    Keeps s.vitals (withRecord s h off n width f) := by
  unfold withRecord
  grind [State.readThrough_vitals, stall_keeps, trapNow_keeps, withAccess_keeps, Keeps, Record.vitals]

theorem execXlate_keeps (a : BitVec 5) (h : BitVec 4) (intent : BitVec 3) (s : State) :
    Keeps s.vitals (execXlate a h intent s) := by
  unfold execXlate
  grind [State.modMe_vitals, State.owe_vitals, finish_keeps, trapNow_keeps, Keeps]

theorem execHdrop_keeps (h : BitVec 4) (s : State) : Keeps s.vitals (execHdrop h s) := by
  unfold execHdrop
  grind [State.modMe_vitals, finish_keeps, Keeps]

theorem execHinfo_keeps (d : BitVec 5) (h : BitVec 4) (k : BitVec 5) (s : State) :
    Keeps s.vitals (execHinfo d h k s) := by
  unfold execHinfo
  grind [State.setReg_vitals, State.startWalk_vitals, finish_keeps, stall_keeps, Keeps]

theorem execPageWalkComplete_keeps (b h : Nat) (s : State) : Keeps s.vitals (execPageWalkComplete b h s) := by
  unfold execPageWalkComplete
  grind [State.modBank_vitals, State.modCore_vitals, State.noteSeal_vitals, State.owe_vitals, State.serve_vitals,
    State.walked_vitals, Keeps]

/-! ### Of engine commands (`Machine/Engine`) -/

theorem State.oweEngine_vitals (s : State) (b e : Nat) : (s.oweEngine b e).vitals = s.vitals := by
  unfold State.oweEngine
  grind [State.owe_vitals]

theorem queueFor_keeps (s : State) (e len : Nat) (op : CmdOp) (ext : Ext) :
    Keeps s.vitals (queueFor s e len op ext) := by
  unfold queueFor
  grind [State.modMe_vitals, State.oweEngine_vitals, stall_keeps, Keeps]

theorem execLnset_keeps (lv : BitVec 3) (bsrc : BitVec 2) (sel : BitVec 5) (s : State) :
    Keeps s.vitals (execLnset lv bsrc sel s) := by
  unfold execLnset
  grind [queueFor_keeps, trapNow_keeps, Keeps]

theorem execAdset_keeps (n : BitVec 5) (h : BitVec 4) (off : BitVec 12) (s : State) :
    Keeps s.vitals (execAdset n h off s) := by
  unfold execAdset
  grind [queueFor_keeps, trapNow_keeps, withRecord_keeps, Keeps]

theorem execLayout_keeps (k : BitVec 5) (h : BitVec 4) (off : BitVec 12) (s : State) :
    Keeps s.vitals (execLayout k h off s) := by
  unfold execLayout
  grind [queueFor_keeps, trapNow_keeps, withRecord_keeps, Keeps]

theorem execMblk_keeps (h : BitVec 4) (off : BitVec 12) (s : State) : Keeps s.vitals (execMblk h off s) := by
  unfold execMblk
  grind [queueFor_keeps, trapNow_keeps, withRecord_keeps, Keeps]

theorem engineCommand_keeps (s : State) (e : Nat) (ext : Ext) (bad : Option Trap) (op : CmdOp) :
    Keeps s.vitals (engineCommand s e ext bad op) := by
  unfold engineCommand
  grind [noSlot_keeps, queueFor_keeps, trapNow_keeps, Keeps]

theorem execRun_keeps (x : SXWord) (s : State) : Keeps s.vitals (execRun x s) := engineCommand_keeps _ _ _ _ _

theorem execTokp_keeps (x : SXWord) (s : State) : Keeps s.vitals (execTokp x s) := by
  unfold execTokp
  grind [State.modMe_vitals, finish8_keeps, noSlot_keeps, stall_keeps, trapNow_keeps, Keeps]

/-! ### Of loads, stores and windows (`Machine/Access`) -/

theorem State.lineLeft_vitals (s : State) (c l : Nat) (skip : Option Nat) :
    (s.lineLeft c l skip).vitals = s.vitals := by
  unfold State.lineLeft
  grind [State.modBank_vitals]

theorem State.loadWord_vitals (s : State) (b : Nat) (p : Pend) : (s.loadWord b p).vitals = s.vitals := by
  unfold State.loadWord
  grind [State.modBank_vitals, State.request_vitals, State.sendG_vitals, State.serve_vitals, State.spoil_vitals,
    State.touch_vitals, Found.vitals]

theorem State.loadGo_vitals (s : State) (b a : Nat) : (s.loadGo b a).vitals = s.vitals := by
  fun_induction s.loadGo b a <;> grind [State.loadWord_vitals, State.modBank_vitals, State.owe_vitals,
    State.takeTrap_vitals, Found.vitals]

theorem startLoad_keeps (s : State) (a : Acc) (h : Nat) (d : BitVec 5) (n width : Nat) (signed : Bool) :
    Keeps s.vitals (startLoad s a h d n width signed) := by
  unfold startLoad
  grind [State.loadGo_vitals, State.modMe_vitals, stall_keeps, Keeps]

theorem loadOne_keeps (d : BitVec 5) (h t : BitVec 4) (off : BitVec 12) (s : State) :
    Keeps s.vitals (loadOne d h t off s) := by
  unfold loadOne
  grind [startLoad_keeps, withAccess_keeps, Keeps]

theorem execLdm_keeps (d : BitVec 5) (h : BitVec 4) (n : BitVec 3) (off : BitVec 12) (s : State) :
    Keeps s.vitals (execLdm d h n off s) := by
  unfold execLdm
  grind [startLoad_keeps, trapNow_keeps, withAccess_keeps, Keeps]

theorem execLoadDataReturn_keeps (b : Nat) (s : State) : Keeps s.vitals (execLoadDataReturn b s) := by
  unfold execLoadDataReturn
  grind [State.loadGo_vitals, Keeps]

theorem State.post_vitals (s : State) (b : Nat) (p : Post) : (s.post b p).vitals = s.vitals := by
  unfold State.post
  grind [State.modBank_vitals, State.owe_vitals]

theorem storeOne_keeps (release : Bool) (a : BitVec 5) (h t : BitVec 4) (off : BitVec 12) (s : State) :
    Keeps s.vitals (storeOne release a h t off s) := by
  unfold storeOne
  grind [State.post_vitals, finish_keeps, stall_keeps, withAccess_keeps, Keeps]

theorem State.postWords_vitals (s : State) (x : Acc) (r grp n1 n2 : Nat) :
    (s.postWords x r grp n1 n2).vitals = s.vitals := by
  fun_induction s.postWords x r grp n1 n2 <;> grind [State.post_vitals]

theorem execStm_keeps (a : BitVec 5) (h : BitVec 4) (n : BitVec 3) (off : BitVec 12) (s : State) :
    Keeps s.vitals (execStm a h n off s) := by
  unfold execStm
  grind [State.postWords_vitals, finish_keeps, stall_keeps, trapNow_keeps, withAccess_keeps, Keeps]

theorem State.noteStore_vitals (s : State) (pa key : Nat) : (s.noteStore pa key).vitals = s.vitals :=
  State.setRowMeta_vitals ..

theorem State.putInLine_vitals (s : State) (c : Nat) (p : Post) (st : CState) :
    (s.putInLine c p st).vitals = s.vitals := by
  unfold State.putInLine
  grind [State.noteStore_vitals, State.setLine_vitals, State.setRowMeta_vitals]

theorem State.cleanLine_vitals (s : State) (c l b : Nat) : (s.cleanLine c l b).vitals = s.vitals :=
  State.send_vitals ..

theorem State.storeLine_vitals (s : State) (b : Nat) (p : Post) : (s.storeLine b p).vitals = s.vitals := by
  unfold State.storeLine
  grind [State.cleanLine_vitals, State.lineLeft_vitals, State.putInLine_vitals, State.request_vitals,
    State.send_vitals, Turned.vitals]

theorem State.performed_vitals (s : State) (b i : Nat) (p : Post) : (s.performed b i p).vitals = s.vitals := by
  unfold State.performed
  grind [State.modBank_vitals]

theorem State.ackWin_vitals (s : State) (w : WinWrite) : (s.ackWin w).vitals = s.vitals := by
  unfold State.ackWin
  grind [State.modBank_vitals]

theorem State.takeWin_vitals (s : State) (wake : Bool) (n : Nat) (v : Word) (f : State → State)
    (hf : ∀ t, t.vitals = s.vitals → (f t).vitals = s.vitals) :
    (s.takeWin wake n v f).vitals = s.vitals := by
  unfold State.takeWin
  grind [State.ackWin_vitals, State.owe_vitals, State.vitals]

theorem State.seatAtomic_vitals (s : State) (b pa first : Nat) :
    (s.seatAtomic b pa first).vitals s.vitals = s.vitals := by
  unfold State.seatAtomic
  grind [State.refuse_vitals, State.vitals, Admission.vitals]

theorem State.sendAtomic_vitals (s : State) (a : Acc) (w64 : Bool) (op : Nat) (v expect : Word) :
    (s.sendAtomic a w64 op v expect).vitals = s.vitals := by
  unfold State.sendAtomic
  grind [State.owe_vitals, State.sendG_vitals, State.vitals]

theorem atomicOp_keeps (d : BitVec 5) (h : BitVec 4) (sz : Bool) (off : BitVec 7) (op : Nat) (signed : Bool)
    (v expect : Word) (s : State) :
    Keeps s.vitals (atomicOp d h sz off op signed v expect s) := by
  unfold atomicOp
  grind [State.modMe_vitals, State.post_vitals, State.sendAtomic_vitals, stall_keeps, trapNow_keeps,
    withAccess_keeps, Keeps]

theorem withFence_keeps (s : State) (h : BitVec 4) (f : Handle → Out) (hf : ∀ a, Keeps s.vitals (f a)) :
    Keeps s.vitals (withFence s h f) := by
  unfold withFence
  grind [State.useHandle_vitals, stall_keeps, trapNow_keeps, Keeps, Use.vitals]

theorem execFence_keeps (h : BitVec 4) (s : State) : Keeps s.vitals (execFence h s) := by
  unfold execFence
  grind [State.modMe_vitals, State.tickFree_vitals, finish_keeps, stall_keeps, withFence_keeps, Keeps]

theorem execFenceIfetch_keeps (h : BitVec 4) (s : State) : Keeps s.vitals (execFenceIfetch h s) := by
  unfold execFenceIfetch
  grind [State.modCore_vitals, finish_keeps, withFence_keeps, Keeps]

theorem State.postRows_vitals (s : State) (q key grp n1 n2 n3 : Nat) :
    (s.postRows q key grp n1 n2 n3).vitals = s.vitals := by
  fun_induction s.postRows q key grp n1 n2 n3 <;> grind [State.modMe_vitals, State.owe_vitals]

theorem execLdq_keeps (q : BitVec 5) (h n : BitVec 4) (off : BitVec 12) (s : State) :
    Keeps s.vitals (execLdq q h n off s) := by
  unfold execLdq
  grind [State.modMe_vitals, State.postRows_vitals, finish_keeps, stall_keeps, trapNow_keeps, withAccess_keeps, Keeps]

theorem State.touchRow_vitals (s : State) (c pa : Nat) : (s.touchRow c pa).vitals = s.vitals := by
  unfold State.touchRow
  grind [vitals_foldl, State.touch_vitals]

theorem State.fillLdq_keeps (s : State) (b i : Nat) (r : LdqRow) (x : Row × Bool) (chk : BitVec 32) :
    Keeps s.vitals (s.fillLdq b i r x chk) := by
  unfold State.fillLdq
  grind [State.modBank_vitals, State.owe_vitals, State.touchRow_vitals, Keeps]

theorem execLdqRowArrival_keeps (b i : Nat) (s : State) : Keeps s.vitals (execLdqRowArrival b i s) := by
  unfold execLdqRowArrival
  grind [State.countArr_vitals, State.fillLdq_keeps, State.modBank_vitals, State.owe_vitals, State.pullEgress_vitals,
    State.spoil_vitals, State.vitals, Egress.vitals, Keeps]

/-! ### Of the loop engine (`Machine/Loop`) -/

theorem State.trapBlock_vitals (s : State) (b : Nat) (x : Block) (t : Trap) :
    (s.trapBlock b x t).vitals = s.vitals := by
  unfold State.trapBlock
  grind [State.modBank_vitals, State.raise_vitals]

theorem State.putRow_vitals (s : State) (b key : Nat) (row : Row) (mask : Option (BitVec 256)) (poison : Bool) :
    (s.putRow b key row mask poison).vitals = s.vitals := by
  unfold State.putRow
  grind [State.maskCell_vitals, State.writeCell_vitals]

theorem State.applyWr_vitals (s : State) (b : Nat) (w : Wr) : (s.applyWr b w).vitals = s.vitals := by
  unfold State.applyWr
  grind [State.modBank_vitals, State.putRow_vitals]

theorem State.applyAll_vitals (s : State) (b : Nat) (ws : List Wr) : (s.applyAll b ws).vitals = s.vitals := by
  unfold State.applyAll
  grind [vitals_foldl, State.applyWr_vitals]

theorem State.commitBundle_vitals (s : State) (b : Nat) (x : Block) (ws : List Wr) (m : List ArrOp) :
    (s.commitBundle b x ws m).vitals = s.vitals := by
  unfold State.commitBundle
  grind [State.applyAll_vitals, State.modBank_vitals]

theorem State.issueWords_vitals (s : State) (b : Nat) (x : Block) (v0 v1 : Option VOp) (m : Option MOp) :
    (s.issueWords b x v0 v1 m).vitals = s.vitals := by
  unfold State.issueWords
  grind [State.commitBundle_vitals, State.trapBlock_vitals]

theorem issueV_keeps (s : State) (v : VOp) : Keeps s.vitals (issueV s v) := by
  unfold issueV
  grind [State.issueWords_vitals, State.trapBlock_vitals, Keeps]

/-! ### Of the matrix unit (`Machine/Matrix`) -/

theorem State.putRows_vitals (s : State) (b : Nat) (a : List (Nat × Row × Option (BitVec 256) × Bool)) :
    (s.putRows b a).vitals = s.vitals := by
  fun_induction s.putRows b a <;> grind [State.putRow_vitals]

theorem State.arrayApply_vitals (s : State) (b : Nat) (o : ArrOp) : (s.arrayApply b o).vitals = s.vitals := by
  unfold State.arrayApply
  grind [State.applyAll_vitals, State.modBank_vitals, State.putRows_vitals]

theorem issueM_keeps (s : State) (m : MOp) : Keeps s.vitals (issueM s m) := by
  unfold issueM
  grind [State.issueWords_vitals, State.trapBlock_vitals, Keeps]

/-! ### Of bundles (`Machine/Bundle`) -/

theorem State.takeTurn_vitals (s : State) (b e : Nat) : (s.takeTurn b e).vitals = s.vitals :=
  State.modCore_vitals ..

theorem State.oweBlock_vitals (s : State) (b : Nat) : (s.oweBlock b).vitals = s.vitals := by
  unfold State.oweBlock
  grind [State.owe_vitals]

theorem execBundleIssue_keeps (b : Nat) (s : State) : Keeps s.vitals (execBundleIssue b s) := by
  unfold execBundleIssue
  split
  · exact .fault
  cases hx : (s.bank b).block with
  | none => exact .next rfl
  | some x =>
    cases hd : decodeBundle x.rst.isSome (Assoc.get 0 (s.bank b).ibuf x.idx) with
    | error e => grind [State.owe_vitals, State.trapBlock_vitals, Keeps]
    | ok p => grind [State.owe_vitals, State.trapBlock_vitals, State.issueWords_vitals, State.oweBlock_vitals, Keeps]

theorem State.startBlock_vitals (s : State) (b : Nat) (host : Option Nat) :
    (s.startBlock b host).vitals = s.vitals := by
  unfold State.startBlock
  grind [State.oweBlock_vitals, State.raise_vitals, State.setBank_vitals, State.takeTurn_vitals]

theorem execBlockStart_keeps (b : Nat) (s : State) : Keeps s.vitals (execBlockStart b s) := by
  unfold execBlockStart
  grind [State.owe_vitals, State.setBank_vitals, State.startBlock_vitals, Keeps]

theorem execLoopBoundPop_keeps (b : Nat) (s : State) : Keeps s.vitals (execLoopBoundPop b s) := by
  unfold execLoopBoundPop
  grind [State.owe_vitals, State.oweBlock_vitals, State.setBank_vitals, State.trapBlock_vitals, Keeps]

theorem execMwordComplete_keeps (b : Nat) (s : State) : Keeps s.vitals (execMwordComplete b s) := by
  unfold execMwordComplete
  grind [State.arrayApply_vitals, State.modBank_vitals, State.owe_vitals, State.oweBlock_vitals, Keeps]

theorem execPairedWindowStart_keeps (b : Nat) (s : State) : Keeps s.vitals (execPairedWindowStart b s) := by
  unfold execPairedWindowStart
  grind [State.modBank_vitals, State.owe_vitals, Keeps]

theorem execBlockRetire_keeps (b : Nat) (s : State) : Keeps s.vitals (execBlockRetire b s) := by
  unfold execBlockRetire
  grind [State.owe_vitals, State.oweBlock_vitals, State.setBank_vitals, Keeps]

theorem execBlockMigrate_keeps (b : Nat) (s : State) : Keeps s.vitals (execBlockMigrate b s) := by
  unfold execBlockMigrate
  grind [State.startBlock_vitals, Keeps]

theorem execBlockMigrateReturn_keeps (b : Nat) (s : State) : Keeps s.vitals (execBlockMigrateReturn b s) := by
  unfold execBlockMigrateReturn
  grind [State.modBank_vitals, State.owe_vitals, State.oweBlock_vitals, State.takeTurn_vitals, Keeps]

/-! ### Of queues (`Machine/Queues`) -/

theorem execQpush_keeps (a : BitVec 5) (q : BitVec 4) (s : State) : Keeps s.vitals (execQpush a q s) := by
  unfold execQpush
  grind [State.modMe_vitals, finish_keeps, stall_keeps, trapNow_keeps, Keeps]

theorem execQpop_keeps (d : BitVec 5) (q : BitVec 4) (s : State) : Keeps s.vitals (execQpop d q s) := by
  unfold execQpop
  grind [State.modMe_vitals, State.setReg_vitals, finish_keeps, stall_keeps, trapNow_keeps, Keeps]

theorem execQadvHead_keeps (q n : BitVec 4) (s : State) : Keeps s.vitals (execQadvHead q n s) := by
  unfold execQadvHead
  grind [State.modMe_vitals, finish_keeps, stall_keeps, trapNow_keeps, Keeps]

theorem execQadvTail_keeps (q n : BitVec 4) (s : State) : Keeps s.vitals (execQadvTail q n s) := by
  unfold execQadvTail
  grind [State.modMe_vitals, finish_keeps, stall_keeps, trapNow_keeps, Keeps]

theorem execQlvl_keeps (d : BitVec 5) (q : BitVec 4) (s : State) : Keeps s.vitals (execQlvl d q s) := by
  unfold execQlvl
  grind [State.setReg_vitals, finish_keeps, trapNow_keeps, Keeps]

/-! ### Of waits (`Machine/Wait`) -/

theorem State.askHeaders_vitals (s : State) (b : Nat) (cs : List (BitVec 16)) (a : List Monitor) :
    (s.askHeaders b cs a).vitals = s.vitals := by
  fun_induction s.askHeaders b cs a <;> grind [State.request_vitals]

theorem State.touchHeaders_vitals (s : State) (b : Nat) (cs : List (BitVec 16)) (ms : List Monitor) :
    (s.touchHeaders b cs ms).vitals = s.vitals := by
  unfold State.touchHeaders
  grind [vitals_foldl, State.touch_vitals]

theorem State.waitDone_vitals (s : State) (b d v : Nat) (clear : Bool) :
    (s.waitDone b d v clear).vitals = s.vitals := State.modBank_vitals ..

theorem State.sample_vitals (s : State) (b : Nat) (w : Waiting) :
    optVitals id s.vitals (s.sample b w) = s.vitals := by
  unfold State.sample
  grind [State.waitDone_vitals, optVitals]

theorem State.monitors_keeps (s : State) (cs : List (BitVec 16)) (i : Nat) (acc : List Monitor) (o : Out)
    (h : s.monitors cs i acc = .error o) : Keeps s.vitals o := by
  fun_induction s.monitors cs i acc <;> grind [State.inPage_vitals, stall_keeps, trapNow_keeps, Use.vitals, Keeps]

theorem waitOp_keeps (all : Bool) (d a b : BitVec 5) (n : BitVec 2) (s : State) :
    Keeps s.vitals (waitOp all d a b n s) := by
  refine noSlot_keeps _ _ ?_
  extract_lets cnt sa sb cs
  split
  · exact trapNow_keeps _ _
  split
  · exact stall_keeps _
  split
  next o heq => exact State.monitors_keeps _ _ _ _ _ heq
  next ms heq =>
    grind [State.askHeaders_vitals, State.modMe_vitals, State.sample_vitals, State.touchHeaders_vitals, Keeps,
      optVitals]

theorem State.sampleBank_vitals (s : State) (b : Nat) : (s.sampleBank b).vitals = s.vitals := by
  unfold State.sampleBank
  grind [vitals_foldl, State.askHeaders_vitals, State.modBank_vitals, State.sample_vitals, State.startWalk_vitals,
    State.takeTrap_vitals, optVitals]

theorem State.sampleAll_vitals (s : State) : s.sampleAll.vitals = s.vitals := by
  unfold State.sampleAll
  grind [vitals_foldl, State.sampleBank_vitals]

theorem execWaitConditionMet_keeps (b : Nat) (s : State) : Keeps s.vitals (execWaitConditionMet b s) := by
  unfold execWaitConditionMet
  grind [State.sampleBank_vitals, Keeps]

theorem execWaitTimeout_keeps (b : Nat) (s : State) : Keeps s.vitals (execWaitTimeout b s) := by
  unfold execWaitTimeout
  grind [State.sampleBank_vitals, Keeps]

theorem execSev_keeps (a : BitVec 5) (s : State) : Keeps s.vitals (execSev a s) := by
  unfold execSev
  grind [State.post_vitals, finish_keeps, stall_keeps, trapNow_keeps, Keeps]

theorem State.answer_vitals (s : State) (g : GReq) (v : Nat) (poison : Bool) :
    (s.answer g v poison).vitals = s.vitals := by
  unfold State.answer
  grind [State.modBank_vitals, State.owe_vitals]

theorem State.oweG_vitals (s : State) (i : Nat) : (s.oweG i).vitals = s.vitals := by
  unfold State.oweG
  grind [State.owe_vitals]

theorem State.dropG_vitals (s : State) (i : Nat) : (s.dropG i).vitals = s.vitals := State.oweG_vitals ..

theorem State.setG_vitals (s : State) (i : Nat) (g : GReq) : (s.setG i g).vitals = s.vitals :=
  State.oweG_vitals ..

theorem State.strideG_vitals (s : State) (i : Nat) (g : GReq) : (s.strideG i g).vitals = s.vitals :=
  State.setG_vitals ..

theorem execGlobalSramHomeAccess_keeps (i : Nat) (s : State) : Keeps s.vitals (execGlobalSramHomeAccess i s) := by
  unfold execGlobalSramHomeAccess
  grind [State.answer_vitals, State.dropG_vitals, State.maskCell_vitals, State.modBank_vitals, State.oweG_vitals,
    State.pullEgress_vitals, State.strideG_vitals, Egress.vitals, Keeps]

theorem execYield_keeps (s : State) : Keeps s.vitals (execYield s) := by
  unfold execYield
  grind [State.modMe_vitals, finish_keeps, noSlot_keeps, Keeps]

theorem execTime_keeps (d k : BitVec 5) (s : State) : Keeps s.vitals (execTime d k s) := by
  unfold execTime
  grind [State.setReg_vitals, finish_keeps, Keeps]

theorem execCbarr_keeps (n : BitVec 6) (s : State) : Keeps s.vitals (execCbarr n s) := by
  unfold execCbarr
  grind [State.modMe_vitals, finish_keeps, stall_keeps, Keeps]

theorem execCbset_keeps (a b : BitVec 5) (n : BitVec 6) (s : State) : Keeps s.vitals (execCbset a b n s) := by
  unfold execCbset
  grind [State.modMe_vitals, finish_keeps, trapNow_keeps, Keeps]

theorem execCbadd_keeps (a : BitVec 5) (n : BitVec 6) (s : State) : Keeps s.vitals (execCbadd a n s) := by
  unfold execCbadd
  grind [State.modMe_vitals, finish_keeps, trapNow_keeps, Keeps]

theorem enqueueLaunch_keeps (s : State) (r : BitVec 512) : Keeps s.vitals (enqueueLaunch s r) := by
  unfold enqueueLaunch
  grind [State.modDie_vitals, State.owe_vitals, finish_keeps, Keeps]

theorem execLaunch_keeps (h : BitVec 4) (off : BitVec 12) (s : State) : Keeps s.vitals (execLaunch h off s) := by
  unfold execLaunch
  grind [State.touch_vitals, enqueueLaunch_keeps, stall_keeps, trapNow_keeps, withRecord_keeps, Keeps]

theorem execPhase_keeps (k : BitVec 12) (s : State) : Keeps s.vitals (execPhase k s) := by
  unfold execPhase
  grind [State.modMe_vitals, State.owe_vitals, Keeps]

theorem execRetire_keeps (s : State) : Keeps s.vitals (execRetire s) := by
  unfold execRetire
  grind [State.modMe_vitals, State.owe_vitals, noSlot_keeps, Keeps]

/-! ### Of the system words (`Machine/System`) -/

theorem State.rouse_vitals (s : State) (b : Nat) : (s.rouse b).vitals = s.vitals := by
  unfold State.rouse
  grind [vitals_foldl, State.owe_vitals]

theorem execTrap_keeps (k : BitVec 5) (s : State) : Keeps s.vitals (execTrap k s) := by
  unfold execTrap
  grind [noSlot_keeps, privilegedThen_keeps, trapNow_keeps, Keeps]

theorem execBkpt_keeps (s : State) : Keeps s.vitals (execBkpt s) := by
  unfold execBkpt
  grind [privilegedThen_keeps, trapNow_keeps, Keeps]

theorem execHalt_keeps (s : State) : Keeps s.vitals (execHalt s) := by
  unfold execHalt
  grind [noSlot_keeps, privilegedThen_keeps, trapNow_keeps, Keeps]

theorem execEret_keeps (s : State) : Keeps s.vitals (execEret s) := by
  unfold execEret
  grind [State.modMe_vitals, State.rouse_vitals, noSlot_keeps, privilegedThen_keeps, trapNow_keeps, Keeps]

theorem execSrd_keeps (d : BitVec 5) (n : BitVec 12) (s : State) : Keeps s.vitals (execSrd d n s) := by
  unfold execSrd
  grind [State.setReg_vitals, finish_keeps, privilegedThen_keeps, trapNow_keeps, Keeps]

theorem execSwr_keeps (a : BitVec 5) (n : BitVec 12) (s : State) : Keeps s.vitals (execSwr a n s) := by
  unfold execSwr
  grind [State.modMe_vitals, finish_keeps, privilegedThen_keeps, trapNow_keeps, Keeps]

theorem State.dropKeyReq_vitals (s : State) (b : Nat) : (s.dropKeyReq b).vitals = s.vitals :=
  State.modDie_vitals ..

theorem execAsyncTrapTaken_keeps (b : Nat) (s : State) : Keeps s.vitals (execAsyncTrapTaken b s) := by
  unfold execAsyncTrapTaken
  grind [State.dropKeyReq_vitals, State.owe_vitals, State.setBank_vitals, State.tickFree_vitals, Keeps]

theorem execHandlerEntry_keeps (b : Nat) (s : State) : Keeps s.vitals (execHandlerEntry b s) := by
  unfold execHandlerEntry
  grind [State.modBank_vitals, Keeps]

theorem State.askTrapRing_vitals (s : State) (die : Nat) (r : BitVec 256) (w : Who) :
    (s.askTrapRing die r w).vitals = s.vitals := by
  unfold State.askTrapRing
  grind [State.askRing_vitals]

theorem State.reportStop_vitals (s : State) (b : Nat) (r : SysRegs) (double : Bool) :
    (s.reportStop b r double).vitals = s.vitals := State.askTrapRing_vitals ..

theorem execBankStopDrainEnd_keeps (b : Nat) (s : State) : Keeps s.vitals (execBankStopDrainEnd b s) := by
  unfold execBankStopDrainEnd
  grind [State.owe_vitals, State.reportStop_vitals, State.setBank_vitals, Keeps]

theorem execBctlResume_keeps (b : Nat) (s : State) : Keeps s.vitals (execBctlResume b s) := by
  unfold execBctlResume
  grind [State.modBank_vitals, State.owe_vitals, State.rouse_vitals, Keeps]

theorem execBctlEnterHandler_keeps (b : Nat) (s : State) : Keeps s.vitals (execBctlEnterHandler b s) := by
  unfold execBctlEnterHandler
  grind [State.modBank_vitals, State.owe_vitals, State.rouse_vitals, Keeps]

theorem State.markShot_vitals (s : State) (die : Nat) (r : Revoked) : (s.markShot die r).vitals = s.vitals :=
  rfl

theorem execShoot_keeps (a : BitVec 5) (s : State) : Keeps s.vitals (execShoot a s) := by
  unfold execShoot
  grind [vitals_foldl, State.modMe_vitals, State.owe_vitals, privilegedThen_keeps, trapNow_keeps, Keeps]

theorem State.takeRoot_vitals (s : State) (part die : Nat) : (s.takeRoot part die).vitals = s.vitals :=
  State.modDie_vitals ..

theorem State.takeRoots_vitals (s : State) (arg : Word) : (s.takeRoots arg).vitals = s.vitals := by
  unfold State.takeRoots
  grind [vitals_foldl, State.takeRoot_vitals]

theorem State.startGrace_vitals (s : State) (die : Nat) (arg : Word) :
    (s.startGrace die arg).vitals = s.vitals := rfl

theorem State.takeCxl_vitals (s : State) (shot : Bool) (die e : Nat) :
    (s.takeCxl shot die e).vitals = s.vitals := by
  unfold State.takeCxl
  grind [State.modDie_vitals]

theorem State.takeTables_vitals (s : State) : s.takeTables.vitals = s.vitals := by
  unfold State.takeTables
  grind [vitals_foldl, State.takeCxl_vitals]

theorem execShootComplete_keeps (b : Nat) (s : State) : Keeps s.vitals (execShootComplete b s) := by
  unfold execShootComplete
  grind [State.modBank_vitals, State.startGrace_vitals, State.takeRoots_vitals, State.takeTables_vitals, Keeps]

/-! ### Of launches (`Machine/Launch`) -/

theorem State.vread_vitals (s : State) (held : List Nat) (die part w n1 n2 : Nat) :
    optVitals VRead.s s.vitals (s.vread held die part w n1 n2) = s.vitals := by
  fun_induction s.vread held die part w n1 n2 <;> grind [State.noteWalk_vitals, State.spoil_vitals,
    State.walked_vitals, optVitals]

theorem State.pullRows_vitals (s : State) (die : Nat) (l1 : List Nat) (n2 : Nat) :
    (s.pullRows die l1 n2).2.2.vitals = s.vitals := by
  fun_induction s.pullRows die l1 n2 <;> grind [State.egress_vitals, Egress.vitals]

theorem State.agentPull_vitals (s : State) (agent b part die : Nat) (u : List Leg × List Nat) :
    (s.agentPull agent b part die u).vitals = s.vitals := by
  unfold State.agentPull
  grind [State.pullRows_vitals, State.serve_vitals, State.vitals, Pulled.vitals]

theorem State.launchRecord_vitals (s : State) (r : BitVec 512) (ring : Option Xlat) (part : Nat) (b : Option Nat)
    (tasks status : Nat) :
    (s.launchRecord r ring part b tasks status).vitals = s.vitals := by
  unfold State.launchRecord
  grind [State.askRing_vitals]

theorem State.checkLaunch_vitals (s : State) (held : List Nat) (die part : Nat) (r : BitVec 512) (ringOk : Bool) :
    (s.checkLaunch held die part r ringOk).2.vitals = s.vitals := by
  unfold State.checkLaunch
  grind [State.vread_vitals, optVitals]

theorem State.modBind_vitals (s : State) (die rec' : Nat) (f : Bind → Bind) :
    (s.modBind die rec' f).vitals = s.vitals := State.modDie_vitals ..

theorem State.addTask_vitals (s : State) (fast : Bool) (die : Nat) (t : Task) :
    (s.addTask fast die t).vitals = s.vitals := by
  unfold State.addTask
  grind [State.modBind_vitals, State.modDie_vitals, State.owe_vitals]

theorem State.launch_vitals (s : State) (held : List Nat) (part : Nat) (b : Option Nat) (r : BitVec 512) :
    (s.launch held part b r).vitals = s.vitals := by
  unfold State.launch
  grind [vitals_foldl, State.addTask_vitals, State.checkLaunch_vitals, State.launchRecord_vitals,
    State.noteWalk_vitals, State.walked_vitals, State.vitals]

theorem State.tryLaunch_vitals (s : State) (agent part : Nat) (b : Option Nat) (r : BitVec 512) :
    (s.tryLaunch agent part b r).vitals = s.vitals := by
  unfold State.tryLaunch
  grind [State.agentPull_vitals, State.launch_vitals, Pulled.vitals]

theorem execLaunchProcess_keeps (die : Nat) (s : State) : Keeps s.vitals (execLaunchProcess die s) := by
  unfold execLaunchProcess
  grind [State.modDie_vitals, State.owe_vitals, State.tryLaunch_vitals, State.vitals, Keeps, Pulled.vitals]

theorem State.setHostQueue_vitals (s : State) (q : Nat) (x : HostQ) : (s.setHostQueue q x).vitals = s.vitals :=
  rfl

theorem State.setMSlot_vitals (s : State) (i : Nat) (x : MSlot) : (s.setMSlot i x).vitals = s.vitals := rfl

theorem State.askMapper_vitals (s : State) : s.askMapper.vitals = s.vitals := by
  unfold State.askMapper
  grind [State.owe_vitals]

theorem State.updateQueue_vitals (s : State) (q : Nat) (x : HostQ) : (s.updateQueue q x).vitals = s.vitals := by
  unfold State.updateQueue
  grind [State.askMapper_vitals, State.setHostQueue_vitals]

theorem State.notify_vitals (s : State) (q : Nat) (v : Word) : (s.notify q v).vitals = s.vitals := by
  unfold State.notify
  split
  · rfl
  · exact State.updateQueue_vitals ..

theorem execNotifyRegisterWrite_keeps (q : Nat) (v : Word) (s : State) :
    Keeps s.vitals (execNotifyRegisterWrite q v s) := by
  unfold execNotifyRegisterWrite
  grind [State.notify_vitals, State.sendWin_vitals, State.takeWin_vitals, Keeps]

theorem execMapperQueueMap_keeps (slot : Nat) (s : State) : Keeps s.vitals (execMapperQueueMap slot s) := by
  unfold execMapperQueueMap
  grind [State.askMapper_vitals, State.owe_vitals, State.setMSlot_vitals, Keeps]

theorem State.leaveQueue_vitals (s : State) (slot q : Nat) : (s.leaveQueue slot q).vitals = s.vitals := by
  unfold State.leaveQueue
  grind [State.askMapper_vitals, State.setHostQueue_vitals, State.setMSlot_vitals]

theorem execMapperRecordTake_keeps (slot : Nat) (s : State) : Keeps s.vitals (execMapperRecordTake slot s) := by
  unfold execMapperRecordTake
  grind [State.agentPull_vitals, State.leaveQueue_vitals, State.owe_vitals, State.setHostQueue_vitals,
    State.setMSlot_vitals, State.vread_vitals, State.vitals, Keeps, Pulled.vitals, optVitals]

theorem State.unbind_vitals (s : State) (die rec' : Nat) : (s.unbind die rec').vitals = s.vitals := by
  unfold State.unbind
  grind [State.modBind_vitals, State.modDie_vitals]

theorem State.oweStarts_vitals (s : State) (die : Nat) : (s.oweStarts die).vitals = s.vitals := by
  unfold State.oweStarts
  grind [vitals_foldl, State.owe_vitals]

theorem execBindRecordWrite_keeps (die rec' : Nat) (v : BitVec 256) (s : State) :
    Keeps s.vitals (execBindRecordWrite die rec' v s) := by
  unfold execBindRecordWrite
  grind [State.modBind_vitals, State.modDie_vitals, State.oweStarts_vitals, State.unbind_vitals, Keeps]

theorem State.startCore_vitals (s : State) (rec' : Nat) (l : Launch) (t : Task) (var b : Nat) (range : Nat × Nat) :
    (s.startCore rec' l t var b range).vitals = s.vitals := by
  unfold State.startCore
  grind [State.owe_vitals, State.setBank_vitals, State.tickFree_vitals]

theorem State.freeRecord_vitals (s : State) (die rec' : Nat) : (s.freeRecord die rec').vitals = s.vitals := by
  unfold State.freeRecord
  grind [vitals_foldl, State.modBank_vitals, State.modBind_vitals, State.oweStarts_vitals]

theorem State.taskDone_vitals (s : State) (die rec' : Nat) : (s.taskDone die rec').vitals = s.vitals := by
  unfold State.taskDone
  grind [State.freeRecord_vitals, State.launchRecord_vitals, State.vitals]

theorem execTaskStart_keeps (die rec' : Nat) (s : State) : Keeps s.vitals (execTaskStart die rec' s) := by
  unfold execTaskStart
  grind [vitals_foldl, State.modBind_vitals, State.startCore_vitals, State.taskDone_vitals, Keeps]

theorem State.copyBundles_vitals (s : State) (held : List Nat) (die part va n1 n2 : Nat) (l3 : Bank) :
    (s.copyBundles held die part va n1 n2 l3).2.vitals = s.vitals := by
  fun_induction s.copyBundles held die part va n1 n2 l3 <;> grind [State.tickFree_vitals, State.vread_vitals, optVitals]

theorem execBundleCopyComplete_keeps (b : Nat) (s : State) : Keeps s.vitals (execBundleCopyComplete b s) := by
  unfold execBundleCopyComplete
  grind [State.agentPull_vitals, State.copyBundles_vitals, State.modBank_vitals, State.owe_vitals, Keeps, Pulled.vitals]

theorem execPhaseRendezvous_keeps (die rec' : Nat) (s : State) :
    Keeps s.vitals (execPhaseRendezvous die rec' s) := by
  unfold execPhaseRendezvous
  split
  · exact .fault
  extract_lets x ids ks again sw s1
  have ha : again.vitals = s.vitals := State.owe_vitals ..
  have h1 : s1.vitals = s.vitals := by grind [State.modBind_vitals]
  split
  · exact .next rfl
  split
  case h_2 => exact .next rfl
  split
  · exact .next rfl
  split
  · exact .next (vitals_foldl (fun t b => by rw [State.takeTrap_vitals, State.modBank_vitals]) _ _)
  split
  · exact .next ha
  · exact .next ((vitals_foldl (fun t b => State.modBank_vitals ..) _ _).trans h1)

theorem execRetireComplete_keeps (b : Nat) (s : State) : Keeps s.vitals (execRetireComplete b s) := by
  unfold execRetireComplete
  grind [State.modBank_vitals, State.modBind_vitals, State.owe_vitals, State.taskDone_vitals, Keeps]

theorem execPslotWrite_keeps (die part : Nat) (v : Word) (s : State) :
    Keeps s.vitals (execPslotWrite die part v s) := by
  unfold execPslotWrite
  grind [vitals_foldl, State.logEvent_vitals, State.modDie_vitals, Keeps]

theorem State.accountDie_vitals (s : State) (t die : Nat) : (s.accountDie t die).vitals = s.vitals := rfl

theorem State.frameAt_vitals (s : State) (t die : Nat) : (s.frameAt t die).vitals = s.vitals := by
  unfold State.frameAt
  grind [vitals_foldl, State.accountDie_vitals, State.modDie_vitals]

theorem execFrameBoundary_keeps (die : Nat) (s : State) : Keeps s.vitals (execFrameBoundary die s) := by
  unfold execFrameBoundary
  grind [State.frameAt_vitals, Keeps]

theorem State.frames_vitals (s : State) : s.frames.vitals = s.vitals := by
  unfold State.frames
  grind [vitals_foldl, State.frameAt_vitals]

theorem execServiceUnitStart_keeps (die res part len : Nat) (s : State) :
    Keeps s.vitals (execServiceUnitStart die res part len s) := by
  unfold execServiceUnitStart
  grind [State.modDie_vitals, Keeps]

/-! ### Of coherence (`Machine/Coherence`) -/

theorem State.takeMsg_vitals (s : State) (core line : Nat) (k : MKind) :
    (s.takeMsg core line k).vitals s.vitals = s.vitals := by
  unfold State.takeMsg
  grind [State.vitals, Taken.vitals]

theorem State.oweMsg_vitals (s : State) (core line : Nat) (k : MKind) :
    (s.oweMsg core line k).vitals = s.vitals := by
  unfold State.oweMsg
  grind [State.owe_vitals]

theorem serveNext_meets (core line : Nat) (k : MKind) (s : State) (f : Msg → State → Served) {P : Vitals → Prop}
    (h : P s.vitals) (hf : ∀ m u, u.vitals = s.vitals → P ((f m u).vitals)) :
    ∀ t, serveNext core line k s f = .next t → P t.vitals := by
  intro t ht
  unfold serveNext at ht
  have hm := State.takeMsg_vitals s core line k
  split at ht
  · cases ht
  · split at ht
    next m i _ =>
      have hu : (({ s with net := s.net.eraseIdx i } : State).countArr m.arr).vitals = s.vitals :=
        State.countArr_vitals ..
      have hp := hf { m with arr := s.arrNum m.arr } _ hu
      extract_lets m1 put at ht
      grind [State.oweMsg_vitals, State.vitals, Served.vitals]
    next t' heq => grind [State.oweMsg_vitals, Taken.vitals]
    next => grind

theorem serveMsg_meets (core line : Nat) (k : MKind) (s : State) (f : Msg → State → State) {P : Vitals → Prop}
    (h : P s.vitals) (hf : ∀ m u, u.vitals = s.vitals → P ((f m u).vitals)) :
    ∀ t, serveMsg core line k s f = .next t → P t.vitals := by
  intro t ht
  unfold serveMsg at ht
  have hm := State.takeMsg_vitals s core line k
  split at ht
  · cases ht
  · split at ht
    next m i _ =>
      have hp := hf m { s with net := s.net.eraseIdx i } rfl
      grind [State.oweMsg_vitals]
    next t' heq => grind [State.oweMsg_vitals, Taken.vitals]
    next => grind

theorem State.toCache_vitals (s : State) (core line : Nat) (k : MKind) (data : BitVec 512) (ev : Bool) :
    (s.toCache core line k data ev).vitals = s.vitals := State.send_vitals ..

theorem State.sendData_vitals (s : State) (core line : Nat) (k : MKind) (data : BitVec 512) :
    (s.sendData core line k data).vitals = s.vitals := State.send_vitals ..

theorem State.modDir_vitals (s : State) (l : Nat) (f : Dir → Dir) : (s.modDir l f).vitals = s.vitals :=
  State.setDir_vitals ..

theorem State.recall_vitals (s : State) (l : Nat) (busy : Req) (o : Option Nat) (xs : List Nat) :
    (s.recall l busy o xs).vitals = s.vitals := by
  unfold State.recall
  grind [vitals_foldl, State.modDir_vitals, State.toCache_vitals]

theorem State.serveGetX_vitals (s : State) (r l : Nat) : (s.serveGetX r l).vitals = s.vitals := by
  unfold State.serveGetX
  grind [State.modDir_vitals, State.recall_vitals, State.sendData_vitals]

theorem State.serveRequest_vitals (s : State) (m : Msg) (capped : Bool) :
    (s.serveRequest m capped).vitals = s.vitals := by
  unfold State.serveRequest
  grind [State.modDir_vitals, State.recall_vitals, State.sendData_vitals, State.serveGetX_vitals, State.toCache_vitals]

theorem State.renameLine_vitals (s : State) (core old new : Nat) :
    (s.renameLine core old new).vitals = s.vitals := by
  unfold State.renameLine
  grind [State.modBank_vitals, State.setLine_vitals, State.vitals]

theorem homeRequest_keeps (k : MKind) (core line : Nat) (s : State) :
    Keeps s.vitals (homeRequest k core line s) := by
  refine serveNext_meets (P := (· = s.vitals)) core line k s _ rfl fun m u hu => ?_
  grind [State.pullEgress_vitals, State.refuse_vitals, State.renameLine_vitals, State.send_vitals,
    State.serveRequest_vitals,
    State.vitals, Egress.vitals, Served.vitals]

theorem execRefusal_keeps (src : Nat) (s : State) : Keeps s.vitals (execRefusal src s) := by
  unfold execRefusal
  grind [State.refuse_vitals, Keeps]

theorem State.reask_vitals (s : State) (src : Nat) (c : PClass) : (s.reask src c).vitals = s.vitals := by
  unfold State.reask
  grind [vitals_foldl, State.owe_vitals, State.oweG_vitals, State.oweMsg_vitals]

theorem execReissue_keeps (src : Nat) (s : State) : Keeps s.vitals (execReissue src s) := by
  unfold execReissue
  grind [State.owe_vitals, State.reask_vitals, State.vitals, Keeps]

theorem State.releasePut_vitals (s : State) (l : Nat) : (s.releasePut l).vitals = s.vitals := by
  unfold State.releasePut
  grind [State.modDir_vitals, State.toCache_vitals]

theorem State.finishPut_vitals (s : State) (l : Nat) : (s.finishPut l).vitals = s.vitals := by
  unfold State.finishPut
  grind [State.modDir_vitals, State.releasePut_vitals]

theorem State.completeReq_vitals (s : State) (l : Nat) : (s.completeReq l).vitals = s.vitals := by
  unfold State.completeReq
  grind [State.modDir_vitals, State.releasePut_vitals, State.sendData_vitals, State.toCache_vitals]

theorem State.countReply_vitals (s : State) (l : Nat) : (s.countReply l).vitals = s.vitals := by
  unfold State.countReply
  grind [State.completeReq_vitals, State.modDir_vitals]

theorem State.completeGetS_vitals (s : State) (l : Nat) (data : BitVec 512) (o : Option Nat) (xs : List Nat) :
    (s.completeGetS l data o xs).vitals = s.vitals := by
  unfold State.completeGetS
  grind [vitals_foldl, State.modDir_vitals, State.releasePut_vitals, State.sendData_vitals]

theorem execCohAck_keeps (core line : Nat) (s : State) : Keeps s.vitals (execCohAck core line s) := by
  refine serveMsg_meets (P := (· = s.vitals)) _ _ _ s _ rfl fun m u hu => ?_
  grind [State.countReply_vitals]

theorem execCohDO_keeps (core line : Nat) (s : State) : Keeps s.vitals (execCohDO core line s) := by
  refine serveMsg_meets (P := (· = s.vitals)) _ _ _ s _ rfl fun m u hu => ?_
  grind [State.completeGetS_vitals]

theorem State.ackThrough_vitals (s : State) (core pa n : Nat) (v : Word) :
    (s.ackThrough core pa n v).vitals = s.vitals := by
  unfold State.ackThrough
  grind [State.modBank_vitals]

theorem State.lineCame_vitals (s : State) (core : Nat) : (s.lineCame core).vitals = s.vitals := by
  unfold State.lineCame
  grind [vitals_foldl, State.loadGo_vitals]

theorem State.arrived_vitals (s : State) (m : Msg) (st : CState) : (s.arrived m st).vitals = s.vitals := by
  unfold State.arrived
  grind [State.lineCame_vitals, State.owe_vitals, State.setLine_vitals]

theorem execCohDataS_keeps (core line : Nat) (s : State) : Keeps s.vitals (execCohDataS core line s) := by
  refine serveMsg_meets (P := (· = s.vitals)) _ _ _ s _ rfl fun m u hu => ?_
  grind [State.arrived_vitals]

theorem execCohDataE_keeps (core line : Nat) (s : State) : Keeps s.vitals (execCohDataE core line s) := by
  refine serveMsg_meets (P := (· = s.vitals)) _ _ _ s _ rfl fun m u hu => ?_
  grind [State.arrived_vitals]

theorem State.toHome_vitals (s : State) (b core line : Nat) (k : MKind) (d : BitVec 512) :
    (s.toHome b core line k d).vitals = s.vitals := State.send_vitals ..

theorem State.loseLine_vitals (s : State) (core line : Nat) : (s.loseLine core line).vitals = s.vitals := by
  unfold State.loseLine
  grind [State.lineLeft_vitals, State.setLine_vitals]

theorem State.loseData_vitals (s : State) (core line : Nat) : (s.loseData core line).vitals = s.vitals := by
  unfold State.loseData
  grind [State.lineLeft_vitals, State.setLine_vitals]

theorem execCohFwdS_keeps (core line : Nat) (s : State) : Keeps s.vitals (execCohFwdS core line s) := by
  refine serveMsg_meets (P := (· = s.vitals)) _ _ _ s _ rfl fun m u hu => ?_
  grind [State.setLine_vitals, State.toHome_vitals]

theorem execCohFwdX_keeps (core line : Nat) (s : State) : Keeps s.vitals (execCohFwdX core line s) := by
  refine serveMsg_meets (P := (· = s.vitals)) _ _ _ s _ rfl fun m u hu => ?_
  grind [State.loseData_vitals, State.loseLine_vitals, State.toHome_vitals]

theorem execCohInv_keeps (core line : Nat) (s : State) : Keeps s.vitals (execCohInv core line s) := by
  refine serveMsg_meets (P := (· = s.vitals)) _ _ _ s _ rfl fun m u hu => ?_
  grind [State.loseData_vitals, State.loseLine_vitals, State.toHome_vitals]

theorem execCohPeek_keeps (core line : Nat) (s : State) : Keeps s.vitals (execCohPeek core line s) := by
  refine serveMsg_meets (P := (· = s.vitals)) _ _ _ s _ rfl fun m u hu => ?_
  grind [State.toHome_vitals]

theorem execCohPutAck_keeps (core line : Nat) (s : State) : Keeps s.vitals (execCohPutAck core line s) := by
  refine serveMsg_meets (P := (· = s.vitals)) _ _ _ s _ rfl fun m u hu => ?_
  grind [State.setLine_vitals]

theorem State.evict_vitals (s : State) (b core line : Nat) : (s.evict b core line).vitals = s.vitals := by
  unfold State.evict
  grind [State.setLine_vitals, State.toHome_vitals]

theorem execCacheFill_keeps (core line : Nat) (s : State) : Keeps s.vitals (execCacheFill core line s) := by
  unfold execCacheFill
  grind [State.evict_vitals, State.owe_vitals, State.setLine_vitals, Keeps]

theorem State.claim_vitals (s : State) (b l : Nat) (q : Req) : (s.claim b l q).vitals = s.vitals := by
  unfold State.claim
  grind [State.modDir_vitals, State.recall_vitals]

theorem State.claimAll_vitals (s : State) (b : Nat) (have' a : List Nat) :
    (s.claimAll b have' a).1.vitals = s.vitals := by
  fun_induction s.claimAll b have' a <;> grind [State.claim_vitals]

theorem State.unclaim_vitals (s : State) (ls : List Nat) : (s.unclaim ls).vitals = s.vitals := by
  unfold State.unclaim
  grind [vitals_foldl, State.modDir_vitals, State.releasePut_vitals]

theorem State.reply_vitals (s : State) (w : Who) (x : Reply) : (s.reply w x).vitals = s.vitals := by
  unfold State.reply
  grind [State.vitals]

theorem State.bulkDone_vitals (s : State) (w : Who) : (s.bulkDone w).vitals = s.vitals := by
  unfold State.bulkDone
  grind [State.modBank_vitals, State.owe_vitals]

theorem State.askTent_vitals (s : State) (pa : Nat) (xs : List Byte) (key : Nat) (poison : Bool) (rtag : BitVec 24)
    (w : Who) (tent : Nat) (chk : BitVec 32) :
    (s.askTent pa xs key poison rtag w tent chk).vitals = s.vitals := State.owe_vitals ..

theorem State.bulkTurn_vitals (s : State) (i : Nat) : (s.bulkTurn i).vitals = s.vitals := by
  unfold State.bulkTurn
  grind [State.owe_vitals]

theorem State.atomicReply_vitals (s : State) (r : AReq) (old : Nat) (poison : Bool) :
    (s.atomicReply r old poison).vitals = s.vitals := by
  unfold State.atomicReply
  grind [State.modBank_vitals, State.owe_vitals]

theorem State.atomicSram_vitals (s : State) (r : AReq) (capped : Bool) :
    (s.atomicSram r capped).vitals = s.vitals := by
  unfold State.atomicSram
  grind [State.atomicReply_vitals, State.maskCell_vitals]

theorem State.dropAtomic_vitals (s : State) (i : Nat) : (s.dropAtomic i).vitals = s.vitals := by
  unfold State.dropAtomic
  grind [State.owe_vitals, State.vitals]

theorem State.doAtomic_meets (s : State) (i : Nat) (r : AReq) (f : State → Bool → State) {P : Vitals → Prop}
    (h : P s.vitals) (hf : ∀ u p, u.vitals = s.vitals → P ((f u p).vitals)) :
    P (s.doAtomic i r f).vitals := by
  unfold State.doAtomic
  have he := State.pullEgress_vitals s (bankCore r.b) r.pa
  split
  next t heq =>
    rw [State.dropAtomic_vitals]
    exact hf _ _ (by grind [Egress.vitals])
  next t heq => grind [State.owe_vitals, Egress.vitals]
  next =>
    rw [State.dropAtomic_vitals]
    exact hf _ _ rfl

theorem State.dropRing_vitals (s : State) (i : Nat) : (s.dropRing i).vitals = s.vitals := by
  unfold State.dropRing
  grind [State.owe_vitals, State.vitals]

theorem State.ringDone_vitals (s : State) (i : Nat) (w : Who) : (s.ringDone i w).vitals = s.vitals := by
  unfold State.ringDone
  grind [State.bulkDone_vitals, State.dropRing_vitals]

/-! ### Of keys (`Machine/Keys`) -/

theorem State.flushLog_vitals (s : State) : s.flushLog.vitals = s.vitals := rfl

theorem execAccessLogAppend_keeps (s : State) : Keeps s.vitals (execAccessLogAppend s) := by
  unfold execAccessLogAppend
  grind [State.owe_vitals, State.vitals, Keeps]

theorem execLogreqWrite_keeps (v : Word) (s : State) : Keeps s.vitals (execLogreqWrite v s) := by
  unfold execLogreqWrite
  grind [State.logEvent_vitals, Keeps]

theorem execAttestationRequest_keeps (nonce : BitVec 256) (s : State) :
    Keeps s.vitals (execAttestationRequest nonce s) := by
  unfold execAttestationRequest
  grind [State.vitals, Keeps]

theorem State.askKey_vitals (s : State) (slot : Nat) (drop : Bool) (blob : List Byte) :
    (s.askKey slot drop blob).vitals = s.vitals := by
  unfold State.askKey
  grind [State.modDie_vitals, State.modMe_vitals, State.owe_vitals]

theorem execKeyld_keeps (a : BitVec 5) (h : BitVec 4) (off : BitVec 12) (s : State) :
    Keeps s.vitals (execKeyld a h off s) := by
  unfold execKeyld
  grind [State.askKey_vitals, privilegedThen_keeps, trapNow_keeps, withRecord_keeps, Keeps]

theorem execKeydrop_keeps (a : BitVec 5) (s : State) : Keeps s.vitals (execKeydrop a s) := by
  unfold execKeydrop
  grind [State.askKey_vitals, privilegedThen_keeps, trapNow_keeps, Keeps]

theorem State.keyServed_vitals (s : State) (d : Nat) : (s.keyServed d).vitals = s.vitals := by
  unfold State.keyServed
  grind [State.modDie_vitals, State.owe_vitals]

theorem State.keyDone_vitals (s : State) (b : Nat) : (s.keyDone b).vitals = s.vitals :=
  State.modBank_vitals ..

theorem State.zeroKey_vitals (s : State) (d k : Nat) : (s.zeroKey d k).vitals = s.vitals := by
  unfold State.zeroKey
  grind [vitals_foldl, State.setKeySlot_vitals]

/-! ### Of copies (`Machine/Copy`) -/

theorem State.engWalk_vitals (s : State) (b part : Nat) (va : Int) (intent : BitVec 3) :
    bothVitals (s.engWalk b part va intent) = s.vitals := by
  unfold State.engWalk
  grind [State.noteSeal_vitals, State.walked_vitals, bothVitals]

theorem State.engRead_vitals (s : State) (ps : List (Nat × Nat × Nat)) (held : List Nat) :
    (s.engRead ps held).2.vitals = s.vitals := by
  unfold State.engRead
  grind [vitals_foldl, State.spoil_vitals]

theorem State.engPull_vitals (s : State) (b e part : Nat) (u : List Nat × List Leg) :
    (s.engPull b e part u).vitals = s.vitals := by
  unfold State.engPull
  grind [State.agentPull_vitals, State.engShut_vitals, Pulled.vitals, optVitals]

theorem State.newPacket_vitals (s : State) (w : Who) (sram : Bool) (pa : Nat) (xs : List Byte)
    (into : Option (Nat × Nat × Nat)) :
    (s.newPacket w sram pa xs into).2.vitals = s.vitals := rfl

theorem State.carry_vitals (s : State) (w : Who) (c : Carried) (dst : Nat) (sram : Bool) (pa : Nat) (xs : List Byte)
    (into : Option (Nat × Nat × Nat)) :
    (s.carry w c dst sram pa xs into).2.vitals = s.vitals := by
  unfold State.carry
  grind [State.newPacket_vitals, State.vitals]

theorem withHandles_keeps (s : State) (l1 : List Nat) (l2 : List HCap → Out) (hf : ∀ caps, Keeps s.vitals (l2 caps)) :
    Keeps s.vitals (withHandles s l1 l2) := by
  fun_induction withHandles s l1 l2 <;> grind [State.useHandle_vitals, stall_keeps, trapNow_keeps, Keeps, Use.vitals]

theorem execCpy_keeps (x : SXWord) (s : State) : Keeps s.vitals (execCpy x s) := by
  unfold execCpy
  grind [noSlot_keeps, queueFor_keeps, trapNow_keeps, withHandles_keeps, Keeps]

theorem State.faultCopy_vitals (s : State) (b : Nat) (r : CopyRun) (f : CopyFault) :
    (s.faultCopy b r f).vitals = s.vitals := by
  unfold State.faultCopy
  grind [State.modBank_vitals, State.raise_vitals, State.tickFree_vitals]

theorem State.pinPage_vitals (s : State) (b e part : Nat) (pins : List Pin) (va : Int) (intent : BitVec 3) :
    (s.pinPage b e part pins va intent).vitals = s.vitals := by
  unfold State.pinPage
  grind [State.engServe_vitals, State.engWalk_vitals, Pinning.vitals, bothVitals]

theorem State.pinAll_vitals (s : State) (b e part : Nat) (pins : List Pin) (a : List (Int × Nat × BitVec 3)) :
    (s.pinAll b e part pins a).vitals = s.vitals := by
  fun_induction s.pinAll b e part pins a <;> grind [State.pinPage_vitals, Pinning.vitals]

theorem State.openWindows_vitals (s : State) (b : Nat) (r : CopyRun) : (s.openWindows b r).vitals = s.vitals := by
  unfold State.openWindows
  grind [vitals_foldl, State.modCluster_vitals]

theorem State.oweCopy_vitals (s : State) (b : Nat) (r : CopyRun) : (s.oweCopy b r).vitals = s.vitals := by
  unfold State.oweCopy
  grind [State.owe_vitals]

theorem State.prepareCopy_vitals (s : State) (b : Nat) (r : CopyRun) : (s.prepareCopy b r).vitals = s.vitals := by
  unfold State.prepareCopy
  grind [State.faultCopy_vitals, State.modBank_vitals, State.openWindows_vitals, State.owe_vitals,
    State.oweCopy_vitals, State.pinAll_vitals, Pinning.vitals]

theorem execCopyStart_keeps (b : Nat) (s : State) : Keeps s.vitals (execCopyStart b s) := by
  unfold execCopyStart
  grind [State.owe_vitals, State.prepareCopy_vitals, State.setBank_vitals, State.takeTurn_vitals, Keeps]

theorem State.composedParts_vitals (s : State) (b part : Nat) (intent : BitVec 3) (va : Int) :
    bothVitals (s.composedParts b part intent va) = s.vitals := by
  unfold State.composedParts
  grind [State.engWalk_vitals, bothVitals]

theorem State.sidePlace_vitals (s : State) (b part : Nat) (r : CopyRun) (e : Word) (rec' : BitVec 512)
    (composed : Bool) (intent : BitVec 3) (lx : Nat → Nat) :
    bothVitals (s.sidePlace b part r e rec' composed intent lx) = s.vitals := by
  unfold State.sidePlace
  grind [State.composedParts_vitals, bothVitals]

theorem State.readPlace_vitals (s : State) (part : Nat) (p : Place) : (s.readPlace part p).2.vitals = s.vitals := by
  unfold State.readPlace
  grind [State.engRead_vitals]

theorem State.readIndex_vitals (s : State) (b part : Nat) (r : CopyRun) (lx : Nat → Nat) :
    (s.readIndex b part r lx).2.vitals = s.vitals := by
  unfold State.readIndex
  grind [State.engRead_vitals, State.readPlace_vitals]

theorem Toll.pull_vitals (t : Toll) (b : Nat) (c : Carried) : tollVitals (t.pull b c) = t.s.vitals := by
  unfold Toll.pull
  grind [State.egress_vitals, Egress.vitals, tollVitals]

theorem Toll.move_vitals (t : Toll) (b part : Nat) (r : CopyRun) (lxS lxD : Nat → Nat) :
    (t.move b part r lxS lxD).vitals = t.s.vitals := by
  unfold Toll.move
  grind [State.readPlace_vitals, State.sidePlace_vitals, Toll.pull_vitals, Point.vitals, bothVitals, tollVitals]

theorem Toll.point_vitals (t : Toll) (b part : Nat) (r : CopyRun) (n : Nat) :
    (t.point b part r n).vitals = t.s.vitals := by
  unfold Toll.point
  grind [State.readIndex_vitals, State.sidePlace_vitals, Toll.move_vitals, Toll.pull_vitals, Point.vitals,
    bothVitals, tollVitals]

theorem State.copyEgress_vitals (s : State) (b : Nat) (c : Carried) (p : Place) :
    (s.copyEgress b c p).vitals s.vitals = s.vitals := by
  unfold State.copyEgress
  grind [State.egress_vitals, Egress.vitals]

theorem State.setCopy_vitals (s : State) (b : Nat) (r : CopyRun) : (s.setCopy b r).vitals = s.vitals :=
  State.modBank_vitals ..

theorem State.landCell_vitals (s : State) (w : Who) (part key : Nat) (c : Carried) :
    (s.landCell w part key c).vitals = s.vitals := by
  unfold State.landCell
  grind [State.carry_vitals, State.moveCell_vitals]

theorem Toll.points_vitals (t : Toll) (b part : Nat) (r : CopyRun) (cs : List (Option Carried)) (out n1 n2 : Nat) :
    (t.points b part r cs out n1 n2).vitals = t.s.vitals := by
  fun_induction t.points b part r cs out n1 n2 <;> grind [Toll.point_vitals, Point.vitals, Unit3.vitals]

theorem State.markUnit_vitals (s : State) (b u : Nat) (cs : List (Option Carried)) :
    (s.markUnit b u cs).vitals = s.vitals := by
  unfold State.markUnit
  grind [vitals_foldl, State.carry_vitals, State.modBank_vitals]

theorem State.copyUnit_vitals (s : State) (b : Nat) (r : CopyRun) : (s.copyUnit b r).vitals = s.vitals := by
  unfold State.copyUnit
  grind [State.engServe_vitals, State.faultCopy_vitals, State.markUnit_vitals, State.modBank_vitals,
    State.owe_vitals, State.setCopy_vitals, Toll.points_vitals, Unit3.vitals]

theorem State.finishCopy_vitals (s : State) (b : Nat) (r : CopyRun) : (s.finishCopy b r).vitals = s.vitals := by
  unfold State.finishCopy
  grind [State.askRing_vitals, State.modBank_vitals, State.owe_vitals, State.setCopy_vitals]

theorem State.closeWindows_vitals (s : State) (b : Nat) (r : CopyRun) : (s.closeWindows b r).vitals = s.vitals := by
  unfold State.closeWindows
  grind [vitals_foldl, State.modCluster_vitals]

theorem execMulticastRowLand_keeps (b : Nat) (s : State) : Keeps s.vitals (execMulticastRowLand b s) := by
  unfold execMulticastRowLand
  grind [vitals_foldl, State.closeWindows_vitals, State.engServe_vitals, State.faultCopy_vitals,
    State.landCell_vitals, State.owe_vitals, State.setCopy_vitals, Toll.point_vitals, Keeps, Point.vitals]

/-! ### Of transforms (`Machine/Transform`) -/

theorem execXform_keeps (x : SXWord) (s : State) : Keeps s.vitals (execXform x s) := by
  unfold execXform
  grind [State.modCluster_vitals, State.owe_vitals, finish8_keeps, noSlot_keeps, stall_keeps, trapNow_keeps, Keeps]

theorem execTransformStart_keeps (cl eng part : Nat) (s : State) :
    Keeps s.vitals (execTransformStart cl eng part s) := by
  unfold execTransformStart
  grind [State.modCluster_vitals, State.owe_vitals, Keeps]

theorem State.xfWrite_vitals (s0 : State) (x : Xform) (out : List XRow) :
    (s0.xfWrite x out).vitals = s0.vitals := by
  unfold State.xfWrite
  grind [vitals_foldl, State.writeCell_vitals]

/-! ### Of the sheaf store (`Machine/SheafStore`) -/

theorem State.setSheaf_vitals (s : State) (id : Nat) (x : Option Sheaf) : (s.setSheaf id x).vitals = s.vitals :=
  rfl

theorem State.dropTab_vitals (s : State) (gone : Nat × Nat × Nat → Bool) : (s.dropTab gone).vitals = s.vitals :=
  rfl

theorem State.modSheaf_vitals (s : State) (id : Nat) (f : Sheaf → Sheaf) : (s.modSheaf id f).vitals = s.vitals :=
  State.setSheaf_vitals ..

theorem State.setSeq_vitals (s : State) (h : Nat) (q : Option Seq) : (s.setSeq h q).vitals = s.vitals := rfl

theorem State.dropNamed_vitals (s : State) (id : Nat) : (s.dropNamed id).vitals = s.vitals :=
  State.dropTab_vitals ..

theorem State.fillTab_vitals (s : State) (c h l : Nat) (is : List Nat) :
    (s.fillTab c h l is).vitals = s.vitals := State.modCore_vitals ..

theorem execSlabRelocationStep_keeps (seq layer : Nat) (s : State) :
    Keeps s.vitals (execSlabRelocationStep seq layer s) := by
  unfold execSlabRelocationStep
  grind [vitals_foldl, State.owe_vitals, State.setSeq_vitals, Keeps]

theorem State.demote_vitals (s : State) (id : Nat) (x : Sheaf) (t lender : Nat) :
    (s.demote id x t lender).vitals = s.vitals := by
  unfold State.demote
  grind [State.dropNamed_vitals, State.owe_vitals, State.setSheaf_vitals]

theorem execSheafAgeThreshold_keeps (id : Nat) (s : State) : Keeps s.vitals (execSheafAgeThreshold id s) := by
  unfold execSheafAgeThreshold
  grind [State.demote_vitals, Keeps]

theorem State.promote_vitals (s : State) (id : Nat) : (s.promote id).vitals = s.vitals := by
  unfold State.promote
  grind [State.dropNamed_vitals, State.owe_vitals, State.setSheaf_vitals]

theorem execSheafMoveComplete_keeps (id : Nat) (s : State) : Keeps s.vitals (execSheafMoveComplete id s) := by
  unfold execSheafMoveComplete
  grind [State.dropNamed_vitals, State.leaveAll_vitals, State.owe_vitals, State.promote_vitals,
    State.setSheaf_vitals, State.tickFree_vitals, Keeps, Leave.vitals]

theorem State.dropRef_vitals (s : State) (id : Nat) : (s.dropRef id).vitals = s.vitals := by
  unfold State.dropRef
  grind [State.dropNamed_vitals, State.setSheaf_vitals]

theorem State.hold_vitals (s : State) (id : Nat) : (s.hold id).vitals = s.vitals := State.modSheaf_vitals ..

theorem State.unhold_vitals (s : State) (id n : Nat) : (s.unhold id n).vitals = s.vitals := by
  unfold State.unhold
  grind [State.setSheaf_vitals]

theorem State.unholdAll_vitals (s : State) (held : List (Nat × Nat × Sheaf)) :
    (s.unholdAll held).vitals = s.vitals := by
  unfold State.unholdAll
  grind [vitals_foldl, State.unhold_vitals]

theorem State.lendServe_vitals (s : State) (lender borrower : Nat) :
    (s.lendServe lender borrower).2.vitals = s.vitals := State.serve_vitals ..

theorem execLendGrant_keeps (lender borrower frames : Nat) (s : State) :
    Keeps s.vitals (execLendGrant lender borrower frames s) := by
  unfold execLendGrant
  grind [State.lendServe_vitals, State.vitals, Keeps]

theorem State.recallSheaf_vitals (s : State) (id : Nat) (x : Sheaf) : (s.recallSheaf id x).vitals = s.vitals := by
  unfold State.recallSheaf
  grind [State.dropNamed_vitals, State.owe_vitals, State.setSheaf_vitals]

theorem State.endGrant_vitals (s : State) (lender borrower : Nat) :
    (s.endGrant lender borrower).vitals = s.vitals := rfl

theorem execLendRecall_keeps (lender borrower : Nat) (s : State) :
    Keeps s.vitals (execLendRecall lender borrower s) := by
  unfold execLendRecall
  grind [vitals_foldl, State.endGrant_vitals, State.lendServe_vitals, State.recallSheaf_vitals,
    State.setSheaf_vitals, Keeps]

theorem State.wake_vitals (s : State) (h : Nat) (q : Seq) (v : Word) : (s.wake h q v).1.vitals = s.vitals := by
  unfold State.wake
  grind [State.owe_vitals, State.setSeq_vitals]

theorem execWakeWrite_keeps (seq : Nat) (v : Word) (s : State) : Keeps s.vitals (execWakeWrite seq v s) := by
  unfold execWakeWrite
  grind [State.takeWin_vitals, State.wake_vitals, Keeps]

theorem execWakeStage1End_keeps (seq : Nat) (s : State) : Keeps s.vitals (execWakeStage1End seq s) := by
  unfold execWakeStage1End
  grind [vitals_foldl, State.modDie_vitals, State.owe_vitals, State.promote_vitals, State.setSeq_vitals,
    State.tickFree_vitals, Keeps]

theorem execWakeStage2End_keeps (seq : Nat) (s : State) : Keeps s.vitals (execWakeStage2End seq s) := by
  unfold execWakeStage2End
  grind [State.owe_vitals, State.promote_vitals, State.setSeq_vitals, Keeps]

/-! ### Of the walker (`Machine/Walker`) -/

theorem referCommand_keeps (s : State) (e : Nat) (x : SXWord) (op : EngOp) (ok : Bool) (range : Option Trap)
    (refs : List Word) :
    Keeps s.vitals (referCommand s e x op ok range refs) := by
  unfold referCommand
  grind [noSlot_keeps, queueFor_keeps, trapNow_keeps, withHandles_keeps, Keeps]

theorem execAttns_keeps (x : SXWord) (s : State) : Keeps s.vitals (execAttns x s) :=
  referCommand_keeps _ _ _ _ _ _ _

theorem execSqopen_keeps (x : SXWord) (s : State) : Keeps s.vitals (execSqopen x s) := by
  unfold execSqopen
  grind [referCommand_keeps, Keeps]

theorem execSqapp_keeps (x : SXWord) (s : State) : Keeps s.vitals (execSqapp x s) :=
  referCommand_keeps _ _ _ _ _ _ _

theorem execSqfork_keeps (x : SXWord) (s : State) : Keeps s.vitals (execSqfork x s) := by
  unfold execSqfork
  grind [referCommand_keeps, Keeps]

theorem execSqtrunc_keeps (x : SXWord) (s : State) : Keeps s.vitals (execSqtrunc x s) :=
  referCommand_keeps _ _ _ _ _ _ _

theorem execSqpark_keeps (x : SXWord) (s : State) : Keeps s.vitals (execSqpark x s) := by
  unfold execSqpark
  grind [referCommand_keeps, Keeps]

theorem execSqwake_keeps (x : SXWord) (s : State) : Keeps s.vitals (execSqwake x s) :=
  referCommand_keeps _ _ _ _ _ _ _

theorem execSqclose_keeps (x : SXWord) (s : State) : Keeps s.vitals (execSqclose x s) :=
  referCommand_keeps _ _ _ _ _ _ _

theorem execSqinfo_keeps (x : SXWord) (s : State) : Keeps s.vitals (execSqinfo x s) := by
  unfold execSqinfo
  grind [referCommand_keeps, Keeps]

theorem State.issueEng_vitals (s : State) (b e : Nat) :
    optVitals Prod.fst s.vitals (s.issueEng b e) = s.vitals := by
  unfold State.issueEng
  grind [State.setBank_vitals, State.takeTurn_vitals, optVitals]

theorem State.putEng_vitals (s : State) (b e : Nat) (r : EngRun) : (s.putEng b e r).vitals = s.vitals :=
  State.modBank_vitals ..

theorem State.failEng_vitals (s : State) (b e : Nat) (r : EngRun) (f : CopyFault) :
    (s.failEng b e r f).vitals = s.vitals := by
  unfold State.failEng
  grind [State.putEng_vitals, State.raise_vitals, State.tickFree_vitals]

theorem State.retireEng_vitals (s : State) (b e : Nat) (r : EngRun) :
    optVitals id s.vitals (s.retireEng b e r) = s.vitals := by
  unfold State.retireEng
  grind [State.modBank_vitals, State.oweEngine_vitals, State.unholdAll_vitals, optVitals]

theorem State.heldBack_vitals (s : State) (b e : Nat) (r : EngRun) : (s.heldBack b e r).vitals = s.vitals := by
  unfold State.heldBack
  grind [State.putEng_vitals]

theorem State.pinSpan_vitals (s : State) (b e part : Nat) (intent : BitVec 3) (whole : Bool) (stop : Int) (n1 : Nat)
    (l2 : List Pin) (l3 : Int) :
    (s.pinSpan b e part intent whole stop n1 l2 l3).vitals = s.vitals := by
  fun_induction s.pinSpan b e part intent whole stop n1 l2 l3 <;> grind [State.pinPage_vitals, Pinning.vitals]

theorem State.pinRefs_vitals (s : State) (b e part : Nat) (r : EngRun) (pins : List Pin)
    (a : List (Word × Nat × Nat × BitVec 3)) :
    (s.pinRefs b e part r pins a).vitals = s.vitals := by
  fun_induction s.pinRefs b e part r pins a <;> grind [State.pinSpan_vitals, Pinning.vitals]

theorem State.readPinned_vitals (s : State) (pins : List Pin) (va : Int) (n : Nat) (held : List Nat) :
    (s.readPinned pins va n held).2.vitals = s.vitals := State.engRead_vitals ..

theorem State.readRows_vitals (s : State) (pins : List Pin) (va : Int) (n : Nat) (held : List Nat) :
    (s.readRows pins va n held).2.vitals = s.vitals :=
  vitals_foldl_of (fun p : List Carried × State => p.2.vitals) (fun _ _ => State.readPinned_vitals _ _ _ _ held) _ _

theorem withSeq_vitals (s : State) (b h : Nat) (f : Seq → Accept) (hf : ∀ q, (f q).vitals s.vitals = s.vitals) :
    (withSeq s b h f).vitals s.vitals = s.vitals := by
  unfold withSeq
  grind [State.vitals, Accept.vitals, seqFault]

theorem State.queueAt_vitals (s : State) (h b : Nat) (q : Seq) : (s.queueAt h b q).vitals = s.vitals := by
  unfold State.queueAt
  grind [State.setSeq_vitals]

theorem State.leaveSeqs_vitals (s : State) (b : Nat) : (s.leaveSeqs b).vitals = s.vitals := rfl

theorem State.changed_vitals (s : State) (h b : Nat) (q : Seq) : (s.changed h b q).vitals = s.vitals := by
  unfold State.changed
  grind [State.dropTab_vitals, State.setSeq_vitals]

theorem changing_vitals (s : State) (b h : Nat) (stops : List Nat) (f : Seq → Accept)
    (hf : ∀ q, (f q).vitals s.vitals = s.vitals) :
    (changing s b h stops f).vitals s.vitals = s.vitals := by
  unfold changing
  grind [State.queueAt_vitals, withSeq_vitals, Accept.vitals, seqFault]

theorem State.takeIndex_vitals (s : State) (die : Nat) :
    optVitals Prod.snd s.vitals (s.takeIndex die) = s.vitals := by
  unfold State.takeIndex
  grind [State.modDie_vitals, optVitals]

theorem State.sqopen_vitals (s : State) (b : Nat) (r : EngRun) : (s.sqopen b r).vitals s.vitals = s.vitals := by
  unfold State.sqopen
  grind [vitals_foldl, State.setSeq_vitals, State.takeIndex_vitals, State.tickFree_vitals, Accept.vitals, optVitals,
    seqFault]

theorem State.sqinfo_vitals (s : State) (b : Nat) (r : EngRun) : (s.sqinfo b r).vitals s.vitals = s.vitals := by
  unfold State.sqinfo
  grind [withSeq_vitals, Accept.vitals, seqFault]

theorem State.cutLayer_vitals (p : State × Seq) (len l : Nat) : (State.cutLayer p len l).1.vitals = p.1.vitals := by
  unfold State.cutLayer
  grind [vitals_foldl, State.dropRef_vitals]

theorem State.cut_vitals (s : State) (q : Seq) (len : Nat) : (s.cut q len).1.vitals = s.vitals :=
  vitals_foldl_of (fun p : State × Seq => p.1.vitals) (fun _ _ => State.cutLayer_vitals ..) _ _

theorem State.sqtrunc_vitals (s : State) (b : Nat) (r : EngRun) : (s.sqtrunc b r).vitals s.vitals = s.vitals := by
  unfold State.sqtrunc
  grind [State.changed_vitals, State.cut_vitals, changing_vitals, Accept.vitals]

theorem State.sqclose_vitals (s : State) (b : Nat) (r : EngRun) : (s.sqclose b r).vitals s.vitals = s.vitals := by
  unfold State.sqclose
  grind [State.cut_vitals, State.dropRef_vitals, State.dropTab_vitals, State.modDie_vitals, State.setSeq_vitals,
    changing_vitals, Accept.vitals]

theorem State.sqfork_vitals (s : State) (b : Nat) (r : EngRun) : (s.sqfork b r).vitals s.vitals = s.vitals := by
  unfold State.sqfork
  grind [vitals_foldl, State.changed_vitals, State.modSheaf_vitals, State.setSeq_vitals, State.takeIndex_vitals,
    State.tickFree_vitals, changing_vitals, Accept.vitals, optVitals, seqFault]

theorem State.sqpark_vitals (s : State) (b : Nat) (r : EngRun) : (s.sqpark b r).vitals s.vitals = s.vitals := by
  unfold State.sqpark
  grind [vitals_foldl, State.changed_vitals, State.dropRef_vitals, State.modSheaf_vitals, State.readPinned_vitals,
    State.setSheaf_vitals, State.tickFree_vitals, changing_vitals, State.vitals, Accept.vitals]

theorem State.sqwake_vitals (s : State) (b : Nat) (r : EngRun) : (s.sqwake b r).vitals s.vitals = s.vitals := by
  unfold State.sqwake
  grind [State.changed_vitals, State.queueAt_vitals, State.setSeq_vitals, State.wake_vitals, withSeq_vitals,
    Accept.vitals]

theorem Appending.add_vitals (g : Appending) (i : Nat) (z : Sheaf) : (g.add i z).s.vitals = g.s.vitals := by
  unfold Appending.add
  grind [State.setSheaf_vitals, State.tickFree_vitals, State.vitals]

theorem Appending.sheaf_vitals (s0 : State) (b part : Nat) (r : EngRun) (q : Seq) (l p n : Nat) (g : Appending)
    (i : Nat) :
    (Appending.sheaf s0 b part r q l p n g i).s.vitals = g.s.vitals := by
  unfold Appending.sheaf
  grind [Appending.add_vitals, State.dropRef_vitals, State.setSheaf_vitals]

theorem State.append_vitals (s : State) (b : Nat) (r : EngRun) (q : Seq) (places : List (Nat × Nat)) :
    (s.append b r q places).vitals s.vitals = s.vitals := by
  unfold State.append
  grind [appending_foldl, Appending.sheaf_vitals, State.changed_vitals, State.owe_vitals, State.promote_vitals,
    State.queueAt_vitals, State.setSeq_vitals, Accept.vitals, seqFault]

theorem State.sqapp_vitals (s : State) (b : Nat) (r : EngRun) : (s.sqapp b r).vitals s.vitals = s.vitals := by
  unfold State.sqapp
  refine withSeq_vitals _ _ _ _ fun q0 => ?_
  extract_lets tags
  split
  · rfl
  have hl := State.leaveAll_vitals s (s.pullPort (bankDie b) (seqDie (seqHandle r.d))) (tags.drop r.qout) r.qout
  cases hc : s.leaveAll (s.pullPort (bankDie b) (seqDie (seqHandle r.d))) (tags.drop r.qout) r.qout with
  | capped s1 k | wait s1 k => grind [State.putEng_vitals, Accept.vitals, Leave.vitals]
  | all s1 =>
    dsimp only
    have hs : (s1.putEng b engWK { r with qout := tags.length }).vitals = s.vitals := by
      grind [State.putEng_vitals, Leave.vitals]
    rw [← hs]
    refine changing_vitals _ _ _ _ _ fun q => ?_
    grind [State.putEng_vitals, State.append_vitals, State.vitals, Accept.vitals, seqFault]

theorem State.snapshot_vitals (s : State) (b h : Nat) (q : Seq) (l lo n : Nat) (r : EngRun) :
    (s.snapshot b h q l lo n r).1.vitals = s.vitals := by
  unfold State.snapshot
  grind [vitals_foldl, State.fillTab_vitals, State.hold_vitals]

theorem State.applyWalker_vitals (s : State) (b : Nat) (r : EngRun) :
    (s.applyWalker b r).vitals s.vitals = s.vitals := by
  unfold State.applyWalker
  grind [State.sqapp_vitals, State.sqclose_vitals, State.sqfork_vitals, State.sqinfo_vitals, State.sqopen_vitals,
    State.sqpark_vitals, State.sqtrunc_vitals, State.sqwake_vitals, Accept.vitals]

theorem State.askHome_vitals (s : State) (b e home : Nat) (u : List Nat × List Leg) :
    (s.askHome b e home u).vitals = s.vitals := State.engPull_vitals ..

theorem State.streamStep_vitals (s : State) (b : Nat) (r : EngRun) : (s.streamStep b r).vitals = s.vitals := by
  unfold State.streamStep
  grind [vitals_foldl, State.engServe_vitals, State.failEng_vitals, State.landCell_vitals, State.leaveAll_vitals,
    State.owe_vitals, State.putEng_vitals, State.tickFree_vitals, Leave.vitals]

theorem execWalkerRetire_keeps (b : Nat) (s : State) : Keeps s.vitals (execWalkerRetire b s) := by
  unfold execWalkerRetire
  grind [State.heldBack_vitals, State.owe_vitals, State.retireEng_vitals, State.streamStep_vitals, Keeps, optVitals]

/-! ### Of the gleaner (`Machine/Gleaner`) -/

theorem execAttnd_keeps (x : SXWord) (s : State) : Keeps s.vitals (execAttnd x s) := by
  unfold execAttnd
  grind [referCommand_keeps, Keeps]

theorem execRdx_keeps (x : SXWord) (s : State) : Keeps s.vitals (execRdx x s) := by
  unfold execRdx
  grind [referCommand_keeps, Keeps]

theorem State.oweGl_vitals (s : State) (b : Nat) (r : EngRun) : (s.oweGl b r).vitals = s.vitals :=
  State.owe_vitals ..

theorem State.waitGl_vitals (s : State) (b : Nat) (r : EngRun) (pins : List Pin) :
    (s.waitGl b r pins).vitals = s.vitals := by
  unfold State.waitGl
  grind [State.owe_vitals, State.putEng_vitals]

theorem State.bagOffsets_vitals (s : State) (pins : List Pin) (r : EngRun) (held : List Nat) :
    (s.bagOffsets pins r held).2.vitals = s.vitals :=
  vitals_foldl_of (fun p : List Carried × State => p.2.vitals) (fun _ _ => State.readPinned_vitals _ _ _ _ held) _ _

theorem State.pinRdx_vitals (s : State) (b : Nat) (r : EngRun) : (s.pinRdx b r).vitals = s.vitals := by
  unfold State.pinRdx
  grind [State.bagOffsets_vitals, State.engPull_vitals, State.pinRefs_vitals, Pinning.vitals, Pulled.vitals]

theorem State.acceptRdx_vitals (s : State) (b : Nat) (r : EngRun) : (s.acceptRdx b r).vitals = s.vitals := by
  unfold State.acceptRdx
  grind [State.failEng_vitals, State.owe_vitals, State.pinRdx_vitals, State.putEng_vitals, State.waitGl_vitals,
    Pinning.vitals]

theorem State.repin_vitals (s : State) (b : Nat) (r : EngRun) : (s.repin b r).vitals = s.vitals := by
  unfold State.repin
  grind [State.pinRdx_vitals, State.pinRefs_vitals, Pinning.vitals]

theorem State.stage_vitals (s : State) (die g : Nat) (x : Sheaf) : (s.stage die g x).vitals = s.vitals := rfl

theorem State.raiseGl_vitals (s : State) (b : Nat) (r : EngRun) (f : Nat × Nat × Nat × Option Int) :
    (s.raiseGl b r f).vitals = s.vitals := State.failEng_vitals ..

theorem State.readWalked_vitals (s : State) (b : Nat) (caps : List HCap) (v : Word) (va : Int) (n : Nat) :
    bothVitals (s.readWalked b caps v va n) = s.vitals := by
  unfold State.readWalked
  split
  · rfl
  · refine vitals_foldl_of bothVitals (fun acc p => ?_) _ _
    grind [bothVitals, State.engWalk_vitals, State.engRead_vitals]

theorem State.bagSpoil_vitals (s : State) (r : EngRun) : (s.bagSpoil r).vitals = s.vitals := by
  unfold State.bagSpoil
  grind [vitals_foldl, State.spoil_vitals]

/-! ### Of collectives (`Machine/Collective`) -/

theorem execColl_keeps (x : SXWord) (s : State) : Keeps s.vitals (execColl x s) := by
  unfold execColl
  grind [referCommand_keeps, Keeps]

theorem execRing_keeps (x : SXWord) (s : State) : Keeps s.vitals (execRing x s) := by
  unfold execRing
  grind [referCommand_keeps, Keeps]

theorem execPlough_keeps (x : SXWord) (s : State) : Keeps s.vitals (execPlough x s) := by
  unfold execPlough
  grind [referCommand_keeps, Keeps]

theorem State.payTolls_vitals (s : State) (l1 : List (Nat × Nat × BitVec 24)) (n2 : Nat) :
    (s.payTolls l1 n2).vitals = s.vitals := by
  fun_induction s.payTolls l1 n2 <;> grind [State.egress_vitals, Egress.vitals, Paid.vitals]

theorem State.setInst_vitals (s : State) (j : Nat) (i : Inst) : (s.setInst j i).vitals = s.vitals := rfl

theorem State.mergeOwner_vitals (s : State) (j : Nat) (i : Inst) (owner b : Nat) (r : EngRun) :
    (s.mergeOwner j i owner b r).vitals = s.vitals := by
  unfold State.mergeOwner
  grind [State.owe_vitals, State.putEng_vitals, State.setInst_vitals]

theorem State.oweArrival_vitals (s : State) (i : Inst) (p k : Nat) : (s.oweArrival i p k).vitals = s.vitals := by
  unfold State.oweArrival
  grind [State.owe_vitals]

theorem State.ringArrive_vitals (s : State) (j : Nat) (i : Inst) (owner k : Nat) (shardRun : Nat × EngRun)
    (ownerRun : Option (Nat × EngRun)) :
    (s.ringArrive j i owner k shardRun ownerRun).vitals = s.vitals := by
  unfold State.ringArrive
  grind [State.mergeOwner_vitals, State.modBank_vitals, State.owe_vitals, State.putEng_vitals, State.setInst_vitals,
    State.tickFree_vitals]

theorem execRingTripleArrival_keeps (gid nth owner shard : Nat) (s : State) :
    Keeps s.vitals (execRingTripleArrival gid nth owner shard s) := by
  unfold execRingTripleArrival
  extract_lets runs open'
  split
  · exact .next rfl
  split
  · exact .next rfl
  next i _ =>
  cases memberAt i.grp runs shard with
  | none => exact .next rfl
  | some m =>
  cases memberAt i.grp runs owner with
  | none => grind [State.owe_vitals, State.ringArrive_vitals, Keeps]
  | some o =>
    have hl := State.leaveAll_vitals s
    grind [State.failEng_vitals, State.owe_vitals, State.putEng_vitals, State.ringArrive_vitals, State.serve_vitals,
      Keeps,
      Leave.vitals]

theorem execRingFinalTimeout_keeps (gid nth owner : Nat) (s : State) :
    Keeps s.vitals (execRingFinalTimeout gid nth owner s) := by
  unfold execRingFinalTimeout
  grind [vitals_foldl, State.mergeOwner_vitals, State.owe_vitals, Keeps]

theorem State.spoilParts_vitals (s : State) (ps : List (Nat × Nat × Nat)) :
    (s.spoilParts ps).vitals = s.vitals := by
  unfold State.spoilParts
  grind [vitals_foldl, State.spoil_vitals]

theorem execPloughCountExchange_keeps (gid nth : Nat) (s : State) :
    Keeps s.vitals (execPloughCountExchange gid nth s) := by
  unfold execPloughCountExchange
  grind [vitals_foldl, State.owe_vitals, State.putEng_vitals, State.serve_vitals, State.spoilParts_vitals, Keeps]

theorem State.joined_vitals (s : State) (b : Nat) (r : EngRun) : (s.joined b r).vitals = s.vitals := by
  unfold State.joined
  grind [State.owe_vitals, State.putEng_vitals]

theorem State.waitColl_vitals (s : State) (b : Nat) (r : EngRun) (pins : List Pin) :
    (s.waitColl b r pins).vitals = s.vitals := by
  unfold State.waitColl
  grind [State.owe_vitals, State.putEng_vitals]

theorem State.acceptColl_vitals (s : State) (b : Nat) (r : EngRun) : (s.acceptColl b r).vitals = s.vitals := by
  unfold State.acceptColl
  grind [State.failEng_vitals, State.joined_vitals, State.pinRefs_vitals, State.waitColl_vitals, Pinning.vitals]

theorem State.acceptShard_vitals (s : State) (b : Nat) (r : EngRun) : (s.acceptShard b r).vitals = s.vitals := by
  unfold State.acceptShard
  grind [State.engPull_vitals, State.failEng_vitals, State.joined_vitals, State.pinRefs_vitals,
    State.readRows_vitals, State.snapshot_vitals, State.waitColl_vitals, Pinning.vitals, Pulled.vitals]

theorem State.acceptRing_vitals (s : State) (b : Nat) (r : EngRun) : (s.acceptRing b r).vitals = s.vitals := by
  unfold State.acceptRing
  grind [State.acceptShard_vitals, State.askHome_vitals, State.failEng_vitals, State.pinRefs_vitals,
    State.readPinned_vitals, State.waitColl_vitals, Pinning.vitals, Pulled.vitals]

theorem State.acceptFields_vitals (s : State) (b : Nat) (r : EngRun) : (s.acceptFields b r).vitals = s.vitals := by
  unfold State.acceptFields
  grind [State.engPull_vitals, State.failEng_vitals, State.joined_vitals, State.pinRefs_vitals,
    State.waitColl_vitals, Pinning.vitals, Pulled.vitals]

theorem State.acceptPlough_vitals (s : State) (b : Nat) (r : EngRun) : (s.acceptPlough b r).vitals = s.vitals := by
  unfold State.acceptPlough
  grind [State.acceptFields_vitals, State.engPull_vitals, State.failEng_vitals, State.pinRefs_vitals,
    State.readPinned_vitals, State.waitColl_vitals, Pinning.vitals, Pulled.vitals]

theorem State.acceptCollective_vitals (s : State) (b : Nat) (r : EngRun) :
    (s.acceptCollective b r).vitals = s.vitals := by
  unfold State.acceptCollective
  grind [State.acceptColl_vitals, State.acceptPlough_vitals, State.acceptRing_vitals, State.failEng_vitals]

theorem State.issueCollective_vitals (s : State) (b : Nat) :
    optVitals Prod.fst s.vitals (s.issueCollective b) = s.vitals := by
  unfold State.issueCollective
  grind [State.issueEng_vitals, State.modDie_vitals, State.putEng_vitals, optVitals]

theorem State.unissue_vitals (s : State) (b : Nat) : (s.unissue b).vitals = s.vitals := by
  unfold State.unissue
  grind [State.modBank_vitals, State.modDie_vitals, State.unholdAll_vitals, State.vitals]

theorem State.startInstance_vitals (s : State) (ms : List (Nat × EngRun)) :
    (s.startInstance ms).vitals = s.vitals := by
  unfold State.startInstance
  grind [vitals_foldl, State.owe_vitals, State.putEng_vitals, State.vitals]

theorem State.mismatch_vitals (s : State) (p : Nat × EngRun) : (s.mismatch p).vitals = s.vitals := by
  unfold State.mismatch
  grind [State.failEng_vitals, State.unholdAll_vitals]

theorem State.beginInstance_vitals (s : State) (ms : List (Nat × EngRun)) (b0 : Nat) (r0 : EngRun) :
    (s.beginInstance ms b0 r0).vitals = s.vitals := by
  unfold State.beginInstance
  grind [State.failEng_vitals, State.owe_vitals, State.payTolls_vitals, State.serve_vitals, State.spoilParts_vitals,
    State.startInstance_vitals, State.vitals, Paid.vitals]

theorem execCollectiveInstanceStart_keeps (gid nth : Nat) (s : State) :
    Keeps s.vitals (execCollectiveInstanceStart gid nth s) := by
  unfold execCollectiveInstanceStart
  grind [vitals_foldl, State.beginInstance_vitals, State.mismatch_vitals, State.owe_vitals, Keeps]

theorem State.repinColl_vitals (s : State) (b : Nat) (r : EngRun) : (s.repinColl b r).vitals = s.vitals := by
  unfold State.repinColl
  grind [State.pinRefs_vitals, Pinning.vitals]

theorem State.endColl_vitals (s : State) (b : Nat) (r : EngRun) (again : Instr) :
    (s.endColl b r again).vitals = s.vitals := by
  unfold State.endColl
  grind [State.heldBack_vitals, State.owe_vitals, State.retireEng_vitals, optVitals]

theorem State.sweepInsts_vitals (s : State) : s.sweepInsts.vitals = s.vitals := rfl

theorem State.ringStep_vitals (s : State) (b : Nat) (r : EngRun) : (s.ringStep b r).vitals = s.vitals := by
  unfold State.ringStep
  grind [State.endColl_vitals, State.mergeOwner_vitals, State.owe_vitals, State.oweArrival_vitals,
    State.putEng_vitals, State.sweepInsts_vitals]

/-! ### Of the fabric and migration (`Machine/Fabric`) -/

theorem State.setPacket_vitals (s : State) (p : Nat) (x : Option Packet) : (s.setPacket p x).vitals = s.vitals :=
  rfl

theorem State.moved_vitals (s : State) (p : Nat) (x : Packet) (poison : Bool) :
    (s.moved p x poison).vitals = s.vitals := rfl

theorem State.reportPoison_vitals (s : State) (w : Who) : (s.reportPoison w).vitals = s.vitals := by
  unfold State.reportPoison
  grind [State.modBank_vitals]

theorem State.oweEnd_vitals (s : State) (w : Who) : (s.oweEnd w).vitals = s.vitals := by
  unfold State.oweEnd
  grind [State.owe_vitals]

theorem State.setMigr_vitals (s : State) (page : Nat) (f : Migr → Migr) : (s.setMigr page f).vitals = s.vitals :=
  rfl

theorem State.recallPage_vitals (s : State) (m : Migr) : (s.recallPage m).vitals = s.vitals := by
  unfold State.recallPage
  grind [vitals_foldl, State.recall_vitals]

theorem execCopyPassEnd_keeps (page : Nat) (s : State) : Keeps s.vitals (execCopyPassEnd page s) := by
  unfold execCopyPassEnd
  grind [State.owe_vitals, State.recallPage_vitals, State.setMigr_vitals, Keeps]

theorem execRecallComplete_keeps (page : Nat) (s : State) : Keeps s.vitals (execRecallComplete page s) := by
  unfold execRecallComplete
  grind [State.owe_vitals, State.recallPage_vitals, State.setMigr_vitals, Keeps]

theorem execMigrationGraceEnd_keeps (page : Nat) (s : State) : Keeps s.vitals (execMigrationGraceEnd page s) := by
  unfold execMigrationGraceEnd
  grind [State.vitals, Keeps]

theorem execAcmodeWrite_keeps (cl : Nat) (v : Word) (s : State) : Keeps s.vitals (execAcmodeWrite cl v s) := by
  unfold execAcmodeWrite
  grind [State.modCluster_vitals, Keeps]

theorem execAcmodeTakeEffect_keeps (cl : Nat) (s : State) : Keeps s.vitals (execAcmodeTakeEffect cl s) := by
  unfold execAcmodeTakeEffect
  grind [State.modCluster_vitals, Keeps]

/-! ### Of recovery (`Machine/Recovery`) -/

theorem State.dropCommands_vitals (s : State) (b : Nat) : (s.dropCommands b).vitals = s.vitals := by
  unfold State.dropCommands
  grind [vitals_foldl, State.dropKeyReq_vitals, State.leaveSeqs_vitals, State.modCluster_vitals,
    State.unholdAll_vitals, State.unissue_vitals]

theorem State.sweep_vitals (s : State) (b : Nat) : (s.sweep b).vitals = s.vitals := by
  unfold State.sweep
  grind [State.dropCommands_vitals, State.modBank_vitals]

theorem State.endBank_vitals (s : State) (b : Nat) : (s.endBank b).vitals = s.vitals := by
  unfold State.endBank
  grind [State.dropCommands_vitals, State.modBank_vitals, State.rouse_vitals, State.vitals]

theorem State.endTask_vitals (s : State) (die rec' : Nat) : (s.endTask die rec').vitals = s.vitals := by
  unfold State.endTask
  grind [vitals_foldl, State.endBank_vitals, State.modBind_vitals, State.owe_vitals]

theorem execBctlEndTask_keeps (b : Nat) (s : State) : Keeps s.vitals (execBctlEndTask b s) := by
  unfold execBctlEndTask
  grind [State.endTask_vitals, Keeps]

theorem execTaskEndComplete_keeps (die rec' : Nat) (s : State) :
    Keeps s.vitals (execTaskEndComplete die rec' s) := by
  unfold execTaskEndComplete
  grind [vitals_foldl, State.owe_vitals, State.sweep_vitals, State.taskDone_vitals, Keeps]

theorem State.saveBoundary_vitals (s : State) (b : Nat) : (s.saveBoundary b).vitals = s.vitals := by
  unfold State.saveBoundary
  grind [State.dropKeyReq_vitals, State.modBank_vitals, State.unissue_vitals]

theorem execPctlSave_keeps (b : Nat) (v : Word) (s : State) : Keeps s.vitals (execPctlSave b v s) := by
  unfold execPctlSave
  grind [State.modBank_vitals, State.owe_vitals, State.saveBoundary_vitals, Keeps]

theorem State.pctlRecord_vitals (s : State) (b sub : Nat) : (s.pctlRecord b sub).vitals = s.vitals :=
  State.askTrapRing_vitals ..

theorem execBlockWatchdog_keeps (b : Nat) (s : State) : Keeps s.vitals (execBlockWatchdog b s) := by
  unfold execBlockWatchdog
  grind [State.setBank_vitals, Keeps]

theorem execPctlRestore_keeps (b : Nat) (v : Word) (s : State) : Keeps s.vitals (execPctlRestore b v s) := by
  unfold execPctlRestore
  grind [State.modBank_vitals, State.owe_vitals, Keeps]

theorem execRestoreComplete_keeps (b : Nat) (s : State) : Keeps s.vitals (execRestoreComplete b s) := by
  unfold execRestoreComplete
  grind [State.endTask_vitals, State.owe_vitals, State.pctlRecord_vitals, State.reportStop_vitals,
    State.rouse_vitals, State.setBank_vitals, State.vitals, Keeps]

theorem execDebugAttach_keeps (core : Nat) (s : State) : Keeps s.vitals (execDebugAttach core s) := by
  unfold execDebugAttach
  grind [State.logEvent_vitals, State.modCore_vitals, State.vitals, Keeps]

theorem execDebugHaltRequest_keeps (b : Nat) (s : State) : Keeps s.vitals (execDebugHaltRequest b s) := by
  unfold execDebugHaltRequest
  grind [State.raise_vitals, Keeps]

theorem State.debugRead_vitals (s : State) (b r : Nat) : (s.debugRead b r).vitals = s.vitals := by
  unfold State.debugRead
  grind [State.egress_vitals, State.vitals, Egress.vitals]

theorem State.takeSpare_vitals (s : State) (die kind idx : Nat) : (s.takeSpare die kind idx).vitals = s.vitals := by
  unfold State.takeSpare
  grind [State.askTrapRing_vitals, State.modDie_vitals]

theorem State.remap_vitals (s : State) (die kind idx : Nat) : (s.remap die kind idx).vitals = s.vitals := by
  unfold State.remap
  grind [State.modDie_vitals, State.takeSpare_vitals]

theorem State.retryRemaps_vitals (s : State) (die : Nat) : (s.retryRemaps die).vitals = s.vitals := by
  unfold State.retryRemaps
  grind [vitals_foldl, State.modDie_vitals, State.remap_vitals]

theorem State.freshRas_vitals (s : State) (die : Nat) : (s.freshRas die).vitals = s.vitals := by
  unfold State.freshRas
  grind [State.modDie_vitals]

theorem execCorrectedError_keeps (die kind idx : Nat) (s : State) :
    Keeps s.vitals (execCorrectedError die kind idx s) := by
  unfold execCorrectedError
  grind [State.freshRas_vitals, State.modDie_vitals, State.remap_vitals, State.retryRemaps_vitals, Keeps]

theorem execRasWindowEnd_keeps (die : Nat) (s : State) : Keeps s.vitals (execRasWindowEnd die s) := by
  unfold execRasWindowEnd
  grind [State.freshRas_vitals, State.retryRemaps_vitals, Keeps]

/-! ### Of the module (`Machine/Module`) -/

theorem State.takePeeks_vitals (s : State) (key : Nat) (got : List GotLine) (a : List Nat) :
    (s.takePeeks key got a).1.vitals = s.vitals := by
  induction a generalizing s got with
  | nil => rfl
  | cons l ls ih =>
    unfold State.takePeeks
    split
    next m i heq =>
      grind [State.modDir_vitals, State.finishPut_vitals, State.vitals]
    next t heq =>
      obtain ⟨m, -, hm⟩ := Option.map_eq_some_iff.mp heq
      have ht := State.takeMsg_vitals s m.core l .peekData
      grind [Taken.vitals]
    next => exact ih ..

theorem State.readLines_vitals (s : State) (arr key : Nat) (asked : List Nat) (got : List GotLine) (a : List Nat) :
    (s.readLines arr key asked got a).1.vitals = s.vitals := by
  fun_induction s.readLines arr key asked got a <;> grind [State.modDir_vitals, State.toCache_vitals]

theorem State.leave_vitals (s : State) (w : Who) (out : List (Nat × Bool)) (a : List Nat) :
    (s.leave w out a).s.vitals = s.vitals := by
  fun_induction s.leave w out a <;> grind [State.egress_vitals, Egress.vitals]

theorem execBulkRead_keeps (i : Nat) (s : State) : Keeps s.vitals (execBulkRead i s) := by
  unfold execBulkRead
  grind [State.bulkTurn_vitals, State.countArr_vitals, State.leave_vitals, State.owe_vitals, State.readLines_vitals,
    State.reply_vitals, State.takePeeks_vitals, State.vitals, Keeps]

theorem State.ioWrite_vitals (s : State) (w : Who) (pa n1 : Nat) (l2 : List Byte) :
    (s.ioWrite w pa n1 l2).vitals = s.vitals := by
  fun_induction s.ioWrite w pa n1 l2 <;> grind [State.askTent_vitals, State.newPacket_vitals]

theorem State.ioRead_vitals (s : State) (w : Who) (pa n : Nat) : (s.ioRead w pa n).vitals = s.vitals :=
  State.owe_vitals ..

theorem State.outside_vitals (s : State) (w : Who) (pa : Nat) (data : List Byte) (len : Nat) :
    (s.outside w pa data len).vitals = s.vitals := by
  unfold State.outside
  grind [State.ioRead_vitals, State.ioWrite_vitals, State.reply_vitals, State.sendWin_vitals]

theorem State.bar0_vitals (s : State) (o : Nat) (data : List Byte) (len : Nat) :
    (s.bar0 o data len).vitals = s.vitals := by
  unfold State.bar0
  grind [State.reply_vitals, State.sendWin_vitals]

theorem execHostMemoryAccess_keeps (off : Nat) (data : List Byte) (len : Nat) (s : State) :
    Keeps s.vitals (execHostMemoryAccess off data len s) := by
  unfold execHostMemoryAccess
  grind [State.bar0_vitals, State.outside_vitals, State.reply_vitals, Keeps]

theorem execCxlDeviceAccess_keeps (port addr : Nat) (data : List Byte) (len : Nat) (s : State) :
    Keeps s.vitals (execCxlDeviceAccess port addr data len s) := by
  unfold execCxlDeviceAccess
  grind [State.outside_vitals, Keeps]

theorem execPwrlimWrite_keeps (v : Word) (s : State) : Keeps s.vitals (execPwrlimWrite v s) := by
  unfold execPwrlimWrite
  grind [State.vitals, Keeps]

theorem State.writeRoot_vitals (s : State) (die p : Nat) (v : Word) : (s.writeRoot die p v).vitals = s.vitals := by
  unfold State.writeRoot
  grind [State.logEvent_vitals, State.modDie_vitals]

theorem State.writeQctl_vitals (s : State) (q : Nat) (v : Word) : (s.writeQctl q v).vitals = s.vitals := by
  unfold State.writeQctl
  grind [State.logEvent_vitals, State.updateQueue_vitals]

theorem State.writeStopped_vitals (s : State) (b n : Nat) (v : Word) :
    (s.writeStopped b n v).vitals = s.vitals := by
  unfold State.writeStopped
  grind [State.modBank_vitals]

theorem State.writeCxl_vitals (s : State) (die e : Nat) (v : Word) : (s.writeCxl die e v).vitals = s.vitals := by
  unfold State.writeCxl
  grind [State.modDie_vitals, State.takeCxl_vitals]

theorem execConfigRegisterWrite_keeps (die : Nat) (reg : CfgReg) (v : Word) (s : State) :
    Keeps s.vitals (execConfigRegisterWrite die reg v s) := by
  unfold execConfigRegisterWrite
  grind [State.modCluster_vitals, State.modDie_vitals, State.updateQueue_vitals, State.writeCxl_vitals,
    State.writeQctl_vitals, State.writeRoot_vitals, State.writeStopped_vitals, State.vitals, Keeps]

theorem State.appendOwn_vitals (s : State) (ty : Nat) (detail : BitVec 256) :
    (s.appendOwn ty detail).vitals = s.vitals := rfl

theorem State.startEpoch_vitals (s : State) : s.startEpoch.vitals = s.vitals := by
  unfold State.startEpoch
  grind [State.appendOwn_vitals, State.vitals]

theorem State.logFirmware_vitals (s : State) (i : Nat) : (s.logFirmware i).vitals = s.vitals :=
  State.appendOwn_vitals ..

theorem State.runFirmware_vitals (s : State) (i : Nat) : (s.runFirmware i).vitals = s.vitals := by
  unfold State.runFirmware
  grind [State.logFirmware_vitals, State.vitals]

theorem State.drawKeys_vitals (s : State) : s.drawKeys.vitals = s.vitals := by
  unfold State.drawKeys
  grind [vitals_foldl, State.setRowMeta_vitals]

theorem execReadySet_keeps (s : State) : Keeps s.vitals (execReadySet s) := by
  unfold execReadySet
  grind [State.vitals, Keeps]

/-! ### Of the scalar words (`Machine/Scalar`) -/

theorem result_keeps (s : State) (d : BitVec 5) (v : Word) : Keeps s.vitals (result s d v) := by
  unfold result
  grind [State.setReg_vitals, finish_keeps, Keeps]

/-! ### Of the moves of a step (`Machine/Place`) -/

theorem State.fetchInsn_vitals (s : State) (b : Nat) : (s.fetchInsn b).vitals = s.vitals := by
  unfold State.fetchInsn
  grind [State.fetchWord_vitals, Fetched.vitals, FetchedInsn.vitals]

theorem State.holding_vitals (s : State) (b w : Nat) : (s.holding b w).vitals = s.vitals :=
  State.modBank_vitals ..

theorem State.arriveNet_vitals (s : State) (c l : Nat) (k : MKind) : (s.arriveNet c l k).vitals = s.vitals := by
  unfold State.arriveNet
  grind [State.countArr_vitals, State.takeMsg_vitals, State.vitals, Taken.vitals]

theorem State.arriveAt_vitals (s : State) (i : Instr) : (s.arriveAt i).vitals = s.vitals := by
  unfold State.arriveAt
  grind [State.arriveNet_vitals, State.countArr_vitals, State.owe_vitals, State.seatAtomic_vitals, State.vitals,
    Admission.vitals]

theorem State.arriveTogether_vitals (s : State) (is : List Instr) : (s.arriveTogether is).vitals = s.vitals := by
  unfold State.arriveTogether
  grind [vitals_foldl, State.arriveAt_vitals]

/-! ## Sound vitals -/

/-- The invariant, said of the vitals. -/
structure Vitals.Sound (v : Vitals) : Prop where
  mem : Memory.wf v.mem = true
  hostMem : Memory.wf v.hostMem = true
  time : v.counter / 19 ≤ v.reftime
  cur : validBank v.cur = true

/-- The outcome's next state, if it has one, has sound vitals. -/
def Safe (o : Out) : Prop := ∀ t, o = .next t → t.vitals.Sound

theorem inv_iff_sound {s : State} : s.Inv ↔ s.vitals.Sound := by
  unfold State.Inv State.memWf
  rw [Bool.and_eq_true]
  exact ⟨fun ⟨⟨hm, hh⟩, ht, hc⟩ => ⟨hm, hh, ht, hc⟩, fun ⟨hm, hh, ht, hc⟩ => ⟨⟨hm, hh⟩, ht, hc⟩⟩

theorem Keeps.safe {v : Vitals} {o : Out} (h : Keeps v o) (hv : v.Sound) : Safe o := fun t ht => h t ht ▸ hv

theorem Safe.next {t : State} (h : t.vitals.Sound) : Safe (.next t) := by
  rintro _ ⟨⟩
  exact h

theorem Safe.fault {f : Fault} : Safe (.fault f) := nofun

theorem sound_foldl_of {α β : Type} (m : β → Vitals) {f : β → α → β}
    (hf : ∀ b a, (m b).Sound → (m (f b a)).Sound) (l : List α) (b : β) (h : (m b).Sound) : (m (l.foldl f b)).Sound := by
  induction l generalizing b with
  | nil => exact h
  | cons a l ih => exact ih _ (hf _ _ h)

theorem sound_foldl {α : Type} {f : State → α → State} (hf : ∀ s a, s.vitals.Sound → (f s a).vitals.Sound)
    (l : List α) (s : State) (h : s.vitals.Sound) : (l.foldl f s).vitals.Sound :=
  sound_foldl_of State.vitals hf l s h

theorem Vitals.Sound.write {v : Vitals} (h : v.Sound) (pa : Nat) (xs : List Byte) :
    Vitals.Sound { v with mem := putBytes v.mem pa xs } :=
  { h with mem := wf_putBytes _ _ _ h.mem }

theorem Vitals.Sound.writeHost {v : Vitals} (h : v.Sound) (pa : Nat) (xs : List Byte) :
    Vitals.Sound { v with hostMem := putBytes v.hostMem pa xs } :=
  { h with hostMem := wf_putBytes _ _ _ h.hostMem }

/-- What a filter leaves of a sparse array in canonical form is in canonical form. -/
theorem Assoc.wfFrom_filter {β : Type} [DecidableEq β] {d : β} (p : Nat × β → Bool) {m : Assoc β} {o : Option Nat}
    (h : Assoc.wfFrom d o m = true) : Assoc.wfFrom d o (m.filter p) = true := by
  induction m generalizing o with
  | nil => exact h
  | cons x m ih =>
    obtain ⟨i, v⟩ := x
    simp only [Assoc.wfFrom, Bool.and_eq_true] at h
    obtain ⟨⟨hlo, hv⟩, hm⟩ := h
    rw [List.filter_cons]
    split
    · simp only [Assoc.wfFrom, Bool.and_eq_true]
      exact ⟨⟨hlo, hv⟩, ih hm⟩
    · have hf := ih hm
      cases o with
      | none => exact Assoc.wfFrom_none hf
      | some l => exact Assoc.wfFrom_weaken hf (of_decide_eq_true hlo)

theorem Vitals.Sound.of_eq {v w : Vitals} (h : w.Sound) (e : v = w) : v.Sound := e ▸ h

/-! ## The operations that write a memory -/

/-! ### Of the state's operations (`Machine/Ops`) -/

theorem State.putRaw_sound (s : State) (pa : Nat) (xs : List Byte) (h : s.vitals.Sound) :
    (s.putRaw pa xs).vitals.Sound := h.write _ _

theorem State.settle_sound (s : State) (r : Nat) (h : s.vitals.Sound) : (s.settle r).vitals.Sound := by
  unfold State.settle
  grind [State.putRaw_sound, State.setRowMeta_vitals]

theorem State.setBytes_sound (s : State) (pa : Nat) (xs : List Byte) (h : s.vitals.Sound) :
    (s.setBytes pa xs).vitals.Sound := by
  unfold State.setBytes
  grind [State.putRaw_sound, State.settle_sound]

theorem State.writeHome_sound (s : State) (pa : Nat) (xs : List Byte) (key : Nat) (poison : Bool) (rtag : BitVec 24)
    (h : s.vitals.Sound) :
    (s.writeHome pa xs key poison rtag).vitals.Sound := by
  unfold State.writeHome
  grind [State.setBytes_sound, State.setRowMeta_vitals]

/-! ### Of loads, stores and windows (`Machine/Access`) -/

theorem State.storeWindow_sound (s : State) (b : Nat) (p : Post) (h : s.vitals.Sound) :
    (s.storeWindow b p).vitals.Sound := by
  unfold State.storeWindow
  split
  · split
    · exact h
    · have hs := State.serve_vitals s (agentStore b) (b + 1) ((s.bank b).part % 16) (s.wayTo .request (bankDie b)
      (memDie p.pa))
      split
      next s1 heq =>
        rw [heq] at hs
        exact h.of_eq hs
      next s1 heq =>
        rw [heq] at hs
        have h1 : s1.vitals.Sound := h.of_eq hs
        exact h1.writeHost _ _
  · grind [State.sendWin_vitals, Turned.vitals]

theorem State.turnPost_sound (s : State) (b : Nat) (p : Post) (h : s.vitals.Sound) :
    (s.turnPost b p).vitals.Sound := by
  unfold State.turnPost
  grind [State.owe_vitals, State.sendG_vitals, State.storeLine_vitals, State.storeWindow_sound, State.vitals,
    Turned.vitals]

theorem State.actPost_sound (s : State) (b i : Nat) (p : Post) (h : s.vitals.Sound) :
    (s.actPost b i p).vitals.Sound := by
  unfold State.actPost
  grind [State.modBank_vitals, State.performed_vitals, State.turnPost_sound, Turned.vitals]

theorem execStoreAck_safe (b i : Nat) (s : State) (h : s.vitals.Sound) : Safe (execStoreAck b i s) := by
  unfold execStoreAck
  grind [State.actPost_sound, State.modBank_vitals, State.owe_vitals, State.tickFree_vitals, Safe]

/-! ### Of saving and restoring (`Machine/Save`) -/

theorem State.putAreaRows_sound (s : State) (area : Nat) (a : List (Nat × Row × Bool)) (h : s.vitals.Sound) :
    (s.putAreaRows area a).vitals.Sound := by
  fun_induction s.putAreaRows area a <;> grind [State.writeHome_sound]

theorem State.writeArea_sound (s : State) (b : Nat) (h : s.vitals.Sound) : (s.writeArea b).vitals.Sound := by
  unfold State.writeArea
  grind [State.putAreaRows_sound]

theorem State.arrive_sound (s : State) (b : Nat) (f : Bank → Bank) (h : s.vitals.Sound) :
    (s.arrive b f).vitals.Sound := by
  unfold State.arrive
  grind [State.modBank_vitals, State.putAreaRows_sound, State.setBank_vitals]

/-! ### Of waits (`Machine/Wait`) -/

theorem execEventArrival_safe (i : Nat) (s : State) (h : s.vitals.Sound) : Safe (execEventArrival i s) := by
  unfold execEventArrival
  grind [State.arrive_sound, State.modBank_vitals, State.owe_vitals, State.vitals, Safe]

theorem State.serveBarrier_sound (s : State) (i : Nat) (g : GReq) (h : s.vitals.Sound) :
    (s.serveBarrier i g).vitals.Sound := by
  unfold State.serveBarrier
  grind [State.answer_vitals, State.arrive_sound, State.dropG_vitals, State.modBank_vitals]

theorem execBarrierWindowAccess_safe (i : Nat) (s : State) (h : s.vitals.Sound) :
    Safe (execBarrierWindowAccess i s) := by
  unfold execBarrierWindowAccess
  grind [State.oweG_vitals, State.seatAtomic_vitals, State.serveBarrier_sound, State.setG_vitals,
    State.strideG_vitals, Admission.vitals, Safe]

/-! ### Of the system words (`Machine/System`) -/

theorem State.revoke_sound (s : State) (die : Nat) (r : Revoked) (h : s.vitals.Sound) :
    (s.revoke die r).vitals.Sound := by
  unfold State.revoke
  grind [vitals_foldl, sound_foldl, State.arrive_sound, State.markShot_vitals, State.modDie_vitals, State.vitals]

theorem execShootDieArrival_safe (b die : Nat) (s : State) (h : s.vitals.Sound) :
    Safe (execShootDieArrival b die s) := by
  unfold execShootDieArrival
  grind [State.modBank_vitals, State.owe_vitals, State.revoke_sound, State.serve_vitals, Safe]

/-! ### Of coherence (`Machine/Coherence`) -/

theorem State.putHomeLine_sound (s : State) (l : Nat) (d : BitVec 512) (h : s.vitals.Sound) :
    (s.putHomeLine l d).vitals.Sound := by
  unfold State.putHomeLine
  grind [State.setBytes_sound]

theorem execCohDS_safe (core line : Nat) (s : State) (h : s.vitals.Sound) : Safe (execCohDS core line s) := by
  refine serveMsg_meets (P := Vitals.Sound) _ _ _ s _ h fun m u hu => ?_
  grind [State.completeGetS_vitals, State.putHomeLine_sound, Safe]

theorem execCohDW_safe (core line : Nat) (s : State) (h : s.vitals.Sound) : Safe (execCohDW core line s) := by
  refine serveMsg_meets (P := Vitals.Sound) _ _ _ s _ h fun m u hu => ?_
  grind [State.completeGetS_vitals, State.putHomeLine_sound, Safe]

theorem execCohDX_safe (core line : Nat) (s : State) (h : s.vitals.Sound) : Safe (execCohDX core line s) := by
  refine serveMsg_meets (P := Vitals.Sound) _ _ _ s _ h fun m u hu => ?_
  grind [State.countReply_vitals, State.modDir_vitals, State.putHomeLine_sound, Safe]

theorem execCohPut_safe (core line : Nat) (s : State) (h : s.vitals.Sound) : Safe (execCohPut core line s) := by
  refine serveMsg_meets (P := Vitals.Sound) _ _ _ s _ h fun m u hu => ?_
  grind [State.modDir_vitals, State.putHomeLine_sound, State.send_vitals, Safe]

theorem execWriteThrough_safe (core line : Nat) (s : State) (h : s.vitals.Sound) :
    Safe (execWriteThrough core line s) := by
  refine serveNext_meets (P := Vitals.Sound) _ _ _ s _ h fun m u hu => ?_
  grind [State.ackThrough_vitals, State.putHomeLine_sound, State.refuse_vitals, State.renameLine_vitals,
    State.send_vitals,
    State.setBytes_sound, State.vitals, Served.vitals]

theorem State.performStores_sound (s : State) (core line a : Nat) (h : s.vitals.Sound) :
    (s.performStores core line a).vitals.Sound := by
  fun_induction s.performStores core line a <;> grind [State.actPost_sound]

theorem State.performStore_sound (s : State) (core line : Nat) (h : s.vitals.Sound) :
    (s.performStore core line).vitals.Sound := by
  unfold State.performStore
  grind [State.performStores_sound]

theorem execCohDataX_safe (core line : Nat) (s : State) (h : s.vitals.Sound) : Safe (execCohDataX core line s) := by
  refine serveMsg_meets (P := Vitals.Sound) _ _ _ s _ h fun m u hu => ?_
  grind [State.arrived_vitals, State.performStore_sound, Safe]

theorem execCohGrant_safe (core line : Nat) (s : State) (h : s.vitals.Sound) : Safe (execCohGrant core line s) := by
  refine serveMsg_meets (P := Vitals.Sound) _ _ _ s _ h fun m u hu => ?_
  grind [State.cleanLine_vitals, State.lineCame_vitals, State.performStore_sound, State.setLine_vitals, Safe]

theorem State.writeRows_sound (s : State) (pa key : Nat) (poison : Bool) (rtag : BitVec 24) (n1 : Nat)
    (l2 : List Byte) (h : s.vitals.Sound) :
    (s.writeRows pa key poison rtag n1 l2).vitals.Sound := by
  fun_induction s.writeRows pa key poison rtag n1 l2 <;> grind [State.writeHome_sound]

theorem State.writeCipher_sound (s : State) (pa : Nat) (xs : List Byte) (key : Nat) (h : s.vitals.Sound) :
    (s.writeCipher pa xs key).vitals.Sound := by
  unfold State.writeCipher
  grind [State.putRaw_sound, State.setRowMeta_vitals]

theorem State.performBulk_sound (s : State) (x : Bulk) (h : s.vitals.Sound) : (s.performBulk x).vitals.Sound := by
  unfold State.performBulk
  grind [State.reply_vitals, State.setRowMeta_vitals, State.writeCipher_sound, State.writeRows_sound]

theorem execBulkWrite_safe (i : Nat) (s : State) (h : s.vitals.Sound) : Safe (execBulkWrite i s) := by
  unfold execBulkWrite
  grind [State.bulkDone_vitals, State.bulkTurn_vitals, State.claimAll_vitals, State.countArr_vitals,
    State.owe_vitals, State.performBulk_sound, State.refuse_vitals, State.unclaim_vitals, State.vitals, Safe]

theorem State.atomicMem_sound (s : State) (r : AReq) (pa : Nat) (capped : Bool) (h : s.vitals.Sound) :
    (s.atomicMem r pa capped).vitals.Sound := by
  unfold State.atomicMem
  grind [State.atomicReply_vitals, State.spoil_vitals, State.writeHome_sound]

theorem State.serveAtomic_sound (s : State) (i : Nat) (r : AReq) (h : s.vitals.Sound) :
    (s.serveAtomic i r).vitals.Sound := by
  unfold State.serveAtomic
  extract_lets pa l mem s1
  have hm (t : State) (ht : t.vitals.Sound) : (mem t).vitals.Sound := by
    refine State.doAtomic_meets t i r _ ht fun u p hu => ?_
    rw [State.unclaim_vitals]
    exact State.atomicMem_sound _ _ _ _ (hu ▸ ht)
  have hg : (s.doAtomic i r fun s capped => s.atomicSram r capped).vitals.Sound := by
    refine State.doAtomic_meets s i r _ h fun u p hu => ?_
    rw [State.atomicSram_vitals, hu]
    exact h
  grind [State.claim_vitals, State.owe_vitals]

theorem State.turnAtomic_sound (s : State) (i : Nat) (r : AReq) (h : s.vitals.Sound) :
    (s.turnAtomic i r).vitals.Sound := by
  unfold State.turnAtomic
  grind [State.owe_vitals, State.refuse_vitals, State.serveAtomic_sound, State.vitals]

theorem execHomeAtomic_safe (i : Nat) (s : State) (h : s.vitals.Sound) : Safe (execHomeAtomic i s) := by
  unfold execHomeAtomic
  grind [State.owe_vitals, State.refuse_vitals, State.seatAtomic_vitals, State.turnAtomic_sound, State.vitals,
    Admission.vitals, Safe]

theorem State.putHomeBytes_sound (s : State) (pa : Nat) (xs : List Byte) (key part : Nat) (h : s.vitals.Sound) :
    (s.putHomeBytes pa xs key part).vitals.Sound := by
  unfold State.putHomeBytes
  split
  · rw [State.maskCell_vitals]; exact h
  split
  · exact h.writeHost _ _
  split
  · exact h
  · exact State.writeHome_sound _ _ _ _ _ _ h

theorem State.appendRecord_sound (s : State) (i : Nat) (x : RingReq) (h : s.vitals.Sound) :
    (s.appendRecord i x).vitals.Sound := by
  unfold State.appendRecord
  grind [State.claimAll_vitals, State.owe_vitals, State.putHomeBytes_sound, State.ringDone_vitals,
    State.spoil_vitals, State.unclaim_vitals, State.vitals]

theorem execCompletionRecordAppend_safe (i : Nat) (s : State) (h : s.vitals.Sound) :
    Safe (execCompletionRecordAppend i s) := by
  unfold execCompletionRecordAppend
  grind [State.appendRecord_sound, State.countArr_vitals, State.owe_vitals, State.refuse_vitals, State.vitals, Safe]

/-! ### Of keys (`Machine/Keys`) -/

theorem State.installKey_vitals (s : State) (d k : Nat) (p : BitVec 2048) : (s.installKey d k p).vitals = s.vitals := by
  unfold State.installKey
  grind [vitals_foldl, State.setKeySlot_vitals, State.flushLog_vitals, State.logEvent_vitals, State.modDie_vitals]

theorem execKeyRequestServe_safe (die : Nat) (s : State) (h : s.vitals.Sound) :
    Safe (execKeyRequestServe die s) := by
  unfold execKeyRequestServe
  split
  · exact .fault
  split
  · exact .next h
  extract_lets s1
  have h1 : s1.vitals = s.vitals := State.keyServed_vitals ..
  grind [sound_foldl, State.flushLog_vitals, State.keyDone_vitals, State.installKey_vitals, State.logEvent_vitals,
    State.modBank_vitals, State.modDie_vitals, State.owe_vitals, State.revoke_sound, State.takeTrap_vitals,
    State.zeroKey_vitals, Safe]

/-! ### Of copies (`Machine/Copy`) -/

theorem State.engWrite_sound (s : State) (b part pa key : Nat) (xs : List Byte) (c : Carried) (w : Who)
    (h : s.vitals.Sound) :
    (s.engWrite b part pa key xs c w).1.vitals.Sound := by
  unfold State.engWrite
  extract_lets t off key' row s1 x
  have h1 : s1.vitals = s.vitals := by grind [State.moveCell_vitals, State.maskCell_vitals]
  split
  · grind [State.carry_vitals, State.setCell_vitals]
  split
  · exact h.writeHost _ _
  · grind [State.askTent_vitals, State.carry_vitals]

theorem State.writePlace_sound (s : State) (b part : Nat) (r : CopyRun) (c : Carried) (p : Place)
    (h : s.vitals.Sound) :
    (s.writePlace b part r c p).1.vitals.Sound := by
  cases p with
  | mem c' ps =>
    exact sound_foldl_of (fun p : State × Nat × List Byte => p.1.vitals)
      (fun _ _ hp => State.engWrite_sound _ _ _ _ _ _ _ _ hp) ps _ h
  | cell key => grind [State.writePlace, State.landCell_vitals]
  | slot => grind [State.writePlace, State.carry_vitals, State.modBank_vitals]
  | buffer n => exact h

theorem State.copyPoint_sound (s : State) (b : Nat) (r : CopyRun) (h : s.vitals.Sound) :
    (s.copyPoint b r).vitals.Sound := by
  unfold State.copyPoint
  grind [State.copyEgress_vitals, State.engServe_vitals, State.faultCopy_vitals, State.modBank_vitals,
    State.owe_vitals, State.setCopy_vitals, State.writePlace_sound, Toll.point_vitals, Egress.vitals, Point.vitals]

theorem execCopyRetire_safe (b : Nat) (s : State) (h : s.vitals.Sound) : Safe (execCopyRetire b s) := by
  unfold execCopyRetire
  grind [State.copyPoint_sound, State.copyUnit_vitals, State.finishCopy_vitals, State.owe_vitals,
    State.prepareCopy_vitals, Safe]

/-! ### Of transforms (`Machine/Transform`) -/

theorem execTransformRetire_safe (cl eng : Nat) (s : State) (h : s.vitals.Sound) :
    Safe (execTransformRetire cl eng s) := by
  unfold execTransformRetire
  grind [State.arrive_sound, State.modCluster_vitals, State.owe_vitals, State.xfWrite_vitals, Safe]

/-! ### Of the walker (`Machine/Walker`) -/

theorem State.writeVia_sound (s : State) (b e : Nat) (r : EngRun) (va : Int) (c : Carried) (h : s.vitals.Sound) :
    (s.writeVia b e r va c).1.vitals.Sound :=
  sound_foldl_of (fun p : State × Nat × List Byte => p.1.vitals)
    (fun _ _ hp => State.engWrite_sound _ _ _ _ _ _ _ _ hp) _ _ h

theorem State.writePinned_sound (s : State) (b e : Nat) (r : EngRun) (va : Int) (row : Row) (poison : Bool)
    (tag : BitVec 24) (h : s.vitals.Sound) :
    (s.writePinned b e r va row poison tag).1.vitals.Sound := by
  unfold State.writePinned
  grind [State.writeVia_sound]

theorem State.applyAtHome_sound (s : State) (b : Nat) (r : EngRun) (h : s.vitals.Sound) :
    (s.applyAtHome b r).vitals.Sound := by
  unfold State.applyAtHome
  split
  · grind [State.failEng_vitals, State.owe_vitals, State.putEng_vitals, State.snapshot_vitals]
  have ha := State.applyWalker_vitals (s.putEng b engWK { r with sent := true }) b { r with sent := true }
  rw [State.putEng_vitals] at ha
  split
  next f o heq =>
    rw [heq] at ha
    rw [State.failEng_vitals, State.leaveSeqs_vitals]
    cases o with
    | none => exact h
    | some t => exact h.of_eq ha
  next s2 heq =>
    rw [heq] at ha
    rw [State.owe_vitals]
    exact h.of_eq ha
  next s2 row heq =>
    grind [State.owe_vitals, State.putEng_vitals, State.snapshot_vitals, State.writePinned_sound, Accept.vitals]

theorem State.acceptWalker_sound (s : State) (b : Nat) (r : EngRun) (h : s.vitals.Sound) :
    (s.acceptWalker b r).vitals.Sound := by
  unfold State.acceptWalker
  grind [State.applyAtHome_sound, State.askHome_vitals, State.failEng_vitals, State.owe_vitals, State.pinRefs_vitals,
    State.putEng_vitals, Pinning.vitals, Pulled.vitals]

/-! ### Of the gleaner (`Machine/Gleaner`) -/

theorem State.putStatus_sound (s : State) (b : Nat) (r : EngRun) (status : Nat) (h : s.vitals.Sound) :
    (s.putStatus b r status).1.vitals.Sound := by
  unfold State.putStatus
  grind [State.writePinned_sound]

theorem State.stopGl_sound (s : State) (b : Nat) (r : EngRun) (f : CopyFault) (h : s.vitals.Sound) :
    (s.stopGl b r f).vitals.Sound := by
  unfold State.stopGl
  grind [State.failEng_vitals, State.oweGl_vitals, State.putEng_vitals, State.putStatus_sound]

theorem State.acceptQuery_sound (s : State) (b : Nat) (r : EngRun) (h : s.vitals.Sound) :
    (s.acceptQuery b r).vitals.Sound := by
  unfold State.acceptQuery
  grind [State.engPull_vitals, State.owe_vitals, State.pinRefs_vitals, State.putEng_vitals, State.readRows_vitals,
    State.snapshot_vitals, State.stopGl_sound, State.waitGl_vitals, Pinning.vitals, Pulled.vitals]

theorem State.acceptAttnd_sound (s : State) (b : Nat) (r : EngRun) (h : s.vitals.Sound) :
    (s.acceptAttnd b r).vitals.Sound := by
  unfold State.acceptAttnd
  grind [State.acceptQuery_sound, State.askHome_vitals, State.failEng_vitals, State.pinRefs_vitals,
    State.readPinned_vitals, State.stopGl_sound, State.waitGl_vitals, Pinning.vitals, Pulled.vitals]

theorem execSheafCommandAccept_safe (b : Nat) (walker : Bool) (s : State) (h : s.vitals.Sound) :
    Safe (execSheafCommandAccept b walker s) := by
  unfold execSheafCommandAccept
  grind [State.acceptAttnd_sound, State.acceptRdx_vitals, State.acceptWalker_sound, State.issueEng_vitals,
    State.owe_vitals, Safe, optVitals]

theorem State.putOut_sound (s : State) (b : Nat) (r : EngRun) (at' : Nat) (rows : List Row) (poison : Bool)
    (h : s.vitals.Sound) :
    (s.putOut b r at' rows poison).1.vitals.Sound :=
  sound_foldl_of (fun p : State × EngRun => p.1.vitals)
    (fun _ _ hp => State.writePinned_sound _ _ _ _ _ _ _ _ hp) _ _ h

theorem State.gleanStep_sound (s : State) (b : Nat) (r0 : EngRun) (h : s.vitals.Sound) :
    (s.gleanStep b r0).vitals.Sound := by
  unfold State.gleanStep
  grind [State.engServe_vitals, State.owe_vitals, State.putEng_vitals, State.putOut_sound, State.stage_vitals,
    State.stopGl_sound, State.tickFree_vitals]

theorem execGleanerBlock_safe (b : Nat) (s : State) (h : s.vitals.Sound) : Safe (execGleanerBlock b s) := by
  unfold execGleanerBlock
  grind [State.failEng_vitals, State.gleanStep_sound, State.owe_vitals, State.putEng_vitals, State.repin_vitals,
    Safe, Pinning.vitals]

theorem State.endGl_sound (s : State) (b : Nat) (r : EngRun) (h : s.vitals.Sound) : (s.endGl b r).vitals.Sound := by
  unfold State.endGl
  grind [State.heldBack_vitals, State.oweGl_vitals, State.putEng_vitals, State.putStatus_sound,
    State.retireEng_vitals, optVitals]

theorem execAttndRetire_safe (b : Nat) (s : State) (h : s.vitals.Sound) : Safe (execAttndRetire b s) := by
  unfold execAttndRetire
  grind [State.endGl_sound, State.owe_vitals, State.putEng_vitals, State.raiseGl_vitals, Safe]

theorem State.bagStep_sound (s : State) (b : Nat) (r : EngRun) (held : List Nat) (h : s.vitals.Sound) :
    (∀ t, s.bagStep b r held = .ok t → t.vitals.Sound) ∧ ∀ p, s.bagStep b r held = .error p → p.2.vitals.Sound := by
  unfold State.bagStep
  grind [State.owe_vitals, State.putEng_vitals, State.putOut_sound, State.readPinned_vitals, State.readWalked_vitals,
    bothVitals]

theorem execRdxRetire_safe (b : Nat) (s : State) (h : s.vitals.Sound) : Safe (execRdxRetire b s) := by
  unfold execRdxRetire
  split
  · exact .fault
  extract_lets k
  split
  · exact .next h
  next r hr =>
    have hp := State.repin_vitals s b r
    cases hc : s.repin b r with
    | fault f s1 | wait pins s1 =>
      grind [State.failEng_vitals, State.owe_vitals, State.putEng_vitals, State.raiseGl_vitals, Safe, Pinning.vitals]
    | ok pins s1 =>
      have hok (t u : State) (r1 : EngRun) (held : List Nat) (ht : t.vitals = s.vitals)
          (hu : (t.bagSpoil r1).bagStep b r1 held = .ok u) : u.vitals.Sound :=
        (State.bagStep_sound _ _ _ _ (h.of_eq ((State.bagSpoil_vitals ..).trans ht))).1 u hu
      have herr (t : State) (p : CopyFault × State) (r1 : EngRun) (held : List Nat) (ht : t.vitals = s.vitals)
          (hp : (t.bagSpoil r1).bagStep b r1 held = .error p) : p.2.vitals.Sound :=
        (State.bagStep_sound _ _ _ _ (h.of_eq ((State.bagSpoil_vitals ..).trans ht))).2 p hp
      have h1 : s1.vitals = s.vitals := by rw [hc] at hp; exact hp
      cases hf : r.fault with
      | some f => grind [State.raiseGl_vitals, Safe]
      | none =>
        dsimp only
        split
        · exact .next h
        split
        · exact .next h
        split
        · exact .next (h.of_eq (by rw [State.owe_vitals, State.putEng_vitals]))
        grind [State.endGl_sound, State.engPull_vitals, State.owe_vitals, State.putEng_vitals, State.stopGl_sound, Safe,
          Pulled.vitals]

/-! ### Of collectives (`Machine/Collective`) -/

theorem State.landStep_sound (s : State) (b : Nat) (r : EngRun) (again : Instr) (h : s.vitals.Sound) :
    (s.landStep b r again).vitals.Sound := by
  unfold State.landStep
  grind [State.egress_vitals, State.failEng_vitals, State.owe_vitals, State.putEng_vitals, State.writeVia_sound,
    Egress.vitals]

theorem execCollectiveRetire_safe (b : Nat) (s : State) (h : s.vitals.Sound) : Safe (execCollectiveRetire b s) := by
  unfold execCollectiveRetire
  split
  · exact .fault
  extract_lets k
  split
  · grind [State.acceptCollective_vitals, State.issueCollective_vitals, State.owe_vitals, Safe, optVitals]
  next r hr =>
    have hp := State.repinColl_vitals s b r
    cases hc : s.repinColl b r with
    | fault f s1 | wait pins s1 =>
      grind [State.acceptCollective_vitals, State.failEng_vitals, State.owe_vitals, State.waitColl_vitals, Safe,
        Pinning.vitals]
    | ok pins s0 =>
      grind [State.acceptCollective_vitals, State.endColl_vitals, State.landStep_sound, State.owe_vitals,
        State.putEng_vitals,
        State.ringStep_vitals, Safe, Pinning.vitals]

theorem execPloughRetire_safe (b : Nat) (s : State) (h : s.vitals.Sound) : Safe (execPloughRetire b s) := by
  unfold execPloughRetire
  grind [State.askRing_vitals, State.endColl_vitals, State.failEng_vitals, State.landStep_sound, State.owe_vitals,
    State.putEng_vitals, State.repinColl_vitals, State.waitColl_vitals, Safe, Pinning.vitals]

/-! ### Of the fabric and migration (`Machine/Fabric`) -/

theorem State.putOwn_sound (s : State) (x : Packet) (xs : List Byte) (poison : Bool) (tent : Nat)
    (h : s.vitals.Sound) :
    (s.putOwn x xs poison tent).vitals.Sound := by
  unfold State.putOwn
  grind [State.setBytes_sound, State.setCell_vitals, State.setRowMeta_vitals]

theorem execLinkTagFail_safe (pkt : Nat) (s : State) (h : s.vitals.Sound) : Safe (execLinkTagFail pkt s) := by
  unfold execLinkTagFail
  grind [vitals_foldl, sound_foldl, State.moved_vitals, State.oweEnd_vitals, State.putOwn_sound,
    State.reportPoison_vitals, State.setPacket_vitals, State.tickFree_vitals, Safe]

theorem execPacketFinal_safe (pkt : Nat) (s : State) (h : s.vitals.Sound) : Safe (execPacketFinal pkt s) := by
  unfold execPacketFinal
  grind [vitals_foldl, sound_foldl, State.moved_vitals, State.oweEnd_vitals, State.putOwn_sound,
    State.setCell_vitals, State.setPacket_vitals, State.setRowMeta_vitals, Safe]

theorem State.copyRow_sound (s : State) (src dst : Nat) (h : s.vitals.Sound) :
    (s.copyRow src dst).vitals.Sound := by
  unfold State.copyRow
  grind [State.putRaw_sound, State.setRowMeta_vitals]

theorem State.copyRows_sound (s : State) (m : Migr) (rows : List Nat) (h : s.vitals.Sound) :
    (s.copyRows m rows).vitals.Sound := by
  unfold State.copyRows
  grind [vitals_foldl, sound_foldl, State.copyRow_sound]

theorem execMigrationRegisterWrite_safe (old new size : Nat) (s : State) (h : s.vitals.Sound) :
    Safe (execMigrationRegisterWrite old new size s) := by
  unfold execMigrationRegisterWrite
  grind [State.copyRows_sound, State.owe_vitals, State.vitals, Safe]

theorem execRecopyEnd_safe (page : Nat) (s : State) (h : s.vitals.Sound) : Safe (execRecopyEnd page s) := by
  unfold execRecopyEnd
  grind [State.copyRows_sound, State.setMigr_vitals, State.vitals, Safe]

theorem execReftimeBeacon_safe (ticks : Nat) (s : State) (h : s.vitals.Sound) :
    Safe (execReftimeBeacon ticks s) := by
  unfold execReftimeBeacon
  split
  next hlt => exact .next { h with time := Nat.le_trans h.time (Nat.le_of_lt hlt.1) }
  next => exact .next h

/-! ### Of recovery (`Machine/Recovery`) -/

theorem State.parkEng_sound (s : State) (b e : Nat) (h : s.vitals.Sound) : (s.parkEng b e).vitals.Sound := by
  unfold State.parkEng
  grind [State.putEng_vitals, State.putStatus_sound]

theorem State.finishSave_sound (s : State) (b : Nat) (h : s.vitals.Sound) : (s.finishSave b).vitals.Sound := by
  unfold State.finishSave
  grind [State.pctlRecord_vitals, State.putAreaRows_sound, State.setBank_vitals, State.writeArea_sound, State.vitals]

theorem execSaveComplete_safe (b : Nat) (s : State) (h : s.vitals.Sound) : Safe (execSaveComplete b s) := by
  unfold execSaveComplete
  grind [State.finishSave_sound, State.modBank_vitals, State.owe_vitals, State.parkEng_sound,
    State.saveBoundary_vitals, Safe]

theorem execSavedContextArrival_safe (b : Nat) (s : State) (h : s.vitals.Sound) :
    Safe (execSavedContextArrival b s) := by
  unfold execSavedContextArrival
  grind [State.arrive_sound, Safe]

theorem execDebugWindowWrite_safe (b : Nat) (item : DebugItem) (s : State) (h : s.vitals.Sound) :
    Safe (execDebugWindowWrite b item s) := by
  unfold execDebugWindowWrite
  grind [State.arrive_sound, State.debugRead_vitals, State.setBank_vitals, State.writeCell_vitals, Safe]

/-! ### Of the module (`Machine/Module`) -/

theorem State.packageReset_sound (s : State) (h : s.vitals.Sound) : s.packageReset.vitals.Sound :=
  { mem := h.mem, hostMem := h.hostMem, time := show 0 / 19 ≤ 0 by decide, cur := show validBank 0 = true by decide }

theorem execPowerOn_safe (s : State) (h : s.vitals.Sound) : Safe (execPowerOn s) := by
  unfold execPowerOn
  grind [State.packageReset_sound, Safe]

theorem execPerstDeassert_safe (s : State) (h : s.vitals.Sound) : Safe (execPerstDeassert s) := by
  unfold execPerstDeassert
  grind [State.packageReset_sound, Safe]

theorem execHotReset_safe (s : State) (h : s.vitals.Sound) : Safe (execHotReset s) := by
  unfold execHotReset
  grind [State.packageReset_sound, Safe]

theorem State.zeroHbm_sound (s : State) (h : s.vitals.Sound) : s.zeroHbm.vitals.Sound :=
  { h with mem := Assoc.wfFrom_filter _ h.mem }

theorem State.stageWork_sound (s : State) (n : Nat) (h : s.vitals.Sound) : (s.stageWork n).vitals.Sound := by
  unfold State.stageWork
  grind [State.drawKeys_vitals, State.runFirmware_vitals, State.startEpoch_vitals, State.zeroHbm_sound, State.vitals]

theorem execBringUpStageEnd_safe (ok : Bool) (s : State) (h : s.vitals.Sound) :
    Safe (execBringUpStageEnd ok s) := by
  unfold execBringUpStageEnd
  grind [State.stageWork_sound, State.vitals, Safe]

/-! ## The dispatch and the step -/

theorem exec_safe (i : Instr) (s : State) (h : s.vitals.Sound) : Safe (exec i s) := by
  cases i with
  | add | sub | mul | mulh | mulhz | div | divz | rem | remz | and | or | xor | andn | shl | shr | sra | rot | fsh
  | clz | ctz | popc | min | max | minz | maxz | cmp | sel | addi | andi | ori | xori | lui | addpc =>
    exact (result_keeps _ _ _).safe h
  | ld | lda => exact (loadOne_keeps _ _ _ _ _).safe h
  | st | stl => exact (storeOne_keeps _ _ _ _ _ _).safe h
  | atom | cas => exact (atomicOp_keeps _ _ _ _ _ _ _ _ _).safe h
  | waitAny | waitAll => exact (waitOp_keeps _ _ _ _ _ _).safe h
  | vnop | vbrk | vend | vtripMrg | vtripAcc | vtripProb | vmask | vadd | vsub | vmul | vfma | vfms | vmin | vmax
  | vabs | vneg | vrcp | vrsq | vexp | vexpSub | vtab | vtload | vcvt | vqnt | vdqnt | vand | vor | vxor | vnot
  | vshl | vshr | vsra | vfsh | vclz | vpopc | vpackWrap | vpackClamp | vpackBits | vunpackLo | vunpackHi
  | vunpackBits | vcmp | vsel | vcommit | vred | vscan | vgmax | vperm | vbcast | viota | vrotm | vld | vldIdx | vst
  | vstIdx | vstmBits | vstmRng | vxq | vmov => exact (issueV_keeps _ _).safe h
  | mma | mmax | mzero | mload | mstore | mrow | medge | mtrans => exact (issueM_keeps _ _).safe h
  | cohGetS | cohGetX | cohUpg => exact (homeRequest_keeps _ _ _ _).safe h
  | b => exact (execB_keeps _ _ _ _ _).safe h
  | j => exact (execJ_keeps _ _).safe h
  | jal => exact (execJal_keeps _ _ _).safe h
  | jr => exact (execJr_keeps _ _ _).safe h
  | ldm => exact (execLdm_keeps _ _ _ _ _).safe h
  | stm => exact (execStm_keeps _ _ _ _ _).safe h
  | fence => exact (execFence_keeps _ _).safe h
  | fenceIfetch => exact (execFenceIfetch_keeps _ _).safe h
  | ldq => exact (execLdq_keeps _ _ _ _ _).safe h
  | xlate => exact (execXlate_keeps _ _ _ _).safe h
  | hdrop => exact (execHdrop_keeps _ _).safe h
  | hinfo => exact (execHinfo_keeps _ _ _ _).safe h
  | keyld => exact (execKeyld_keeps _ _ _ _).safe h
  | qpush => exact (execQpush_keeps _ _ _).safe h
  | qpop => exact (execQpop_keeps _ _ _).safe h
  | qadvHead => exact (execQadvHead_keeps _ _ _).safe h
  | qadvTail => exact (execQadvTail_keeps _ _ _).safe h
  | qlvl => exact (execQlvl_keeps _ _ _).safe h
  | lnset => exact (execLnset_keeps _ _ _ _).safe h
  | adset => exact (execAdset_keeps _ _ _ _).safe h
  | layout => exact (execLayout_keeps _ _ _ _).safe h
  | mblk => exact (execMblk_keeps _ _ _).safe h
  | sev => exact (execSev_keeps _ _).safe h
  | retire => exact (execRetire_keeps _).safe h
  | yield => exact (execYield_keeps _).safe h
  | time => exact (execTime_keeps _ _ _).safe h
  | cbarr => exact (execCbarr_keeps _ _).safe h
  | cbset => exact (execCbset_keeps _ _ _ _).safe h
  | cbadd => exact (execCbadd_keeps _ _ _).safe h
  | launch => exact (execLaunch_keeps _ _ _).safe h
  | phase => exact (execPhase_keeps _ _).safe h
  | trap => exact (execTrap_keeps _ _).safe h
  | eret => exact (execEret_keeps _).safe h
  | halt => exact (execHalt_keeps _).safe h
  | bkpt => exact (execBkpt_keeps _).safe h
  | shoot => exact (execShoot_keeps _ _).safe h
  | keydrop => exact (execKeydrop_keeps _ _).safe h
  | srd => exact (execSrd_keeps _ _ _).safe h
  | swr => exact (execSwr_keeps _ _ _).safe h
  | run => exact (execRun_keeps _ _).safe h
  | cpy => exact (execCpy_keeps _ _).safe h
  | xform => exact (execXform_keeps _ _).safe h
  | attns => exact (execAttns_keeps _ _).safe h
  | sqopen => exact (execSqopen_keeps _ _).safe h
  | sqapp => exact (execSqapp_keeps _ _).safe h
  | sqfork => exact (execSqfork_keeps _ _).safe h
  | sqtrunc => exact (execSqtrunc_keeps _ _).safe h
  | sqpark => exact (execSqpark_keeps _ _).safe h
  | sqwake => exact (execSqwake_keeps _ _).safe h
  | sqclose => exact (execSqclose_keeps _ _).safe h
  | sqinfo => exact (execSqinfo_keeps _ _).safe h
  | attnd => exact (execAttnd_keeps _ _).safe h
  | rdx => exact (execRdx_keeps _ _).safe h
  | coll => exact (execColl_keeps _ _).safe h
  | ring => exact (execRing_keeps _ _).safe h
  | plough => exact (execPlough_keeps _ _).safe h
  | tokp => exact (execTokp_keeps _ _).safe h
  | bundleIssue => exact (execBundleIssue_keeps _ _).safe h
  | blockStart => exact (execBlockStart_keeps _ _).safe h
  | loopBoundPop => exact (execLoopBoundPop_keeps _ _).safe h
  | blockRetire => exact (execBlockRetire_keeps _ _).safe h
  | blockMigrate => exact (execBlockMigrate_keeps _ _).safe h
  | blockMigrateReturn => exact (execBlockMigrateReturn_keeps _ _).safe h
  | mwordComplete => exact (execMwordComplete_keeps _ _).safe h
  | copyStart => exact (execCopyStart_keeps _ _).safe h
  | copyRetire => exact execCopyRetire_safe _ _ h
  | multicastRowLand => exact (execMulticastRowLand_keeps _ _).safe h
  | transformStart => exact (execTransformStart_keeps _ _ _ _).safe h
  | transformRetire => exact execTransformRetire_safe _ _ _ h
  | completionRecordAppend => exact execCompletionRecordAppend_safe _ _ h
  | sheafCommandAccept => exact execSheafCommandAccept_safe _ _ _ h
  | slabRelocationStep => exact (execSlabRelocationStep_keeps _ _ _).safe h
  | walkerRetire => exact (execWalkerRetire_keeps _ _).safe h
  | gleanerBlock => exact execGleanerBlock_safe _ _ h
  | attndRetire => exact execAttndRetire_safe _ _ h
  | rdxRetire => exact execRdxRetire_safe _ _ h
  | collectiveInstanceStart => exact (execCollectiveInstanceStart_keeps _ _ _).safe h
  | collectiveRetire => exact execCollectiveRetire_safe _ _ h
  | ringTripleArrival => exact (execRingTripleArrival_keeps _ _ _ _ _).safe h
  | ringFinalTimeout => exact (execRingFinalTimeout_keeps _ _ _ _).safe h
  | ploughCountExchange => exact (execPloughCountExchange_keeps _ _ _).safe h
  | ploughRetire => exact execPloughRetire_safe _ _ h
  | launchProcess => exact (execLaunchProcess_keeps _ _).safe h
  | notifyRegisterWrite => exact (execNotifyRegisterWrite_keeps _ _ _).safe h
  | mapperQueueMap => exact (execMapperQueueMap_keeps _ _).safe h
  | mapperRecordTake => exact (execMapperRecordTake_keeps _ _).safe h
  | bindRecordWrite => exact (execBindRecordWrite_keeps _ _ _ _).safe h
  | taskStart => exact (execTaskStart_keeps _ _ _).safe h
  | phaseRendezvous => exact (execPhaseRendezvous_keeps _ _ _).safe h
  | retireComplete => exact (execRetireComplete_keeps _ _).safe h
  | pslotWrite => exact (execPslotWrite_keeps _ _ _ _).safe h
  | frameBoundary => exact (execFrameBoundary_keeps _ _).safe h
  | serviceUnitStart => exact (execServiceUnitStart_keeps _ _ _ _ _).safe h
  | acmodeWrite => exact (execAcmodeWrite_keeps _ _ _).safe h
  | acmodeTakeEffect => exact (execAcmodeTakeEffect_keeps _ _).safe h
  | waitConditionMet => exact (execWaitConditionMet_keeps _ _).safe h
  | waitTimeout => exact (execWaitTimeout_keeps _ _).safe h
  | eventArrival => exact execEventArrival_safe _ _ h
  | barrierWindowAccess => exact execBarrierWindowAccess_safe _ _ h
  | homeAtomic => exact execHomeAtomic_safe _ _ h
  | storeAck => exact execStoreAck_safe _ _ _ h
  | loadDataReturn => exact (execLoadDataReturn_keeps _ _).safe h
  | ldqRowArrival => exact (execLdqRowArrival_keeps _ _ _).safe h
  | pageWalkComplete => exact (execPageWalkComplete_keeps _ _ _).safe h
  | shootDieArrival => exact execShootDieArrival_safe _ _ _ h
  | shootComplete => exact (execShootComplete_keeps _ _).safe h
  | keyRequestServe => exact execKeyRequestServe_safe _ _ h
  | accessLogAppend => exact (execAccessLogAppend_keeps _).safe h
  | logreqWrite => exact (execLogreqWrite_keeps _ _).safe h
  | attestationRequest => exact (execAttestationRequest_keeps _ _).safe h
  | egressCreditRequest => exact (execEgressCreditRequest_keeps _ _ _ _).safe h
  | wakeWrite => exact (execWakeWrite_keeps _ _ _).safe h
  | wakeStage1End => exact (execWakeStage1End_keeps _ _).safe h
  | wakeStage2End => exact (execWakeStage2End_keeps _ _).safe h
  | sheafAgeThreshold => exact (execSheafAgeThreshold_keeps _ _).safe h
  | sheafMoveComplete => exact (execSheafMoveComplete_keeps _ _).safe h
  | lendGrant => exact (execLendGrant_keeps _ _ _ _).safe h
  | lendRecall => exact (execLendRecall_keeps _ _ _).safe h
  | cohPut => exact execCohPut_safe _ _ _ h
  | cohAck => exact (execCohAck_keeps _ _ _).safe h
  | cohDO => exact (execCohDO_keeps _ _ _).safe h
  | cohDS => exact execCohDS_safe _ _ _ h
  | cohDW => exact execCohDW_safe _ _ _ h
  | cohDX => exact execCohDX_safe _ _ _ h
  | writeThrough => exact execWriteThrough_safe _ _ _ h
  | bulkWrite => exact execBulkWrite_safe _ _ h
  | bulkRead => exact (execBulkRead_keeps _ _).safe h
  | cohDataS => exact (execCohDataS_keeps _ _ _).safe h
  | cohDataE => exact (execCohDataE_keeps _ _ _).safe h
  | cohDataX => exact execCohDataX_safe _ _ _ h
  | cohGrant => exact execCohGrant_safe _ _ _ h
  | cohFwdS => exact (execCohFwdS_keeps _ _ _).safe h
  | cohFwdX => exact (execCohFwdX_keeps _ _ _).safe h
  | cohInv => exact (execCohInv_keeps _ _ _).safe h
  | cohPeek => exact (execCohPeek_keeps _ _ _).safe h
  | cohPutAck => exact (execCohPutAck_keeps _ _ _).safe h
  | cacheFill => exact (execCacheFill_keeps _ _ _).safe h
  | linkTagFail => exact execLinkTagFail_safe _ _ h
  | packetFinal => exact execPacketFinal_safe _ _ h
  | refusal => exact (execRefusal_keeps _ _).safe h
  | reissue => exact (execReissue_keeps _ _).safe h
  | migrationRegisterWrite => exact execMigrationRegisterWrite_safe _ _ _ _ h
  | copyPassEnd => exact (execCopyPassEnd_keeps _ _).safe h
  | recallComplete => exact (execRecallComplete_keeps _ _).safe h
  | recopyEnd => exact execRecopyEnd_safe _ _ h
  | migrationGraceEnd => exact (execMigrationGraceEnd_keeps _ _).safe h
  | reftimeBeacon => exact execReftimeBeacon_safe _ _ h
  | asyncTrapTaken => exact (execAsyncTrapTaken_keeps _ _).safe h
  | handlerEntry => exact (execHandlerEntry_keeps _ _).safe h
  | bankStopDrainEnd => exact (execBankStopDrainEnd_keeps _ _).safe h
  | bctlResume => exact (execBctlResume_keeps _ _).safe h
  | bctlEndTask => exact (execBctlEndTask_keeps _ _).safe h
  | bctlEnterHandler => exact (execBctlEnterHandler_keeps _ _).safe h
  | taskEndComplete => exact (execTaskEndComplete_keeps _ _ _).safe h
  | pctlSave => exact (execPctlSave_keeps _ _ _).safe h
  | pctlRestore => exact (execPctlRestore_keeps _ _ _).safe h
  | saveComplete => exact execSaveComplete_safe _ _ h
  | restoreComplete => exact (execRestoreComplete_keeps _ _).safe h
  | blockWatchdog => exact (execBlockWatchdog_keeps _ _).safe h
  | savedContextArrival => exact execSavedContextArrival_safe _ _ h
  | debugAttach => exact (execDebugAttach_keeps _ _).safe h
  | debugHaltRequest => exact (execDebugHaltRequest_keeps _ _).safe h
  | debugWindowWrite => exact execDebugWindowWrite_safe _ _ _ h
  | correctedError => exact (execCorrectedError_keeps _ _ _ _).safe h
  | rasWindowEnd => exact (execRasWindowEnd_keeps _ _).safe h
  | hostMemoryAccess => exact (execHostMemoryAccess_keeps _ _ _ _).safe h
  | cxlDeviceAccess => exact (execCxlDeviceAccess_keeps _ _ _ _ _).safe h
  | pwrlimWrite => exact (execPwrlimWrite_keeps _ _).safe h
  | configRegisterWrite => exact (execConfigRegisterWrite_keeps _ _ _ _).safe h
  | powerOn => exact execPowerOn_safe _ h
  | perstDeassert => exact execPerstDeassert_safe _ h
  | hotReset => exact execHotReset_safe _ h
  | bringUpStageEnd => exact execBringUpStageEnd_safe _ _ h
  | readySet => exact (execReadySet_keeps _).safe h
  | bundleCopyComplete => exact (execBundleCopyComplete_keeps _ _).safe h
  | globalSramHomeAccess => exact (execGlobalSramHomeAccess_keeps _ _).safe h
  | pairedWindowStart => exact (execPairedWindowStart_keeps _ _).safe h
  | meterCreditAgeOut => exact (execMeterCreditAgeOut_keeps _ _ _).safe h

theorem State.advance_sound (n : Nat) (s : State) (h : s.vitals.Sound) : (s.advance n).vitals.Sound :=
  { h with time := Nat.le_max_right _ _ }

theorem State.cycle_sound (n : Nat) (s : State) (h : s.vitals.Sound) : (s.cycle n).vitals.Sound := by
  have hs : s.sampleAll.vitals.Sound := h.of_eq (State.sampleAll_vitals s)
  exact (State.advance_sound n _ hs).of_eq (State.frames_vitals _)

/-- A bank that exists may become the acting one. -/
theorem Vitals.Sound.act {v : Vitals} (h : v.Sound) {b : Nat} (hb : validBank b = true) :
    Vitals.Sound { v with cur := b } :=
  { h with cur := hb }

theorem State.actAs_sound (s : State) (b : Nat) (hb : validBank b = true) (h : s.vitals.Sound) :
    (s.actAs b).vitals.Sound := by
  have hc : (s.actAs b).vitals = { s.vitals with cur := b } := by
    unfold State.actAs
    extract_lets s1
    have hm := State.modCore_vitals s1 (bankCore b) fun c => { c with turn := 1 + b % 2 }
    rw [show s1.vitals = s.vitals by rw [State.modBank_vitals, State.modBank_vitals]] at hm
    exact congrArg (fun v : Vitals => { v with cur := b }) hm
  exact (h.act hb).of_eq hc

theorem State.issued_sound (s : State) (b w : Nat) (hb : validBank b = true) (h : s.vitals.Sound) :
    (s.issued b w).vitals.Sound :=
  (s.actAs_sound b hb h).of_eq (State.holding_vitals ..)

theorem State.tried_sound (s : State) (b w : Nat) (hb : validBank b = true) (h : s.vitals.Sound) :
    (s.tried b w).vitals.Sound :=
  (h.of_eq (s.holding_vitals b w)).act hb

theorem seqStep_safe (b : Nat) (s : State) (h : s.vitals.Sound) : Safe (seqStep b s) := by
  unfold seqStep
  split
  · exact .fault
  next hv =>
  have hb : validBank b = true := by simpa using hv
  split
  · exact .next h
  have hf := State.fetchInsn_vitals s b
  split
  next s1 heq =>
    rw [heq] at hf
    exact .next ((h.of_eq hf).act hb)
  next t s1 heq =>
    rw [heq] at hf
    exact .next ((s1.issued_sound b 0 hb (h.of_eq hf)).of_eq (State.takeTrap_vitals ..))
  next w s1 heq =>
    rw [heq] at hf
    have h1 : s1.vitals.Sound := h.of_eq hf
    split
    · exact .next ((s1.issued_sound b w hb h1).of_eq (State.takeTrap_vitals ..))
    next i _ =>
      extract_lets o
      split
      · exact exec_safe i _ (s1.tried_sound b w hb h1)
      · exact exec_safe i _ (s1.issued_sound b w hb h1)

theorem bringUp_safe (s : State) (h : s.vitals.Sound) : Safe (bringUp s) := by
  unfold bringUp
  split
  · exact .next h
  split
  · exact execPowerOn_safe s h
  split
  · exact execBringUpStageEnd_safe _ s h
  · exact (execReadySet_keeps s).safe h

theorem turnStep_safe (s : State) (h : s.vitals.Sound) : Safe (turnStep s) := by
  have hp (i : Instr) (rest : List Instr) : Safe (exec i { s with pending := rest }) := exec_safe i _ h
  unfold turnStep
  split
  · exact bringUp_safe s h
  · exact seqStep_safe _ s h
  · exact hp _ _
  · split
    · exact hp _ _
    · exact seqStep_safe _ s h

theorem duePacket_safe {s : State} {o : Out} (hs : s.vitals.Sound) (h : duePacket s = some o) : Safe o := by
  obtain ⟨x, -, rfl⟩ := Option.map_eq_some_iff.mp h
  exact execPacketFinal_safe _ s hs

theorem dueWatchdog_keeps {s : State} {o : Out} (h : dueWatchdog s = some o) : Keeps s.vitals o := by
  obtain ⟨x, -, rfl⟩ := Option.map_eq_some_iff.mp h
  exact execBlockWatchdog_keeps _ s

theorem dueAcmode_keeps {s : State} {o : Out} (h : dueAcmode s = some o) : Keeps s.vitals o := by
  obtain ⟨x, -, rfl⟩ := Option.map_eq_some_iff.mp h
  exact execAcmodeTakeEffect_keeps _ s

theorem dueGrace_keeps {s : State} {o : Out} (h : dueGrace s = some o) : Keeps s.vitals o := by
  obtain ⟨x, -, rfl⟩ := Option.map_eq_some_iff.mp h
  exact execMigrationGraceEnd_keeps _ s

theorem dueRing_keeps {s : State} {o : Out} (h : dueRing s = some o) : Keeps s.vitals o := by
  obtain ⟨i, -, hi⟩ := List.exists_of_findSome?_eq_some h
  obtain ⟨x, -, rfl⟩ := Option.map_eq_some_iff.mp hi
  exact execRingFinalTimeout_keeps _ _ _ s

theorem dueCredit_keeps {s : State} {o : Out} (h : dueCredit s = some o) : Keeps s.vitals o := by
  obtain ⟨p, -, hp⟩ := List.exists_of_findSome?_eq_some h
  obtain ⟨x, -, rfl⟩ := Option.map_eq_some_iff.mp hp
  exact execMeterCreditAgeOut_keeps _ _ s

theorem dueAge_keeps {s : State} {o : Out} (h : dueAge s = some o) : Keeps s.vitals o := by
  obtain ⟨x, -, rfl⟩ := Option.map_eq_some_iff.mp h
  exact execSheafAgeThreshold_keeps _ s

theorem dueRas_keeps {s : State} {o : Out} (h : dueRas s = some o) : Keeps s.vitals o := by
  obtain ⟨x, -, rfl⟩ := Option.map_eq_some_iff.mp h
  exact execRasWindowEnd_keeps _ s

theorem dueStep_safe {s : State} {o : Out} (hs : s.vitals.Sound) (h : dueStep s = some o) : Safe o := by
  obtain ⟨f, hf, ho⟩ := List.exists_of_findSome?_eq_some h
  simp only [List.mem_cons, List.not_mem_nil, or_false] at hf
  obtain rfl | rfl | rfl | rfl | rfl | rfl | rfl | rfl := hf
  · exact duePacket_safe hs ho
  · exact (dueWatchdog_keeps ho).safe hs
  · exact (dueAcmode_keeps ho).safe hs
  · exact (dueGrace_keeps ho).safe hs
  · exact (dueRing_keeps ho).safe hs
  · exact (dueCredit_keeps ho).safe hs
  · exact (dueAge_keeps ho).safe hs
  · exact (dueRas_keeps ho).safe hs

theorem autoStep_safe (s : State) (h : s.vitals.Sound) : Safe (autoStep s) := by
  unfold autoStep
  split
  next o ho => exact dueStep_safe h ho
  next => exact turnStep_safe s h

theorem State.upset_sound (s : State) (x : Spot) (h : s.vitals.Sound) : (s.upset x).vitals.Sound := by
  have ht : s.tickFree.vitals.Sound := h
  cases x with
  | mem n =>
    unfold State.upset
    extract_lets xs row s1 cell reg
    dsimp only
    split
    · rw [State.setRowMeta_vitals]
      exact State.setBytes_sound _ _ _ ht
    · exact h
  | sram key =>
    rw [State.upset, State.setCell_vitals]
    exact ht
  | gleaner key =>
    rw [State.upset]
    exact h
  | vreg b i | oreg b i | entry b q p =>
    rw [State.upset, State.modBank_vitals]
    exact ht
  | tile b i =>
    rw [State.upset, State.modBank_vitals]
    exact h

theorem move_safe (s : State) (h : s.vitals.Sound) : Safe (move s) := by
  have hc (n : Nat) (rest : List Turn) : Vitals.Sound (State.vitals { s.cycle n with agenda := rest }) :=
    s.cycle_sound n h
  unfold move
  split
  · exact autoStep_safe _ (s.cycle_sound 1 h)
  · exact seqStep_safe _ _ (hc 1 _)
  · split
    · exact exec_safe _ _ (hc 1 _)
    · exact .next (hc 1 _)
  · exact .next ((hc 1 _).of_eq (State.arriveTogether_vitals ..))
  · exact .next (hc _ _)
  · exact .next (State.upset_sound _ _ (hc 1 _))

/-- Settles O60: a step writes memory only through `putBytes` and a filter, moves time only through `State.advance` and
the beacon, and makes a bank act only after finding that it exists. -/
theorem everyStepKeepsTheInvariant : Obligations.EveryStepKeepsTheInvariant := by
  unfold Obligations.EveryStepKeepsTheInvariant
  intro s t hs ht
  exact inv_iff_sound.mpr (move_safe s (inv_iff_sound.mp hs) t ht)

end Sys2Proof.Machine

/-!
## STAGE 3 while a page is forwarded (O54 fails)

`State.drawKeys` picks rows by their own address, but writes their marks where `State.frameOf` leads. A page of CXL memory
that is forwarded to a frame in HBM so gives its mark to a row of HBM, which the statement's clause for STAGE 3 says is
left as it was. The clause for STAGE 6 has the premise that no migration is under way; the one for STAGE 3 lacks it.
-/

namespace Sys2Proof.Machine

/-- A module in STAGE 3 that forwards the first page of CXL memory to the first frame of HBM; the page holds one byte. -/
def forwardingInStage3 : State :=
  { State.reset with
    mem := [(9 * 2 ^ 48, 1)],
    migr := [{ old := 9 * 2 ^ 48, new := 0, size := 2 ^ 16, phase := 3, dirty := [], since := 0 }],
    modul := { Module.zero with stage := 3 } }

theorem drawKeys_forwardingInStage3 :
    isCxl (256 * 0) = false ∧ (forwardingInStage3.rowMeta 0).key = 0 ∧
      (forwardingInStage3.drawKeys.rowMeta 0).key = 8192 := by
  decide

theorem bringUpStageEnd_forwardingInStage3 :
    exec (.bringUpStageEnd true) forwardingInStage3 =
      .next { forwardingInStage3.drawKeys with modul := { forwardingInStage3.drawKeys.modul with stage := 4 } } := rfl

/-- Refutes O54: in `forwardingInStage3` the end of STAGE 3 marks row 0, which is not in CXL memory. -/
theorem not_theModuleAnswersConfiguresAndStarts : ¬ Obligations.TheModuleAnswersConfiguresAndStarts := by
  unfold Obligations.TheModuleAnswersConfiguresAndStarts
  rintro ⟨-, -, -, -, -, -, -, -, -, hstage, -⟩
  obtain ⟨-, -, hend⟩ := hstage forwardingInStage3 (by decide) (by decide) rfl
  obtain ⟨t, ht, -, -, -, -, -, -, -, -, -, -, hkeys, -⟩ := hend (by decide)
  obtain ⟨hcxl, hbefore, hafter⟩ := drawKeys_forwardingInStage3
  rw [bringUpStageEnd_forwardingInStage3] at ht
  cases ht
  obtain ⟨-, hmeta⟩ := hkeys rfl
  have hkey := congrArg RowMeta.key (hmeta 0 (.inl hcxl))
  rw [hbefore] at hkey
  exact absurd (hafter.symm.trans hkey) (by decide)

end Sys2Proof.Machine

/-!
## Control transfers, their slot, and synchronous traps (O4, O5)

A control transfer whose slot can issue leaves the bank at its slot with its link written, and changes nothing else
(`StandsAtSlot`). A word that a slot may not hold has `noSlot` for its outermost check, so that in a slot it comes to the
illegal-instruction trap, whatever follows the check. What a synchronous trap leaves behind is said once, for every
trap of the sequencer, in `trapped_takeTrap`.
-/

namespace Sys2Proof.Machine

open Sys2Proof.Says

/-! ### Control transfers (R79, R80, R82) -/

/-- The condition of a branch is that of R34. -/
theorem cond_iff_holds (cc : BitVec 3) (a b : Word) : cond cc a b = true ↔ Holds cc a b := by
  unfold cond Holds
  match cc.toNat with
  | 0 | 1 | 6 | _ + 7 => simp
  | 2 => exact BitVec.slt_iff_toInt_lt
  | 3 => simp [BitVec.slt_eq_decide]
  | 4 => exact BitVec.ult_iff_toNat_lt
  | 5 => simp [BitVec.ult_eq_decide]

/-- An offset counts words of four bytes. -/
theorem offW_eq {n : Nat} (off : BitVec n) : offW off = off.signExtend 64 * 4 := by
  rw [offW, BitVec.ofInt_mul, BitVec.mul_comm]
  rfl

/-- After a control transfer the bank of t stands at the slot of the one of s, which leads to `target` when taken, with the
link in `s`d; nothing else has changed. -/
def StandsAtSlot (s t : State) (taken : Bool) (target : Word) (d : BitVec 5) : Prop :=
  t.me.pc = s.me.pc + 4 ∧
  t.me.slot = some { branch := s.me.pc, target := target, taken := taken, prep := s.slotPrep (s.me.pc + 4) } ∧
  Sets d (s.me.pc + 8) s t ∧ OnlyRegs s t ∧ OnlyMe s t ∧ SameMemory s t

/-- A transfer without a link is one that links to `s0`. -/
theorem branch_unlinked (s : State) (taken : Bool) (target : Word) :
    branch s taken target none = branch s taken target (some 0) := rfl

/-- A control transfer whose slot can issue at once completes. -/
theorem branch_standsAtSlot {s : State} (hw : s.slotWait (s.me.pc + 4) = none) (taken : Bool) (target : Word) (d : BitVec 5) :
    ∃ t, branch s taken target (some d) = .next t ∧ StandsAtSlot s t taken target d := by
  simp only [branch, hw]
  refine ⟨_, rfl, by rw [State.me_modMe], by rw [State.me_modMe], fun r => ?_, ?_, ⟨fun b => State.bank_modMe_ne s _, rfl⟩,
    State.byte_modMe s _⟩
  · rw [State.reg, State.me_modMe]
    exact Bank.reg_setReg s.me d r _
  · rw [OnlyRegs, State.me_modMe, Bank.setReg]
    split <;> rfl

/-- Without a link every register reads as before. -/
theorem StandsAtSlot.reg_eq {s t : State} {taken : Bool} {target : Word} (h : StandsAtSlot s t taken target 0) (r : BitVec 5) :
    t.reg r = s.reg r := by
  obtain ⟨-, -, hregs, -⟩ := h
  rw [hregs r, if_neg fun h => h.2 h.1]

theorem noSlot_outside {s : State} (h : s.me.slot = none) (f : State → Out) : noSlot s f = f s := by
  simp [noSlot, h]

theorem noSlot_inside {s : State} (h : s.me.slot ≠ none) (f : State → Out) : noSlot s f = trapNow s illegalInstruction := by
  simp [noSlot, Option.isSome_iff_ne_none, h]

/-! ### Synchronous traps (R83, R415 to R419) -/

/-- A trap of the sequencer that its record can hold: class and sub-code fit their fields, and no engine, boundary or
deferral is marked. -/
structure Trap.Sync (t : Trap) : Prop where
  cls : t.cls < 256
  sub : t.sub < 256
  eng : t.eng = 0
  asyn : t.asyn = false
  defer : t.defer = false
  edge : t.edge = false

/-- The location fields that `State.fillTrap` chooses are all that it changes of a trap. -/
theorem State.fillTrap_frame (s : State) (t : Trap) :
    ∃ ea ei p0 p1 p2 p3, s.fillTrap t =
      { t with eaddr := ea, einfo := ei, prog0 := p0, prog1 := p1, prog2 := p2, prog3 := p3 } := by
  unfold State.fillTrap
  split <;> exact ⟨_, _, _, _, _, _, rfl⟩

theorem makeRecord_fstat (k : Bank) (w : Word) (t : Trap) :
    (makeRecord k w t).fstat = t.fstat k.inTakenSlot.isSome := by
  simp only [makeRecord]

/-- What a record holds of a trap; the registers of the handler and of the software stay as they are. -/
theorem makeRecord_frame (k : Bank) (w : Word) (t : Trap) :
    ∃ fs ep en et ea ei p0 p1 p2 p3 ins, makeRecord k w t =
      { k.sys with fstat := fs, epc := ep, enpc := en, etgt := et, eaddr := ea, einfo := ei, eprog0 := p0, eprog1 := p1,
                   eprog2 := p2, eprog3 := p3, einsn := ins } :=
  ⟨_, _, _, _, _, _, _, _, _, _, _, rfl⟩

/-- A record keeps what its bank holds of those registers. -/
theorem makeRecord_keeps (k : Bank) (w : Word) (t : Trap) :
    (makeRecord k w t).tvec = k.sys.tvec ∧ (makeRecord k w t).tmask = k.sys.tmask ∧ (makeRecord k w t).escr0 = k.sys.escr0 ∧
    (makeRecord k w t).escr1 = k.sys.escr1 ∧ (makeRecord k w t).fpc = k.sys.fpc ∧ (makeRecord k w t).hkey = k.sys.hkey := by
  obtain ⟨_, _, _, _, _, _, _, _, _, _, _, h⟩ := makeRecord_frame k w t
  rw [h]
  exact ⟨rfl, rfl, rfl, rfl, rfl, rfl⟩

/-- The record of a synchronous trap is the one of R83. -/
theorem makeRecord_record (k : Bank) {t : Trap} (ht : t.Sync) : Says.Record k t.cls t.sub t.restart (makeRecord k k.insn t) := by
  obtain ⟨hcls, hsub, -, heng, hds, hrestart, hasyn, hdefer, -⟩ := t.fstat_fields k.inTakenSlot.isSome
  rw [Nat.mod_eq_of_lt ht.cls] at hcls
  rw [Nat.mod_eq_of_lt ht.sub] at hsub
  rw [ht.eng] at heng
  rw [ht.asyn] at hasyn
  rw [ht.defer] at hdefer
  unfold Says.Record
  rw [makeRecord_fstat]
  refine ⟨hcls, hsub, heng, hrestart, hasyn, hdefer, ?_, ?_, makeRecord_keeps ..⟩
  · revert hds
    cases hslot : k.slot with
    | none => simp [makeRecord, Bank.inTakenSlot, hslot, ht.asyn, ht.edge]
    | some sl => cases htaken : sl.taken <;> simp [makeRecord, Bank.inTakenSlot, hslot, htaken, ht.asyn, ht.edge]
  · simp [makeRecord, ht.asyn, ht.edge]

/-- The record that a trap leaves, its location fields chosen, is the one of R83. -/
theorem State.fillTrap_record (s : State) (k : Bank) {t : Trap} (ht : t.Sync) :
    Says.Record k t.cls t.sub t.restart (makeRecord k k.insn (s.fillTrap t)) := by
  obtain ⟨_, _, _, _, _, _, hfill⟩ := s.fillTrap_frame t
  rw [hfill]
  exact makeRecord_record k ⟨ht.cls, ht.sub, ht.eng, ht.asyn, ht.defer, ht.edge⟩

/-- The handler's address is bits [55:2] of TVEC, times 4 (R417). -/
theorem handlerPc_eq (tvec : Word) : handlerPc tvec = BitVec.ofNat 64 (bits tvec 55 2 * 4) := by
  have hmask : (0x00FFFFFFFFFFFFFC : Word) = BitVec.ofNat 64 ((2 ^ 54 - 1) * 2 ^ 2) := rfl
  have hbits : bits tvec 55 2 * 4 = tvec.toNat / 2 ^ 2 % 2 ^ 54 * 2 ^ 2 := rfl
  apply BitVec.eq_of_getLsbD_eq
  intro i hi
  rw [handlerPc, hmask, hbits, BitVec.getLsbD_and, BitVec.getLsbD_ofNat, BitVec.getLsbD_ofNat, Nat.testBit_mul_two_pow,
    Nat.testBit_mul_two_pow, Nat.testBit_mod_two_pow, Nat.testBit_two_pow_sub_one, Nat.testBit_div_two_pow]
  by_cases h2 : 2 ≤ i
  · simp [h2, hi, BitVec.getLsbD, Bool.and_comm]
  · simp [h2]

theorem Bank.toHandler_iff (k : Bank) (c : Nat) :
    k.toHandler c = true ↔ bit k.sys.tmask c = true ∧ k.sys.tvec ≠ 0 ∧ k.hmode = false ∧ c ≠ 17 := by
  simp [Bank.toHandler, and_assoc]

/-- A synchronous trap of a bank whose task is not being ended: its handler or its stop, with the record, and the frame. -/
theorem trapped_takeTrap {s : State} (hrun : s.me.run ≠ .ending) {t : Trap} (ht : t.Sync) :
    Trapped t.cls t.sub t.restart s (s.takeTrap s.cur t) := by
  obtain ⟨hbanks, -, -, -, hsram, -, -, -, -, -, hcur, -, -, -, hbyte⟩ := s.takeTrap_frame s.cur t
  obtain ⟨hregs, hhandles, hqueues, hcmds, hposts, -⟩ := s.takeTrap_bank s.cur t
  have hme : (s.takeTrap s.cur t).me = (s.takeTrap s.cur t).bank s.cur := by rw [State.me, hcur]
  refine ⟨_, s.fillTrap_record s.me ht, ?_, fun q => ?_, hme ▸ hhandles, hme ▸ hqueues, hme ▸ hcmds, hme ▸ hposts, hbanks,
    hbyte, hsram, hcur⟩
  · rcases s.takeTrap_cases s.cur t hrun with ⟨hto, hnext⟩ | ⟨hto, hnext⟩
    · rw [if_pos ((Bank.toHandler_iff s.me _).mp hto), hme, hnext, State.bank_setBank_same]
      exact ⟨rfl, rfl, rfl, rfl, handlerPc_eq _⟩
    · rw [if_neg (mt (Bank.toHandler_iff s.me _).mpr (Bool.not_eq_true _ ▸ hto)), hme, hnext, State.bank_owe,
        State.bank_setBank_same]
      exact ⟨rfl, rfl, rfl, rfl, rfl⟩
  · rw [State.reg, hme, Bank.reg, hregs]
    rfl

/-- A trap without sub-code and location, of a class that fits. -/
theorem Trap.sync_mk0 {c : Nat} (hc : c < 256) : (Trap.mk0 c 0).Sync := ⟨hc, Nat.zero_lt_succ _, rfl, rfl, rfl, rfl⟩

/-- A word that comes to a trap without sub-code and location takes it, before any effect. -/
theorem traps_of_trapNow {i : Instr} {s : State} {c : Nat} (hrun : s.me.run = .live) (hc : c < 256)
    (hi : exec i s = trapNow s (Trap.mk0 c 0)) : Traps i s c 0 :=
  ⟨_, hi, trapped_takeTrap (by simp [hrun]) (Trap.sync_mk0 hc)⟩

/-! ### The transfers outside a slot -/

section
variable {s : State} (h : s.me.slot = none)
include h

theorem exec_b (a b : BitVec 5) (cc : BitVec 3) (off : BitVec 13) :
    exec (.b a b cc off) s = branch s (cond cc (s.reg a) (s.reg b)) (s.me.pc + off.signExtend 64 * 4) (some 0) := by
  change execB a b cc off s = _
  rw [execB, noSlot_outside h, offW_eq, branch_unlinked]

theorem exec_j (off : BitVec 21) : exec (.j off) s = branch s true (s.me.pc + off.signExtend 64 * 4) (some 0) := by
  change execJ off s = _
  rw [execJ, noSlot_outside h, offW_eq, branch_unlinked]

theorem exec_jal (d : BitVec 5) (off : BitVec 21) :
    exec (.jal d off) s = branch s true (s.me.pc + off.signExtend 64 * 4) (some d) := by
  change execJal d off s = _
  rw [execJal, noSlot_outside h, offW_eq]

theorem exec_jr (d a : BitVec 5) :
    exec (.jr d a) s =
      if (s.reg a).toNat % 4 ≠ 0 then trapNow s illegalOperand else branch s true (s.reg a) (some d) := by
  change execJr d a s = _
  rw [execJr, noSlot_outside h]

end

/-- Settles O4: every transfer is `branch` behind the check for a slot, with `s0` for its link where it writes none. -/
theorem branchesLeaveThroughTheirSlot : Obligations.BranchesLeaveThroughTheirSlot := by
  unfold Obligations.BranchesLeaveThroughTheirSlot
  intro s hslot hwait
  have hbranch := branch_standsAtSlot hwait
  refine ⟨fun a b cc off => ?_, fun off => ?_, fun d off => ?_, fun d a hal => ?_, fun d a hal hrun => ?_⟩
  · rw [exec_b hslot]
    obtain ⟨t, hnext, hstands⟩ := hbranch (cond cc (s.reg a) (s.reg b)) (s.me.pc + off.signExtend 64 * 4) 0
    have hregs := hstands.reg_eq
    obtain ⟨hpc, hsl, -, hframe⟩ := hstands
    exact ⟨t, _, hnext, cond_iff_holds cc _ _, hpc, hsl, hregs, hframe⟩
  · rw [exec_j hslot]
    obtain ⟨t, hnext, hstands⟩ := hbranch true (s.me.pc + off.signExtend 64 * 4) 0
    have hregs := hstands.reg_eq
    obtain ⟨hpc, hsl, -, hframe⟩ := hstands
    exact ⟨t, hnext, hpc, hsl, hregs, hframe⟩
  · rw [exec_jal hslot]
    exact hbranch true (s.me.pc + off.signExtend 64 * 4) d
  · rw [exec_jr hslot, if_neg (not_not_intro hal)]
    exact hbranch true (s.reg a) d
  · exact traps_of_trapNow hrun (by decide) (by rw [exec_jr hslot, if_pos hal]; rfl)

/-- Settles O5: each of the words has the check for a slot outermost, before its rights, operands and queue. -/
theorem slotsRefuseTransfersAndDoubleWords : Obligations.SlotsRefuseTransfersAndDoubleWords := by
  unfold Obligations.SlotsRefuseTransfersAndDoubleWords
  intro s hrun hslot
  have h {i : Instr} : exec i s = trapNow s illegalInstruction → Traps i s 1 0 := traps_of_trapNow hrun (by decide)
  refine ⟨fun a b cc off => h ?_, fun off => h ?_, fun d off => h ?_, fun d a => h ?_, h ?_, h ?_, h ?_, h ?_, fun k => h ?_,
    fun d a b n => ⟨h ?_, h ?_⟩, fun x => ⟨h ?_, h ?_, h ?_, h ?_, h ?_, h ?_, h ?_, h ?_, h ?_, h ?_, h ?_, h ?_, h ?_, h ?_,
      h ?_, h ?_, h ?_, h ?_⟩⟩
  all_goals simp only [exec, execB, execJ, execJal, execJr, execEret, execRetire, execYield, execHalt, execTrap, execWaitAny,
    execWaitAll, execRun, execCpy, execXform, execAttns, execSqopen, execSqapp, execSqfork, execSqtrunc, execSqpark,
    execSqwake, execSqclose, execSqinfo, execAttnd, execRdx, execColl, execRing, execPlough, execTokp, waitOp, engineCommand,
    referCommand, noSlot_inside hslot]

end Sys2Proof.Machine

/-!
## Tags of the integer and bit words (O27)

A word that goes element by element takes the tags of the same lanes of its sources (`laneTag`), and its tags are
`sameTags` of their union; a pack or unpack tags all lanes alike.
-/

namespace Sys2Proof.Machine

/-- The tag that lane l takes of a source with tags t; a 64-bit element takes those of both its lanes (R129). -/
def laneTag (w : Nat) (t : BitVec 64) (l : Nat) : Bool :=
  if w = 64 then t.getLsbD (l / 2 * 2) || t.getLsbD (l / 2 * 2 + 1) else t.getLsbD l

theorem laneTag_or (w : Nat) (t u : BitVec 64) (l : Nat) : laneTag w (t ||| u) l = (laneTag w t l || laneTag w u l) := by
  unfold laneTag
  split
  · simp only [BitVec.getLsbD_or]
    ac_rfl
  · exact BitVec.getLsbD_or

/-- The number with bit i set for each i below n with f i. -/
theorem testBit_foldl_range (f : Nat → Bool) (n : Nat) :
    let x := (List.range n).foldl (fun acc i => if f i then acc + 2 ^ i else acc) 0
    x < 2 ^ n ∧ ∀ l < n, x.testBit l = f l := by
  induction n with
  | zero => simp
  | succ n ih =>
    obtain ⟨hlt, hbits⟩ := ih
    simp only [List.range_succ, List.foldl_append, List.foldl_cons, List.foldl_nil]
    generalize (List.range n).foldl _ 0 = x at hlt hbits
    have hpow : 2 ^ (n + 1) = 2 ^ n + 2 ^ n := by omega
    cases hf : f n with
    | false =>
      refine ⟨by simp; omega, fun l hl => ?_⟩
      rcases Nat.lt_succ_iff_lt_or_eq.mp hl with hl | rfl
      · exact hbits l hl
      · simpa [hf] using Nat.testBit_lt_two_pow hlt
    | true =>
      refine ⟨by simp; omega, fun l hl => ?_⟩
      rw [if_pos rfl, Nat.add_comm]
      rcases Nat.lt_succ_iff_lt_or_eq.mp hl with hl | rfl
      · rw [Nat.testBit_two_pow_add_gt hl, hbits l hl]
      · rw [Nat.testBit_two_pow_add_eq, Nat.testBit_lt_two_pow hlt, hf, Bool.not_false]

theorem getLsbD_lanesWhere (f : Nat → Bool) {l : Nat} (hl : l < 64) : (lanesWhere f).getLsbD l = f l := by
  rw [lanesWhere, BitVec.getLsbD_ofNat, (testBit_foldl_range f 64).2 l hl, decide_eq_true hl, Bool.true_and]

theorem getLsbD_sameTags (w : Nat) (t : BitVec 64) {l : Nat} (hl : l < 64) : (sameTags w t).getLsbD l = laneTag w t l := by
  unfold sameTags laneTag
  split
  · exact getLsbD_lanesWhere _ hl
  · rfl

theorem getLsbD_allLanes (c : Bool) {l : Nat} (hl : l < 64) : (allLanes c).getLsbD l = c := by
  cases c with
  | false => simp [allLanes]
  | true => simp only [allLanes, if_true, BitVec.getLsbD_allOnes, hl, decide_true]

/-! ### The shapes of the words -/

section
variable (i : VIn) {l : Nat} (hl : l < 64)
include hl

theorem unary_tag (f : Nat → Nat) : (unary i f).2.getLsbD l = laneTag i.w i.a.tags l :=
  getLsbD_sameTags _ _ hl

theorem binary_tag (f : Nat → Nat → Nat) :
    (binary i f).2.getLsbD l = (laneTag i.w i.a.tags l || laneTag i.w i.b.tags l) :=
  (getLsbD_sameTags _ _ hl).trans (laneTag_or ..)

theorem ternary_tag (f : Nat → Nat → Nat → Nat) :
    (ternary i f).2.getLsbD l = (laneTag i.w i.a.tags l || laneTag i.w i.b.tags l || laneTag i.w i.d.tags l) := by
  rw [ternary, getLsbD_sameTags _ _ hl, laneTag_or, laneTag_or]

theorem narrow_tag (f : Nat → Nat) : (narrow i f).2.getLsbD l = (i.a.tags != 0 || i.b.tags != 0) :=
  getLsbD_allLanes _ hl

theorem widen_tag (n : Nat) : (widen i n).2.getLsbD l = (i.a.tags != 0) :=
  getLsbD_allLanes _ hl

end

/-- Settles O27: each word has one of five shapes, or is a bit form. -/
theorem tagsFollowTheirSources : Obligations.TagsFollowTheirSources := by
  unfold Obligations.TagsFollowTheirSources
  intro i l hl
  simp only [List.forall_mem_cons, List.not_mem_nil, false_implies, implies_true, and_true]
  have hbinary := binary_tag i hl
  have hunary := unary_tag i hl
  exact ⟨⟨hbinary _, hbinary _, hbinary _, hbinary _, hbinary _, hbinary _⟩, ⟨hunary _, hunary _, hunary _⟩, ternary_tag i hl _,
    ⟨narrow_tag i hl _, narrow_tag i hl _⟩, ⟨widen_tag i hl _, widen_tag i hl _⟩, getLsbD_allLanes _ hl, getLsbD_allLanes _ hl⟩

end Sys2Proof.Machine
